-- ==== Sys2Proof/Word.lean ====
section
/-! DEFINITION. The word types of the F12 (spec/00 R4, spec/02 R22) and the keyed collection that holds
registers and records. -/

namespace Sys2Proof

/-- A byte of memory. -/
abbrev Byte := BitVec 8

/-- A register or instruction word (R22, R93). -/
abbrev Word := BitVec 32

/-- A register pair, an address or a literal (R20, R35). -/
abbrev Dword := BitVec 64

/-- A collection keyed by natural numbers, held in rising order of its keys. -/
abbrev KV (α : Type) := List (Nat × α)

/-- The value held for key `k`, or `d` where none is held. -/
def kvGet {α : Type} (d : α) : KV α → Nat → α
  | [], _ => d
  | (k', v) :: r, k => if k = k' then v else if k < k' then d else kvGet d r k

/-- The collection with `v` held for key `k`. -/
def kvSet {α : Type} : KV α → Nat → α → KV α
  | [], k, v => [(k, v)]
  | (k', v') :: r, k, v =>
    if k < k' then (k, v) :: (k', v') :: r
    else if k = k' then (k, v) :: r
    else (k', v') :: kvSet r k v

/-- The collection without an entry for key `k`. -/
def kvDel {α : Type} : KV α → Nat → KV α
  | [], _ => []
  | (k', v') :: r, k => if k = k' then kvDel r k else (k', v') :: kvDel r k

end Sys2Proof
end

