-- ==== Sys2Proof/Syntax.lean ====
section
/-! DEFINITION. The instructions and the events of the F12: one constructor for each row of the opcode
table, those with fields first, then NOP and the events, each in the table's order. An instruction constructor
carries the fields of its form (spec/02 R22 to R31). An event constructor carries nothing: what an event
concerns (a die, a request, a link) stands in the machine's state, as Machine/Event.lean says. -/

namespace Sys2Proof

/-- The fields of a short-form word (R26, Table 2-2). -/
structure Short where
  u : Bool
  b : BitVec 7
  a : BitVec 7
  d : BitVec 7
  deriving DecidableEq, Repr, Inhabited

/-- The fields of a long-form instruction (R29 to R31, Tables 2-4 and 2-5). -/
structure Long where
  u : Bool
  g : BitVec 4
  a : BitVec 8
  d : BitVec 8
  m : BitVec 8
  t : BitVec 4
  fe : BitVec 3
  c : BitVec 8
  b : BitVec 8
  imm : Word
  deriving DecidableEq, Repr, Inhabited

/-- The instructions and events of the opcode table. -/
inductive Instr where
  /-- NOP_LONG, R46: Long-form guarded no-operation that only advances the program counter. -/
  | nopLong (f : Long)
  /-- BRA, R164: Short branch form: sets the thread's program counter to word 0 plus 4 times an 18-bit offset. -/
  | bra (g : BitVec 4) (off : BitVec 18)
  /-- BRA_LONG, R164: Long-form branch with a 32-bit offset in IMM. -/
  | braLong (f : Long)
  /-- BRX, R167: Indexed branch through a target list read from memory. -/
  | brx (f : Long)
  /-- CALL, R164: Short branch form call: pushes the return address on the slot's return stack and branches. -/
  | call (g : BitVec 4) (off : BitVec 18)
  /-- CALL_LONG, R164: Long-form call with a 32-bit offset. -/
  | callLong (f : Long)
  /-- CALLX, R167: Indexed call through a target list, pushing the return address. -/
  | callx (f : Long)
  /-- RET, R166: Pops the slot's return stack in memory and transfers control to the popped address. -/
  | ret (f : Long)
  /-- EXIT, R168: Ends the thread, removes it from every mask and discards its outstanding landings. -/
  | exit (f : Long)
  /-- TRAP, R391: Performing threads advance, then the warp traps with cause SW and ARG from IMM. -/
  | trap (f : Long)
  /-- BKPT, R391: Performing threads advance, then the warp traps with cause BK. -/
  | bkpt (f : Long)
  /-- IDEM_OPEN, R394: Sets the cohort's region entry to a label, marking an idempotent region. -/
  | idemOpen (f : Long)
  /-- IDEM_CLOSE, R394: Clears the cohort's region entry. -/
  | idemClose (f : Long)
  /-- YIELD, R415: Advances the thread and resets its ready time so that earlier-ready threads are chosen first. -/
  | yield (f : Long)
  /-- SLEEP, R415: Holds the thread for n clks. -/
  | sleep (f : Long)
  /-- JOIN, R171: Adds the executing thread to a mask register and applies the release check. -/
  | join (f : Long)
  /-- LEAVE, R171: Removes the thread from every listed mask and applies the release checks in ascending index. -/
  | leave (f : Long)
  /-- WAITM, R173: Holds a member thread at the mask until every member is held, then releases all. -/
  | waitm (f : Long)
  /-- MSET, R172: Writes the sub-run's threads whose predicate is true into a mask, optionally OR-ing. -/
  | mset (f : Long)
  /-- MGET, R172: Copies a mask register's 32 bits into a w register. -/
  | mget (f : Long)
  /-- SYSC, R391: Performing threads advance, then the warp traps with cause SC to enter supervisor code. -/
  | sysc (f : Long)
  /-- RTT, R392: Leaves the trap handler, restoring predicates, masks and per-slot program counters for replay. -/
  | rtt (f : Long)
  /-- MOV, R106: Short-form copy of a register to a register. -/
  | mov (f : Short)
  /-- MOV_LONG, R106: Long-form copy of a register or pair, which may name queue ports. -/
  | movLong (f : Long)
  /-- MOVI, R106: Short-form move of a sign-extended 14-bit immediate. -/
  | movi (f : Short)
  /-- MOVI_LIT, R106: Short form with a literal: moves a 32-bit literal. -/
  | moviLit (f : Short) (lit : Dword)
  /-- MOVI_LONG, R106: Long-form move of IMM, extended for 64-bit types. -/
  | moviLong (f : Long)
  /-- MOVI_LONG_LIT, R106: Long form with a literal: moves a 64-bit literal into a pair. -/
  | moviLongLit (f : Long) (lit : Dword)
  /-- MOVX, R107: Short-form read of the thread's own g register named by an index value. -/
  | movx (f : Short)
  /-- MOVX_LONG, R107: Long-form indexed register read. -/
  | movxLong (f : Long)
  /-- MOVXW, R107: Short-form write of a value to the thread's own g register named by an index. -/
  | movxw (f : Short)
  /-- MOVXW_LIT, R107: Short form with a literal: indexed register write of a literal value. -/
  | movxwLit (f : Short) (lit : Dword)
  /-- MOVXW_LONG, R107: Long-form indexed register write. -/
  | movxwLong (f : Long)
  /-- SEL, R108: Writes one of two sources by a predicate. -/
  | sel (f : Long)
  /-- MOVS, R109: Reads a special register into g registers. -/
  | movs (f : Long)
  /-- SETS, R109: Writes a special register according to its view and access code. -/
  | sets (f : Long)
  /-- FETEST, R110: Writes a register's full/empty bit into a predicate. -/
  | fetest (f : Long)
  /-- FESET, R110: Marks a register full or empty and cancels its producer tag. -/
  | feset (f : Long)
  /-- PLOP, R111: Combines three predicates by an 8-bit truth table. -/
  | plop (f : Long)
  /-- SLOTR, R112: Reads a g register of a named slot of the warp into a w register. -/
  | slotr (f : Long)
  /-- SLOTW, R112: Writes a w register into a g register of a named slot and marks it full. -/
  | slotw (f : Long)
  /-- ADD, R117: Short-form element-wise integer add. -/
  | add (f : Short)
  /-- ADD_LIT, R117: Integer add with a literal operand B. -/
  | addLit (f : Short) (lit : Dword)
  /-- ADD_LONG, R117: Long-form integer add with type, saturation or immediate. -/
  | addLong (f : Long)
  /-- SUB, R117: Short-form element-wise integer subtract. -/
  | sub (f : Short)
  /-- SUB_LIT, R117: Integer subtract with a literal operand B. -/
  | subLit (f : Short) (lit : Dword)
  /-- SUB_LONG, R117: Long-form integer subtract. -/
  | subLong (f : Long)
  /-- ADDC, R120: 32-bit add with carry in and carry out through predicates. -/
  | addc (f : Long)
  /-- SUBC, R120: 32-bit subtract with borrow in and out through predicates. -/
  | subc (f : Long)
  /-- MUL, R117: Short-form integer multiply, low bits. -/
  | mul (f : Short)
  /-- MUL_LIT, R117: Integer multiply with a literal operand B. -/
  | mulLit (f : Short) (lit : Dword)
  /-- MUL_LONG, R117: Long-form integer multiply. -/
  | mulLong (f : Long)
  /-- MULH, R118: Short-form high 32 bits of a 64-bit product. -/
  | mulh (f : Short)
  /-- MULH_LIT, R118: MULH with a literal operand B. -/
  | mulhLit (f : Short) (lit : Dword)
  /-- MULH_LONG, R118: Long-form MULH. -/
  | mulhLong (f : Long)
  /-- MULW, R118: Short-form full 64-bit product into a pair. -/
  | mulw (f : Short)
  /-- MULW_LIT, R118: MULW with a literal operand B. -/
  | mulwLit (f : Short) (lit : Dword)
  /-- MULW_LONG, R118: Long-form MULW. -/
  | mulwLong (f : Long)
  /-- MAD, R117: Short-form multiply-add with D as accumulator. -/
  | mad (f : Short)
  /-- MAD_LIT, R117: MAD with a literal operand B. -/
  | madLit (f : Short) (lit : Dword)
  /-- MAD_LONG, R117: Long-form multiply-add with explicit C or immediates. -/
  | madLong (f : Long)
  /-- MADW, R118: Short-form 64-bit product plus pair accumulator. -/
  | madw (f : Short)
  /-- MADW_LIT, R118: MADW with a literal operand B. -/
  | madwLit (f : Short) (lit : Dword)
  /-- MADW_LONG, R118: Long-form MADW. -/
  | madwLong (f : Long)
  /-- DIV, R119: Short-form truncating integer division with defined division by zero. -/
  | div (f : Short)
  /-- DIV_LIT, R119: DIV with a literal divisor. -/
  | divLit (f : Short) (lit : Dword)
  /-- DIV_LONG, R119: Long-form DIV. -/
  | divLong (f : Long)
  /-- REM, R119: Short-form integer remainder. -/
  | rem (f : Short)
  /-- REM_LIT, R119: REM with a literal divisor. -/
  | remLit (f : Short) (lit : Dword)
  /-- REM_LONG, R119: Long-form REM. -/
  | remLong (f : Long)
  /-- MIN, R117: Short-form element-wise integer minimum. -/
  | min (f : Short)
  /-- MIN_LIT, R117: MIN with a literal operand B. -/
  | minLit (f : Short) (lit : Dword)
  /-- MIN_LONG, R117: Long-form MIN. -/
  | minLong (f : Long)
  /-- MAX, R117: Short-form element-wise integer maximum. -/
  | max (f : Short)
  /-- MAX_LIT, R117: MAX with a literal operand B. -/
  | maxLit (f : Short) (lit : Dword)
  /-- MAX_LONG, R117: Long-form MAX. -/
  | maxLong (f : Long)
  /-- ABS, R117: Short-form integer absolute value. -/
  | abs (f : Short)
  /-- ABS_LONG, R117: Long-form ABS with type or saturation. -/
  | absLong (f : Long)
  /-- NEG, R117: Short-form integer negation. -/
  | neg (f : Short)
  /-- NEG_LONG, R117: Long-form NEG. -/
  | negLong (f : Long)
  /-- LEA, R130: Forms a 64-bit address from base, scaled index and offset. -/
  | lea (f : Long)
  /-- AND, R121: Short-form bitwise AND. -/
  | and (f : Short)
  /-- AND_LIT, R121: AND with a literal. -/
  | andLit (f : Short) (lit : Dword)
  /-- AND_LONG, R121: Long-form AND. -/
  | andLong (f : Long)
  /-- OR, R121: Short-form bitwise OR. -/
  | or (f : Short)
  /-- OR_LIT, R121: OR with a literal. -/
  | orLit (f : Short) (lit : Dword)
  /-- OR_LONG, R121: Long-form OR. -/
  | orLong (f : Long)
  /-- XOR, R121: Short-form bitwise XOR. -/
  | xor (f : Short)
  /-- XOR_LIT, R121: XOR with a literal. -/
  | xorLit (f : Short) (lit : Dword)
  /-- XOR_LONG, R121: Long-form XOR. -/
  | xorLong (f : Long)
  /-- ANDN, R121: Short-form A AND NOT B. -/
  | andn (f : Short)
  /-- ANDN_LIT, R121: ANDN with a literal. -/
  | andnLit (f : Short) (lit : Dword)
  /-- ANDN_LONG, R121: Long-form ANDN. -/
  | andnLong (f : Long)
  /-- NOT, R121: Short-form bitwise NOT. -/
  | not (f : Short)
  /-- NOT_LONG, R121: Long-form NOT. -/
  | notLong (f : Long)
  /-- SHL, R122: Short-form shift left, count modulo width. -/
  | shl (f : Short)
  /-- SHL_LIT, R122: SHL with a literal count. -/
  | shlLit (f : Short) (lit : Dword)
  /-- SHL_LONG, R122: Long-form SHL. -/
  | shlLong (f : Long)
  /-- SHR, R122: Short-form logical shift right. -/
  | shr (f : Short)
  /-- SHR_LIT, R122: SHR with a literal count. -/
  | shrLit (f : Short) (lit : Dword)
  /-- SHR_LONG, R122: Long-form SHR. -/
  | shrLong (f : Long)
  /-- SRA, R122: Short-form arithmetic shift right. -/
  | sra (f : Short)
  /-- SRA_LIT, R122: SRA with a literal count. -/
  | sraLit (f : Short) (lit : Dword)
  /-- SRA_LONG, R122: Long-form SRA. -/
  | sraLong (f : Long)
  /-- ROTL, R122: Short-form rotate left. -/
  | rotl (f : Short)
  /-- ROTL_LIT, R122: ROTL with a literal count. -/
  | rotlLit (f : Short) (lit : Dword)
  /-- ROTL_LONG, R122: Long-form ROTL. -/
  | rotlLong (f : Long)
  /-- POPC, R123: Short-form population count. -/
  | popc (f : Short)
  /-- POPC_LONG, R123: Long-form POPC. -/
  | popcLong (f : Long)
  /-- CLZ, R123: Short-form count of leading zeros. -/
  | clz (f : Short)
  /-- CLZ_LONG, R123: Long-form CLZ. -/
  | clzLong (f : Long)
  /-- CTZ, R123: Short-form count of trailing zeros. -/
  | ctz (f : Short)
  /-- CTZ_LONG, R123: Long-form CTZ. -/
  | ctzLong (f : Long)
  /-- BREV, R123: Short-form bit reversal. -/
  | brev (f : Short)
  /-- BREV_LONG, R123: Long-form BREV. -/
  | brevLong (f : Long)
  /-- BFX, R124: Extracts a bit field, sign- or zero-extended. -/
  | bfx (f : Long)
  /-- BFI, R125: Inserts low bits of B into a field of A. -/
  | bfi (f : Long)
  /-- CMP, R128: Integer comparison into a predicate. -/
  | cmp (f : Long)
  /-- SEXT, R126: Sign-extends the low k bits of A. -/
  | sext (f : Long)
  /-- PERMB, R127: Assembles D from a byte selection of A and B. -/
  | permb (f : Long)
  /-- DP4, R129: Short-form dot product of four 8-bit pairs into an accumulator D. -/
  | dp4 (f : Short)
  /-- DP4_LIT, R129: DP4 with a literal operand B. -/
  | dp4Lit (f : Short) (lit : Dword)
  /-- DP4_LONG, R129: Long-form DP4 with .mix, .sat or explicit C. -/
  | dp4Long (f : Long)
  /-- FADD, R143: Short-form floating-point add with .rn. -/
  | fadd (f : Short)
  /-- FADD_LIT, R143: FADD with a literal operand B. -/
  | faddLit (f : Short) (lit : Dword)
  /-- FADD_LONG, R143: Long-form FADD with rounding, .ftz or .sat. -/
  | faddLong (f : Long)
  /-- FSUB, R143: Short-form floating-point subtract. -/
  | fsub (f : Short)
  /-- FSUB_LIT, R143: FSUB with a literal operand B. -/
  | fsubLit (f : Short) (lit : Dword)
  /-- FSUB_LONG, R143: Long-form FSUB. -/
  | fsubLong (f : Long)
  /-- FMUL, R143: Short-form floating-point multiply. -/
  | fmul (f : Short)
  /-- FMUL_LIT, R143: FMUL with a literal operand B. -/
  | fmulLit (f : Short) (lit : Dword)
  /-- FMUL_LONG, R143: Long-form FMUL. -/
  | fmulLong (f : Long)
  /-- FFMA, R143: Short-form fused multiply-add with D as accumulator. -/
  | ffma (f : Short)
  /-- FFMA_LIT, R143: FFMA with a literal operand B. -/
  | ffmaLit (f : Short) (lit : Dword)
  /-- FFMA_LONG, R143: Long-form FFMA with explicit C and modifiers. -/
  | ffmaLong (f : Long)
  /-- FMIN, R144: Short-form minimumNumber. -/
  | fmin (f : Short)
  /-- FMIN_LIT, R144: FMIN with a literal operand B. -/
  | fminLit (f : Short) (lit : Dword)
  /-- FMIN_LONG, R144: Long-form FMIN. -/
  | fminLong (f : Long)
  /-- FMAX, R144: Short-form maximumNumber. -/
  | fmax (f : Short)
  /-- FMAX_LIT, R144: FMAX with a literal operand B. -/
  | fmaxLit (f : Short) (lit : Dword)
  /-- FMAX_LONG, R144: Long-form FMAX. -/
  | fmaxLong (f : Long)
  /-- FABS, R147: Clears the sign bit of each element. -/
  | fabs (f : Long)
  /-- FNEG, R147: Inverts the sign bit of each element. -/
  | fneg (f : Long)
  /-- FCMP, R145: Floating-point comparison into a predicate. -/
  | fcmp (f : Long)
  /-- FCLASS, R146: Writes a class mask for each element. -/
  | fclass (f : Long)
  /-- FDIV, R150: Correctly rounded floating-point division. -/
  | fdiv (f : Long)
  /-- FSQRT, R150: Correctly rounded square root. -/
  | fsqrt (f : Long)
  /-- FRCP, R151: Approximate reciprocal. -/
  | frcp (f : Long)
  /-- FRSQ, R151: Approximate reciprocal square root. -/
  | frsq (f : Long)
  /-- FEXP2, R151: Approximate base-2 exponential. -/
  | fexp2 (f : Long)
  /-- FLOG2, R151: Approximate base-2 logarithm. -/
  | flog2 (f : Long)
  /-- FSIN, R151: Approximate sine. -/
  | fsin (f : Long)
  /-- FCOS, R151: Approximate cosine. -/
  | fcos (f : Long)
  /-- FRND, R149: Rounds each element to an integral value. -/
  | frnd (f : Long)
  /-- FCVT, R152: Converts between floating-point formats. -/
  | fcvt (f : Long)
  /-- FCVTI, R153: Converts a float to a saturated integer. -/
  | fcvti (f : Long)
  /-- ICVTF, R154: Converts an integer to f32 or f64. -/
  | icvtf (f : Long)
  /-- FSGN, R147: Sets the sign bit by copy, ncopy or xor of B. -/
  | fsgn (f : Long)
  /-- FSCL, R148: Scales each element by 2 to the power n. -/
  | fscl (f : Long)
  /-- PACK8, R155: Converts to e4m3 or e5m2 and packs the bytes. -/
  | pack8 (f : Long)
  /-- UNPK8, R158: Widens 8-bit float elements exactly. -/
  | unpk8 (f : Long)
  /-- LQD, R159: Decodes an lq2 codeword into eight 4-bit values. -/
  | lqd (f : Long)
  /-- FDOT2, R160: Dot product of two 16-bit pairs plus an f32 accumulator, rounded once. -/
  | fdot2 (f : Long)
  /-- XCH, R179: Short-form exchange of A from slot s minus k within the pass. -/
  | xch (f : Short)
  /-- XCH_LONG, R179: Long-form XCH with .nw or a register identity. -/
  | xchLong (f : Long)
  /-- XCH_LONG_LIT, R179: Long form with a literal identity. -/
  | xchLongLit (f : Long) (lit : Dword)
  /-- XIDX, R179: Short-form exchange of A from a slot named by B. -/
  | xidx (f : Short)
  /-- XIDX_LIT, R179: XIDX with a literal source slot. -/
  | xidxLit (f : Short) (lit : Dword)
  /-- XIDX_LONG, R179: Long-form XIDX. -/
  | xidxLong (f : Long)
  /-- XIDX_LONG_LIT, R179: Long-form XIDX with a literal identity. -/
  | xidxLongLit (f : Long) (lit : Dword)
  /-- SCAN, R180: Short-form inclusive add scan over the pass. -/
  | scan (f : Short)
  /-- SCAN_LONG, R180: Long-form scan with op, type or .excl. -/
  | scanLong (f : Long)
  /-- REDW, R180: Short-form add reduction of the pass into a w register. -/
  | redw (f : Short)
  /-- REDW_LONG, R180: Long-form REDW with op and type. -/
  | redwLong (f : Long)
  /-- REDWX, R181: Finds the least or greatest value over all slots with its index into a w pair. -/
  | redwx (f : Long)
  /-- MATCH, R182: Short-form mask of pass slots holding an equal value. -/
  | matchEq (f : Short)
  /-- MATCH_LONG, R182: Long-form MATCH, including 64-bit values. -/
  | matchEqLong (f : Long)
  /-- VOTE, R182: Any, all or ballot of a predicate over the pass. -/
  | vote (f : Long)
  /-- BCST, R179: Short-form broadcast of A from a constant slot. -/
  | bcst (f : Short)
  /-- BCST_LONG, R179: Long-form BCST with a register identity. -/
  | bcstLong (f : Long)
  /-- BCST_LONG_LIT, R179: Long-form BCST with a literal identity. -/
  | bcstLongLit (f : Long) (lit : Dword)
  /-- XLANE, R183: Reads a register of the partner warp on another lane. -/
  | xlane (f : Long)
  /-- XLANE_LIT, R183: XLANE with a literal identity in a long form with literal. -/
  | xlaneLit (f : Long) (lit : Dword)
  /-- LD, R200: Load of 1 to 16 bytes at an order and scope into empty-marked registers. -/
  | ld (f : Long)
  /-- ST, R200: Store of 1 to 16 bytes at an order and scope. -/
  | st (f : Long)
  /-- LDC, R201: Relaxed load of launch-constant data, possibly from a w base. -/
  | ldc (f : Long)
  /-- PREF, R202: Prefetches a sector into L1 or the die cache, dropped on any obstacle. -/
  | pref (f : Long)
  /-- ATOM, R203: Indivisible read-modify-write at the home returning the old value. -/
  | atom (f : Long)
  /-- RED, R203: Indivisible update at the home returning nothing. -/
  | red (f : Long)
  /-- CAS, R204: Compare-and-swap at the home returning the old value. -/
  | cas (f : Long)
  /-- FENCE, R229: Holds the thread for release, acquire or sequentially consistent ordering at a scope. -/
  | fence (f : Long)
  /-- ACC, R262: Adds an f32 value into a cask entry of a bounded line. -/
  | acc (f : Long)
  /-- LDB, R263: Reads a bounded word at home after racking as far as the tolerance requires. -/
  | ldb (f : Long)
  /-- RACK, R265: Drains every cask entry of the region and holds the thread until home answers. -/
  | rack (f : Long)
  /-- BUFD, R205: Declares a buffer record for a range of addressable cellar. -/
  | bufd (f : Long)
  /-- BUFS, R206: Returns the buffer record word and applies a BUFS event. -/
  | bufs (f : Long)
  /-- BUFS_Q, R206: Returns the buffer record word with no event. -/
  | bufsQ (f : Long)
  /-- BUFF, R206: Frees a buffer record unless it is DRAINING. -/
  | buff (f : Long)
  /-- PUTN, R372: Issues a remote put with a flag increment, of class F. -/
  | putn (f : Long)
  /-- GETN, R372: Issues a remote get, of class F. -/
  | getn (f : Long)
  /-- MAPQ, R349: Reports the home, class and ring route of an address. -/
  | mapq (f : Long)
  /-- FLSH, R207: Drops L1 copies and advances remote-data cache generations at a scope. -/
  | flsh (f : Long)
  /-- BALLOC, R270: Allocates a barrier object from the core's pool and returns its handle. -/
  | balloc (f : Long)
  /-- BFREE, R271: Lowers a barrier object's reference count, freeing it at zero. -/
  | bfree (f : Long)
  /-- BARV, R272: Arrives at a barrier object with a count and returns the phase parity. -/
  | barv (f : Long)
  /-- BEXP, R272: Posts expected bytes on a barrier object, optionally also arriving. -/
  | bexp (f : Long)
  /-- BWAIT, R274: Holds the thread until the phase of a parity completes. -/
  | bwait (f : Long)
  /-- BTEST, R274: Tests whether the phase of a parity is complete. -/
  | btest (f : Long)
  /-- CSIGN, R278: Signs the current round of a convergence register and holds until it fires. -/
  | csign (f : Long)
  /-- WAITC, R281: Holds the thread until the named engine counters are at most k. -/
  | waitc (f : Long)
  /-- CNTR, R282: Reads the warp's six engine counters into a pair. -/
  | cntr (f : Long)
  /-- CPY, R295: Checks and issues a shaped copy of class K. -/
  | cpy (f : Long) (lit : Dword)
  /-- GATH, R297: Checks and issues a gather by an index list, of class G. -/
  | gath (f : Long) (lit : Dword)
  /-- SCAT, R297: Checks and issues a scatter by an index list, optionally adding, of class G. -/
  | scat (f : Long) (lit : Dword)
  /-- CPYQ, R298: Reads queue depths and free copy slots, or reads and clears the engine-failure word. -/
  | cpyq (f : Long)
  /-- WLD, R315: Issues a load of a weight tile into the shadow weight buffer. -/
  | wld (f : Long)
  /-- WSWP, R316: Issues an exchange of the active and shadow weight buffers. -/
  | wswp (f : Long)
  /-- MMA, R317: Binds a matrix operation on register rows to a convergence register round. -/
  | mma (f : Long)
  /-- MMS, R318: Issues a matrix operation streaming rows from a declared buffer. -/
  | mms (f : Long)
  /-- MMG, R319: Issues a grouped matrix operation with per-group weights. -/
  | mmg (f : Long)
  /-- ACCZ, R320: Issues a zeroing of an accumulator tile. -/
  | accz (f : Long)
  /-- ACCR, R321: Reads accumulator tile elements into registers after the tile interlock. -/
  | accr (f : Long)
  /-- ACCR_ST, R322: Reads and clears the warp's Anvil status word. -/
  | accrSt (f : Long)
  /-- ACCW, R321: Writes registers into accumulator tile elements after the interlock. -/
  | accw (f : Long)
  /-- ACCS, R323: Issues a store or add-on-store of tile rows to memory. -/
  | accs (f : Long)
  /-- MVB, R326: Issues a press matrix-vector multiply, of class V. -/
  | mvb (f : Long) (lit : Dword)
  /-- ACCM, R320: Issues a scaling of every tile element by a w register value. -/
  | accm (f : Long)
  /-- RGSET, R332: Binds a ring group on the die to a rank table, optionally binding hand-off ports. -/
  | rgset (f : Long)
  /-- RRS, R335: Issues a reduce-scatter collective instance. -/
  | rrs (f : Long)
  /-- RAG, R335: Issues an all-gather collective instance. -/
  | rag (f : Long)
  /-- RAR, R335: Issues an all-reduce collective instance. -/
  | rar (f : Long)
  /-- RBC, R335: Issues a broadcast collective instance from a root. -/
  | rbc (f : Long)
  /-- RHO, R342: Issues the sending side of a hand-off to the neighbouring rank. -/
  | rho (f : Long)
  /-- RHO_RECV, R342: Issues the receiving side of a hand-off. -/
  | rhoRecv (f : Long)
  /-- RSTAT, R343: Returns a collective record. -/
  | rstat (f : Long)
  /-- RSTAT_GRP, R343: Returns a ring group word. -/
  | rstatGrp (f : Long)
  /-- LAUNCH, R412: Releases at .sys and appends a launch record to a device-fed launch queue. -/
  | launch (f : Long)
  /-- EVNT, R413: Sends the host an event record with a code and detail. -/
  | evnt (f : Long)
  /-- PMC, R414: Reads a cohort performance counter. -/
  | pmc (f : Long)
  /-- ATCI, R384: Removes cached translations and optionally brings lines to HOME. -/
  | atci (f : Long)
  /-- CTXS, R397: Begins saving the cohort into a save area. -/
  | ctxs (f : Long)
  /-- CTXR, R399: Restores a saved cohort onto the executing core. -/
  | ctxr (f : Long)
  /-- HALT, R391: Ends the context with a code. -/
  | halt (f : Long)
  /-- PPT, R396: Marks a pre-emption point at which a pending PE trap is delivered. -/
  | ppt (f : Long)
  /-- NOP, R46: Short-form no-operation that only advances each executing thread's program counter. -/
  | nop
  /-- RUN_FORMATION, R81: A lane selects the oldest ready thread, forms a run at its program counter and begins it. -/
  | runFormation
  /-- WARP_SWAP, R86: A waiting active warp is replaced by a pending warp with a ready thread. -/
  | warpSwap
  /-- PENDING_WARP_PROMOTION, R88: After 255 runs a pending warp's ready thread is promoted into the active set. -/
  | pendingWarpPromotion
  /-- WARP_LEAVES_ACTIVE_SET, R86: In the clk after its last thread exits, a warp leaves the active set and the place is refilled. -/
  | warpLeavesActiveSet
  /-- SLEEP_EXPIRY, R415: A sleeping thread's n clks run out and it becomes ready. -/
  | sleepExpiry
  /-- PRODUCER_LANDING, R95: A long-latency result lands and fills its register if the producer tag still matches. -/
  | producerLanding
  /-- TRAP_ENTRY, R387: In the clk after a faulting run the warp stops, trap state is written and slots go to the handler. -/
  | trapEntry
  /-- HANDOFF_ENTRY_ARRIVAL, R333: An entry pushed to a hand-off port arrives at the partner warp's receiving port. -/
  | handoffEntryArrival
  /-- CELLAR_GROUP_SERVICE, R188: A cellar bank serves one bank word per clk of the arriving groups, merging requests to one word. -/
  | cellarGroupService
  /-- BUFFER_STATE_CHANGE, R192: A declared buffer's state change takes effect in the clk after its event. -/
  | bufferStateChange
  /-- ATOMIC_UNIT_APPLY, R195: An atomic unit or bank applies an atomic or reduction indivisibly at the home. -/
  | atomicUnitApply
  /-- L1_SECTOR_EXPIRY, R214: An L1 sector is dropped 4,096 clk after filling. -/
  | l1SectorExpiry
  /-- GENERATION_ADVANCE, R246: A die advances its remote-data cache generation at a launch boundary or FLSH request. -/
  | generationAdvance
  /-- RDC_SWEEPER_STEP, R246: The sweeper reads one remote-data cache entry per clk and invalidates stale ones. -/
  | rdcSweeperStep
  /-- RD, R239: A read request from another die reaches the home agent and moves the line. -/
  | rd
  /-- OWN, R239: An ownership request for a store reaches the home agent. -/
  | own
  /-- HRD, R239: A read at home by a thread of the home die reaches the home agent. -/
  | hrd
  /-- HWR, R239: A home store or any atomic reaches the home agent, which makes its copy the only one. -/
  | hwr
  /-- EVX, R239: An owner's eviction with its dirty sectors reaches the home agent. -/
  | evx
  /-- PROBE, R238: A holder receives a probe, keeps a read-only copy and returns its dirty sectors. -/
  | probe
  /-- RECALL, R238: A holder receives a recall, drops its copy and returns its dirty sectors. -/
  | recallHolder
  /-- INVALIDATION, R238: A holder receives an invalidation and drops its copy. -/
  | invalidation
  /-- HOLDER_ANSWER, R240: A holder's answer reaches the home agent, which ends the transaction on the last one. -/
  | holderAnswer
  /-- OWNERSHIP_GRANT, R243: A reply granting ownership reaches the requesting die cache and the waiting store is applied. -/
  | ownershipGrant
  /-- DIE_CACHE_EVICTION, R238: A die cache evicts a copy, silently if shared or by EVX if owned. -/
  | dieCacheEviction
  /-- PROXY_EVICTION, R242: A proxy recalls or invalidates its package's holders and evicts a line. -/
  | proxyEviction
  /-- LINK_WAKE_COMPLETE, R247: A woken bridge direction becomes active and its held messages are sent. -/
  | linkWakeComplete
  /-- LINK_WAKE_ERROR, R248: A wake not complete after 20 µs raises an error and retrains the bridge. -/
  | linkWakeError
  /-- HEARTBEAT, R249: A die sends a heartbeat on each bridge every 5 µs. -/
  | heartbeat
  /-- DIE_DEAD, R249: A die with no heartbeat for 50 µs, or two failed bridges, is declared dead. -/
  | dieDead
  /-- CASK_OPEN_REQUEST, R259: An open request reaches home, adds the holder, re-splits and grants a share. -/
  | caskOpenRequest
  /-- CASK_GRANT, R262: A grant reaches the cask store, clearing OPENING and placing the entry's additions. -/
  | caskGrant
  /-- DRAIN_ARRIVAL, R258: A drain reaches home and is applied to the line as one indivisible update. -/
  | drainArrival
  /-- RACKING, R257: A holder receives a racking message and drains and closes its entry. -/
  | racking
  /-- RESPLIT_SHARE, R260: A holder receives a new share, drains entries above it and acknowledges. -/
  | resplitShare
  /-- RESPLIT_ACK, R260: A re-split acknowledgement reaches home and lowers ACKS. -/
  | resplitAck
  /-- LDB_TRANSACTION, R263: An LDB reaches home, racks holders to the tolerance and reads the word. -/
  | ldbTransaction
  /-- RACK_TRANSACTION, R265: A RACK reaches home and racks every CASK line of the region. -/
  | rackTransaction
  /-- REGION_RECORD_WRITE, R253: A supervisor write to a region record sets or clears VALID under its conditions. -/
  | regionRecordWrite
  /-- BARRIER_MESSAGE, R275: A barrier instruction naming an object on another core arrives and is checked and applied. -/
  | barrierMessage
  /-- BARRIER_REPLY, R275: A reply from a remote barrier object reaches the issuing thread. -/
  | barrierReply
  /-- ROUND_FIRE, R278: A convergence round with its operation bound and all signatures fires and releases signers. -/
  | roundFire
  /-- ENGINE_RETIREMENT, R280: A completed engine operation retires in issue order and its counter falls. -/
  | engineRetirement
  /-- OPERATION_ENQUEUE, R223: An issued engine operation enters its queue once the issuers' earlier writes are performed. -/
  | operationEnqueue
  /-- CHUNK_DISPATCH, R287: The copy engine dispatches chunks by deficit round-robin over class queues. -/
  | chunkDispatch
  /-- CHUNK_COMPLETE, R286: A chunk's last write is performed at scope and it leaves flight. -/
  | chunkComplete
  /-- DELIVER_AT_HOME, R290: An engine write reaches its home or bank, is judged against buffer state and counted off. -/
  | deliverAtHome
  /-- WEIGHT_LOAD_COMPLETE, R310: A WLD completes and writes the shadow weight buffer. -/
  | weightLoadComplete
  /-- WSWP_TAKES_EFFECT, R316: The weight buffers are exchanged once earlier loads and array rows allow. -/
  | wswpTakesEffect
  /-- ARRAY_OPERATION_START, R309: An array or tile-unit operation starts once tile order allows. -/
  | arrayOperationStart
  /-- ARRAY_OPERATION_RETIRE, R310: An array operation retires 72 clks after its last row enters. -/
  | arrayOperationRetire
  /-- TILE_UNIT_COMPLETE, R310: ACCZ or ACCM retires after 16 clks in the tile unit. -/
  | tileUnitComplete
  /-- ACCS_ADD_ON_STORE, R324: An add-on-store reaches its home and is applied as one indivisible transaction. -/
  | accsAddOnStore
  /-- PRESS_OPERATION, R327: Press banks compute row results and deliver them to the buffer. -/
  | pressOperation
  /-- RING_STEP_SEND, R336: A ring engine sends the next tile step of its outstanding instances in rotation. -/
  | ringStepSend
  /-- RING_STEP_ARRIVAL, R336: A step reaches its rank and is combined, relayed, written or refused. -/
  | ringStepArrival
  /-- RING_STEP_ACK, R347: A step acknowledgement reaches the sender, which releases the tile. -/
  | ringStepAck
  /-- STEP_RESEND_NOTICE, R336: A rank's issue of a tag notifies refused senders, which send again. -/
  | stepResendNotice
  /-- BRIDGE_FLIT, R11: A flit is granted an outgoing ring direction, alternating passing and injected traffic. -/
  | bridgeFlit
  /-- BRIDGE_CRC_FAILURE, R345: A bridge flit fails its CRC, is sent again and ERRCNT rises. -/
  | bridgeCrcFailure
  /-- ERRCNT_WINDOW_EXPIRY, R345: At the end of a window ERRCNT returns to 0. -/
  | errcntWindowExpiry
  /-- BRIDGE_DECLARED_FAILED, R345: A bridge is declared failed and its dies start wrapping. -/
  | bridgeDeclaredFailed
  /-- RING_WRAP_COMPLETE, R346: The wrap completes, held flits go by the wrapped route and unacknowledged steps are resent. -/
  | ringWrapComplete
  /-- DIRECTION_IDLE, R344: A bridge direction with no flit for IDLE_AFTER µs becomes idle. -/
  | directionIdle
  /-- DIRECTION_SLEEP, R344: An idle direction becomes asleep after SLEEP_AFTER µs when enabled. -/
  | directionSleep
  /-- DATA, R359: A sequenced DATA flit is taken in order or discarded and replay requested. -/
  | data
  /-- IDLE, R359: An IDLE flit carrying ACK and GRANT is taken. -/
  | idle
  /-- REPLAY, R359: A REPLAY flit makes the sender resend from the named number. -/
  | replay
  /-- RESTRIPE, R361: A RESTRIPE flit makes the sender stripe over the remaining slots and resend. -/
  | restripe
  /-- DRAIN_REQ, R363: A peer's drain marker is taken during re-plan. -/
  | drainReq
  /-- DRAIN_DONE, R363: A peer's drain completion is taken during re-plan. -/
  | drainDone
  /-- RELOCK, R363: A RELOCK flit with next SEQ and allowances is taken during re-plan. -/
  | relock
  /-- IDLE_FLIT_TIMER, R359: A sender with nothing to send for 100 ns sends IDLE. -/
  | idleFlitTimer
  /-- REPLAY_REPEAT_TIMER, R359: A receiver may repeat a REPLAY for one number after 1 µs. -/
  | replayRepeatTimer
  /-- LOSS_OF_LIGHT, R361: A receiver detects loss of light on a slot, marks it dark and sends RESTRIPE. -/
  | lossOfLight
  /-- LASER_SOURCE_FAILURE, R361: A transmitter detects a failed laser source and restripes its links. -/
  | laserSourceFailure
  /-- SLOT_LIGHT_REGAINED, R361: A dark slot regains light, trains and rejoins the mapping. -/
  | slotLightRegained
  /-- LINK_DOWN, R362: A link without active slot or flits for LINK_DEAD µs goes down and its requests fail. -/
  | linkDown
  /-- LINK_UP, R362: A down link regains a slot, relocks and is up again. -/
  | linkUp
  /-- REPLAN_GO, R363: A write of 1 to GO judges PLAN and begins the re-plan drain phase. -/
  | replanGo
  /-- REPLAN_DRAIN_COMPLETE, R363: DRAIN_DONE is exchanged on every link and the dark phase begins. -/
  | replanDrainComplete
  /-- DRAIN_MAX_EXPIRY, R363: A drain exceeding DRAIN_MAX ends phase 1 at once. -/
  | drainMaxExpiry
  /-- SELECTORS_LOCKED, R363: The retuned selectors lock and the relock phase begins. -/
  | selectorsLocked
  /-- REPLAN_RESUME, R364: RELOCK is taken on every link; held traffic is sent or fails and GO clears. -/
  | replanResume
  /-- REMOTE_ACCESS_FAILURE, R368: An access to an unreachable home fails by the context's remote-failure mode. -/
  | remoteAccessFailure
  /-- PUTN_FLAG_INCREMENT, R373: After every data write is performed, the flag is incremented as a release at .dom. -/
  | putnFlagIncrement
  /-- PAGE_WALK, R380: A walker reads and checks the page-table entries of an address. -/
  | pageWalk
  /-- TRANSLATION_CACHE_LOOKUP, R383: A TLB miss reaches the die's translation cache, which answers or starts a walk. -/
  | translationCacheLookup
  /-- PREEMPTION_REQUEST, R396: A pre-emption request reaches a cohort and is served by region restart or a PE trap. -/
  | preemptionRequest
  /-- PREWAIT_TIMEOUT, R396: With no PPT within PREWAIT µs the PE trap goes to the lowest eligible warp. -/
  | prewaitTimeout
  /-- SAVE_AREA_WRITE, R397: Once outstanding writes and atomics complete, the cohort's state is written and it leaves the core. -/
  | saveAreaWrite
  /-- REMOTE_REPLY, R400: A remote reply arrives and is discarded unless it carries the core's current epoch. -/
  | remoteReply
  /-- LQ_DOOR, R403: A write to LQ_DOOR makes the die's dispatcher read TAIL at once. -/
  | lqDoor
  /-- TAIL_POLL, R403: At least every 2 µs the serving dispatcher reads TAIL and examines new records. -/
  | tailPoll
  /-- LAUNCH_APPEND, R412: A LAUNCH request reaches the serving dispatcher, which appends the record or refuses. -/
  | launchAppend
  /-- COHORT_INDEX_REQUEST, R408: A span die with a free core requests an index from the strip leader. -/
  | cohortIndexRequest
  /-- MIRROR_RECORD, R407: The mirror records a pending grant (c, t) and acknowledges. -/
  | mirrorRecord
  /-- MIRROR_ACK, R407: The mirror's acknowledgement reaches the leader, which sends the grant. -/
  | mirrorAck
  /-- COHORT_GRANT, R407: A grant of a cohort index reaches its target die. -/
  | cohortGrant
  /-- POWER_HEADROOM_REPORT, R408: Every 10 µs a die reports its power headroom. -/
  | powerHeadroomReport
  /-- CLASS3_STARVATION, R409: A class-3 launch with no placement for 100 µs requests pre-emption. -/
  | class3Starvation
  /-- COHORT_END, R410: A cohort whose threads all exited is reclaimed and its span may close. -/
  | cohortEnd
  /-- LAUNCH_COMPLETION, R410: Once every strip closed and engine work completed, STATUS, DONE and DONECNT are written. -/
  | launchCompletion
  /-- HOST_MEMORY_WRITE, R417: A host posted write through BAR4 is performed at .sys. -/
  | hostMemoryWrite
  /-- HOST_MEMORY_READ, R417: A host read through BAR4 returns after earlier posted writes are performed. -/
  | hostMemoryRead
  /-- REGISTER_WRITE, R6: A write to a management register with no row of its own updates its fields by access code. -/
  | registerWrite
  /-- POWER_ON, R421: Applied power starts the power phase. -/
  | powerOn
  /-- POWER_PHASE_DONE, R421: Power stages and clocks are up and calibration begins. -/
  | powerPhaseDone
  /-- CALIBRATION_DONE, R422: Calibration ends, marking failed dies, bridges and slots, and initialisation begins or the package fails. -/
  | calibrationDone
  /-- INITIALISATION_DONE, R422: Memory is initialised, READY is set, $clk zeroed and start-up records raised. -/
  | initialisationDone
  /-- HOST_CTL_RESET, R423: A write of 1 to RESET ends every context and restarts the package. -/
  | hostCtlReset
  /-- LINK_RESET, R423: A function-level or hot reset of the host link restarts the package. -/
  | linkReset
  /-- EVENT_RECORD_WRITE, R425: An awaiting event record is written to the host ring when there is room and EVQ_TAIL advances. -/
  | eventRecordWrite
  /-- SCRUB_STEP, R427: The patrol scrubber reads the next line as a transaction and corrects or poisons it. -/
  | scrubStep
  /-- ERROR_WINDOW_EXPIRY, R428: At the end of each window every CNT returns to 0. -/
  | errorWindowExpiry
  /-- LINE_DIAG_ADDR, R429: A write of a line address starts a diagnostic read at the home agent. -/
  | lineDiagAddr
  /-- LINE_DIAG_COMPLETE, R430: The diagnostic read completes, filling LINE_DIAG_DATA and LINE_DIAG_CHECK and setting DONE. -/
  | lineDiagComplete
  /-- THERMAL, R431: A die reaching 110 °C raises THERMAL. -/
  | thermal
  /-- THERMAL_POWER_OFF, R431: One millisecond after THERMAL the module removes power. -/
  | thermalPowerOff
  /-- CHUNK_SOURCE_READ_LANDING, R293: The source read of an engine chunk lands at the engine, after which its bytes are delivered, and a copy-out completes when all its chunks' reads have landed. -/
  | chunkSourceReadLanding
  /-- HOME_AGENT_EVICTION, R237: The home die cache evicts a line it holds as home agent and writes the line with its authoritative metadata word back to HBM4E. -/
  | homeAgentEviction
  /-- WEIGHT_LOAD_START, R310: A queued WLD starts in the weight loader once the loader is idle and every earlier WSWP has taken effect. -/
  | weightLoadStart
  /-- ATCI_REMOVAL, R384: An ATCI request reaches a die of its scope, whose TLBs and translation cache remove the named translations and whose home agents bring the named lines to HOME, and the die answers. -/
  | atciRemoval
  deriving DecidableEq, Repr

end Sys2Proof
end

