-- ==== Sys2Proof/WellFormed.lean ====
section
/-! DEFINITION. The opcodes (spec/02 Tables 2-9 and 2-10), the field rules of every instruction (spec/02 R31 to
R42 with the encoding tables of the chapters) and the well-formedness of an instruction or an event. The checks
that depend on a cohort's registers or tiles (R36, R300) are made when a thread executes the instruction. -/

namespace Sys2Proof

/-- The 160 instructions of the opcode map (R43). -/
inductive Opc where
  | nop | bra | brx | call | callx | ret | exit | trap | bkpt | idem | yield | sleep | join | leave | waitm
  | mset | mget | sysc | rtt | mov | movi | movx | movxw | sel | movs | sets | fetest | feset | plop
  | slotr | slotw | add | sub | addc | subc | mul | mulh | mulw | mad | madw | div | rem | min | max | abs
  | neg | lea | and | or | xor | andn | not | shl | shr | sra | rotl | popc | clz | ctz | brev | bfx | bfi
  | cmp | sext | permb | dp4 | fadd | fsub | fmul | ffma | fmin | fmax | fabs | fneg | fcmp | fclass | fdiv
  | fsqrt | frcp | frsq | fexp2 | flog2 | fsin | fcos | frnd | fcvt | fcvti | icvtf | fsgn | fscl | pack8
  | unpk8 | lqd | fdot2 | xch | xidx | scan | redw | redwx | matchEq | vote | bcst | xlane | ld | st | ldc
  | pref | atom | red | cas | fence | acc | ldb | rack | bufd | bufs | buff | putn | getn | mapq | flsh
  | balloc | bfree | barv | bexp | bwait | btest | csign | waitc | cntr | cpy | gath | scat | cpyq | wld
  | wswp | mma | mms | mmg | accz | accr | accw | accs | mvb | accm | rgset | rrs | rag | rar | rbc | rho
  | rstat | launch | evnt | pmc | atci | ctxs | ctxr | halt | ppt
  deriving DecidableEq, Repr

/-- The value of OP (Tables 2-9 and 2-10). -/
def Opc.code : Opc → Nat
  | .nop => 0x00
  | .bra => 0x01
  | .brx => 0x02
  | .call => 0x03
  | .callx => 0x04
  | .ret => 0x05
  | .exit => 0x06
  | .trap => 0x07
  | .bkpt => 0x08
  | .idem => 0x09
  | .yield => 0x0A
  | .sleep => 0x0B
  | .join => 0x0C
  | .leave => 0x0D
  | .waitm => 0x0E
  | .mset => 0x0F
  | .mget => 0x10
  | .sysc => 0x11
  | .rtt => 0x12
  | .mov => 0x18
  | .movi => 0x19
  | .movx => 0x1A
  | .movxw => 0x1B
  | .sel => 0x1C
  | .movs => 0x1D
  | .sets => 0x1E
  | .fetest => 0x1F
  | .feset => 0x20
  | .plop => 0x21
  | .slotr => 0x22
  | .slotw => 0x23
  | .add => 0x28
  | .sub => 0x29
  | .addc => 0x2A
  | .subc => 0x2B
  | .mul => 0x2C
  | .mulh => 0x2D
  | .mulw => 0x2E
  | .mad => 0x2F
  | .madw => 0x30
  | .div => 0x31
  | .rem => 0x32
  | .min => 0x33
  | .max => 0x34
  | .abs => 0x35
  | .neg => 0x36
  | .lea => 0x37
  | .and => 0x38
  | .or => 0x39
  | .xor => 0x3A
  | .andn => 0x3B
  | .not => 0x3C
  | .shl => 0x3D
  | .shr => 0x3E
  | .sra => 0x3F
  | .rotl => 0x40
  | .popc => 0x41
  | .clz => 0x42
  | .ctz => 0x43
  | .brev => 0x44
  | .bfx => 0x45
  | .bfi => 0x46
  | .cmp => 0x47
  | .sext => 0x48
  | .permb => 0x49
  | .dp4 => 0x4A
  | .fadd => 0x50
  | .fsub => 0x51
  | .fmul => 0x52
  | .ffma => 0x53
  | .fmin => 0x54
  | .fmax => 0x55
  | .fabs => 0x56
  | .fneg => 0x57
  | .fcmp => 0x58
  | .fclass => 0x59
  | .fdiv => 0x5A
  | .fsqrt => 0x5B
  | .frcp => 0x5C
  | .frsq => 0x5D
  | .fexp2 => 0x5E
  | .flog2 => 0x5F
  | .fsin => 0x60
  | .fcos => 0x61
  | .frnd => 0x62
  | .fcvt => 0x63
  | .fcvti => 0x64
  | .icvtf => 0x65
  | .fsgn => 0x66
  | .fscl => 0x67
  | .pack8 => 0x68
  | .unpk8 => 0x69
  | .lqd => 0x6A
  | .fdot2 => 0x6B
  | .xch => 0x70
  | .xidx => 0x71
  | .scan => 0x72
  | .redw => 0x73
  | .redwx => 0x74
  | .matchEq => 0x75
  | .vote => 0x76
  | .bcst => 0x77
  | .xlane => 0x78
  | .ld => 0x80
  | .st => 0x81
  | .ldc => 0x82
  | .pref => 0x83
  | .atom => 0x84
  | .red => 0x85
  | .cas => 0x86
  | .fence => 0x87
  | .acc => 0x88
  | .ldb => 0x89
  | .rack => 0x8A
  | .bufd => 0x8B
  | .bufs => 0x8C
  | .buff => 0x8D
  | .putn => 0x8E
  | .getn => 0x8F
  | .mapq => 0x90
  | .flsh => 0x91
  | .balloc => 0xA0
  | .bfree => 0xA1
  | .barv => 0xA2
  | .bexp => 0xA3
  | .bwait => 0xA4
  | .btest => 0xA5
  | .csign => 0xA6
  | .waitc => 0xA7
  | .cntr => 0xA8
  | .cpy => 0xB0
  | .gath => 0xB1
  | .scat => 0xB2
  | .cpyq => 0xB3
  | .wld => 0xC0
  | .wswp => 0xC1
  | .mma => 0xC2
  | .mms => 0xC3
  | .mmg => 0xC4
  | .accz => 0xC5
  | .accr => 0xC6
  | .accw => 0xC7
  | .accs => 0xC8
  | .mvb => 0xC9
  | .accm => 0xCA
  | .rgset => 0xD0
  | .rrs => 0xD1
  | .rag => 0xD2
  | .rar => 0xD3
  | .rbc => 0xD4
  | .rho => 0xD5
  | .rstat => 0xD6
  | .launch => 0xE0
  | .evnt => 0xE1
  | .pmc => 0xE2
  | .atci => 0xE3
  | .ctxs => 0xE4
  | .ctxr => 0xE5
  | .halt => 0xE6
  | .ppt => 0xE7

/-- The instruction at a value of OP; the other values have none (R43). -/
def Opc.ofCode : Nat → Option Opc
  | 0x00 => some .nop
  | 0x01 => some .bra
  | 0x02 => some .brx
  | 0x03 => some .call
  | 0x04 => some .callx
  | 0x05 => some .ret
  | 0x06 => some .exit
  | 0x07 => some .trap
  | 0x08 => some .bkpt
  | 0x09 => some .idem
  | 0x0A => some .yield
  | 0x0B => some .sleep
  | 0x0C => some .join
  | 0x0D => some .leave
  | 0x0E => some .waitm
  | 0x0F => some .mset
  | 0x10 => some .mget
  | 0x11 => some .sysc
  | 0x12 => some .rtt
  | 0x18 => some .mov
  | 0x19 => some .movi
  | 0x1A => some .movx
  | 0x1B => some .movxw
  | 0x1C => some .sel
  | 0x1D => some .movs
  | 0x1E => some .sets
  | 0x1F => some .fetest
  | 0x20 => some .feset
  | 0x21 => some .plop
  | 0x22 => some .slotr
  | 0x23 => some .slotw
  | 0x28 => some .add
  | 0x29 => some .sub
  | 0x2A => some .addc
  | 0x2B => some .subc
  | 0x2C => some .mul
  | 0x2D => some .mulh
  | 0x2E => some .mulw
  | 0x2F => some .mad
  | 0x30 => some .madw
  | 0x31 => some .div
  | 0x32 => some .rem
  | 0x33 => some .min
  | 0x34 => some .max
  | 0x35 => some .abs
  | 0x36 => some .neg
  | 0x37 => some .lea
  | 0x38 => some .and
  | 0x39 => some .or
  | 0x3A => some .xor
  | 0x3B => some .andn
  | 0x3C => some .not
  | 0x3D => some .shl
  | 0x3E => some .shr
  | 0x3F => some .sra
  | 0x40 => some .rotl
  | 0x41 => some .popc
  | 0x42 => some .clz
  | 0x43 => some .ctz
  | 0x44 => some .brev
  | 0x45 => some .bfx
  | 0x46 => some .bfi
  | 0x47 => some .cmp
  | 0x48 => some .sext
  | 0x49 => some .permb
  | 0x4A => some .dp4
  | 0x50 => some .fadd
  | 0x51 => some .fsub
  | 0x52 => some .fmul
  | 0x53 => some .ffma
  | 0x54 => some .fmin
  | 0x55 => some .fmax
  | 0x56 => some .fabs
  | 0x57 => some .fneg
  | 0x58 => some .fcmp
  | 0x59 => some .fclass
  | 0x5A => some .fdiv
  | 0x5B => some .fsqrt
  | 0x5C => some .frcp
  | 0x5D => some .frsq
  | 0x5E => some .fexp2
  | 0x5F => some .flog2
  | 0x60 => some .fsin
  | 0x61 => some .fcos
  | 0x62 => some .frnd
  | 0x63 => some .fcvt
  | 0x64 => some .fcvti
  | 0x65 => some .icvtf
  | 0x66 => some .fsgn
  | 0x67 => some .fscl
  | 0x68 => some .pack8
  | 0x69 => some .unpk8
  | 0x6A => some .lqd
  | 0x6B => some .fdot2
  | 0x70 => some .xch
  | 0x71 => some .xidx
  | 0x72 => some .scan
  | 0x73 => some .redw
  | 0x74 => some .redwx
  | 0x75 => some .matchEq
  | 0x76 => some .vote
  | 0x77 => some .bcst
  | 0x78 => some .xlane
  | 0x80 => some .ld
  | 0x81 => some .st
  | 0x82 => some .ldc
  | 0x83 => some .pref
  | 0x84 => some .atom
  | 0x85 => some .red
  | 0x86 => some .cas
  | 0x87 => some .fence
  | 0x88 => some .acc
  | 0x89 => some .ldb
  | 0x8A => some .rack
  | 0x8B => some .bufd
  | 0x8C => some .bufs
  | 0x8D => some .buff
  | 0x8E => some .putn
  | 0x8F => some .getn
  | 0x90 => some .mapq
  | 0x91 => some .flsh
  | 0xA0 => some .balloc
  | 0xA1 => some .bfree
  | 0xA2 => some .barv
  | 0xA3 => some .bexp
  | 0xA4 => some .bwait
  | 0xA5 => some .btest
  | 0xA6 => some .csign
  | 0xA7 => some .waitc
  | 0xA8 => some .cntr
  | 0xB0 => some .cpy
  | 0xB1 => some .gath
  | 0xB2 => some .scat
  | 0xB3 => some .cpyq
  | 0xC0 => some .wld
  | 0xC1 => some .wswp
  | 0xC2 => some .mma
  | 0xC3 => some .mms
  | 0xC4 => some .mmg
  | 0xC5 => some .accz
  | 0xC6 => some .accr
  | 0xC7 => some .accw
  | 0xC8 => some .accs
  | 0xC9 => some .mvb
  | 0xCA => some .accm
  | 0xD0 => some .rgset
  | 0xD1 => some .rrs
  | 0xD2 => some .rag
  | 0xD3 => some .rar
  | 0xD4 => some .rbc
  | 0xD5 => some .rho
  | 0xD6 => some .rstat
  | 0xE0 => some .launch
  | 0xE1 => some .evnt
  | 0xE2 => some .pmc
  | 0xE3 => some .atci
  | 0xE4 => some .ctxs
  | 0xE5 => some .ctxr
  | 0xE6 => some .halt
  | 0xE7 => some .ppt
  | _ => none

/-- Short-capable opcodes, marked S (R43, R45). -/
def Opc.shortOk : Opc → Bool
  | .nop | .bra | .call | .mov | .movi | .movx | .movxw | .add | .sub | .mul | .mulh | .mulw | .mad
  | .madw | .div | .rem | .min | .max | .abs | .neg | .and | .or | .xor | .andn | .not | .shl | .shr
  | .sra | .rotl | .popc | .clz | .ctz | .brev | .dp4 | .fadd | .fsub | .fmul | .ffma | .fmin | .fmax
  | .xch | .xidx | .scan | .redw | .matchEq | .bcst => true
  | _ => false

/-- Opcodes that accept U = 1, marked u (R38, R43). -/
def Opc.uni : Opc → Bool
  | .mov | .movi | .add | .sub | .mul | .mulh | .mulw | .mad | .madw | .div | .rem | .min | .max | .abs
  | .neg | .lea | .and | .or | .xor | .andn | .not | .shl | .shr | .sra | .rotl | .popc | .clz | .ctz
  | .brev | .bfx | .bfi | .sext | .permb | .dp4 | .fadd | .fsub | .fmul | .ffma | .fmin | .fmax | .fabs
  | .fneg | .fclass | .fdiv | .fsqrt | .frcp | .frsq | .fexp2 | .flog2 | .fsin | .fcos | .frnd | .fcvt
  | .fcvti | .icvtf | .fsgn | .fscl | .pack8 | .unpk8 | .lqd | .fdot2 => true
  | _ => false

/-- Opcodes that execute only with supervisor privilege, marked sv (R43). -/
def Opc.sv : Opc → Bool
  | .rtt | .atci | .ctxs | .ctxr | .halt => true
  | _ => false

/-- Literal-capable short forms (Table 2-12, R41). -/
def Opc.litOk : Opc → Bool
  | .movi | .movxw | .add | .sub | .mul | .mulh | .div | .rem | .min | .max | .mulw | .mad | .madw
  | .and | .or | .xor | .andn | .shl | .shr | .rotl | .sra | .dp4 | .fadd | .fsub | .fmul | .fmin
  | .fmax | .ffma | .xidx => true
  | _ => false

/-- Opcodes that define a second immediate, so that LEN = 11 is legal (R42, R106, R177, R294, R297, R314). -/
def Opc.lit2Ok : Opc → Bool
  | .movi | .xch | .xidx | .bcst | .xlane | .cpy | .gath | .scat | .mvb => true
  | _ => false

/-- Opcodes encoded only with a second immediate, so that LEN = 01 is illegal (R294, R297, Table 15-8). -/
def Opc.lit2Only : Opc → Bool
  | .cpy | .gath | .scat | .mvb => true
  | _ => false

/-- Short forms that take D as the accumulator (Table 2-12). -/
def Opc.shortAcc : Opc → Bool
  | .mad | .madw | .dp4 | .ffma => true
  | _ => false

/-- The default type of a short form (Table 2-12). -/
def Opc.shortT : Opc → BitVec 4
  | .mov | .movi | .movx | .movxw | .and | .or | .xor | .andn | .shl | .shr | .rotl | .not | .popc
  | .clz | .ctz | .brev | .xch | .xidx | .matchEq | .bcst => 15
  | .fadd | .fsub | .fmul | .fmin | .fmax | .ffma => 4
  | .dp4 => 10
  | _ => 0

/-- How an instruction is laid out in memory (R22, R28). -/
inductive Body where
  | short (f : Short)
  | branch (g : BitVec 4) (off : BitVec 18)
  | lit (f : Short) (l : Dword)
  | long (f : Long)
  | longLit (f : Long) (l : Dword)
  deriving DecidableEq, Repr

/-- The bytes of an instruction (R22, Table 2-1). -/
def Body.size : Body → Nat
  | .short _ => 4
  | .branch _ _ => 4
  | .lit _ _ => 12
  | .long _ => 12
  | .longLit _ _ => 20

/-- An instruction in the fields of its long form (R27), whatever the form it is encoded in. `bLit` is the
literal that stands for operand B (R41), `lit` the second immediate (R42), `size` the bytes of the encoding. -/
structure Ins where
  o : Opc
  f : Long
  bLit : Option Word := none
  lit : Dword := 0
  lit2 : Bool := false
  size : Nat
  deriving DecidableEq, Repr

/-- The long-form fields of a short form (R27, Table 2-12). The constants of MOVI, XCH and BCST, which the
short form carries in operand fields, stand in IMM as in the long form. -/
def Short.toLong (f : Short) (o : Opc) : Long :=
  match o with
  | .movi => { u := f.u, g := 7, a := 0, d := f.d.setWidth 8, m := 0, t := o.shortT, fe := 0, c := 0, b := 0,
               imm := (f.b ++ f.a).signExtend 32 }
  | .xch | .bcst => { u := f.u, g := 7, a := f.a.setWidth 8, d := f.d.setWidth 8, m := 0, t := o.shortT, fe := 0,
                      c := 0, b := 0, imm := f.b.setWidth 32 }
  | _ => { u := f.u, g := 7, a := f.a.setWidth 8, d := f.d.setWidth 8, m := 0, t := o.shortT, fe := 0,
           c := if o.shortAcc then f.d.setWidth 8 else 0, b := f.b.setWidth 8, imm := 0 }

/-- The long form with every field zero but the guard. -/
def Long.zero (g : BitVec 4) : Long :=
  { u := false, g := g, a := 0, d := 0, m := 0, t := 0, fe := 0, c := 0, b := 0, imm := 0 }

/-- The instruction that an opcode and a layout stand for, in the fields of its long form (R27, R28, R41). -/
def Ins.ofBody (o : Opc) : Body → Ins
  | .short f => { o := o, f := f.toLong o, size := 4 }
  | .branch g off => { o := o, f := { Long.zero g with imm := off.signExtend 32 }, size := 4 }
  | .lit f l =>
    let x := f.toLong o
    { o := o, f := if o = .movi then { x with imm := l.setWidth 32 } else x,
      bLit := if o = .movi then none else some (l.setWidth 32), size := 12 }
  | .long f => { o := o, f := f, size := 12 }
  | .longLit f l => { o := o, f := f, lit := l, lit2 := true, size := 20 }

/-- How many consecutive registers an operand takes: `byT` is a pair for a 64-bit type (R35, Table 2-7). -/
inductive Wd where
  | one | two | four | byT
  deriving DecidableEq, Repr

/-- What an operand field names (R33, R34). `z` unused; `src`, `dst` general operands read or written; `gx` a
g register by instruction definition; `pr` predicate, `mk` mask, `wr` w register, `wev` even w register, `cv`
convergence register, `tile` accumulator tile, `buf` buffer handle, `code` a code that the row checks. -/
inductive FK where
  | z | src (w : Wd) | dst (w : Wd) | gx | pr | mk | wr | wev | cv | tile | buf | code
  deriving DecidableEq, Repr

/-- The field rule of one instruction: its operand fields, accepted types, defined M and IMM bits, whether
queue ports and FE bits may stand in it, and the further conditions of its row. -/
structure Shape where
  d : FK := .z
  a : FK := .z
  b : FK := .z
  c : FK := .z
  ts : List (BitVec 4) := [0]
  m : BitVec 8 := 0
  i : Word := 0
  q : Bool := false
  fe : Bool := true
  ok : Bool := true

/-- Special register numbers with their widths in bits (R103, Table 5-2); other numbers are illegal. -/
def srWidth (n : Nat) : Option Nat :=
  if n ≤ 0x0B then some 32 else if n = 0x0C then some 64 else if n ≤ 0x0F then some 32
  else if n = 0x10 then some 64 else if n ≤ 0x12 then some 32 else if n ≤ 0x14 then some 64
  else if n = 0x15 then some 32 else if 0x20 ≤ n ∧ n ≤ 0x2B then some 32 else none

/-- Types whose operands are register pairs (R39, Table 2-7). -/
def wideT (t : BitVec 4) : Bool := t = 2 || t = 3 || t = 7

namespace Ins

/-- Order code M 2:0 (Table 2-8). -/
def order (x : Ins) : Nat := (x.f.m &&& 7).toNat
/-- Scope code M 5:3 (Table 2-8). -/
def scope (x : Ins) : Nat := ((x.f.m >>> 3) &&& 7).toNat
/-- Width or identity code M 7:6 (Table 2-8, R178). -/
def width (x : Ins) : Nat := (x.f.m >>> 6).toNat
/-- Bit `k` of M. -/
def mb (x : Ins) (k : Nat) : Bool := x.f.m.getLsbD k
/-- Bit `k` of IMM. -/
def ib (x : Ins) (k : Nat) : Bool := x.f.imm.getLsbD k
/-- Bits `lo + n - 1` to `lo` of IMM. -/
def ifld (x : Ins) (lo n : Nat) : Nat := (x.f.imm.toNat >>> lo) % 2 ^ n
/-- Operand B under M bit 7 (R114, R140) or a short-form literal (R41). -/
def bImm (x : Ins) (w : Wd) : FK := if x.mb 7 || x.bLit.isSome then .z else .src w
/-- Operand C under M bit 6 (R114, R140). -/
def cImm (x : Ins) (w : Wd) : FK := if x.mb 6 then .z else .src w
/-- IMM is used where B or C is taken from it (R114). -/
def immBC (x : Ins) (m : Word) : Word := if x.mb 7 || x.mb 6 then m else 0

/-- The registers of an access of width code M 7:6 (R198). -/
def widthWd (x : Ins) : Wd := if x.width = 1 then .two else if x.width = 2 then .four else .one

/-- The rule of the access-mode code in C and of the width (R198). `ldc`, `pref` select the exceptions. -/
def modeOk (x : Ins) (ldc pref : Bool) : Bool :=
  let sz := (x.f.c >>> 1) &&& 3
  (x.f.c >>> 4) = 0 && (ldc || !x.f.c.getLsbD 3) && sz ≠ 3 && (sz = 0 || (x.width = 0 && !pref)) && x.width ≤ 2
    && (pref || x.f.t = 15 || sz ≠ 0)

/-- The index field of a memory instruction under IX (R198). -/
def ixB (x : Ins) : FK := if x.f.c.getLsbD 0 then .src .one else .z
/-- The offset of a memory instruction, zero under IX (R198). -/
def ixImm (x : Ins) : Word := if x.f.c.getLsbD 0 then 0 else 0xFFFFFFFF

/-- Table 9-8: the operations of ATOM and RED with their types. -/
def atomOk (x : Ins) : Bool :=
  match x.f.c.toNat with
  | 0 => x.f.t.toNat ≤ 7
  | 1 | 2 => x.f.t.toNat ≤ 4
  | 3 | 4 | 5 | 6 => x.f.t.toNat ≤ 3 || x.f.t = 15
  | 7 | 8 => x.f.t = 1
  | _ => false

/-- The identity code of XCH, XIDX, BCST and XLANE (R178): the C field it names. -/
def idC (x : Ins) (k : FK) : FK := if x.width = 1 then k else .z
/-- The identity code and the literal go together (R177, R178). -/
def idOk (x : Ins) : Bool := x.width ≠ 3 && (x.width = 2) = x.lit2 && (x.lit >>> 32) = 0

/-- Codes and types of SCAN and REDW (R177). -/
def scanOk (x : Ins) : Bool :=
  let op := x.order
  op ≤ 5 && (if op ≤ 2 then x.f.t = 0 || x.f.t = 1 || x.f.t = 4 else x.f.t = 15)

/-- An Anvil format code as a weight or activation format, with block exponents (Table 15-2, R314). -/
def fmtOk (c : Nat) (act bx : Bool) : Bool :=
  c ≤ 6 && (!bx || c ≤ 4) && (c ≠ 4 || bx) && (!act || (c ≠ 3 && c ≠ 4))

end Ins

/-- The field rule of a normalised instruction, by the encoding tables of the chapters: Tables 5-3, 6-1, 7-4,
8-1, 8-3, 9-6, 10-3, 12-4, 13-2, 14-3, 15-8, 16-4, 17-9, 18-7 and 19-4 with R294, R297 and R298. -/
def Ins.shape (x : Ins) : Shape :=
  let g1 : FK := .src .one
  let gT : FK := .src .byT
  let g2 : FK := .src .two
  let d1 : FK := .dst .one
  let dT : FK := .dst .byT
  let d2 : FK := .dst .two
  let all : Word := 0xFFFFFFFF
  match x.o with
  | .nop | .ret | .exit | .yield | .rtt | .ppt | .wswp => {}
  | .bra | .call => { i := all }
  | .brx | .callx => { a := g1, i := all, q := true }
  | .trap | .bkpt | .sysc | .halt => { i := 0xFFFF }
  | .idem => { m := 1, i := if x.mb 0 then 0 else all }
  | .sleep => { b := x.bImm .one, m := 0x80, i := if x.mb 7 then 0xFFFFFF else 0 }
  | .join => { d := .mk }
  | .leave => { i := 0xFFF, ok := x.f.imm ≠ 0 }
  | .waitm => { a := .mk }
  | .mset => { d := .mk, a := .pr, m := 1 }
  | .mget => { d := .wr, a := .mk }
  | .mov => { d := dT, a := gT, ts := [15, 2, 3], q := true }
  | .movi => { d := dT, ts := [15, 2, 3], q := true, i := if x.lit2 then 0 else all,
               ok := !x.lit2 || wideT x.f.t }
  | .movx => { d := d1, a := g1, ts := [15], q := true }
  | .movxw => { a := g1, b := if x.bLit.isSome then .z else g1, ts := [15], q := true }
  | .sel => { d := dT, a := gT, b := gT, c := .pr, ts := [15, 2, 3], q := true }
  | .movs => { d := dT, ts := [15, 3], i := 0xFF, ok := srWidth x.f.imm.toNat = some (if x.f.t = 3 then 64 else 32) }
  | .sets => { a := gT, ts := [15, 3], i := 0xFF, ok := srWidth x.f.imm.toNat = some (if x.f.t = 3 then 64 else 32) }
  | .fetest => { d := .pr, a := .gx }
  | .feset => { d := .gx, m := 1 }
  | .plop => { d := .pr, a := .pr, b := .pr, c := .pr, i := 0xFF }
  | .slotr => { d := .wr, a := .gx, b := if x.mb 0 then .wr else .z, ts := [15], m := 1,
                i := if x.mb 0 then 0 else 31 }
  | .slotw => { d := .gx, a := .wr, b := if x.mb 0 then .wr else .z, ts := [15], m := 1,
                i := if x.mb 0 then 0 else 31 }
  | .add | .sub => { d := dT, a := gT, b := x.bImm .byT, ts := [0, 1, 2, 3, 8, 9, 10, 11], m := 0x90,
                     i := x.immBC all, q := true }
  | .mul => { d := dT, a := gT, b := x.bImm .byT, ts := [0, 1, 2, 3, 8, 9], m := 0x80, i := x.immBC all, q := true }
  | .mulh => { d := d1, a := g1, b := x.bImm .one, ts := [0, 1], m := 0x80, i := x.immBC all, q := true }
  | .mulw => { d := d2, a := g1, b := x.bImm .one, ts := [0, 1], m := 0x80, i := x.immBC all, q := true }
  | .mad => { d := dT, a := gT, b := x.bImm .byT, c := x.cImm .byT, ts := [0, 1, 2, 3, 8, 9], m := 0xD0,
              i := x.immBC all, q := true, ok := !(x.mb 7 && x.mb 6) }
  | .madw => { d := d2, a := g1, b := x.bImm .one, c := x.cImm .two, ts := [0, 1], m := 0xC0,
               i := x.immBC all, q := true, ok := !(x.mb 7 && x.mb 6) }
  | .div | .rem => { d := dT, a := gT, b := x.bImm .byT, ts := [0, 1, 2, 3], m := 0x80, i := x.immBC all, q := true }
  | .min | .max => { d := dT, a := gT, b := x.bImm .byT, ts := [0, 1, 2, 3, 8, 9, 10, 11], m := 0x80,
                     i := x.immBC all, q := true }
  | .abs | .neg => { d := dT, a := gT, ts := [0, 2, 8, 10], m := 0x10, q := true }
  | .and | .or | .xor | .andn => { d := dT, a := gT, b := x.bImm .byT, ts := [15, 3], m := 0x80,
                                   i := x.immBC all, q := true }
  | .not | .brev => { d := dT, a := gT, ts := [15, 3], q := true }
  | .shl | .shr | .rotl => { d := dT, a := gT, b := x.bImm .one, ts := [15, 3], m := 0x80, i := x.immBC all, q := true }
  | .sra => { d := dT, a := gT, b := x.bImm .one, ts := [0, 2], m := 0x80, i := x.immBC all, q := true }
  | .popc | .clz | .ctz => { d := d1, a := gT, ts := [15, 3], q := true }
  | .bfx => { d := dT, a := gT, b := x.bImm .one, ts := [1, 0, 2, 3], m := 0x80, i := x.immBC 0xFFFF, q := true }
  | .bfi => { d := dT, a := gT, b := gT, c := x.cImm .one, ts := [15, 3], m := 0x40, i := x.immBC 0xFFFF, q := true }
  | .sext => { d := dT, a := if x.mb 5 then g1 else gT, ts := [0, 2], m := 0x20, i := 0x7F, q := true,
               ok := 1 ≤ x.f.imm.toNat && x.f.imm.toNat ≤ (if x.f.t = 2 && !x.mb 5 then 64 else 32)
                     && (!x.mb 5 || x.f.t = 2) }
  | .permb => { d := d1, a := g1, b := g1, c := x.cImm .one, ts := [15], m := 0x40, i := x.immBC 0xFFFF, q := true }
  | .dp4 => { d := d1, a := g1, b := x.bImm .one, c := x.cImm .one, ts := [10, 11], m := 0xF0, i := x.immBC all,
              q := true, ok := !(x.mb 7 && x.mb 6) }
  | .cmp => { d := .pr, a := gT, b := x.bImm .byT, ts := [0, 1, 2, 3], m := 0x87, i := x.immBC all, q := true,
              ok := x.order ≤ 5 }
  | .addc | .subc => { d := d1, a := g1, b := x.bImm .one, c := if x.mb 3 then .z else .pr, ts := [1], m := 0x8F,
                       i := x.immBC all, q := true }
  | .lea => { d := d2, a := g2, b := gT, ts := [0, 1, 2, 3], m := 0x07, i := all, q := true }
  | .fadd | .fsub | .fmul => { d := dT, a := gT, b := x.bImm .byT, ts := [4, 5, 6, 7], m := 0x9F, i := x.immBC all,
                               q := true, ok := x.order ≤ 4 }
  | .ffma => { d := dT, a := gT, b := x.bImm .byT, c := x.cImm .byT, ts := [4, 5, 6, 7], m := 0xDF,
               i := x.immBC all, q := true, ok := x.order ≤ 4 && !(x.mb 7 && x.mb 6) }
  | .fmin | .fmax => { d := dT, a := gT, b := x.bImm .byT, ts := [4, 5, 6, 7], m := 0x88, i := x.immBC all, q := true }
  | .fabs | .fneg => { d := dT, a := gT, ts := [4, 5, 6, 7], q := true }
  | .fcmp => { d := .pr, a := gT, b := x.bImm .byT, ts := [4, 7], m := 0x8F, i := x.immBC all, q := true }
  | .fclass => { d := d1, a := gT, ts := [4, 5, 6, 7], q := true }
  | .fdiv => { d := dT, a := gT, b := x.bImm .byT, ts := [4, 5, 6, 7], m := 0x8F, i := x.immBC all, q := true,
               ok := x.order ≤ 4 }
  | .fsqrt => { d := dT, a := gT, ts := [4, 5, 6, 7], m := 0x0F, q := true, ok := x.order ≤ 4 }
  | .frcp | .frsq | .fexp2 | .flog2 | .fsin | .fcos => { d := dT, a := gT, ts := [4, 5, 6], m := 0x08, q := true }
  | .frnd => { d := dT, a := gT, ts := [4, 5, 6, 7], m := 0x07, q := true, ok := x.order ≤ 4 }
  | .fcvt =>
    let s := (x.f.m >>> 5).toNat
    let t := x.f.t.toNat
    { d := dT, a := if t = 4 && s = 0 then g2 else g1, b := if (t = 5 || t = 6) && s = 0 then g1 else .z,
      ts := [4, 5, 6, 7], m := 0xEF, q := true,
      ok := x.order ≤ 4 && (if t = 4 then s ≤ 4 else if t = 7 then s = 0 else s ≤ 1)
            && (x.order = 0 || !((t = 4 && s ≠ 0) || t = 7)) }
  | .fcvti =>
    let s := (x.f.m >>> 5).toNat
    { d := dT, a := if s = 1 then g2 else g1, ts := [0, 1, 2, 3], m := 0xE7, q := true, ok := x.order ≤ 4 && s ≤ 3 }
  | .icvtf =>
    let s := (x.f.m >>> 5).toNat
    { d := dT, a := if s = 2 || s = 3 then g2 else g1, ts := [4, 7], m := 0xE7, q := true,
      ok := x.order ≤ 4 && s ≤ 3 }
  | .fsgn => { d := dT, a := gT, b := x.bImm .byT, ts := [4, 5, 6, 7], m := 0xE0,
               i := if x.mb 7 then all else 0, q := true, ok := (x.f.m >>> 5) &&& 3 ≠ 3 }
  | .fscl => { d := dT, a := gT, b := x.bImm .one, ts := [4, 5, 6, 7], m := 0x8F, i := x.immBC all, q := true,
               ok := x.order ≤ 4 }
  | .pack8 =>
    let s := ((x.f.m >>> 5) &&& 3).toNat
    { d := d1, a := g1, b := g1, c := if s ≠ 0 || x.mb 7 then .z else g1, ts := [12, 13], m := 0xF7,
      i := if s = 0 then 1 else 0, q := true, ok := x.order ≤ 4 && s ≠ 3 && (s = 0 || !x.mb 7) }
  | .unpk8 => { d := d1, a := g1, ts := [4, 5, 6], m := 0x20, i := if x.f.t = 4 then 3 else 1, q := true }
  | .lqd => { d := d1, a := g1, ts := [14], i := 1, q := true }
  | .fdot2 => { d := d1, a := g1, b := x.bImm .one, c := x.cImm .one, ts := [5, 6], m := 0xCF, i := x.immBC all,
                q := true, ok := x.order ≤ 4 && !(x.mb 7 && x.mb 6) }
  | .xch => { d := d1, a := g1, c := x.idC g1, ts := [15], m := 0xE0, i := 31, fe := false, ok := x.idOk }
  | .xidx => { d := d1, a := g1, b := if x.mb 5 || x.bLit.isSome then .z else g1, c := x.idC g1, ts := [15],
               m := 0xE0, i := if x.mb 5 then 31 else 0, fe := false, ok := x.idOk }
  | .bcst => { d := d1, a := g1, c := x.idC g1, ts := [15], m := 0xC0, i := 31, fe := false, ok := x.idOk }
  | .scan => { d := d1, a := g1, ts := [0, 1, 4, 15], m := 0x0F, fe := false, ok := x.scanOk }
  | .redw => { d := .wr, a := g1, ts := [0, 1, 4, 15], m := 0x07, fe := false, ok := x.scanOk }
  | .redwx => { d := .wev, a := g1, b := x.bImm .one, ts := [0, 1, 4], m := 0x81, fe := false }
  | .matchEq => { d := d1, a := gT, ts := [15, 3], fe := false }
  | .vote => { d := if x.f.m = 2 then d1 else .pr, a := .pr, m := 0x03, fe := false, ok := x.f.m ≠ 3 }
  | .xlane => { d := if x.mb 0 then .wr else d1, a := if x.mb 0 then .wr else g1,
                c := x.idC (if x.mb 0 then .wr else g1), ts := [15], m := 0xC3, i := 31, fe := false,
                ok := x.idOk && x.f.imm ≠ 0 }
  | .ld => { d := .dst x.widthWd, a := g2, b := x.ixB, c := .code, ts := [15, 0, 1], m := 0xFF, i := x.ixImm,
             ok := x.modeOk false false && (x.order = 0 || x.order = 1 || x.order = 4) && x.scope ≤ 5 }
  | .st => { d := .dst x.widthWd, a := g2, b := x.ixB, c := .code, ts := [15], m := 0xFF, i := x.ixImm,
             ok := x.modeOk false false && (x.order = 0 || x.order = 2 || x.order = 4) && x.scope ≤ 5 }
  | .ldc => { d := .dst x.widthWd, a := if x.f.c.getLsbD 3 then .wev else g2, b := x.ixB, c := .code,
              ts := [15, 0, 1], m := 0xC0, i := x.ixImm, ok := x.modeOk true false }
  | .pref => { a := g2, b := x.ixB, c := .code, m := 0x38, i := x.ixImm,
               ok := x.modeOk false true && (x.scope = 1 || x.scope = 2) }
  | .atom => { d := dT, a := g2, b := gT, c := .code, ts := [0, 1, 2, 3, 4, 5, 6, 7, 15], m := 0x3F, i := all,
               ok := x.atomOk && x.order ≤ 4 && x.scope ≤ 5 }
  | .red => { a := g2, b := gT, c := .code, ts := [0, 1, 2, 3, 4, 5, 6, 7, 15], m := 0x3F, i := all,
              ok := x.atomOk && (x.order = 0 || x.order = 2) && x.scope ≤ 5 }
  | .cas => { d := dT, a := g2, b := gT, c := gT, ts := [0, 1, 2, 3, 15], m := 0x7F, i := all,
              ok := x.order ≤ 4 && x.scope ≤ 5 && (!x.mb 6 || x.order = 1 || x.order = 3 || x.order = 4) }
  | .fence => { m := 0x3F, ok := 1 ≤ x.order && x.order ≤ 4 && x.scope ≤ 5 }
  | .acc => { a := g2, b := g1, ts := [4], i := all }
  | .ldb => { d := d1, a := g2, b := g1, ts := [4], m := 0x3F, i := all, ok := x.order ≤ 1 && x.scope ≤ 5 }
  | .rack => { a := g2, m := 0x38, i := all, ok := x.scope ≤ 5 }
  | .bufd => { d := .buf, a := g2, b := g1, c := g1 }
  | .bufs => { d := d1, a := .buf, m := 1 }
  | .buff => { d := d1, a := .buf }
  | .putn => { d := d2, a := g2, b := g2, c := g1, m := 0x38, i := 0x3FFFF,
               ok := (x.scope = 4 || x.scope = 5) && x.ifld 0 16 ≠ 0 }
  | .getn => { d := d2, a := g2, b := if x.mb 6 then g1 else .z, c := g1, m := 0x78, i := 0x30000, ok := x.scope ≤ 5 }
  | .mapq => { d := d2, a := g2, b := if x.mb 0 then g1 else .z, ts := [3], m := 1, i := if x.mb 0 then 0 else all }
  | .flsh => { m := 0x38, ok := 1 ≤ x.scope && x.scope ≤ 4 }
  | .balloc => { d := d1, a := .pr, b := x.bImm .one, m := 0x81, i := if x.mb 7 then 0xFFFF7FFF else 0xFFFF0000 }
  | .bfree => { a := g1, i := 0xFFFF }
  | .barv => { d := d1, a := g1, i := 0x7FFF }
  | .bexp => { d := d1, a := g1, b := x.bImm .one, m := 0x81, i := x.immBC all }
  | .bwait => { a := g1, b := x.bImm .one, m := 0x80, i := x.immBC 1 }
  | .btest => { d := .pr, a := g1, b := x.bImm .one, m := 0x80, i := x.immBC 1 }
  | .csign => { d := d1, a := .cv, b := x.bImm .one, m := 0x80, i := x.immBC 0x7FF }
  | .waitc => { m := 0x3F, i := 0x3F, ok := x.f.m ≠ 0 }
  | .cntr => { d := d2, ts := [3] }
  | .cpy => { d := d2, a := g2, b := if x.mb 6 then g1 else .z, c := if x.mb 7 then .z else g1, m := 0xF8,
              i := if x.ib 2 then 0x3F0F else 3, ok := x.scope ≤ 5 && (x.lit >>> 54) = 0 }
  | .gath => { d := d2, a := g2, b := g2, c := if x.mb 6 then g1 else .z, m := 0x78,
               i := if x.ib 2 then 0x3F0F else 3, ok := x.scope ≤ 5 && (x.lit >>> 56) = 0 }
  | .scat => { d := d2, a := g2, b := g2, c := if x.mb 6 then g1 else .z, ts := if x.mb 7 then [4, 1] else [0],
               m := 0xF8, i := if x.ib 2 then 0x3F0F else 3, ok := x.scope ≤ 5 && (x.lit >>> 56) = 0 }
  | .cpyq => { d := d2, ts := [3], m := 1 }
  | .wld => { a := g2, b := if x.ib 4 then g2 else .z, m := 0x38, i := 0x1F,
              ok := x.scope ≤ 5 && Ins.fmtOk (x.ifld 0 4) false (x.ib 4) }
  | .mma => { d := .tile, a := .cv, b := .gx, c := if x.ib 20 then .gx else .z, i := 0x3F3F3F,
              ok := Ins.fmtOk (x.ifld 16 4) true (x.ib 20) && x.ifld 0 6 + x.ifld 8 6 + 1 ≤ 64 }
  | .mms => { d := .tile, a := .buf, b := g1, m := 0x38, i := 0x7F3F3F,
              ok := x.scope ≤ 5 && Ins.fmtOk (x.ifld 16 4) true (x.ib 20) && x.ifld 0 6 + x.ifld 8 6 + 1 ≤ 64 }
  | .mmg => { d := .tile, a := .buf, b := g2, c := g2, m := 0x38, i := 0x1F7F3F3F,
              ok := x.scope ≤ 5 && Ins.fmtOk (x.ifld 16 4) true (x.ib 20) && Ins.fmtOk (x.ifld 24 4) false (x.ib 28) }
  | .accz => { d := .tile }
  | .accr => if x.mb 0 then { d := d1, ts := [15], m := 1 } else
    { d := .dst x.widthWd, a := .tile, b := if x.mb 1 then .z else g1, ts := [4], m := 0xC2,
      i := if x.mb 1 then 0x3F3F else 0, ok := x.width ≤ 2 }
  | .accw => { d := .tile, a := if x.mb 1 then .z else g1, b := .src x.widthWd, ts := [4], m := 0xC2,
               i := if x.mb 1 then 0x3F3F else 0, ok := x.width ≤ 2 }
  | .accs =>
    let df := x.ifld 17 3
    { d := .tile, a := g2, b := g1, c := if x.ib 16 then g1 else .z, m := 0x38, i := 0x3F3F3F,
      ok := x.scope ≤ 5 && df ≤ 4 && (!x.ib 20 || df ≤ 2) && (!x.ib 21 || 3 ≤ df)
            && x.ifld 0 6 + x.ifld 8 6 + 1 ≤ 64 }
  | .mvb =>
    let wf := (x.f.m &&& 15).toNat
    { d := .buf, a := g2, b := g2, c := if x.mb 5 then g2 else .z, m := 0x3F, i := all,
      ok := (wf = 0 || wf = 2 || wf = 4 || wf = 5) && Ins.fmtOk wf false (x.mb 5) && !(x.mb 4 && wf = 5)
            && (x.lit >>> 60) = 0 }
  | .accm => { d := .tile, a := .wr }
  | .rgset => { d := d1, a := g2, m := 1, i := 0xF }
  | .rrs | .rar => { d := d2, a := g2, b := if x.mb 6 then g1 else .z, c := g1, ts := [0, 1, 4, 5, 6], m := 0x78,
                     i := 0xFFFF003F, ok := x.scope ≤ 5 && x.ifld 4 2 ≠ 3 }
  | .rag => { d := d2, a := g2, b := if x.mb 6 then g1 else .z, c := g1, ts := [15], m := 0x78, i := 0xFFFF000F,
              ok := x.scope ≤ 5 }
  | .rbc => { d := d2, a := g2, b := if x.mb 6 then g1 else .z, c := g1, ts := [15], m := 0x78, i := 0xFFFFFFCF,
              ok := x.scope ≤ 5 }
  | .rho => { d := if x.ib 7 then d2 else .z, a := if x.ib 7 then .z else g2, b := if x.mb 6 then g1 else .z,
              c := g1, ts := [15], m := 0x78, i := 0xFFFF00CF, ok := x.scope ≤ 5 && (!x.mb 6 || x.ib 7) }
  | .rstat => { d := d2, ts := [3], m := 1, i := if x.mb 0 then 0xF else 0xFFFF000F }
  | .launch => { d := d1, a := g2, i := 0x3F }
  | .evnt => { a := g1, i := 0xFFFF }
  | .pmc => { d := d2, ts := [3], i := 0xFF, ok := x.f.imm.toNat ≤ 9 }
  | .atci => { a := g2, b := g1, c := if x.mb 2 then g2 else .z, m := 0x3F, i := if x.f.m &&& 3 = 0 then 3 else 0,
               ok := (x.f.m &&& 3) ≠ 3 && 2 ≤ x.scope && x.scope ≤ 4 && x.f.imm ≠ 3
                     && (!x.mb 2 || (x.f.m &&& 3) = 0) }
  | .ctxs | .ctxr => { d := d1, a := g2 }

/-- The registers an operand takes, for the type of the instruction. -/
def Wd.n (w : Wd) (t : BitVec 4) : Nat :=
  match w with
  | .one => 1
  | .two => 2
  | .four => 4
  | .byT => if wideT t then 2 else 1

/-- A general operand names a register by Table 2-6 that begins its group (R33, R35, R198). -/
def genOk (u q : Bool) (n : Nat) (v : BitVec 8) : Bool :=
  if u then v.toNat < 64 && v.toNat % n = 0
  else (v.toNat < 240 && v.toNat % n = 0) || (q && n = 1 && v.toNat < 252)

/-- The value of an operand field agrees with what the field names (R33 to R35). -/
def FK.ok (k : FK) (u q : Bool) (t : BitVec 4) (v : BitVec 8) : Bool :=
  match k with
  | .z => v = 0
  | .src w => genOk u q (w.n t) v
  | .dst w => genOk u q (w.n t) v
  | .gx => v.toNat < 240
  | .pr => v.toNat < 8
  | .mk => v.toNat < 12
  | .wr => v.toNat < 64
  | .wev => v.toNat < 64 && v.toNat % 2 = 0
  | .cv => v.toNat < 8
  | .tile => v.toNat < 16
  | .buf => v.toNat < 64
  | .code => true

/-- An FE bit may be set only for a source that names a g register (R37). -/
def FK.feOk (k : FK) (u : Bool) (v : BitVec 8) : Bool :=
  match k with
  | .src _ => !u && v.toNat < 240
  | _ => false

/-- The field checks of step 6 of Table 2-13 that need no cohort (R29 to R42). -/
def Ins.fieldsOk (x : Ins) : Bool :=
  let s := x.shape
  let f := x.f
  f.g ≠ 15 && (!f.u || (x.o.uni && f.g = 7)) && s.ts.contains f.t && f.m &&& ~~~s.m = 0 && f.imm &&& ~~~s.i = 0
    && s.d.ok f.u s.q f.t f.d && s.a.ok f.u s.q f.t f.a && s.b.ok f.u s.q f.t f.b && s.c.ok f.u s.q f.t f.c
    && (!f.fe.getLsbD 0 || (s.fe && s.a.feOk f.u f.a)) && (!f.fe.getLsbD 1 || (s.fe && s.b.feOk f.u f.b))
    && (!f.fe.getLsbD 2 || (s.fe && s.c.feOk f.u f.c)) && s.ok

/-- A literal of a short form has bits 63:32 zero and stands with a B field of zero, and for MOVI with an A
field of zero (R41). -/
def litFieldsOk (o : Opc) (f : Short) (l : Dword) : Bool :=
  f.b = 0 && (o ≠ .movi || f.a = 0) && (l >>> 32) = 0

/-- A layout is legal for an opcode: step 3 of Table 2-13 and the field checks of step 6. -/
def Body.ok (o : Opc) (b : Body) : Bool :=
  let fields := (Ins.ofBody o b).fieldsOk
  match b with
  | .short _ => o.shortOk && o ≠ .bra && o ≠ .call && fields
  | .branch g _ => (o = .bra || o = .call) && g ≠ 15
  | .lit f l => o.litOk && litFieldsOk o f l && fields
  | .long _ => !o.lit2Only && fields
  | .longLit _ _ => o.lit2Ok && fields

/-- The opcode and the layout of an instruction; none for an event. -/
def Instr.parts : Instr → Option (Opc × Body)
  | .nopLong f => some (.nop, .long f)
  | .bra g off => some (.bra, .branch g off)
  | .braLong f => some (.bra, .long f)
  | .brx f => some (.brx, .long f)
  | .call g off => some (.call, .branch g off)
  | .callLong f => some (.call, .long f)
  | .callx f => some (.callx, .long f)
  | .ret f => some (.ret, .long f)
  | .exit f => some (.exit, .long f)
  | .trap f => some (.trap, .long f)
  | .bkpt f => some (.bkpt, .long f)
  | .idemOpen f => some (.idem, .long f)
  | .idemClose f => some (.idem, .long f)
  | .yield f => some (.yield, .long f)
  | .sleep f => some (.sleep, .long f)
  | .join f => some (.join, .long f)
  | .leave f => some (.leave, .long f)
  | .waitm f => some (.waitm, .long f)
  | .mset f => some (.mset, .long f)
  | .mget f => some (.mget, .long f)
  | .sysc f => some (.sysc, .long f)
  | .rtt f => some (.rtt, .long f)
  | .mov f => some (.mov, .short f)
  | .movLong f => some (.mov, .long f)
  | .movi f => some (.movi, .short f)
  | .moviLit f l => some (.movi, .lit f l)
  | .moviLong f => some (.movi, .long f)
  | .moviLongLit f l => some (.movi, .longLit f l)
  | .movx f => some (.movx, .short f)
  | .movxLong f => some (.movx, .long f)
  | .movxw f => some (.movxw, .short f)
  | .movxwLit f l => some (.movxw, .lit f l)
  | .movxwLong f => some (.movxw, .long f)
  | .sel f => some (.sel, .long f)
  | .movs f => some (.movs, .long f)
  | .sets f => some (.sets, .long f)
  | .fetest f => some (.fetest, .long f)
  | .feset f => some (.feset, .long f)
  | .plop f => some (.plop, .long f)
  | .slotr f => some (.slotr, .long f)
  | .slotw f => some (.slotw, .long f)
  | .add f => some (.add, .short f)
  | .addLit f l => some (.add, .lit f l)
  | .addLong f => some (.add, .long f)
  | .sub f => some (.sub, .short f)
  | .subLit f l => some (.sub, .lit f l)
  | .subLong f => some (.sub, .long f)
  | .addc f => some (.addc, .long f)
  | .subc f => some (.subc, .long f)
  | .mul f => some (.mul, .short f)
  | .mulLit f l => some (.mul, .lit f l)
  | .mulLong f => some (.mul, .long f)
  | .mulh f => some (.mulh, .short f)
  | .mulhLit f l => some (.mulh, .lit f l)
  | .mulhLong f => some (.mulh, .long f)
  | .mulw f => some (.mulw, .short f)
  | .mulwLit f l => some (.mulw, .lit f l)
  | .mulwLong f => some (.mulw, .long f)
  | .mad f => some (.mad, .short f)
  | .madLit f l => some (.mad, .lit f l)
  | .madLong f => some (.mad, .long f)
  | .madw f => some (.madw, .short f)
  | .madwLit f l => some (.madw, .lit f l)
  | .madwLong f => some (.madw, .long f)
  | .div f => some (.div, .short f)
  | .divLit f l => some (.div, .lit f l)
  | .divLong f => some (.div, .long f)
  | .rem f => some (.rem, .short f)
  | .remLit f l => some (.rem, .lit f l)
  | .remLong f => some (.rem, .long f)
  | .min f => some (.min, .short f)
  | .minLit f l => some (.min, .lit f l)
  | .minLong f => some (.min, .long f)
  | .max f => some (.max, .short f)
  | .maxLit f l => some (.max, .lit f l)
  | .maxLong f => some (.max, .long f)
  | .abs f => some (.abs, .short f)
  | .absLong f => some (.abs, .long f)
  | .neg f => some (.neg, .short f)
  | .negLong f => some (.neg, .long f)
  | .lea f => some (.lea, .long f)
  | .and f => some (.and, .short f)
  | .andLit f l => some (.and, .lit f l)
  | .andLong f => some (.and, .long f)
  | .or f => some (.or, .short f)
  | .orLit f l => some (.or, .lit f l)
  | .orLong f => some (.or, .long f)
  | .xor f => some (.xor, .short f)
  | .xorLit f l => some (.xor, .lit f l)
  | .xorLong f => some (.xor, .long f)
  | .andn f => some (.andn, .short f)
  | .andnLit f l => some (.andn, .lit f l)
  | .andnLong f => some (.andn, .long f)
  | .not f => some (.not, .short f)
  | .notLong f => some (.not, .long f)
  | .shl f => some (.shl, .short f)
  | .shlLit f l => some (.shl, .lit f l)
  | .shlLong f => some (.shl, .long f)
  | .shr f => some (.shr, .short f)
  | .shrLit f l => some (.shr, .lit f l)
  | .shrLong f => some (.shr, .long f)
  | .sra f => some (.sra, .short f)
  | .sraLit f l => some (.sra, .lit f l)
  | .sraLong f => some (.sra, .long f)
  | .rotl f => some (.rotl, .short f)
  | .rotlLit f l => some (.rotl, .lit f l)
  | .rotlLong f => some (.rotl, .long f)
  | .popc f => some (.popc, .short f)
  | .popcLong f => some (.popc, .long f)
  | .clz f => some (.clz, .short f)
  | .clzLong f => some (.clz, .long f)
  | .ctz f => some (.ctz, .short f)
  | .ctzLong f => some (.ctz, .long f)
  | .brev f => some (.brev, .short f)
  | .brevLong f => some (.brev, .long f)
  | .bfx f => some (.bfx, .long f)
  | .bfi f => some (.bfi, .long f)
  | .cmp f => some (.cmp, .long f)
  | .sext f => some (.sext, .long f)
  | .permb f => some (.permb, .long f)
  | .dp4 f => some (.dp4, .short f)
  | .dp4Lit f l => some (.dp4, .lit f l)
  | .dp4Long f => some (.dp4, .long f)
  | .fadd f => some (.fadd, .short f)
  | .faddLit f l => some (.fadd, .lit f l)
  | .faddLong f => some (.fadd, .long f)
  | .fsub f => some (.fsub, .short f)
  | .fsubLit f l => some (.fsub, .lit f l)
  | .fsubLong f => some (.fsub, .long f)
  | .fmul f => some (.fmul, .short f)
  | .fmulLit f l => some (.fmul, .lit f l)
  | .fmulLong f => some (.fmul, .long f)
  | .ffma f => some (.ffma, .short f)
  | .ffmaLit f l => some (.ffma, .lit f l)
  | .ffmaLong f => some (.ffma, .long f)
  | .fmin f => some (.fmin, .short f)
  | .fminLit f l => some (.fmin, .lit f l)
  | .fminLong f => some (.fmin, .long f)
  | .fmax f => some (.fmax, .short f)
  | .fmaxLit f l => some (.fmax, .lit f l)
  | .fmaxLong f => some (.fmax, .long f)
  | .fabs f => some (.fabs, .long f)
  | .fneg f => some (.fneg, .long f)
  | .fcmp f => some (.fcmp, .long f)
  | .fclass f => some (.fclass, .long f)
  | .fdiv f => some (.fdiv, .long f)
  | .fsqrt f => some (.fsqrt, .long f)
  | .frcp f => some (.frcp, .long f)
  | .frsq f => some (.frsq, .long f)
  | .fexp2 f => some (.fexp2, .long f)
  | .flog2 f => some (.flog2, .long f)
  | .fsin f => some (.fsin, .long f)
  | .fcos f => some (.fcos, .long f)
  | .frnd f => some (.frnd, .long f)
  | .fcvt f => some (.fcvt, .long f)
  | .fcvti f => some (.fcvti, .long f)
  | .icvtf f => some (.icvtf, .long f)
  | .fsgn f => some (.fsgn, .long f)
  | .fscl f => some (.fscl, .long f)
  | .pack8 f => some (.pack8, .long f)
  | .unpk8 f => some (.unpk8, .long f)
  | .lqd f => some (.lqd, .long f)
  | .fdot2 f => some (.fdot2, .long f)
  | .xch f => some (.xch, .short f)
  | .xchLong f => some (.xch, .long f)
  | .xchLongLit f l => some (.xch, .longLit f l)
  | .xidx f => some (.xidx, .short f)
  | .xidxLit f l => some (.xidx, .lit f l)
  | .xidxLong f => some (.xidx, .long f)
  | .xidxLongLit f l => some (.xidx, .longLit f l)
  | .scan f => some (.scan, .short f)
  | .scanLong f => some (.scan, .long f)
  | .redw f => some (.redw, .short f)
  | .redwLong f => some (.redw, .long f)
  | .redwx f => some (.redwx, .long f)
  | .matchEq f => some (.matchEq, .short f)
  | .matchEqLong f => some (.matchEq, .long f)
  | .vote f => some (.vote, .long f)
  | .bcst f => some (.bcst, .short f)
  | .bcstLong f => some (.bcst, .long f)
  | .bcstLongLit f l => some (.bcst, .longLit f l)
  | .xlane f => some (.xlane, .long f)
  | .xlaneLit f l => some (.xlane, .longLit f l)
  | .ld f => some (.ld, .long f)
  | .st f => some (.st, .long f)
  | .ldc f => some (.ldc, .long f)
  | .pref f => some (.pref, .long f)
  | .atom f => some (.atom, .long f)
  | .red f => some (.red, .long f)
  | .cas f => some (.cas, .long f)
  | .fence f => some (.fence, .long f)
  | .acc f => some (.acc, .long f)
  | .ldb f => some (.ldb, .long f)
  | .rack f => some (.rack, .long f)
  | .bufd f => some (.bufd, .long f)
  | .bufs f => some (.bufs, .long f)
  | .bufsQ f => some (.bufs, .long f)
  | .buff f => some (.buff, .long f)
  | .putn f => some (.putn, .long f)
  | .getn f => some (.getn, .long f)
  | .mapq f => some (.mapq, .long f)
  | .flsh f => some (.flsh, .long f)
  | .balloc f => some (.balloc, .long f)
  | .bfree f => some (.bfree, .long f)
  | .barv f => some (.barv, .long f)
  | .bexp f => some (.bexp, .long f)
  | .bwait f => some (.bwait, .long f)
  | .btest f => some (.btest, .long f)
  | .csign f => some (.csign, .long f)
  | .waitc f => some (.waitc, .long f)
  | .cntr f => some (.cntr, .long f)
  | .cpy f l => some (.cpy, .longLit f l)
  | .gath f l => some (.gath, .longLit f l)
  | .scat f l => some (.scat, .longLit f l)
  | .cpyq f => some (.cpyq, .long f)
  | .wld f => some (.wld, .long f)
  | .wswp f => some (.wswp, .long f)
  | .mma f => some (.mma, .long f)
  | .mms f => some (.mms, .long f)
  | .mmg f => some (.mmg, .long f)
  | .accz f => some (.accz, .long f)
  | .accr f => some (.accr, .long f)
  | .accrSt f => some (.accr, .long f)
  | .accw f => some (.accw, .long f)
  | .accs f => some (.accs, .long f)
  | .mvb f l => some (.mvb, .longLit f l)
  | .accm f => some (.accm, .long f)
  | .rgset f => some (.rgset, .long f)
  | .rrs f => some (.rrs, .long f)
  | .rag f => some (.rag, .long f)
  | .rar f => some (.rar, .long f)
  | .rbc f => some (.rbc, .long f)
  | .rho f => some (.rho, .long f)
  | .rhoRecv f => some (.rho, .long f)
  | .rstat f => some (.rstat, .long f)
  | .rstatGrp f => some (.rstat, .long f)
  | .launch f => some (.launch, .long f)
  | .evnt f => some (.evnt, .long f)
  | .pmc f => some (.pmc, .long f)
  | .atci f => some (.atci, .long f)
  | .ctxs f => some (.ctxs, .long f)
  | .ctxr f => some (.ctxr, .long f)
  | .halt f => some (.halt, .long f)
  | .ppt f => some (.ppt, .long f)
  | .nop => some (.nop, .short { u := false, b := 0, a := 0, d := 0 })
  | _ => none

/-- The constructor of an opcode in the short layout. -/
def Instr.ofShort (o : Opc) (f : Short) : Option Instr :=
  match o with
  | .mov => some (.mov f)
  | .movi => some (.movi f)
  | .movx => some (.movx f)
  | .movxw => some (.movxw f)
  | .add => some (.add f)
  | .sub => some (.sub f)
  | .mul => some (.mul f)
  | .mulh => some (.mulh f)
  | .mulw => some (.mulw f)
  | .mad => some (.mad f)
  | .madw => some (.madw f)
  | .div => some (.div f)
  | .rem => some (.rem f)
  | .min => some (.min f)
  | .max => some (.max f)
  | .abs => some (.abs f)
  | .neg => some (.neg f)
  | .and => some (.and f)
  | .or => some (.or f)
  | .xor => some (.xor f)
  | .andn => some (.andn f)
  | .not => some (.not f)
  | .shl => some (.shl f)
  | .shr => some (.shr f)
  | .sra => some (.sra f)
  | .rotl => some (.rotl f)
  | .popc => some (.popc f)
  | .clz => some (.clz f)
  | .ctz => some (.ctz f)
  | .brev => some (.brev f)
  | .dp4 => some (.dp4 f)
  | .fadd => some (.fadd f)
  | .fsub => some (.fsub f)
  | .fmul => some (.fmul f)
  | .ffma => some (.ffma f)
  | .fmin => some (.fmin f)
  | .fmax => some (.fmax f)
  | .xch => some (.xch f)
  | .xidx => some (.xidx f)
  | .scan => some (.scan f)
  | .redw => some (.redw f)
  | .matchEq => some (.matchEq f)
  | .bcst => some (.bcst f)
  | .nop => if f = { u := false, b := 0, a := 0, d := 0 } then some .nop else none
  | _ => none

/-- The constructor of an opcode in the lit layout. -/
def Instr.ofLit (o : Opc) (f : Short) (l : Dword) : Option Instr :=
  match o with
  | .movi => some (.moviLit f l)
  | .movxw => some (.movxwLit f l)
  | .add => some (.addLit f l)
  | .sub => some (.subLit f l)
  | .mul => some (.mulLit f l)
  | .mulh => some (.mulhLit f l)
  | .mulw => some (.mulwLit f l)
  | .mad => some (.madLit f l)
  | .madw => some (.madwLit f l)
  | .div => some (.divLit f l)
  | .rem => some (.remLit f l)
  | .min => some (.minLit f l)
  | .max => some (.maxLit f l)
  | .and => some (.andLit f l)
  | .or => some (.orLit f l)
  | .xor => some (.xorLit f l)
  | .andn => some (.andnLit f l)
  | .shl => some (.shlLit f l)
  | .shr => some (.shrLit f l)
  | .sra => some (.sraLit f l)
  | .rotl => some (.rotlLit f l)
  | .dp4 => some (.dp4Lit f l)
  | .fadd => some (.faddLit f l)
  | .fsub => some (.fsubLit f l)
  | .fmul => some (.fmulLit f l)
  | .ffma => some (.ffmaLit f l)
  | .fmin => some (.fminLit f l)
  | .fmax => some (.fmaxLit f l)
  | .xidx => some (.xidxLit f l)
  | _ => none

/-- The constructor of an opcode in the long layout. -/
def Instr.ofLong (o : Opc) (f : Long) : Option Instr :=
  match o with
  | .nop => some (.nopLong f)
  | .bra => some (.braLong f)
  | .brx => some (.brx f)
  | .call => some (.callLong f)
  | .callx => some (.callx f)
  | .ret => some (.ret f)
  | .exit => some (.exit f)
  | .trap => some (.trap f)
  | .bkpt => some (.bkpt f)
  | .idem => if f.m.getLsbD 0 then some (.idemClose f) else some (.idemOpen f)
  | .yield => some (.yield f)
  | .sleep => some (.sleep f)
  | .join => some (.join f)
  | .leave => some (.leave f)
  | .waitm => some (.waitm f)
  | .mset => some (.mset f)
  | .mget => some (.mget f)
  | .sysc => some (.sysc f)
  | .rtt => some (.rtt f)
  | .mov => some (.movLong f)
  | .movi => some (.moviLong f)
  | .movx => some (.movxLong f)
  | .movxw => some (.movxwLong f)
  | .sel => some (.sel f)
  | .movs => some (.movs f)
  | .sets => some (.sets f)
  | .fetest => some (.fetest f)
  | .feset => some (.feset f)
  | .plop => some (.plop f)
  | .slotr => some (.slotr f)
  | .slotw => some (.slotw f)
  | .add => some (.addLong f)
  | .sub => some (.subLong f)
  | .addc => some (.addc f)
  | .subc => some (.subc f)
  | .mul => some (.mulLong f)
  | .mulh => some (.mulhLong f)
  | .mulw => some (.mulwLong f)
  | .mad => some (.madLong f)
  | .madw => some (.madwLong f)
  | .div => some (.divLong f)
  | .rem => some (.remLong f)
  | .min => some (.minLong f)
  | .max => some (.maxLong f)
  | .abs => some (.absLong f)
  | .neg => some (.negLong f)
  | .lea => some (.lea f)
  | .and => some (.andLong f)
  | .or => some (.orLong f)
  | .xor => some (.xorLong f)
  | .andn => some (.andnLong f)
  | .not => some (.notLong f)
  | .shl => some (.shlLong f)
  | .shr => some (.shrLong f)
  | .sra => some (.sraLong f)
  | .rotl => some (.rotlLong f)
  | .popc => some (.popcLong f)
  | .clz => some (.clzLong f)
  | .ctz => some (.ctzLong f)
  | .brev => some (.brevLong f)
  | .bfx => some (.bfx f)
  | .bfi => some (.bfi f)
  | .cmp => some (.cmp f)
  | .sext => some (.sext f)
  | .permb => some (.permb f)
  | .dp4 => some (.dp4Long f)
  | .fadd => some (.faddLong f)
  | .fsub => some (.fsubLong f)
  | .fmul => some (.fmulLong f)
  | .ffma => some (.ffmaLong f)
  | .fmin => some (.fminLong f)
  | .fmax => some (.fmaxLong f)
  | .fabs => some (.fabs f)
  | .fneg => some (.fneg f)
  | .fcmp => some (.fcmp f)
  | .fclass => some (.fclass f)
  | .fdiv => some (.fdiv f)
  | .fsqrt => some (.fsqrt f)
  | .frcp => some (.frcp f)
  | .frsq => some (.frsq f)
  | .fexp2 => some (.fexp2 f)
  | .flog2 => some (.flog2 f)
  | .fsin => some (.fsin f)
  | .fcos => some (.fcos f)
  | .frnd => some (.frnd f)
  | .fcvt => some (.fcvt f)
  | .fcvti => some (.fcvti f)
  | .icvtf => some (.icvtf f)
  | .fsgn => some (.fsgn f)
  | .fscl => some (.fscl f)
  | .pack8 => some (.pack8 f)
  | .unpk8 => some (.unpk8 f)
  | .lqd => some (.lqd f)
  | .fdot2 => some (.fdot2 f)
  | .xch => some (.xchLong f)
  | .xidx => some (.xidxLong f)
  | .scan => some (.scanLong f)
  | .redw => some (.redwLong f)
  | .redwx => some (.redwx f)
  | .matchEq => some (.matchEqLong f)
  | .vote => some (.vote f)
  | .bcst => some (.bcstLong f)
  | .xlane => some (.xlane f)
  | .ld => some (.ld f)
  | .st => some (.st f)
  | .ldc => some (.ldc f)
  | .pref => some (.pref f)
  | .atom => some (.atom f)
  | .red => some (.red f)
  | .cas => some (.cas f)
  | .fence => some (.fence f)
  | .acc => some (.acc f)
  | .ldb => some (.ldb f)
  | .rack => some (.rack f)
  | .bufd => some (.bufd f)
  | .bufs => if f.m.getLsbD 0 then some (.bufsQ f) else some (.bufs f)
  | .buff => some (.buff f)
  | .putn => some (.putn f)
  | .getn => some (.getn f)
  | .mapq => some (.mapq f)
  | .flsh => some (.flsh f)
  | .balloc => some (.balloc f)
  | .bfree => some (.bfree f)
  | .barv => some (.barv f)
  | .bexp => some (.bexp f)
  | .bwait => some (.bwait f)
  | .btest => some (.btest f)
  | .csign => some (.csign f)
  | .waitc => some (.waitc f)
  | .cntr => some (.cntr f)
  | .cpyq => some (.cpyq f)
  | .wld => some (.wld f)
  | .wswp => some (.wswp f)
  | .mma => some (.mma f)
  | .mms => some (.mms f)
  | .mmg => some (.mmg f)
  | .accz => some (.accz f)
  | .accr => if f.m.getLsbD 0 then some (.accrSt f) else some (.accr f)
  | .accw => some (.accw f)
  | .accs => some (.accs f)
  | .accm => some (.accm f)
  | .rgset => some (.rgset f)
  | .rrs => some (.rrs f)
  | .rag => some (.rag f)
  | .rar => some (.rar f)
  | .rbc => some (.rbc f)
  | .rho => if f.imm.getLsbD 7 then some (.rhoRecv f) else some (.rho f)
  | .rstat => if f.m.getLsbD 0 then some (.rstatGrp f) else some (.rstat f)
  | .launch => some (.launch f)
  | .evnt => some (.evnt f)
  | .pmc => some (.pmc f)
  | .atci => some (.atci f)
  | .ctxs => some (.ctxs f)
  | .ctxr => some (.ctxr f)
  | .halt => some (.halt f)
  | .ppt => some (.ppt f)
  | _ => none

/-- The constructor of an opcode in the longLit layout. -/
def Instr.ofLongLit (o : Opc) (f : Long) (l : Dword) : Option Instr :=
  match o with
  | .movi => some (.moviLongLit f l)
  | .xch => some (.xchLongLit f l)
  | .xidx => some (.xidxLongLit f l)
  | .bcst => some (.bcstLongLit f l)
  | .xlane => some (.xlaneLit f l)
  | .cpy => some (.cpy f l)
  | .gath => some (.gath f l)
  | .scat => some (.scat f l)
  | .mvb => some (.mvb f l)
  | _ => none

/-- The instruction of an opcode and a layout, where the opcode has one in that layout. -/
def Instr.ofParts (o : Opc) : Body → Option Instr
  | .short f => Instr.ofShort o f
  | .branch g off => if o = .bra then some (.bra g off) else if o = .call then some (.call g off) else none
  | .lit f l => Instr.ofLit o f l
  | .long f => Instr.ofLong o f
  | .longLit f l => Instr.ofLongLit o f l

/-- The two rows that share an opcode and a layout differ in one modifier bit. -/
def Instr.rowOk : Instr → Bool
  | .idemOpen f => !f.m.getLsbD 0
  | .idemClose f => f.m.getLsbD 0
  | .bufs f => !f.m.getLsbD 0
  | .bufsQ f => f.m.getLsbD 0
  | .accr f => !f.m.getLsbD 0
  | .accrSt f => f.m.getLsbD 0
  | .rho f => !f.imm.getLsbD 7
  | .rhoRecv f => f.imm.getLsbD 7
  | .rstat f => !f.m.getLsbD 0
  | .rstatGrp f => f.m.getLsbD 0
  | _ => true

/-- A well-formed instruction is a legal encoding (R47 steps 2, 3 and 6). An event has no encoding. -/
def Instr.wf (i : Instr) : Bool :=
  match i.parts with
  | some (o, b) => b.ok o && i.rowOk
  | none => true

/-- The normalised fields of an instruction; none for an event. -/
def Instr.ins? (i : Instr) : Option Ins := i.parts.map fun p => Ins.ofBody p.1 p.2

end Sys2Proof
end

