-- ==== Sys2Proof/Decode.lean ====
section
/-! DEFINITION. The decoder (spec/02 R22 to R31, Table 2-13) and, after it, the encoder, both from the layouts of
Tables 2-1 to 2-5. The decoder is total on any bytes and rejects by name. The checks of Table 2-13 that need the
machine (translation of the fetch, privilege, registers and tiles of the cohort) are made where an instruction is
fetched (Machine/Fetch.lean). -/

namespace Sys2Proof

/-- Why bytes are no instruction: the bytes end too early, step 2 (OP undefined), step 3 (LEN illegal for OP),
step 6 (a field check) of Table 2-13. -/
inductive DecodeError where
  | truncated | undefinedOpcode | illegalLength | illegalField
  deriving DecidableEq, Repr

/-- The four bytes of a word in ascending address order (R4, R23). -/
def wordBytes (w : Word) : List Byte :=
  [w.extractLsb' 0 8, w.extractLsb' 8 8, w.extractLsb' 16 8, w.extractLsb' 24 8]

/-- The word of four bytes in ascending address order (R4, R23). -/
def bytesWord (b0 b1 b2 b3 : Byte) : Word := b3 ++ b2 ++ b1 ++ b0

/-- The words that a list of bytes holds; bytes beyond the last whole word are left. -/
def toWords : List Byte → List Word
  | b0 :: b1 :: b2 :: b3 :: r => bytesWord b0 b1 b2 b3 :: toWords r
  | _ => []

/-- The bytes of an instruction with length field LEN (R22, Table 2-1). -/
def lenBytes (len : BitVec 2) : Nat :=
  if len = 0 then 4 else if len = 3 then 20 else 12

/-- LEN is legal for the opcode (Table 2-13 step 3). -/
def Opc.lenOk (o : Opc) (len : BitVec 2) : Bool :=
  if len = 0 then o.shortOk
  else if len = 1 then !o.lit2Only
  else if len = 2 then o.litOk
  else o.lit2Ok

/-- Steps 2 and 3 of Table 2-13 on word 0: the opcode and the length field. -/
def decodeHead (w0 : Word) : Except DecodeError (Opc × BitVec 2) :=
  match Opc.ofCode (w0.extractLsb' 2 8).toNat with
  | none => .error .undefinedOpcode
  | some o =>
    let len := w0.extractLsb' 0 2
    if o.lenOk len then .ok (o, len) else .error .illegalLength

/-- The fields of a short-form word 0 (Table 2-2). -/
def shortOfWord (w0 : Word) : Short :=
  { u := w0.getLsbD 31, b := w0.extractLsb' 24 7, a := w0.extractLsb' 17 7, d := w0.extractLsb' 10 7 }

/-- The fields of long-form words 0, 1 and 2 (Tables 2-4 and 2-5). -/
def longOfWords (w0 w1 w2 : Word) : Long :=
  { u := w0.getLsbD 30, g := w0.extractLsb' 26 4, a := w0.extractLsb' 18 8, d := w0.extractLsb' 10 8,
    m := w1.extractLsb' 24 8, t := w1.extractLsb' 20 4, fe := w1.extractLsb' 16 3,
    c := w1.extractLsb' 8 8, b := w1.extractLsb' 0 8, imm := w2 }

/-- The reserved bits of a long form are zero (R29, R30). -/
def longReservedOk (w0 w1 : Word) : Bool := !w0.getLsbD 31 && !w1.getLsbD 19

/-- The layout of the words of an instruction whose opcode and LEN are known; none where a reserved bit is set
or words are missing. -/
def bodyOfWords (o : Opc) (len : BitVec 2) (ws : List Word) : Option Body :=
  match ws with
  | w0 :: r =>
    if len = 0 then
      if o = .bra || o = .call then some (.branch (w0.extractLsb' 10 4) (w0.extractLsb' 14 18))
      else some (.short (shortOfWord w0))
    else
      match r with
      | w1 :: w2 :: r' =>
        if len = 2 then some (.lit (shortOfWord w0) (w2 ++ w1))
        else if longReservedOk w0 w1 then
          if len = 1 then some (.long (longOfWords w0 w1 w2))
          else
            match r' with
            | w3 :: w4 :: _ => some (.longLit (longOfWords w0 w1 w2) (w4 ++ w3))
            | _ => none
        else none
      | _ => none
  | [] => none

/-- Step 6 of Table 2-13 on the words of an instruction, and the constructor they stand for. -/
def decodeBody (o : Opc) (len : BitVec 2) (ws : List Word) : Except DecodeError Instr :=
  match bodyOfWords o len ws with
  | none => .error .illegalField
  | some b =>
    if b.ok o then
      match Instr.ofParts o b with
      | some i => .ok i
      | none => .error .illegalField
    else .error .illegalField

/-- The instruction at the head of a list of bytes, with the bytes after it. -/
def decode (bs : List Byte) : Except DecodeError (Instr × List Byte) :=
  match bs with
  | b0 :: b1 :: b2 :: b3 :: _ =>
    match decodeHead (bytesWord b0 b1 b2 b3) with
    | .error e => .error e
    | .ok (o, len) =>
      if bs.length < lenBytes len then .error .truncated
      else
        match decodeBody o len (toWords (bs.take (lenBytes len))) with
        | .error e => .error e
        | .ok i => .ok (i, bs.drop (lenBytes len))
  | _ => .error .truncated

/-- `n` bytes of a natural number, the least significant first. -/
def natBytes : Nat → Nat → List Byte
  | 0, _ => []
  | n + 1, w => BitVec.ofNat 8 w :: natBytes n (w / 256)

/-- The longest instruction, in bytes (Table 2-1). -/
def maxInstrBytes : Nat := 20

/-- The bytes of an instruction whose bits are `w`, as the hardware stores them: every word little-endian at
ascending addresses (R23), the bits above `nbits` zero. -/
def tableBytes (nbits w : Nat) : List Byte := natBytes maxInstrBytes (w % 2 ^ nbits)

/-- The instruction the decoder reads from an instruction whose bits are `w`, bit 0 the least significant of
word 0. -/
def decodeTableWord (nbits w : Nat) : Option Instr :=
  match decode (tableBytes nbits w) with
  | .ok (i, _) => some i
  | .error _ => none

/-! ### The encoder -/

/-- The opcode field of word 0. -/
def Opc.bits (o : Opc) : BitVec 8 := BitVec.ofNat 8 o.code

/-- Word 0 of a short form (Table 2-2). -/
def Short.word (f : Short) (o : Opc) (len : BitVec 2) : Word :=
  BitVec.ofBool f.u ++ f.b ++ f.a ++ f.d ++ o.bits ++ len

/-- Word 0 of a long form (Table 2-4). -/
def Long.word0 (f : Long) (o : Opc) (len : BitVec 2) : Word :=
  0#1 ++ BitVec.ofBool f.u ++ f.g ++ f.a ++ f.d ++ o.bits ++ len

/-- Word 1 of a long form (Table 2-5). -/
def Long.word1 (f : Long) : Word := f.m ++ f.t ++ 0#1 ++ f.fe ++ f.c ++ f.b

/-- The words of a literal, bits 31:0 first (R23). -/
def litWords (l : Dword) : List Word := [l.extractLsb' 0 32, l.extractLsb' 32 32]

/-- The words of a layout of an opcode. -/
def Body.words (o : Opc) : Body → List Word
  | .short f => [f.word o 0]
  | .branch g off => [off ++ g ++ o.bits ++ 0#2]
  | .lit f l => f.word o 2 :: litWords l
  | .long f => [f.word0 o 1, f.word1, f.imm]
  | .longLit f l => [f.word0 o 3, f.word1, f.imm] ++ litWords l

/-- The words of an instruction; an event has none. -/
def encode (i : Instr) : List Word :=
  match i.parts with
  | some (o, b) => b.words o
  | none => []

/-- The bytes of an instruction in ascending address order. -/
def encodeBytes (i : Instr) : List Byte := (encode i).flatMap wordBytes

end Sys2Proof
end

