-- ==== Sys2Proof/Config.lean ====
section
/-! DEFINITION. What the spec leaves open. Each constant below has no body, so nothing can be proved of its value
(notes/assumptions/5.md). `freeNat` is applied to the counter `State.free`, which every use advances; the approximation
is applied to its operand, because R139 makes it a function of the operand. The layout choices that the spec leaves to
the implementation stand at the end (notes/assumptions/2.md). -/

namespace Sys2Proof.Config

/-- A fresh open value: a delay, an order, a choice of victim. -/
opaque freeNat : Nat → Nat

/-- The f32 pattern that an approximation of R151 delivers for an operand, where it lies inside the bound of Table 7-5.
The first argument is the opcode. -/
opaque approx : Nat → BitVec 32 → BitVec 32

/-- The clks between the loss of a slot's light and its detection (R361), taken within the bound. The arguments are the clk of the
detection, the die and the slot. -/
opaque lightLead : Nat → Nat → Nat → Nat

/-- The stepping and the ordering code of the silicon (Table 20-3 STEP and ORDER). -/
opaque silicon : BitVec 3 × BitVec 2

/-- The offset in the object that a kernel's name stands for as a symbol: R61 gives it out and says of no byte that it is
the one named. The arguments are the offsets of the kernel's descriptor and of its first instruction. -/
opaque kernelName : Nat → Nat → Nat

/-- The lowest bit of the package number in a physical address (notes/assumptions/2.md). -/
def paPkgBit : Nat := 41
/-- The lowest bit of the die number in a physical address (notes/assumptions/2.md). -/
def paDieBit : Nat := 37
/-- The first bit above the physical addresses of a die's memory (notes/assumptions/2.md). -/
def paTopBit : Nat := 46

end Sys2Proof.Config
end

