-- ==== Sys2Proof/Machine/Flags.lean ====
section
/-! DEFINITION. The flag computations: the exception flags of $fstat (Table 7-3), the carry and the borrow of R120 and
the conditions of CMP (R128). -/

namespace Sys2Proof.Machine

/-- $fstat NV: invalid. -/
def flagNV : Word := 1
/-- $fstat DZ: divide-by-zero. -/
def flagDZ : Word := 2
/-- $fstat OF: overflow. -/
def flagOF : Word := 4
/-- $fstat UF: underflow. -/
def flagUF : Word := 8
/-- $fstat NX: inexact. -/
def flagNX : Word := 16

/-- The flags where a condition holds, else none. -/
def flagIf (c : Bool) (f : Word) : Word := if c then f else 0

/-- ADDC (R120): the sum modulo 2^32 and the carry. -/
def addCarry (a b : Word) (cin : Bool) : Word × Bool :=
  let x := a.toNat + b.toNat + cin.toNat
  (BitVec.ofNat 32 x, decide (2 ^ 32 ≤ x))

/-- SUBC (R120): the difference modulo 2^32 and the borrow. -/
def subBorrow (a b : Word) (cin : Bool) : Word × Bool :=
  let y := b.toNat + cin.toNat
  (BitVec.ofNat 32 (a.toNat + 2 ^ 33 - y), decide (a.toNat < y))

/-- The condition codes of CMP (R128) on exact integers. -/
def cmpCond (code : Nat) (a b : Int) : Bool :=
  match code with
  | 0 => decide (a = b)
  | 1 => decide (a ≠ b)
  | 2 => decide (a < b)
  | 3 => decide (a ≤ b)
  | 4 => decide (b < a)
  | 5 => decide (b ≤ a)
  | _ => false

/-- A write to $fstat keeps the five flags; the reserved bits read as zero (Table 7-3). -/
def fstatMask (w : Word) : Word := w &&& 0x1F

end Sys2Proof.Machine
end

