-- ==== Sys2Proof/Machine/Float.lean ====
section
/-! DEFINITION. The number formats of Table 7-1, the one rounding of R134 to R136 and the arithmetic of R143 to R160 on
exact values. A finite value is a sign, a natural number and a power of two; every operation forms its exact result and
rounds once. -/

namespace Sys2Proof.Machine

/-- A number format: exponent bits, fraction bits, and whether its top exponent is ordinary (e4m3, R132). -/
structure Fmt where
  ew : Nat
  fw : Nat
  e4 : Bool := false
  deriving DecidableEq, Repr

/-- f32, binary32. -/
def fmtF32 : Fmt := { ew := 8, fw := 23 }
/-- f16, binary16. -/
def fmtF16 : Fmt := { ew := 5, fw := 10 }
/-- bf16. -/
def fmtBF16 : Fmt := { ew := 8, fw := 7 }
/-- f64, binary64. -/
def fmtF64 : Fmt := { ew := 11, fw := 52 }
/-- e4m3. -/
def fmtE4M3 : Fmt := { ew := 4, fw := 3, e4 := true }
/-- e5m2. -/
def fmtE5M2 : Fmt := { ew := 5, fw := 2 }

namespace Fmt

/-- The width of the format in bits. -/
def w (f : Fmt) : Nat := 1 + f.ew + f.fw
/-- The exponent bias. -/
def bias (f : Fmt) : Nat := 2 ^ (f.ew - 1) - 1
/-- The all-ones exponent field. -/
def emask (f : Fmt) : Nat := 2 ^ f.ew - 1
/-- The exponent of the least subnormal's unit, as an integer power of two. -/
def minExp (f : Fmt) : Int := 1 - (f.bias : Int) - f.fw
/-- The sign bit's pattern. -/
def sign (f : Fmt) (neg : Bool) : Nat := if neg then 2 ^ (f.w - 1) else 0
/-- The infinity, or the NaN of e4m3, which has none (R135). -/
def inf (f : Fmt) (neg : Bool) : Nat := if f.e4 then 0x7F else f.sign neg + f.emask * 2 ^ f.fw
/-- The largest finite value. -/
def maxFin (f : Fmt) (neg : Bool) : Nat :=
  f.sign neg + (if f.e4 then 0x7E else f.emask * 2 ^ f.fw - 1)
/-- The canonical NaN (R133, Table 7-1). -/
def nan (f : Fmt) : Nat :=
  if f.e4 then 0x7F else if f.fw = 2 then 0x7E else f.emask * 2 ^ f.fw + 2 ^ (f.fw - 1)

end Fmt

/-- A decoded value: a NaN (signalling or not), an infinity, or `m * 2 ^ e` with a sign. -/
inductive FVal where
  | nan (sig : Bool)
  | inf (neg : Bool)
  | fin (neg : Bool) (m : Nat) (e : Int)
  deriving DecidableEq, Repr

namespace FVal

/-- The value is a NaN. -/
def isNan : FVal → Bool
  | .nan _ => true
  | _ => false
/-- The value is a signalling NaN (R133). -/
def isSig : FVal → Bool
  | .nan g => g
  | _ => false
/-- The value is an infinity. -/
def isInf : FVal → Bool
  | .inf _ => true
  | _ => false
/-- The value is a zero. -/
def isZero : FVal → Bool
  | .fin _ 0 _ => true
  | _ => false
/-- The sign of a value that is no NaN. -/
def neg : FVal → Bool
  | .inf n => n
  | .fin n _ _ => n
  | .nan _ => false
/-- The value with its sign reversed. -/
def flip : FVal → FVal
  | .inf n => .inf !n
  | .fin n m e => .fin (!n) m e
  | x => x

end FVal

/-- The value of an encoding (R132). -/
def fdec (f : Fmt) (b : Nat) : FVal :=
  let neg := b.testBit (f.w - 1)
  let e := (b / 2 ^ f.fw) % 2 ^ f.ew
  let fr := b % 2 ^ f.fw
  if f.e4 then
    if e = 15 ∧ fr = 7 then .nan false
    else if e = 0 then .fin neg fr f.minExp
    else .fin neg (2 ^ f.fw + fr) (f.minExp + e - 1)
  else if e = f.emask then
    if fr = 0 then .inf neg else .nan (f.fw ≠ 2 && !fr.testBit (f.fw - 1))
  else if e = 0 then .fin neg fr f.minExp
  else .fin neg (2 ^ f.fw + fr) (f.minExp + e - 1)

/-- A subnormal operand under .ftz becomes a zero of its sign (R136). -/
def fflush (f : Fmt) (ftz : Bool) (v : FVal) : FVal :=
  match v with
  | .fin n m e => if ftz && decide (m < 2 ^ f.fw) && decide (e = f.minExp) then .fin n 0 e else v
  | _ => v

/-- Whether the discarded part `rem` of a unit `2 ^ sh` rounds the magnitude up (R134). `odd` is the parity of the kept
part, `sticky` says that the exact value lies strictly above the given bits. -/
def roundUp (mode : Nat) (neg odd : Bool) (rem sh : Nat) (sticky : Bool) : Bool :=
  let inexact := rem ≠ 0 || sticky
  let half := 2 ^ sh / 2
  let above := decide (half < rem) || (decide (rem = half) && sticky && sh ≠ 0)
  let tie := decide (rem = half) && !sticky && sh ≠ 0
  match mode with
  | 0 => above || (tie && odd)
  | 1 => false
  | 2 => neg && inexact
  | 3 => !neg && inexact
  | _ => above || tie

/-- `m * 2 ^ e` as a whole number of units `2 ^ q`, rounded, with whether it was inexact. -/
def roundAt (mode : Nat) (neg : Bool) (m : Nat) (e q : Int) (sticky : Bool) : Nat × Bool :=
  if q ≤ e then (m * 2 ^ (e - q).toNat + (roundUp mode neg (m % 2 = 1) 0 0 sticky).toNat, sticky)
  else
    let sh := (q - e).toNat
    let t := m / 2 ^ sh
    let rem := m % 2 ^ sh
    (t + (roundUp mode neg (t % 2 = 1) rem sh sticky).toNat, rem ≠ 0 || sticky)

/-- The result of an overflow (R135, Table 7-2). -/
def overflowTo (f : Fmt) (mode : Nat) (neg : Bool) : Nat :=
  match mode with
  | 1 => f.maxFin neg
  | 2 => if neg then f.inf neg else f.maxFin neg
  | 3 => if neg then f.maxFin neg else f.inf neg
  | _ => f.inf neg

/-- Round of R134 to R136: the exact magnitude `m * 2 ^ e`, or a value strictly between it and the next unit when
`sticky`, to format `f`, with the flags it raises. -/
def fround (f : Fmt) (mode : Nat) (ftz neg : Bool) (m : Nat) (e : Int) (sticky : Bool := false) : Nat × Word :=
  if m = 0 ∧ !sticky then (f.sign neg, 0)
  else
    let top : Int := Nat.log2 m + e
    let q := top - f.fw
    let (r, ix) := roundAt mode neg m e q sticky
    let (r, q) := if 2 ^ (f.fw + 1) ≤ r then (r / 2, q + 1) else (r, q)
    let emax : Int := (f.emask : Int) - (if f.e4 then 0 else 1) - f.bias
    let ex := q + f.fw
    if emax < ex ∨ (ex = emax ∧ f.e4 ∧ r = 15) then (overflowTo f mode neg, flagOF ||| flagNX)
    else if ex < 1 - (f.bias : Int) then
      if ftz then (f.sign neg, flagUF ||| flagNX)
      else
        let (r, ix) := roundAt mode neg m e f.minExp sticky
        (f.sign neg + r, flagIf ix (flagUF ||| flagNX))
    else (f.sign neg + (ex + f.bias).toNat * 2 ^ f.fw + (r - 2 ^ f.fw), flagIf ix flagNX)

/-- The exact value of a finite number in units of `2 ^ e`, signed. -/
def fixAt (e : Int) : FVal → Int
  | .fin n m k => let v : Int := m * 2 ^ (k - e).toNat; if n then -v else v
  | _ => 0

/-- The exponent of a finite number; zeros do not count. -/
def fexp (d : Int) : FVal → Int
  | .fin _ 0 _ => d
  | .fin _ _ e => e
  | _ => d

/-- The product of two values that are no NaN and not zero times infinity (R137). -/
def fmulVal : FVal → FVal → FVal
  | .fin n m e, .fin n' m' e' => .fin (n != n') (m * m') (e + e')
  | a, b => .inf (a.neg != b.neg)

/-- The exact sum of finite values, with the sign of a zero sum by R137. -/
def fsumFin (mode : Nat) (vs : List FVal) : FVal :=
  let es := vs.map (fexp 4000)
  let e := es.foldl min 4000
  let t := (vs.map (fixAt e)).foldl (· + ·) 0
  if t = 0 then
    let neg := if vs.all FVal.neg then true else if vs.all (fun v => !v.neg) then false else mode = 2
    .fin neg 0 0
  else .fin (decide (t < 0)) t.natAbs e

/-- An operand zero and the other infinite (R143). -/
def zeroInf (a b : FVal) : Bool := (a.isZero && b.isInf) || (a.isInf && b.isZero)

/-- A value that needs no NaN rule, rounded to `f`. -/
def fenc (f : Fmt) (mode : Nat) (ftz : Bool) : FVal → Nat × Word
  | .nan _ => (f.nan, 0)
  | .inf n => (f.inf n, 0)
  | .fin n m e => fround f mode ftz n m e

/-- The sum of products and terms under the rules of R143 and R160. `prods` are added to `terms`. -/
def fdot (f : Fmt) (mode : Nat) (ftz : Bool) (prods : List (FVal × FVal)) (terms : List FVal) : Nat × Word :=
  let ops := prods.flatMap (fun p => [p.1, p.2]) ++ terms
  let nv := flagIf (ops.any FVal.isSig) flagNV
  if prods.any (fun p => zeroInf p.1 p.2) then (f.nan, nv ||| flagNV)
  else
    let numbers := prods.filterMap (fun p => if p.1.isNan || p.2.isNan then none else some (fmulVal p.1 p.2))
      ++ terms.filter (fun v => !v.isNan)
    let infs := numbers.filter FVal.isInf
    let clash := infs.any FVal.neg && infs.any (fun v => !v.neg)
    if ops.any FVal.isNan && (prods.length ≤ 1 || !clash) then (f.nan, nv)
    else if clash then (f.nan, nv ||| flagNV)
    else match infs with
      | v :: _ => (f.inf v.neg, nv)
      | [] =>
        let (r, fl) := fenc f mode ftz (fsumFin mode numbers)
        (r, nv ||| fl)

/-- Two values compared as numbers: less, equal, greater (−0 equals +0). -/
def fcompare (a b : FVal) : Ordering :=
  match a, b with
  | .inf n, .inf n' => if n = n' then .eq else if n then .lt else .gt
  | .inf n, _ => if n then .lt else .gt
  | _, .inf n => if n then .gt else .lt
  | a, b =>
    let e := min (fexp 4000 a) (fexp 4000 b)
    compare (fixAt e a) (fixAt e b)

/-- FADD of two encodings (R143). -/
def faddBits (f : Fmt) (mode : Nat) (ftz : Bool) (a b : Nat) : Nat × Word :=
  fdot f mode ftz [] [fflush f ftz (fdec f a), fflush f ftz (fdec f b)]

/-- FSUB of two encodings (R143). -/
def fsubBits (f : Fmt) (mode : Nat) (ftz : Bool) (a b : Nat) : Nat × Word :=
  fdot f mode ftz [] [fflush f ftz (fdec f a), (fflush f ftz (fdec f b)).flip]

/-- FMUL of two encodings (R143). -/
def fmulBits (f : Fmt) (mode : Nat) (ftz : Bool) (a b : Nat) : Nat × Word :=
  fdot f mode ftz [(fflush f ftz (fdec f a), fflush f ftz (fdec f b))] []

/-- FFMA of three encodings (R143). -/
def ffmaBits (f : Fmt) (mode : Nat) (ftz : Bool) (a b c : Nat) : Nat × Word :=
  fdot f mode ftz [(fflush f ftz (fdec f a), fflush f ftz (fdec f b))] [fflush f ftz (fdec f c)]

/-- The clamp of .sat to [+0, 1.0]; a NaN becomes +0 (R143). -/
def fsat (f : Fmt) (r : Nat) : Nat :=
  let one := f.bias * 2 ^ f.fw
  match fdec f r with
  | .nan _ => 0
  | v => if v.neg || v.isZero then 0 else if fcompare v (fdec f one) = .gt then one else r

/-- FMIN and FMAX (R144). -/
def fminmaxBits (f : Fmt) (isMax ftz : Bool) (a b : Nat) : Nat × Word :=
  let va := fflush f ftz (fdec f a)
  let vb := fflush f ftz (fdec f b)
  let nv := flagIf (va.isSig || vb.isSig) flagNV
  let bits (v : FVal) : Nat := (fenc f 0 false v).1
  let r :=
    if va.isNan && vb.isNan then f.nan
    else if va.isNan then bits vb
    else if vb.isNan then bits va
    else
      let less := match fcompare va vb with
        | .lt => true
        | .gt => false
        | .eq => va.neg && !vb.neg
      if less != isMax then bits va else bits vb
  (r, nv)

/-- FCMP (R145): the predicate and the flags. -/
def fcmpBits (f : Fmt) (cond : Nat) (ftz : Bool) (a b : Nat) : Bool × Word :=
  let va := fflush f ftz (fdec f a)
  let vb := fflush f ftz (fdec f b)
  let un := va.isNan || vb.isNan
  let quiet := cond ≤ 1 || cond ≥ 6
  let nv := flagIf (if quiet then va.isSig || vb.isSig else un) flagNV
  let o := fcompare va vb
  let p := match cond with
    | 0 => !un && o = .eq
    | 1 => un || o ≠ .eq
    | 2 => !un && o = .lt
    | 3 => !un && o ≠ .gt
    | 4 => !un && o = .gt
    | 5 => !un && o ≠ .lt
    | 6 => un
    | _ => !un
  (p, nv)

/-- The class bit of FCLASS (R146). -/
def fclassBits (f : Fmt) (a : Nat) : Nat :=
  match fdec f a with
  | .nan sig => if sig then 256 else 512
  | .inf n => if n then 1 else 128
  | .fin n m e =>
    if m = 0 then (if n then 8 else 16)
    else if m < 2 ^ f.fw ∧ e = f.minExp then (if n then 4 else 32)
    else (if n then 2 else 64)

/-- FSCL (R148): `a * 2 ^ n`. -/
def fsclBits (f : Fmt) (mode : Nat) (ftz : Bool) (a : Nat) (n : Int) : Nat × Word :=
  match fflush f ftz (fdec f a) with
  | .nan sig => (f.nan, flagIf sig flagNV)
  | .inf g => (f.inf g, 0)
  | .fin g m e => fround f mode ftz g m (e + n)

/-- A value rounded to an integral value by a code (R149, R153): sign and magnitude, and whether it was inexact. -/
def fintegral (mode : Nat) (neg : Bool) (m : Nat) (e : Int) : Nat × Bool :=
  roundAt mode neg m e 0 false

/-- FRND (R149). -/
def frndBits (f : Fmt) (mode : Nat) (a : Nat) : Nat × Word :=
  match fdec f a with
  | .nan sig => (f.nan, flagIf sig flagNV)
  | .inf g => (f.inf g, 0)
  | .fin g m e =>
    if 0 ≤ e ∨ m = 0 then (a, 0) else ((fround f 0 false g (fintegral mode g m e).1 0).1, 0)

/-- FDIV (R150). -/
def fdivBits (f : Fmt) (mode : Nat) (ftz : Bool) (a b : Nat) : Nat × Word :=
  let va := fflush f ftz (fdec f a)
  let vb := fflush f ftz (fdec f b)
  let nv := flagIf (va.isSig || vb.isSig) flagNV
  let g := va.neg != vb.neg
  if va.isNan || vb.isNan then (f.nan, nv)
  else match va, vb with
    | .inf _, .inf _ => (f.nan, flagNV)
    | .inf _, _ => (f.inf g, 0)
    | _, .inf _ => (f.sign g, 0)
    | .fin _ m e, .fin _ m' e' =>
      if m' = 0 then (if m = 0 then (f.nan, flagNV) else (f.inf g, flagDZ))
      else if m = 0 then (f.sign g, 0)
      else
        let k := 2 * f.fw + 8
        let n := m * 2 ^ k
        fround f mode ftz g (n / m') (e - e' - k) (n % m' ≠ 0)
    | _, _ => (f.nan, nv)

/-- The greatest natural number whose square is at most `n`, built from bit `k - 1` down. -/
def isqrt (n : Nat) : Nat → Nat → Nat
  | 0, r => r
  | k + 1, r =>
    let t := r + 2 ^ k
    isqrt n k (if t * t ≤ n then t else r)

/-- FSQRT (R150). -/
def fsqrtBits (f : Fmt) (mode : Nat) (ftz : Bool) (a : Nat) : Nat × Word :=
  match fflush f ftz (fdec f a) with
  | .nan sig => (f.nan, flagIf sig flagNV)
  | .inf g => if g then (f.nan, flagNV) else (f.inf false, 0)
  | .fin g m e =>
    if m = 0 then (f.sign g, 0)
    else if g then (f.nan, flagNV)
    else
      let k := 2 * f.fw + 8 + (if e % 2 = 0 then 0 else 1)
      let n := m * 2 ^ k
      let r := isqrt n (f.fw * 2 + 8) 0
      fround f mode ftz false r ((e - k) / 2) (r * r ≠ n)

/-- FCVT of one element (R152). -/
def fcvtBits (src dst : Fmt) (mode : Nat) (ftz : Bool) (a : Nat) : Nat × Word :=
  match fflush src ftz (fdec src a) with
  | .nan sig => (dst.nan, flagIf sig flagNV)
  | .inf g => (dst.inf g, 0)
  | .fin g m e => fround dst mode ftz g m e

/-- An f32 pattern widened exactly to f64, infinities and NaNs with their sign and fraction (R140). -/
def widen32 (a : Nat) : Nat :=
  if a / 2 ^ 23 % 256 = 255 then a / 2 ^ 31 % 2 * 2 ^ 63 + 0x7FF * 2 ^ 52 + a % 2 ^ 23 * 2 ^ 29
  else (fcvtBits fmtF32 fmtF64 0 false a).1

/-- The f32 pattern that widens to an f64 pattern, where there is one. -/
def narrow64 (v : Nat) : Option Nat :=
  let r := if v / 2 ^ 52 % 2048 = 2047 then v / 2 ^ 63 % 2 * 2 ^ 31 + 0xFF * 2 ^ 23 + v % 2 ^ 52 / 2 ^ 29
    else (fcvtBits fmtF64 fmtF32 0 false v).1
  if widen32 r = v then some r else none

/-- FCVTI (R153): the integer, clamped to [lo, hi], and the flags. -/
def fcvtiBits (src : Fmt) (mode : Nat) (lo hi : Int) (a : Nat) : Int × Word :=
  match fdec src a with
  | .nan _ => (0, flagNV)
  | .inf g => (if g then lo else hi, flagNV)
  | .fin g m e =>
    let (n, ix) := fintegral mode g m e
    let y : Int := if g then -(n : Int) else n
    if y < lo then (lo, flagNV) else if hi < y then (hi, flagNV) else (y, flagIf ix flagNX)

/-- ICVTF (R154). -/
def icvtfBits (dst : Fmt) (mode : Nat) (v : Int) : Nat × Word :=
  fround dst mode false (decide (v < 0)) v.natAbs 0

/-- Cvt8 of R156 and R157. -/
def cvt8 (src dst : Fmt) (mode : Nat) (sat : Bool) (a : Nat) : Nat × Word :=
  match fdec src a with
  | .nan sig => (dst.nan, flagIf sig flagNV)
  | .inf g => if sat then (dst.maxFin g, flagOF ||| flagNX) else if dst.e4 then (dst.nan, flagNV) else (dst.inf g, 0)
  | .fin g m e =>
    let (r, fl) := fround dst mode false g m e
    if sat && (fl &&& flagOF) ≠ 0 then (dst.maxFin g, fl) else (r, fl)

/-- FDOT2 (R160). -/
def fdot2Bits (f : Fmt) (mode : Nat) (ftz : Bool) (a0 a1 b0 b1 c : Nat) : Nat × Word :=
  let d (v : Nat) : FVal := fflush f ftz (fdec f v)
  fdot fmtF32 mode ftz [(d a0, d b0), (d a1, d b1)] [fflush fmtF32 ftz (fdec fmtF32 c)]

/-! ### Approximations (R151, Table 7-5)

The exact value is formed to 160 fraction bits; the value delivered is the open pattern of Config where it lies inside
the bound of Table 7-5, and the nearest f32 value otherwise. -/

/-- Fraction bits of the reference values. -/
def apxBits : Nat := 160

/-- 2 ^ 160. -/
def apxOne : Nat := 2 ^ 160

/-- The exact value of an f32 pattern in units of 2^−160, for patterns that are finite and above 2^−160. -/
def apxFix (r : Word) : Option Int :=
  match fdec fmtF32 r.toNat with
  | .fin n m e => some (fixAt (-160) (.fin n m e))
  | _ => none

/-- The unit in the last place of f32 at magnitude `v` (units of 2^−160). -/
def apxUlp (v : Int) : Int :=
  let k := Nat.log2 v.natAbs
  2 ^ max (k - 23) 11

/-- The nearest f32 pattern of a reference value, with flags. -/
def apxRound (ftz : Bool) (v : Int) : Nat × Word :=
  fround fmtF32 0 ftz (decide (v < 0)) v.natAbs (-160)

/-- The delivered value of an approximation whose reference is `v` (units of 2^−160): the open pattern where `ok` holds
of its value, else the nearest f32 value of the reference. Every such result is inexact, and a tiny one raises underflow (R151). -/
def apxDeliver (op : Nat) (x : Word) (ftz : Bool) (v : Int) (ok : Word → Int → Bool) : Nat × Word :=
  let y := Config.approx op x
  let tiny := v ≠ 0 && decide (v.natAbs < 2 ^ 34)
  let near := apxRound ftz v
  let fl := near.2 ||| flagNX ||| flagIf tiny flagUF
  match apxFix y with
  | some w => if ok y w && !(ftz && tiny) then (y.toNat, flagNX ||| flagIf tiny flagUF) else (near.1, fl)
  | none => (near.1, fl)

/-- The delivered value of an approximation within `bound` of the reference `v`, of its sign unless `cross` (the bound
is absolute). -/
def apxPick (op : Nat) (x : Word) (ftz : Bool) (v bound : Int) (cross : Bool := false) : Nat × Word :=
  apxDeliver op x ftz v fun y w => decide ((w - v).natAbs ≤ bound.natAbs) && (cross || y.msb == decide (v < 0))

/-- 2 ^ x − style series: `acc + term + …` for the exponential of `y` (units of 2^−160), `k` terms. -/
def apxExp (y : Int) : Nat → Int → Int → Int → Int
  | 0, _, _, acc => acc
  | k + 1, i, t, acc =>
    let t' := t * y / (apxOne * i)
    apxExp y k (i + 1) t' (acc + t')

/-- ln 2 in units of 2^−160. -/
def apxLn2 : Int :=
  1013035739299659071135698605846798551586536899366

/-- The sine series from term `t`: alternating powers of `y`. -/
def apxSin (y : Int) : Nat → Int → Int → Int → Int
  | 0, _, _, acc => acc
  | k + 1, i, t, acc =>
    let t' := -(t * y / apxOne * y / (apxOne * (i * (i + 1))))
    apxSin y k (i + 2) t' (acc + t')

/-- 2π held to 68 significant bits, in units of 2^−65 (R151). -/
def apxTwoPi68 : Int := 231808622658467930956

/-- 2π in units of 2^−300. -/
def apxTwoPi : Int :=
  12799074516701066808997804592552191239937198809484765912489140366271425664275751838873863962

/-- An argument reduced by a period `p`, both in units of 2^−300, to units of 2^−160; the sign stays. -/
def apxReduce (x p : Int) : Int :=
  let y : Int := (x.natAbs : Int) % p / 2 ^ 140
  if x < 0 then -y else y

/-- log2 of a mantissa in [1, 2) (units of 2^−160) by repeated squaring, `k` bits. -/
def apxLog2 : Nat → Nat → Nat → Nat
  | 0, _, acc => acc
  | k + 1, m, acc =>
    let sq := m * m / apxOne
    if 2 * apxOne ≤ sq then apxLog2 k (sq / 2) (2 * acc + 1) else apxLog2 k sq (2 * acc)

/-- A power of two: the exponent of a value that is exactly `2 ^ n`. -/
def pow2Exp (m : Nat) (e : Int) : Option Int :=
  if m = 2 ^ Nat.log2 m then some (Nat.log2 m + e) else none

/-- FRCP of an f32 (R151). -/
def frcp32 (ftz : Bool) (x : Word) : Nat × Word :=
  match fflush fmtF32 ftz (fdec fmtF32 x.toNat) with
  | .nan sig => (fmtF32.nan, flagIf sig flagNV)
  | .inf g => (fmtF32.sign g, 0)
  | .fin g m e =>
    if m = 0 then (fmtF32.inf g, flagDZ)
    else
      let n := (pow2Exp m e).getD 1000
      if -127 ≤ n ∧ n ≤ 126 then fround fmtF32 0 ftz g 1 (-n)
      else
        let q := (2 ^ 320 : Nat) / (m * 2 ^ (e + 160).toNat)
        if 2 ^ 288 ≤ q then (fmtF32.inf g, flagOF ||| flagNX)
        else
          let v : Int := if g then -(q : Int) else q
          apxPick 0x5C x ftz v (apxUlp v)

/-- FRSQ of an f32 (R151). -/
def frsq32 (ftz : Bool) (x : Word) : Nat × Word :=
  match fflush fmtF32 ftz (fdec fmtF32 x.toNat) with
  | .nan sig => (fmtF32.nan, flagIf sig flagNV)
  | .inf g => if g then (fmtF32.nan, flagNV) else (0, 0)
  | .fin g m e =>
    if m = 0 then (fmtF32.inf g, flagDZ)
    else if g then (fmtF32.nan, flagNV)
    else match pow2Exp m e with
      | some n => if n % 2 = 0 then fround fmtF32 0 ftz false 1 (-(n / 2)) else
          let v : Int := isqrt (2 ^ 480 / (m * 2 ^ (e + 160).toNat)) 240 0
          apxPick 0x5D x ftz v (2 * apxUlp v)
      | none =>
        let v : Int := isqrt (2 ^ 480 / (m * 2 ^ (e + 160).toNat)) 240 0
        apxPick 0x5D x ftz v (2 * apxUlp v)

/-- FEXP2 of an f32 (R151). -/
def fexp232 (ftz : Bool) (x : Word) : Nat × Word :=
  match fflush fmtF32 ftz (fdec fmtF32 x.toNat) with
  | .nan sig => (fmtF32.nan, flagIf sig flagNV)
  | .inf g => if g then (0, 0) else (fmtF32.inf false, 0)
  | .fin g m e =>
    let v := fixAt (-160) (.fin g m e)
    let n := v / apxOne
    if 128 ≤ n then (fmtF32.inf false, flagOF ||| flagNX)
    else if v < -150 * apxOne then (0, flagUF ||| flagNX)
    else if v % apxOne = 0 ∧ -149 ≤ n then
      if ftz && decide (n < -126) then (0, flagUF ||| flagNX) else fround fmtF32 0 false false 1 n
    else
      let fr := v % apxOne
      let y := fr * apxLn2 / apxOne
      let p := apxExp y 40 1 apxOne apxOne
      let r := if 0 ≤ n then p * 2 ^ n.toNat else p / 2 ^ (-n).toNat
      apxPick 0x5E x ftz r (if r < 2 ^ 34 then 2 ^ 11 else 2 * apxUlp r)

/-- FLOG2 of an f32 (R151). -/
def flog232 (ftz : Bool) (x : Word) : Nat × Word :=
  match fflush fmtF32 ftz (fdec fmtF32 x.toNat) with
  | .nan sig => (fmtF32.nan, flagIf sig flagNV)
  | .inf g => if g then (fmtF32.nan, flagNV) else (fmtF32.inf false, 0)
  | .fin g m e =>
    if m = 0 then (fmtF32.inf true, flagDZ)
    else if g then (fmtF32.nan, flagNV)
    else match pow2Exp m e with
      | some n => fround fmtF32 0 ftz (decide (n < 0)) n.natAbs 0
      | none =>
        let k := Nat.log2 m
        let mant := m * 2 ^ 160 / 2 ^ k
        let fr : Nat := apxLog2 100 mant 0 * 2 ^ 60
        let v : Int := ((k : Int) + e) * (apxOne : Int) + (fr : Int)
        let near := decide ((k : Int) + e = -1) || decide ((k : Int) + e = 0)
        apxPick 0x5F x ftz v (if near then 2 ^ 138 else 2 * apxUlp v) near

/-- sin or cos of a reduced argument, in units of 2^−160. -/
def apxSinCos (cos : Bool) (y : Int) : Int :=
  max (-(apxOne : Int)) (min apxOne (if cos then apxSin y 80 1 apxOne apxOne else apxSin y 80 2 y y))

/-- FSIN (`cos` false) and FCOS of an f32 (R151): the reference reduces with 2π held to 68 bits, and the bound is that about the sine or cosine
of the operand itself. -/
def fsincos32 (cos : Bool) (ftz : Bool) (x : Word) : Nat × Word :=
  match fflush fmtF32 ftz (fdec fmtF32 x.toNat) with
  | .nan sig => (fmtF32.nan, flagIf sig flagNV)
  | .inf _ => (fmtF32.nan, flagNV)
  | .fin g m e =>
    if m = 0 then (if cos then fmtF32.bias * 2 ^ 23 else fmtF32.sign g, 0)
    else
      let a := fixAt (-160) (.fin g m e)
      let s := apxSinCos cos (apxReduce (a * 2 ^ 140) (apxTwoPi68 * 2 ^ 235))
      let t := apxSinCos cos (apxReduce (a * 2 ^ 140) apxTwoPi)
      let op := if cos then 0x61 else 0x60
      let bound : Int := 2 ^ 139 + (if (2 ^ 175 : Int) < a.natAbs then (a.natAbs : Int) / 2 ^ 65 else 0)
      apxDeliver op x ftz s fun _ w => decide ((w - t).natAbs ≤ bound.natAbs) && decide (w.natAbs ≤ apxOne)

/-- An approximation on a packed element: widened to f32, computed, rounded .rn to the element format, where overflow and underflow are
judged (R151). -/
def apxElem (fn : Bool → Word → Nat × Word) (f : Fmt) (ftz : Bool) (a : Nat) : Nat × Word :=
  let wide := fcvtBits f fmtF32 0 ftz a
  let (r, fl) := fn false (BitVec.ofNat 32 wide.1)
  let fl := (wide.2 &&& flagNV) ||| fl
  match fdec fmtF32 r with
  | .nan _ => (f.nan, fl)
  | .inf g => (f.inf g, fl)
  | .fin g m e =>
    if m = 0 then (f.sign g, fl)
    else
      let (r', fl') := fround f 0 ftz g m e
      let tiny := ((fround f 0 true g m e).2 &&& flagUF) ≠ 0
      (r', (fl &&& ~~~ flagUF) ||| fl' ||| flagIf (tiny && decide (fl &&& flagNX ≠ 0)) flagUF)

end Sys2Proof.Machine
end

