-- ==== Sys2Proof/Machine/Event.lean ====
section
/-! DEFINITION. What the events of the opcode table concern. Dies, cores, lanes, warps and threads of the whole
domain are numbered in one sequence each: die = 16 x package + die (R7), core = 128 x die + core,
lane = 32 x core + lane, warp = 512 x core + warp (R17), thread = 32 x warp + slot (R72). A bridge direction is
2 x die + ring (0 ring A, 1 ring B; R8), a link 32 x die + peer package (R353), a line the physical address / 64. -/

namespace Sys2Proof.Machine

/-- What a trap records beside the masks (R386, R387). -/
structure TrapInfo where
  cause : Nat
  slot : Nat
  acc : Nat
  arg : BitVec 16
  xpc : Dword
  xaddr : Dword
  done : Word
  deriving DecidableEq, Repr, Inhabited

/-- A long-latency result on its way to a thread's registers (R95, R400); `mapq` is the class, place and limit that a MAPQ asks about, which a
save issues again (R397). -/
structure Landing where
  thread : Nat
  reg : Nat
  n : Nat
  tag : Nat
  value : BitVec 128
  epoch : BitVec 16
  req : Nat
  mapq : Option (Nat × Nat × Nat) := none
  deriving DecidableEq, Repr, Inhabited

/-- A barrier instruction that names an object on another core (R275). `op`: 0 BARV, 1 BEXP,
2 BEXP.arv, 3 BTEST, 4 BWAIT, 5 BFREE. -/
structure BarrierMsg where
  op : Nat
  thread : Nat
  handle : Word
  arg : Word
  reg : Nat
  tag : Nat
  asid : BitVec 12
  epoch : BitVec 16
  deriving DecidableEq, Repr, Inhabited

/-- The reply of a remote barrier object (R275). `fault` is 0 or a cause code of Table 18-5. -/
structure BarrierRep where
  op : Nat
  thread : Nat
  reg : Nat
  tag : Nat
  value : Word
  fault : Nat
  epoch : BitVec 16
  deriving DecidableEq, Repr, Inhabited

/-- One step of a ring instance (R336): tile `tile` of chunk `chunk` from `src` to `dst` rank.
`kind`: 0 chain step, 1 delivery, 2 relay delivery of RAR; `nan` the lowest rank that gave a NaN, 1024 for none; `inst` names
the instance, `prev` says what an RHO names (R342). -/
structure RingStep where
  id : Nat
  asid : BitVec 12
  group : Nat
  tag : BitVec 16
  inst : Nat
  prev : Bool
  kind : Nat
  chunk : Nat
  tile : Nat
  src : Nat
  dst : Nat
  sender : Nat
  receiver : Nat
  data : List Word
  nan : Nat
  opKind : Nat
  ty : BitVec 4
  op : Nat
  n : Nat
  root : Nat
  p : Nat
  version : BitVec 16
  deriving DecidableEq, Repr, Inhabited

/-- A flit of a link (R356): the header of Table 17-1 and the payload, zeros after its listed bytes. -/
structure Flit where
  seq : BitVec 16 := 0
  ack : BitVec 16 := 0
  vc : BitVec 2 := 3
  kind : BitVec 4 := 0
  gvc : BitVec 2 := 0
  grant : BitVec 8 := 0
  body : List Byte := []
  deriving DecidableEq, Repr, Inhabited

/-- What arrives of a flit's 64 bytes: none for a byte of a beat that the receiver lacks (R357). -/
abbrev Wire := List (Option Byte)

/-- What calibration found (R422): dies that pass, bridges that train, slots that do not lock. -/
structure Calibration where
  dieOk : BitVec 16
  brgOk : BitVec 16
  dark : List (Nat × Nat)
  deriving DecidableEq, Repr, Inhabited

/-- A request to remove cached translations (R384); `since` is one more than the clk of its arrival at the die. -/
structure AtciReq where
  id : Nat
  thread : Nat
  kind : Nat
  size : Nat
  va : Dword
  asid : BitVec 12
  home : Bool
  pa : Nat
  since : Nat
  deriving DecidableEq, Repr, Inhabited

/-- The events of the opcode table with what each concerns. -/
inductive Ev where
  /-- RUN_FORMATION, R81: A lane selects the oldest ready thread, forms a run at its program counter and begins it. -/
  | runFormation (lane : Nat)
  /-- WARP_SWAP, R86: A waiting active warp is replaced by a pending warp with a ready thread. -/
  | warpSwap (lane : Nat)
  /-- PENDING_WARP_PROMOTION, R88: After 255 runs a pending warp's ready thread is promoted into the active set. -/
  | pendingWarpPromotion (lane : Nat)
  /-- WARP_LEAVES_ACTIVE_SET, R86: In the clk after its last thread exits, a warp leaves the active set and the place is refilled. -/
  | warpLeavesActiveSet (warp : Nat)
  /-- SLEEP_EXPIRY, R415: A sleeping thread's n clks run out and it becomes ready. -/
  | sleepExpiry (thread : Nat)
  /-- PRODUCER_LANDING, R95: A long-latency result lands and fills its register if the producer tag still matches. -/
  | producerLanding (l : Landing)
  /-- TRAP_ENTRY, R387: In the clk after a faulting run the warp stops, trap state is written and slots go to the handler. -/
  | trapEntry (warp : Nat) (t : TrapInfo)
  /-- HANDOFF_ENTRY_ARRIVAL, R333: An entry pushed to a hand-off port arrives at the partner warp's receiving port. -/
  | handoffEntryArrival (warp port src : Nat) (v : Word) (we se : BitVec 16) (seq : Nat)
  /-- CELLAR_GROUP_SERVICE, R188: A cellar bank serves one bank word per clk of the arriving groups, merging requests to one word. -/
  | cellarGroupService (die bank req : Nat)
  /-- BUFFER_STATE_CHANGE, R192: A declared buffer's state change takes effect in the clk after its event. -/
  | bufferStateChange (die rec : Nat)
  /-- ATOMIC_UNIT_APPLY, R195: An atomic unit or bank applies an atomic or reduction indivisibly at the home. -/
  | atomicUnitApply (req : Nat)
  /-- L1_SECTOR_EXPIRY, R214: An L1 sector is dropped 4,096 clk after filling. -/
  | l1SectorExpiry (core sector : Nat)
  /-- GENERATION_ADVANCE, R246: A die advances its remote-data cache generation at a launch boundary or FLSH request. -/
  | generationAdvance (die req : Nat)
  /-- RDC_SWEEPER_STEP, R246: The sweeper reads one remote-data cache entry per clk and invalidates stale ones. -/
  | rdcSweeperStep (die : Nat)
  /-- RD, R239: A read request from another die reaches the home agent and moves the line. -/
  | rd (req : Nat)
  /-- OWN, R239: An ownership request for a store reaches the home agent. -/
  | own (req : Nat)
  /-- HRD, R239: A read at home by a thread of the home die reaches the home agent. -/
  | hrd (req : Nat)
  /-- HWR, R239: A home store or any atomic reaches the home agent, which makes its copy the only one. -/
  | hwr (req : Nat)
  /-- EVX, R239: An owner's eviction with its dirty sectors reaches the home agent. -/
  | evx (line die : Nat) (dirty : BitVec 2)
  /-- PROBE, R238: A holder receives a probe, keeps a read-only copy and returns its dirty sectors. -/
  | probe (agent line holder : Nat) (wb : Bool)
  /-- RECALL, R238: A holder receives a recall, drops its copy and returns its dirty sectors. -/
  | recallHolder (agent line holder : Nat)
  /-- INVALIDATION, R238: A holder receives an invalidation and drops its copy. -/
  | invalidation (agent line holder : Nat)
  /-- HOLDER_ANSWER, R240: A holder's answer reaches the home agent, which ends the transaction on the last one. -/
  | holderAnswer (agent line holder : Nat) (dirty : BitVec 2)
  /-- OWNERSHIP_GRANT, R243: A reply granting ownership reaches the requesting die cache and the waiting store is applied. -/
  | ownershipGrant (req : Nat)
  /-- DIE_CACHE_EVICTION, R238: A die cache evicts a copy, silently if shared or by EVX if owned. -/
  | dieCacheEviction (die line : Nat)
  /-- PROXY_EVICTION, R242: A proxy recalls or invalidates its package's holders and evicts a line. -/
  | proxyEviction (pkg line : Nat)
  /-- LINK_WAKE_COMPLETE, R247: A woken bridge direction becomes active and its held messages are sent. -/
  | linkWakeComplete (dir : Nat)
  /-- LINK_WAKE_ERROR, R248: A wake not complete after 20 µs raises an error and retrains the bridge. -/
  | linkWakeError (dir : Nat)
  /-- HEARTBEAT, R249: A die sends a heartbeat on each bridge every 5 µs. -/
  | heartbeat (die : Nat)
  /-- DIE_DEAD, R249: A die with no heartbeat for 50 µs, or two failed bridges, is declared dead. -/
  | dieDead (die : Nat)
  /-- CASK_OPEN_REQUEST, R259: An open request reaches home, adds the holder, re-splits and grants a share. -/
  | caskOpenRequest (line die : Nat)
  /-- CASK_GRANT, R262: A grant reaches the cask store, clearing OPENING and placing the entry's additions. -/
  | caskGrant (line die : Nat) (share : Word)
  /-- DRAIN_ARRIVAL, R258: A drain reaches home and is applied to the line as one indivisible update; `closes` is 0 where
the entry stays open, 1 where it closes, 2 where it closes as the answer to a racking; `leaves` where it was the holder's
last of the region. -/
  | drainArrival (line die region : Nat) (sums : List Word) (closes : Nat) (leaves : Bool)
  /-- RACKING, R257: A holder receives a racking message and drains and closes its entry. -/
  | racking (line die : Nat)
  /-- RESPLIT_SHARE, R260: A holder receives a new share, drains entries above it and acknowledges. -/
  | resplitShare (home rec die : Nat) (share : Word) (ack : Bool)
  /-- RESPLIT_ACK, R260: A re-split acknowledgement reaches home and lowers ACKS. -/
  | resplitAck (home rec : Nat)
  /-- LDB_TRANSACTION, R263: An LDB reaches home, racks holders to the tolerance and reads the word. -/
  | ldbTransaction (req : Nat)
  /-- RACK_TRANSACTION, R265: A RACK reaches home and racks every CASK line of the region. -/
  | rackTransaction (req : Nat)
  /-- REGION_RECORD_WRITE, R253: A supervisor write to a region record sets or clears VALID under its conditions. -/
  | regionRecordWrite (die rec word : Nat) (v : Word)
  /-- BARRIER_MESSAGE, R275: A barrier instruction naming an object on another core arrives and is checked and applied. -/
  | barrierMessage (m : BarrierMsg)
  /-- BARRIER_REPLY, R275: A reply from a remote barrier object reaches the issuing thread. -/
  | barrierReply (r : BarrierRep)
  /-- ROUND_FIRE, R278: A convergence round with its operation bound and all signatures fires and releases signers. -/
  | roundFire (core cv : Nat)
  /-- ENGINE_RETIREMENT, R280: A completed engine operation retires in issue order and its counter falls. -/
  | engineRetirement (warp : Nat) (cls : Nat)
  /-- OPERATION_ENQUEUE, R223: An issued engine operation enters its queue once the issuers' earlier writes are performed. -/
  | operationEnqueue (op : Nat)
  /-- CHUNK_DISPATCH, R287: The copy engine dispatches chunks by deficit round-robin over class queues. -/
  | chunkDispatch (die : Nat)
  /-- CHUNK_COMPLETE, R286: A chunk's last write is performed at scope and it leaves flight. -/
  | chunkComplete (op chunk : Nat)
  /-- DELIVER_AT_HOME, R290: An engine write reaches its home or bank, is judged against buffer state and counted off. -/
  | deliverAtHome (req : Nat)
  /-- WEIGHT_LOAD_COMPLETE, R310: A WLD completes and writes the shadow weight buffer. -/
  | weightLoadComplete (op : Nat)
  /-- WSWP_TAKES_EFFECT, R316: The weight buffers are exchanged once earlier loads and array rows allow. -/
  | wswpTakesEffect (op : Nat)
  /-- ARRAY_OPERATION_START, R309: An array or tile-unit operation starts once tile order allows. -/
  | arrayOperationStart (op : Nat)
  /-- ARRAY_OPERATION_RETIRE, R310: An array operation retires 72 clks after its last row enters. -/
  | arrayOperationRetire (op : Nat)
  /-- TILE_UNIT_COMPLETE, R310: ACCZ or ACCM retires after 16 clks in the tile unit. -/
  | tileUnitComplete (op : Nat)
  /-- ACCS_ADD_ON_STORE, R324: An add-on-store reaches its home and is applied as one indivisible transaction. -/
  | accsAddOnStore (op : Nat)
  /-- PRESS_OPERATION, R327: Press banks compute row results and deliver them to the buffer. -/
  | pressOperation (op : Nat)
  /-- RING_STEP_SEND, R336: A ring engine sends the next tile step of its outstanding instances in rotation. -/
  | ringStepSend (die : Nat)
  /-- RING_STEP_ARRIVAL, R336: A step reaches its rank and is combined, relayed, written or refused. -/
  | ringStepArrival (st : RingStep)
  /-- RING_STEP_ACK, R347: A step acknowledgement reaches the sender, which releases the tile. -/
  | ringStepAck (step : Nat)
  /-- STEP_RESEND_NOTICE, R336: A rank's issue of a tag notifies refused senders, which send again. -/
  | stepResendNotice (step : Nat)
  /-- BRIDGE_FLIT, R11: A flit is granted an outgoing ring direction, alternating passing and injected traffic. -/
  | bridgeFlit (dir msg : Nat)
  /-- BRIDGE_CRC_FAILURE, R345: A bridge flit fails its CRC, is sent again and ERRCNT rises. -/
  | bridgeCrcFailure (die : Nat) (retrained : Bool)
  /-- ERRCNT_WINDOW_EXPIRY, R345: At the end of a window ERRCNT returns to 0. -/
  | errcntWindowExpiry (die : Nat)
  /-- BRIDGE_DECLARED_FAILED, R345: A bridge is declared failed and its dies start wrapping. -/
  | bridgeDeclaredFailed (die : Nat)
  /-- RING_WRAP_COMPLETE, R346: The wrap completes, held flits go by the wrapped route and unacknowledged steps are resent. -/
  | ringWrapComplete (die : Nat)
  /-- DIRECTION_IDLE, R344: A bridge direction with no flit for IDLE_AFTER µs becomes idle. -/
  | directionIdle (dir : Nat)
  /-- DIRECTION_SLEEP, R344: An idle direction becomes asleep after SLEEP_AFTER µs when enabled. -/
  | directionSleep (dir : Nat)
  /-- DATA, R359: A sequenced DATA flit is taken in order or discarded and replay requested. -/
  | data (link : Nat) (w : Wire)
  /-- IDLE, R359: An IDLE flit carrying ACK and GRANT is taken. -/
  | idle (link : Nat) (w : Wire)
  /-- REPLAY, R359: A REPLAY flit makes the sender resend from the named number. -/
  | replay (link : Nat) (w : Wire)
  /-- RESTRIPE, R361: A RESTRIPE flit makes the sender stripe over the remaining slots and resend. -/
  | restripe (link : Nat) (w : Wire)
  /-- DRAIN_REQ, R363: A peer's drain marker is taken during re-plan. -/
  | drainReq (link : Nat) (w : Wire)
  /-- DRAIN_DONE, R363: A peer's drain completion is taken during re-plan. -/
  | drainDone (link : Nat) (w : Wire)
  /-- RELOCK, R363: A RELOCK flit with next SEQ and allowances is taken during re-plan. -/
  | relock (link : Nat) (w : Wire)
  /-- IDLE_FLIT_TIMER, R359: A sender with nothing to send for 100 ns sends IDLE. -/
  | idleFlitTimer (link : Nat)
  /-- REPLAY_REPEAT_TIMER, R359: A receiver may repeat a REPLAY for one number after 1 µs. -/
  | replayRepeatTimer (link : Nat)
  /-- LOSS_OF_LIGHT, R361: A receiver detects loss of light on a slot, marks it dark and sends RESTRIPE. -/
  | lossOfLight (link fibre : Nat)
  /-- LASER_SOURCE_FAILURE, R361: A transmitter detects a failed laser source and restripes its links. -/
  | laserSourceFailure (die quad source : Nat)
  /-- SLOT_LIGHT_REGAINED, R361: A dark slot regains light, trains and rejoins the mapping. -/
  | slotLightRegained (link fibre : Nat)
  /-- LINK_DOWN, R362: A link without active slot or flits for LINK_DEAD µs goes down and its requests fail. -/
  | linkDown (link : Nat)
  /-- LINK_UP, R362: A down link regains a slot, relocks and is up again. -/
  | linkUp (link : Nat)
  /-- REPLAN_GO, R363: A write of 1 to GO judges PLAN and begins the re-plan drain phase. -/
  | replanGo (die : Nat)
  /-- REPLAN_DRAIN_COMPLETE, R363: DRAIN_DONE is exchanged on every link and the dark phase begins. -/
  | replanDrainComplete (die : Nat)
  /-- DRAIN_MAX_EXPIRY, R363: A drain exceeding DRAIN_MAX ends phase 1 at once. -/
  | drainMaxExpiry (die : Nat)
  /-- SELECTORS_LOCKED, R363: The retuned selectors lock and the relock phase begins. -/
  | selectorsLocked (die : Nat)
  /-- REPLAN_RESUME, R364: RELOCK is taken on every link; held traffic is sent or fails and GO clears. -/
  | replanResume (die : Nat)
  /-- REMOTE_ACCESS_FAILURE, R368: An access to an unreachable home fails by the context's remote-failure mode. -/
  | remoteAccessFailure (req : Nat) (cause : Nat)
  /-- PUTN_FLAG_INCREMENT, R373: After every data write is performed, the flag is incremented as a release at .dom. -/
  | putnFlagIncrement (req : Nat)
  /-- PAGE_WALK, R380: A walker reads and checks the page-table entries of an address. -/
  | pageWalk (core : Nat) (va : Dword)
  /-- TRANSLATION_CACHE_LOOKUP, R383: A TLB miss reaches the die's translation cache, which answers or starts a walk. -/
  | translationCacheLookup (core : Nat) (va : Dword)
  /-- PREEMPTION_REQUEST, R396: A pre-emption request reaches a cohort and is served by region restart or a PE trap. -/
  | preemptionRequest (core : Nat)
  /-- PREWAIT_TIMEOUT, R396: With no PPT within PREWAIT µs the PE trap goes to the lowest eligible warp. -/
  | prewaitTimeout (core : Nat)
  /-- SAVE_AREA_WRITE, R397: Once outstanding writes and atomics complete, the cohort's state is written and it leaves the core. -/
  | saveAreaWrite (core : Nat)
  /-- REMOTE_REPLY, R400: A remote reply arrives and is discarded unless it carries the core's current epoch. -/
  | remoteReply (l : Landing)
  /-- LQ_DOOR, R403: A write to LQ_DOOR makes the die's dispatcher read TAIL at once. -/
  | lqDoor (die : Nat)
  /-- TAIL_POLL, R403: At least every 2 µs the serving dispatcher reads TAIL and examines new records. -/
  | tailPoll (die : Nat)
  /-- LAUNCH_APPEND, R412: A LAUNCH request reaches the serving dispatcher, which appends the record or refuses. -/
  | launchAppend (req : Nat)
  /-- COHORT_INDEX_REQUEST, R408: A span die with a free core requests an index from the strip leader. -/
  | cohortIndexRequest (launch strip die : Nat)
  /-- MIRROR_RECORD, R407: The mirror records a pending grant (c, t) and acknowledges. -/
  | mirrorRecord (launch strip c t : Nat)
  /-- MIRROR_ACK, R407: The mirror's acknowledgement reaches the leader, which sends the grant. -/
  | mirrorAck (launch strip c t : Nat)
  /-- COHORT_GRANT, R407: A grant of a cohort index reaches its target die. -/
  | cohortGrant (launch strip c t : Nat)
  /-- POWER_HEADROOM_REPORT, R408: Every 10 µs a die reports its power headroom. -/
  | powerHeadroomReport (die : Nat)
  /-- CLASS3_STARVATION, R409: A class-3 launch with no placement for 100 µs requests pre-emption. -/
  | class3Starvation (launch : Nat)
  /-- COHORT_END, R410: A cohort whose threads all exited is reclaimed and its span may close. -/
  | cohortEnd (core : Nat)
  /-- LAUNCH_COMPLETION, R410: Once every strip closed and engine work completed, STATUS, DONE and DONECNT are written. -/
  | launchCompletion (launch : Nat)
  /-- HOST_MEMORY_WRITE, R417: A host posted write through BAR4 is performed at .sys. -/
  | hostMemoryWrite (pkg off : Nat) (bytes : List Byte)
  /-- HOST_MEMORY_READ, R417: A host read through BAR4 returns after earlier posted writes are performed. -/
  | hostMemoryRead (pkg off n : Nat)
  /-- REGISTER_WRITE, R6: A write to a management register with no row of its own updates its fields by access code. -/
  | registerWrite (pkg : Nat) (priv : Bool) (off size : Nat) (v : Dword)
  /-- POWER_ON, R421: Applied power starts the power phase. -/
  | powerOn (pkg : Nat)
  /-- POWER_PHASE_DONE, R421: Power stages and clocks are up and calibration begins. -/
  | powerPhaseDone (pkg : Nat)
  /-- CALIBRATION_DONE, R422: Calibration ends, marking failed dies, bridges and slots, and initialisation begins or the package fails. -/
  | calibrationDone (pkg : Nat) (c : Calibration)
  /-- INITIALISATION_DONE, R422: Memory is initialised, READY is set, $clk zeroed and start-up records raised. -/
  | initialisationDone (pkg : Nat)
  /-- HOST_CTL_RESET, R423: A write of 1 to RESET ends every context and restarts the package. -/
  | hostCtlReset (pkg : Nat)
  /-- LINK_RESET, R423: A function-level or hot reset of the host link restarts the package. -/
  | linkReset (pkg : Nat)
  /-- EVENT_RECORD_WRITE, R425: An awaiting event record is written to the host ring when there is room and EVQ_TAIL advances. -/
  | eventRecordWrite (die : Nat)
  /-- SCRUB_STEP, R427: The patrol scrubber reads the next line as a transaction and corrects or poisons it. -/
  | scrubStep (die line : Nat)
  /-- ERROR_WINDOW_EXPIRY, R428: At the end of each window every CNT returns to 0. -/
  | errorWindowExpiry (pkg : Nat)
  /-- LINE_DIAG_ADDR, R429: A write of a line address starts a diagnostic read at the home agent. -/
  | lineDiagAddr (die : Nat) (v : Dword)
  /-- LINE_DIAG_COMPLETE, R430: The diagnostic read completes, filling LINE_DIAG_DATA and LINE_DIAG_CHECK and setting DONE. -/
  | lineDiagComplete (die : Nat)
  /-- THERMAL, R431: A die reaching 110 °C raises THERMAL. -/
  | thermal (die : Nat) (temp : Byte)
  /-- THERMAL_POWER_OFF, R431: One millisecond after THERMAL the module removes power. -/
  | thermalPowerOff (pkg : Nat)
  /-- CHUNK_SOURCE_READ_LANDING, R293: The source read of an engine chunk lands at the engine, after which its bytes are delivered, and a copy-out completes when all its chunks' reads have landed. -/
  | chunkSourceReadLanding (op chunk : Nat)
  /-- HOME_AGENT_EVICTION, R237: The home die cache evicts a line it holds as home agent and writes the line with its authoritative metadata word back to HBM4E. -/
  | homeAgentEviction (line : Nat)
  /-- WEIGHT_LOAD_START, R310: A queued WLD starts in the weight loader once the loader is idle and every earlier WSWP has taken effect. -/
  | weightLoadStart (op : Nat)
  /-- ATCI_REMOVAL, R384: An ATCI request reaches a die of its scope, whose TLBs and translation cache remove the named translations and whose home agents bring the named lines to HOME, and the die answers. -/
  | atciRemoval (a : AtciReq) (die : Nat)
  deriving DecidableEq, Repr

/-- The row of the opcode table that an event belongs to. -/
def Ev.instr : Ev → Instr
  | .runFormation _ => .runFormation
  | .warpSwap _ => .warpSwap
  | .pendingWarpPromotion _ => .pendingWarpPromotion
  | .warpLeavesActiveSet _ => .warpLeavesActiveSet
  | .sleepExpiry _ => .sleepExpiry
  | .producerLanding _ => .producerLanding
  | .trapEntry _ _ => .trapEntry
  | .handoffEntryArrival _ _ _ _ _ _ _ => .handoffEntryArrival
  | .cellarGroupService _ _ _ => .cellarGroupService
  | .bufferStateChange _ _ => .bufferStateChange
  | .atomicUnitApply _ => .atomicUnitApply
  | .l1SectorExpiry _ _ => .l1SectorExpiry
  | .generationAdvance _ _ => .generationAdvance
  | .rdcSweeperStep _ => .rdcSweeperStep
  | .rd _ => .rd
  | .own _ => .own
  | .hrd _ => .hrd
  | .hwr _ => .hwr
  | .evx _ _ _ => .evx
  | .probe _ _ _ _ => .probe
  | .recallHolder _ _ _ => .recallHolder
  | .invalidation _ _ _ => .invalidation
  | .holderAnswer _ _ _ _ => .holderAnswer
  | .ownershipGrant _ => .ownershipGrant
  | .dieCacheEviction _ _ => .dieCacheEviction
  | .proxyEviction _ _ => .proxyEviction
  | .linkWakeComplete _ => .linkWakeComplete
  | .linkWakeError _ => .linkWakeError
  | .heartbeat _ => .heartbeat
  | .dieDead _ => .dieDead
  | .caskOpenRequest _ _ => .caskOpenRequest
  | .caskGrant _ _ _ => .caskGrant
  | .drainArrival _ _ _ _ _ _ => .drainArrival
  | .racking _ _ => .racking
  | .resplitShare _ _ _ _ _ => .resplitShare
  | .resplitAck _ _ => .resplitAck
  | .ldbTransaction _ => .ldbTransaction
  | .rackTransaction _ => .rackTransaction
  | .regionRecordWrite _ _ _ _ => .regionRecordWrite
  | .barrierMessage _ => .barrierMessage
  | .barrierReply _ => .barrierReply
  | .roundFire _ _ => .roundFire
  | .engineRetirement _ _ => .engineRetirement
  | .operationEnqueue _ => .operationEnqueue
  | .chunkDispatch _ => .chunkDispatch
  | .chunkComplete _ _ => .chunkComplete
  | .deliverAtHome _ => .deliverAtHome
  | .weightLoadComplete _ => .weightLoadComplete
  | .wswpTakesEffect _ => .wswpTakesEffect
  | .arrayOperationStart _ => .arrayOperationStart
  | .arrayOperationRetire _ => .arrayOperationRetire
  | .tileUnitComplete _ => .tileUnitComplete
  | .accsAddOnStore _ => .accsAddOnStore
  | .pressOperation _ => .pressOperation
  | .ringStepSend _ => .ringStepSend
  | .ringStepArrival _ => .ringStepArrival
  | .ringStepAck _ => .ringStepAck
  | .stepResendNotice _ => .stepResendNotice
  | .bridgeFlit _ _ => .bridgeFlit
  | .bridgeCrcFailure _ _ => .bridgeCrcFailure
  | .errcntWindowExpiry _ => .errcntWindowExpiry
  | .bridgeDeclaredFailed _ => .bridgeDeclaredFailed
  | .ringWrapComplete _ => .ringWrapComplete
  | .directionIdle _ => .directionIdle
  | .directionSleep _ => .directionSleep
  | .data _ _ => .data
  | .idle _ _ => .idle
  | .replay _ _ => .replay
  | .restripe _ _ => .restripe
  | .drainReq _ _ => .drainReq
  | .drainDone _ _ => .drainDone
  | .relock _ _ => .relock
  | .idleFlitTimer _ => .idleFlitTimer
  | .replayRepeatTimer _ => .replayRepeatTimer
  | .lossOfLight _ _ => .lossOfLight
  | .laserSourceFailure _ _ _ => .laserSourceFailure
  | .slotLightRegained _ _ => .slotLightRegained
  | .linkDown _ => .linkDown
  | .linkUp _ => .linkUp
  | .replanGo _ => .replanGo
  | .replanDrainComplete _ => .replanDrainComplete
  | .drainMaxExpiry _ => .drainMaxExpiry
  | .selectorsLocked _ => .selectorsLocked
  | .replanResume _ => .replanResume
  | .remoteAccessFailure _ _ => .remoteAccessFailure
  | .putnFlagIncrement _ => .putnFlagIncrement
  | .pageWalk _ _ => .pageWalk
  | .translationCacheLookup _ _ => .translationCacheLookup
  | .preemptionRequest _ => .preemptionRequest
  | .prewaitTimeout _ => .prewaitTimeout
  | .saveAreaWrite _ => .saveAreaWrite
  | .remoteReply _ => .remoteReply
  | .lqDoor _ => .lqDoor
  | .tailPoll _ => .tailPoll
  | .launchAppend _ => .launchAppend
  | .cohortIndexRequest _ _ _ => .cohortIndexRequest
  | .mirrorRecord _ _ _ _ => .mirrorRecord
  | .mirrorAck _ _ _ _ => .mirrorAck
  | .cohortGrant _ _ _ _ => .cohortGrant
  | .powerHeadroomReport _ => .powerHeadroomReport
  | .class3Starvation _ => .class3Starvation
  | .cohortEnd _ => .cohortEnd
  | .launchCompletion _ => .launchCompletion
  | .hostMemoryWrite _ _ _ => .hostMemoryWrite
  | .hostMemoryRead _ _ _ => .hostMemoryRead
  | .registerWrite _ _ _ _ _ => .registerWrite
  | .powerOn _ => .powerOn
  | .powerPhaseDone _ => .powerPhaseDone
  | .calibrationDone _ _ => .calibrationDone
  | .initialisationDone _ => .initialisationDone
  | .hostCtlReset _ => .hostCtlReset
  | .linkReset _ => .linkReset
  | .eventRecordWrite _ => .eventRecordWrite
  | .scrubStep _ _ => .scrubStep
  | .errorWindowExpiry _ => .errorWindowExpiry
  | .lineDiagAddr _ _ => .lineDiagAddr
  | .lineDiagComplete _ => .lineDiagComplete
  | .thermal _ _ => .thermal
  | .thermalPowerOff _ => .thermalPowerOff
  | .chunkSourceReadLanding _ _ => .chunkSourceReadLanding
  | .homeAgentEviction _ => .homeAgentEviction
  | .weightLoadStart _ => .weightLoadStart
  | .atciRemoval _ _ => .atciRemoval

end Sys2Proof.Machine
end

