-- ==== Sys2Proof/Machine/State.lean ====
section
/-! DEFINITION. The state of the machine: everything the spec gives the device, as plain data. Collections are keyed
lists (KV) in rising order of their keys; a key that is not listed has the value stated beside the field. INVENTORY.md
lists every piece with its rule and its reset value. Times are clks of the main clock counted from reset
(notes/assumptions/1.md). -/

namespace Sys2Proof.Machine

/-! ### Threads and warps -/

/-- A g register: its contents, its full/empty bit, the producer tag of an outstanding long-latency producer (0 none),
the clk from which its last value is readable (R95, Table 4-1), and the values before it with theirs, which other
threads may still see (R112, R183). -/
structure GReg where
  v : Word := 0
  full : Bool := true
  tag : Nat := 0
  rdy : Nat := 0
  past : List (Nat × Word) := []
  deriving DecidableEq, Repr, Inhabited

/-- What a thread waits for (R76). The waits `mask` to `round` end by completing the instruction; those from `slots` to
`order` execute the instruction again when the wait ends, `own` once the thread's earlier accesses to some bytes are performed; after `settle` the thread goes on where it stands, its accesses
performed and clk `till` reached (R166, R167); a thread at `save` leaves the core with its cohort (R397). -/
inductive Hold where
  | none
  | mask (m : Nat)
  | sleep (till : Nat)
  | counters (mask k : Nat)
  | phase (core idx gen : Nat) (ph : Bool)
  | fence (order scope : Nat)
  | reply (id : Nat)
  | round (cv reg : Nat)
  | slots (cls m at_ : Nat)
  | anvilQueue (cls : Nat)
  | tile (tile mark : Nat)
  | tags (group : Nat)
  | evnt
  | queue (port : Nat) (pop : Bool) (at_ : Nat)
  | indexed (reg : Nat)
  | stack
  | own (cls pa size : Nat)
  | order
  | settle (ids : List Nat) (till : Nat)
  | save
  deriving DecidableEq, Repr, Inhabited

/-- One thread (R93, R103). `p` holds p0 to p6 in bits 6:0 and p7 in bit 7. `since` is the first clk in which the thread
may be ready for the instruction at `pc`, `noted` one more than its ready time for that instruction, once it is past
`since` (R76); `acq` lists the acquire reads that have not landed (R220); `due` is the fault that a
remote object's reply has for its instruction, raised when that executes again (R275); `pass` the tile and the mark up to which
operations come before its ACCR or ACCW (R309, R321); `slot` says that it was held for a copy slot and has been given one (R285). -/
structure Thread where
  pc : Dword := 0
  g : KV GReg := []
  p : BitVec 8 := 0x80
  prdy : KV Nat := []
  fstat : Word := 0
  frdy : Nat := 0
  exited : Bool := false
  hold : Hold := .none
  since : Nat := 0
  noted : Nat := 0
  acq : List Nat := []
  due : Nat := 0
  pass : Option (Nat × Nat) := none
  slot : Bool := false
  deriving DecidableEq, Repr, Inhabited

/-- What a warp saved when its handler was entered (R387, R388). -/
structure Handler where
  cause : Nat := 0
  pcs : KV Dword := []
  holds : KV Hold := []
  preds : KV (BitVec 8) := []
  replay : Word := 0
  w : KV Word := []
  deriving DecidableEq, Repr, Inhabited

/-- The hand-off ports of a warp (R102, R333): the entries received on q8 and q10 and the entries of q9 and q11 under
way to the partners. -/
structure HandOff where
  bound : Bool := false
  group : Nat := 0
  rank : Nat := 0
  p : Nat := 0
  next : Nat := 0
  prev : Nat := 0
  q8 : List (Word × Nat) := []
  q10 : List (Word × Nat) := []
  sent9 : Nat := 0
  sent11 : Nat := 0
  deriving DecidableEq, Repr, Inhabited

/-- The per-warp state. `w`, `m`, `xm` default to 0; `rankOf` is the group whose binding wrote $rank; `cnt` and `ops` are keyed by engine class 0 to 5 (Table 13-4); `cpyWord` is
the engine-failure word that a CPYQ.st in execution has read (R298). -/
structure Warp where
  w : KV Word := []
  wrdy : KV Nat := []
  wpast : KV (List (Nat × Word)) := []
  m : KV Word := []
  rank : Word := 0xFFFFFFFF
  rankOf : Option Nat := none
  cnt : KV Nat := []
  ops : KV (List Nat) := []
  engFail : Word := 0
  cpyWord : Word := 0
  anvil : Word := 0
  hand : HandOff := {}
  xcause : Word := 0
  xpc : Dword := 0
  xaddr : Dword := 0
  xdone : Word := 0
  xm : KV Word := []
  handler : Option Handler := none
  gone : Bool := false
  deriving DecidableEq, Repr, Inhabited

/-! ### Lanes and cores -/

/-- The run that a lane is executing (R73, R74): the threads still to execute in run order, the clk of the next one, the
clk in which the run began, the threads that have performed in it, and the wait of a thread that was
dropped at a queue port (R77), and the copy slots kept for the threads of its sub-run that have yet to issue (R285). `warp` is the warp of the current sub-run, `done` its slots that performed, `ends` the warps before it
with theirs, where their end is that of the run; `wait` holds the lane for a translation
or an entry (R194) since clk `since` - 1, `walk` gives the fault code that a walk returned for an address. -/
structure Run where
  pc : Dword := 0
  threads : List Nat := []
  clk : Nat := 0
  begun : Nat := 0
  count : Nat := 0
  done : Word := 0
  ends : List (Nat × Word) := []
  ports : List Hold := []
  pops : List Nat := []
  slots : Nat := 0
  wait : Bool := false
  since : Nat := 0
  walk : Option (Dword × Nat) := none
  warp : Nat := 0
  deriving DecidableEq, Repr, Inhabited

/-- A lane (R74, R85, R88). `ended` is the clk after the occupancy of its last run; `active` lists the lane warp indices of the active set; `last` the run number in which an
active warp last began a run; `waited` the run number since which a pending warp has had a ready thread. -/
structure Lane where
  freeAt : Nat := 0
  ended : Nat := 0
  run : Option Run := none
  begun : Nat := 0
  active : List Nat := []
  last : KV Nat := []
  waited : KV Nat := []
  deriving DecidableEq, Repr, Inhabited

/-- A context as its descriptor gives it (Table 18-1). -/
structure CtxDesc where
  asid : Nat := 0
  remK : Bool := false
  region : Bool := false
  prewait : Nat := 0
  root : Nat := 0
  handler : Dword := 0
  hdata : Dword := 0
  deriving DecidableEq, Repr, Inhabited

/-- The cohort on a core (R17, R408, R409). -/
structure Cohort where
  launch : Nat := 0
  index : Nat := 0
  ncohort : Nat := 0
  span : Nat := 0
  nspan : Nat := 0
  strip : Nat := 0
  warps : Nat := 1
  r : Nat := 8
  tiles : Nat := 0
  window : Dword := 0
  entry : Dword := 0
  param : Dword := 0
  prio : Nat := 0
  ctx : CtxDesc := {}
  placed : Nat := 0
  inSpan : Nat := 0
  regionEntry : Option Dword := none
  deriving DecidableEq, Repr, Inhabited

/-- A barrier object (Table 13-1). `dirty` is the clk of the last update not yet tested for completion (R273);
`waiters` are remote BWAITs registered at it (R275). -/
structure Barrier where
  asid : Nat := 0
  gen : Nat := 0
  alloc : Bool := false
  phase : Bool := false
  nb : Bool := false
  posted : Bool := false
  refs : Nat := 0
  expected : Nat := 0
  pendArr : Nat := 0
  ovf : Bool := false
  saved : Bool := false
  pendBytes : Int := 0
  dirty : Option Nat := none
  waiters : List BarrierMsg := []
  deriving DecidableEq, Repr, Inhabited

/-- A convergence register (Table 13-3) with its signers in ticket order and the operation bound to its round. -/
structure Cv where
  bound : Option Nat := none
  size : Nat := 0
  signers : List Nat := []
  deriving DecidableEq, Repr, Inhabited

/-- A weight buffer of the Anvil (Table 15-1): format code, presence of block exponents, the bytes of the tile and of its
scale array; a byte that a failed read left out is `none` (R313), one beyond the list 0. -/
structure Weights where
  fmt : Nat := 0
  bx : Bool := false
  data : List (Option Byte) := []
  scale : List (Option Byte) := []
  deriving DecidableEq, Repr, Inhabited

/-- The weight buffers and tiles that operations of a cohort use: `tileEnd` gives for each tile the clk after the last retirement of an array
operation and of one of the tile unit (R309, R310). -/
structure AnvilSet where
  active : Weights := {}
  shadow : Weights := {}
  tiles : KV (KV Word) := []
  tileEnd : KV (Nat × Nat) := []
  deriving DecidableEq, Repr, Inhabited

/-- A sector held in L1 (R193, R214): its bytes, the clk of its fill, whether LDC brought it in, its last use, and the
generation of a G sector (0 for T). -/
structure L1Sector where
  data : List Byte := []
  fill : Nat := 0
  ldc : Bool := false
  used : Nat := 0
  gen : Nat := 0
  deriving DecidableEq, Repr, Inhabited

/-- A leaf translation (R378 to R380, R383): address space, page base and size in virtual addresses, physical base,
class, permissions and limit index. -/
structure Trans where
  asid : Nat := 0
  vbase : Nat := 0
  size : Nat := 0
  pbase : Nat := 0
  cls : Nat := 0
  r : Bool := false
  w : Bool := false
  x : Bool := false
  limit : Nat := 0
  deriving DecidableEq, Repr, Inhabited

/-- A save under way (R397): the place of the area, the warp that executes CTXS, the threads that perform it, their register. -/
structure Save where
  area : Dword := 0
  warp : Nat := 0
  threads : List Nat := []
  reg : Nat := 0
  size : Nat := 12
  deriving DecidableEq, Repr, Inhabited

/-- A core. Queue entries carry the clk of their push (R100); `qpush` and `qpop` hold one more than the clk of the last
push and pop of a port (R77); `preempt` the clk of a pre-emption request not yet delivered
(R396), `restarting` holds every lane for a region restart (R395) or the end of its context (R368). -/
structure Core where
  cohort : Option Cohort := none
  epoch : BitVec 16 := 0
  q : KV (List (Word × Nat)) := []
  qpush : KV Nat := []
  qpop : KV Nat := []
  remstat : Word := 0
  cv : KV Cv := []
  bar : KV Barrier := []
  active : Weights := {}
  shadow : Weights := {}
  tiles : KV (KV Word) := []
  tileEnd : KV (Nat × Nat) := []
  left : KV AnvilSet := []
  anvilQ : List Nat := []
  loaderFree : Nat := 0
  arrayFree : Nat := 0
  lastRow : Nat := 0
  tileFree : Nat := 0
  l1 : KV L1Sector := []
  icache : KV (List Byte) := []
  tlb : List Trans := []
  misses : List (Nat × Dword) := []
  fe : Nat × List Dword := (0, [])
  preempt : Option Nat := none
  peStop : Bool := false
  saving : Option Save := none
  restarting : Bool := false
  pmc : KV Nat := []
  deriving DecidableEq, Repr, Inhabited

/-! ### Dies -/

/-- A declared buffer (R189, Table 9-3). `state` 0 EMPTY, 1 FILLING, 2 FULL, 3 DRAINING; `from_` is the first clk in which
its declaration is in force. The fields from `added` on collect the events of the clk now running (R192): bytes written, a
copy-in start, copy-out starts and completions, a BUFS, a BUFF. -/
structure Buf where
  state : Nat := 0
  decl : Bool := false
  landed : Nat := 0
  base : Nat := 0
  size : Nat := 0
  expect : Nat := 0
  owner : Nat := 0
  outs : Nat := 0
  serial : Nat := 0
  from_ : Nat := 0
  added : Nat := 0
  copyIn : Bool := false
  outStart : Nat := 0
  outDone : Nat := 0
  setFull : Bool := false
  drop : Bool := false
  deriving DecidableEq, Repr, Inhabited

/-- A span's addressable cellar on a die (R187). -/
structure SpanCellar where
  launch : Nat := 0
  strip : Nat := 0
  span : Nat := 0
  base : Nat := 0
  bytes : Nat := 0
  asid : Nat := 0
  deriving DecidableEq, Repr, Inhabited

/-- A copy of a T line in a die cache (R238): level 0 shared, 1 exclusive, 2 dirty, 3 owned and read-only after a probe;
held and dirty sectors. At a proxy it is the right of its package (R242). -/
structure Copy where
  level : Nat := 0
  held : BitVec 2 := 0
  dirty : BitVec 2 := 0
  deriving DecidableEq, Repr, Inhabited

/-- The transaction that runs on a line at an agent (R240, R242) and the requests waiting behind it. `ev` started it for
the requester `r` (dies 0 to 15, packages 32 + q); `await` lists the dies whose answers are due; `up` is set while a proxy
waits for the home agent; `dirty` gathers dirty sectors; `poison` is the cause that a
line to be poisoned raises, 0 for none (R234, R235),
`inval` whether its invalidations have gone out, `hit` whether the home die cache held the line, `racked` the holders that an LDB or
RACK racks (R263). -/
structure Txn where
  ev : Option Ev := none
  r : Nat := 0
  await : List Nat := []
  queue : List Ev := []
  dirty : BitVec 2 := 0
  up : Bool := false
  poison : Nat := 0
  inval : Bool := false
  hit : Bool := false
  racked : List Nat := []
  since : Nat := 0
  deriving DecidableEq, Repr, Inhabited

/-- A cask entry (R255). `wait` lists the ACC requests whose value awaits the grant. -/
structure Cask where
  sums : List Word := []
  mu : Word := 0
  share : Word := 0
  opening : Bool := true
  last : Nat := 0
  region : Nat := 0
  wait : List Nat := []
  deriving DecidableEq, Repr, Inhabited

/-- A region record (Table 12-1). -/
structure Region where
  limit : Word := 0
  share : Word := 0
  bshare : Word := 0
  dies : BitVec 16 := 0
  pkgs : BitVec 32 := 0
  asid : Nat := 0
  acks : Nat := 0
  valid : Bool := false
  deriving DecidableEq, Repr, Inhabited

/-- A binding slot of the ring engine (R330, R334): the context, the group, the address of the table and what it held at binding. -/
structure RingBind where
  asid : Nat := 0
  group : Nat := 0
  table : Dword := 0
  version : Nat := 0
  ranks : List Nat := []
  deriving DecidableEq, Repr, Inhabited

/-- A collective instance that not all its dies have issued yet (R334): its tag, its dies, those that have issued it, and the code
with which it has failed, 0 for none (R339). -/
structure RingInst where
  id : Nat := 0
  asid : Nat := 0
  group : Nat := 0
  tag : BitVec 16 := 0
  members : List Nat := []
  joined : List Nat := []
  failed : Nat := 0
  deriving DecidableEq, Repr, Inhabited

/-- A collective record (Table 16-5) of a tag, with the operation that issued it; `state` 1 pending, 2 complete, 3 failed. The
fields that change while it is pending are taken from the operation. -/
structure RingRec where
  asid : Nat := 0
  group : Nat := 0
  tag : BitVec 16 := 0
  kind : Nat := 0
  state : Nat := 1
  code : Nat := 0
  restarts : Nat := 0
  left : Nat := 0
  nan : Option Nat := none
  op : Nat := 0
  deriving DecidableEq, Repr, Inhabited

/-- An event record awaiting the ring (Table 20-7). -/
structure EvRec where
  kind : Nat := 0
  pkg : Nat := 0
  die : Nat := 0
  core : Nat := 0xFFFF
  slot : Nat := 0xFF
  asid : Nat := 0xFFFFFFFF
  detail : Nat := 0xFFFFFFFF
  clk : Nat := 0
  addr : Nat := 0xFFFFFFFFFFFFFFFF
  deriving DecidableEq, Repr, Inhabited

/-- A page walk of a die's translation cache (R380, R383): the page asked for, the core that waits, when it began, the level whose
entry it reads next in the table at `table`, and that entry once its read has landed, none within for one that failed. -/
structure Walk where
  asid : Nat := 0
  root : Nat := 0
  va : Dword := 0
  core : Nat := 0
  started : Bool := false
  start : Nat := 0
  level : Nat := 0
  table : Nat := 0
  got : Option (Option Nat) := none
  deriving DecidableEq, Repr, Inhabited

/-- A die with its management registers (Table 20-2). The remote-data cache of R244 lies in its memory. `lost` names the lines homed
here whose owner another package's proxy has found dead (R249); `brgLost` is a failed retraining of its bridge (R249, R345). -/
structure Die where
  ok : Bool := false
  dead : Bool := false
  power : Nat := 0
  temp : Nat := 0
  spans : List SpanCellar := []
  buf : KV Buf := []
  copies : KV Copy := []
  txns : KV Txn := []
  bankQ : KV (List Nat) := []
  press : KV Nat := []
  proxy : KV Word := []
  rdcGen : Nat := 1
  rdcSize : Nat := 1
  lost : List Nat := []
  held : KV Nat := []
  wakeErr : Nat := 0
  cask : KV Cask := []
  region : KV Region := []
  caskLines : KV Nat := []
  classQ : KV (List Nat) := []
  deficit : KV Nat := []
  round : Nat := 3
  visited : Bool := false
  inFlight : Nat := 0
  binds : List RingBind := []
  recs : List RingRec := []
  ringRot : List Nat := []
  refused : List RingStep := []
  applied : List Nat := []
  sleepEn : Bool := true
  sleepAfter : Nat := 100
  idleAfter : Nat := 1
  brgFailed : Bool := false
  brgLost : Bool := false
  brgWrapped : Bool := false
  brgThresh : Nat := 16
  brgWindow : Nat := 10
  brgErr : Nat := 0
  go : Bool := false
  planRefused : Bool := false
  planPhase : Nat := 0
  drainMax : Nat := 100
  linkDead : Nat := 50
  plan : KV Byte := []
  planInForce : KV Byte := []
  lasersFailed : List Nat := []
  heldTraffic : List Nat := []
  lqRot : List Nat := []
  diagAddr : Dword := 0
  diagData : Dword := 0
  diagCheck : Dword := 0
  scrub : Nat := 0
  awaiting : List EvRec := []
  headroom : Nat := 420
  tc : List Trans := []
  walks : List Walk := []
  deriving DecidableEq, Repr

/-! ### Rings and links -/

/-- A message on the rings or a link (R9, R11, R14): the die where it stands, its flits that have left there, the die it is for, the die number at which
it crosses to another package, the ring it must take while the rings are whole (2 the shorter; R336), its channel on a link (Table 17-1 VC) and the event that its
arrival is, `delay` clks after it reaches its die. `own` marks ownership traffic (R247), `since` is one more than the clk since
which it is held before a direction that is not active. -/
structure Msg where
  here : Nat := 0
  sent : Nat := 0
  dst : Nat := 0
  via : Nat := 0
  ring : Nat := 2
  vc : Nat := 0
  delay : Nat := 0
  own : Bool := false
  since : Nat := 0
  ev : Ev
  deriving DecidableEq, Repr

/-- An outgoing bridge direction (R11, R344): state 0 active, 1 idle, 2 asleep, 3 waking; the clk of the last flit;
the messages waiting to pass and to be injected; whether the last grant went to a passing flit; the link-wake errors in
a row. -/
structure Dir where
  state : Nat := 0
  last : Nat := 0
  pass : List Nat := []
  inj : List Nat := []
  gavePass : Bool := false
  errs : Nat := 0
  deriving DecidableEq, Repr, Inhabited

/-- What a die holds for a peer package (R353 to R363): the link to it with its slots, numbers, replay buffer, allowances and
waiting traffic, and the receiving end of the link from it with its slots, the number last taken and the buffers it has freed;
`stream` counts the flits put on the link (R357); `darkSince` is one more than the clk since which the link to it has had no active slot; `relocking` is the
relock of a link that was down (R362). -/
structure Link where
  up : Bool := false
  txMask : BitVec 16 := 0
  txDark : BitVec 16 := 0
  rxMask : BitVec 16 := 0
  rxDark : BitVec 16 := 0
  stream : Nat := 0
  nextSeq : BitVec 16 := 0
  taken : BitVec 16 := 0xFFFF
  replay : List Flit := []
  allow : List Nat := [64, 64, 64]
  freed : List Nat := [0, 0, 0]
  waiting : List (Nat × Nat) := []
  lastTaken : Nat := 0
  lastSent : Nat := 0
  lastReplay : Nat := 0
  replayFor : BitVec 16 := 0
  darkSince : Nat := 0
  drainSent : Bool := false
  drainTaken : Bool := false
  doneSent : Bool := false
  doneTaken : Bool := false
  relocked : Bool := false
  relocking : Bool := false
  deriving DecidableEq, Repr, Inhabited

/-! ### Requests and operations -/

/-- The kind of a memory request; the last five are an engine's read, write, addition (R288, R296), the increment of a PUTN's
flag (R373) and the read of a page-table entry (R380). -/
inductive ReqKind where
  | ld | ldc | st | atom | red | cas | pref | acc | ldb | rack | flsh | launch | rgset | bar
  | erd | ewr | eadd | eflag | walk
  deriving DecidableEq, Repr, Inhabited

/-- A memory access of a thread in flight (R194, R209). Stage 0 is held behind `after` and, under `all`, behind every
earlier access of its thread, 1 under way, 2 performed; it is gone once landed or acknowledged. `pc` and `xaddr` are those
of its instruction; `follow` is the access whose entry it shares, `hit` says that the core's L1 served it, `agent` the agent it is at, `arrived` its arrival at a
bank, `grant` the level of a copy granted to its die, `right` that granted to its package's proxy. `data` and `data2` are the operand bytes, `reg`, `n`, `tag` the
destination, `fo` whether a failed CAS is an acquire. -/
structure Req where
  kind : ReqKind := .ld
  thread : Nat := 0
  core : Nat := 0
  epoch : BitVec 16 := 0
  pc : Dword := 0
  va : Dword := 0
  cls : Nat := 0
  pa : Nat := 0
  limit : Nat := 0
  size : Nat := 4
  order : Nat := 0
  scope : Nat := 0
  fo : Bool := false
  op : Nat := 0
  ty : BitVec 4 := 0
  data : List Byte := []
  data2 : List Byte := []
  reg : Nat := 0
  n : Nat := 0
  tag : Nat := 0
  value : Nat := 0
  after : List Nat := []
  all : Bool := false
  stage : Nat := 0
  follow : Nat := 0
  hit : Bool := false
  agent : Nat := 0
  arrived : Nat := 0
  issued : Nat := 0
  gen : Nat := 0
  grant : Option Nat := none
  right : Option Nat := none
  failed : Bool := false
  deriving DecidableEq, Repr, Inhabited

/-- A piece of a chunk on its destination side: offset in the operation, bytes, virtual address, class and place. -/
structure Piece where
  off : Nat := 0
  len : Nat := 0
  va : Nat := 0
  cls : Nat := 0
  pa : Nat := 0
  deriving DecidableEq, Repr, Inhabited

/-- A chunk of an operation in flight (R286). `phase` 0 reads the index list, 1 the source, 2 writes; `reads` and `writes`
are its requests under way, `got` the bytes read with their offset in the operation, `out` where they
go, `size` its bytes; `bad` after a read that failed. -/
structure Chunk where
  phase : Nat := 1
  reads : List Nat := []
  got : List (Nat × List Byte) := []
  out : List Piece := []
  writes : List Nat := []
  size : Nat := 0
  bad : Bool := false
  deriving DecidableEq, Repr, Inhabited

/-- An operation of an engine (R223, R286, R309, R325, R336, R372). `kind` is its opcode. `stage` 0 waits for its
issuers' earlier writes (`after`), 1 is queued, 2 started, 3 complete; it is gone once complete with nothing in flight.
`held` while its cohort is saved (R299, R329). Then: what a copy moves (`total` bytes, `next` chunks dispatched, `chunks` in
flight, `index` the index entries read by row (R296), `begun` a named buffer's start made, R293); what an Anvil or press operation names, the places found at issue
(`trans`), its captured rows (`acts`), its start, the clk of its last row and its end (R310); what a collective moves. -/
structure Op where
  kind : Opc := .cpy
  cls : Nat := 0
  warp : Nat := 0
  thread : Nat := 0
  core : Nat := 0
  epoch : BitVec 16 := 0
  asid : Nat := 0
  launch : Nat := 0
  root : Nat := 0
  window : Dword := 0
  scope : Nat := 0
  stage : Nat := 0
  after : List Nat := []
  held : Bool := false
  fail : Nat := 0
  bar : Option Word := none
  dst : Dword := 0
  src : Dword := 0
  idx : Dword := 0
  strides : List Int := []
  shape : List Nat := []
  prio : Nat := 0
  buf : Option Nat := none
  bout : Bool := false
  serial : Nat := 0
  total : Nat := 0
  next : Nat := 0
  chunks : KV Chunk := []
  index : KV Nat := []
  begun : Bool := false
  add : Bool := false
  ty : BitVec 4 := 0
  flag : Dword := 0
  inc : Nat := 0
  tile : Nat := 0
  row0 : Nat := 0
  rows : Nat := 0
  fmt : Nat := 0
  wfmt : Nat := 0
  bx : Bool := false
  wbx : Bool := false
  z : Bool := false
  drain : Bool := false
  sat : Bool := false
  value : Word := 0
  trans : List Trans := []
  acts : List (List Byte) := []
  came : Nat := 0
  base : Nat := 0
  issued : Nat := 0
  bound : Nat := 0
  start : Nat := 0
  enter : Nat := 0
  due : Nat := 0
  group : Nat := 0
  tag : BitVec 16 := 0
  rank : Nat := 0
  p : Nat := 0
  n : Nat := 0
  rop : Nat := 0
  version : BitVec 16 := 0
  ranks : List Nat := []
  inst : Nat := 0
  doomed : Nat := 0
  rootRank : Nat := 0
  prev : Bool := false
  recv : Bool := false
  unacked : KV RingStep := []
  toSend : List RingStep := []
  recvd : Nat := 0
  got : Nat := 0
  done : Nat := 0
  nan : Option Nat := none
  restarts : Nat := 0
  deriving DecidableEq, Repr, Inhabited

/-! ### Launches, packages and the domain -/

/-- A grant of a cohort index to a die that waits for a core; a cohort restarted from a region (R395) keeps its place in the
span and begins at the region's entry. -/
structure Waiting where
  index : Nat := 0
  die : Nat := 0
  inSpan : Option Nat := none
  entry : Option Dword := none
  deriving DecidableEq, Repr, Inhabited

/-- The strip of a launch (R407, R408): its package and span dies, the cohort index counter and its end, the leader, the last
entry of the mirror, the grant under way to the mirror, the dies that ask for an index and those whose request the leader has,
grants on their way, grants that wait for a core, cohorts placed, dies whose span is open with the cohorts placed on each. -/
structure Strip where
  pkg : Nat := 0
  dies : List Nat := []
  next : Nat := 0
  stop : Nat := 0
  leader : Nat := 0
  mirror : Option (Nat × Nat) := none
  pending : Option (Nat × Nat) := none
  asked : List Nat := []
  heard : List Nat := []
  sent : List (Nat × Nat) := []
  again : List Waiting := []
  placed : List (Nat × Nat) := []
  opened : KV Nat := []
  closed : Bool := false
  deriving DecidableEq, Repr, Inhabited

/-- An accepted launch (R402 to R410). `state` 1 accepted, 3 complete, 4 complete with cohorts lost, 5 context ended;
`desc` the physical address of its queue's descriptor, `record` the virtual address of its record, `since` the clk of its
last placement. -/
structure Launch where
  asid : Nat := 0
  pkg : Nat := 0
  queue : Nat := 0
  desc : Nat := 0
  record : Dword := 0
  server : Nat := 0
  ctxd : Nat := 0
  root : Nat := 0
  param : Dword := 0
  window : Dword := 0
  done : Dword := 0
  cohorts : Nat := 1
  spans : Nat := 1
  prio : Nat := 0
  warps : Nat := 1
  r : Nat := 8
  tiles : Nat := 0
  cellar : Nat := 0
  entry : Dword := 0
  strips : KV Strip := []
  lost : Nat := 0
  state : Nat := 1
  since : Nat := 0
  deriving DecidableEq, Repr, Inhabited

/-- A package (R375, R403, R416 to R428). -/
structure Pkg where
  powered : Bool := false
  phase : Nat := 0
  ready : Bool := false
  dieOk : BitVec 16 := 0
  brgOk : BitVec 16 := 0
  lqBase : Nat := 0
  lqEn : Bool := false
  scrubPeriod : Nat := 24
  errWindow : Nat := 3600
  errThresh : Nat := 8
  evqBase : Nat := 0
  evqLog : Nat := 0
  evqIrq : Bool := false
  evqHead : Nat := 0
  evqTail : Nat := 0
  evqDrop : Nat := 0
  msix : Nat := 0
  region : KV Word := []
  counted : KV (List Nat) := []
  raised : List Nat := []
  ended : List Nat := []
  overrun : List (Nat × Nat) := []
  lostQ : List (Nat × Nat) := []
  clk0 : Nat := 0
  thermal : Bool := false
  hostReads : List (Nat × List Byte) := []
  deriving DecidableEq, Repr, Inhabited

/-- A saved cohort (R397, R398): what the device-defined sections of its save area stand for. `resident` counts its clks of
residence, `warps` and `threads` are keyed as they stood on `core`, `reads` and `maps` list the reads and MAPQs to issue again,
`traps` the warps about to trap. -/
structure Saved where
  asid : Nat := 0
  core : Nat := 0
  epoch : BitVec 16 := 0
  cohort : Cohort := {}
  coreState : Core := {}
  resident : Nat := 0
  lanes : KV Lane := []
  warps : KV Warp := []
  threads : KV Thread := []
  reads : KV Req := []
  maps : List Landing := []
  traps : List (Nat × TrapInfo) := []
  deriving DecidableEq, Repr, Inhabited

/-- The state of the machine. `clk` counts clks from reset; `agenda` holds the happenings that are due, each with its
clk; `ev` is the happening that an event row acts on; `cur` is the lane whose run an instruction acts on; `free`
numbers the free values (notes/assumptions/5.md); `nextId` numbers requests, operations, messages and tags.
Keys: packages 0 to 31, dies, cores, lanes, warps and threads of the domain as Machine/Event.lean numbers them,
`dirs` 2 x die + ring, `links` 32 x die + peer package. `mem` holds physical memory, `cellar` the cellars with the key
2^27 x die + offset, `host` host memory; an unlisted byte of each is 0. `metaw` holds the metadata word of a line
(unlisted: 0), `errs` the symbol errors stored in a line's codeword. `reqs`, `ops`, `msgs` and `launches` hold the
requests, engine operations, messages and launches in progress by number, `saved` the saved cohorts by save area, `insts`
the collective instances that some rank has issued. -/
structure State where
  clk : Nat
  agenda : List (Nat × Ev)
  ev : Option Ev
  cur : Nat
  free : Nat
  nextId : Nat
  domain : List Nat
  threads : KV Thread
  warps : KV Warp
  lanes : KV Lane
  cores : KV Core
  dies : KV Die
  dirs : KV Dir
  links : KV Link
  pkgs : KV Pkg
  mem : List Host.Cell
  cellar : List Host.Cell
  host : List Host.Cell
  metaw : KV Word
  errs : KV (List (Nat × Byte))
  reqs : KV Req
  ops : KV Op
  msgs : KV Msg
  launches : KV Launch
  saved : KV Saved
  insts : List RingInst
  deriving DecidableEq, Repr

/-- Why a step stops. Neither is reached by a step of the machine. -/
inductive Fault where
  /-- Raised by the meaning of an instruction when the current lane executes no run: no thread executes it. Safe. -/
  | noRun
  /-- Raised by the meaning of an event when `State.ev` is not a happening of that row. Safe. -/
  | noEvent
  deriving DecidableEq, Repr

/-- Why an instruction has no meaning. -/
inductive Refusal where
  /-- Raised by a dispatch arm whose instruction has no meaning yet. Safe. -/
  | notModelled (mnemonic : String)
  deriving DecidableEq, Repr

/-- The machine right after reset: one package without power (notes/assumptions/3.md, 4.md), every register at the
value of its map, memory with nothing listed. -/
def State.reset : State :=
  { clk := 0, agenda := [], ev := none, cur := 0, free := 0, nextId := 1, domain := [0],
    threads := [], warps := [], lanes := [], cores := [], dies := [], dirs := [], links := [], pkgs := [],
    mem := [], cellar := [], host := [], metaw := [], errs := [], reqs := [], ops := [], msgs := [],
    launches := [], saved := [], insts := [] }

end Sys2Proof.Machine
end

