-- ==== Sys2Proof/Machine/Base.lean ====
section
/-! DEFINITION. The places of the state and the ways to read and change one of them; the bytes of memory; the agenda;
the open values; the event records. -/

namespace Sys2Proof.Machine

/-! ### Numbers of places (Machine/Event.lean) -/

/-- The die of a core. -/
def dieOfCore (c : Nat) : Nat := c / 128
/-- The core of a lane. -/
def coreOfLane (l : Nat) : Nat := l / 32
/-- The core of a warp. -/
def coreOfWarp (w : Nat) : Nat := w / 512
/-- The warp of a thread. -/
def warpOfThread (t : Nat) : Nat := t / 32
/-- The slot of a thread (R72). -/
def slotOf (t : Nat) : Nat := t % 32
/-- The core of a thread. -/
def coreOfThread (t : Nat) : Nat := t / 32 / 512
/-- The lane on which a warp resides: its index in the cohort modulo 32 (R17). -/
def laneOfWarp (w : Nat) : Nat := 32 * (w / 512) + w % 32
/-- The lane warp index of a warp (R72). -/
def lwiOfWarp (w : Nat) : Nat := w % 512 / 32
/-- The warp with a lane warp index on a lane (R17). -/
def warpOfLwi (l i : Nat) : Nat := 512 * (l / 32) + 32 * i + l % 32
/-- The package of a die. -/
def pkgOfDie (d : Nat) : Nat := d / 16
/-- The package of a core. -/
def pkgOfCore (c : Nat) : Nat := c / 128 / 16
/-- The thread of a warp in a slot. -/
def threadOf (w slot : Nat) : Nat := 32 * w + slot

/-! ### Bits and bytes -/

/-- Bits `lo + n - 1` to `lo` of a number. -/
def natBits (v lo n : Nat) : Nat := v / 2 ^ lo % 2 ^ n
/-- The little-endian number of a list of bytes. -/
def bytesNat : List Byte → Nat
  | [] => 0
  | b :: r => b.toNat + 256 * bytesNat r
/-- The slots named by a 32-bit mask, ascending. -/
def maskSlots (m : Word) : List Nat := (List.range 32).filter fun s => m.getLsbD s
/-- The mask of one slot. -/
def slotBit (s : Nat) : Word := BitVec.ofNat 32 (2 ^ s)
/-- The mask of a list of slots. -/
def slotsMask (l : List Nat) : Word := l.foldl (fun m s => m ||| slotBit s) 0
/-- The words of a list of bytes, four bytes each. -/
def bytesWords : List Byte → List Word
  | a :: b :: c :: d :: r => bytesWord a b c d :: bytesWords r
  | _ => []
/-- The bytes of a list of words. -/
def wordsBytes (l : List Word) : List Byte := l.flatMap wordBytes
/-- The elements of a list from position `i`, `n` of them. -/
def sliceL {α : Type} (l : List α) (i n : Nat) : List α := (l.drop i).take n
/-- The least element of a non-empty list of numbers. -/
def minList : List Nat → Option Nat
  | [] => none
  | a :: r => some (r.foldl min a)
/-- Insertion into a rising list of numbers without repeats. -/
def insertNat (n : Nat) : List Nat → List Nat
  | [] => [n]
  | a :: r => if n < a then n :: a :: r else if n = a then a :: r else a :: insertNat n r

/-! ### Memory as bytes -/

/-- The byte at an address; an unlisted address reads as 0 (notes/assumptions/16.md). -/
def memGet : List Host.Cell → Nat → Byte
  | [], _ => 0
  | (a', b) :: r, a => if a = a' then b else if a < a' then 0 else memGet r a

/-- The memory with the byte at an address written, in canonical form. -/
def memSet : List Host.Cell → Nat → Byte → List Host.Cell
  | [], a, b => if b = 0 then [] else [(a, b)]
  | (a', b') :: r, a, b =>
    if a < a' then (if b = 0 then (a', b') :: r else (a, b) :: (a', b') :: r)
    else if a = a' then (if b = 0 then r else (a, b) :: r)
    else (a', b') :: memSet r a b

/-- The `n` bytes from an address. -/
def memRead (m : List Host.Cell) (a : Nat) : Nat → List Byte
  | 0 => []
  | n + 1 => memGet m a :: memRead m (a + 1) n

/-- Bytes written from an address on. -/
def memWrite (m : List Host.Cell) (a : Nat) : List Byte → List Host.Cell
  | [] => m
  | b :: r => memWrite (memSet m a b) (a + 1) r

/-- The memory without the bytes of a range, which then read as 0. -/
def memClear (m : List Host.Cell) (a n : Nat) : List Host.Cell :=
  m.filter fun c => c.1 < a || a + n ≤ c.1

/-- The canonical form: addresses strictly rising from `lo` on and no listed byte 0. -/
def memWfFrom (lo : Nat) : List Host.Cell → Bool
  | [] => true
  | (a, b) :: r => decide (lo ≤ a) && b != 0 && memWfFrom (a + 1) r

/-- Memory is in canonical form. -/
def Memory.wf (m : List Host.Cell) : Bool := memWfFrom 0 m

/-! ### Parts of the state -/

namespace State

/-- A thread. -/
def thread (s : State) (t : Nat) : Thread := kvGet {} s.threads t
/-- A warp. -/
def warp (s : State) (w : Nat) : Warp := kvGet {} s.warps w
/-- A lane. -/
def lane (s : State) (l : Nat) : Lane := kvGet {} s.lanes l
/-- A core. -/
def core (s : State) (c : Nat) : Core := kvGet {} s.cores c
/-- A die. -/
def die (s : State) (d : Nat) : Die := kvGet {} s.dies d
/-- A bridge direction. -/
def dir (s : State) (d : Nat) : Dir := kvGet {} s.dirs d
/-- A link. -/
def link (s : State) (l : Nat) : Link := kvGet {} s.links l
/-- A package. -/
def pkg (s : State) (p : Nat) : Pkg := kvGet {} s.pkgs p
/-- A launch. -/
def launch (s : State) (l : Nat) : Launch := kvGet {} s.launches l
/-- A memory request. -/
def req (s : State) (r : Nat) : Req := kvGet {} s.reqs r
/-- An engine operation. -/
def op (s : State) (o : Nat) : Op := kvGet {} s.ops o

/-- Changes one thread. -/
def modThread (s : State) (t : Nat) (f : Thread → Thread) : State :=
  { s with threads := kvSet s.threads t (f (s.thread t)) }
/-- Changes one warp. -/
def modWarp (s : State) (w : Nat) (f : Warp → Warp) : State := { s with warps := kvSet s.warps w (f (s.warp w)) }
/-- Changes one lane. -/
def modLane (s : State) (l : Nat) (f : Lane → Lane) : State := { s with lanes := kvSet s.lanes l (f (s.lane l)) }
/-- Changes one core. -/
def modCore (s : State) (c : Nat) (f : Core → Core) : State := { s with cores := kvSet s.cores c (f (s.core c)) }
/-- Changes one die. -/
def modDie (s : State) (d : Nat) (f : Die → Die) : State := { s with dies := kvSet s.dies d (f (s.die d)) }
/-- Changes one bridge direction. -/
def modDir (s : State) (d : Nat) (f : Dir → Dir) : State := { s with dirs := kvSet s.dirs d (f (s.dir d)) }
/-- Changes one link. -/
def modLink (s : State) (l : Nat) (f : Link → Link) : State := { s with links := kvSet s.links l (f (s.link l)) }
/-- Changes one package. -/
def modPkg (s : State) (p : Nat) (f : Pkg → Pkg) : State := { s with pkgs := kvSet s.pkgs p (f (s.pkg p)) }
/-- Changes one launch. -/
def modLaunch (s : State) (l : Nat) (f : Launch → Launch) : State :=
  { s with launches := kvSet s.launches l (f (s.launch l)) }
/-- Changes one request. -/
def modReq (s : State) (r : Nat) (f : Req → Req) : State := { s with reqs := kvSet s.reqs r (f (s.req r)) }
/-- Changes one engine operation. -/
def modOp (s : State) (o : Nat) (f : Op → Op) : State := { s with ops := kvSet s.ops o (f (s.op o)) }

/-- A fresh number for a request, an operation, a message or a producer tag. -/
def fresh (s : State) : Nat × State := (s.nextId, { s with nextId := s.nextId + 1 })

/-- An open value (notes/assumptions/5.md). -/
def choose (s : State) : Nat × State := (Config.freeNat s.free, { s with free := s.free + 1 })

/-- An open value below `n` (0 where `n` is 0). -/
def chooseBelow (s : State) (n : Nat) : Nat × State :=
  let (v, s) := s.choose
  (if n = 0 then 0 else v % n, s)

end State

/-- The agenda with a happening added after those due no later. -/
def agendaInsert (due : Nat) (e : Ev) : List (Nat × Ev) → List (Nat × Ev)
  | [] => [(due, e)]
  | (d, x) :: r => if due < d then (due, e) :: (d, x) :: r else (d, x) :: agendaInsert due e r

/-- The agenda with a happening added before those due in the same clk. -/
def agendaFirst (due : Nat) (e : Ev) : List (Nat × Ev) → List (Nat × Ev)
  | [] => [(due, e)]
  | (d, x) :: r => if d < due then (d, x) :: agendaFirst due e r else (due, e) :: (d, x) :: r

namespace State

/-- Makes a happening the first of the next clk so far. -/
def postFirst (s : State) (e : Ev) : State := { s with agenda := agendaFirst (s.clk + 1) e s.agenda }

/-- Makes a happening due `d` clks from now. -/
def post (s : State) (d : Nat) (e : Ev) : State := { s with agenda := agendaInsert (s.clk + d) e s.agenda }

/-- Withdraws a happening from the agenda. -/
def unpost (s : State) (e : Ev) : State := { s with agenda := s.agenda.filter fun x => x.2 ≠ e }

/-- A happening is on the agenda. -/
def posted (s : State) (e : Ev) : Bool := s.agenda.any fun x => x.2 = e

/-! ### Cohorts -/

/-- The cohort of a core, or an empty one. -/
def cohort (s : State) (c : Nat) : Cohort := (s.core c).cohort.getD {}

/-- The number of warps resident on a core. -/
def warpCount (s : State) (c : Nat) : Nat :=
  match (s.core c).cohort with
  | some h => h.warps
  | none => 0

/-- The warps of a core's cohort, ascending. -/
def warpsOf (s : State) (c : Nat) : List Nat := (List.range (s.warpCount c)).map fun i => 512 * c + i

/-- The 32 threads of a warp. -/
def threadsOf (w : Nat) : List Nat := (List.range 32).map fun i => 32 * w + i

/-- The address-space identifier under which a core runs. -/
def asidOf (s : State) (c : Nat) : Nat := (s.cohort c).ctx.asid

/-- A thread runs in a trap handler (R104). -/
def inHandler (s : State) (t : Nat) : Bool := (s.warp (t / 32)).handler.isSome

/-- A thread is resident and takes part in runs: it has not exited, or runs in a handler, where exited slots are active
(R388). -/
def alive (s : State) (t : Nat) : Bool :=
  decide (t / 32 % 512 < s.warpCount (coreOfThread t)) && !(s.warp (t / 32)).gone
    && (s.inHandler t || !(s.thread t).exited)

/-- The clk of a die's package since READY (Table 5-2, $clk). -/
def pkgClk (s : State) (p : Nat) : Nat := if (s.pkg p).ready then s.clk - (s.pkg p).clk0 else 0

/-! ### Event records (R424, R425) -/

/-- Raises an event record at a die: it awaits the ring, or is dropped and counted where 256 await. -/
def raise (s : State) (d : Nat) (r : EvRec) : State :=
  if 256 ≤ (s.die d).awaiting.length then s.modPkg (pkgOfDie d) fun p => { p with evqDrop := p.evqDrop + 1 }
  else
    (s.modDie d fun x => { x with awaiting := x.awaiting ++ [{ r with pkg := pkgOfDie d, die := d % 16, clk := s.pkgClk (pkgOfDie d) }] }).post 0
      (.eventRecordWrite d)

/-! ### Physical addresses (notes/assumptions/2.md) -/

end State

/-- The die (of the domain) that homes a physical address. -/
def homeDie (pa : Nat) : Nat := 16 * natBits pa Config.paPkgBit 5 + natBits pa Config.paDieBit 4
/-- The package of a physical address is inside the address space. -/
def paOk (pa : Nat) : Bool := decide (pa < 2 ^ Config.paTopBit)
/-- The stack of a physical address, 0 to 31 within its package. -/
def stackOf (pa : Nat) : Nat := 2 * natBits pa Config.paDieBit 4 + natBits pa (Config.paDieBit - 1) 1

end Sys2Proof.Machine
end

