-- ==== Sys2Proof/Machine/Ops.lean ====
section
/-! DEFINITION. The named operations on registers, masks and holds; the end of a context; taking an exception and the
return from one, each written once. -/

namespace Sys2Proof.Machine

/-- The outcome of a meaning. -/
abbrev Out := Host.Outcome State Fault Refusal

/-! ### Registers -/

/-- The values a register held before, as far back as a read in clk `x` or later can see. -/
def pastKeep (x : Nat) : List (Nat × Word) → List (Nat × Word)
  | [] => []
  | (r, v) :: l => if r < x then [(r, v)] else (r, v) :: pastKeep x l

/-- The newest value readable before clk `x` (R183). -/
def pastAt (x : Nat) (d : Word) : List (Nat × Word) → Word
  | [] => d
  | (r, v) :: l => if r < x then v else pastAt x v l

/-- The contents of a g register as another thread sees them before clk `x` (R112, R183). -/
def GReg.seen (g : GReg) (x : Nat) : Word := pastAt x g.v ((g.rdy, g.v) :: g.past)

/-- A g register written by an instruction that is no long-latency producer (R96): full, no tag, readable at `rdy`. -/
def GReg.write (g : GReg) (x : Nat) (v : Word) (rdy : Nat) : GReg :=
  { v := v, full := true, tag := 0, rdy := rdy, past := pastKeep x ((g.rdy, g.v) :: g.past) }

namespace State

/-- A g register of a thread. -/
def greg (s : State) (t r : Nat) : GReg := kvGet {} (s.thread t).g r

/-- Changes one g register of a thread. -/
def modG (s : State) (t r : Nat) (f : GReg → GReg) : State :=
  s.modThread t fun h => { h with g := kvSet h.g r (f (kvGet {} h.g r)) }

/-- Writes a g register, readable at clk `rdy` (R96, Table 4-1). -/
def setG (s : State) (t r : Nat) (v : Word) (rdy : Nat) : State := s.modG t r fun g => g.write s.clk v rdy

/-- Writes `n` consecutive g registers with the words of a value, lowest first (R35). -/
def setGs (s : State) (t r : Nat) (v : Nat) (rdy : Nat) : Nat → State
  | 0 => s
  | n + 1 => (s.setG t r (BitVec.ofNat 32 v) rdy).setGs t (r + 1) (v / 2 ^ 32) rdy n

/-- Marks `n` consecutive g registers empty with a producer tag (R95). -/
def emptyG (s : State) (t r tag : Nat) : Nat → State
  | 0 => s
  | n + 1 => (s.modG t r fun g => { g with full := false, tag := tag }).emptyG t (r + 1) tag n

/-- Lands a value in `n` consecutive g registers: each is written and made full only where it still holds the tag
(R95). -/
def landG (s : State) (t r tag : Nat) (v : Nat) : Nat → State
  | 0 => s
  | n + 1 =>
    let s := if (s.greg t r).tag = tag && !(s.greg t r).full && tag ≠ 0
      then s.modG t r fun g => g.write s.clk (BitVec.ofNat 32 v) s.clk else s
    s.landG t (r + 1) tag (v / 2 ^ 32) n

/-- A w register of a warp. -/
def wreg (s : State) (w r : Nat) : Word := kvGet 0 (s.warp w).w r

/-- A pair of w registers. -/
def wpair (s : State) (w r : Nat) : Dword := (s.wreg w (r + 1)) ++ (s.wreg w r)

/-- Writes a w register, readable at clk `rdy`. -/
def setW (s : State) (w r : Nat) (v : Word) (rdy : Nat) : State :=
  s.modWarp w fun h =>
    { h with w := kvSet h.w r v, wrdy := kvSet h.wrdy r rdy,
             wpast := kvSet h.wpast r (pastKeep s.clk ((kvGet 0 h.wrdy r, kvGet 0 h.w r) :: kvGet [] h.wpast r)) }

/-- Writes `n` consecutive w registers. -/
def setWs (s : State) (w r : Nat) (v : Nat) (rdy : Nat) : Nat → State
  | 0 => s
  | n + 1 => (s.setW w r (BitVec.ofNat 32 v) rdy).setWs w (r + 1) (v / 2 ^ 32) rdy n

/-- The contents of a w register as another warp sees them before clk `x` (R183). -/
def wseen (s : State) (w r x : Nat) : Word :=
  let h := s.warp w
  pastAt x (kvGet 0 h.w r) ((kvGet 0 h.wrdy r, kvGet 0 h.w r) :: kvGet [] h.wpast r)

/-- A predicate of a thread; p7 reads as true (Table 5-1). -/
def pred (s : State) (t k : Nat) : Bool := k = 7 || (s.thread t).p.getLsbD k

end State

/-- The predicates with one written; a write to p7 is ignored (Table 5-1). -/
def predSet (p : BitVec 8) (k : Nat) (v : Bool) : BitVec 8 :=
  if 7 ≤ k then p else if v then p ||| BitVec.ofNat 8 (2 ^ k) else p &&& ~~~ (BitVec.ofNat 8 (2 ^ k))

namespace State

/-- Writes a predicate, readable at clk `rdy`. -/
def setP (s : State) (t k : Nat) (v : Bool) (rdy : Nat) : State :=
  if 7 ≤ k then s else
    s.modThread t fun h => { h with p := predSet h.p k v, prdy := kvSet h.prdy k rdy }

/-- ORs exception flags into $fstat of a thread, readable at clk `rdy` (R138, Table 4-1). -/
def orFlags (s : State) (t : Nat) (f : Word) (rdy : Nat) : State :=
  s.modThread t fun h => { h with fstat := h.fstat ||| f, frdy := max h.frdy rdy }

/-- A mask register of a warp (R169). -/
def mask (s : State) (w m : Nat) : Word := kvGet 0 (s.warp w).m m

/-- Writes a mask register. -/
def setMask (s : State) (w m : Nat) (v : Word) : State := s.modWarp w fun h => { h with m := kvSet h.m m v }

/-! ### Program counters and holds -/

/-- Advances a thread by the length of its instruction; it may be ready again from the next clk (R23, R76). -/
def advance (s : State) (t n : Nat) : State :=
  s.modThread t fun h => { h with pc := h.pc + BitVec.ofNat 64 n, since := s.clk + 1, slot := false }

/-- Transfers control of a thread (R162). -/
def jump (s : State) (t : Nat) (pc : Dword) : State := s.modThread t fun h => { h with pc := pc, since := s.clk + 1 }

/-- Holds a thread at its instruction (R76). -/
def hold (s : State) (t : Nat) (h : Hold) : State := s.modThread t fun x => { x with hold := h, slot := false }

/-- The wait of a thread that satisfies `p`: its own, or the one that its warp's handler keeps for it (R387). -/
def holdWhere (s : State) (t : Nat) (p : Hold → Bool) : Option Hold :=
  let own := (s.thread t).hold
  if p own then some own
  else match (s.warp (t / 32)).handler with
    | some h => let k := kvGet .none h.holds (t % 32)
      if p k then some k else none
    | none => none

/-- Ends the wait of a thread, past its instruction of `n` bytes. -/
def release (s : State) (t n : Nat) : State :=
  s.modThread t fun x => { x with hold := .none, pc := x.pc + BitVec.ofNat 64 n, since := s.clk + 1 }

/-- Ends the wait that a warp's handler keeps for a slot; its saved program counter advances (R387). -/
def releaseKept (s : State) (t n : Nat) : State :=
  s.modWarp (t / 32) fun w => { w with handler := w.handler.map fun h => { h with
    holds := kvDel h.holds (t % 32), pcs := kvSet h.pcs (t % 32) (kvGet 0 h.pcs (t % 32) + BitVec.ofNat 64 n) } }

/-- Ends the wait of a thread that satisfies `p`, its own or a kept one; `.none` never does. -/
def releaseWhere (s : State) (t n : Nat) (p : Hold → Bool) : State :=
  if p (s.thread t).hold then s.release t n
  else match s.holdWhere t p with
    | some _ => s.releaseKept t n
    | none => s

/-- Writes a predicate of a thread held for reply `id`, also where its warp runs a handler meanwhile (R388). -/
def setHeldP (s : State) (t id k : Nat) (v : Bool) : State :=
  if (s.thread t).hold = .reply id ∨ (s.warp (t / 32)).handler.isNone then s.setP t k v s.clk
  else s.modWarp (t / 32) fun w => { w with handler := w.handler.map fun h => { h with
    preds := kvSet h.preds (t % 32) (predSet (kvGet 0x80 h.preds (t % 32)) k v) } }

end State

/-- The slots of a warp held at a mask, with the mask (R173). -/
def heldAt (s : State) (w m : Nat) : List Nat :=
  (List.range 32).filter fun k => (s.thread (threadOf w k)).hold = .mask m

/-- The release check on a mask (R173). WAITM is a long form: a released thread advances by 12 bytes. -/
def releaseCheck (s : State) (w m : Nat) : State :=
  let held := heldAt s w m
  let mem := s.mask w m
  let out := held.filter fun k => !mem.getLsbD k
  let s := out.foldl (fun s k => s.release (threadOf w k) 12) s
  if mem ≠ 0 ∧ (maskSlots mem).all (fun k => held.contains k) then
    (maskSlots mem).foldl (fun s k => s.release (threadOf w k) 12) (s.setMask w m 0)
  else s

/-- The masks of a warp in ascending index after one of their members left: the release check on each (R168, R171). -/
def releaseChecks (s : State) (w : Nat) (ms : List Nat) : State := ms.foldl (fun s m => releaseCheck s w m) s

/-! ### Barrier objects and the end of a context -/

/-- Returns a barrier object to its pool: ALLOC falls, the other fields stand (R271). -/
def freeBarrier (s : State) (c i : Nat) : State :=
  s.modCore c fun k => { k with bar := kvSet k.bar i { kvGet {} k.bar i with alloc := false, dirty := none } }

/-- Makes a declared buffer undeclared (R189). -/
def dropBuf (s : State) (d b : Nat) : State :=
  s.modDie d fun x => { x with buf := kvSet x.buf b {} }

/-- The operations of a context that have started nothing are discarded (R368). -/
def dropOps (s : State) (asid : Nat) : State :=
  let dead := s.ops.filterMap fun o => if o.2.asid = asid ∧ o.2.stage ≤ 1 then some o.1 else none
  { s with
    ops := s.ops.filter fun o => !dead.contains o.1
    dies := s.dies.map fun d => (d.1, { d.2 with classQ := d.2.classQ.map fun q => (q.1, q.2.filter fun o => !dead.contains o) })
    cores := s.cores.map fun c => (c.1, { c.2 with anvilQ := c.2.anvilQ.filter fun o => !dead.contains o }) }

/-- The context `asid` ends on every package of the domain (R368, R389): its cohorts stop between runs and end in the
next clk, its queued work, buffers, ring bindings and saved cohorts go, its launches end with STATE 5. The record, where
there is one, is raised at die `d`. -/
def endContext (s : State) (asid : Nat) (record : Option (Nat × EvRec)) : State :=
  if s.pkgs.all fun p => p.2.ended.contains asid then s else
  let s : State := { s with pkgs := s.pkgs.map fun p => (p.1, { p.2 with ended := insertNat asid p.2.ended }) }
  let s := match record with
    | some (d, r) => s.raise d r
    | none => s
  let mine := s.cores.filterMap fun c =>
    match c.2.cohort with
    | some h => if h.ctx.asid = asid then some c.1 else none
    | none => none
  let s := mine.foldl (fun s c => (s.modCore c fun k => { k with peStop := true, restarting := true }).post 1 (.cohortEnd c)) s
  let objs := s.cores.flatMap fun c => c.2.bar.filterMap fun b =>
    if b.2.alloc && b.2.saved && b.2.asid = asid then some (c.1, b.1) else none
  let s := objs.foldl (fun s o => freeBarrier s o.1 o.2) s
  let s : State := { s with saved := s.saved.filter fun v => v.2.asid ≠ asid, insts := s.insts.filter fun i => i.asid ≠ asid }
  let s := dropOps s asid
  let bufs := s.dies.flatMap fun d => d.2.buf.filterMap fun b => if b.2.decl && b.2.owner = asid then some (d.1, b.1) else none
  let s := bufs.foldl (fun s b => dropBuf s b.1 b.2) s
  let s : State := { s with dies := s.dies.map fun d => (d.1, { d.2 with
    binds := d.2.binds.filter fun b => b.asid ≠ asid, recs := d.2.recs.filter fun r => r.asid ≠ asid }) }
  let ls := s.launches.filterMap fun l => if l.2.asid = asid ∧ l.2.state = 1 then some l.1 else none
  ls.foldl (fun s l => (s.modLaunch l fun x => { x with state := 5, strips := x.strips.map fun t => (t.1, { t.2 with closed := true }) }).post 1
    (.launchCompletion l)) s

/-! ### Exceptions -/

/-- $xcause (Table 18-6). -/
def xcauseWord (i : TrapInfo) : Word :=
  BitVec.ofNat 32 (i.arg.toNat * 2 ^ 16 + i.acc * 2 ^ 13 + i.slot * 2 ^ 8 + i.cause)

/-- Waits that a trap of the warp leaves as they are; every other waiting thread executes its instruction again when it
resumes (R174, R393). -/
def holdKept : Hold → Bool
  | .reply _ | .round _ _ | .sleep _ => true
  | _ => false

/-- The registers w56 to w63 of a handler: HDATA, then zeros (R388). -/
def handlerW (hdata : Dword) (w : KV Word) : KV Word :=
  (List.range 6).foldl (fun w k => kvSet w (58 + k) 0)
    (kvSet (kvSet w 56 (hdata.extractLsb' 0 32)) 57 (hdata.extractLsb' 32 32))

/-- The detail word of the records of R389. -/
def endDetail (last entered halt : Nat) : Nat := halt * 2 ^ 16 + entered % 256 * 2 ^ 8 + last % 256

/-- TAKING AN EXCEPTION (R387 to R389): the warp `w` traps for the reason `i`; `until_` is the clk in which the run
ended. The trap registers and masks are saved, then each slot's program counter, predicates and the replay set; the
slots start at HANDLER 8 clks later. A fault in a handler, or with no handler, ends the context. -/
def takeTrap (s : State) (w : Nat) (i : TrapInfo) (until_ : Nat) : State :=
  let c := coreOfWarp w
  let ctx := (s.cohort c).ctx
  let rec_ (kind entered : Nat) : Option (Nat × EvRec) :=
    some (dieOfCore c, { kind := kind, core := c % 128, slot := i.slot, asid := ctx.asid,
                         detail := endDetail i.cause entered 0, addr := i.xaddr.toNat })
  match (s.warp w).handler with
  | some h => endContext s ctx.asid (rec_ 0x30 h.cause)
  | none =>
    if ctx.handler = 0 then endContext s ctx.asid (rec_ 0x31 0) else
    let slots := List.range 32
    let replay := slots.filter fun k => (s.thread (threadOf w k)).pc = i.xpc && !i.done.getLsbD k
    let saved : Handler :=
      { cause := i.cause
        pcs := slots.map fun k => (k, (s.thread (threadOf w k)).pc)
        holds := slots.filterMap fun k =>
          let h := (s.thread (threadOf w k)).hold
          if holdKept h then some (k, h) else none
        preds := slots.map fun k => (k, (s.thread (threadOf w k)).p)
        replay := slotsMask replay
        w := (List.range 8).map fun k => (56 + k, s.wreg w (56 + k)) }
    let s := s.modWarp w fun x => { x with
      xcause := xcauseWord i, xpc := i.xpc, xaddr := i.xaddr, xdone := i.done, xm := x.m, m := [],
      w := handlerW ctx.hdata x.w, handler := some saved }
    slots.foldl (fun s k => s.modThread (threadOf w k) fun x =>
      { x with pc := ctx.handler, p := 0x80, prdy := [], hold := .none, slot := false, since := until_ + 8 }) s

/-- THE RETURN FROM AN EXCEPTION (R392): `n` is the length of the instruction at $xpc. Predicates, masks and w56 to w63
come back; a replaying slot starts at $xpc, or after the instruction where its $xdone bit is set. -/
def returnFromTrap (s : State) (w n : Nat) : State :=
  match (s.warp w).handler with
  | none => s
  | some h =>
    let x := s.warp w
    let s := s.modWarp w fun x => { x with
      m := x.xm, w := h.w.foldl (fun a e => kvSet a e.1 e.2) x.w, handler := none }
    (List.range 32).foldl (fun s k => s.modThread (threadOf w k) fun t =>
      let t := { t with p := kvGet 0x80 h.preds k, prdy := [], hold := .none, since := s.clk + 1 }
      if t.exited then { t with pc := kvGet 0 h.pcs k }
      else if h.replay.getLsbD k then
        { t with pc := if x.xdone.getLsbD k then x.xpc + BitVec.ofNat 64 n else x.xpc }
      else { t with pc := kvGet 0 h.pcs k, hold := kvGet .none h.holds k }) s

end Sys2Proof.Machine
end

