-- ==== Sys2Proof/Machine/Network.lean ====
section
/-! DEFINITION. How a message travels: the rings of a package whole and wrapped (R9, R346), the link of a plane to
another package (R14), and which dies are unreachable (R348, R367). -/

namespace Sys2Proof.Machine

/-- Clks of a message each way beside its hops: half of the 150 ns of R10. -/
def baseClk : Nat := 90
/-- Clks of one hop each way: half of the 10 ns of R10. -/
def hopClk : Nat := 6
/-- Clks of a flit on a link (notes/assumptions/17.md). -/
def linkClk : Nat := 18
/-- Clks of a message each way between a proxy and a home beside the link: a load by the farthest die keeps the bound of R14. -/
def upClk : Nat := 60
/-- Clks of a message to another core of the same die each way (R275). -/
def dieClk : Nat := 48
/-- Clks in a microsecond (R5). -/
def usClk : Nat := 1200

/-- The step of a ring from die number `x` of package `p`: the ring taken and the next die number. A wrapped bridge turns
the traffic into the other ring (R346); a die between two wrapped bridges goes nowhere. -/
def ringStep (s : State) (p x r : Nat) : Option (Nat × Nat) :=
  let broken (b : Nat) : Bool := (s.die (16 * p + b)).brgWrapped
  let out (r : Nat) : Nat := if r = 0 then x else (x + 15) % 16
  let go (r : Nat) : Nat × Nat := (r, if r = 0 then (x + 1) % 16 else (x + 15) % 16)
  if !broken (out r) then some (go r) else if !broken (out (1 - r)) then some (go (1 - r)) else none

/-- The hops from die number `x` to `t` leaving on ring `r`, or none. -/
def ringHops (s : State) (p t : Nat) : Nat → Nat → Nat → Option Nat
  | 0, _, _ => none
  | fuel + 1, x, r =>
    if x = t then some 0
    else match ringStep s p x r with
      | none => none
      | some (r', y) => (ringHops s p t fuel y r').map (· + 1)

/-- The hops on ring A and on ring B between two die numbers of a package (R9, R346). -/
def hopsAB (s : State) (p x t : Nat) : Option Nat × Option Nat :=
  (ringHops s p t 32 x 0, ringHops s p t 32 x 1)

/-- The route between two die numbers: the ring of the first hop and the hops. Fewer hops win, ring A on a tie (R9); at
the ends of wrapped rings both counts name the one live bridge (R346). -/
def ringRoute (s : State) (p x t : Nat) : Option (Nat × Nat) :=
  if x = t then some (0, 0) else
  let first (r : Nat) : Nat := match ringStep s p x r with
    | some (r', _) => r'
    | none => r
  match hopsAB s p x t with
  | (some a, some b) => if a ≤ b then some (first 0, a) else some (first 1, b)
  | (some a, none) => some (first 0, a)
  | (none, some b) => some (first 1, b)
  | (none, none) => none

/-- The rings of a package are wrapped (Table 16-6 WRAP). -/
def wrapped (s : State) (p : Nat) : Bool := (List.range 16).any fun d => (s.die (16 * p + d)).brgWrapped

/-- Why a die is unreachable from another (R348, R367), as the CAUSE of Table 17-7, or none. -/
def unreach (s : State) (src dst : Nat) : Option Nat :=
  let p := pkgOfDie src
  let q := pkgOfDie dst
  let k := dst % 16
  if (s.die dst).dead then some 3
  else if p = q then (if (ringRoute s p (src % 16) k).isSome then none else some 1)
  else if !s.domain.contains q then some 1
  else if (ringRoute s p (src % 16) k).isNone then some 1
  else if (s.link (32 * (16 * p + k) + q)).up && (s.link (32 * dst + p)).up then none
  else some 1

/-- Whether a bridge direction may carry a flit: its bridge is not declared failed (R346). -/
def bridgeOk (s : State) (dir : Nat) : Bool :=
  let d := dir / 2
  let b := if dir % 2 = 0 then d else 16 * (d / 16) + (d + 15) % 16
  !(s.die b).brgFailed

/-- The clks after which a wake that is not complete is an error (R248). -/
def wakeLimit : Nat := 20 * usClk

/-- Asks for a grant on a direction (R11): an active one grants in this clk, or in the next after a grant; an idle or sleeping one
is woken first (R247, R344), or its wake fails (R248). -/
def pumpDir (s : State) (dir : Nat) : State :=
  let x := s.dir dir
  if x.pass = [] ∧ x.inj = [] then s
  else if !bridgeOk s dir then s
  else if x.state = 0 then (if s.posted (.bridgeFlit dir 0) then s else s.post (if x.last = s.clk then 1 else 0) (.bridgeFlit dir 0))
  else if x.state = 3 then s
  else
    let lim := if x.state = 1 then 240 else 4 * usClk
    let (v, s) := s.chooseBelow (lim + 2)
    let s := s.modDir dir fun y => { y with state := 3 }
    if lim < v then s.post wakeLimit (.linkWakeError dir) else s.post (max v 1) (.linkWakeComplete dir)

/-- Asks the sender of a link to send (Machine/Fabric.lean): the timer event of R359 looks at the waiting traffic. -/
def pumpLink (s : State) (l : Nat) : State :=
  if s.agenda.any fun x => x.1 = s.clk ∧ x.2 = .idleFlitTimer l then s else s.post 0 (.idleFlitTimer l)

/-- The data bytes that a message carries. -/
def evBytes (s : State) : Ev → Nat
  | .ringStepArrival st => 4 * st.data.length
  | .accsAddOnStore o => (s.op o).acts.foldl (fun n r => n + r.length) 0
  | .drainArrival _ _ _ sums _ _ => 4 * sums.length
  | .evx _ _ dirty | .holderAnswer _ _ _ dirty => 32 * ((dirty.getLsbD 0).toNat + (dirty.getLsbD 1).toNat)
  | _ => 0

/-- The flits of a message where one carries `n` data bytes: 64 on a bridge (R11), 32 on a link (R358; notes/assumptions/55.md). -/
def msgFlits (s : State) (n : Nat) (m : Msg) : Nat := max 1 ((evBytes s m.ev + n - 1) / n)

/-- Moves message `id` on from the die where it stands: to its event, to a link, or to an outgoing direction, where it
counts as passing traffic or as injected. A request that must cross a plane while its die re-plans is held there
(R363). A message without a route stays where it is (R348). -/
def forward (s : State) (id : Nat) (passing : Bool) : State :=
  match s.msgs.find? fun m => m.1 = id with
  | none => s
  | some (_, m) =>
    let p := pkgOfDie m.here
    if m.here = m.dst then
      { s with msgs := kvDel s.msgs id }.post m.delay m.ev
    else if pkgOfDie m.dst ≠ p ∧ m.here % 16 = m.via then
      let l := 32 * m.here + pkgOfDie m.dst
      if m.vc = 0 ∧ (s.die m.here).planPhase ≠ 0 then s.modDie m.here fun x => { x with heldTraffic := x.heldTraffic ++ [id] }
      else pumpLink (s.modLink l fun x => { x with waiting := x.waiting ++ [(m.vc, id)] }) l
    else
      let t := if pkgOfDie m.dst = p then m.dst % 16 else m.via
      match (if 2 ≤ m.ring ∨ wrapped s p then ringRoute s p (m.here % 16) t else some (m.ring, 0)) with
      | none => s
      | some (r, _) =>
        let dir := 2 * m.here + r
        let late := m.since = 0 ∧ ((s.dir dir).state ≠ 0 ∨ !bridgeOk s dir)
        let s : State := if late then { s with msgs := kvSet s.msgs id { m with since := s.clk + 1 } } else s
        pumpDir (s.modDir dir fun x =>
          if passing then { x with pass := x.pass ++ [id] } else { x with inj := x.inj ++ [id] }) dir

/-- Sends an event from one die to another by the rings' rule of R336: ring A or B while they are whole. -/
def sendOn (s : State) (src dst ring : Nat) (e : Ev) : State :=
  if src = dst then s.post dieClk e
  else
    let (id, s) := s.fresh
    let m : Msg := { here := src, dst := dst, via := dst % 16, ring := ring, delay := baseClk, ev := e }
    forward { s with msgs := kvSet s.msgs id m } id false

/-- Sends an event from one die to another (R9, R14). `vc` 0 is a request, which crosses at the number of its target die,
1 a reply, which crosses at the number of its own die, 2 ownership traffic. -/
def send (s : State) (src dst vc base : Nat) (own : Bool) (e : Ev) : State :=
  if src = dst then s.post base e
  else
    let (id, s) := s.fresh
    let m : Msg := { here := src, dst := dst, via := if vc = 1 then src % 16 else dst % 16, vc := vc,
                     delay := base, own := own, ev := e }
    forward { s with msgs := kvSet s.msgs id m } id false

/-- The unloaded latency of a read at a home (Table 9-1). -/
def readClk (s : State) (src dst : Nat) : Nat :=
  if src = dst then 144
  else if pkgOfDie src = pkgOfDie dst then
    180 + 12 * (match ringRoute s (pkgOfDie src) (src % 16) (dst % 16) with
      | some (_, h) => h
      | none => 0)
  else 432

/-- A request to a die (R9). -/
def sendReq (s : State) (src dst : Nat) (e : Ev) : State := send s src dst 0 baseClk false e
/-- A reply to a die (R9, R14). -/
def sendRep (s : State) (src dst : Nat) (e : Ev) : State := send s src dst 1 baseClk false e
/-- Ownership or racking traffic (R247). -/
def sendOwn (s : State) (src dst : Nat) (e : Ev) : State := send s src dst 2 baseClk true e

end Sys2Proof.Machine
end

