-- ==== Sys2Proof/Machine/Operands.lean ====
section
/-! DEFINITION. The operand forms: what an instruction's fields name (R33 to R37), the values they supply, immediates and
literals (R41, R115, R140), queue ports (R98 to R102), and the writing of a result. -/

namespace Sys2Proof.Machine

/-- A register that an instruction reads. -/
inductive RegRef where
  | g (r : Nat) (fe : Bool)
  | w (r : Nat)
  | p (k : Nat)
  | q (port : Nat)
  | fstat
  deriving DecidableEq, Repr

/-- The registers that a source field names (R33 to R35). -/
def fieldRefs (u : Bool) (t : BitVec 4) (k : FK) (v : BitVec 8) (fe : Bool) : List RegRef :=
  match k with
  | .src wd | .dst wd =>
    if u then (List.range (wd.n t)).map fun i => .w (v.toNat + i)
    else if 240 ≤ v.toNat then [.q (v.toNat - 240)]
    else (List.range (wd.n t)).map fun i => .g (v.toNat + i) fe
  | .pr => [.p v.toNat]
  | .wr => [.w v.toNat]
  | .wev => [.w v.toNat, .w (v.toNat + 1)]
  | _ => []

/-- D is read as a source: the data of ST (R197), the destination address of an engine's operation (Tables 14-3, 16-4, 17-9). -/
def dSource (x : Ins) : Bool :=
  match x.o with
  | .st | .cpy | .gath | .scat | .putn | .getn | .rrs | .rar | .rag | .rbc => true
  | .rho => x.ib 7
  | _ => false

/-- The registers an instruction reads, in field order A, B, C, and D where D is a source (R197, ST). BALLOC writes the
predicate of its A field (R270) and XLANE reads A of another warp (R183). -/
def insReads (x : Ins) : List RegRef :=
  let sh := x.shape
  let a := if x.o = .balloc ∨ x.o = .xlane then [] else fieldRefs x.f.u x.f.t sh.a x.f.a (x.f.fe.getLsbD 0)
  let b := fieldRefs x.f.u x.f.t sh.b x.f.b (x.f.fe.getLsbD 1)
  let c := fieldRefs x.f.u x.f.t sh.c x.f.c (x.f.fe.getLsbD 2)
  let d := if dSource x then fieldRefs x.f.u x.f.t sh.d x.f.d false else []
  let extra : List RegRef := match x.o with
    | .call | .callx | .ret => [.w 60, .w 61]
    | .movs => if x.f.imm = 0x0D then [.fstat] else []
    | .cpy => if x.mb 7 then [] else (List.range 5).map fun i => .g (x.f.c.toNat + 1 + i) (x.f.fe.getLsbD 2)
    | _ => []
  a ++ b ++ c ++ d ++ extra

/-- The highest g register that an instruction's fields name, if any (R36). -/
def insTopG (x : Ins) : Nat :=
  let sh := x.shape
  let top (k : FK) (v : BitVec 8) : Nat := match k with
    | .src wd | .dst wd => if x.f.u || 240 ≤ v.toNat then 0 else v.toNat + wd.n x.f.t
    | .gx => v.toNat + 1
    | _ => 0
  -- the strides of CPY, the fragments of MMA (Tables 14-3, 15-4)
  let more := match x.o with
    | .cpy => if x.mb 7 then 0 else x.f.c.toNat + 6
    | .mma => x.f.b.toNat + (if x.ifld 16 4 = 5 ∨ x.ifld 16 4 = 6 then 32 else 16)
    | _ => 0
  max more (max (max (top sh.d x.f.d) (top sh.a x.f.a)) (max (top sh.b x.f.b) (top sh.c x.f.c)))

/-! ### Queue ports -/

/-- The entries that a source port holds (R98, R102). -/
def portEntries (s : State) (w port : Nat) : List (Word × Nat) :=
  if port < 8 then kvGet [] (s.core (coreOfWarp w)).q port
  else if port = 8 then (s.warp w).hand.q8
  else if port = 10 then (s.warp w).hand.q10
  else []

/-- A port with its entries replaced. -/
def setPort (s : State) (w port : Nat) (l : List (Word × Nat)) : State :=
  if port < 8 then s.modCore (coreOfWarp w) fun c => { c with q := kvSet c.q port l }
  else s.modWarp w fun x => { x with hand := if port = 8 then { x.hand with q8 := l } else { x.hand with q10 := l } }

/-- A port with its head entry taken. -/
def popPort (s : State) (w port : Nat) : State :=
  let s := setPort s w port ((portEntries s w port).drop 1)
  if port < 8 then s.modCore (coreOfWarp w) fun c => { c with qpop := kvSet c.qpop port (s.clk + 1) } else s

/-- The entries that a pop may take in this clk: those pushed in an earlier clk (R100). -/
def popable (s : State) (w port : Nat) : List (Word × Nat) := (portEntries s w port).filter fun e => e.2 < s.clk

/-- The partner warp of a hand-off port on a die: the warp with the same number in the cohort of the same launch with the
same place in its span, which has bound the group (R333). -/
def partnerOn (s : State) (w die : Nat) : Option Nat :=
  let h := s.cohort (coreOfWarp w)
  let g := (s.warp w).hand.group
  (s.cores.filterMap fun c =>
    match c.2.cohort with
    | some k =>
      let v := 512 * c.1 + w % 512
      if dieOfCore c.1 = die ∧ k.launch = h.launch ∧ k.inSpan = h.inSpan ∧ w % 512 < k.warps
         ∧ (s.warp v).hand.bound ∧ (s.warp v).hand.group = g then some v else none
    | none => none).head?

/-- The die of the partner to which a port leads or from which it comes: q8 and q11 the previous rank, q9 and q10 the
next (R102). -/
def portDie (s : State) (w port : Nat) : Nat :=
  if port = 8 ∨ port = 11 then (s.warp w).hand.prev else (s.warp w).hand.next

/-- The queue-binding fault (R102, R333): an unbound port, the wrong direction, or a partner's die dead or unreachable. -/
def bindFault (s : State) (w port : Nat) (push : Bool) : Bool :=
  decide (8 ≤ port) &&
    (!(s.warp w).hand.bound || (push && (port = 8 || port = 10)) || (!push && (port = 9 || port = 11))
      || (unreach s (dieOfCore (coreOfWarp w)) (portDie s w port)).isSome)

/-- A push finds room (R98, R99, R333); the pops of the clk stand before it (R100, Machine/Sched.lean). -/
def pushRoom (s : State) (w port : Nat) : Bool :=
  if port < 8 then decide ((portEntries s w port).length < 64)
  else
    match partnerOn s w (portDie s w port) with
    | none => false
    | some v =>
      if (s.core (coreOfWarp v)).saving.isSome then false else
      let sent := if port = 9 then (s.warp w).hand.sent9 else (s.warp w).hand.sent11
      decide ((portEntries s v (if port = 9 then 8 else 10)).length + sent < 64)

/-- Pushes one entry (R98); an entry of a hand-off port travels to the partner with the clk of its push, which numbers the entries of the port
(R333, R347). -/
def pushPort (s : State) (w port : Nat) (v : Word) : State :=
  if port < 8 then
    (setPort s w port (portEntries s w port ++ [(v, s.clk)])).modCore (coreOfWarp w) fun c =>
      { c with qpush := kvSet c.qpush port (s.clk + 1) }
  else
    match partnerOn s w (portDie s w port) with
    | none => s
    | some p =>
      let s := s.modWarp w fun x => { x with hand :=
        if port = 9 then { x.hand with sent9 := x.hand.sent9 + 1 } else { x.hand with sent11 := x.hand.sent11 + 1 } }
      let src := dieOfCore (coreOfWarp w)
      sendOn s src (portDie s w port) (if port = 9 then 0 else 1) (.handoffEntryArrival p (if port = 9 then 8 else 10) w v
        (s.core (coreOfWarp p)).epoch (s.core (coreOfWarp w)).epoch s.clk)

/-! ### Values -/

/-- The number held in consecutive g registers, lowest first. -/
def gNum (s : State) (t r : Nat) : Nat → Nat
  | 0 => 0
  | n + 1 => (s.greg t r).v.toNat + 2 ^ 32 * gNum s t (r + 1) n

/-- The number held in consecutive w registers, lowest first. -/
def wNum (s : State) (w r : Nat) : Nat → Nat
  | 0 => 0
  | n + 1 => (s.wreg w r).toNat + 2 ^ 32 * wNum s w (r + 1) n

/-- The immediate of an operand (R115, R140): as it stands for 32 bits; for 64 bits sign-extended under .i32 and .i64,
an f32 pattern widened under .f64, zero-extended otherwise. -/
def immNum (x : Ins) (wide : Bool) : Nat :=
  let v := match x.bLit with
    | some l => l
    | none => x.f.imm
  if !wide then v.toNat
  else if x.f.t = 7 then widen32 v.toNat
  else if x.f.t = 0 || x.f.t = 2 then (v.signExtend 64).toNat
  else v.toNat

/-- The registers that the B or C operand would take in its register form. -/
def plainWide (x : Ins) (c : Bool) : Bool :=
  let sh := { x with f := { x.f with m := x.f.m &&& 0x3F }, bLit := none }.shape
  match (if c then sh.c else sh.b) with
  | .src w => decide (w.n x.f.t = 2)
  | _ => false

/-- The value of a field that is no queue port. -/
def fieldNum (s : State) (u : Bool) (t : BitVec 4) (th : Nat) (k : FK) (v : BitVec 8) : Nat :=
  match k with
  | .src wd | .dst wd => if u then wNum s (th / 32) v.toNat (wd.n t) else gNum s th v.toNat (wd.n t)
  | .wr => (s.wreg (th / 32) v.toNat).toNat
  | .wev => wNum s (th / 32) v.toNat 2
  | .pr => (s.pred th v.toNat).toNat
  | _ => 0

/-- The operands of a thread with the state after its pops. `lackA` to `lackC` mark an operand whose port holds no entry for it. -/
structure Vals where
  a : Nat
  b : Nat
  c : Nat
  popped : Bool
  st : State
  lackA : Bool := false
  lackB : Bool := false
  lackC : Bool := false

/-- The outcome of reading the operands: the empty-register or queue-binding fault, a drop at a port with the operands that are
known all the same, or the values (R97, R99, R102). -/
inductive Gather where
  | fault (cause : Nat)
  | drop (port : Nat) (v : Vals)
  | vals (v : Vals)

/-- One operand field read, popping `st` where it names a queue port. -/
def takeField (s st : State) (x : Ins) (th : Nat) (k : FK) (v : BitVec 8) (imm : Option Nat) : Nat × State :=
  match k with
  | .src _ =>
    if !x.f.u && 240 ≤ v.toNat then
      let port := v.toNat - 240
      match popable st (th / 32) port with
      | e :: _ => (e.1.toNat, popPort st (th / 32) port)
      | [] => (0, st)
    else (fieldNum s x.f.u x.f.t th k v, st)
  | .z => (imm.getD 0, st)
  | _ => (fieldNum s x.f.u x.f.t th k v, st)

/-- The port that the D field pushes, if it names one. -/
def pushOf (x : Ins) : Option Nat :=
  match x.shape.d with
  | .dst _ => if !x.f.u && 240 ≤ x.f.d.toNat then some (x.f.d.toNat - 240) else none
  | _ => none

/-- The first port whose pops find too few entries, counting earlier pops of the instruction (R99). -/
def shortPort (s : State) (w : Nat) : List Nat → List Nat → Option Nat
  | [], _ => none
  | p :: r, seen =>
    if (popable s w p).length ≤ (seen.filter (· = p)).length then some p else shortPort s w r (p :: seen)

/-- A field names a port that holds no entry for it. -/
def lacks (st : State) (x : Ins) (th : Nat) (k : FK) (v : BitVec 8) : Bool :=
  match k with
  | .src _ => !x.f.u && decide (240 ≤ v.toNat) && (popable st (th / 32) (v.toNat - 240)).isEmpty
  | _ => false

/-- The operands of a thread, with the pops made in field order A, B, C (R99). -/
def readOperands (s : State) (x : Ins) (th : Nat) (popped : Bool) : Vals :=
  let sh := x.shape
  let (a, s1) := takeField s s x th sh.a x.f.a none
  let bi := if x.bLit.isSome || x.mb 7 then some (immNum x (plainWide x false)) else none
  let (b, s2) := takeField s s1 x th sh.b x.f.b bi
  let ci := if x.mb 6 then some (immNum x (plainWide x true)) else none
  let (c, s3) := takeField s s2 x th sh.c x.f.c ci
  { a := a, b := b, c := c, popped := popped, st := s3,
    lackA := lacks s x th sh.a x.f.a, lackB := lacks s1 x th sh.b x.f.b, lackC := lacks s2 x th sh.c x.f.c }

/-- Reads the operands of a thread (R97 to R102). DEDUCED (log 83): the queue-binding fault comes before the empty-register
fault. -/
def gather (s : State) (x : Ins) (th : Nat) : Gather :=
  let w := th / 32
  let refs := insReads x
  let ports := refs.filterMap fun r => match r with
    | .q p => some p
    | _ => none
  if ports.any (fun p => bindFault s w p false) || (match pushOf x with
      | some p => bindFault s w p true
      | none => false) then .fault 14
  else if refs.any fun r => match r with
      | .g k fe => fe && !(s.greg th k).full
      | _ => false then .fault 13
  else
    let v := readOperands s x th (!ports.isEmpty)
    match shortPort s w ports [] with
    | some p => .drop p { v with st := s }
    | none => .vals { v with lackA := false, lackB := false, lackC := false }

/-! ### Results -/

/-- Writes the result of a thread to its destination: `n` registers of D, readable at `rdy`; a queue port is pushed;
after a pop the destination is a long-latency one, full 8 clks later (R101). -/
def putDest (s : State) (x : Ins) (th : Nat) (n v : Nat) (popped : Bool) (rdy : Nat) : State :=
  let d := x.f.d.toNat
  if x.f.u then s.setWs (th / 32) d v rdy n
  else if 240 ≤ d then pushPort s (th / 32) (d - 240) (BitVec.ofNat 32 v)
  else if popped then
    let (tag, s) := s.fresh
    (s.emptyG th d tag n).post 8 (.producerLanding
      { thread := th, reg := d, n := n, tag := tag, value := BitVec.ofNat 128 v,
        epoch := (s.core (coreOfThread th)).epoch, req := 0 })
  else s.setGs th d v rdy n

end Sys2Proof.Machine
end

