-- ==== Sys2Proof/Machine/Run.lean ====
section
/-! DEFINITION. How a lane executes a run (R73 to R79, R82, R83, R91): the performing threads one after another, an
instruction that acts once for a sub-run, and what ends a run. A step executes one thread of a run, or one whole action
of a sub-run; `Lane.run` holds the rest. -/

namespace Sys2Proof.Machine

/-- What one thread, or one sub-run, does with its instruction: it performs and advances; it performs and its program
counter is already set; it performs and is held; it performs nothing and waits to try again (R77, R280); it holds its
lane (R194); it ends the run with what it did; it raises a fault with the access code of Table 18-6 and $xaddr. -/
inductive TOut where
  | ok (s : State)
  | jump (s : State)
  | held (s : State)
  | stay (h : Hold) (s : State)
  | wait (s : State)
  | last (s : State)
  | fault (cause acc : Nat) (addr : Dword) (s : State)

/-- The guard of a thread (R32): G names a predicate and negates it. -/
def guardTrue (s : State) (x : Ins) (t : Nat) : Bool :=
  s.pred t (x.f.g.toNat % 8) != x.f.g.getLsbD 3

/-- The warp-collective instructions (Table 4-2). -/
def isCollective (x : Ins) : Bool :=
  let n := x.o.code
  x.f.u || (0x0C ≤ n && n ≤ 0x10) || n = 0x22 || n = 0x23 || (0x70 ≤ n && n ≤ 0x78) || (0xA0 ≤ n && n ≤ 0xA8)
    || n = 0x8E || n = 0x8F || (0xB0 ≤ n && n ≤ 0xB3) || (0xC0 ≤ n && n ≤ 0xCA) || (0xD0 ≤ n && n ≤ 0xD6)

/-- The clks for which a performing thread occupies its lane: c of Table 7-4 (R142), 1 for every other instruction. -/
def occupancy (x : Ins) : Nat :=
  let n := x.o.code
  let t := x.f.t.toNat
  let src := (x.f.m >>> 5).toNat
  if n < 0x50 ∨ 0x6B < n then 1
  else if n = 0x5A ∨ n = 0x5B then (if t = 7 then 16 else 4)
  else if 0x5C ≤ n ∧ n ≤ 0x61 then (if t = 4 then 1 else 2)
  else if n = 0x63 then (if t = 7 ∨ (t = 4 ∧ src = 0) then 4 else 1)
  else if n = 0x64 then (if t = 2 ∨ t = 3 ∨ src = 1 then 4 else 1)
  else if n = 0x65 then (if t = 7 ∨ src = 2 ∨ src = 3 then 4 else 1)
  else if n = 0x56 ∨ n = 0x57 ∨ n = 0x59 ∨ n = 0x66 ∨ 0x68 ≤ n then 1
  else if t = 7 then 4 else 1

/-- Adds to a performance counter of a core (R414). -/
def pmcAdd (s : State) (c sel n : Nat) : State :=
  s.modCore c fun k => { k with pmc := kvSet k.pmc sel (kvGet 0 k.pmc sel + n) }

/-- Passes over the threads at the head of a run that have left it or whose guard is false: these advance at no cost
(R32, R75). -/
def drain (x : Ins) (s : State) : List Nat → State × List Nat
  | [] => (s, [])
  | t :: r =>
    if !s.alive t then drain x s r
    else if guardTrue s x t then (s, t :: r)
    else drain x (s.advance t x.size) r

/-- As `drain`; the threads of a warp-collective instruction are drained up to the end of the sub-run of warp `w` (R83). -/
def drainSub (x : Ins) (s : State) (w : Nat) (l : List Nat) : State × List Nat :=
  if isCollective x then
    let d := drain x s (l.takeWhile fun u => u / 32 = w)
    (d.1, d.2 ++ l.dropWhile fun u => u / 32 = w)
  else drain x s l

/-- The threads of a list that perform the instruction, as far as their guards tell. -/
def performers (x : Ins) (s : State) (l : List Nat) : List Nat := l.filter fun u => s.alive u && guardTrue s x u

/-- The lane with its run replaced. -/
def setRun (s : State) (r : Option Run) : State := s.modLane s.cur fun l => { l with run := r }

/-- What an instruction adds at the end of a run, or of a sub-run where it is warp-collective, for a warp: the warp, the mask of
the slots that performed, the clk after the run or sub-run (R83, R173, R387). -/
abbrev EndFn := State → Nat → Word → Nat → State

/-- No effect at the end of a run. -/
def noEnd : EndFn := fun s _ _ _ => s

/-- The run ends: the lane is free from clk `till`, at least one clk after the run began (R74, R75). -/
def closeRun (s : State) (r : Run) (till : Nat) : State :=
  s.modLane s.cur fun l => { l with run := none, freeAt := max till (r.begun + 1), ended := max till (r.begun + 1) }

/-- The warps whose threads performed in the run so far, with the slots. -/
def Run.over (r : Run) : List (Nat × Word) := if r.done = 0 then r.ends else r.ends ++ [(r.warp, r.done)]

/-- The effects at the end of a run or sub-run, for its warps in run order. -/
def finish (endf : EndFn) (s : State) (r : Run) (till : Nat) : State := r.over.foldl (fun s e => endf s e.1 e.2 till) s

/-- The run of the current lane with its head at a warp: a new warp has no performed slots yet, and its hand-off ports are others
(R102). -/
def atWarp (r : Run) (t : Nat) : Run :=
  if r.warp = t / 32 then r
  else { r with warp := t / 32, done := 0, ends := r.over, slots := 0, ports := r.ports.filter fun h => match h with
    | .queue p _ _ => decide (p < 8)
    | _ => true }

/-- The clk after a sub-run: one in which no thread performed takes one clk (R74, R83). -/
def subEnd (x : Ins) (s : State) (r : Run) (till : Nat) : Nat :=
  if isCollective x && decide (r.done = 0) then max till (s.clk + 1) else till

/-- The run goes on with the threads `rest` at clk `till`, or ends. A sub-run that ends has its effects first. -/
def goOn (x : Ins) (endf : EndFn) (s : State) (r : Run) (rest : List Nat) (till : Nat) : State :=
  let (s, rest) := drainSub x s r.warp rest
  match rest with
  | [] => closeRun (finish endf s r (subEnd x s r till)) r (subEnd x s r till)
  | t :: _ =>
    if t / 32 = r.warp then setRun s (some { r with threads := rest, clk := till })
    else if isCollective x then
      setRun (finish endf s r (subEnd x s r till)) (some { atWarp r t with threads := rest, clk := subEnd x s r till, ends := [] })
    else setRun s (some { atWarp r t with threads := rest, clk := till })

/-- The threads left of a run at the beginning of a slice, up to the sub-run of its head (R75, R83). -/
def drainRun (x : Ins) (s : State) (r : Run) : State × List Nat := drainSub x s (r.threads.headD 0 / 32) r.threads

/-- A fault ends the run (R91): the warp of the faulting thread traps, and $xdone holds the slots that performed. -/
def faultRun (s : State) (r : Run) (t cause acc : Nat) (addr : Dword) : State :=
  let till := max s.clk (r.begun + 1)
  let w := t / 32
  takeTrap (closeRun s r s.clk) w
    { cause := cause, slot := t % 32, acc := acc, arg := 0, xpc := r.pc, xaddr := addr,
      done := if r.warp = w then r.done else 0 } till

/-- One more than the clk since which a run has waited for a translation or an entry (R194). -/
def waitSince (s : State) (r : Run) : Nat := if r.since = 0 then s.clk + 1 else r.since

/-- The issue-stall clks of a thread that now performs (R194, R414). -/
def stallAdd (s : State) (c : Nat) (r : Run) : State := if r.since = 0 then s else pmcAdd s c 7 (s.clk + 1 - r.since)

/-- What the checks of an instruction answer for a thread that a queue port drops: a fault, or the wait for a translation that
they need, comes before the drop (R99). `known` says that the operands they read are known. -/
def dropAt (s : State) (port : Nat) (known : Bool) (checks : TOut) : TOut :=
  match known, checks with
  | true, .fault c acc a s' => .fault c acc a s'
  | true, .wait s' => .wait s'
  | _, _ => .stay (.queue port true s.clk) s

/-- The queue port whose drop drops the later threads of a run (R77). -/
def queueHold : Hold → Option Hold
  | .queue p o a => some (.queue p o a)
  | _ => none

/-- A slice of a run of which no thread is left, or none of the sub-run of its head: the run or the sub-run is over. -/
def passOver (x : Ins) (endf : EndFn) (s : State) (r : Run) (l : List Nat) : State :=
  goOn x endf s { atWarp r (r.threads.headD 0) with walk := none } l s.clk

/-- One thread of the run executes the instruction: the first thread left whose guard is true (R74, R91). `cost` is the
number of clks it occupies the lane; `keep` the copy slots that its sub-run takes, where it begins with this thread (R285). -/
def perThreadKeep (keep : Nat) (x : Ins) (cost : Nat) (endf : EndFn) (body : Nat → State → TOut) (s : State) : Out :=
  match (s.lane s.cur).run with
  | none => .fault .noRun
  | some r0 =>
    .next <|
      match drainRun x s r0 with
      | (s, []) => passOver x endf s r0 []
      | (s, t :: rest) =>
        if isCollective x ∧ t / 32 ≠ r0.threads.headD 0 / 32 then passOver x endf s r0 (t :: rest) else
        let r := { atWarp r0 t with walk := none }
        let r := { r with slots := max keep r.slots - 1 }
        let did (s : State) : State :=
          let r1 := r
          let r := { r with count := r.count + 1, since := 0, done := r.done ||| slotBit (t % 32) }
          goOn x endf (pmcAdd (stallAdd s (coreOfThread t) r1) (coreOfThread t) 2 1) r rest (s.clk + cost)
        match r.ports with
        | h :: _ => goOn x endf (s.hold t h) r rest s.clk
        | [] =>
          match body t s with
          | .ok s => did (s.advance t x.size)
          | .jump s => did s
          | .held s => did s
          | .stay h s =>
            goOn x endf (s.hold t h) { r with ports := (queueHold h).toList } rest s.clk
          | .wait s => setRun s (some { r with threads := t :: rest, wait := true, since := waitSince s r })
          | .last s' => closeRun s' r (s.clk + cost * (performers x s (t :: rest)).length)
          | .fault c acc a s => faultRun s r t c acc a

/-- One thread of the run executes an instruction that takes no copy slot. -/
def perThread (x : Ins) (cost : Nat) (endf : EndFn) (body : Nat → State → TOut) (s : State) : Out := perThreadKeep 0 x cost endf body s

/-- The whole sub-run executes the instruction once, in the clk of its first thread (R78, R83): `body` receives the
performing threads in run order. `cost` gives the sub-run's occupancy from their number. -/
def perSubrun (x : Ins) (cost : Nat → Nat) (endf : EndFn) (body : List Nat → State → TOut) (s : State) : Out :=
  match (s.lane s.cur).run with
  | none => .fault .noRun
  | some r0 =>
    .next <|
      match drainRun x s r0 with
      | (s, []) => passOver x endf s r0 []
      | (s, t :: more) =>
        if isCollective x ∧ t / 32 ≠ r0.threads.headD 0 / 32 then passOver x endf s r0 (t :: more) else
        let r := { atWarp r0 t with walk := none }
        let mine := (t :: more).filter fun u => u / 32 = t / 32
        let rest := more.filter fun u => u / 32 ≠ t / 32
        let ps := mine.filter fun u => s.alive u && guardTrue s x u
        let s := (mine.filter fun u => s.alive u && !guardTrue s x u).foldl (fun s u => s.advance u x.size) s
        let did (s : State) : State :=
          let r1 := r
          let r := { r with count := r.count + ps.length, since := 0, done := slotsMask (ps.map (· % 32)) }
          goOn x endf (pmcAdd (stallAdd s (coreOfThread t) r1) (coreOfThread t) 2 ps.length) r rest (s.clk + max (cost ps.length) 1)
        match body ps s with
        | .ok s => did (ps.foldl (fun s u => s.advance u x.size) s)
        | .jump s => did s
        | .held s => did s
        | .stay h s => goOn x endf (ps.foldl (fun s u => s.hold u h) s) r rest s.clk
        | .wait s => setRun s (some { r with threads := t :: more, wait := true, since := waitSince s r })
        | .last s => closeRun s r (s.clk + 1)
        | .fault c acc a s => faultRun s r t c acc a

/-- As `perThread`, for an instruction whose sub-run is held whole before any of its threads performs while `need` names a
wait (R285); once begun, it keeps the slots of those yet to issue. -/
def perThreadHeld (x : Ins) (need : List Nat → State → Option Hold) (body : Nat → State → TOut) (s : State) : Out :=
  match (s.lane s.cur).run with
  | none => .fault .noRun
  | some r0 =>
    match drainRun x s r0 with
    | (_, []) => perThread x 1 noEnd body s
    | (s', t :: more) =>
      if isCollective x ∧ t / 32 ≠ r0.threads.headD 0 / 32 then perThread x 1 noEnd body s else
      let r := { atWarp r0 t with walk := none }
      let mine := (t :: more).filter fun u => u / 32 = t / 32
      let ps := mine.filter fun u => s'.alive u && guardTrue s' x u
      match (if r.done = 0 ∧ r.slots = 0 then need ps s' else none) with
      | none => perThreadKeep (if r.done = 0 ∧ r.slots = 0 then ps.length else 0) x 1 noEnd body s
      | some h =>
        let s' := (mine.filter fun u => s'.alive u && !guardTrue s' x u).foldl (fun s u => s.advance u x.size) s'
        .next (goOn x noEnd (ps.foldl (fun s u => s.hold u h) s') r (more.filter fun u => u / 32 ≠ t / 32) s.clk)

/-- The clk from which a result of the current instruction is readable (Table 4-1, R78, R142). -/
def State.rdy (s : State) (cost : Nat) : Nat := s.clk + cost + 5

end Sys2Proof.Machine
end

