-- ==== Sys2Proof/Machine/Alu.lean ====
section
/-! DEFINITION. The shared course of an instruction that computes a result from its operands: the operands are read, the
result is written to a register, a queue port or a predicate, and exception flags are raised (R99 to R101, R113, R138). -/

namespace Sys2Proof.Machine

/-- What such an instruction computes: the value of D, a predicate, flags. -/
structure AluOut where
  v : Nat := 0
  p : Option (Nat × Bool) := none
  flags : Word := 0
  deriving DecidableEq, Repr

/-- The number of registers the D field names as a destination, 0 for none. -/
def destN (x : Ins) : Nat :=
  match x.shape.d with
  | .dst w => w.n x.f.t
  | _ => 0

/-- The instruction accumulates into $fstat: a floating-point one (R138), or SCAN, REDW or REDWX on .f32 (R180, R181). -/
def raisesFlags (x : Ins) : Bool :=
  let n := x.o.code
  (0x50 ≤ n && n ≤ 0x6B) || (0x72 ≤ n && n ≤ 0x74 && x.f.t == 4)

/-- ORs the flags of an instruction that accumulates into $fstat. -/
def putFlags (s : State) (x : Ins) (t : Nat) (f : Word) (rdy : Nat) : State := if raisesFlags x then s.orFlags t f rdy else s

/-- Writes what was computed for a thread. DEDUCED (log 84): after a pop a predicate is readable 8 clks later, as R101 has it
for a register. -/
def putOut (s : State) (x : Ins) (cost t : Nat) (popped : Bool) (o : AluOut) : State :=
  let s := match o.p with
    | some (k, v) => s.setP t k v (if popped then s.clk + 8 else s.rdy cost)
    | none => s
  let s := if destN x = 0 then s else putDest s x t (destN x) o.v popped (s.rdy cost)
  putFlags s x t o.flags (s.rdy cost)

/-- One thread of a computing instruction (R99): faults first, then the drop at a port, then the effects. -/
def aluThread (fn : Ins → Nat → Nat → Nat → AluOut) (x : Ins) (t : Nat) (s : State) : TOut :=
  match gather s x t with
  | .fault c => .fault c 0 0 s
  | .drop p _ => .stay (.queue p true s.clk) s
  | .vals v =>
    match (pushOf x).filter fun p => !pushRoom v.st (t / 32) p with
    | some p => .stay (.queue p false s.clk) s
    | none => .ok (putOut v.st x (occupancy x) t v.popped (fn x v.a v.b v.c))

/-- A uniform computing instruction (R38, R78): once for the sub-run, on w registers; flags reach every thread (R161). -/
def aluUniform (fn : Ins → Nat → Nat → Nat → AluOut) (x : Ins) (ps : List Nat) (s : State) : TOut :=
  let t := ps.headD 0
  match gather s x t with
  | .fault c => .fault c 0 0 s
  | .drop p _ => .stay (.queue p true s.clk) s
  | .vals v =>
    let o := fn x v.a v.b v.c
    let s := if destN x = 0 then s else putDest s x t (destN x) o.v false (s.rdy (occupancy x))
    .ok (ps.foldl (fun s u => putFlags s x u o.flags (s.rdy (occupancy x))) s)

/-- A computing instruction, per thread or uniform. -/
def alu (fn : Ins → Nat → Nat → Nat → AluOut) (x : Ins) (s : State) : Out :=
  if x.f.u then perSubrun x (fun _ => occupancy x) noEnd (aluUniform fn x) s
  else perThread x (occupancy x) noEnd (aluThread fn x) s

end Sys2Proof.Machine
end

