-- ==== Sys2Proof/Machine/Ecc.lean ====
section
/-! DEFINITION. The check bits of a line (R233), the decoding of a read (R234) and the counting of errors (R428). Error
positions are symbols 0 to 71: data bytes, metadata bytes, then c3 to c0; symbol i stands at x^(71 - i). -/

namespace Sys2Proof.Machine

/-- A poisoned line's metadata word (R234). -/
def poisonWord : Word := 0xE000001F
/-- The metadata word of a line. -/
def metaOf (s : State) (line : Nat) : Word := kvGet 0 s.metaw line
/-- A line is poisoned. -/
def poisoned (s : State) (line : Nat) : Bool := metaOf s line = poisonWord

/-- Multiplication by α in GF(2^8) (R233). -/
def gfTwice (a : Nat) : Nat := if a < 128 then 2 * a else (2 * a) ^^^ 0x11D
/-- The product of two field elements, over the lowest `n` bits of the second. -/
def gfMulN : Nat → Nat → Nat → Nat
  | 0, _, _ => 0
  | n + 1, a, b => (if b % 2 = 1 then a else 0) ^^^ gfMulN n (gfTwice a) (b / 2)
/-- The product of two field elements. -/
def gfMul (a b : Nat) : Nat := gfMulN 8 a b
/-- The powers of α. -/
def gfExp : Nat → Nat
  | 0 => 1
  | n + 1 => gfTwice (gfExp n)
/-- A field element to a power. -/
def gfPow (a : Nat) : Nat → Nat
  | 0 => 1
  | n + 1 => gfMul a (gfPow a n)
/-- The inverse of a field element other than 0. -/
def gfInv (a : Nat) : Nat := gfPow a 254

/-- One symbol taken by the division by g(x); the remainder is c3, c2, c1, c0. g(x) = x^4 + 15x^3 + 54x^2 + 120x + 64. -/
def rsStep (r : Nat × Nat × Nat × Nat) (m : Nat) : Nat × Nat × Nat × Nat :=
  let f := m ^^^ r.1
  (r.2.1 ^^^ gfMul f 15, r.2.2.1 ^^^ gfMul f 54, r.2.2.2 ^^^ gfMul f 120, gfMul f 64)

/-- The check word of a message of 68 symbols (R233). -/
def checkBits (msg : List Byte) : Word :=
  let (c3, c2, c1, c0) := msg.foldl (fun r b => rsStep r b.toNat) (0, 0, 0, 0)
  BitVec.ofNat 32 (c3 * 2 ^ 24 + c2 * 2 ^ 16 + c1 * 2 ^ 8 + c0)

/-- The syndrome S_k of a list of errors. -/
def syndrome (es : List (Nat × Byte)) (k : Nat) : Nat :=
  es.foldl (fun a e => a ^^^ gfMul e.2.toNat (gfExp (k * (71 - e.1)))) 0

/-- One symbol error with the given syndromes. -/
def oneError (s0 s1 s2 s3 : Nat) : Option (Nat × Byte) :=
  ((List.range 72).find? fun i =>
    s1 = gfMul s0 (gfExp (71 - i)) && s2 = gfMul s0 (gfExp (2 * (71 - i))) && s3 = gfMul s0 (gfExp (3 * (71 - i)))).map
      fun i => (i, BitVec.ofNat 8 s0)

/-- Two symbol errors at given places with the given syndromes. -/
def twoAt (s0 s1 s2 s3 i j : Nat) : Option (List (Nat × Byte)) :=
  let a := gfExp (71 - i)
  let b := gfExp (71 - j)
  let e2 := gfMul (s1 ^^^ gfMul s0 a) (gfInv (a ^^^ b))
  let e1 := s0 ^^^ e2
  if e1 ≠ 0 ∧ e2 ≠ 0 ∧ s2 = (gfMul e1 (gfExp (2 * (71 - i))) ^^^ gfMul e2 (gfExp (2 * (71 - j))))
      ∧ s3 = (gfMul e1 (gfExp (3 * (71 - i))) ^^^ gfMul e2 (gfExp (3 * (71 - j)))) then
    some [(i, BitVec.ofNat 8 e1), (j, BitVec.ofNat 8 e2)]
  else none

/-- The correction of distance at most two, if a codeword lies that near. -/
def correction (es : List (Nat × Byte)) : Option (List (Nat × Byte)) :=
  let s0 := syndrome es 0
  let s1 := syndrome es 1
  let s2 := syndrome es 2
  let s3 := syndrome es 3
  if s0 = 0 ∧ s1 = 0 ∧ s2 = 0 ∧ s3 = 0 then some []
  else match oneError s0 s1 s2 s3 with
    | some e => some [e]
    | none => ((List.range 72).flatMap fun j => (List.range j).map fun i => (i, j)).findSome? fun p =>
        twoAt s0 s1 s2 s3 p.1 p.2

/-- What stays of the errors after the correction. -/
def residue (es fix : List (Nat × Byte)) : List (Nat × Byte) :=
  (List.range 72).filterMap fun i =>
    let x := (es ++ fix).foldl (fun a e => if e.1 = i then a ^^^ e.2 else a) (0 : Byte)
    if x = 0 then none else some (i, x)

/-- The message of a line: its data and its metadata word. -/
def lineMsg (s : State) (line : Nat) : List Byte := memRead s.mem (64 * line) 64 ++ wordBytes (metaOf s line)

/-- The check bits that HBM4E holds for a line that no cache holds. -/
def hbmCheck (s : State) (line : Nat) : Word :=
  (kvGet [] s.errs line).foldl (fun c e => if 68 ≤ e.1 then c ^^^ BitVec.ofNat 32 (e.2.toNat * 2 ^ (8 * (71 - e.1))) else c)
    (checkBits (lineMsg s line))

/-- The key of a status word: the stack of the package and its region of 64 MiB (R428). -/
def regionKey (pa : Nat) : Nat := 1024 * stackOf pa + natBits pa 26 10

/-- A field of an event record for memory events. -/
def memRec (kind pa : Nat) : EvRec := { kind := kind, detail := stackOf pa, addr := pa }

/-- Counts a corrected read (R428). -/
def countCorrected (s : State) (line : Nat) : State :=
  let p := pkgOfDie (homeDie (64 * line))
  let k := regionKey (64 * line)
  let g := s.pkg p
  if (kvGet [] g.counted k).contains line then s else
  let w := kvGet 0 g.region k
  let n := (w &&& 0xFF).toNat
  let w := if n < 255 then w + 1 else w
  let s := s.modPkg p fun g => { g with region := kvSet g.region k w, counted := kvSet g.counted k ((line :: kvGet [] g.counted k).take 16) }
  if n + 1 = g.errThresh ∧ !g.raised.contains k then
    (s.modPkg p fun g => { g with region := kvSet g.region k (w ||| 0x80000000), raised := k :: g.raised }).raise
      (homeDie (64 * line)) { kind := 0x10, detail := k, addr := 64 * line }
  else s

/-- Counts an uncorrectable read (R428). -/
def countUe (s : State) (line : Nat) : State :=
  let k := regionKey (64 * line)
  s.modPkg (pkgOfDie (homeDie (64 * line))) fun g =>
    let w := kvGet 0 g.region k
    { g with region := kvSet g.region k (if natBits w.toNat 8 16 < 65535 then w + 0x100 else w) }

/-- Counts an uncorrectable read and raises its record (R234, R428). -/
def countBad (s : State) (line : Nat) : State := (countUe s line).raise (homeDie (64 * line)) (memRec 0x11 (64 * line))

/-- Writes the residue of a wrong correction into a line (R233). -/
def applyResidue (s : State) (line : Nat) (es : List (Nat × Byte)) : State :=
  es.foldl (fun s e =>
    if e.1 < 64 then { s with mem := memSet s.mem (64 * line + e.1) (memGet s.mem (64 * line + e.1) ^^^ e.2) }
    else if e.1 < 68 then
      { s with metaw := kvSet s.metaw line (metaOf s line ^^^ BitVec.ofNat 32 (e.2.toNat * 2 ^ (8 * (e.1 - 64)))) }
    else s) s

/-- The lines a die's die cache has room for beside the addressable cellar of its spans (R187). -/
def cacheLines (x : Die) : Nat := 2 ^ 21 - x.spans.foldl (fun n p => n + p.bytes) 0 / 64

/-- The evictions by which the lines that a die cache holds leave it (R237, R238, R242). -/
def evictions (s : State) (d : Nat) : List Ev :=
  (s.die d).held.map (fun h => .homeAgentEviction h.1) ++ (s.die d).copies.map fun c =>
    if homeDie (64 * c.1) % 16 = d % 16 then .proxyEviction (pkgOfDie d) c.1 else .dieCacheEviction d c.1

/-- Makes room in a die cache that holds too much: a victim of the cache's own choice leaves it. -/
def trimCache (s : State) (d : Nat) : State :=
  let vs := (evictions s d).filter fun e => !s.posted e
  if vs.length ≤ cacheLines (s.die d) then s else
  let (v, s) := s.chooseBelow vs.length
  match vs[v]? with
  | some e => s.post 0 e
  | none => s

/-- Makes room for all that a die cache must give up (R187). -/
def trimWhole (s : State) (d : Nat) : State := (evictions s d).foldl (fun s _ => trimCache s d) s

/-- The home die cache holds a line (R237). -/
def heldAtHome (s : State) (line : Nat) : Bool := (s.die (homeDie (64 * line))).held.any fun e => e.1 = line

/-- A line gives no data: it is poisoned, or its codeword in HBM4E, which a read must decode, is uncorrectable (R234). -/
def badLine (s : State) (line : Nat) : Bool :=
  poisoned s line || (!heldAtHome s line && (correction (kvGet [] s.errs line)).isNone)

/-- The corrected symbols of a line that is read from HBM4E: counted, a wrong correction taken over (R233, R234). -/
def takeFix (s : State) (line : Nat) (es fix : List (Nat × Byte)) : State :=
  let s := if fix.isEmpty then s else countCorrected s line
  if (residue es fix).isEmpty then s else applyResidue s line (residue es fix)

/-- The home agent reads a line from HBM4E unless its die cache holds it (R237): false where it is uncorrectable. -/
def homeRead (s : State) (line : Nat) : State × Bool :=
  let h := homeDie (64 * line)
  if heldAtHome s line then (s, true) else
  let es := kvGet [] s.errs line
  match correction es with
  | none => (countBad s line, false)
  | some fix =>
    let chk := hbmCheck s line
    (trimCache ((takeFix s line es fix).modDie h fun x => { x with held := kvSet x.held line chk.toNat }) h, true)

/-- HOME_AGENT_EVICTION, R237: the line goes back to HBM4E with its metadata word and fresh check bits. -/
def evHomeAgentEviction (s : State) (line : Nat) : State :=
  let h := homeDie (64 * line)
  if heldAtHome s line then
    { s.modDie h fun x => { x with held := kvDel x.held line } with errs := kvDel s.errs line }
  else s

end Sys2Proof.Machine
end

