-- ==== Sys2Proof/Machine/Translate.lean ====
section
/-! DEFINITION. Address translation: the cellar window (R381), page-table walks (R378 to R380), the TLB of a core and the
translation cache of a die (R383). Access codes are those of Table 18-6: 1 read, 2 write, 3 read and write, 4 fetch. -/

namespace Sys2Proof.Machine

/-- What an address translates to: class (0 T, 1 G, 2 N, 3 B, 4 S), physical address or cellar key, and limit index. -/
structure Place where
  cls : Nat
  pa : Nat
  limit : Nat
  deriving DecidableEq, Repr, Inhabited

/-- The outcome of a translation. -/
inductive Xlate where
  | ok (p : Place)
  | miss
  | fault (code : Nat)
  deriving DecidableEq, Repr

/-! ### The cellar window (R187, R381) -/

/-- The span's cellar that a window address names, with its die, if it is resident and the offset lies inside it. -/
def windowSpan (s : State) (launch window va : Nat) : Option (Nat × SpanCellar) :=
  let off := va - window
  let x := off / 2 ^ 27 / 16
  let y := off / 2 ^ 27 % 16
  (s.dies.filterMap fun d =>
    (d.2.spans.find? fun p => decide (p.launch = launch ∧ p.strip = x ∧ p.span = y)).map fun p => (d.1, p)).head?

/-- Whether an address lies in the window. -/
def inWindow (window va : Nat) : Bool := decide (window ≤ va) && decide (va < window + 2 ^ 36)

/-- The translation of a window address (R381). -/
def windowXlate (s : State) (launch window va acc : Nat) : Xlate :=
  match windowSpan s launch window va with
  | some (d, p) =>
    let o := (va - window) % 2 ^ 27
    if p.bytes ≤ o then .fault (if acc = 4 then 3 else 4)
    else if acc = 4 then .fault 3
    else .ok { cls := 4, pa := 2 ^ 27 * d + p.base + o, limit := 0 }
  | none => .fault (if acc = 4 then 3 else 4)

/-! ### Walks (R378 to R380) -/

/-- The levels of the tree: the lowest index bit and the index width (Table 18-3). -/
def levels : List (Nat × Nat) := [(39, 17), (30, 9), (21, 9), (16, 5)]

/-- Step 2 of R380 on an entry: reserved bits, LEAF where it may stand, the fields of a non-leaf, those of a leaf. -/
def entryOk (e : Nat) (low : Nat) : Bool :=
  let leaf := e.testBit 62
  let cls := natBits e 59 3
  let lim := natBits e 4 8
  let adr := natBits e 12 40 * 4096
  natBits e 52 4 = 0 && natBits e 0 4 = 0
    && (if leaf then decide (low ≠ 39) && decide (cls < 4) && decide (adr % 2 ^ low = 0) && (decide (lim = 0) || decide (cls = 3))
        else decide (low ≠ 16) && decide (natBits e 56 6 = 0) && decide (lim = 0))

/-- The physical address of the entry that a walk reads in a table, at the level with index bits from `low` on, `w` wide. -/
def entryAddr (table va : Nat) (level : Nat × Nat) : Nat := table + 8 * natBits va level.1 level.2

/-- Steps 1 and 2 of R380 on an entry: TN, PT or the leaf, or the next table. -/
def entryStep (asid va low e : Nat) : (Nat ⊕ Trans) ⊕ Nat :=
  let adr := natBits e 12 40 * 4096
  if !e.testBit 63 then .inl (.inl 4)
  else if !entryOk e low then .inl (.inl 6)
  else if !e.testBit 62 then .inr adr
  else if !paOk adr then .inl (.inl 6)
  else .inl (.inr { asid := asid, vbase := va - va % 2 ^ low, size := 2 ^ low, pbase := adr, cls := natBits e 59 3,
                    r := e.testBit 58, w := e.testBit 57, x := e.testBit 56, limit := natBits e 4 8 })

/-- An entry that a walking die cannot read: PT (R380 step 2, R367). -/
def entryLost (s : State) (die ea : Nat) : Bool :=
  !paOk ea || (decide (homeDie ea ≠ die) && (unreach s die (homeDie ea)).isSome)

/-- The outcome of a walk with the physical addresses of the entries it read. -/
def walkFrom (s : State) (die asid va : Nat) (table : Nat) : List (Nat × Nat) → List Nat × (Nat ⊕ Trans)
  | [] => ([], .inl 6)
  | lv :: rest =>
    let ea := entryAddr table va lv
    if entryLost s die ea then ([], .inl 6)
    else if badLine s (ea / 64) then ([ea], .inl 6)
    else match entryStep asid va lv.1 (bytesNat (memRead s.mem ea 8)) with
      | .inl r => ([ea], r)
      | .inr adr =>
        let (l, r) := walkFrom s die asid va adr rest
        (ea :: l, r)

/-- A walk for a die: TN or PT, or the leaf (R380 steps 1 and 2). -/
def walk (s : State) (die asid root va : Nat) : Nat ⊕ Trans := (walkFrom s die asid va root levels).2

/-- Step 3 of R380 on a leaf. -/
def permOk (t : Trans) (acc : Nat) : Bool :=
  match acc with
  | 1 => t.r
  | 2 => t.w
  | 3 => t.r && t.w
  | _ => t.x

/-- The address a leaf gives, with the permission checked. A fetch raises IF for every failure (R380). -/
def leafXlate (t : Trans) (va acc : Nat) : Xlate :=
  if !permOk t acc then .fault (if acc = 4 then 3 else 5)
  else if acc = 4 && t.cls = 3 then .fault 3
  else .ok { cls := t.cls, pa := t.pbase + (va - t.vbase), limit := t.limit }

/-- A cached leaf covers an address. -/
def covers (t : Trans) (asid va : Nat) : Bool :=
  decide (t.asid = asid) && decide (t.vbase ≤ va) && decide (va < t.vbase + t.size)

/-- The translation of a thread's access as its core knows it (R381, R383). -/
def xlate (s : State) (core va acc : Nat) : Xlate :=
  let h := s.cohort core
  if inWindow h.window.toNat va then windowXlate s h.launch h.window.toNat va acc
  else match (s.core core).tlb.find? fun t => covers t h.ctx.asid va with
    | some t => leafXlate t va acc
    | none => .miss

/-- A translation made without the caches, for fetches and engine accesses (R311, R341, R380). -/
def xlateNow (s : State) (die asid root launch window va acc : Nat) : Xlate :=
  if inWindow window va then windowXlate s launch window va acc
  else match walk s die asid root va with
    | .inl c => .fault (if acc = 4 then 3 else c)
    | .inr t => leafXlate t va acc

/-! ### The caches -/

/-- A TLB with a leaf brought to its front, 256 entries (R383). -/
def tlbPut (l : List Trans) (t : Trans) : List Trans := (t :: l.filter fun u => u ≠ t).take 256

/-- The set of a leaf in a translation cache of 2,048 sets of eight (R383; notes/assumptions/9.md). -/
def tcSet (t : Trans) : Nat := t.vbase / t.size % 2048

/-- A translation cache with a leaf brought to the front of its set, from which the leaf used least recently goes where it is full (R383). -/
def tcPut (l : List Trans) (t : Trans) : List Trans :=
  let rest := l.filter fun u => u ≠ t
  let mine := rest.filter fun u => tcSet u = tcSet t
  t :: (if 8 ≤ mine.length then rest.filter fun u => some u ≠ mine.getLast? else rest)

/-- The TLB of a core after a hit on an address. -/
def tlbTouch (s : State) (core va : Nat) : State :=
  match (s.core core).tlb.find? fun t => covers t (s.asidOf core) va with
  | some t => s.modCore core fun c => { c with tlb := tlbPut c.tlb t }
  | none => s

/-- The 64 KiB unit of an address, by which requests merge while a walk is under way. -/
def unitOf (va : Nat) : Nat := va / 65536

/-- Lets the stalled lanes of a core try again in this clk (R194). -/
def clearWaits (s : State) (core : Nat) : State :=
  { s with lanes := s.lanes.map fun l =>
      if coreOfLane l.1 = core then (l.1, { l.2 with run := l.2.run.map fun r =>
        if r.wait then { r with wait := false, clk := s.clk } else r }) else l }

/-- Sends a miss of a core to its die's translation cache, unless one for the address is outstanding or 16 are. -/
def missSend (s : State) (core : Nat) (va : Nat) : State :=
  let asid := s.asidOf core
  let c := s.core core
  if (c.misses.any fun m => m.1 = asid ∧ unitOf m.2.toNat = unitOf va) ∨ 16 ≤ c.misses.length then s
  else (s.modCore core fun c => { c with misses := c.misses ++ [(asid, BitVec.ofNat 64 va)] }).post 24
    (.translationCacheLookup core (BitVec.ofNat 64 va))

/-- The walk result of a run that waited for an address: a fault code (R380). -/
def walkFault (s : State) (va : Nat) : Option Nat :=
  match ((s.lane s.cur).run.bind fun r => r.walk) with
  | some (v, c) => if unitOf v.toNat = unitOf va then some c else none
  | none => none

/-- Tells the stalled lanes of a core the fault of a walk. -/
def setWalk (s : State) (core va code : Nat) : State :=
  { s with lanes := s.lanes.map fun l =>
      if coreOfLane l.1 = core then (l.1, { l.2 with run := l.2.run.map fun r =>
        if r.wait then { r with walk := some (BitVec.ofNat 64 va, code) } else r }) else l }

/-- Answers a miss of a core: its TLB takes the leaf, or its stalled lanes learn the fault. -/
def missAnswer (s : State) (core asid : Nat) (va : Nat) (r : Nat ⊕ Trans) : State :=
  let s := s.modCore core fun c => { c with
    misses := c.misses.filter fun m => !(decide (m.1 = asid) && decide (unitOf m.2.toNat = unitOf va)) }
  let s := match r with
    | .inr t => s.modCore core fun c => { c with tlb := tlbPut c.tlb t }
    | .inl code => setWalk s core va code
  clearWaits s core

/-- Starts walks of a die that wait, oldest first, at most 64 at once and one for an address (R383). -/
def startWalks (s : State) (d : Nat) : State :=
  let ws := (s.die d).walks
  let busy := ws.filter (·.started)
  if 64 ≤ busy.length then s else
  match ws.find? fun (w : Walk) => !w.started && !(busy.any fun b => b.asid = w.asid ∧ unitOf b.va.toNat = unitOf w.va.toNat) with
  | none => s
  | some w =>
    let s := s.modDie d fun x => { x with walks := x.walks.map fun v => if v = w then { v with started := true, start := s.clk } else v }
    s.post 0 (.pageWalk w.core w.va)

/-- TRANSLATION_CACHE_LOOKUP, R383. -/
def evTranslationCacheLookup (s : State) (core : Nat) (va : Dword) : State :=
  let d := dieOfCore core
  let ctx := (s.cohort core).ctx
  match (s.die d).tc.find? fun t => covers t ctx.asid va.toNat with
  | some t =>
    let s := s.modDie d fun x => { x with tc := tcPut x.tc t }
    missAnswer s core ctx.asid va.toNat (.inr t)
  | none =>
    startWalks (s.modDie d fun x => { x with walks := x.walks ++ [{ asid := ctx.asid, root := ctx.root, va := va, core := core }] }) d

/-- A walk ends: every core that waits for the page is answered, and a fault is cached nowhere (R383). -/
def endWalk (s : State) (d : Nat) (w : Walk) (r : Nat ⊕ Trans) : State :=
  let hit (v : Walk) : Bool := decide (v.asid = w.asid) && (match r with
    | .inr t => covers t v.asid v.va.toNat
    | .inl _ => decide (unitOf v.va.toNat = unitOf w.va.toNat))
  let mine := (s.die d).walks.filter fun v => hit v && (v = w || !v.started)
  let s := s.modDie d fun x => { x with
    walks := x.walks.filter fun v => !mine.contains v
    tc := match r with
      | .inr t => tcPut x.tc t
      | .inl _ => x.tc }
  let s := mine.foldl (fun s v => missAnswer s v.core v.asid v.va.toNat r) s
  startWalks s d

/-- The walk of a core for an address that has begun. -/
def walkOf (s : State) (core : Nat) (va : Dword) : Option Walk :=
  (s.die (dieOfCore core)).walks.find? fun w => w.started && decide (w.core = core) && decide (w.va = va)

/-- Changes the walk of a core for an address that has begun. -/
def modWalk (s : State) (core : Nat) (va : Dword) (f : Walk → Walk) : State :=
  let g (w : Walk) : Walk := if w.started && decide (w.core = core) && decide (w.va = va) then f w else w
  s.modDie (dieOfCore core) fun x => { x with walks := x.walks.map g }

end Sys2Proof.Machine
end

