-- ==== Sys2Proof/Machine/Engine.lean ====
section
/-! DEFINITION. What the engines share (spec/13, spec/14): barrier objects and the bytes counted off them (R267 to R272), declared
buffers (R189 to R192), remote failures (R368, R369), engine operations with their counters and slots (R223, R279 to
R281, R285), their failure (R291, R292) and their accesses (R288). -/

namespace Sys2Proof.Machine

/-! ### Handles and objects (R267 to R269) -/

/-- The handle of an object (R268). -/
def handleOf (core idx gen : Nat) : Word := BitVec.ofNat 32 (core / 128 * 2 ^ 23 + core % 128 * 2 ^ 16 + gen * 64 + idx)
/-- The core a handle names. -/
def handleCore (h : Word) : Nat := natBits h.toNat 27 5 * 2048 + natBits h.toNat 23 4 * 128 + natBits h.toNat 16 7
/-- The index a handle names. -/
def handleIdx (h : Word) : Nat := natBits h.toNat 0 6
/-- The generation a handle names. -/
def handleGen (h : Word) : Nat := natBits h.toNat 6 7

/-- A barrier object. -/
def barAt (s : State) (core idx : Nat) : Barrier := kvGet {} (s.core core).bar idx
/-- Changes a barrier object. -/
def modBar (s : State) (core idx : Nat) (f : Barrier → Barrier) : State :=
  s.modCore core fun c => { c with bar := kvSet c.bar idx (f (kvGet {} c.bar idx)) }

/-- A handle is live for a context (R269). -/
def live (s : State) (h : Word) (asid : Nat) : Bool :=
  let b := barAt s (handleCore h) (handleIdx h)
  natBits h.toNat 13 3 = 0 && b.alloc && decide (b.gen = handleGen h) && decide (b.asid = asid)

/-- The limits of PENDBYTES. -/
def byteLimit : Int := 2 ^ 39

/-- BARV and BEXP on an object (R272): a fault, 20 BU or 21 BO, or the object with the update. `n` arrivals, `e` bytes. -/
def barUpdate (b : Barrier) (n : Nat) (e : Option Nat) : Nat ⊕ Barrier :=
  if e.isSome && b.nb then .inl 20
  else if b.ovf || decide (b.pendArr < n) then .inl 21
  else match e with
    | some v => if byteLimit ≤ b.pendBytes + v then .inl 21
      else .inr { b with pendArr := b.pendArr - n, pendBytes := b.pendBytes + v, posted := true }
    | none => .inr { b with pendArr := b.pendArr - n }

/-- Bytes landed under R225 on an object (R272). -/
def barLand (b : Barrier) (n : Nat) : Barrier :=
  if b.nb then b
  else if b.pendBytes - n < -byteLimit then { b with ovf := true }
  else { b with pendBytes := b.pendBytes - n }

/-- Counts landed bytes off the object of a handle; false where it is not live (R269). -/
def countOff (s : State) (h : Word) (asid n : Nat) : State × Bool :=
  if live s h asid then
    (modBar s (handleCore h) (handleIdx h) fun b => { barLand b n with dirty := some s.clk }, true)
  else (s, false)

/-! ### Remote failures (R368, R369) -/

/-- The saved cohort that left a core at an epoch (R397). -/
def savedAt (s : State) (core : Nat) (epoch : BitVec 16) : Option Nat :=
  (s.saved.find? fun v => decide (v.2.core = core ∧ v.2.epoch = epoch)).map (·.1)

/-- Changes a saved cohort. -/
def modSaved (s : State) (k : Nat) (f : Saved → Saved) : State := { s with saved := kvSet s.saved k (f (kvGet {} s.saved k)) }

/-- Changes a warp of the cohort that a core held at an epoch, resident or saved; one that is gone is left. -/
def modWarpAt (s : State) (w : Nat) (epoch : BitVec 16) (f : Warp → Warp) : State :=
  if (s.core (w / 512)).epoch = epoch then s.modWarp w f
  else match savedAt s (w / 512) epoch with
    | some k => modSaved s k fun v => { v with warps := kvSet v.warps w (f (kvGet {} v.warps w)) }
    | none => s

/-- Adds to a performance counter of the cohort that a core held at an epoch (R414). -/
def pmcAt (s : State) (core : Nat) (epoch : BitVec 16) (sel n : Nat) : State :=
  if (s.core core).epoch = epoch then pmcAdd s core sel n
  else match savedAt s core epoch with
    | some k => modSaved s k fun v => { v with coreState := { v.coreState with pmc := kvSet v.coreState.pmc sel (kvGet 0 v.coreState.pmc sel + n) } }
    | none => s

/-- The bits of $remstat (Table 17-7). -/
def rsLDF : Nat := 0
def rsSTF : Nat := 1
def rsATF : Nat := 2
def rsENG : Nat := 3
def rsFAB : Nat := 4
def rsBAR : Nat := 5

/-- $remstat with one more failure recorded (R369). -/
def remstatAdd (old : Word) (bit cause home : Nat) : Word :=
  if old &&& 0x3F = 0 then
    (old &&& 0x80) ||| BitVec.ofNat 32 (2 ^ bit + cause * 2 ^ 20 + pkgOfDie home * 2 ^ 15 + home % 16 * 2 ^ 11)
  else old ||| BitVec.ofNat 32 (2 ^ bit + 0x80)

/-- The record of a context that a remote failure ends (R370). -/
def endedRec (core slot asid cause home : Nat) (va : Dword) : EvRec :=
  { kind := 0x24, core := core % 128, slot := slot, asid := asid, addr := va.toNat,
    detail := pkgOfDie home * 2 ^ 11 + home % 16 * 2 ^ 7 + cause }

/-- A remote failure of a cohort's access or operation: the bit of $remstat under mode E, the end of the context under mode
K (R368). A barrier object's refusal (R275), and a PUTN or GETN failure that its path did not cause (R373), act under
both modes as under mode E. -/
def remFail (s : State) (core : Nat) (epoch : BitVec 16) (slot bit cause home : Nat) (va : Dword) : State :=
  let c := s.core core
  let away := savedAt s core epoch
  match (if c.epoch = epoch then c.cohort else away.map fun k => (kvGet {} s.saved k).cohort) with
  | none => s
  | some h =>
    if h.ctx.remK && decide (cause < 5) then
      endContext s h.ctx.asid (some (dieOfCore core, endedRec core slot h.ctx.asid cause home va))
    else if c.epoch = epoch then s.modCore core fun c => { c with remstat := remstatAdd c.remstat bit cause home }
    else match away with
      | some k => modSaved s k fun v => { v with coreState := { v.coreState with remstat := remstatAdd v.coreState.remstat bit cause home } }
      | none => s

/-! ### Bytes -/

/-- The die of a place. -/
def placeDie (cls pa : Nat) : Nat := if cls = 4 then pa / 2 ^ 27 else homeDie pa

/-- The bytes at a place (R4). -/
def bytesAt (s : State) (cls pa n : Nat) : List Byte := memRead (if cls = 4 then s.cellar else s.mem) pa n

/-- Bytes written at a place. -/
def putBytes (s : State) (cls pa : Nat) (l : List Byte) : State :=
  if cls = 4 then { s with cellar := memWrite s.cellar pa l } else { s with mem := memWrite s.mem pa l }

/-- The `n` low bytes of a number, lowest first. -/
def leBytes : Nat → Nat → List Byte
  | 0, _ => []
  | n + 1, v => BitVec.ofNat 8 v :: leBytes n (v / 256)

/-! ### Declared buffers (R189 to R192) -/

/-- The record word (Table 9-3). -/
def bufWord (b : Buf) : Word :=
  BitVec.ofNat 32 (b.state * 2 ^ 30 + b.decl.toNat * 2 ^ 29 + b.landed % 2 ^ 28)

/-- The record of a die whose range holds a cellar key. -/
def bufAt (s : State) (d key : Nat) : Option (Nat × Buf) :=
  (s.die d).buf.find? fun b => b.2.decl && decide (b.2.from_ ≤ s.clk) && decide (b.2.base ≤ key % 2 ^ 27)
    && decide (key % 2 ^ 27 < b.2.base + b.2.size)

/-- Notes an event of this clk on a record; it takes effect in the next, before anything of that clk (R192). -/
def bufNote (s : State) (d b : Nat) (f : Buf → Buf) : State :=
  let s := s.modDie d fun x => { x with buf := kvSet x.buf b (f (kvGet {} x.buf b)) }
  if s.posted (.bufferStateChange d b) then s else s.postFirst (.bufferStateChange d b)

/-- A write of `n` bytes that a record counts. -/
def bufCount (s : State) (d b n : Nat) : State := bufNote s d b fun x => { x with added := x.added + n }

/-- The record after the events of one clk, BUFS after every write (Table 9-4, R192). -/
def bufStep (b : Buf) : Buf :=
  let st := if b.state = 0 && (b.copyIn || decide (0 < b.added)) then 1 else b.state
  let landed := b.landed + b.added
  let st := if st = 1 && decide (b.expect ≠ 0) && decide (b.expect ≤ landed) && decide (0 < b.added) then 2 else st
  let outs := b.outs + b.outStart - b.outDone
  let st := if st = 2 && decide (0 < b.outStart) then 3 else st
  let (st, landed) := if st = 3 && decide (0 < b.outDone) && decide (outs = 0) then (0, 0) else (st, landed)
  let st := if b.setFull && decide (st ≤ 1) then 2 else st
  if b.drop then {} else
  { b with state := st, landed := landed, outs := outs, added := 0, copyIn := false, outStart := 0, outDone := 0,
           setFull := false }

/-- BUFFER_STATE_CHANGE, R192. -/
def evBufferStateChange (s : State) (d b : Nat) : State :=
  s.modDie d fun x => { x with buf := kvSet x.buf b (bufStep (kvGet {} x.buf b)) }

/-! ### Rank tables (R331, R332) -/

/-- A rank table's VERSION and the dies of its ranks, if it is valid for a domain. -/
def tableOf (domain : List Nat) (l : List Byte) : Option (Nat × List Nat) :=
  match bytesWords l with
  | w0 :: w1 :: es =>
    let p := natBits w0.toNat 0 16
    let dies := es.map fun e => e.toNat % 512
    if p = 0 ∨ 512 < p ∨ es.length ≠ p ∨ w1 ≠ 0 ∨ (es.any fun e => decide (512 ≤ e.toNat ∨ !domain.contains (e.toNat / 16)))
        ∨ dies.eraseDups.length ≠ p then none
    else some (natBits w0.toNat 16 16, dies)
  | _ => none

/-- A binding takes effect (R332, R333). -/
def applyBind (s : State) (r : Req) : State :=
  match tableOf s.domain r.data with
  | none => s
  | some (ver, dies) =>
    if (s.core r.core).epoch ≠ r.epoch then s else
    let d := dieOfCore r.core
    let asid := s.asidOf r.core
    let k := dies.findIdx (· = d)
    let n := dies.length
    let s := s.modDie d fun x => { x with
      binds := (x.binds.filter fun b => !(b.asid = asid && b.group = r.op)) ++ [{ asid := asid, group := r.op, version := ver, ranks := dies, table := r.va }] }
    s.modWarp (r.thread / 32) fun w => { w with
      rank := BitVec.ofNat 32 k, rankOf := some r.op
      hand := if r.fo then { w.hand with bound := true, group := r.op, rank := k, p := n, next := dies.getD ((k + 1) % n) 0,
                                         prev := dies.getD ((k + n - 1) % n) 0 } else w.hand }

/-! ### Engine operations -/

/-- A request crosses to another package (R366). -/
def crosses (r : Req) : Bool := decide (pkgOfDie (placeDie r.cls r.pa) ≠ pkgOfCore r.core)

/-- An access is not yet performed everywhere: a write of another package's home until its acknowledgement, an atomic there until its
reply (R220). A failed one counts as performed (R227). -/
def accessPending (r : Req) : Bool :=
  !r.failed && match r.kind with
    | .st | .red => true
    | .atom | .cas => crosses r || decide (r.stage < 2)
    | .ld | .ldc | .ldb => decide (r.stage < 2)
    | _ => false

/-- The accesses of some threads that an operation they issue waits for (R223): DEDUCED (log 88), the reads among them too, since
they happen before every access of the operation. -/
def opAfter (s : State) (ts : List Nat) : List Nat :=
  s.reqs.filterMap fun r => if ts.contains r.2.thread && accessPending r.2 then some r.1 else none

/-- The window of a core's cohort and what its context translates with. -/
def opOf (s : State) (t : Nat) (kind : Opc) (cls : Nat) : Op :=
  let core := coreOfThread t
  let h := s.cohort core
  { kind := kind, cls := cls, warp := t / 32, thread := t, core := core, epoch := (s.core core).epoch, asid := h.ctx.asid,
    launch := h.launch, root := h.ctx.root, window := h.window, issued := s.clk }

/-- Issues an operation (R280): its counter rises; it enters its queue once the issuers' earlier accesses are performed. -/
def issueOp (s : State) (ts : List Nat) (p : Op) : Nat × State :=
  let (o, s) := s.fresh
  let p := { p with after := opAfter s ts }
  let s : State := { s with ops := kvSet s.ops o p }
  let s := s.modWarp p.warp fun w => { w with
    cnt := kvSet w.cnt p.cls (kvGet 0 w.cnt p.cls + 1), ops := kvSet w.ops p.cls (kvGet [] w.ops p.cls ++ [o]) }
  (o, if p.after.isEmpty then s.post 0 (.operationEnqueue o) else s)

/-- Operations whose issuers' accesses are now performed enter their queues (R223). -/
def pollOps (s : State) : State :=
  (s.ops.filter fun o => o.2.stage = 0 && !o.2.after.isEmpty).foldl (fun s o =>
    if s.reqs.any (fun r => o.2.after.contains r.1 && accessPending r.2) then s
    else (s.modOp o.1 fun p => { p with after := [] }).post 0 (.operationEnqueue o.1)) s

/-- The classes whose operations take a copy slot (R285, R372). -/
def slotClass (c : Nat) : Bool := c = 0 || c = 1 || c = 5

/-- Copy slots of a core in use (R285). -/
def slotsUsed (s : State) (core : Nat) : Nat :=
  (s.ops.filter fun o => decide (o.2.core = core) && slotClass o.2.cls && decide (o.2.stage < 3) && !o.2.held).length

/-- The counter of a warp would pass 63 (R280). -/
def counterFull (s : State) (w c m : Nat) : Bool := decide (63 < kvGet 0 (s.warp w).cnt c + m)

/-- Copy slots of a core that are kept for sub-runs other than that of warp `w`: those begun, with threads yet to issue, and those held that
have been given theirs (R285). -/
def slotsKept (s : State) (core w : Nat) : Nat :=
  (s.lanes.filter fun l => l.1 / 32 = core).foldl (fun n l => n + (match l.2.run with
    | some r => if r.warp = w then 0 else r.slots
    | none => 0)) 0
  + (s.threads.filter fun t => t.2.slot && decide (t.1 / 32 / 512 = core) && decide (t.1 / 32 ≠ w)).length

/-- The hold of R285 on a sub-run that would issue `m` operations of a class. -/
def slotHold (s : State) (w c m : Nat) : Option Hold :=
  if 1024 < slotsUsed s (coreOfWarp w) + slotsKept s (coreOfWarp w) w + m ∨ counterFull s w c m then some (.slots c m s.clk) else none

/-- An operation that is complete is gone once nothing of it is in flight. -/
def sweepOp (s : State) (o : Nat) : State :=
  if 3 ≤ (s.op o).stage && (s.op o).chunks.isEmpty && (s.op o).cls ≠ 3 then { s with ops := kvDel s.ops o } else s

/-- An operation is complete: its slot is free and it retires in its turn (R280). -/
def completeOp (s : State) (o : Nat) : State :=
  let p := s.op o
  if p.stage = 3 then s
  else (s.modOp o fun p => { p with stage := 3 }).post 0 (.engineRetirement p.warp p.cls)

/-- ENGINE_RETIREMENT, R280: the oldest operations of the class that are complete retire. -/
def evEngineRetirement (s : State) (w c : Nat) : State :=
  let l := kvGet [] (s.warp w).ops c
  let done (o : Nat) : Bool := !(s.ops.any fun x => x.1 = o && decide (x.2.stage < 3))
  let rest := l.dropWhile done
  s.modWarp w fun x => { x with ops := kvSet x.ops c rest, cnt := kvSet x.cnt c (kvGet 0 x.cnt c - (l.length - rest.length)) }

/-- A status word with one more failure recorded (Tables 14-2 and 15-7). -/
def failWord (old new : Word) : Word := if old.getLsbD 31 then old ||| 0x40000000 else new

/-- Records the failure of an operation in the word of its class, unless its cohort has left (R292, R313, R373). -/
def recordFail (s : State) (p : Op) (code : Nat) : State :=
  if p.cls ≤ 1 then
    let v := BitVec.ofNat 32 (2 ^ 31 + p.cls * 2 ^ 28 + code * 2 ^ 16 + p.thread % 32 * 2 ^ 11)
    modWarpAt s p.warp p.epoch fun w => { w with engFail := failWord w.engFail v }
  else if p.cls = 2 ∨ p.cls = 4 then
    let v := BitVec.ofNat 32 (2 ^ 31 + (if p.cls = 4 then 2 ^ 29 else 0) + code * 2 ^ 16 + p.tile * 2 ^ 12 + p.thread % 32)
    modWarpAt s p.warp p.epoch fun w => { w with anvil := failWord w.anvil v }
  else s

/-- What a failure does to $remstat or to the context (R368, R369, R373): `cause` 1 to 3 for a path, 0 for none. -/
def opRemFail (s : State) (p : Op) (code cause home : Nat) (va : Dword) : State :=
  if p.cls = 5 then remFail s p.core p.epoch (p.thread % 32) rsFAB (if cause = 0 then 8 + code else cause) home va
  else if cause ≠ 0 then remFail s p.core p.epoch (p.thread % 32) rsENG cause home va
  else s

/-- The chunks of an operation, and the bytes of those not yet dispatched (R286). -/
def chunkCount (p : Op) : Nat := (p.total + 2047) / 2048
/-- The bytes of the operation that are not yet dispatched. -/
def undispatched (p : Op) : Nat := if p.cls = 3 then p.total - p.got else p.total - 2048 * p.next

/-- A copy-out completes once the reads of all its dispatched chunks have landed or failed and no more follow (R291, R293). -/
def copyOutTest (s : State) (o : Nat) : State :=
  let p := s.op o
  match p.buf with
  | some b =>
    let d := dieOfCore p.core
    if p.bout && p.begun && decide (chunkCount p ≤ p.next) && !(p.chunks.any fun c => decide (c.2.phase < 2)) then
      let s := s.modOp o fun p => { p with begun := false }
      if (kvGet {} (s.die d).buf b).serial = p.serial then bufNote s d b fun x => { x with outDone := x.outDone + 1 } else s
    else s
  | none => s

/-- An operation fails (R291): its chunks not yet dispatched never are, the bytes that will not land, `lost` of the failing
chunk among them, are counted off, it is complete, and the failure is recorded. A later failure counts its bytes off alone. -/
def failOp (s : State) (o code cause home : Nat) (va : Dword) (lost : Nat) : State :=
  let p := s.op o
  let off (s : State) (n : Nat) : State :=
    match p.bar with
    | some h => if code = 7 ∨ p.fail = 7 then s else (countOff s h p.asid n).1
    | none => s
  if !(s.ops.any fun x => x.1 = o) then s
  else if p.fail ≠ 0 then sweepOp (off s lost) o
  else
    let d := dieOfCore p.core
    let s := off s (lost + undispatched p)
    let s := s.modOp o fun p => { p with fail := code, total := if p.cls = 3 then p.got else min p.total (2048 * p.next) }
    let s := s.modDie d fun x => { x with classQ := x.classQ.map fun q => (q.1, q.2.filter (· ≠ o)) }
    let s := copyOutTest (completeOp (recordFail s p code) o) o
    sweepOp (opRemFail s p code cause home va) o

/-- Bytes of an operation have landed (R225, R231): they are counted off the barrier it names; one that is not live fails it,
but for an ACCS, to whose chapter such a failure is not known (R313; notes/assumptions/92.md). -/
def landed (s : State) (o n : Nat) : State :=
  let p := s.op o
  match p.bar with
  | some h =>
    if p.fail = 7 then s else
    match countOff s h p.asid n with
    | (s, true) => s
    | (s, false) => if p.fail = 0 && decide (p.cls ≠ 2) then failOp s o 7 0 0 0 0 else s
  | none => s

/-- The thread number under which an operation's requests stand, no thread's. -/
def engThread (o : Nat) : Nat := 2 ^ 50 + o

/-- The request is one of an engine. -/
def isEng (k : ReqKind) : Bool :=
  match k with
  | .erd | .ewr | .eadd | .eflag => true
  | _ => false

/-- The request is one of a thread. -/
def ofThread (k : ReqKind) : Bool := !isEng k && decide (k ≠ .walk)

/-- Changes a chunk of an operation. -/
def modChunk (s : State) (o k : Nat) (f : Chunk → Chunk) : State :=
  s.modOp o fun p => { p with chunks := kvSet p.chunks k (f (kvGet {} p.chunks k)) }

/-- A chunk has nothing more under way: it leaves flight (R286). -/
def chunkTest (s : State) (o k : Nat) : State :=
  let c := kvGet {} (s.op o).chunks k
  if c.phase = 2 && c.writes.isEmpty && !s.posted (.chunkComplete o k) then s.post 0 (.chunkComplete o k) else s

/-- A source read of a chunk has landed, or failed (R293): when none is left the chunk goes on. -/
def engReadEnd (s : State) (id : Nat) (r : Req) : State :=
  let o := r.tag
  if !(s.ops.any fun x => x.1 = o) then s else
  let index := (kvGet {} (s.op o).chunks r.reg).phase = 0
  let s := modChunk s o r.reg fun c =>
    let c := { c with reads := c.reads.erase id, bad := c.bad || r.failed }
    if r.failed || index then c else { c with got := c.got ++ [(r.op, leBytes r.size r.value)] }
  let s := if index && !r.failed then s.modOp o fun p => { p with index := kvSet p.index r.op r.value } else s
  if (kvGet {} (s.op o).chunks r.reg).reads.isEmpty then s.post 0 (.chunkSourceReadLanding o r.reg) else s

/-- A write of an operation has been performed at its scope, or failed (R286, R291). -/
def engWriteEnd (s : State) (id : Nat) (r : Req) : State :=
  let o := r.tag
  let s := if r.failed then s else landed (if (s.op o).cls ≤ 1 then pmcAt s (s.op o).core (s.op o).epoch 9 r.size else s) o r.size
  if !(s.ops.any fun x => x.1 = o) then s
  else chunkTest (modChunk s o r.reg fun c => { c with writes := c.writes.erase id }) o r.reg

/-- The end of an engine's request. -/
def engEnd (s : State) (id : Nat) (r : Req) : State :=
  let s : State := { s with reqs := kvDel s.reqs id }
  match r.kind with
  | .erd => engReadEnd s id r
  | .eflag => if r.failed then s else sweepOp (completeOp s r.tag) r.tag
  | _ => engWriteEnd s id r

/-! ### What the operations of the Anvil share (R309 to R311, R324) -/

/-- The place of an address by the translations found at issue (R311). -/
def transAt (p : Op) (va : Nat) : Option Place :=
  (p.trans.find? fun t => decide (t.vbase ≤ va) && decide (va < t.vbase + t.size)).map fun t =>
    { cls := t.cls, pa := t.pbase + (va - t.vbase), limit := t.limit }

/-- The bytes of a destination row of ACCS (R323). -/
def accsRow (fmt : Nat) : Nat := if fmt = 0 then 256 else if fmt ≤ 2 then 128 else 64

/-- The bank words that an add-on-store writes in a cellar (R324). -/
def addWords (p : Op) : List Nat :=
  (List.range p.rows).flatMap fun i => (List.range (accsRow p.fmt / 32)).filterMap fun k =>
    match transAt p ((p.dst.toNat + i * p.n + 32 * k) % 2 ^ 64) with
    | some q => if q.cls = 4 then some (q.pa / 32) else none
    | none => none

/-- An add-on-store that has come to a cellar holds the accesses that come to its words after it, until it is applied (R324). -/
def addHolds (s : State) (r : Req) : Bool :=
  s.ops.any fun o => o.2.kind = .accs && o.2.add && decide ((kvGet {} o.2.chunks 0).phase = 2) && decide (o.2.came ≤ r.arrived)
    && (addWords o.2).contains (r.pa / 32)

/-- The weights and tiles that an operation uses: those of its core's cohort, or of an earlier one that has left the core (R299,
R410; notes/assumptions/21.md). -/
def setOf (s : State) (p : Op) : AnvilSet :=
  let c := s.core p.core
  match c.left.find? fun x => x.1 = p.epoch.toNat with
  | some x => x.2
  | none => { active := c.active, shadow := c.shadow, tiles := c.tiles, tileEnd := c.tileEnd }

/-- Changes the weights and tiles that an operation uses. -/
def modSet (s : State) (p : Op) (f : AnvilSet → AnvilSet) : State :=
  let x := f (setOf s p)
  s.modCore p.core fun c =>
    if c.left.any fun y => y.1 = p.epoch.toNat then { c with left := kvSet c.left p.epoch.toNat x }
    else { c with active := x.active, shadow := x.shadow, tiles := x.tiles, tileEnd := x.tileEnd }

/-- An array operation with rows. -/
def isArray (k : Opc) : Bool :=
  match k with
  | .mma | .mms | .mmg => true
  | _ => false

/-- The operation names a tile. -/
def namesTile (k : Opc) : Bool :=
  match k with
  | .wld | .wswp | .mvb => false
  | _ => true

/-- An operation retires in this clk: a later one of its tile begins in the next at the earliest (R309). -/
def noteRetired (s : State) (p : Op) : State :=
  if p.cls = 2 && namesTile p.kind then
    modSet s p fun x =>
      let e := kvGet (0, 0) x.tileEnd p.tile
      { x with tileEnd := kvSet x.tileEnd p.tile (if isArray p.kind then (s.clk + 1, e.2) else (e.1, s.clk + 1)) }
  else s

/-- The weights and tiles that no operation of a cohort that has left uses are gone. -/
def sweepLeft (s : State) (core : Nat) : State :=
  let used (e : Nat) : Bool := s.ops.any fun o => decide (o.2.core = core ∧ o.2.cls = 2 ∧ o.2.epoch.toNat = e)
  s.modCore core fun c => { c with left := c.left.filter fun x => used x.1 }

/-- A failure of an Anvil or press operation is recorded; the operation completes as R313 states. -/
def noteFail (s : State) (o code cause home : Nat) (va : Dword) : State :=
  let p := s.op o
  if !(s.ops.any fun x => x.1 = o) ∨ p.fail ≠ 0 then s
  else opRemFail (recordFail (s.modOp o fun p => { p with fail := code }) p code) p code cause home va

/-- An engine's request fails (R291, R313): the operation fails with a code, `cause` as R369 judges it. With a read the bytes of its
chunk will not land, with a write its own. -/
def engFail (s : State) (id code cause : Nat) : State :=
  let r := s.req id
  let home := placeDie r.cls r.pa
  if (s.op r.tag).cls = 2 ∨ (s.op r.tag).cls = 4 then
    engEnd (noteFail s r.tag (if code = 5 then 3 else if code = 6 then 2 else 1) cause home r.va) id { r with failed := true }
  else
  let c := kvGet {} (s.op r.tag).chunks r.reg
  let lost := if r.kind = .erd then (if c.bad then 0 else c.size) else if r.kind = .eflag then 0 else r.size
  let s := failOp s r.tag code cause home r.va lost
  engEnd s id { r with failed := true }

end Sys2Proof.Machine
end

