-- ==== Sys2Proof/Machine/Integer.lean ====
section
/-! DEFINITION. The integer and address instructions, opcodes 0x28 to 0x4A (spec/06). -/

namespace Sys2Proof.Machine

/-- The element width of a type (Table 2-7). -/
def elemW (t : BitVec 4) : Nat :=
  match t.toNat with
  | 2 | 3 | 7 => 64
  | 5 | 6 | 8 | 9 => 16
  | 10 | 11 | 12 | 13 => 8
  | _ => 32

/-- The operand width of a type. -/
def opW (t : BitVec 4) : Nat := if wideT t then 64 else 32

/-- The type reads its elements as signed (R39). -/
def signedT (t : BitVec 4) : Bool := t = 0 || t = 2 || t = 8 || t = 10

/-- The low `w` bits of a number as a signed integer. -/
def sx (w v : Nat) : Int := let u := v % 2 ^ w; if 2 ^ (w - 1) ≤ u then (u : Int) - 2 ^ w else u

/-- The low `w` bits of a number by the signedness of a type. -/
def elemInt (sg : Bool) (w v : Nat) : Int := if sg then sx w v else ((v % 2 ^ w : Nat) : Int)

/-- The least value of an element type. -/
def loInt (sg : Bool) (w : Nat) : Int := if sg then -(2 ^ (w - 1)) else 0
/-- The greatest value of an element type. -/
def hiInt (sg : Bool) (w : Nat) : Int := if sg then 2 ^ (w - 1) - 1 else 2 ^ w - 1

/-- An exact result wrapped to `w` bits, or clamped first under .sat (R117). -/
def wrapSat (sat sg : Bool) (w : Nat) (v : Int) : Nat :=
  let v := if sat then min (max v (loInt sg w)) (hiInt sg w) else v
  (v % 2 ^ w).toNat

/-- A function of elements over the elements of an operand, element 0 lowest (R117). -/
def onElems (w : Nat) (f : Nat → Nat) : Nat → Nat
  | 0 => 0
  | n + 1 => f n % 2 ^ w * 2 ^ (w * n) + onElems w f n

/-- The element-wise instructions of Table 6-2. -/
def elemFn (f : Int → Int → Int → Int) (x : Ins) (a b c : Nat) : AluOut :=
  let w := elemW x.f.t
  let sg := signedT x.f.t
  let e (v i : Nat) : Int := elemInt sg w (v / 2 ^ (w * i))
  { v := onElems w (fun i => wrapSat (x.mb 4) sg w (f (e a i) (e b i) (e c i))) (opW x.f.t / w) }

/-- ADD (R117). -/
def addFn : Ins → Nat → Nat → Nat → AluOut := elemFn fun a b _ => a + b
/-- SUB (R117). -/
def subFn : Ins → Nat → Nat → Nat → AluOut := elemFn fun a b _ => a - b
/-- MUL (R117). -/
def mulFn : Ins → Nat → Nat → Nat → AluOut := elemFn fun a b _ => a * b
/-- MAD (R117). -/
def madFn : Ins → Nat → Nat → Nat → AluOut := elemFn fun a b c => a * b + c
/-- MIN (R117). -/
def minFn : Ins → Nat → Nat → Nat → AluOut := elemFn fun a b _ => min a b
/-- MAX (R117). -/
def maxFn : Ins → Nat → Nat → Nat → AluOut := elemFn fun a b _ => max a b
/-- ABS (R117). -/
def absFn : Ins → Nat → Nat → Nat → AluOut := elemFn fun a _ _ => (a.natAbs : Int)
/-- NEG (R117). -/
def negFn : Ins → Nat → Nat → Nat → AluOut := elemFn fun a _ _ => -a

/-- The exact product of MULH, MULW and MADW (R118). -/
def prodInt (x : Ins) (a b : Nat) : Int := elemInt (signedT x.f.t) 32 a * elemInt (signedT x.f.t) 32 b
/-- MULH (R118). -/
def mulhFn (x : Ins) (a b _c : Nat) : AluOut := { v := (prodInt x a b % 2 ^ 64).toNat / 2 ^ 32 }
/-- MULW (R118). -/
def mulwFn (x : Ins) (a b _c : Nat) : AluOut := { v := (prodInt x a b % 2 ^ 64).toNat }
/-- MADW (R118). -/
def madwFn (x : Ins) (a b c : Nat) : AluOut := { v := ((prodInt x a b + elemInt (signedT x.f.t) 64 c) % 2 ^ 64).toNat }

/-- The quotient and remainder of R119: truncation toward zero, all ones for a zero divisor. -/
def divRem (sg : Bool) (w a b : Nat) : Nat × Nat :=
  let x := elemInt sg w a
  let y := elemInt sg w b
  if y = 0 then (2 ^ w - 1, a % 2 ^ w)
  else if sg ∧ x = loInt sg w ∧ y = -1 then (2 ^ (w - 1), 0)
  else ((x.tdiv y % 2 ^ w).toNat, (x.tmod y % 2 ^ w).toNat)
/-- DIV (R119). -/
def divFn (x : Ins) (a b _c : Nat) : AluOut := { v := (divRem (signedT x.f.t) (opW x.f.t) a b).1 }
/-- REM (R119). -/
def remFn (x : Ins) (a b _c : Nat) : AluOut := { v := (divRem (signedT x.f.t) (opW x.f.t) a b).2 }

/-- ADDC (R120): the carry goes to the predicate of M 2:0. -/
def addcFn (x : Ins) (a b c : Nat) : AluOut :=
  let (v, p) := addCarry (BitVec.ofNat 32 a) (BitVec.ofNat 32 b) (!x.mb 3 && c = 1)
  { v := v.toNat, p := some (x.order, p) }
/-- SUBC (R120): the borrow goes to the predicate of M 2:0. -/
def subcFn (x : Ins) (a b c : Nat) : AluOut :=
  let (v, p) := subBorrow (BitVec.ofNat 32 a) (BitVec.ofNat 32 b) (!x.mb 3 && c = 1)
  { v := v.toNat, p := some (x.order, p) }

/-- AND (R121). -/
def andFn (_ : Ins) (a b _c : Nat) : AluOut := { v := a &&& b }
/-- OR (R121). -/
def orFn (_ : Ins) (a b _c : Nat) : AluOut := { v := a ||| b }
/-- XOR (R121). -/
def xorFn (_ : Ins) (a b _c : Nat) : AluOut := { v := a ^^^ b }
/-- ANDN (R121): A AND NOT B. -/
def andnFn (x : Ins) (a b _c : Nat) : AluOut := { v := a &&& (2 ^ opW x.f.t - 1 - b % 2 ^ opW x.f.t) }
/-- NOT (R121). -/
def notFn (x : Ins) (a _b _c : Nat) : AluOut := { v := 2 ^ opW x.f.t - 1 - a % 2 ^ opW x.f.t }

/-- SHL (R122). -/
def shlFn (x : Ins) (a b _c : Nat) : AluOut := let w := opW x.f.t; { v := a * 2 ^ (b % w) % 2 ^ w }
/-- SHR (R122). -/
def shrFn (x : Ins) (a b _c : Nat) : AluOut := { v := a / 2 ^ (b % opW x.f.t) }
/-- SRA (R122). -/
def sraFn (x : Ins) (a b _c : Nat) : AluOut :=
  let w := opW x.f.t; { v := (sx w a / 2 ^ (b % w) % 2 ^ w).toNat }
/-- ROTL (R122). -/
def rotlFn (x : Ins) (a b _c : Nat) : AluOut :=
  let w := opW x.f.t
  let n := b % w
  { v := (a * 2 ^ n % 2 ^ w) ||| (a / 2 ^ (w - n)) }

/-- The number of set bits among the low `n` of a number. -/
def popN (a : Nat) : Nat → Nat
  | 0 => 0
  | n + 1 => (a.testBit n).toNat + popN a n
/-- The number of clear bits above the highest set bit among the low `n` of a number. -/
def clzN (a : Nat) : Nat → Nat
  | 0 => 0
  | n + 1 => if a.testBit n then 0 else 1 + clzN a n
/-- The low `n` bits of a number in reverse order. -/
def revN (a : Nat) : Nat → Nat
  | 0 => 0
  | n + 1 => (a.testBit 0).toNat * 2 ^ n + revN (a / 2) n
/-- POPC (R123). -/
def popcFn (x : Ins) (a _b _c : Nat) : AluOut := { v := popN a (opW x.f.t) }
/-- CLZ (R123). -/
def clzFn (x : Ins) (a _b _c : Nat) : AluOut := { v := clzN a (opW x.f.t) }
/-- CTZ (R123). -/
def ctzFn (x : Ins) (a _b _c : Nat) : AluOut := { v := clzN (revN a (opW x.f.t)) (opW x.f.t) }
/-- BREV (R123). -/
def brevFn (x : Ins) (a _b _c : Nat) : AluOut := { v := revN a (opW x.f.t) }

/-- The position and length of BFX and BFI, clamped to the width (R124). -/
def posLen (w v : Nat) : Nat × Nat :=
  let pos := min (v % 256) w
  (pos, min (v / 256 % 256) (w - pos))
/-- BFX (R124). -/
def bfxFn (x : Ins) (a b _c : Nat) : AluOut :=
  let w := opW x.f.t
  let (pos, len) := posLen w b
  let f := a / 2 ^ pos % 2 ^ len
  { v := if len = 0 then 0 else if signedT x.f.t then (sx len f % 2 ^ w).toNat else f }
/-- BFI (R125). -/
def bfiFn (x : Ins) (a b c : Nat) : AluOut :=
  let w := opW x.f.t
  let (pos, len) := posLen w c
  let mask := (2 ^ len - 1) * 2 ^ pos % 2 ^ w
  { v := (a &&& (2 ^ w - 1 - mask)) ||| (b * 2 ^ pos &&& mask) }

/-- SEXT (R126): IMM 6:0 is k. -/
def sextFn (x : Ins) (a _b _c : Nat) : AluOut := { v := (sx (x.ifld 0 7) a % 2 ^ opW x.f.t).toNat }

/-- PERMB (R127). -/
def permbFn (_ : Ins) (a b c : Nat) : AluOut :=
  let pool := a % 2 ^ 32 + b * 2 ^ 32
  { v := onElems 8 (fun i =>
      let s := natBits c (4 * i) 4
      let v := natBits pool (8 * (s % 8)) 8
      if s < 8 then v else if 128 ≤ v then 255 else 0) 4 }

/-- CMP (R128): the condition is M 2:0. -/
def cmpFn (x : Ins) (a b _c : Nat) : AluOut :=
  let e (v : Nat) : Int := elemInt (signedT x.f.t) (opW x.f.t) v
  { p := some (x.f.d.toNat, cmpCond x.order (e a) (e b)) }

/-- DP4 (R129). -/
def dp4Fn (x : Ins) (a b c : Nat) : AluOut :=
  let n8 := x.f.t = 11
  let sb := if n8 then x.mb 5 else !x.mb 5
  let sc := !n8 || x.mb 5
  let term (i : Nat) : Int := elemInt (!n8) 8 (a / 2 ^ (8 * i)) * elemInt sb 8 (b / 2 ^ (8 * i))
  { v := wrapSat (x.mb 4) sc 32 (elemInt sc 32 c + term 0 + term 1 + term 2 + term 3) }

/-- LEA (R130): the index by the type, the scale in M 2:0, the offset in IMM. -/
def leaFn (x : Ins) (a b _c : Nat) : AluOut :=
  let idx : Int := if x.f.t = 0 then sx 32 b else (b : Int)
  { v := (((a : Int) + idx * 2 ^ x.order + x.f.imm.toInt) % 2 ^ 64).toNat }

/-- ADD, R117: Short-form element-wise integer add. -/
def execAdd (f : Short) (s : State) : Out := alu addFn (Ins.ofBody .add (.short f)) s

/-- ADD_LIT, R117: Integer add with a literal operand B. -/
def execAddLit (f : Short) (l : Dword) (s : State) : Out := alu addFn (Ins.ofBody .add (.lit f l)) s

/-- ADD_LONG, R117: Long-form integer add with type, saturation or immediate. -/
def execAddLong (f : Long) (s : State) : Out := alu addFn (Ins.ofBody .add (.long f)) s

/-- SUB, R117: Short-form element-wise integer subtract. -/
def execSub (f : Short) (s : State) : Out := alu subFn (Ins.ofBody .sub (.short f)) s

/-- SUB_LIT, R117: Integer subtract with a literal operand B. -/
def execSubLit (f : Short) (l : Dword) (s : State) : Out := alu subFn (Ins.ofBody .sub (.lit f l)) s

/-- SUB_LONG, R117: Long-form integer subtract. -/
def execSubLong (f : Long) (s : State) : Out := alu subFn (Ins.ofBody .sub (.long f)) s

/-- ADDC, R120: 32-bit add with carry in and carry out through predicates. -/
def execAddc (f : Long) (s : State) : Out := alu addcFn (Ins.ofBody .addc (.long f)) s

/-- SUBC, R120: 32-bit subtract with borrow in and out through predicates. -/
def execSubc (f : Long) (s : State) : Out := alu subcFn (Ins.ofBody .subc (.long f)) s

/-- MUL, R117: Short-form integer multiply, low bits. -/
def execMul (f : Short) (s : State) : Out := alu mulFn (Ins.ofBody .mul (.short f)) s

/-- MUL_LIT, R117: Integer multiply with a literal operand B. -/
def execMulLit (f : Short) (l : Dword) (s : State) : Out := alu mulFn (Ins.ofBody .mul (.lit f l)) s

/-- MUL_LONG, R117: Long-form integer multiply. -/
def execMulLong (f : Long) (s : State) : Out := alu mulFn (Ins.ofBody .mul (.long f)) s

/-- MULH, R118: Short-form high 32 bits of a 64-bit product. -/
def execMulh (f : Short) (s : State) : Out := alu mulhFn (Ins.ofBody .mulh (.short f)) s

/-- MULH_LIT, R118: MULH with a literal operand B. -/
def execMulhLit (f : Short) (l : Dword) (s : State) : Out := alu mulhFn (Ins.ofBody .mulh (.lit f l)) s

/-- MULH_LONG, R118: Long-form MULH. -/
def execMulhLong (f : Long) (s : State) : Out := alu mulhFn (Ins.ofBody .mulh (.long f)) s

/-- MULW, R118: Short-form full 64-bit product into a pair. -/
def execMulw (f : Short) (s : State) : Out := alu mulwFn (Ins.ofBody .mulw (.short f)) s

/-- MULW_LIT, R118: MULW with a literal operand B. -/
def execMulwLit (f : Short) (l : Dword) (s : State) : Out := alu mulwFn (Ins.ofBody .mulw (.lit f l)) s

/-- MULW_LONG, R118: Long-form MULW. -/
def execMulwLong (f : Long) (s : State) : Out := alu mulwFn (Ins.ofBody .mulw (.long f)) s

/-- MAD, R117: Short-form multiply-add with D as accumulator. -/
def execMad (f : Short) (s : State) : Out := alu madFn (Ins.ofBody .mad (.short f)) s

/-- MAD_LIT, R117: MAD with a literal operand B. -/
def execMadLit (f : Short) (l : Dword) (s : State) : Out := alu madFn (Ins.ofBody .mad (.lit f l)) s

/-- MAD_LONG, R117: Long-form multiply-add with explicit C or immediates. -/
def execMadLong (f : Long) (s : State) : Out := alu madFn (Ins.ofBody .mad (.long f)) s

/-- MADW, R118: Short-form 64-bit product plus pair accumulator. -/
def execMadw (f : Short) (s : State) : Out := alu madwFn (Ins.ofBody .madw (.short f)) s

/-- MADW_LIT, R118: MADW with a literal operand B. -/
def execMadwLit (f : Short) (l : Dword) (s : State) : Out := alu madwFn (Ins.ofBody .madw (.lit f l)) s

/-- MADW_LONG, R118: Long-form MADW. -/
def execMadwLong (f : Long) (s : State) : Out := alu madwFn (Ins.ofBody .madw (.long f)) s

/-- DIV, R119: Short-form truncating integer division with defined division by zero. -/
def execDiv (f : Short) (s : State) : Out := alu divFn (Ins.ofBody .div (.short f)) s

/-- DIV_LIT, R119: DIV with a literal divisor. -/
def execDivLit (f : Short) (l : Dword) (s : State) : Out := alu divFn (Ins.ofBody .div (.lit f l)) s

/-- DIV_LONG, R119: Long-form DIV. -/
def execDivLong (f : Long) (s : State) : Out := alu divFn (Ins.ofBody .div (.long f)) s

/-- REM, R119: Short-form integer remainder. -/
def execRem (f : Short) (s : State) : Out := alu remFn (Ins.ofBody .rem (.short f)) s

/-- REM_LIT, R119: REM with a literal divisor. -/
def execRemLit (f : Short) (l : Dword) (s : State) : Out := alu remFn (Ins.ofBody .rem (.lit f l)) s

/-- REM_LONG, R119: Long-form REM. -/
def execRemLong (f : Long) (s : State) : Out := alu remFn (Ins.ofBody .rem (.long f)) s

/-- MIN, R117: Short-form element-wise integer minimum. -/
def execMin (f : Short) (s : State) : Out := alu minFn (Ins.ofBody .min (.short f)) s

/-- MIN_LIT, R117: MIN with a literal operand B. -/
def execMinLit (f : Short) (l : Dword) (s : State) : Out := alu minFn (Ins.ofBody .min (.lit f l)) s

/-- MIN_LONG, R117: Long-form MIN. -/
def execMinLong (f : Long) (s : State) : Out := alu minFn (Ins.ofBody .min (.long f)) s

/-- MAX, R117: Short-form element-wise integer maximum. -/
def execMax (f : Short) (s : State) : Out := alu maxFn (Ins.ofBody .max (.short f)) s

/-- MAX_LIT, R117: MAX with a literal operand B. -/
def execMaxLit (f : Short) (l : Dword) (s : State) : Out := alu maxFn (Ins.ofBody .max (.lit f l)) s

/-- MAX_LONG, R117: Long-form MAX. -/
def execMaxLong (f : Long) (s : State) : Out := alu maxFn (Ins.ofBody .max (.long f)) s

/-- ABS, R117: Short-form integer absolute value. -/
def execAbs (f : Short) (s : State) : Out := alu absFn (Ins.ofBody .abs (.short f)) s

/-- ABS_LONG, R117: Long-form ABS with type or saturation. -/
def execAbsLong (f : Long) (s : State) : Out := alu absFn (Ins.ofBody .abs (.long f)) s

/-- NEG, R117: Short-form integer negation. -/
def execNeg (f : Short) (s : State) : Out := alu negFn (Ins.ofBody .neg (.short f)) s

/-- NEG_LONG, R117: Long-form NEG. -/
def execNegLong (f : Long) (s : State) : Out := alu negFn (Ins.ofBody .neg (.long f)) s

/-- LEA, R130: Forms a 64-bit address from base, scaled index and offset. -/
def execLea (f : Long) (s : State) : Out := alu leaFn (Ins.ofBody .lea (.long f)) s

/-- AND, R121: Short-form bitwise AND. -/
def execAnd (f : Short) (s : State) : Out := alu andFn (Ins.ofBody .and (.short f)) s

/-- AND_LIT, R121: AND with a literal. -/
def execAndLit (f : Short) (l : Dword) (s : State) : Out := alu andFn (Ins.ofBody .and (.lit f l)) s

/-- AND_LONG, R121: Long-form AND. -/
def execAndLong (f : Long) (s : State) : Out := alu andFn (Ins.ofBody .and (.long f)) s

/-- OR, R121: Short-form bitwise OR. -/
def execOr (f : Short) (s : State) : Out := alu orFn (Ins.ofBody .or (.short f)) s

/-- OR_LIT, R121: OR with a literal. -/
def execOrLit (f : Short) (l : Dword) (s : State) : Out := alu orFn (Ins.ofBody .or (.lit f l)) s

/-- OR_LONG, R121: Long-form OR. -/
def execOrLong (f : Long) (s : State) : Out := alu orFn (Ins.ofBody .or (.long f)) s

/-- XOR, R121: Short-form bitwise XOR. -/
def execXor (f : Short) (s : State) : Out := alu xorFn (Ins.ofBody .xor (.short f)) s

/-- XOR_LIT, R121: XOR with a literal. -/
def execXorLit (f : Short) (l : Dword) (s : State) : Out := alu xorFn (Ins.ofBody .xor (.lit f l)) s

/-- XOR_LONG, R121: Long-form XOR. -/
def execXorLong (f : Long) (s : State) : Out := alu xorFn (Ins.ofBody .xor (.long f)) s

/-- ANDN, R121: Short-form A AND NOT B. -/
def execAndn (f : Short) (s : State) : Out := alu andnFn (Ins.ofBody .andn (.short f)) s

/-- ANDN_LIT, R121: ANDN with a literal. -/
def execAndnLit (f : Short) (l : Dword) (s : State) : Out := alu andnFn (Ins.ofBody .andn (.lit f l)) s

/-- ANDN_LONG, R121: Long-form ANDN. -/
def execAndnLong (f : Long) (s : State) : Out := alu andnFn (Ins.ofBody .andn (.long f)) s

/-- NOT, R121: Short-form bitwise NOT. -/
def execNot (f : Short) (s : State) : Out := alu notFn (Ins.ofBody .not (.short f)) s

/-- NOT_LONG, R121: Long-form NOT. -/
def execNotLong (f : Long) (s : State) : Out := alu notFn (Ins.ofBody .not (.long f)) s

/-- SHL, R122: Short-form shift left, count modulo width. -/
def execShl (f : Short) (s : State) : Out := alu shlFn (Ins.ofBody .shl (.short f)) s

/-- SHL_LIT, R122: SHL with a literal count. -/
def execShlLit (f : Short) (l : Dword) (s : State) : Out := alu shlFn (Ins.ofBody .shl (.lit f l)) s

/-- SHL_LONG, R122: Long-form SHL. -/
def execShlLong (f : Long) (s : State) : Out := alu shlFn (Ins.ofBody .shl (.long f)) s

/-- SHR, R122: Short-form logical shift right. -/
def execShr (f : Short) (s : State) : Out := alu shrFn (Ins.ofBody .shr (.short f)) s

/-- SHR_LIT, R122: SHR with a literal count. -/
def execShrLit (f : Short) (l : Dword) (s : State) : Out := alu shrFn (Ins.ofBody .shr (.lit f l)) s

/-- SHR_LONG, R122: Long-form SHR. -/
def execShrLong (f : Long) (s : State) : Out := alu shrFn (Ins.ofBody .shr (.long f)) s

/-- SRA, R122: Short-form arithmetic shift right. -/
def execSra (f : Short) (s : State) : Out := alu sraFn (Ins.ofBody .sra (.short f)) s

/-- SRA_LIT, R122: SRA with a literal count. -/
def execSraLit (f : Short) (l : Dword) (s : State) : Out := alu sraFn (Ins.ofBody .sra (.lit f l)) s

/-- SRA_LONG, R122: Long-form SRA. -/
def execSraLong (f : Long) (s : State) : Out := alu sraFn (Ins.ofBody .sra (.long f)) s

/-- ROTL, R122: Short-form rotate left. -/
def execRotl (f : Short) (s : State) : Out := alu rotlFn (Ins.ofBody .rotl (.short f)) s

/-- ROTL_LIT, R122: ROTL with a literal count. -/
def execRotlLit (f : Short) (l : Dword) (s : State) : Out := alu rotlFn (Ins.ofBody .rotl (.lit f l)) s

/-- ROTL_LONG, R122: Long-form ROTL. -/
def execRotlLong (f : Long) (s : State) : Out := alu rotlFn (Ins.ofBody .rotl (.long f)) s

/-- POPC, R123: Short-form population count. -/
def execPopc (f : Short) (s : State) : Out := alu popcFn (Ins.ofBody .popc (.short f)) s

/-- POPC_LONG, R123: Long-form POPC. -/
def execPopcLong (f : Long) (s : State) : Out := alu popcFn (Ins.ofBody .popc (.long f)) s

/-- CLZ, R123: Short-form count of leading zeros. -/
def execClz (f : Short) (s : State) : Out := alu clzFn (Ins.ofBody .clz (.short f)) s

/-- CLZ_LONG, R123: Long-form CLZ. -/
def execClzLong (f : Long) (s : State) : Out := alu clzFn (Ins.ofBody .clz (.long f)) s

/-- CTZ, R123: Short-form count of trailing zeros. -/
def execCtz (f : Short) (s : State) : Out := alu ctzFn (Ins.ofBody .ctz (.short f)) s

/-- CTZ_LONG, R123: Long-form CTZ. -/
def execCtzLong (f : Long) (s : State) : Out := alu ctzFn (Ins.ofBody .ctz (.long f)) s

/-- BREV, R123: Short-form bit reversal. -/
def execBrev (f : Short) (s : State) : Out := alu brevFn (Ins.ofBody .brev (.short f)) s

/-- BREV_LONG, R123: Long-form BREV. -/
def execBrevLong (f : Long) (s : State) : Out := alu brevFn (Ins.ofBody .brev (.long f)) s

/-- BFX, R124: Extracts a bit field, sign- or zero-extended. -/
def execBfx (f : Long) (s : State) : Out := alu bfxFn (Ins.ofBody .bfx (.long f)) s

/-- BFI, R125: Inserts low bits of B into a field of A. -/
def execBfi (f : Long) (s : State) : Out := alu bfiFn (Ins.ofBody .bfi (.long f)) s

/-- CMP, R128: Integer comparison into a predicate. -/
def execCmp (f : Long) (s : State) : Out := alu cmpFn (Ins.ofBody .cmp (.long f)) s

/-- SEXT, R126: Sign-extends the low k bits of A. -/
def execSext (f : Long) (s : State) : Out := alu sextFn (Ins.ofBody .sext (.long f)) s

/-- PERMB, R127: Assembles D from a byte selection of A and B. -/
def execPermb (f : Long) (s : State) : Out := alu permbFn (Ins.ofBody .permb (.long f)) s

/-- DP4, R129: Short-form dot product of four 8-bit pairs into an accumulator D. -/
def execDp4 (f : Short) (s : State) : Out := alu dp4Fn (Ins.ofBody .dp4 (.short f)) s

/-- DP4_LIT, R129: DP4 with a literal operand B. -/
def execDp4Lit (f : Short) (l : Dword) (s : State) : Out := alu dp4Fn (Ins.ofBody .dp4 (.lit f l)) s

/-- DP4_LONG, R129: Long-form DP4 with .mix, .sat or explicit C. -/
def execDp4Long (f : Long) (s : State) : Out := alu dp4Fn (Ins.ofBody .dp4 (.long f)) s

end Sys2Proof.Machine
end

