-- ==== Sys2Proof/Machine/Floating.lean ====
section
/-! DEFINITION. The floating-point and format instructions, opcodes 0x50 to 0x6B (spec/07), over Machine/Float.lean. -/

namespace Sys2Proof.Machine

/-- The number format of a type (Table 2-7). -/
def fmtT (t : BitVec 4) : Fmt :=
  match t.toNat with
  | 5 => fmtF16
  | 6 => fmtBF16
  | 7 => fmtF64
  | 12 => fmtE4M3
  | 13 => fmtE5M2
  | _ => fmtF32

/-- A function of encodings over the elements of the type: results packed, flags of all elements together (R138). -/
def onFElems (t : BitVec 4) (f : Nat → Nat × Word) : AluOut :=
  let w := elemW t
  let n := opW t / w
  { v := onElems w (fun i => (f i).1) n,
    flags := (List.range n).foldl (fun a i => a ||| (f i).2) 0 }

/-- Element `i` of an operand of a type. -/
def fel (t : BitVec 4) (v i : Nat) : Nat := v / 2 ^ (elemW t * i) % 2 ^ elemW t

/-- The clamp of .sat on a result; it raises no flag (R143). -/
def satBit (x : Ins) (r : Nat × Word) : Nat × Word := if x.mb 4 then (fsat (fmtT x.f.t) r.1, r.2) else r

/-- FADD (R143). -/
def faddFn (x : Ins) (a b _c : Nat) : AluOut :=
  onFElems x.f.t fun i => satBit x (faddBits (fmtT x.f.t) x.order (x.mb 3) (fel x.f.t a i) (fel x.f.t b i))
/-- FSUB (R143). -/
def fsubFn (x : Ins) (a b _c : Nat) : AluOut :=
  onFElems x.f.t fun i => satBit x (fsubBits (fmtT x.f.t) x.order (x.mb 3) (fel x.f.t a i) (fel x.f.t b i))
/-- FMUL (R143). -/
def fmulFn (x : Ins) (a b _c : Nat) : AluOut :=
  onFElems x.f.t fun i => satBit x (fmulBits (fmtT x.f.t) x.order (x.mb 3) (fel x.f.t a i) (fel x.f.t b i))
/-- FFMA (R143). -/
def ffmaFn (x : Ins) (a b c : Nat) : AluOut :=
  onFElems x.f.t fun i =>
    satBit x (ffmaBits (fmtT x.f.t) x.order (x.mb 3) (fel x.f.t a i) (fel x.f.t b i) (fel x.f.t c i))
/-- FMIN (R144). -/
def fminFn (x : Ins) (a b _c : Nat) : AluOut :=
  onFElems x.f.t fun i => fminmaxBits (fmtT x.f.t) false (x.mb 3) (fel x.f.t a i) (fel x.f.t b i)
/-- FMAX (R144). -/
def fmaxFn (x : Ins) (a b _c : Nat) : AluOut :=
  onFElems x.f.t fun i => fminmaxBits (fmtT x.f.t) true (x.mb 3) (fel x.f.t a i) (fel x.f.t b i)

/-- An encoding with its sign bit replaced (R147). -/
def withSign (f : Fmt) (a : Nat) (neg : Bool) : Nat := a % 2 ^ (f.w - 1) + f.sign neg
/-- FABS (R147). -/
def fabsFn (x : Ins) (a _b _c : Nat) : AluOut :=
  onFElems x.f.t fun i => (withSign (fmtT x.f.t) (fel x.f.t a i) false, 0)
/-- FNEG (R147). -/
def fnegFn (x : Ins) (a _b _c : Nat) : AluOut :=
  onFElems x.f.t fun i => (withSign (fmtT x.f.t) (fel x.f.t a i) (!(fel x.f.t a i).testBit (elemW x.f.t - 1)), 0)
/-- FSGN (R147): the op is M 6:5. -/
def fsgnFn (x : Ins) (a b _c : Nat) : AluOut :=
  onFElems x.f.t fun i =>
    let sa := (fel x.f.t a i).testBit (elemW x.f.t - 1)
    let sb := (fel x.f.t b i).testBit (elemW x.f.t - 1)
    let n := match ((x.f.m >>> 5) &&& 3).toNat with
      | 0 => sb
      | 1 => !sb
      | _ => sa != sb
    (withSign (fmtT x.f.t) (fel x.f.t a i) n, 0)

/-- FCMP (R145): the condition is M 2:0. -/
def fcmpFn (x : Ins) (a b _c : Nat) : AluOut :=
  let (p, fl) := fcmpBits (fmtT x.f.t) x.order (x.mb 3) a b
  { p := some (x.f.d.toNat, p), flags := fl }

/-- FCLASS (R146): a class mask per element, element 1 in bits 25:16. -/
def fclassFn (x : Ins) (a _b _c : Nat) : AluOut :=
  let m (i : Nat) : Nat := fclassBits (fmtT x.f.t) (fel x.f.t a i)
  { v := if elemW x.f.t = 16 then m 0 + m 1 * 2 ^ 16 else m 0 }

/-- FDIV (R150). -/
def fdivFn (x : Ins) (a b _c : Nat) : AluOut :=
  onFElems x.f.t fun i => fdivBits (fmtT x.f.t) x.order (x.mb 3) (fel x.f.t a i) (fel x.f.t b i)
/-- FSQRT (R150). -/
def fsqrtFn (x : Ins) (a _b _c : Nat) : AluOut :=
  onFElems x.f.t fun i => fsqrtBits (fmtT x.f.t) x.order (x.mb 3) (fel x.f.t a i)

/-- An approximation of R151 on the elements of A. -/
def apxFn (fn : Bool → Word → Nat × Word) (x : Ins) (a _b _c : Nat) : AluOut :=
  onFElems x.f.t fun i =>
    if x.f.t = 4 then fn (x.mb 3) (BitVec.ofNat 32 a) else apxElem fn (fmtT x.f.t) (x.mb 3) (fel x.f.t a i)

/-- FRND (R149). -/
def frndFn (x : Ins) (a _b _c : Nat) : AluOut :=
  onFElems x.f.t fun i => frndBits (fmtT x.f.t) x.order (fel x.f.t a i)

/-- FSCL (R148): B is a signed 32-bit integer. -/
def fsclFn (x : Ins) (a b _c : Nat) : AluOut :=
  onFElems x.f.t fun i => fsclBits (fmtT x.f.t) x.order (x.mb 3) (fel x.f.t a i) (sx 32 b)

/-- FCVT (R152): T is the destination, M 7:5 the source format. -/
def fcvtFn (x : Ins) (a b _c : Nat) : AluOut :=
  let src := (x.f.m >>> 5).toNat
  let cv (f : Fmt) (v : Nat) : Nat × Word := fcvtBits f (fmtT x.f.t) x.order (x.mb 3) v
  match x.f.t.toNat, src with
  | 4, 0 => onFElems 4 fun _ => cv fmtF64 a
  | 4, 1 => onFElems 4 fun _ => cv fmtF16 (natBits a 0 16)
  | 4, 2 => onFElems 4 fun _ => cv fmtF16 (natBits a 16 16)
  | 4, 3 => onFElems 4 fun _ => cv fmtBF16 (natBits a 0 16)
  | 4, _ => onFElems 4 fun _ => cv fmtBF16 (natBits a 16 16)
  | 7, _ => onFElems 7 fun _ => cv fmtF32 a
  | _, 0 => onFElems x.f.t fun i => cv fmtF32 (if i = 0 then a else b)
  | 5, _ => onFElems 5 fun i => cv fmtBF16 (natBits a (16 * i) 16)
  | _, _ => onFElems 6 fun i => cv fmtF16 (natBits a (16 * i) 16)

/-- FCVTI (R153): T is the integer type, M 7:5 the source format. -/
def fcvtiFn (x : Ins) (a _b _c : Nat) : AluOut :=
  let sg := signedT x.f.t
  let w := opW x.f.t
  let (f, v) := match (x.f.m >>> 5).toNat with
    | 0 => (fmtF32, a)
    | 1 => (fmtF64, a)
    | 2 => (fmtF16, natBits a 0 16)
    | _ => (fmtBF16, natBits a 0 16)
  let (r, fl) := fcvtiBits f x.order (loInt sg w) (hiInt sg w) v
  { v := (r % 2 ^ w).toNat, flags := fl }

/-- ICVTF (R154): M 7:5 is the integer source. -/
def icvtfFn (x : Ins) (a _b _c : Nat) : AluOut :=
  let v : Int := match (x.f.m >>> 5).toNat with
    | 0 => sx 32 a
    | 1 => (a : Int)
    | 2 => sx 64 a
    | _ => (a : Int)
  let (r, fl) := icvtfBits (fmtT x.f.t) x.order v
  { v := r, flags := fl }

/-- PACK8 (R155 to R157): M 6:5 is the source format. -/
def pack8Fn (x : Ins) (a b c : Nat) : AluOut :=
  let dst := fmtT x.f.t
  let cv (f : Fmt) (v : Nat) : Nat × Word := cvt8 f dst x.order (x.mb 4) v
  match ((x.f.m >>> 5) &&& 3).toNat with
  | 0 =>
    let (ra, fa) := cv fmtF32 a
    let (rb, fb) := cv fmtF32 b
    let h := x.ib 0
    let keep := if x.mb 7 then 0 else if h then c % 2 ^ 16 else c / 2 ^ 16 * 2 ^ 16
    { v := keep + (ra + rb * 256) * (if h then 2 ^ 16 else 1), flags := fa ||| fb }
  | k =>
    let f := if k = 1 then fmtF16 else fmtBF16
    let r (i : Nat) : Nat × Word := cv f (natBits (if i < 2 then a else b) (16 * (i % 2)) 16)
    { v := onElems 8 (fun i => (r i).1) 4, flags := (r 0).2 ||| (r 1).2 ||| (r 2).2 ||| (r 3).2 }

/-- UNPK8 (R158): M bit 5 selects e5m2; it raises no flag. -/
def unpk8Fn (x : Ins) (a _b _c : Nat) : AluOut :=
  let src := if x.mb 5 then fmtE5M2 else fmtE4M3
  let i := x.ifld 0 2
  let up (k : Nat) : Nat := (fcvtBits src (fmtT x.f.t) 0 false (natBits a (8 * k) 8)).1
  { v := if x.f.t = 4 then up i else up (2 * i) + up (2 * i + 1) * 2 ^ 16 }

/-- The magnitude of element `k` of an lq2 codeword (R159). -/
def lqMag (cw k : Nat) : Int := if cw.testBit (7 + k) then 3 else 1
/-- The sign of element `k` of an lq2 codeword, below 7 (R159). -/
def lqSign (cw k : Nat) : Int := if cw.testBit k then -1 else 1
/-- The value of element `k` of an lq2 codeword (R159): the sign of element 7 brings the sum to 0 modulo 4. -/
def lqElem (cw k : Nat) : Int :=
  let t := (List.range 7).foldl (fun a i => a + lqSign cw i * lqMag cw i) 0
  let s : Int := if k < 7 then lqSign cw k else if (t + lqMag cw 7) % 4 = 0 then 1 else -1
  s * lqMag cw k * (if cw.testBit 15 then 1 else 2)
/-- LQD (R159): IMM bit 0 selects the codeword. -/
def lqdFn (x : Ins) (a _b _c : Nat) : AluOut :=
  let cw := natBits a (if x.ib 0 then 16 else 0) 16
  { v := onElems 4 (fun k => (lqElem cw k % 16).toNat) 8 }

/-- FDOT2 (R160). -/
def fdot2Fn (x : Ins) (a b c : Nat) : AluOut :=
  let (r, fl) := fdot2Bits (fmtT x.f.t) x.order (x.mb 3) (natBits a 0 16) (natBits a 16 16) (natBits b 0 16)
    (natBits b 16 16) c
  { v := r, flags := fl }

/-- FADD, R143: Short-form floating-point add with .rn. -/
def execFadd (f : Short) (s : State) : Out := alu faddFn (Ins.ofBody .fadd (.short f)) s

/-- FADD_LIT, R143: FADD with a literal operand B. -/
def execFaddLit (f : Short) (l : Dword) (s : State) : Out := alu faddFn (Ins.ofBody .fadd (.lit f l)) s

/-- FADD_LONG, R143: Long-form FADD with rounding, .ftz or .sat. -/
def execFaddLong (f : Long) (s : State) : Out := alu faddFn (Ins.ofBody .fadd (.long f)) s

/-- FSUB, R143: Short-form floating-point subtract. -/
def execFsub (f : Short) (s : State) : Out := alu fsubFn (Ins.ofBody .fsub (.short f)) s

/-- FSUB_LIT, R143: FSUB with a literal operand B. -/
def execFsubLit (f : Short) (l : Dword) (s : State) : Out := alu fsubFn (Ins.ofBody .fsub (.lit f l)) s

/-- FSUB_LONG, R143: Long-form FSUB. -/
def execFsubLong (f : Long) (s : State) : Out := alu fsubFn (Ins.ofBody .fsub (.long f)) s

/-- FMUL, R143: Short-form floating-point multiply. -/
def execFmul (f : Short) (s : State) : Out := alu fmulFn (Ins.ofBody .fmul (.short f)) s

/-- FMUL_LIT, R143: FMUL with a literal operand B. -/
def execFmulLit (f : Short) (l : Dword) (s : State) : Out := alu fmulFn (Ins.ofBody .fmul (.lit f l)) s

/-- FMUL_LONG, R143: Long-form FMUL. -/
def execFmulLong (f : Long) (s : State) : Out := alu fmulFn (Ins.ofBody .fmul (.long f)) s

/-- FFMA, R143: Short-form fused multiply-add with D as accumulator. -/
def execFfma (f : Short) (s : State) : Out := alu ffmaFn (Ins.ofBody .ffma (.short f)) s

/-- FFMA_LIT, R143: FFMA with a literal operand B. -/
def execFfmaLit (f : Short) (l : Dword) (s : State) : Out := alu ffmaFn (Ins.ofBody .ffma (.lit f l)) s

/-- FFMA_LONG, R143: Long-form FFMA with explicit C and modifiers. -/
def execFfmaLong (f : Long) (s : State) : Out := alu ffmaFn (Ins.ofBody .ffma (.long f)) s

/-- FMIN, R144: Short-form minimumNumber. -/
def execFmin (f : Short) (s : State) : Out := alu fminFn (Ins.ofBody .fmin (.short f)) s

/-- FMIN_LIT, R144: FMIN with a literal operand B. -/
def execFminLit (f : Short) (l : Dword) (s : State) : Out := alu fminFn (Ins.ofBody .fmin (.lit f l)) s

/-- FMIN_LONG, R144: Long-form FMIN. -/
def execFminLong (f : Long) (s : State) : Out := alu fminFn (Ins.ofBody .fmin (.long f)) s

/-- FMAX, R144: Short-form maximumNumber. -/
def execFmax (f : Short) (s : State) : Out := alu fmaxFn (Ins.ofBody .fmax (.short f)) s

/-- FMAX_LIT, R144: FMAX with a literal operand B. -/
def execFmaxLit (f : Short) (l : Dword) (s : State) : Out := alu fmaxFn (Ins.ofBody .fmax (.lit f l)) s

/-- FMAX_LONG, R144: Long-form FMAX. -/
def execFmaxLong (f : Long) (s : State) : Out := alu fmaxFn (Ins.ofBody .fmax (.long f)) s

/-- FABS, R147: Clears the sign bit of each element. -/
def execFabs (f : Long) (s : State) : Out := alu fabsFn (Ins.ofBody .fabs (.long f)) s

/-- FNEG, R147: Inverts the sign bit of each element. -/
def execFneg (f : Long) (s : State) : Out := alu fnegFn (Ins.ofBody .fneg (.long f)) s

/-- FCMP, R145: Floating-point comparison into a predicate. -/
def execFcmp (f : Long) (s : State) : Out := alu fcmpFn (Ins.ofBody .fcmp (.long f)) s

/-- FCLASS, R146: Writes a class mask for each element. -/
def execFclass (f : Long) (s : State) : Out := alu fclassFn (Ins.ofBody .fclass (.long f)) s

/-- FDIV, R150: Correctly rounded floating-point division. -/
def execFdiv (f : Long) (s : State) : Out := alu fdivFn (Ins.ofBody .fdiv (.long f)) s

/-- FSQRT, R150: Correctly rounded square root. -/
def execFsqrt (f : Long) (s : State) : Out := alu fsqrtFn (Ins.ofBody .fsqrt (.long f)) s

/-- FRCP, R151: Approximate reciprocal. -/
def execFrcp (f : Long) (s : State) : Out := alu (apxFn frcp32) (Ins.ofBody .frcp (.long f)) s

/-- FRSQ, R151: Approximate reciprocal square root. -/
def execFrsq (f : Long) (s : State) : Out := alu (apxFn frsq32) (Ins.ofBody .frsq (.long f)) s

/-- FEXP2, R151: Approximate base-2 exponential. -/
def execFexp2 (f : Long) (s : State) : Out := alu (apxFn fexp232) (Ins.ofBody .fexp2 (.long f)) s

/-- FLOG2, R151: Approximate base-2 logarithm. -/
def execFlog2 (f : Long) (s : State) : Out := alu (apxFn flog232) (Ins.ofBody .flog2 (.long f)) s

/-- FSIN, R151: Approximate sine. -/
def execFsin (f : Long) (s : State) : Out := alu (apxFn (fsincos32 false)) (Ins.ofBody .fsin (.long f)) s

/-- FCOS, R151: Approximate cosine. -/
def execFcos (f : Long) (s : State) : Out := alu (apxFn (fsincos32 true)) (Ins.ofBody .fcos (.long f)) s

/-- FRND, R149: Rounds each element to an integral value. -/
def execFrnd (f : Long) (s : State) : Out := alu frndFn (Ins.ofBody .frnd (.long f)) s

/-- FCVT, R152: Converts between floating-point formats. -/
def execFcvt (f : Long) (s : State) : Out := alu fcvtFn (Ins.ofBody .fcvt (.long f)) s

/-- FCVTI, R153: Converts a float to a saturated integer. -/
def execFcvti (f : Long) (s : State) : Out := alu fcvtiFn (Ins.ofBody .fcvti (.long f)) s

/-- ICVTF, R154: Converts an integer to f32 or f64. -/
def execIcvtf (f : Long) (s : State) : Out := alu icvtfFn (Ins.ofBody .icvtf (.long f)) s

/-- FSGN, R147: Sets the sign bit by copy, ncopy or xor of B. -/
def execFsgn (f : Long) (s : State) : Out := alu fsgnFn (Ins.ofBody .fsgn (.long f)) s

/-- FSCL, R148: Scales each element by 2 to the power n. -/
def execFscl (f : Long) (s : State) : Out := alu fsclFn (Ins.ofBody .fscl (.long f)) s

/-- PACK8, R155: Converts to e4m3 or e5m2 and packs the bytes. -/
def execPack8 (f : Long) (s : State) : Out := alu pack8Fn (Ins.ofBody .pack8 (.long f)) s

/-- UNPK8, R158: Widens 8-bit float elements exactly. -/
def execUnpk8 (f : Long) (s : State) : Out := alu unpk8Fn (Ins.ofBody .unpk8 (.long f)) s

/-- LQD, R159: Decodes an lq2 codeword into eight 4-bit values. -/
def execLqd (f : Long) (s : State) : Out := alu lqdFn (Ins.ofBody .lqd (.long f)) s

/-- FDOT2, R160: Dot product of two 16-bit pairs plus an f32 accumulator, rounded once. -/
def execFdot2 (f : Long) (s : State) : Out := alu fdot2Fn (Ins.ofBody .fdot2 (.long f)) s

end Sys2Proof.Machine
end

