-- ==== Sys2Proof/Machine/Perform.lean ====
section
/-! DEFINITION. What an access does where it is performed: the bytes it reads and writes, atomic operations (R195, R196, R203,
R204), declared buffers (R189 to R192), the L1 and the remote-data cache (R193, R214, R245), replies and landings (R95,
R194, R220, R400), and remote failures (R368, R369). -/

namespace Sys2Proof.Machine

/-! ### Atomic operations (Table 9-8) -/

/-- The new value of an atomic of type `t` (R196, R203). -/
def atomNew (op : Nat) (t : BitVec 4) (old b : Nat) : Nat :=
  let w := if t = 2 || t = 3 || t = 7 then 64 else 32
  let sg := t = 0 || t = 2
  let e (v : Nat) : Int := if sg then sx w v else (v : Int)
  let float := t = 4 || t = 5 || t = 6 || t = 7
  let f (g : Fmt → Nat → Nat → Nat × Word) : Nat :=
    (onFElems t fun i => g (fmtT t) (fel t old i) (fel t b i)).v
  match op with
  | 0 => if float then f fun m x y => faddBits m 0 false x y else (old + b) % 2 ^ w
  | 1 => if float then f fun m x y => fminmaxBits m false false x y else if e b < e old then b else old
  | 2 => if float then f fun m x y => fminmaxBits m true false x y else if e old < e b then b else old
  | 3 => old &&& b
  | 4 => old ||| b
  | 5 => old ^^^ b
  | 6 => b
  | 7 => if b ≤ old then 0 else old + 1
  | _ => if old = 0 ∨ b < old then b else old - 1

/-- The 4-byte elements of memory with those of an operand added (R296, R324). -/
def addElems (t : BitVec 4) (old v : Nat) : Nat → List Byte
  | 0 => []
  | n + 1 => leBytes 4 (atomNew 0 t (old % 2 ^ 32) (v % 2 ^ 32)) ++ addElems t (old / 2 ^ 32) (v / 2 ^ 32) n

/-- Table 9-5: an access of a thread of the buffer's die is forbidden. `k` is the kind of the access. -/
def bufForbids (k : ReqKind) (state : Nat) : Bool :=
  match k with
  | .ld | .ldc => decide (state ≤ 1)
  | .st | .red => decide (2 ≤ state)
  | .atom | .cas => true
  | _ => false

/-! ### L1 (R193, R214) -/

/-- The key of the sector that holds a physical address. -/
def sectorOf (pa : Nat) : Nat := pa / 32

/-- The generation under which a copy made now by a core counts: 0 for T. -/
def genOf (s : State) (core cls : Nat) : Nat := if cls = 1 then (s.die (dieOfCore core)).rdcGen else 0

/-- The sector in L1, where it counts as present. -/
def l1Get (s : State) (core cls pa : Nat) : Option L1Sector :=
  ((s.core core).l1.find? fun e => e.1 = sectorOf pa && e.2.gen = genOf s core cls).map (·.2)

/-- A list of bytes with some replaced from an offset on. -/
def patch (l : List Byte) (i : Nat) (b : List Byte) : List Byte := l.take i ++ b ++ l.drop (i + b.length)

/-- The lines that a set of the L1 holds, each with the last use of its sectors: 64 sets of 64 ways. -/
def l1Lines (l : KV L1Sector) (set : Nat) : KV Nat :=
  l.foldl (fun a e => if e.1 / 2 % 64 = set then kvSet a (e.1 / 2) (max e.2.used (kvGet 0 a (e.1 / 2))) else a) []

/-- The L1 without the least recently used line of a set that is over-full. -/
def l1Evict (l : KV L1Sector) (set : Nat) : KV L1Sector :=
  match l1Lines l set with
  | [] => l
  | e :: r =>
    if r.length < 64 then l else
    let v := r.foldl (fun b x => if x.2 < b.2 then x else b) e
    l.filter fun x => x.1 / 2 ≠ v.1

/-- Fills a sector with the bytes that its home holds now; it is dropped 4,096 clk later (R214). -/
def l1Fill (s : State) (core cls pa : Nat) (ldc : Bool) : State :=
  let k := sectorOf pa
  let x : L1Sector := { data := bytesAt s cls (32 * k) 32, fill := s.clk, ldc := ldc, used := s.clk, gen := genOf s core cls }
  (s.modCore core fun c => { c with l1 := l1Evict (kvSet c.l1 k x) (k / 2 % 64) }).post 4096 (.l1SectorExpiry core k)

/-- A store of the core updates a sector that is present (R193). -/
def l1Store (s : State) (core pa : Nat) (b : List Byte) : State :=
  s.modCore core fun c => { c with l1 := c.l1.map (fun e =>
    if e.1 = sectorOf pa then (e.1, { e.2 with data := patch e.2.data (pa % 32) b }) else e) }

/-- Drops the sector of an address. -/
def l1Drop (s : State) (core pa : Nat) : State := s.modCore core fun c => { c with l1 := kvDel c.l1 (sectorOf pa) }

/-- Self-invalidation: every sector but those that LDC brought in (R220). -/
def l1Acquire (s : State) (core : Nat) : State := s.modCore core fun c => { c with l1 := c.l1.filter fun e => e.2.ldc }

/-- L1_SECTOR_EXPIRY, R214. -/
def evL1SectorExpiry (s : State) (core k : Nat) : State :=
  s.modCore core fun c => { c with l1 := c.l1.filter fun e => !(e.1 = k && decide (e.2.fill + 4096 ≤ s.clk)) }

/-! ### Remote-data cache (R244, R245)

The cache of a die is the highest part of its memory: entry `i` is a line, its metadata word that of Table 11-5. -/

/-- The entries of a die's cache: 2 GiB, 4 GiB or 8 GiB of 64 bytes each (Table 11-4). -/
def rdcEntries (x : Die) : Nat := if x.rdcSize = 0 then 0 else 2 ^ (24 + x.rdcSize)

/-- The line of an entry of a die's cache (R244; notes/assumptions/89.md). -/
def rdcLine (s : State) (d i : Nat) : Nat :=
  (pkgOfDie d * 2 ^ Config.paPkgBit + (d % 16 + 1) * 2 ^ Config.paDieBit) / 64 - rdcEntries (s.die d) + i

/-- A line is an entry of its die's cache. -/
def inRdc (s : State) (line : Nat) : Bool :=
  let d := homeDie (64 * line)
  decide (0 < rdcEntries (s.die d)) && decide (rdcLine s d 0 ≤ line)

/-- The generation of an entry's word (Table 11-5). -/
def rdcGenOf (w : Word) : Nat := natBits w.toNat 26 6
/-- The tag of a line: bits 51:28 of its physical address. -/
def rdcTag (pa : Nat) : Nat := natBits pa 28 24
/-- The bit of an entry's word that says whether the sector of an address is valid. -/
def sectBit (pa : Nat) : Nat := 24 + pa / 32 % 2

/-- The eight ways that may hold a line. -/
def rdcWays (s : State) (d pa : Nat) : List Nat :=
  (List.range 8).map fun w => rdcLine s d (8 * (pa / 64 % (rdcEntries (s.die d) / 8)) + w)

/-- Makes an entry invalid. -/
def rdcDrop (s : State) (line : Nat) : State := { s with metaw := kvDel s.metaw line, errs := kvDel s.errs line }

/-- An entry is read from HBM4E and decoded (R234): an uncorrectable one becomes invalid. -/
def rdcDecode (s : State) (line : Nat) : State :=
  let es := kvGet [] s.errs line
  match correction es with
  | none => rdcDrop (countBad s line) line
  | some fix => takeFix s line es fix

/-- The entry of the current generation for an address. -/
def rdcFind (s : State) (d pa : Nat) : Option Nat :=
  (rdcWays s d pa).find? fun l => decide (rdcGenOf (metaOf s l) = (s.die d).rdcGen) && decide (natBits (metaOf s l).toNat 0 24 = rdcTag pa)

/-- A look into the cache: a valid entry's sector. -/
def rdcGet (s : State) (d pa : Nat) : State × Option (List Byte) :=
  if (s.die d).rdcSize = 0 then (s, none) else
  let s := (rdcWays s d pa).foldl rdcDecode s
  (s, match rdcFind s d pa with
    | some l => if (metaOf s l).getLsbD (sectBit pa) then some (memRead s.mem (64 * l + pa / 32 % 2 * 32) 32) else none
    | none => none)

/-- Writes the sector of an address, as home holds it now, into the cache; a new entry takes a way of the cache's own choice. -/
def rdcFill (s : State) (d pa : Nat) : State :=
  if (s.die d).rdcSize = 0 then s else
  let (l, w, s) := match rdcFind s d pa with
    | some l => (l, metaOf s l, s)
    | none =>
      let (v, s) := s.chooseBelow 8
      ((rdcWays s d pa).getD v 0, BitVec.ofNat 32 ((s.die d).rdcGen * 2 ^ 26 + rdcTag pa), s)
  { s with
    mem := memWrite s.mem (64 * l + pa / 32 % 2 * 32) (bytesAt s 1 (pa / 32 * 32) 32)
    metaw := kvSet s.metaw l (w ||| BitVec.ofNat 32 (2 ^ sectBit pa))
    errs := kvDel s.errs l }

/-- A store of the die updates a valid entry's sector. -/
def rdcStore (s : State) (d pa : Nat) : State :=
  match rdcGet s d pa with
  | (s, some _) => rdcFill s d pa
  | (s, none) => s

/-- The entries of a die's cache that carry a generation. -/
def rdcOfGen (s : State) (d g : Nat) : List Nat :=
  let base := rdcLine s d 0
  s.metaw.filterMap fun m =>
    if homeDie (64 * m.1) = d ∧ inRdc s m.1 ∧ rdcGenOf m.2 = g then some (m.1 - base) else none

/-- Every entry of a die's cache becomes invalid, as where its size changes. -/
def rdcClear (s : State) (d : Nat) : State :=
  { s with metaw := s.metaw.filter fun m => !(decide (homeDie (64 * m.1) = d) && inRdc s m.1) }

/-- The clks until the sweeper next reads an entry: it reads entry `clk` modulo their number in each clk (R246). -/
def sweepIn (s : State) (d i : Nat) : Nat :=
  let n := rdcEntries (s.die d)
  (i + n - (s.clk + 1) % n) % n + 1

/-! ### Orders -/

/-- The order makes a read acquire (Table 10-2). -/
def isAcq (o : Nat) : Bool := o = 1 || o = 3 || o = 4
/-- The order makes a write release. -/
def isRel (o : Nat) : Bool := o = 2 || o = 3 || o = 4

/-- The access's read is an acquire, given its outcome (R204, R215). A CAS succeeded where `value` is its compare value. -/
def acquires (r : Req) : Bool :=
  match r.kind with
  | .ld | .ldb => isAcq r.order
  | .atom => isAcq r.order
  | .cas => if r.value = bytesNat r.data then isAcq r.order else r.fo
  | _ => false

/-- The access holds its thread's later accesses until it lands (R220). -/
def holdsLater (r : Req) : Bool :=
  match r.kind with
  | .ld | .ldb | .atom => isAcq r.order
  | .cas => isAcq r.order || r.fo
  | .st => r.order = 4
  | _ => false

/-- The access brings a value to registers. -/
def isRead (k : ReqKind) : Bool :=
  match k with
  | .ld | .ldc | .atom | .cas | .ldb => true
  | _ => false

/-- The access takes a read entry (R194). -/
def takesRead (k : ReqKind) : Bool :=
  match k with
  | .ld | .ldc | .atom | .cas | .pref => true
  | _ => false

/-- The access takes a write entry (R194). -/
def takesWrite (k : ReqKind) : Bool :=
  match k with
  | .st | .red => true
  | _ => false

/-- The access counts as a fabric acknowledgement while it is outstanding (R366). -/
def countsAck (r : Req) : Bool :=
  (match r.kind with
   | .st | .red | .atom | .cas => true
   | _ => false) && !r.failed && crosses r

/-- The outstanding fabric acknowledgements of a warp (R366). -/
def ackCount (s : State) (w : Nat) : Nat := (s.reqs.filter fun r => r.2.thread / 32 = w && countsAck r.2).length

/-- An access is performed for its thread's later ones: one of another package's home when it is acknowledged, a failed one at once
(R220, R227). -/
def performed (r : Req) : Bool := r.failed || (!countsAck r && decide (2 ≤ r.stage))

/-- An access held behind others may go (R212, R220): the accesses named have been performed, and under `all` every earlier
access of the thread and, at .dom and .sys, every fabric acknowledgement of the warp but those of accesses that are held after it. -/
def mayGo (s : State) (id : Nat) (r : Req) : Bool :=
  let clear := s.reqs.all fun e => !(r.after.contains e.1) || decide (2 ≤ e.2.stage)
  let allDone := !r.all || s.reqs.all fun e => !(decide (e.2.thread = r.thread) && decide (e.1 < id)) || performed e.2
  let acks := !r.all || decide (r.scope < 4) || !(s.reqs.any fun e =>
    decide (e.2.thread / 32 = r.thread / 32) && decide (e.1 ≠ id) && (decide (e.1 < id) || decide (1 ≤ e.2.stage)) && countsAck e.2)
  clear && allDone && acks

/-! ### Landing -/

/-- The value that a landing gives a register or registers, narrowed or extended by R198. -/
def landValue (r : Req) : Nat :=
  if r.size < 4 && r.ty = 0 && decide (r.kind = .ld ∨ r.kind = .ldc) then
    let b := 8 * r.size
    (BitVec.ofInt 32 (sx b r.value)).toNat
  else r.value

/-- The landing of a request. -/
def landingOf (r : Req) (id : Nat) : Landing :=
  { thread := r.thread, reg := r.reg, n := r.n, tag := r.tag, value := BitVec.ofNat 128 (landValue r), epoch := r.epoch, req := id }

/-- The registers of a landing take their value where the tag still matches and the core's epoch is the reply's (R95,
R400). -/
def landRegs (s : State) (l : Landing) : State :=
  if (s.core (coreOfThread l.thread)).epoch = l.epoch then s.landG l.thread l.reg l.tag l.value.toNat l.n else s

/-- The read of a page-table entry has landed, or failed: the walk goes on (R380). -/
def walkRead (s : State) (r : Req) : State :=
  (modWalk s r.reg r.va fun w => { w with got := some (if r.failed then none else some r.value) }).post 0 (.pageWalk r.reg r.va)

/-- What the end of a request changes beside its registers: L1 and remote-data cache fills, self-invalidation, the
thread's acquires, its entry (R193, R194, R220, R245). -/
def reqDone (s : State) (id : Nat) : State :=
  match s.reqs.find? fun r => r.1 = id with
  | none => s
  | some (_, r) =>
    if isEng r.kind then
      engEnd (if r.kind = .erd && r.cls = 1 && !r.failed && decide (homeDie r.pa ≠ dieOfCore r.core) then rdcFill s (dieOfCore r.core) r.pa else s) id r
    else if r.kind = .walk then walkRead { s with reqs := kvDel s.reqs id } r
    else if r.kind = .rgset then applyBind { s with reqs := kvDel s.reqs id } r else
    let live := (s.core r.core).epoch = r.epoch
    let s : State := { s with reqs := kvDel s.reqs id }
    if !live then clearWaits s r.core else
    let d := dieOfCore r.core
    let fills : Bool := r.cls ≤ 1 && !r.failed && !r.hit && (r.follow = 0 || (l1Get s r.core r.cls r.pa).isNone) && (match r.kind with
      | .ld | .ldc => true
      | .pref => r.scope = 1
      | _ => false)
    let s := if fills then l1Fill s r.core r.cls r.pa (decide (r.kind = .ldc)) else s
    let s := if acquires r && decide (1 ≤ r.scope) then l1Acquire s r.core else s
    let s := if r.cls = 1 && decide (r.kind = .ld ∨ r.kind = .ldc ∨ r.kind = .pref) && !r.failed
                  && decide (homeDie r.pa ≠ d) then rdcFill s d r.pa else s
    let s := s.modThread r.thread fun t => { t with acq := t.acq.filter (· ≠ id) }
    clearWaits s r.core

/-- The number in some bytes of a sector. -/
def inSector (data : List Byte) (pa size : Nat) : Nat := bytesNat (sliceL data (pa % 32) size)

/-- The readers that share the entry of a read (R194). -/
def matesOf (s : State) (id : Nat) : List Nat := s.reqs.filterMap fun r => if r.2.follow = id ∧ id ≠ 0 then some r.1 else none

/-- A reader that shares the entry of `lead`, whose own read is performed, is performed too: with the L1's bytes where these served the
entry, else with those of its home. An LD.sc takes no copy of an L1. -/
def performMate (s : State) (lead : Req) (id : Nat) : State :=
  let r := s.req id
  let home := bytesNat (bytesAt s r.cls r.pa r.size)
  let v := if lead.hit && !(decide (r.order = 4) && decide (1 ≤ r.scope)) then (match l1Get s r.core r.cls r.pa with
      | some x => inSector x.data r.pa r.size
      | none => home) else home
  s.modReq id fun x => { x with stage := 2, value := v }

/-- A reader of a shared entry takes its value once the entry's read is performed and its own order lets it (R194, R220). -/
def pollMate (s : State) (id : Nat) : State :=
  let r := s.req id
  let lead := s.req r.follow
  if decide (r.stage < 2) && decide (2 ≤ lead.stage) && !lead.failed && mayGo s id r then performMate s lead id else s

/-- The readers that could not be served with an entry go on by themselves, the first with the entry, the others with it. -/
def freeMates (s : State) : List Nat → State
  | [] => s
  | m :: r => r.foldl (fun s k => s.modReq k fun x => { x with stage := 1, follow := m }) (s.modReq m fun x => { x with stage := 0, follow := 0 })

/-- The dies that a scope names from a die: 2 the die, 3 its package, 4 the domain. -/
def scopeDies (s : State) (d scope : Nat) : List Nat :=
  if scope ≤ 2 then [d]
  else if scope = 3 then (List.range 16).map fun k => d / 16 * 16 + k
  else s.domain.flatMap fun p => (List.range 16).map fun k => 16 * p + k

/-- ATCI.home once every named cache has removed the translations (R384): the home agents of the range are asked to bring its lines to HOME,
and every die of the scope to advance its generation. -/
def atciHome (s : State) (id : Nat) : State :=
  let r := s.req id
  let d := dieOfCore r.core
  let reach (e : Nat) : Bool := e = d || (unreach s d e).isNone
  let gens := (scopeDies s d r.scope).filter reach
  let homes := [homeDie r.pa].filter reach
  let s := s.modReq id fun r => { r with op := 2, n := gens.length + homes.length }
  let a : AtciReq := { id := id, thread := r.thread, kind := 3, size := r.size, va := 0, asid := 0, home := true, pa := r.pa, since := 0 }
  let ask (s : State) (e : Nat) (ev : Ev) : State := if e = d then s.post 0 ev else sendReq s d e ev
  homes.foldl (fun s e => ask s e (.atciRemoval a e)) (gens.foldl (fun s e => ask s e (.generationAdvance e id)) s)

/-- A request lands; one to many dies waits for the last answer (R207, R384). The readers that share its entry are served with it
(R194); those of a read that failed go on by themselves. -/
def landReq (s : State) (id : Nat) : State :=
  let r := s.req id
  if decide (r.kind = .flsh) && decide (1 < r.n) then s.modReq id fun r => { r with n := r.n - 1 }
  else if decide (r.kind = .flsh) && decide (r.op = 1) then atciHome s id else
  let s := (matesOf s id).foldl pollMate s
  let served (m : Nat) : Bool := !r.failed && decide (2 ≤ (s.req m).stage)
  let late := (matesOf s id).filter fun m => !served m
  let done := (matesOf s id).filter served
  let s := freeMates (reqDone s id) late
  done.foldl (fun s m => reqDone (landRegs s (landingOf (s.req m) m)) m) s

/-- PRODUCER_LANDING, R95. -/
def evProducerLanding (s : State) (l : Landing) : State :=
  let s := landRegs s l
  if l.req = 0 then s else landReq s l.req

/-- The level of a copy that a die gains with a reply (R238). -/
def takeCopy (s : State) (d pa level : Nat) : State :=
  let line := pa / 64
  trimCache (s.modDie d fun x =>
    let c := kvGet {} x.copies line
    { x with copies := kvSet x.copies line { c with level := level, held := c.held ||| BitVec.ofNat 2 (2 ^ (pa / 32 % 2)) } }) d

/-- REMOTE_REPLY, R400: the die takes the copy that the reply grants, and the value lands. -/
def evRemoteReply (s : State) (l : Landing) : State :=
  let r := s.req l.req
  let s := if l.req = 0 then s else match r.grant with
    | some lv => takeCopy (s.modReq l.req fun r => { r with grant := none }) (dieOfCore r.core) r.pa lv
    | none => s
  evProducerLanding s l

/-- Sends the answer of a performed request back to its core; a local one lands after `d` clks. One that failed meanwhile
is answered no more (R227). -/
def answerReq (s : State) (id d : Nat) : State :=
  let r := s.req id
  if r.failed then { s with reqs := kvDel s.reqs id } else
  let home := placeDie r.cls r.pa
  let src := dieOfCore r.core
  let l := landingOf r id
  if home = src then s.post d (.producerLanding l) else sendRep s home src (.remoteReply l)

/-! ### Performing -/

/-- The acc code of a kind (Table 18-6). -/
def accOf (k : ReqKind) : Nat :=
  match k with
  | .ld | .ldc | .ldb => 1
  | .st | .red | .acc | .rack => 2
  | .atom | .cas => 3
  | _ => 1

/-- A request that finds its line poisoned or illegal after its thread went on: nothing is performed, and the thread's warp
traps (R234, R235; notes/assumptions/19.md). -/
def lateFault (s : State) (id cause : Nat) : State :=
  let r := s.req id
  if isEng r.kind then engFail s id 4 0
  else if r.kind = .walk then landReq (s.modReq id fun r => { r with failed := true }) id else
  let w := r.thread / 32
  let live := (s.core r.core).epoch = r.epoch
  let s := landReq (s.modReq id fun r => { r with failed := true, order := 0, fo := false }) id
  if live && decide (r.kind ≠ .pref) then
    s.post 0 (.trapEntry w { cause := cause, slot := r.thread % 32, acc := accOf r.kind, arg := 0, xpc := r.pc, xaddr := r.va,
                             done := ~~~ (slotBit (r.thread % 32)) })
  else s

/-- What a write to a T or G page of bytes at a place changes beside them: the sectors in the L1 of the core it comes from, which a plain
store updates and any other write drops, and the remote-data cache of its die (R193, R245). -/
def afterWrite (s : State) (core cls pa : Nat) (store : Bool) (b : List Byte) : State :=
  if 1 < cls then s else
  let s := if store then l1Store s core pa b else l1Drop (l1Drop s core pa) core (pa + b.length - 1)
  if cls = 1 && decide (homeDie pa ≠ dieOfCore core) then rdcStore s (dieOfCore core) pa else s

/-- The effect of a request at its home or bank, in this clk (R195, R200, R203, R204): the bytes are read and written
indivisibly, and the request is performed. -/
def performReq (s : State) (id : Nat) : State :=
  let r := s.req id
  let old := bytesNat (bytesAt s r.cls r.pa r.size)
  let wrote (s : State) (b : List Byte) : State := afterWrite (putBytes s r.cls r.pa b) r.core r.cls r.pa (decide (r.kind = .st)) b
  let s := match r.kind with
    | .st | .ewr => wrote s r.data
    | .eadd => wrote s (addElems r.ty old (bytesNat r.data) (r.size / 4))
    | .eflag => wrote s (leBytes 4 (old + bytesNat r.data))
    | .red | .atom => wrote s (leBytes r.size (atomNew r.op r.ty old (bytesNat r.data)))
    | .cas => if old = bytesNat r.data then wrote s r.data2
      else if r.cls ≤ 1 then l1Drop s r.core r.pa else s  -- its read is newer than the copy (R212)
    | _ => s
  s.modReq id fun x => { x with stage := 2, value := old }

/-- A store or RED from another die that reaches a declared buffer counts as an engine write; a refused one writes nothing
and is a remote error (R191). -/
def performCellar (s : State) (id : Nat) : State :=
  let r := s.req id
  let d := r.pa / 2 ^ 27
  if dieOfCore r.core = d ∨ !takesWrite r.kind then performReq s id
  else match bufAt s d r.pa with
    | none => performReq s id
    | some (b, x) =>
      if 2 ≤ x.state then
        remFail (s.modReq id fun r => { r with stage := 2 }) r.core r.epoch (r.thread % 32) rsSTF 4 d r.va
      else bufCount (performReq s id) d b r.size

/-! ### Cellar banks (R188) -/

/-- The bank of a cellar key. -/
def bankOf (pa : Nat) : Nat := pa % 2 ^ 27 / 32 % 512

/-- The conflict count of the requests that a core issued in this clk to one die (R188). -/
def conflicts (s : State) (core d : Nat) : Nat :=
  let ws := s.reqs.filterMap fun r =>
    if r.2.core = core ∧ r.2.cls = 4 ∧ !isEng r.2.kind ∧ r.2.pa / 2 ^ 27 = d ∧ r.2.issued = s.clk ∧ r.2.follow = 0 ∧ r.2.stage = 1
    then some (r.2.pa / 32) else none
  let ws := ws.foldl (fun l w => insertNat w l) []
  ws.foldl (fun m w => max m ((ws.filter fun v => v % 512 = w % 512).length - 1)) 0

/-- The order in which a bank serves its queue: arrival, then core, then lane. -/
def bankFirst (s : State) : List Nat → Option Nat
  | [] => none
  | a :: l =>
    match bankFirst s l with
    | none => some a
    | some b =>
      let x := s.req a
      let y := s.req b
      let key (r : Req) : Nat := (r.arrived * 2 ^ 24 + r.core) * 32 + laneOfWarp (r.thread / 32) % 32
      if key x ≤ key y then some a else some b

/-- The requests in ascending lane order. -/
def byLane (s : State) : List Nat → List Nat
  | [] => []
  | a :: l =>
    let key (i : Nat) : Nat := laneOfWarp ((s.req i).thread / 32) * 512 + i % 512
    let rec put : List Nat → List Nat
      | [] => [a]
      | b :: r => if key a ≤ key b then a :: b :: r else b :: put r
    put (byLane s l)

/-- The event by which a home or a bank applies an engine's write (R290, R373). -/
def applyEv (s : State) (id : Nat) : Ev := if (s.req id).kind = .eflag then .putnFlagIncrement id else .deliverAtHome id

/-- CELLAR_GROUP_SERVICE, R188: request `id` arrives at its bank, or with `id` 0 the bank serves the next word: every
request of the group for that word, in ascending lane order. -/
def evCellarGroupService (s : State) (d b id : Nat) : State :=
  if id ≠ 0 then
    let s := (s.modReq id fun r => { r with arrived := s.clk }).modDie d fun x =>
      { x with bankQ := kvSet x.bankQ b (kvGet [] x.bankQ b ++ [id]) }
    if s.posted (.cellarGroupService d b 0) then s else s.post 0 (.cellarGroupService d b 0)
  else
    let q := (kvGet [] (s.die d).bankQ b).filter fun i => s.reqs.any fun r => r.1 = i
    match bankFirst s (q.filter fun i => !addHolds s (s.req i)) with
    | none =>
      if q.isEmpty then s.modDie d fun x => { x with bankQ := kvDel x.bankQ b }
      else (s.modDie d fun x => { x with bankQ := kvSet x.bankQ b q }).post 1 (.cellarGroupService d b 0)
    | some i =>
      let r := s.req i
      let mine := q.filter fun j => let x := s.req j
        decide (x.core = r.core ∧ x.arrived = r.arrived ∧ x.pa / 32 = r.pa / 32)
      let rest := q.filter fun j => !mine.contains j
      let s := s.modDie d fun x => { x with bankQ := kvSet x.bankQ b rest }
      let s := (byLane s mine).foldl (fun s j => let k := (s.req j).kind
        if k = .ewr ∨ k = .eadd ∨ k = .eflag then s.post 0 (applyEv s j) else answerReq (performCellar s j) j 24) s
      if rest.isEmpty then s else s.post 1 (.cellarGroupService d b 0)

/-! ### Where an access goes -/

/-- The agent of a T line for a die (R237, R242): home, or the proxy of the die's package. -/
def agentFor (die line : Nat) : Nat :=
  let h := homeDie (64 * line)
  if pkgOfDie h = pkgOfDie die then h else 16 * pkgOfDie die + h % 16

/-- The access goes to the home agent as a read or as a write (R239). -/
def toAgent (s : State) (id : Nat) : State :=
  let r := s.req id
  let d := dieOfCore r.core
  let line := r.pa / 64
  let home := homeDie r.pa
  let reads := match r.kind with
    | .ld | .ldc | .pref | .erd | .walk => true
    | _ => false
  let via := if r.kind = .walk then home else if r.cls = 0 && (reads || decide (r.kind = .st)) then agentFor d line else home
  let s := s.modReq id fun x => { x with agent := via }
  if d = via then s.post 48 (if reads then .hrd id else .hwr id)
  else sendReq s d via (if r.kind = .walk then .hrd id else if reads then .rd id else if r.cls = 0 && decide (r.kind = .st) then .own id else .hwr id)

/-- The copy of a T line in a die cache. -/
def copyOf (s : State) (d line : Nat) : Option Copy := ((s.die d).copies.find? fun c => c.1 = line).map (·.2)

/-- The value is taken now, and lands after `n` clks. -/
def takeNow (s : State) (id v n : Nat) : State :=
  let s := s.modReq id fun r => { r with stage := 2, value := v }
  s.post n (.producerLanding (landingOf (s.req id) id))

/-- Sends an access on its way: L1, the die's own copies, the remote-data cache, the bank or the home (R184, R193, R238,
R245). One whose home is unreachable fails before anything is sent (R367). -/
def launchReq (s : State) (id : Nat) : State :=
  let r := s.req id
  let d := dieOfCore r.core
  let line := r.pa / 64
  let home := if r.kind = .launch then r.agent else placeDie r.cls r.pa
  let s := s.modReq id fun x => { x with stage := 1, issued := s.clk, gen := genOf s r.core r.cls }
  let plain := r.kind = .ld || r.kind = .ldc || (r.kind = .pref && r.scope = 1)
  match (if d = home then none else unreach s d home) with
  | some c => s.post 0 (.remoteAccessFailure id c)
  | none =>
  if r.kind = .launch ∨ r.kind = .ldb ∨ r.kind = .rack then
    let e : Ev := match r.kind with
      | .launch => .launchAppend id
      | .ldb => .ldbTransaction id
      | _ => .rackTransaction id
    if d = home then s.post 48 e else sendReq s d home e
  else if r.cls = 4 then
    let e : Ev := .cellarGroupService home (bankOf r.pa) id
    let before := conflicts (s.modReq id fun x => { x with stage := 0 }) r.core home
    pmcAdd (if d = home then s.post 24 e else sendReq s d home e) r.core 3 (conflicts s r.core home - before)
  else if 1 < r.cls then toAgent s id
  else
    match (if plain && !(r.order = 4 && decide (1 ≤ r.scope)) then l1Get s r.core r.cls r.pa else none) with
    | some x =>
      let s := pmcAdd s r.core 4 1
      let s := s.modCore r.core fun c => { c with l1 := kvSet c.l1 (sectorOf r.pa) { x with used := s.clk } }
      takeNow (s.modReq id fun r => { r with hit := true }) id (inSector x.data r.pa r.size) 24
    | none =>
      let s := if plain then pmcAdd s r.core 5 1 else s
      if r.cls = 1 then
        if d = home || !(plain || r.kind = .erd || r.kind = .pref) then toAgent s id
        else match rdcGet s d r.pa with
          | (s, some data) =>
            let (v, s) := s.chooseBelow 2
            if v = 0 then takeNow s id (inSector data r.pa r.size) 144 else toAgent s id
          | (s, none) => toAgent s id
      else if d = home || decide (r.kind = .walk) then toAgent s id
      else match copyOf s d line with
        | none => toAgent s id
        | some c =>
          if (plain || r.kind = .pref || r.kind = .erd) && c.held.getLsbD (r.pa / 32 % 2) then
            takeNow s id (bytesNat (bytesAt s 0 r.pa r.size)) 96
          else if r.kind = .st && (c.level = 1 || c.level = 2) && agentFor d line ≠ d then s.post 48 (.ownershipGrant id)
          else toAgent s id

/-- Sends every held access that may go, oldest first, and serves the readers that share an entry. -/
def pollReqs (s : State) : State :=
  let s := (s.reqs.filter fun r => r.2.stage = 0 && r.2.follow = 0).foldl
    (fun s r => if mayGo s r.1 (s.req r.1) then launchReq s r.1 else s) s
  (s.reqs.filter fun r => r.2.follow ≠ 0 && decide (r.2.stage < 2)).foldl (fun s r => pollMate s r.1) s

/-- The request stands at an agent: its transaction runs or it waits in the line's queue. -/
def atAgent (s : State) (id : Nat) : Bool :=
  let mine (e : Ev) : Bool := decide (e = .rd id ∨ e = .own id ∨ e = .hrd id ∨ e = .hwr id ∨ e = .atomicUnitApply id ∨ e = .deliverAtHome id)
  (s.dies.any fun d => d.2.txns.any fun t => t.2.ev.any mine || t.2.queue.any mine) || s.posted (.atomicUnitApply id)

/-- REMOTE_ACCESS_FAILURE, R368: the effects of Table 17-6a. A write that has reached its home is applied there. -/
def evRemoteAccessFailure (s : State) (id cause : Nat) : State :=
  match s.reqs.find? fun r => r.1 = id with
  | none => s
  | some (_, r) =>
    if r.failed then s
    else if isEng r.kind then
      engFail { s with msgs := s.msgs.filter fun m => m.2.ev ≠ .rd id ∧ m.2.ev ≠ .hwr id } id 6 cause
    else if r.kind = .walk then
      landReq { s.modReq id fun r => { r with failed := true } with msgs := s.msgs.filter fun m => m.2.ev ≠ .hrd id } id else
    let home := placeDie r.cls r.pa
    let bit := match r.kind with
      | .ld | .ldc | .ldb | .pref | .launch => rsLDF
      | .atom | .cas => rsATF
      | .bar => rsBAR
      | _ => rsSTF
    let s : State := { s with msgs := s.msgs.filter fun m => m.2.ev ≠ .rd id ∧ m.2.ev ≠ .own id ∧ m.2.ev ≠ .hwr id ∧ m.2.ev ≠ .launchAppend id }
    let s := if r.kind = .pref then s else remFail s r.core r.epoch (r.thread % 32) bit cause home r.va
    let r' := { r with failed := true, value := 2 ^ 128 - 1, size := 16, order := 0, fo := false }
    let s := landRegs (s.modReq id fun _ => r') (landingOf r' id)
    let s := if r.kind = .bar && r.op = 3 then s.setHeldP r.thread id r.reg false else s
    let keep := takesWrite r.kind && r.stage = 1 && atAgent s id
    let s := landReq s id
    if keep then { s with reqs := kvSet s.reqs id { r with failed := true } } else s

/-! ### Reads of a die's own (R9, R234, R380) -/

/-- A die reads a sector through the agents of its line for thread `t`: what the read does on its way and at its home happens, its
value goes nowhere. It is the read of an engine, a fetch or a stack whose bytes are taken at once (notes/assumptions/41.md). -/
def readFor (s : State) (t d cls pa : Nat) : State :=
  if cls = 4 then s else
  let (id, s) := s.fresh
  let r : Req := { kind := .erd, thread := t, core := 128 * d, cls := cls, pa := pa / 32 * 32, size := 32 }
  launchReq { s with reqs := kvSet s.reqs id r } id

/-- A read of a die's own, for no thread. -/
def postRead (s : State) (d cls pa : Nat) : State := readFor s (engThread 0) d cls pa

/-- Reads of a die's own for `n` bytes from an address of a page on, one for each sector. -/
def postReads (s : State) (d cls pa n : Nat) : State :=
  (List.range ((pa % 32 + n + 31) / 32)).foldl (fun s i => postRead s d cls (pa / 32 * 32 + 32 * i)) s

/-- The home of a line looks at it, after a look that found it illegal for a class (R235). -/
def noteLine (s : State) (cause : Nat) (p : Place) : State :=
  if cause = 18 then postRead s (homeDie p.pa) p.cls p.pa else s

/-- PAGE_WALK, R380: a walk reads the entry of its next level at the entry's home, or judges the one that has come. -/
def evPageWalk (s : State) (core : Nat) (va : Dword) : State :=
  let d := dieOfCore core
  let read (s : State) (w : Walk) (table : Nat) : State :=
    let ea := entryAddr table va.toNat (levels.getD w.level (16, 5))
    if entryLost s d ea then endWalk s d w (.inl 6)
    else
      let (id, s) := s.fresh
      let r : Req := { kind := .walk, thread := engThread 0, core := 128 * d, va := va, reg := core, pa := ea, size := 8 }
      launchReq { s with reqs := kvSet s.reqs id r } id
  match walkOf s core va with
  | none => s
  | some w =>
    match w.got with
    | none => read s w w.root
    | some none => endWalk s d w (.inl 6)
    | some (some e) =>
      match entryStep w.asid va.toNat (levels.getD w.level (16, 5)).1 e with
      | .inl r => endWalk s d w r
      | .inr table =>
        let next (w : Walk) : Walk := { w with level := w.level + 1, table := table, got := none }
        read (modWalk s core va next) (next w) table

end Sys2Proof.Machine
end

