-- ==== Sys2Proof/Machine/Lines.lean ====
section
/-! DEFINITION. Line ownership (spec/11): the metadata word, the transitions of Table 11-3, the home agent and the proxy
agent with their transactions, probes, recalls and invalidations, grants and evictions. -/

namespace Sys2Proof.Machine

/-! ### The metadata word (Table 11-1) -/

/-- The fields of a metadata word. State: 0 HOME, 1 SHARED, 2 OWNED, 3 EXCL, 4 MOD, 5 CASK. -/
structure Meta where
  st : Nat := 0
  owner : Nat := 0
  sharers : Nat := 0
  rsh : Bool := false
  ch : Bool := false
  deriving DecidableEq, Repr, Inhabited

/-- The fields of a word. -/
def Meta.of (w : Word) : Meta :=
  { st := natBits w.toNat 29 3, owner := natBits w.toNat 23 6, sharers := natBits w.toNat 7 16, rsh := w.getLsbD 6,
    ch := w.getLsbD 5 }

/-- The word of its fields. -/
def Meta.word (m : Meta) : Word :=
  BitVec.ofNat 32 (m.st * 2 ^ 29 + m.owner * 2 ^ 23 + m.sharers * 2 ^ 7 + m.rsh.toNat * 64 + m.ch.toNat * 32)

/-- The codes of the dies in a SHARERS field. -/
def sharerList (n : Nat) : List Nat := (List.range 16).filter fun d => n.testBit d

/-- An OWNER that is a die of the home package other than the home, or another package (R235). -/
def ownerOk (home o : Nat) : Bool :=
  (decide (o < 16) && decide (o ≠ home % 16)) || (decide (32 ≤ o) && decide (o ≠ 32 + pkgOfDie home))

/-- A word is legal for a line homed on a die (R235, Table 11-2). The home die's own bit may stand in a CASK word, where it
has a cask entry (R259; notes/assumptions/20.md). -/
def metaLegal (home : Nat) (w : Word) : Bool :=
  let m := Meta.of w
  let own := ownerOk home m.owner
  let noH := !m.sharers.testBit (home % 16)
  let some := decide (m.sharers ≠ 0) || m.rsh
  natBits w.toNat 0 5 = 0 && (match m.st with
    | 0 => decide (w = 0)
    | 1 => decide (m.owner = 0) && noH && some && !m.ch
    | 2 => own && noH && !(decide (m.owner < 16) && m.sharers.testBit m.owner) && some && !m.ch
    | 3 | 4 => own && decide (m.sharers = 0) && !m.rsh && !m.ch
    | 5 => decide (m.owner = 0) && some
    | _ => false)

/-- The states that a class allows (R236). -/
def classAllows (cls st : Nat) : Bool :=
  match cls with
  | 0 => decide (st ≤ 4)
  | 1 | 2 => decide (st = 0)
  | _ => decide (st = 0 ∨ st = 5)

/-- The cause that a synchronous look at a line gives an access of a class: UE, MD or none (R234, R235). -/
def lineFault (s : State) (cls pa : Nat) : Option Nat :=
  if cls = 4 then none
  else if poisoned s (pa / 64) then some 17
  else
    let w := metaOf s (pa / 64)
    if metaLegal (homeDie pa) w && classAllows cls (Meta.of w).st then none else some 18

/-! ### Transitions (Table 11-3) -/

/-- The request kinds of R239. -/
inductive Rk where
  | rd | own | hrd | hwr
  deriving DecidableEq, Repr

/-- The messages a request needs: each a holder code with 0 probe, 1 recall, 2 invalidation. `others` are the packages that
a broadcast reaches, `h` the agent's own die number. -/
def plan (k : Rk) (m : Meta) (r : Nat) (others : List Nat) : List (Nat × Nat) :=
  let inv (keep : Nat) : List (Nat × Nat) :=
    ((sharerList m.sharers).filter (· ≠ keep)).map (fun d => (d, 2))
      ++ (if m.rsh then (others.filter (· ≠ keep)).map (fun q => (q, 2)) else [])
  match m.st, k with
  | 1, .own => inv r
  | 1, .hwr => inv 99
  | 3, .rd | 4, .rd => if m.owner = r then [] else [(m.owner, 0)]
  | 3, .own | 4, .own => if m.owner = r then [] else [(m.owner, 1)]
  | 3, .hrd | 4, .hrd => [(m.owner, 0)]
  | 3, .hwr | 4, .hwr => [(m.owner, 1)]
  | 2, .rd => if m.owner = r then [] else [(m.owner, 0)]
  | 2, .own => if m.owner = r then inv r else inv r ++ [(m.owner, 1)]
  | 2, .hrd => [(m.owner, 0)]
  | 2, .hwr => inv 99 ++ [(m.owner, 1)]
  | _, _ => []

/-- Adds a requester to the sharers: a die's bit, or RSH for a package. -/
def addSharer (m : Meta) (r : Nat) : Meta :=
  if r < 16 then { m with sharers := m.sharers ||| 2 ^ r } else { m with rsh := true }

/-- The state after a request, once its answers are in; `dirty` is whether the owner returned dirty sectors, `lone` whether a
first read may be granted exclusively. -/
def nextMeta (k : Rk) (m : Meta) (r : Nat) (dirty lone : Bool) : Meta :=
  let mod : Meta := { st := 4, owner := r }
  match m.st, k with
  | 0, .rd => if lone then { st := 3, owner := r } else addSharer { st := 1 } r
  | 0, .own => mod
  | 1, .rd => addSharer m r
  | 1, .own => mod
  | 1, .hrd => m
  | 3, .rd | 4, .rd =>
    if m.owner = r then m
    else if dirty then addSharer { st := 2, owner := m.owner } r
    else addSharer (addSharer { st := 1 } m.owner) r
  | 3, .own | 4, .own => if m.owner = r then m else mod
  | 3, .hrd | 4, .hrd => addSharer { st := 1 } m.owner
  | 2, .rd => if m.owner = r then m else addSharer m r
  | 2, .own => mod
  | 2, .hrd => addSharer { m with st := 1, owner := 0 } m.owner
  | _, .hwr => {}
  | _, _ => m

/-- The state after an owner's EVX. -/
def evxMeta (m : Meta) (r : Nat) : Meta :=
  if m.owner ≠ r then m
  else match m.st with
    | 2 => { m with st := 1, owner := 0 }
    | 3 | 4 => {}
    | _ => m

/-- The state with the bits of dead sharers cleared (R249). -/
def dropSharers (m : Meta) (dead : Nat → Bool) : Meta :=
  let m' := { m with sharers := ((sharerList m.sharers).filter fun d => !dead d).foldl (fun a d => a + 2 ^ d) 0 }
  if m'.sharers ≠ 0 ∨ m'.rsh then m'
  else match m.st with
    | 1 => {}
    | 2 => { m' with st := 4 }
    | _ => m'

/-! ### Agents -/

/-- The agent is the home agent of the line, not a proxy. -/
def isHome (agent line : Nat) : Bool := homeDie (64 * line) = agent
/-- The word by which an agent keeps a line. -/
def agentMeta (s : State) (agent line : Nat) : Meta :=
  Meta.of (if isHome agent line then metaOf s line else kvGet 0 (s.die agent).proxy line)

/-- Sets the word by which an agent keeps a line. -/
def setMeta (s : State) (agent line : Nat) (m : Meta) : State :=
  let put (k : KV Word) : KV Word := if m.word = 0 then kvDel k line else kvSet k line m.word
  if isHome agent line then { s with metaw := put s.metaw }
  else s.modDie agent fun x => { x with proxy := put x.proxy }

/-- The code by which an agent knows a die: its number in the package, or 32 + its package. -/
def codeOf (agent die : Nat) : Nat := if pkgOfDie agent = pkgOfDie die then die % 16 else 32 + pkgOfDie die
/-- The die that a code names for an agent: a package is met at its proxy (R242). -/
def dieOfCode (agent code : Nat) : Nat := if code < 16 then agent / 16 * 16 + code else 16 * (code - 32) + agent % 16

/-- The packages that a broadcast of an agent may reach (R242). -/
def otherPkgs (s : State) (agent : Nat) : List Nat := (s.domain.filter fun q => q ≠ pkgOfDie agent).map (32 + ·)

/-- The request kind of an event at an agent. A proxy takes what its home sends as the like request of its own. -/
def rkOf : Ev → Option Rk
  | .rd _ => some .rd
  | .own _ => some .own
  | .hrd _ => some .hrd
  | .hwr _ => some .hwr
  | .probe _ _ _ _ => some .hrd
  | .recallHolder _ _ _ | .invalidation _ _ _ | .proxyEviction _ _ | .atciRemoval _ _ | .accsAddOnStore _ => some .hwr
  | _ => none

/-- The request of an event. -/
def reqOf : Ev → Option Nat
  | .rd q | .own q | .hrd q | .hwr q | .ldbTransaction q | .rackTransaction q => some q
  | _ => none

/-- Where an event arrives, the line, and the code of its sender. -/
def arrival (s : State) : Ev → Option (Nat × Nat × Nat)
  | .rd q | .own q | .hrd q | .hwr q =>
    let r := s.req q
    some (r.agent, r.pa / 64, codeOf r.agent (dieOfCore r.core))
  | .ldbTransaction q =>
    let r := s.req q
    some (homeDie r.pa, r.pa / 64, codeOf (homeDie r.pa) (dieOfCore r.core))
  | .evx line die _ => let a := if homeDie (64 * line) % 16 = die % 16 then homeDie (64 * line) else agentFor die line
    some (a, line, codeOf a die)
  | .caskOpenRequest line die | .drainArrival line die _ _ _ _ =>
    some (homeDie (64 * line), line, codeOf (homeDie (64 * line)) die)
  | _ => none

/-- The key under which an agent holds the transaction that serves its home while its own request waits there (R242). -/
def downKey (line : Nat) : Nat := line + 2 ^ 60

/-- The transaction under a key. -/
def txnAt (s : State) (agent key : Nat) : Txn := kvGet {} (s.die agent).txns key
/-- Changes the transaction under a key; an idle one with nothing waiting is gone. -/
def modTxn (s : State) (agent key : Nat) (f : Txn → Txn) : State :=
  let t := f (txnAt s agent key)
  s.modDie agent fun x => { x with txns :=
    if t.ev.isNone && t.queue.isEmpty then kvDel x.txns key else kvSet x.txns key t }

/-- Clks of a probe or answer beside its hops each way (R241). -/
def probeBase (s : State) (a b : Nat) : Nat :=
  if pkgOfDie a = pkgOfDie b then
    24 + 6 * (match ringRoute s (pkgOfDie a) (a % 16) (b % 16) with
      | some (_, h) => h
      | none => 0)
  else 60

/-- Sends a message of a transaction (R247). -/
def sendHolder (s : State) (a b : Nat) (e : Ev) : State := send s a b 2 (probeBase s a b) true e

/-- A holder that can answer: its die is not dead and it is reachable (R242, R249). -/
def answers (s : State) (agent die : Nat) : Bool := (unreach s agent die).isNone

/-- A grant is on its way to a die for a line; its answer waits for it (notes/assumptions/7.md). -/
def grantPending (s : State) (die line : Nat) : Bool :=
  s.reqs.any fun r => decide (r.2.pa / 64 = line) && decide (r.2.cls = 0)
    && ((r.2.grant.isSome && decide (dieOfCore r.2.core = die))
        || (r.2.right.isSome && decide (agentFor (dieOfCore r.2.core) line = die)))

/-- The message of a plan. -/
def holderEv (agent line h k : Nat) (wb : Bool) : Ev :=
  match k with
  | 0 => .probe agent line h wb
  | 1 => .recallHolder agent line h
  | _ => .invalidation agent line h

/-- Sends the messages of a plan and awaits the holders that can answer. -/
def sendPlan (s : State) (agent key line : Nat) (wb : Bool) (p : List (Nat × Nat)) : State :=
  let hs := (p.map fun e => (dieOfCode agent e.1, e.2)).filter fun e => answers s agent e.1
  let s := modTxn s agent key fun t => { t with await := hs.map (·.1) }
  hs.foldl (fun s e => sendHolder s agent e.1 (holderEv agent line e.1 e.2 wb)) s

/-- Poisons a line (R234): the marker with valid check bits in HBM4E, and the record. -/
def poisonLine (s : State) (line : Nat) : State :=
  let h := homeDie (64 * line)
  let s : State := { s with metaw := kvSet s.metaw line poisonWord, errs := kvDel s.errs line }
  (s.modDie h fun x => { x with held := kvDel x.held line, caskLines := kvDel x.caskLines line, lost := x.lost.filter (· ≠ line) }).raise h
    (memRec 0x12 (64 * line))

/-- The pending sums of a cask holder of a line are lost (R259, R262): the record at die `d` names the holder. -/
def caskLost (s : State) (d line holder : Nat) : State := s.raise d { kind := 0x13, detail := holder, addr := 64 * line }

/-- The holders of a CASK line that can answer no more (R259). -/
def goneHolders (s : State) (line : Nat) : List Nat :=
  let h := homeDie (64 * line)
  let m := Meta.of (metaOf s line)
  let region := kvGet {} (s.die h).region (kvGet 0 (s.die h).caskLines line)
  let gone (c : Nat) : Bool := !answers s h (dieOfCode h c)
  if m.st ≠ 5 then [] else
  ((sharerList m.sharers).filter fun c => (s.die (dieOfCode h c)).dead)
    ++ (if m.rsh then (otherPkgs s h).filter fun q => region.pkgs.getLsbD (q - 32) && gone q else [])

/-- What a visit finds in a line at home (R234, R235, R249, R259): the cause that its poisoning gives, 0 for none, with the
bits of dead sharers cleared. -/
def visit (s : State) (line cls : Nat) : State × Nat :=
  let h := homeDie (64 * line)
  let (s, good) := homeRead s line
  if poisoned s line then (s, 0)
  else if !good then (s, 17)
  else
    let w := metaOf s line
    let m := Meta.of w
    if !metaLegal h w || (cls ≤ 3 && !classAllows cls m.st) then (s, 18)
    else
      let gone (c : Nat) : Bool := if c < 16 then (s.die (dieOfCode h c)).dead else !answers s h (dieOfCode h c)
      if (2 ≤ m.st && decide (m.st ≤ 4) && gone m.owner) || (s.die h).lost.contains line then (s, 17)
      else if !(goneHolders s line).isEmpty then ((goneHolders s line).foldl (fun s c => caskLost s h line c) s, 17)
      else if m.st = 1 ∨ m.st = 2 then (setMeta s h line (dropSharers m gone), 0)
      else (s, 0)

/-! ### The course of a transaction -/

/-- The class of the page through which an add-on-store visits a line. -/
def addCls (s : State) (o line : Nat) : Nat :=
  match (s.op o).trans.find? fun t => t.cls ≠ 4 && decide (t.pbase / 64 ≤ line) && decide (64 * line < t.pbase + t.size) with
  | some t => t.cls
  | none => 9

/-- The class of the page through which an event visits a line, 9 where it has none. -/
def clsOf (s : State) (line : Nat) (e : Ev) : Nat :=
  match reqOf e with
  | some q => if (s.req q).kind = .walk then 9 else (s.req q).cls
  | none => match e with
    | .caskOpenRequest _ _ | .drainArrival _ _ _ _ _ _ => 3
    | .accsAddOnStore o => addCls s o line
    | _ => 9

/-- The event still stands for something: its request was not withdrawn, its operation is not gone. -/
def evLive (s : State) (e : Ev) : Bool :=
  match reqOf e, e with
  | some q, _ => s.reqs.any fun r => r.1 = q
  | none, .accsAddOnStore o => s.ops.any fun x => x.1 = o
  | none, _ => true

/-- A proxy holds what a request of its package needs: the sector for a read, ownership for a write (R242). -/
def proxyHas (s : State) (agent line : Nat) (k : Rk) (pa : Nat) : Bool :=
  match copyOf s agent line with
  | none => false
  | some c =>
    match k with
    | .rd | .hrd => c.held.getLsbD (pa / 32 % 2)
    | _ => c.level = 1 || c.level = 2

/-- The transaction's own messages: Table 11-3 on the agent's word. -/
def startPlan (s : State) (agent key line r : Nat) (e : Ev) : State :=
  match rkOf e with
  | none => s
  | some k =>
    let wb := match e with
      | .probe _ _ _ w => w
      | _ => k = .hrd
    let others := if isHome agent line then otherPkgs s agent else []
    sendPlan s agent key line wb (plan k (agentMeta s agent line) r others)

/-- A store applied to a copy that holds ownership makes its sector dirty (R238, R243). -/
def markDirty (s : State) (d pa : Nat) : State :=
  s.modDie d fun x =>
    let c := kvGet {} x.copies (pa / 64)
    let b := BitVec.ofNat 2 (2 ^ (pa / 32 % 2))
    { x with copies := kvSet x.copies (pa / 64) { level := 2, held := c.held ||| b, dirty := c.dirty ||| b } }

/-- The answer of an agent to a request: the value and the copy granted, or the ownership that a store waits for. `lv` is the
level granted to another die, `hit` whether the home die cache held the line. -/
def replyTo (s : State) (agent id lv : Nat) (hit : Bool) : State :=
  let r := s.req id
  let d := dieOfCore r.core
  let atomic := match r.kind with
    | .atom | .red | .cas | .ewr | .eadd | .eflag => true
    | _ => false
  if atomic then s
  else if r.kind = .walk then answerReq (performReq s id) id (if hit then 48 else 96)
  else if r.cls = 0 && decide (d ≠ agent) then
    let s := s.modReq id fun x => { x with grant := some lv }
    if r.kind = .st then sendRep s agent d (.ownershipGrant id)
    else
      let s := performReq s id
      sendRep s agent d (.remoteReply (landingOf (s.req id) id))
  else
    let s := performReq s id
    let s := if r.cls = 0 && r.kind = .st && !isHome agent (r.pa / 64) then
      markDirty s agent r.pa else s
    if d = agent then s.post (if hit then 48 else 96) (.producerLanding (landingOf (s.req id) id))
    else answerReq s id 0

end Sys2Proof.Machine
end

