-- ==== Sys2Proof/Machine/Cask.lean ====
section
/-! DEFINITION. Bounded accumulation (spec/12): region records and re-split, cask entries, drains, and what racking asks. -/

namespace Sys2Proof.Machine

/-- A region record of a home die. -/
def regionAt (s : State) (home idx : Nat) : Region := kvGet {} (s.die home).region idx
/-- Changes a region record. -/
def modRegion (s : State) (home idx : Nat) (f : Region → Region) : State :=
  s.modDie home fun x => { x with region := kvSet x.region idx (f (kvGet {} x.region idx)) }

/-- The codes of a region's holders: dies, then packages (R254). -/
def holdersOf (r : Region) : List Nat :=
  ((List.range 16).filter fun d => r.dies.getLsbD d) ++ (((List.range 32).filter fun q => r.pkgs.getLsbD q).map (32 + ·))

/-- The f32 pattern of a small number. -/
def f32OfNat (n : Nat) : Nat := (127 + Nat.log2 n) * 2 ^ 23 + (n - 2 ^ Nat.log2 n) * 2 ^ (23 - Nat.log2 n)

/-- The share of `n` holders: L / n rounded .rz (R254, R260). -/
def shareOf (limit : Word) (n : Nat) : Word :=
  if n = 0 then limit else BitVec.ofNat 32 (fdivBits fmtF32 1 false limit.toNat (f32OfNat n)).1

/-- Ownership traffic between two dies, the home's own included (R9, R259). -/
def sendCask (s : State) (a b : Nat) (e : Ev) : State := if a = b then s.post dieClk e else sendOwn s a b e

/-- A re-split after a change of the holder set (R260); the joiner, if any, hears of its share by the grant. While
acknowledgements are awaited BSHARE stays at the largest share still in use. -/
def resplit (s : State) (home idx : Nat) (joiner : Option Nat) : State :=
  let r := regionAt s home idx
  let new := shareOf r.limit (holdersOf r).length
  let others := (holdersOf r).filter fun c => some c ≠ joiner && answers s home (dieOfCode home c)
  let lower := new.toNat < r.share.toNat
  if new = r.share then s else
  let s := modRegion s home idx fun r =>
    if lower then { r with share := new, acks := r.acks + others.length, bshare := if r.acks + others.length = 0 then new else r.bshare }
    else { r with share := new, bshare := if r.acks = 0 || decide (r.bshare.toNat < new.toNat) then new else r.bshare }
  others.foldl (fun s c => sendCask s home (dieOfCode home c) (.resplitShare home idx (dieOfCode home c) new lower)) s

/-- RESPLIT_ACK, R260. -/
def evResplitAck (s : State) (home idx : Nat) : State :=
  modRegion s home idx fun r =>
    let r := { r with acks := r.acks - 1 }
    if r.acks = 0 then { r with bshare := r.share } else r

/-- Drains an entry (R257): 0 it stays open, 1 it closes, 2 it closes as the answer to a racking. -/
def drainEntry (s : State) (d line closes : Nat) : State :=
  let e := kvGet {} (s.die d).cask line
  let home := homeDie (64 * line)
  let same (x : Nat × Cask) : Bool := x.1 ≠ line && decide (homeDie (64 * x.1) = home) && decide (x.2.region = e.region)
  let leaves := decide (closes ≠ 0) && !((s.die d).cask.any same)
  let s := s.modDie d fun x =>
    if closes = 0 then { x with cask := kvSet x.cask line { e with sums := List.replicate 16 0, mu := 0 } }
    else { x with cask := kvDel x.cask line }
  sendCask s d home (.drainArrival line d e.region e.sums closes leaves)

/-- RESPLIT_SHARE, R260: entries above the new share drain, every entry takes it, and the holder acknowledges. -/
def evResplitShare (s : State) (home idx d : Nat) (share : Word) (ack : Bool) : State :=
  let mine := (s.die d).cask.filter fun e =>
    decide (homeDie (64 * e.1) = home) && decide (e.2.region = idx) && !e.2.opening
  let s := mine.foldl (fun s e =>
    let s := if share.toNat < e.2.mu.toNat then drainEntry s d e.1 0 else s
    s.modDie d fun x => { x with cask := kvSet x.cask e.1 { kvGet {} x.cask e.1 with share := share } }) s
  if ack then sendCask s d home (.resplitAck home idx) else s

/-- The sum of FADD .rn on f32 (R143, R196). -/
def fadd32 (a b : Word) : Word := BitVec.ofNat 32 (faddBits fmtF32 0 false a.toNat b.toNat).1

/-- A list with one word replaced. -/
def setAt (l : List Word) (k : Nat) (v : Word) : List Word := l.take k ++ [v] ++ l.drop (k + 1)

/-- An entry with a value added (R255, R262). -/
def caskPlus (e : Cask) (k : Nat) (v : Word) (now : Nat) : Cask :=
  let mag := v &&& 0x7FFFFFFF
  { e with
    sums := setAt e.sums k (fadd32 (e.sums.getD k 0) v)
    mu := if 0x7F800000 ≤ mag.toNat then 0x7F800000 else BitVec.ofNat 32 (faddBits fmtF32 3 false e.mu.toNat mag.toNat).1
    last := now }

/-- The entry whose last addition is oldest among those that are not OPENING (R255). -/
def oldestEntry (l : KV Cask) : Option Nat :=
  ((l.filter fun e => !e.2.opening).foldl (fun (b : Option (Nat × Nat)) e =>
    match b with
    | none => some (e.1, e.2.last)
    | some x => if e.2.last < x.2 then some (e.1, e.2.last) else some x) none).map (·.1)

/-- Where an ACC of a die is added: its own store, or its package's proxy for a line of another package (R254). -/
def accStore (die pa : Nat) : Nat := if pkgOfDie (homeDie pa) = pkgOfDie die then die else agentFor die (pa / 64)

/-- The store of a die has no entry for a line and no place for a new one: every entry is OPENING, or its place is taken by the line of
an ACC on its way there (R255). -/
def storeStuck (s : State) (d line : Nat) : Bool :=
  let l := (s.die d).cask
  let coming := (s.reqs.filterMap fun r =>
    if r.2.kind = .acc ∧ r.2.pa / 64 ≠ line ∧ accStore (dieOfCore r.2.core) r.2.pa = d ∧ !(l.any fun e => e.1 = r.2.pa / 64)
    then some (r.2.pa / 64) else none).eraseDups.length
  !(l.any fun e => e.1 = line) && decide (16384 ≤ (l.filter fun e => e.2.opening).length + coming)

/-- An ACC reaches its cask store (R262): the entry is opened where there is none, the value added, and the ACC placed
unless the entry still awaits its grant. -/
def caskAdd (s : State) (d id : Nat) : State :=
  let r := s.req id
  let line := r.pa / 64
  let home := homeDie r.pa
  let isNew := !((s.die d).cask.any fun e => e.1 = line)
  if (unreach s d home).isSome && decide (d ≠ home) then
    s.post 0 (.remoteAccessFailure id ((unreach s d home).getD 1))
  else
    let s := if isNew then
        let l := (s.die d).cask
        let s := if 16384 ≤ l.length then (match oldestEntry l with
          | some v => drainEntry s d v 1
          | none => s) else s
        let s := s.modDie d fun x => { x with cask := kvSet x.cask line { sums := List.replicate 16 0, region := r.limit } }
        sendCask s d home (.caskOpenRequest line d)
      else s
    let e := caskPlus (kvGet {} (s.die d).cask line) (r.pa % 64 / 4) (BitVec.ofNat 32 (bytesNat r.data)) s.clk
    let e := if e.opening then { e with wait := e.wait ++ [id] } else e
    let s := s.modDie d fun x => { x with cask := kvSet x.cask line e }
    if e.opening then s.modReq id fun x => { x with stage := 1 }
    else
      let s := reqDone s id
      if e.share.toNat < e.mu.toNat then drainEntry s d line 0 else s

/-- CASK_GRANT, R262. -/
def evCaskGrant (s : State) (line d : Nat) (share : Word) : State :=
  match (s.die d).cask.find? fun e => e.1 = line with
  | none => s
  | some (_, e) =>
    let s := s.modDie d fun x => { x with cask := kvSet x.cask line { e with opening := false, share := share, wait := [] } }
    let s := e.wait.foldl (fun s id => reqDone s id) s
    let s := s.cores.foldl (fun s c => if pkgOfCore c.1 = pkgOfDie d then clearWaits s c.1 else s) s
    if share.toNat < e.mu.toNat then drainEntry s d line 0 else s

/-- An open request at home (R259): the holder joins the line and the region, the others are re-split, and it is granted. -/
def openAt (s : State) (line d : Nat) : State :=
  let home := homeDie (64 * line)
  let c := codeOf home d
  match (s.die d).cask.find? fun e => e.1 = line with
  | none => s
  | some (_, e) =>
    let idx := e.region
    let s := if poisoned s line then s else
      let m := agentMeta s home line
      let m : Meta := if m.st = 5 then m else { st := 5 }
      let s := setMeta s home line { addSharer m c with ch := true }
      s.modDie home fun x => { x with caskLines := kvSet x.caskLines line idx }
    let r := regionAt s home idx
    let s := if (holdersOf r).contains c then s else
      let s := modRegion s home idx fun r =>
        if c < 16 then { r with dies := r.dies ||| BitVec.ofNat 16 (2 ^ c) }
        else { r with pkgs := r.pkgs ||| BitVec.ofNat 32 (2 ^ (c - 32)) }
      resplit s home idx (some c)
    sendCask s home d (.caskGrant line d (regionAt s home idx).share)

/-- The words of a line with a drain's sums added in ascending order (R258). -/
def addSums (s : State) (line : Nat) (sums : List Word) : State :=
  let ws := bytesWords (memRead s.mem (64 * line) 64)
  { s with mem := memWrite s.mem (64 * line) (wordsBytes ((ws.zip sums).map fun p => fadd32 p.1 p.2)) }

/-- A drain of an entry of region `idx` is applied at home (R258, R259). -/
def drainApply (s : State) (line d idx : Nat) (sums : List Word) (closes : Nat) (leaves : Bool) : State :=
  let home := homeDie (64 * line)
  let c := codeOf home d
  let s := if poisoned s line then s else addSums s line sums
  let m := agentMeta s home line
  let s := if closes = 0 || m.st ≠ 5 || poisoned s line then s else
    let m := if c < 16 then { m with sharers := m.sharers &&& (0xFFFF - 2 ^ c) } else m
    if m.ch && decide (m.sharers = 0) && !m.rsh then
      (setMeta s home line {}).modDie home fun x => { x with caskLines := kvDel x.caskLines line }
    else setMeta s home line m
  if leaves then
    resplit (modRegion s home idx fun r =>
      if c < 16 then { r with dies := r.dies &&& ~~~ (BitVec.ofNat 16 (2 ^ c)) }
      else { r with pkgs := r.pkgs &&& ~~~ (BitVec.ofNat 32 (2 ^ (c - 32))) }) home idx none
  else s

/-- RACKING, R257: a holder drains and closes its entry, or answers at once. -/
def evRacking (s : State) (line d : Nat) : State :=
  let home := homeDie (64 * line)
  match (s.die d).cask.find? fun e => e.1 = line with
  | some (_, e) =>
    if e.opening then sendCask s d home (.holderAnswer home line d 0) else drainEntry s d line 2
  | none => sendCask s d home (.holderAnswer home line d 0)

/-- A finite f32 pattern of a value not below zero, times 2^149. -/
def f32Scaled (w : Word) : Nat :=
  let e := natBits w.toNat 23 8
  let f := natBits w.toNat 0 23
  if e = 0 then f else (2 ^ 23 + f) * 2 ^ (e - 1)

/-- The tolerance of an LDB (R263): none for +Inf; a NaN or a value below zero is 0. -/
def tolerance (w : Word) : Option Nat :=
  let mag := (w &&& 0x7FFFFFFF).toNat
  if w = 0x7F800000 then none
  else if w.getLsbD 31 || decide (0x7F800000 < mag) then some 0
  else some (f32Scaled w)

/-- The holders that an LDB racks (R263): each die of SHARERS in order, then the packages, while the bound exceeds τ. -/
def rackUpTo (bshare tau npk : Nat) : Nat → List (List Nat) → List Nat
  | _, [] => []
  | n, h :: r =>
    if bshare * n ≤ tau then []
    else h ++ rackUpTo bshare tau npk (n - (if h.any fun c => 32 ≤ c then npk else 1)) r

/-- The holder codes that a transaction on a CASK line racks; `tau` is none for +Inf. -/
def rackList (s : State) (line : Nat) (tau : Option Nat) : List Nat :=
  let home := homeDie (64 * line)
  let m := agentMeta s home line
  if m.st ≠ 5 then [] else
  let r := regionAt s home (kvGet 0 (s.die home).caskLines line)
  let pk := (holdersOf r).filter fun c => 32 ≤ c
  match tau with
  | none => []
  | some t =>
    let hs := (sharerList m.sharers).map (fun d => [d]) ++ (if m.rsh then [pk] else [])
    rackUpTo (f32Scaled r.bshare) t pk.length ((sharerList m.sharers).length + (if m.rsh then pk.length else 0)) hs

/-- Every holder of a CASK line (R265, R384). -/
def rackAll (s : State) (line : Nat) : List Nat :=
  let home := homeDie (64 * line)
  let m := agentMeta s home line
  if m.st ≠ 5 then [] else
  let r := regionAt s home (kvGet 0 (s.die home).caskLines line)
  sharerList m.sharers ++ (if m.rsh then (holdersOf r).filter fun c => 32 ≤ c else [])

/-- Sends the racking messages of a transaction and awaits their answers; CH falls (R263). -/
def sendRacking (s : State) (line : Nat) (codes : List Nat) (all : Bool) : State :=
  let home := homeDie (64 * line)
  let m := agentMeta s home line
  if codes.isEmpty && !(all && m.rsh) then s else
  let s := setMeta s home line { m with ch := false }
  let ds := (codes.map (dieOfCode home)).filter fun d => answers s home d
  let s := modTxn s home line fun t => { t with await := ds, racked := if m.rsh && (all || codes.any fun c => 32 ≤ c) then 99 :: codes else codes }
  ds.foldl (fun s d => sendCask s home d (.racking line d)) s

/-- The end of a racking (R259, R263): CH rises, the racked bits go, RSH where every package was racked; HOME where no holder
is left. -/
def endRacking (s : State) (line : Nat) (racked : List Nat) : State :=
  let home := homeDie (64 * line)
  let m := agentMeta s home line
  if racked.isEmpty || m.st ≠ 5 || poisoned s line then s else
  let left := (sharerList m.sharers).filter fun d => !racked.contains d
  let m := { m with ch := true, sharers := left.foldl (fun a d => a + 2 ^ d) 0, rsh := m.rsh && !racked.contains 99 }
  if m.sharers = 0 ∧ !m.rsh then (setMeta s home line {}).modDie home fun x => { x with caskLines := kvDel x.caskLines line }
  else setMeta s home line m

/-- The lines of a region in CASK at home, ascending (R265). -/
def regionLines (s : State) (home idx : Nat) : List Nat :=
  (s.die home).caskLines.filterMap fun e => if e.2 = idx then some e.1 else none

end Sys2Proof.Machine
end

