-- ==== Sys2Proof/Machine/Agents.lean ====
section
/-! DEFINITION. The home agent and the proxy agent at work: one transaction per line at a time (R240, R242), with the
events of the opcode table that concern lines and casks (R195, R237 to R243, R257 to R265, R427, R429). -/

namespace Sys2Proof.Machine

/-- The marker in `await` of a transaction that waits for an event of its own agent. -/
def selfMark : Nat := 10 ^ 9

/-- The level at which a requester holds its copy after a request. -/
def levelFor (m : Meta) (r : Nat) : Nat :=
  if m.owner ≠ r then 0
  else match m.st with
    | 2 => 3
    | 3 => 1
    | 4 => 2
    | _ => 0

/-- The line's HBM4E contents as the patrol scrubber leaves them (R427): false where they are uncorrectable. -/
def scrubLine (s : State) (line : Nat) : State × Bool :=
  let es := kvGet [] s.errs line
  match correction es with
  | none => (countBad s line, false)
  | some fix =>
    if es.isEmpty then (s, true) else
    let s := if heldAtHome s line then countCorrected s line else takeFix s line es fix
    ({ s with errs := kvDel s.errs line }, true)

/-- An entry of the remote-data cache as the scrubber leaves it (R427): an uncorrectable one is invalid, without a record. -/
def scrubRdc (s : State) (line : Nat) : State :=
  let es := kvGet [] s.errs line
  match correction es with
  | none => rdcDrop (countUe s line) line
  | some fix => if es.isEmpty then s else { takeFix s line es fix with errs := kvDel s.errs line }

/-- A proxy asks the home agent for what it does not hold (R242). -/
def goUp (s : State) (agent key line q : Nat) (own : Bool) : State :=
  let home := homeDie (64 * line)
  match unreach s agent home with
  | some c => s.post 0 (.remoteAccessFailure q c)
  | none =>
    let s := modTxn s agent key fun t => { t with await := [home], up := true }
    send (s.modReq q fun r => { r with agent := home }) agent home 0 upClk false (if own then .own q else .rd q)

/-- The other sector of an engine's write to a whole line: the write of the same chunk to it that is under way. -/
def otherSector (s : State) (q : Nat) : Option Nat :=
  let r := s.req q
  let pa := if r.pa % 64 < 32 then r.pa + 32 else r.pa - 32
  if r.kind ≠ .ewr ∨ r.size ≠ 32 then none else
  (s.reqs.find? fun e => decide (e.2.kind = .ewr ∧ e.2.tag = r.tag ∧ e.2.reg = r.reg ∧ e.2.cls = r.cls ∧ e.2.pa = pa ∧ e.2.size = 32
    ∧ e.2.stage = 1) && !e.2.failed).map (·.1)

/-- A write of all 64 bytes of a poisoned line takes it to HOME (R234): an engine writes them as two sectors (R288), and the first to
arrive brings both (notes/assumptions/93.md). -/
def clearPoison (s : State) (line : Nat) (e : Ev) : State :=
  match e with
  | .hwr q => if !poisoned s line then s else match otherSector s q with
    | some m => performReq { s with metaw := kvDel s.metaw line } m
    | none => s
  | _ => s

/-- The home agent treats a line that it will poison as held everywhere: it sends invalidations to every die of its package and
every other package (R234). -/
def poisonPlan (s : State) (agent key line cause : Nat) : State :=
  let all := ((List.range 16).filter fun d => d ≠ agent % 16) ++ otherPkgs s agent
  sendPlan (modTxn s agent key fun t => { t with poison := cause, inval := true }) agent key line false (all.map fun c => (c, 2))

/-- A proxy finds the owner of a line, a die of its package, dead: it keeps nothing of the line, and the home agent learns that the line
is lost with what the proxy sends it next (R249; notes/assumptions/90.md). -/
def lostOwner (s : State) (agent line : Nat) : State :=
  let s := (setMeta s agent line {}).modDie agent fun x => { x with copies := kvDel x.copies line }
  s.modDie (homeDie (64 * line)) fun x => { x with lost := insertNat line x.lost }

/-- A proxy visits its word of a line: a dead owner, and the bits of dead sharers (R249). -/
def proxyVisit (s : State) (agent line : Nat) : State :=
  let m := agentMeta s agent line
  let gone (c : Nat) : Bool := (s.die (dieOfCode agent c)).dead
  if 2 ≤ m.st && decide (m.st ≤ 4) && gone m.owner then lostOwner s agent line
  else if m.st = 1 ∨ m.st = 2 then setMeta s agent line (dropSharers m gone)
  else s

/-- A transaction begins: the line is read and visited, and its messages are sent. -/
def beginTxn (s : State) (agent key line : Nat) (e : Ev) : State :=
  let r := match arrival s e with
    | some (_, _, c) => c
    | none => 99
  let hit := (s.die agent).held.any fun h => h.1 = line
  let s := modTxn s agent key fun t => { queue := t.queue, ev := some e, r := r, hit := hit, since := s.clk }
  if !evLive s e then s
  else if isHome agent line then
    let scrub := match e with
      | .scrubStep _ _ => true
      | _ => false
    match e with
    | .lineDiagAddr d _ =>
      (modTxn s agent key fun t => { t with await := [selfMark] }).post (if hit then 1 else 144) (.lineDiagComplete d)
    | _ =>
      if scrub && inRdc s line then scrubRdc s line else
      let s := clearPoison s line e
      let (s, ok) := if scrub then scrubLine s line else (s, true)
      let (s, cause) := if ok then (if scrub && !hit then
            let (s, c) := visit s line (clsOf s line e)
            (s.modDie agent fun x => { x with held := kvDel x.held line }, c)
          else visit s line (clsOf s line e)) else (s, 17)
      if cause ≠ 0 then poisonPlan s agent key line cause
      else if poisoned s line then modTxn s agent key fun t => { t with poison := 17 }
      else match e with
        | .ldbTransaction q => sendRacking s line (rackList s line (tolerance (BitVec.ofNat 32 (bytesNat (s.req q).data)))) false
        | .rackTransaction _ => sendRacking s line (rackAll s line) true
        | .atciRemoval _ _ =>
          if (agentMeta s agent line).st = 5 then sendRacking s line (rackAll s line) true else startPlan s agent key line 99 e
        | _ => if clsOf s line e = 0 ∨ clsOf s line e = 9 then startPlan s agent key line r e else s
  else
    let s := proxyVisit s agent line
    match e with
    | .rd q | .hrd q =>
      if proxyHas s agent line .rd (s.req q).pa then startPlan s agent key line r e else goUp s agent key line q false
    | .own q | .hwr q =>
      if proxyHas s agent line .own (s.req q).pa then startPlan s agent key line r e else goUp s agent key line q true
    | _ => startPlan s agent key line r e

/-- A RACK or ATCI has one line less to wait for; the last one sends its answer. -/
def countDown (s : State) (id : Nat) : State :=
  let r := s.req id
  if !(s.reqs.any fun x => x.1 = id) then s
  else if r.kind = .flsh then
    let l := landingOf r id
    if homeDie r.pa = dieOfCore r.core then s.post 0 (.remoteReply l) else sendRep s (homeDie r.pa) (dieOfCore r.core) (.remoteReply l)
  else
  let s := s.modReq id fun r => { r with n := r.n - 1 }
  if (s.req id).n = 0 then answerReq (s.modReq id fun r => { r with stage := 2 }) id 48 else s

/-- A request reaches the home agent from the proxy agent of another package, for a copy of a T line (R242). -/
def fromProxy (s : State) (agent q : Nat) (e : Ev) : Bool :=
  let r := s.req q
  decide (r.cls = 0) && decide (pkgOfDie (dieOfCore r.core) ≠ pkgOfDie agent) && decide (r.agent = agent) && (match e with
    | .rd _ | .own _ => true
    | _ => false)

/-- What a request gets from a poisoned line (R234, R235). -/
def servePoisoned (s : State) (agent line cause : Nat) (e : Ev) : State :=
  match e with
  | .rackTransaction q => countDown s q
  | .atciRemoval a _ => countDown s a.id
  | .caskOpenRequest l d => openAt s l d
  | .drainArrival l d r sums closes leaves => drainApply s l d r sums closes leaves
  | .accsAddOnStore _ => (modTxn s agent line fun t => { t with ev := some e, await := [selfMark] }).post 0 e
  | _ =>
    match reqOf e with
    | some q =>
      if !evLive s e then s else
      let d := dieOfCore (s.req q).core
      let via := fromProxy s agent q e
      let s := lateFault s q cause
      if via then sendRep s agent (agentFor d line) (.holderAnswer (agentFor d line) line agent 0) else s
    | none => s

/-- The end of a transaction at the home agent (R239, R240). -/
def finishHome (s : State) (agent key line : Nat) (t : Txn) (e : Ev) : State :=
  let m := agentMeta s agent line
  match e with
  | .rd q | .own q | .hrd q | .hwr q =>
    let k := (rkOf e).getD .hrd
    let r := s.req q
    let s := if r.cls = 0 then setMeta s agent line (nextMeta k m t.r (t.dirty ≠ 0) true) else s
    let lv := levelFor (agentMeta s agent line) t.r
    let atomic := match r.kind with
      | .atom | .red | .cas | .ewr | .eadd | .eflag => true
      | _ => false
    if atomic then (modTxn s agent key fun t => { t with await := [selfMark] }).post 0
      (if isEng r.kind then applyEv s q else .atomicUnitApply q)
    else if fromProxy s agent q e then
      let p := agentFor (dieOfCore r.core) line
      send (s.modReq q fun r => { r with right := some lv }) agent p 1 upClk false (.holderAnswer p line agent 0)
    else replyTo s agent q lv t.hit
  | .evx _ d _ => setMeta s agent line (evxMeta m (codeOf agent d))
  | .ldbTransaction q => answerReq (performReq (endRacking s line t.racked) q) q 96
  | .rackTransaction q => countDown (endRacking s line t.racked) q
  | .atciRemoval a _ =>
    if m.st = 5 then countDown (endRacking s line t.racked) a.id
    else countDown (setMeta s agent line (nextMeta .hwr m 99 false true)) a.id
  | .caskOpenRequest l d => openAt s l d
  | .drainArrival l d r sums closes leaves => drainApply s l d r sums closes leaves
  | .accsAddOnStore _ =>
    -- the line is held until every line of the add-on-store is (R324)
    let s := if clsOf s line e = 0 then setMeta s agent line (nextMeta .hwr m 99 false true) else s
    (modTxn s agent key fun t => { t with await := [selfMark] }).post 0 e
  | _ => s

/-- The dirty sectors of a proxy's own copy with those its dies returned. -/
def proxyDirty (s : State) (agent line : Nat) (d : BitVec 2) : State :=
  s.modDie agent fun x => { x with copies := x.copies.map fun c => if c.1 = line then (c.1, { c.2 with dirty := c.2.dirty ||| d }) else c }

/-- The end of a transaction at a proxy agent (R242). -/
def finishProxy (s : State) (agent line : Nat) (t : Txn) (e : Ev) : State :=
  let m := agentMeta s agent line
  let s := proxyDirty s agent line t.dirty
  let c := (copyOf s agent line).getD {}
  let home := homeDie (64 * line)
  let setCopy (s : State) (c : Copy) : State := s.modDie agent fun x => { x with copies := kvSet x.copies line c }
  let noCopy (s : State) : State := s.modDie agent fun x => { x with copies := kvDel x.copies line }
  match e with
  | .rd q | .own q | .hrd q | .hwr q =>
    let k := (rkOf e).getD .hrd
    let s := setMeta s agent line (nextMeta k m t.r (t.dirty ≠ 0) (c.level = 1 || c.level = 2))
    replyTo s agent q (levelFor (agentMeta s agent line) t.r) true
  | .probe a _ _ wb =>
    let s := setMeta s agent line (nextMeta .hrd m 99 false false)
    let s := if (copyOf s agent line).isNone then s
      else if wb || c.dirty = 0 then setCopy s { c with level := 0, dirty := 0 } else setCopy s { c with level := 3 }
    sendHolder s agent a (.holderAnswer a line agent c.dirty)
  | .recallHolder a _ _ => sendHolder (noCopy (setMeta s agent line {})) agent a (.holderAnswer a line agent c.dirty)
  | .invalidation a _ _ => sendHolder (noCopy (setMeta s agent line {})) agent a (.holderAnswer a line agent 0)
  | .proxyEviction _ _ =>
    let s := noCopy (setMeta s agent line {})
    if c.level = 0 then s else sendHolder s agent home (.evx line agent c.dirty)
  | .evx _ d dirty => proxyDirty (setMeta s agent line (evxMeta m (codeOf agent d))) agent line dirty
  | _ => s

/-- A transaction whose answers are all in ends. A line found lost meanwhile is poisoned first (R249, R259). -/
def finishTxn (s : State) (agent key line : Nat) : State :=
  let t := txnAt s agent key
  match t.ev with
  | none => s
  | some e =>
    let cause := if t.poison = 0 && isHome agent line && (s.die agent).lost.contains line then 17 else t.poison
    let s := if cause ≠ 0 && !t.inval && !poisoned s line then poisonPlan s agent key line cause else s
    if !(txnAt s agent key).await.isEmpty then s else
    let s := modTxn s agent key fun t => { t with ev := none, await := [] }
    if cause ≠ 0 then servePoisoned (if poisoned s line then s else poisonLine s line) agent line cause e
    else if !evLive s e then endRacking s line t.racked
    else if isHome agent line then
      -- a transaction that goes on to an event of its own agent keeps its event
      finishHome (modTxn s agent key fun x => { x with ev := some e, r := t.r, hit := t.hit }) agent key line t e
    else finishProxy s agent line t e

/-- A finished transaction leaves the line unless it awaits an event of its own agent. -/
def clearTxn (s : State) (agent key : Nat) : State :=
  if (txnAt s agent key).await.isEmpty then modTxn s agent key fun t => { t with ev := none } else s

/-- Runs a line: ends its transaction when nothing is awaited, and begins the next that waits (R240). -/
def runTxn : Nat → State → Nat → Nat → Nat → State
  | 0, s, _, _, _ => s
  | n + 1, s, agent, key, line =>
    let t := txnAt s agent key
    match t.ev with
    | some _ => if t.await.isEmpty then runTxn n (clearTxn (finishTxn s agent key line) agent key) agent key line else s
    | none =>
      match t.queue with
      | [] => s
      | e :: q => runTxn n (beginTxn (modTxn s agent key fun t => { t with queue := q, ev := some e }) agent key line e) agent key line

/-- Runs a line with fuel for all that waits. -/
def goLine (s : State) (agent key line : Nat) : State :=
  runTxn (2 * (txnAt s agent key).queue.length + 4) s agent key line

/-- A request arrives at an agent and waits its turn. -/
def lineArrive (s : State) (agent key line : Nat) (e : Ev) : State :=
  goLine (modTxn s agent key fun t => { t with queue := t.queue ++ [e] }) agent key line

/-- Another request for the line arrives in this clk and comes first: dies ascending, then packages (R240). -/
def yields (s : State) (e : Ev) : Bool :=
  match arrival s e with
  | none => false
  | some (a, l, c) => s.agenda.any fun x => decide (x.1 = s.clk) && (match arrival s x.2 with
    | some (a', l', c') => decide (a' = a ∧ l' = l ∧ c' < c)
    | none => false)

/-- RD, OWN, HRD, HWR, LDB_TRANSACTION and CASK_OPEN_REQUEST: a request reaches its agent (R239, R259, R263). An EVX that
finds a transaction running is applied as part of it (R240). -/
def evArrive (s : State) (e : Ev) : State :=
  match arrival s e with
  | none => s
  | some (a, l, _) =>
    if yields s e then s.post 0 e else
    match e, (txnAt s a l).ev with
    | .evx _ d dirty, some _ =>
      let s := setMeta s a l (evxMeta (agentMeta s a l) (codeOf a d))
      if isHome a l then s else proxyDirty s a l dirty
    | _, _ => lineArrive s a l l e

/-- A probe, recall or invalidation reaches a holder (R238, R242). It waits for a grant that is still on its way. -/
def evHolder (s : State) (e : Ev) (agent line holder : Nat) : State :=
  if grantPending s holder line then s.post 1 e
  else if pkgOfDie holder ≠ pkgOfDie agent then
    lineArrive s holder (if (txnAt s holder line).up then downKey line else line) line e
  else
    let c := (copyOf s holder line).getD {}
    let drop (s : State) : State := s.modDie holder fun x => { x with copies := kvDel x.copies line }
    let keep (s : State) (c : Copy) : State := s.modDie holder fun x => { x with copies := kvSet x.copies line c }
    let has := (copyOf s holder line).isSome
    match e with
    | .probe _ _ _ wb =>
      let s := if !has then s else if wb || c.dirty = 0 then keep s { c with level := 0, dirty := 0 } else keep s { c with level := 3 }
      sendHolder s holder agent (.holderAnswer agent line holder c.dirty)
    | .recallHolder _ _ _ => sendHolder (drop s) holder agent (.holderAnswer agent line holder c.dirty)
    | _ => sendHolder (drop s) holder agent (.holderAnswer agent line holder 0)

/-- HOLDER_ANSWER, R240: an answer comes in, or the home's to a proxy. -/
def evHolderAnswer (s : State) (agent line holder : Nat) (dirty : BitVec 2) : State :=
  let key := if isHome agent line || decide (pkgOfDie holder ≠ pkgOfDie agent) then line
    else if (txnAt s agent (downKey line)).ev.isSome then downKey line else line
  let t := txnAt s agent key
  if t.up then
    let s := modTxn s agent key fun t => { t with up := false, await := [] }
    match t.ev.bind reqOf with
    | some q =>
      if s.reqs.any fun r => r.1 = q then
        let r := s.req q
        let s := match r.right with
          | some lv => takeCopy (s.modReq q fun r => { r with right := none, agent := agent }) agent r.pa lv
          | none => s.modReq q fun r => { r with agent := agent }
        let s := match t.ev with
          | some e => startPlan s agent key line (codeOf agent (dieOfCore r.core)) e
          | none => s
        goLine s agent key line
      else goLine s agent key line
    | none => goLine s agent key line
  else goLine (modTxn s agent key fun t => { t with await := t.await.erase holder, dirty := t.dirty ||| dirty }) agent key line

/-- OWNERSHIP_GRANT, R243: the waiting store is applied to the copy that now holds ownership. -/
def evOwnershipGrant (s : State) (id : Nat) : State :=
  match s.reqs.find? fun r => r.1 = id with
  | none => s
  | some (_, r) =>
    let d := dieOfCore r.core
    let s := match r.grant with
      | some lv => takeCopy (s.modReq id fun x => { x with grant := none }) d r.pa lv
      | none => s
    match copyOf s d (r.pa / 64) with
    | some c =>
      if c.level = 1 ∨ c.level = 2 then landReq (performReq (markDirty s d r.pa) id) id else toAgent s id
    | none => toAgent s id

/-- ATOMIC_UNIT_APPLY, R195: an atomic unit applies its operation; an ACC reaches its cask store. -/
def evAtomicUnitApply (s : State) (id : Nat) : State :=
  match s.reqs.find? fun r => r.1 = id with
  | none => s
  | some (_, r) =>
    let home := homeDie r.pa
    let line := r.pa / 64
    if r.kind = .acc then
      let d := dieOfCore r.core
      caskAdd s (if pkgOfDie home = pkgOfDie d then d else agentFor d line) id
    else
      let t := txnAt s home line
      let s := performReq s id
      let s := answerReq s id (if t.hit then 48 else 96)
      goLine (modTxn s home line fun t => { t with ev := none, await := [] }) home line line

/-- DRAIN_ARRIVAL, R258, R259: a drain is a transaction of its line; while another runs it is applied as part of that, and one that
answers a racking counts as the answer. -/
def evDrainArrival (s : State) (line d idx : Nat) (sums : List Word) (closes : Nat) (leaves : Bool) : State :=
  let home := homeDie (64 * line)
  if (txnAt s home line).ev.isNone then lineArrive s home line line (.drainArrival line d idx sums closes leaves)
  else
    let s := drainApply s line d idx sums closes leaves
    if closes = 2 then evHolderAnswer s home line d 0 else s

/-- RACK_TRANSACTION, R265: every CASK line of the region is racked, each as a transaction of its own. -/
def evRackTransaction (s : State) (id : Nat) : State :=
  match s.reqs.find? fun r => r.1 = id with
  | none => s
  | some (_, r) =>
    let home := homeDie r.pa
    let ls := regionLines s home r.limit
    if ls.isEmpty then answerReq (s.modReq id fun r => { r with stage := 2, n := 0 }) id 48
    else
      let s := s.modReq id fun r => { r with n := ls.length }
      ls.foldl (fun s l => lineArrive s home l l (.rackTransaction id)) s

/-- DIE_CACHE_EVICTION, R238. -/
def evDieCacheEviction (s : State) (d line : Nat) : State :=
  match copyOf s d line with
  | none => s
  | some c =>
    let s := s.modDie d fun x => { x with copies := kvDel x.copies line }
    if c.level = 0 then s else sendHolder s d (agentFor d line) (.evx line d c.dirty)

/-- PROXY_EVICTION, R242: the proxy first recalls or invalidates the line at the dies of its package. -/
def evProxyEviction (s : State) (p line : Nat) : State :=
  let agent := 16 * p + homeDie (64 * line) % 16
  if (copyOf s agent line).isNone ∨ (txnAt s agent line).ev.isSome then s
  else lineArrive s agent line line (.proxyEviction p line)

/-- The generation after this one. -/
def nextGen (g : Nat) : Nat := if 63 ≤ g then 1 else g + 1

/-- GENERATION_ADVANCE, R246: entries of the generation to come are waited for until the sweeper has passed them; then the
die advances and answers the FLSH or ATCI that asked (R207, R384). The sweeper runs always; the steps at which it meets an entry that is
now not current are due. -/
def evGenerationAdvance (s : State) (d id : Nat) : State :=
  let g := (s.die d).rdcGen
  match rdcOfGen s d (nextGen g) with
  | [] =>
    let s := (rdcOfGen s d g).foldl (fun s i => s.post (sweepIn s d i) (.rdcSweeperStep d)) (s.modDie d fun x => { x with rdcGen := nextGen g })
    if id = 0 then s else
    let src := dieOfCore (s.req id).core
    let l := landingOf (s.req id) id
    if src = d then s.post 0 (.remoteReply l) else sendRep s d src (.remoteReply l)
  | old => s.post (old.foldl (fun m i => max m (sweepIn s d i)) 0) (.generationAdvance d id)

/-- RDC_SWEEPER_STEP, R246: the sweeper reads one entry, the one whose turn this clk is, and invalidates it where its
generation is not current. -/
def evRdcSweeperStep (s : State) (d : Nat) : State :=
  let n := rdcEntries (s.die d)
  if n = 0 then s else
  let l := rdcLine s d (s.clk % n)
  let s := rdcDecode s l
  if rdcGenOf (metaOf s l) = (s.die d).rdcGen then s else rdcDrop s l

/-- SCRUB_STEP, R427: the patrol scrubber visits a line of its die as one transaction. -/
def evScrubStep (s : State) (d line : Nat) : State :=
  if homeDie (64 * line) = d then lineArrive s d line line (.scrubStep d line) else s

/-- LINE_DIAG_COMPLETE, R430. -/
def evLineDiagComplete (s : State) (d : Nat) : State :=
  let line := natBits (s.die d).diagAddr.toNat 6 46
  let home := homeDie (64 * line)
  let held := (s.die home).held.find? fun h => h.1 = line
  let chk := match held with
    | some (_, c) => BitVec.ofNat 32 c
    | none => hbmCheck s line
  let s := s.modDie d fun x => { x with
    diagData := BitVec.ofNat 64 (2 ^ 63 + held.isSome.toNat * 2 ^ 62 + (metaOf s line).toNat), diagCheck := chk.setWidth 64 }
  goLine (modTxn s home line fun t => { t with ev := none, await := [] }) home line line

/-- LINE_DIAG_ADDR, R429: the diagnostic read of a line begins. One under way is not disturbed. -/
def evLineDiagAddr (s : State) (d : Nat) (v : Dword) : State :=
  let line := natBits v.toNat 6 46
  let busy := (s.die d).diagAddr ≠ 0 && !(s.die d).diagData.getLsbD 63
  if natBits v.toNat 52 12 ≠ 0 ∨ natBits v.toNat 0 6 ≠ 0 ∨ busy then s
  else
    let s := s.modDie d fun x => { x with diagAddr := v, diagData := x.diagData &&& 0x7FFFFFFFFFFFFFFF }
    lineArrive s (homeDie (64 * line)) line line (.lineDiagAddr d v)

end Sys2Proof.Machine
end

