-- ==== Sys2Proof/Machine/Moves.lean ====
section
/-! DEFINITION. The move and register instructions, opcodes 0x18 to 0x23, and the special registers (spec/05). -/

namespace Sys2Proof.Machine

/-- MOV (R106). -/
def movFn (_ : Ins) (a _b _c : Nat) : AluOut := { v := a }

/-- MOVI (R106): a literal, or IMM sign-extended under .i64. -/
def moviFn (x : Ins) (_a _b _c : Nat) : AluOut :=
  { v := if x.lit2 then x.lit.toNat else if x.f.t = 2 then (x.f.imm.signExtend 64).toNat else x.f.imm.toNat }

/-- SEL (R108): A where the predicate of C is true. -/
def selFn (_ : Ins) (a b c : Nat) : AluOut := { v := if c = 1 then a else b }

/-- PLOP (R111): the bit of the table that the three predicates select. -/
def plopFn (x : Ins) (a b c : Nat) : AluOut := { p := some (x.f.d.toNat, x.ib (4 * a + 2 * b + c)) }

/-- The registers of a thread's cohort, r of R93. -/
def regsOf (s : State) (t : Nat) : Nat := (s.cohort (coreOfThread t)).r

/-- MOVX of one thread (R107): the index fault, the drop at a register that is empty or not yet readable, the value. -/
def movxThread (x : Ins) (t : Nat) (s : State) : TOut :=
  match gather s x t with
  | .fault c => .fault c 0 0 s
  | .drop p _ => .stay (.queue p true s.clk) s
  | .vals v =>
    if regsOf s t ≤ v.a then .fault 12 0 0 s
    else
      let g := s.greg t v.a
      if !g.full || decide (s.clk < g.rdy) then .stay (.indexed v.a) s
      else match (pushOf x).filter fun p => !pushRoom v.st (t / 32) p with
        | some p => .stay (.queue p false s.clk) s
        | none => .ok (putDest v.st x t 1 g.v.toNat v.popped (s.rdy 1))

/-- MOVX (R107). -/
def movx (x : Ins) (s : State) : Out := perThread x 1 noEnd (movxThread x) s

/-- MOVXW of one thread (R107): the index fault, which comes before any drop; then the register is written, its tag cancelled,
and it is full. DEDUCED (log 84): a popped operand delays nothing, because R96 and R107 fill the register at once. -/
def movxwThread (x : Ins) (t : Nat) (s : State) : TOut :=
  let put (v : Vals) : TOut :=
    if regsOf s t ≤ v.a then .fault 12 0 0 s else .ok (v.st.setG t v.a (BitVec.ofNat 32 v.b) (s.rdy 1))
  match gather s x t with
  | .fault c => .fault c 0 0 s
  | .drop p v => dropAt s p (!v.lackA) (put v)
  | .vals v => put v

/-- MOVXW (R107). -/
def movxw (x : Ins) (s : State) : Out := perThread x 1 noEnd (movxwThread x) s

/-! ### Special registers (Table 5-2) -/

/-- The register's user view is none (R104). -/
def srPriv (n : Nat) : Bool := (0x11 ≤ n && n ≤ 0x15) || 0x20 ≤ n

/-- The register is read-only in a view (R104, Table 5-2). -/
def srReadOnly (n : Nat) (priv : Bool) : Bool := n ≤ 0x0C || n = 0x10 || (n = 0x0F && !priv)

/-- $ctx (Table 18-2). -/
def ctxWord (c : CtxDesc) : Nat :=
  c.prewait % 256 * 2 ^ 14 + c.region.toNat * 2 ^ 13 + c.remK.toNat * 2 ^ 12 + c.asid % 4096

/-- The virtual address of a span's addressable cellar (R187). -/
def cellarBase (h : Cohort) : Nat := h.window.toNat + (16 * h.strip + h.span) * 2 ^ 27

/-- A special register as a thread reads it (Table 5-2). -/
def readSr (s : State) (t n : Nat) : Nat :=
  let w := t / 32
  let c := coreOfWarp w
  let h := s.cohort c
  let wp := s.warp w
  match n with
  | 0x00 => t % 32
  | 0x01 => w % 512
  | 0x02 => w % 32
  | 0x03 => c % 128
  | 0x04 => dieOfCore c % 16
  | 0x05 => pkgOfCore c
  | 0x06 => h.index
  | 0x07 => h.ncohort
  | 0x08 => h.span
  | 0x09 => h.nspan
  | 0x0A => h.strip
  | 0x0B => wp.rank.toNat
  | 0x0C => s.pkgClk (pkgOfCore c)
  | 0x0D => (s.thread t).fstat.toNat
  | 0x0E => (s.core c).remstat.toNat
  | 0x0F => h.prio % 4
  | 0x10 => cellarBase h
  | 0x11 => ctxWord h.ctx
  | 0x12 => wp.xcause.toNat
  | 0x13 => wp.xpc.toNat
  | 0x14 => wp.xaddr.toNat
  | 0x15 => wp.xdone.toNat
  | _ => (kvGet 0 wp.xm (n - 0x20)).toNat

/-- $remstat after the bits written as 1 are cleared (R104, R369): CAUSE, PKG and DIE go with the last failure bit. -/
def remstatW1C (old v : Word) : Word :=
  let r := old &&& ~~~ (v &&& 0xBF)
  if r &&& 0x3F = 0 then r &&& 0x80 else r

/-- A special register written by a thread. The fields of $xcause are read-only (Table 18-6). -/
def writeSr (s : State) (t n v : Nat) : State :=
  let w := t / 32
  let c := coreOfWarp w
  let v32 := BitVec.ofNat 32 v
  let cohort (f : Cohort → Cohort) : State := s.modCore c fun k => { k with cohort := k.cohort.map f }
  match n with
  | 0x0D => s.modThread t fun h => { h with fstat := fstatMask v32, frdy := max h.frdy (s.rdy 1) }
  | 0x0E => s.modCore c fun k => { k with remstat := remstatW1C k.remstat v32 }
  | 0x0F => cohort fun h => { h with prio := v % 4 }
  | 0x11 => cohort fun h => { h with ctx := { h.ctx with
      prewait := natBits v 14 8, region := v.testBit 13, remK := v.testBit 12 } }
  | 0x13 => s.modWarp w fun h => { h with xpc := BitVec.ofNat 64 v }
  | 0x14 => s.modWarp w fun h => { h with xaddr := BitVec.ofNat 64 v }
  | 0x15 => s.modWarp w fun h => { h with xdone := v32 }
  | _ => if 0x20 ≤ n then s.modWarp w fun h => { h with xm := kvSet h.xm (n - 0x20) v32 } else s

/-- MOVS of one thread (R104, R109). -/
def movsThread (x : Ins) (t : Nat) (s : State) : TOut :=
  let n := x.ifld 0 8
  if srPriv n && !s.inHandler t then .fault 2 0 0 s
  else .ok (putDest s x t (destN x) (readSr s t n) false (s.rdy 1))

/-- MOVS (R109). -/
def movs (x : Ins) (s : State) : Out := perThread x 1 noEnd (movsThread x) s

/-- SETS of one thread (R104, R109). -/
def setsThread (x : Ins) (t : Nat) (s : State) : TOut :=
  let n := x.ifld 0 8
  if srPriv n && !s.inHandler t then .fault 2 0 0 s
  else if srReadOnly n (s.inHandler t) then .fault 1 0 0 s
  else match gather s x t with
    | .fault c => .fault c 0 0 s
    | .drop p _ => .stay (.queue p true s.clk) s
    | .vals v => .ok (writeSr s t n v.a)

/-- SETS (R109). -/
def sets (x : Ins) (s : State) : Out := perThread x 1 noEnd (setsThread x) s

/-! ### Full/empty bits and slots -/

/-- FETEST (R110). -/
def fetest (x : Ins) (s : State) : Out :=
  perThread x 1 noEnd (fun t s => .ok (s.setP t x.f.d.toNat (s.greg t x.f.a.toNat).full (s.rdy 1))) s

/-- FESET (R110): M bit 0 selects .empty. DEDUCED (log 84): the contents stay readable from the clk they were, since
FESET.full writes none. -/
def feset (x : Ins) (s : State) : Out :=
  perThread x 1 noEnd (fun t s => .ok (s.modG t x.f.d.toNat fun g => { g with full := !x.mb 0, tag := 0 })) s

/-- The slot that SLOTR and SLOTW name (R112). -/
def slotArg (x : Ins) (s : State) (w : Nat) : Nat :=
  if x.mb 0 then (s.wreg w x.f.b.toNat).toNat % 32 else x.ifld 0 5

/-- SLOTR (R112): the contents of a g register of a named slot, whether full or empty. DEDUCED (log 84): a value written
but not yet readable by Table 4-1 is not among the current contents. -/
def slotr (x : Ins) (s : State) : Out :=
  perSubrun x id noEnd (fun ps s =>
    let w := ps.headD 0 / 32
    let t := threadOf w (slotArg x s w)
    .ok (s.setW w x.f.d.toNat ((s.greg t x.f.a.toNat).seen (s.clk + 1)) (s.rdy 1))) s

/-- SLOTW (R112): a g register of a named slot is written and full, its tag cancelled. -/
def slotw (x : Ins) (s : State) : Out :=
  perSubrun x id noEnd (fun ps s =>
    let w := ps.headD 0 / 32
    .ok (s.setG (threadOf w (slotArg x s w)) x.f.d.toNat (s.wreg w x.f.a.toNat) (s.rdy 1))) s

/-- MOV, R106: Short-form copy of a register to a register. -/
def execMov (f : Short) (s : State) : Out := alu movFn (Ins.ofBody .mov (.short f)) s

/-- MOV_LONG, R106: Long-form copy of a register or pair, which may name queue ports. -/
def execMovLong (f : Long) (s : State) : Out := alu movFn (Ins.ofBody .mov (.long f)) s

/-- MOVI, R106: Short-form move of a sign-extended 14-bit immediate. -/
def execMovi (f : Short) (s : State) : Out := alu moviFn (Ins.ofBody .movi (.short f)) s

/-- MOVI_LIT, R106: Short form with a literal: moves a 32-bit literal. -/
def execMoviLit (f : Short) (l : Dword) (s : State) : Out := alu moviFn (Ins.ofBody .movi (.lit f l)) s

/-- MOVI_LONG, R106: Long-form move of IMM, extended for 64-bit types. -/
def execMoviLong (f : Long) (s : State) : Out := alu moviFn (Ins.ofBody .movi (.long f)) s

/-- MOVI_LONG_LIT, R106: Long form with a literal: moves a 64-bit literal into a pair. -/
def execMoviLongLit (f : Long) (l : Dword) (s : State) : Out := alu moviFn (Ins.ofBody .movi (.longLit f l)) s

/-- MOVX, R107: Short-form read of the thread's own g register named by an index value. -/
def execMovx (f : Short) (s : State) : Out := movx (Ins.ofBody .movx (.short f)) s

/-- MOVX_LONG, R107: Long-form indexed register read. -/
def execMovxLong (f : Long) (s : State) : Out := movx (Ins.ofBody .movx (.long f)) s

/-- MOVXW, R107: Short-form write of a value to the thread's own g register named by an index. -/
def execMovxw (f : Short) (s : State) : Out := movxw (Ins.ofBody .movxw (.short f)) s

/-- MOVXW_LIT, R107: Short form with a literal: indexed register write of a literal value. -/
def execMovxwLit (f : Short) (l : Dword) (s : State) : Out := movxw (Ins.ofBody .movxw (.lit f l)) s

/-- MOVXW_LONG, R107: Long-form indexed register write. -/
def execMovxwLong (f : Long) (s : State) : Out := movxw (Ins.ofBody .movxw (.long f)) s

/-- SEL, R108: Writes one of two sources by a predicate. -/
def execSel (f : Long) (s : State) : Out := alu selFn (Ins.ofBody .sel (.long f)) s

/-- MOVS, R109: Reads a special register into g registers. -/
def execMovs (f : Long) (s : State) : Out := movs (Ins.ofBody .movs (.long f)) s

/-- SETS, R109: Writes a special register according to its view and access code. -/
def execSets (f : Long) (s : State) : Out := sets (Ins.ofBody .sets (.long f)) s

/-- FETEST, R110: Writes a register's full/empty bit into a predicate. -/
def execFetest (f : Long) (s : State) : Out := fetest (Ins.ofBody .fetest (.long f)) s

/-- FESET, R110: Marks a register full or empty and cancels its producer tag. -/
def execFeset (f : Long) (s : State) : Out := feset (Ins.ofBody .feset (.long f)) s

/-- PLOP, R111: Combines three predicates by an 8-bit truth table. -/
def execPlop (f : Long) (s : State) : Out := alu plopFn (Ins.ofBody .plop (.long f)) s

/-- SLOTR, R112: Reads a g register of a named slot of the warp into a w register. -/
def execSlotr (f : Long) (s : State) : Out := slotr (Ins.ofBody .slotr (.long f)) s

/-- SLOTW, R112: Writes a w register into a g register of a named slot and marks it full. -/
def execSlotw (f : Long) (s : State) : Out := slotw (Ins.ofBody .slotw (.long f)) s

end Sys2Proof.Machine
end

