-- ==== Sys2Proof/Machine/Memory.lean ====
section
/-! DEFINITION. The memory instructions, opcodes 0x80 to 0x8D and 0x91: accesses with the checks of R199, atomics, FENCE,
bounded accumulation, declared buffers and FLSH (spec/09, spec/10, spec/12). -/

namespace Sys2Proof.Machine

/-- The address of an access (R199). -/
def memAddr (x : Ins) (v : Vals) : Dword :=
  let off : Dword := if (match x.o with
      | .ld | .st | .ldc | .pref => x.f.c.getLsbD 0
      | _ => false) then (BitVec.ofNat 32 v.b).signExtend 64 else x.f.imm.signExtend 64
  BitVec.ofNat 64 v.a + off

/-- The size of an access of LD, ST, LDC and PREF in bytes (R198). -/
def memSize (x : Ins) : Nat :=
  match natBits x.f.c.toNat 1 2 with
  | 1 => 1
  | 2 => 2
  | _ => if x.width = 1 then 8 else if x.width = 2 then 16 else 4

/-- The outcome of the checks of R199. -/
inductive Checked where
  | ok (p : Place)
  | miss
  | fault (code : Nat)

/-- The region record of a B page is valid and of the context (R251). -/
def regionOk (s : State) (p : Place) (asid : Nat) : Bool :=
  let r := regionAt s (homeDie p.pa) p.limit
  r.valid && decide (r.asid = asid)

/-- Checks 1 to 3 of R199 for a thread: bits 63:56, alignment, translation and permission. -/
def checkXlate (s : State) (core : Nat) (addr : Dword) (align acc : Nat) : Checked :=
  if addr.extractLsb' 56 8 ≠ 0 then .fault 7
  else if addr.toNat % align ≠ 0 then .fault 8
  else match xlate s core addr.toNat acc with
    | .fault c => .fault c
    | .miss => match walkFault s addr.toNat with
      | some c => .fault c
      | none => .miss
    | .ok p => .ok p

/-- Check 4 of R199, or of R261 for ACC, LDB and RACK. -/
def classFault (s : State) (k : ReqKind) (p : Place) (asid : Nat) : Bool :=
  let cask := match k with
    | .acc | .ldb | .rack => true
    | _ => false
  let plain := match k with
    | .ld | .st => true
    | _ => false
  if p.cls = 3 then !(cask || plain) || !regionOk s p asid else cask

/-- Check 5 of R199. -/
def bufFault (s : State) (k : ReqKind) (core : Nat) (p : Place) : Bool :=
  p.cls = 4 && decide (p.pa / 2 ^ 27 = dieOfCore core) && (match bufAt s (p.pa / 2 ^ 27) p.pa with
    | some (_, b) => bufForbids k b.state
    | none => false)

/-- The checks of R199 in order, then poison and metadata (R234, R235). -/
def checkAccess (s : State) (k : ReqKind) (core : Nat) (addr : Dword) (align : Nat) : Checked :=
  match checkXlate s core addr align (accOf k) with
  | .ok p =>
    if classFault s k p (s.asidOf core) then .fault 9
    else if bufFault s k core p then .fault 15
    else if k = .acc ∨ k = .rack then .ok p
    else match lineFault s p.cls p.pa with
      | some c => .fault c
      | none => .ok p
  | r => r

/-- A miss: the lane waits for the translation (R194, R383). -/
def missWait (s : State) (core : Nat) (addr : Dword) : State :=
  let first := match (s.lane s.cur).run with
    | some r => decide (r.since = 0)
    | none => false
  missSend (if first then pmcAdd s core 6 1 else s) core addr.toNat

/-- Read entries of a core in use (R194). -/
def readEntries (s : State) (core : Nat) : Nat :=
  (s.reqs.filter fun r => decide (r.2.core = core) && decide (r.2.follow = 0) && takesRead r.2.kind && !r.2.failed).length

/-- Write entries of a core in use (R194). -/
def writeEntries (s : State) (core : Nat) : Nat :=
  (s.reqs.filter fun r => decide (r.2.core = core) && takesWrite r.2.kind && !r.2.failed).length

/-- Two accesses touch a common byte. -/
def overlaps (a b : Req) : Bool :=
  decide (a.cls = b.cls) && decide (a.pa < b.pa + b.size) && decide (b.pa < a.pa + a.size)

/-- The earlier accesses of the thread to the same bytes that are not performed (R212, R217); a MemRead has its value from its issue
on. -/
def earlier (s : State) (r : Req) : List Nat :=
  s.reqs.filterMap fun e =>
    if e.2.thread = r.thread ∧ e.2.kind ≠ .erd ∧ overlaps e.2 r ∧ e.2.stage < 2 then some e.1 else none

/-- The access whose read entry serves a read of the same sector (R194). -/
def leaderOf (s : State) (r : Req) : Nat :=
  match s.reqs.find? fun e => decide (e.2.core = r.core) && decide (e.2.follow = 0) && takesRead e.2.kind && !e.2.failed
      && decide (e.2.cls = r.cls) && decide (e.2.pa / 32 = r.pa / 32)
      && decide ((if e.2.stage = 0 then genOf s r.core r.cls else e.2.gen) = genOf s r.core r.cls) with
  | some e => e.1
  | none => 0

/-- Issues an access that has passed its checks: destination registers are marked empty, and the access goes on its way or
waits for those before it (R95, R200, R212, R220). `none` where an entry or an acknowledgement is wanting (R194, R366). -/
def issueReq (s : State) (r : Req) : Option State :=
  let merges := match r.kind with
    | .ld | .ldc | .pref => true
    | _ => false
  let after := earlier s r
  let lead := if merges then leaderOf s r else 0
  if takesRead r.kind && decide (lead = 0) && decide (4096 ≤ readEntries s r.core) then none
  else if takesWrite r.kind && decide (2048 ≤ writeEntries s r.core) then none
  else if countsAck r && decide (4095 ≤ ackCount s (r.thread / 32)) then none
  else
    let (id, s) := s.fresh
    let r := { r with after := after, follow := lead, stage := if lead = 0 then 0 else 1, tag := id, gen := genOf s r.core r.cls,
                      all := isRel r.order }
    let s : State := { s with reqs := kvSet s.reqs id r }
    let s := if isRead r.kind then s.emptyG r.thread r.reg id r.n else s
    let s := if holdsLater r then s.modThread r.thread fun t => { t with acq := id :: t.acq } else s
    some (if lead ≠ 0 then pollMate s id else if mayGo s id r then launchReq s id else s)

/-- What an access of an instruction is, before its address is known. -/
def reqBase (x : Ins) (s : State) (t : Nat) (k : ReqKind) : Req :=
  let core := coreOfThread t
  { kind := k, thread := t, core := core, epoch := (s.core core).epoch, pc := (s.thread t).pc, order := x.order,
    scope := x.scope, ty := x.f.t, reg := x.f.d.toNat }

/-- The address of an access is known though a queue port lacks an entry: no operand that forms it comes from the port. -/
def addrKnown (x : Ins) (v : Vals) : Bool :=
  !v.lackA && !(v.lackB && (match x.o with
    | .ld | .st | .ldc | .pref => x.f.c.getLsbD 0
    | _ => false))

/-- A thread's access with the checks of R199 made: its fault, its wait for a translation, or what it does at its place. -/
def accessChecks (k : ReqKind) (align : Nat) (t : Nat) (addr : Dword) (s : State) (go : Place → TOut) : TOut :=
  let core := coreOfThread t
  match checkAccess s k core addr align with
  | .fault c =>
    .fault c (accOf k) addr (match xlate s core addr.toNat (accOf k) with
      | .ok p => noteLine s c p
      | _ => s)
  | .miss => .wait (missWait s core addr)
  | .ok p => go p

/-- An access of a thread: operands, the checks of R199, the issue. -/
def access (k : ReqKind) (mk : Ins → Vals → Req → Req) (align : Ins → Nat) (x : Ins) (t : Nat) (s : State) : TOut :=
  match gather s x t with
  | .fault c => .fault c 0 0 s
  | .drop p v => dropAt s p (addrKnown x v) (accessChecks k (align x) t (memAddr x v) s fun _ => .ok s)
  | .vals v =>
    let core := coreOfThread t
    let addr := memAddr x v
    accessChecks k (align x) t addr s fun p =>
      let s := tlbTouch s core addr.toNat
      let r := mk x v { reqBase x s t k with va := addr, cls := p.cls, pa := p.pa, limit := p.limit }
      match issueReq s r with
      | none => .wait s
      | some s =>
        match bufAt s (p.pa / 2 ^ 27) p.pa with
        | some (b, _) =>
          if p.cls = 4 && takesWrite k && decide (p.pa / 2 ^ 27 = dieOfCore core) then .ok (bufCount s (p.pa / 2 ^ 27) b r.size)
          else .ok s
        | none => .ok s

/-- LD (R200). -/
def ldReq (x : Ins) (_ : Vals) (r : Req) : Req := { r with size := memSize x, n := max 1 (memSize x / 4) }
/-- LDC (R201). -/
def ldcReq (x : Ins) (v : Vals) (r : Req) : Req := { ldReq x v r with order := 0, scope := 0 }
/-- ST (R200): the data are the D registers. -/
def stReq (x : Ins) (data : Nat) (r : Req) : Req := { r with size := memSize x, data := leBytes (memSize x) data }
/-- The size of an atomic (R203). -/
def atomSize (x : Ins) : Nat := if wideT x.f.t then 8 else 4
/-- ATOM and RED (R203). -/
def atomReq (x : Ins) (v : Vals) (r : Req) : Req :=
  { r with size := atomSize x, n := atomSize x / 4, op := x.f.c.toNat, data := leBytes (atomSize x) v.b }
/-- CAS (R204): B is compared, C is new. M bit 6 is .facq. -/
def casReq (x : Ins) (v : Vals) (r : Req) : Req :=
  { r with size := atomSize x, n := atomSize x / 4, data := leBytes (atomSize x) v.b, data2 := leBytes (atomSize x) v.c,
           fo := x.mb 6 }

/-- LD, LDC, ATOM, RED, CAS as instructions. -/
def memIns (k : ReqKind) (mk : Ins → Vals → Req → Req) (align : Ins → Nat) (x : Ins) (s : State) : Out :=
  perThread x 1 noEnd (access k mk align x) s
/-- ST (R200). -/
def stIns (x : Ins) (s : State) : Out :=
  perThread x 1 noEnd (fun t s =>
    access .st (fun x _ r => stReq x (gNum s t x.f.d.toNat (max 1 (memSize x / 4))) r) memSize x t s) s

/-- PREF of one thread (R202): it fills a cache or is dropped, and never faults or stalls; one whose operands would raise a fault
has no effect. -/
def prefThread (x : Ins) (t : Nat) (s : State) : TOut :=
  match gather s x t with
  | .fault _ => .ok s
  | .drop p _ => .stay (.queue p true s.clk) s
  | .vals v =>
    let core := coreOfThread t
    let addr := memAddr x v
    match checkAccess s .pref core addr 4 with
    | .ok p =>
      if 1 < p.cls then .ok s
      else .ok ((issueReq s { reqBase x s t .pref with va := addr, cls := p.cls, pa := p.pa / 32 * 32, size := 32, order := 0 }).getD s)
    | _ => .ok s

/-- PREF (R202). -/
def pref (x : Ins) (s : State) : Out := perThread x 1 noEnd (prefThread x) s

/-! ### FENCE (R229) -/

/-- Every hold of a FENCE of a thread has ended. -/
def fenceDone (s : State) (t order scope : Nat) : Bool :=
  let mine := s.reqs.filter fun r => r.2.thread = t && !r.2.failed
  (!isRel order || (mine.all (fun r => performed r.2)
      && (decide (scope < 4) || decide (ackCount s (t / 32) = 0))))
    && (!isAcq order || mine.all fun r => !(isRead r.2.kind))

/-- What a FENCE does when its holds have ended. -/
def fenceEnd (s : State) (t order scope : Nat) : State :=
  if isAcq order && decide (1 ≤ scope) then l1Acquire s (coreOfThread t) else s

/-- FENCE (R229). -/
def fence (x : Ins) (s : State) : Out :=
  perThread x 1 noEnd (fun t s =>
    if fenceDone s t x.order x.scope then .ok (fenceEnd s t x.order x.scope)
    else .held (s.hold t (.fence x.order x.scope))) s

/-! ### Bounded accumulation (R261 to R266) -/

/-- ACC of one thread (R262). -/
def accThread (x : Ins) (t : Nat) (s : State) : TOut :=
  match gather s x t with
  | .fault c => .fault c 0 0 s
  | .drop p v => dropAt s p (addrKnown x v) (accessChecks .acc 4 t (memAddr x v) s fun _ => .ok s)
  | .vals v =>
    let core := coreOfThread t
    let d := dieOfCore core
    let addr := memAddr x v
    accessChecks .acc 4 t addr s fun p =>
      let st := accStore d p.pa
      let home := homeDie p.pa
      if storeStuck s st (p.pa / 64) then .wait s else
      let s := tlbTouch s core addr.toNat
      let (id, s) := s.fresh
      let r := { reqBase x s t .acc with va := addr, cls := p.cls, pa := p.pa, limit := p.limit, stage := 1, data := leBytes 4 v.b }
      let s : State := { s with reqs := kvSet s.reqs id r }
      if st = d then .ok (caskAdd s d id)
      else match unreach s d st, unreach s d home with
        | none, none => .ok (sendReq s d st (.atomicUnitApply id))
        | some c, _ | none, some c => .ok (s.post 0 (.remoteAccessFailure id c))

/-- ACC (R262). -/
def acc (x : Ins) (s : State) : Out := perThread x 1 noEnd (accThread x) s

/-- LDB (R263): B is the tolerance. -/
def ldbReq (_ : Ins) (v : Vals) (r : Req) : Req := { r with size := 4, n := 1, data := leBytes 4 v.b }

/-- RACK of one thread (R265): held until every drain is applied. -/
def rackThread (x : Ins) (t : Nat) (s : State) : TOut :=
  match gather s x t with
  | .fault c => .fault c 0 0 s
  | .drop p v => dropAt s p (addrKnown x v) (accessChecks .rack 4 t (memAddr x v) s fun _ => .ok s)
  | .vals v =>
    let core := coreOfThread t
    let addr := memAddr x v
    accessChecks .rack 4 t addr s fun p =>
      let s := tlbTouch s core addr.toNat
      let (id, s) := s.fresh
      let r := { reqBase x s t .rack with va := addr, cls := p.cls, pa := p.pa, limit := p.limit, all := true }
      let s : State := { s with reqs := kvSet s.reqs id r }
      let s := if mayGo s id r then launchReq s id else s
      .held (s.hold t (.reply id))

/-- RACK (R265). -/
def rack (x : Ins) (s : State) : Out := perThread x 1 noEnd (rackThread x) s

/-! ### Declared buffers (R205, R206) -/

/-- The place that a BUFD declares, none where it is refused (R205). A size or a count that is not known, because a queue port lacks
it, is not looked at. -/
def bufdPlace (s : State) (t : Nat) (b : Nat) (addr : Dword) (size expect : Nat) (kSize kExpect : Bool) : Option Nat :=
  let core := coreOfThread t
  let d := dieOfCore core
  let h := s.cohort core
  if addr.toNat % 32 ≠ 0 ∨ !(inWindow h.window.toNat addr.toNat) then none else
  match windowSpan s h.launch h.window.toNat addr.toNat with
  | none => none
  | some (e, sp) =>
    let off := (addr.toNat - h.window.toNat) % 2 ^ 27
    let base := sp.base + off
    let r := kvGet {} (s.die d).buf b
    if e ≠ d ∨ sp.strip ≠ h.strip ∨ sp.span ≠ h.span then none
    else if kSize && (size = 0 || size % 32 ≠ 0 || sp.bytes < off + size) then none
    else if kExpect && decide (0x8000000 < expect) then none
    else if kSize && (s.die d).buf.any fun o => o.1 ≠ b && o.2.decl && decide (o.2.base < base + size) && decide (base < o.2.base + o.2.size) then none
    else if r.decl && (decide (r.base ≠ base ∨ r.owner ≠ h.ctx.asid) || (kSize && r.size ≠ size) || (kExpect && r.expect ≠ expect)) then none
    else some base

/-- BUFD of one thread (R205): a repeated declaration changes nothing. -/
def bufdThread (x : Ins) (t : Nat) (s : State) : TOut :=
  match gather s x t with
  | .fault c => .fault c 0 0 s
  | .drop p v => dropAt s p true (match bufdPlace s t x.f.d.toNat (BitVec.ofNat 64 v.a) v.b v.c (!v.lackB) (!v.lackC) with
    | none => .fault 16 0 (BitVec.ofNat 64 v.a) s
    | some _ => .ok s)
  | .vals v =>
    let d := dieOfCore (coreOfThread t)
    let b := x.f.d.toNat
    match bufdPlace s t b (BitVec.ofNat 64 v.a) v.b v.c true true with
    | none => .fault 16 0 (BitVec.ofNat 64 v.a) s
    | some base =>
      if (kvGet {} (s.die d).buf b).decl then .ok s else
      let (n, s) := s.fresh
      let rec_ : Buf := { decl := true, base := base, size := v.b, expect := v.c, owner := s.asidOf (coreOfThread t),
                          serial := n, from_ := s.clk + 1 }
      .ok (s.modDie d fun y => { y with buf := kvSet y.buf b rec_ })

/-- BUFD (R205). -/
def bufd (x : Ins) (s : State) : Out := perThread x 1 noEnd (bufdThread x) s

/-- The record that BUFS or BUFF names, where it is declared and the context's own. -/
def ownBuf (s : State) (t b : Nat) : Option Buf :=
  let r := kvGet {} (s.die (dieOfCore (coreOfThread t))).buf b
  if r.decl && decide (r.from_ ≤ s.clk) && decide (r.owner = s.asidOf (coreOfThread t)) then some r else none

/-- BUFS of one thread (R206); under .q the record word alone. -/
def bufsThread (x : Ins) (t : Nat) (s : State) : TOut :=
  let d := dieOfCore (coreOfThread t)
  let b := x.f.a.toNat
  let r := kvGet {} (s.die d).buf b
  if x.mb 0 && !(r.decl && decide (r.from_ ≤ s.clk)) then .ok (putDest s x t 1 0 false (s.rdy 1))
  else match ownBuf s t b with
    | none => .fault 16 0 0 s
    | some r =>
      let s := putDest s x t 1 (bufWord r).toNat false (s.rdy 1)
      .ok (if x.mb 0 then s else bufNote s d b fun y => { y with setFull := true })

/-- BUFS (R206). -/
def bufs (x : Ins) (s : State) : Out := perThread x 1 noEnd (bufsThread x) s

/-- BUFF of one thread (R206). -/
def buffThread (x : Ins) (t : Nat) (s : State) : TOut :=
  let d := dieOfCore (coreOfThread t)
  let b := x.f.a.toNat
  match ownBuf s t b with
  | none => .fault 16 0 0 s
  | some r =>
    if r.state = 3 then .fault 15 0 0 s
    else .ok (bufNote (putDest s x t 1 (bufWord r).toNat false (s.rdy 1)) d b fun y => { y with drop := true })

/-- BUFF (R206). -/
def buff (x : Ins) (s : State) : Out := perThread x 1 noEnd (buffThread x) s

/-! ### FLSH (R207) -/

/-- FLSH of one thread (R207): the core's L1 is cleared, and every named die is asked to advance its generation. -/
def flshThread (x : Ins) (t : Nat) (s : State) : TOut :=
  let core := coreOfThread t
  let d := dieOfCore core
  let s := s.modCore core fun c => { c with l1 := [] }
  if x.scope ≤ 1 then .ok s else
  let ds := (scopeDies s d x.scope).filter fun e => e = d || (unreach s d e).isNone
  let (id, s) := s.fresh
  let r := { reqBase x s t .flsh with stage := 1, n := ds.length }
  let s : State := { s with reqs := kvSet s.reqs id r }
  let s := ds.foldl (fun s e => if e = d then s.post 0 (.generationAdvance e id) else sendReq s d e (.generationAdvance e id)) s
  .held (s.hold t (.reply id))

/-- FLSH (R207). -/
def flsh (x : Ins) (s : State) : Out := perThread x 1 noEnd (flshThread x) s

/-- LD, R200: Load of 1 to 16 bytes at an order and scope into empty-marked registers. -/
def execLd (f : Long) (s : State) : Out := memIns .ld ldReq memSize (Ins.ofBody .ld (.long f)) s

/-- ST, R200: Store of 1 to 16 bytes at an order and scope. -/
def execSt (f : Long) (s : State) : Out := stIns (Ins.ofBody .st (.long f)) s

/-- LDC, R201: Relaxed load of launch-constant data, possibly from a w base. -/
def execLdc (f : Long) (s : State) : Out := memIns .ldc ldcReq memSize (Ins.ofBody .ldc (.long f)) s

/-- PREF, R202: Prefetches a sector into L1 or the die cache, dropped on any obstacle. -/
def execPref (f : Long) (s : State) : Out := pref (Ins.ofBody .pref (.long f)) s

/-- ATOM, R203: Indivisible read-modify-write at the home returning the old value. -/
def execAtom (f : Long) (s : State) : Out := memIns .atom atomReq atomSize (Ins.ofBody .atom (.long f)) s

/-- RED, R203: Indivisible update at the home returning nothing. -/
def execRed (f : Long) (s : State) : Out := memIns .red atomReq atomSize (Ins.ofBody .red (.long f)) s

/-- CAS, R204: Compare-and-swap at the home returning the old value. -/
def execCas (f : Long) (s : State) : Out := memIns .cas casReq atomSize (Ins.ofBody .cas (.long f)) s

/-- FENCE, R229: Holds the thread for release, acquire or sequentially consistent ordering at a scope. -/
def execFence (f : Long) (s : State) : Out := fence (Ins.ofBody .fence (.long f)) s

/-- ACC, R262: Adds an f32 value into a cask entry of a bounded line. -/
def execAcc (f : Long) (s : State) : Out := acc (Ins.ofBody .acc (.long f)) s

/-- LDB, R263: Reads a bounded word at home after racking as far as the tolerance requires. -/
def execLdb (f : Long) (s : State) : Out := memIns .ldb ldbReq (fun _ => 4) (Ins.ofBody .ldb (.long f)) s

/-- RACK, R265: Drains every cask entry of the region and holds the thread until home answers. -/
def execRack (f : Long) (s : State) : Out := rack (Ins.ofBody .rack (.long f)) s

/-- BUFD, R205: Declares a buffer record for a range of addressable cellar. -/
def execBufd (f : Long) (s : State) : Out := bufd (Ins.ofBody .bufd (.long f)) s

/-- BUFS, R206: Returns the buffer record word and applies a BUFS event. -/
def execBufs (f : Long) (s : State) : Out := bufs (Ins.ofBody .bufs (.long f)) s

/-- BUFS_Q, R206: Returns the buffer record word with no event. -/
def execBufsQ (f : Long) (s : State) : Out := bufs (Ins.ofBody .bufs (.long f)) s

/-- BUFF, R206: Frees a buffer record unless it is DRAINING. -/
def execBuff (f : Long) (s : State) : Out := buff (Ins.ofBody .buff (.long f)) s

/-- FLSH, R207: Drops L1 copies and advances remote-data cache generations at a scope. -/
def execFlsh (f : Long) (s : State) : Out := flsh (Ins.ofBody .flsh (.long f)) s

end Sys2Proof.Machine
end

