-- ==== Sys2Proof/Machine/Fetch.lean ====
section
/-! DEFINITION. Fetching and decoding an instruction (R23, R47 to R49): the instruction cache of a core, the checks of
Table 2-13 in order, and the faults they raise. -/

namespace Sys2Proof.Machine

/-- A line of code of a core: as the cohort fetched it before, or as memory holds it (R49). `none` where the fetch fails. The reads of its
sectors take their course (R9, R239); delivery adds nothing to the timing (R84). -/
def fetchLine (s : State) (core : Nat) (va : Nat) : Option (List Byte) × State :=
  let k := va / 64
  match (s.core core).icache.find? fun e => e.1 = k with
  | some (_, l) => (some l, s)
  | none =>
    let h := s.cohort core
    let d := dieOfCore core
    if 2 ^ 56 ≤ va then (none, s) else
    match xlateNow s d h.ctx.asid h.ctx.root h.launch h.window.toNat (64 * k) 4 with
    | .ok p =>
      if (unreach s d (homeDie p.pa)).isSome ∧ homeDie p.pa ≠ d then (none, s)
      else
        let bad := badLine s (p.pa / 64)
        let l := memRead s.mem (p.pa / 64 * 64) 64
        let s := postReads s d p.cls (p.pa / 64 * 64) 64
        if bad then (none, s) else (some l, s.modCore core fun c => { c with icache := kvSet c.icache k l })
    | _ => (none, s)

/-- A word of code. -/
def fetchWord (s : State) (core : Nat) (va : Dword) : Option Word × State :=
  match fetchLine s core va.toNat with
  | (some l, s) => ((bytesWords (sliceL l (va.toNat % 64) 4)).head?, s)
  | (none, s) => (none, s)

/-- `n` words of code from an address on; the address that fails where one does. -/
def fetchWords (s : State) (core : Nat) (va : Dword) : Nat → Except Dword (List Word) × State
  | 0 => (.ok [], s)
  | n + 1 =>
    match fetchWord s core va with
    | (none, s) => (.error va, s)
    | (some w, s) =>
      match fetchWords s core (va + 4) n with
      | (.error a, s) => (.error a, s)
      | (.ok ws, s) => (.ok (w :: ws), s)

/-- A fault of the decoding checks: cause and $xaddr. -/
structure DecodeFault where
  cause : Nat
  addr : Dword
  deriving DecidableEq, Repr

/-- The instruction names an accumulator tile that the cohort does not have (R300). -/
def badTile (s : State) (core : Nat) (x : Ins) : Bool :=
  let sh := x.shape
  (sh.d = .tile && decide ((s.cohort core).tiles ≤ x.f.d.toNat)) || (sh.a = .tile && decide ((s.cohort core).tiles ≤ x.f.a.toNat))

/-- The instruction at an address for a core, by the checks of Table 2-13 in order (R47). `sv` is the supervisor
privilege. -/
def fetchInstr (s0 : State) (core : Nat) (pc : Dword) (sv : Bool) : Except DecodeFault Instr × State :=
  match fetchWord s0 core pc with
  | (none, s) => (.error { cause := 3, addr := pc }, s)
  | (some w0, s) =>
    match decodeHead w0 with
    | .error _ => (.error { cause := 1, addr := 0 }, s)
    | .ok (o, len) =>
      if o.sv && !sv then (.error { cause := 2, addr := 0 }, s)
      else match fetchWords s core (pc + 4) (lenBytes len / 4 - 1) with
        | (.error a, s) => (.error { cause := 3, addr := a }, s)
        | (.ok ws, s) =>
          match decodeBody o len (w0 :: ws) with
          | .error _ => (.error { cause := 1, addr := 0 }, s)
          | .ok i =>
            let x := i.ins?
            if (x.any fun x => decide ((s0.cohort core).r < insTopG x) || badTile s0 core x) then (.error { cause := 1, addr := 0 }, s) else (.ok i, s)

/-- A decoding fault of a run (R48): every constituent warp with a thread in it takes it, with no slot performed.
DESIGN CHOICE (log 85): its slot is the lowest of the warp's threads in the run. -/
def decodeFault (s : State) (r : Run) (f : DecodeFault) : State :=
  let ts := r.threads.filter s.alive
  let ws := ts.foldl (fun l t => insertNat (t / 32) l) []
  let till := max s.clk (r.begun + 1)
  ws.foldl (fun s w =>
    let slot := ((ts.filter fun t => t / 32 = w).map (· % 32)).foldl min 31
    takeTrap s w { cause := f.cause, slot := slot, acc := if f.cause = 3 then 4 else 0, arg := 0, xpc := r.pc, xaddr := f.addr, done := 0 } till)
    (closeRun s r s.clk)

end Sys2Proof.Machine
end

