-- ==== Sys2Proof/Machine/Control.lean ====
section
/-! DEFINITION. Control flow, masks and the trap instructions, opcodes 0x00 to 0x12 (spec/08 R162 to R174, spec/18 R390 to
R394, spec/19 R415). -/

namespace Sys2Proof.Machine

/-- NOP (R46). -/
def nop (x : Ins) (s : State) : Out := perThread x 1 noEnd (fun _ s => .ok s) s

/-! ### Branches -/

/-- A target breaks R24. -/
def badTarget (a : Dword) : Bool := a.extractLsb' 0 2 ≠ 0 || a.extractLsb' 56 8 ≠ 0

/-- The target of an offset in 4-byte units (R24). -/
def relTarget (pc : Dword) (off : Word) : Dword := pc + (off.signExtend 64 <<< 2)

/-- BRA of one thread (R164). -/
def braThread (x : Ins) (t : Nat) (s : State) : TOut :=
  let a := relTarget (s.thread t).pc x.f.imm
  if badTarget a then .fault 10 0 a s else .jump (s.jump t a)

/-- BRA (R164). -/
def bra (x : Ins) (s : State) : Out := perThread x 1 noEnd (braThread x) s

/-! ### The return stack (R165, R166) -/

/-- The stack area of a thread. -/
def stackArea (s : State) (t : Nat) : Dword := s.wpair (t / 32) 60 + BitVec.ofNat 64 (1024 * (t % 32))

/-- The checks on a stack area: alignment, translation and permission of all of it, class and buffer state (R166, R199). -/
def stackCheck (s : State) (t : Nat) : Checked × Nat :=
  let core := coreOfThread t
  let a := stackArea s t
  if a.extractLsb' 0 10 ≠ 0 then (.fault 11, 0)
  else match checkXlate s core a 8 3, checkXlate s core (a + 1016) 8 3 with
    | .ok p, .ok q =>
      if classFault s .st p (s.asidOf core) then (.fault 9, 3)
      else if bufFault s .ld core p ∨ bufFault s .st core p ∨ bufFault s .st core q then (.fault 15, 3)
      else match lineFault s p.cls p.pa with
        | some c => (.fault c, 3)
        | none => (.ok p, 0)
    | .ok _, r => (r, 3)
    | r, _ => (r, 3)

/-- A MemRead of a thread at .rlx, scope .warp, of `n` bytes at a place: the value, read at home, with the state after it. Where the home
is unreachable the read fails (R367, R368): it gives all ones. Its message and transaction take their course (R9, R239). The core's L1 drops an older copy of the sector (R212). -/
def ownRead (s : State) (t : Nat) (p : Place) (va : Dword) (n : Nat) : State × Nat :=
  let core := coreOfThread t
  let home := placeDie p.cls p.pa
  match (if home = dieOfCore core then none else unreach s (dieOfCore core) home) with
  | some c => (remFail s core (s.core core).epoch (t % 32) rsLDF c home va, 2 ^ (8 * n) - 1)
  | none => (readFor (if p.cls ≤ 1 then l1Drop s core p.pa else s) t (dieOfCore core) p.cls p.pa, bytesNat (bytesAt s p.cls p.pa n))

/-- The unloaded clks of a read at a place (Table 9-1). -/
def placeClk (s : State) (core : Nat) (p : Place) : Nat :=
  let d := dieOfCore core
  if p.cls = 4 ∧ p.pa / 2 ^ 27 = d then 48 else readClk s d (placeDie p.cls p.pa)

/-- An 8-byte store of a thread, issued as ST issues one (R166). -/
def stackStore (s : State) (t : Nat) (p : Place) (a : Dword) (off v : Nat) : Option State :=
  let core := coreOfThread t
  issueReq s { kind := .st, thread := t, core := core, epoch := (s.core core).epoch, pc := (s.thread t).pc,
               va := a + BitVec.ofNat 64 off, cls := p.cls, pa := p.pa + off, limit := p.limit, size := 8, data := leBytes 8 v }

/-- The thread's own accesses that touch its stack area are not all performed. -/
def stackBusy (s : State) (t : Nat) (p : Place) : Bool :=
  !(earlier s { thread := t, cls := p.cls, pa := p.pa, size := 1024 }).isEmpty

/-- The thread waits until its accesses are performed and its reads would have landed (R76, R166, R167). -/
def settle (s : State) (t from_ clks : Nat) : State :=
  let ids := s.reqs.filterMap fun r => if r.2.thread = t ∧ from_ ≤ r.1 then some r.1 else none
  s.hold t (.settle ids (s.clk + clks))

/-- A check of a stack area has failed (R166). -/
def stackFault (s : State) (t c acc : Nat) : TOut :=
  let a := stackArea s t
  .fault c acc a (match xlate s (coreOfThread t) a.toNat 3 with
    | .ok p => noteLine s c p
    | _ => s)

/-- An access to an ENTRY of a stack area, at an offset, meets the line that holds it (R234, R235). -/
def stackEntry (s : State) (p : Place) (a : Dword) (off : Nat) (go : Place → TOut) : TOut :=
  let q := { p with pa := p.pa + off }
  match lineFault s q.cls q.pa with
  | some c => .fault c 3 (a + BitVec.ofNat 64 off) (noteLine s c q)
  | none => go q

/-- The push of a return address, then the transfer (R166). -/
def pushCall (x : Ins) (t : Nat) (target : Dword) (s : State) : TOut :=
  let core := coreOfThread t
  let a := stackArea s t
  match stackCheck s t with
  | (.fault c, acc) => stackFault s t c acc
  | (.miss, _) => .wait (missWait s core a)
  | (.ok p, _) =>
    if stackBusy s t p then .stay .stack s
    else
      let (s1, d) := ownRead s t p a 8
      if 127 ≤ d then .fault 11 0 a s1
      else stackEntry s1 p a (8 + 8 * d) fun _ =>
        let ret := (s.thread t).pc + BitVec.ofNat 64 x.size
        match (stackStore s1 t p a (8 + 8 * d) ret.toNat).bind fun s => stackStore s t p a 0 (d + 1) with
        | none => .wait s
        | some s' => .jump (settle (s'.jump t target) t s.nextId (placeClk s core p))

/-- CALL of one thread (R164, R166). -/
def callThread (x : Ins) (t : Nat) (s : State) : TOut :=
  let a := relTarget (s.thread t).pc x.f.imm
  if badTarget a then .fault 10 0 a s else pushCall x t a s

/-- CALL (R164). -/
def call (x : Ins) (s : State) : Out := perThread x 1 noEnd (callThread x) s

/-- RET of one thread (R166). -/
def retThread (_ : Ins) (t : Nat) (s : State) : TOut :=
  let core := coreOfThread t
  let a := stackArea s t
  match stackCheck s t with
  | (.fault c, acc) => stackFault s t c acc
  | (.miss, _) => .wait (missWait s core a)
  | (.ok p, _) =>
    if stackBusy s t p then .stay .stack s
    else
      let (s1, d) := ownRead s t p a 8
      if d = 0 ∨ 127 < d then .fault 11 0 a s1
      else stackEntry s1 p a (8 * d) fun q =>
        let (s2, e) := ownRead s1 t q (a + BitVec.ofNat 64 (8 * d)) 8
        let target := BitVec.ofNat 64 e
        if badTarget target then .fault 10 0 target s2
        else match stackStore s2 t p a 0 (d - 1) with
          | none => .wait s
          | some s' => .jump (settle (s'.jump t target) t s.nextId (2 * placeClk s core p))

/-- RET (R166). -/
def ret (x : Ins) (s : State) : Out := perThread x 1 noEnd (retThread x) s

/-! ### Indexed branches (R167) -/

/-- A word of a target list, read as an LD of the thread reads it: with the checks of R199, and after the thread's own accesses to it
that are not performed (R212). -/
def listWord (s : State) (t : Nat) (a : Dword) (go : Place → State → Nat → TOut) : TOut :=
  accessChecks .ld 4 t a s fun p =>
    if (earlier s { thread := t, cls := p.cls, pa := p.pa, size := 4 }).isEmpty then
      let (s', n) := ownRead s t p a 4
      go p s' n
    else .stay (.own p.cls p.pa 4) s

/-- The target that an index selects, or what ends the search; the count alone is looked at for an index that is not known. -/
def listTarget (x : Ins) (t : Nat) (i : Option Nat) (s : State) (go : Dword → Place → State → TOut) : TOut :=
  let pc := (s.thread t).pc
  let list := relTarget pc x.f.imm
  listWord s t list fun _ s n =>
    if n = 0 ∨ 4096 < n ∨ i.any fun i => decide (n ≤ i) then .fault 10 0 list s
    else match i with
      | none => .ok s
      | some i => listWord s t (list + BitVec.ofNat 64 (4 + 4 * i)) fun p s e =>
        let target := relTarget pc (BitVec.ofNat 32 e)
        if badTarget target then .fault 10 0 target s else go target p s

/-- BRX and CALLX of one thread (R167). -/
def brxThread (isCall : Bool) (x : Ins) (t : Nat) (s : State) : TOut :=
  match gather s x t with
  | .fault c => .fault c 0 0 s
  | .drop p _ => dropAt s p true (listTarget x t none s fun _ _ s => .ok s)
  | .vals v =>
    match listTarget x t (some v.a) s (fun target p s' =>
      if isCall then pushCall x t target s'
      else .jump (settle (s'.jump t target) t s.nextId (2 * placeClk s (coreOfThread t) p))) with
    -- the pops of A stand only where the thread performed (R99)
    | .jump s' => .jump (if v.popped then popPort s' (t / 32) (x.f.a.toNat - 240) else s')
    | r => r

/-- BRX and CALLX (R167). -/
def brx (isCall : Bool) (x : Ins) (s : State) : Out := perThread x 1 noEnd (brxThread isCall x) s

/-! ### EXIT (R168) -/

/-- A warp has wholly exited. -/
def warpExited (s : State) (w : Nat) : Bool := (State.threadsOf w).all fun t => (s.thread t).exited

/-- A thread exits: it leaves every mask, and landings of its outstanding producers are discarded. `later` threads perform after it
in the run, at whose end its warp may leave (R86). -/
def exitThread (s : State) (t later : Nat) : State :=
  let w := t / 32
  let s := s.modThread t fun h => { h with
    exited := true, hold := .none, acq := [], g := h.g.map fun e => (e.1, { e.2 with tag := 0 }) }
  let s := s.modWarp w fun h => { h with m := h.m.map fun e => (e.1, e.2 &&& ~~~ (slotBit (t % 32))) }
  if !warpExited s w then s
  else
    let s := s.post (1 + later) (.warpLeavesActiveSet w)
    if (s.warpsOf (coreOfWarp w)).all fun v => warpExited s v then s.post 1 (.cohortEnd (coreOfWarp w)) else s

/-- The threads of the current lane's run that perform after `t`. -/
def laterInRun (x : Ins) (s : State) (t : Nat) : Nat := match (s.lane s.cur).run with
  | some r => (performers x s ((r.threads.dropWhile (· ≠ t)).drop 1)).length
  | none => 0

/-- EXIT (R168); in a handler it is an illegal instruction (R388). -/
def exit_ (x : Ins) (s : State) : Out :=
  perThread x 1 (fun s w _ _ => releaseChecks s w (List.range 12))
    (fun t s => if s.inHandler t then .fault 1 0 0 s else .jump (exitThread s t (laterInRun x s t))) s

/-! ### Masks (R169 to R173) -/

/-- JOIN (R171). -/
def join (x : Ins) (s : State) : Out :=
  perThread x 1 (fun s w _ _ => releaseCheck s w x.f.d.toNat)
    (fun t s => .ok (s.setMask (t / 32) x.f.d.toNat (s.mask (t / 32) x.f.d.toNat ||| slotBit (t % 32)))) s

/-- The masks that LEAVE names, ascending. -/
def leaveList (x : Ins) : List Nat := (List.range 12).filter fun k => x.ib k

/-- LEAVE (R171). -/
def leave (x : Ins) (s : State) : Out :=
  perThread x 1 (fun s w _ _ => releaseChecks s w (leaveList x))
    (fun t s => .ok ((leaveList x).foldl
      (fun s m => s.setMask (t / 32) m (s.mask (t / 32) m &&& ~~~ (slotBit (t % 32)))) s)) s

/-- WAITM (R173). -/
def waitm (x : Ins) (s : State) : Out :=
  perThread x 1 (fun s w _ _ => releaseCheck s w x.f.a.toNat)
    (fun t s => if (s.mask (t / 32) x.f.a.toNat).getLsbD (t % 32) then .held (s.hold t (.mask x.f.a.toNat)) else .ok s) s

/-- The thread is the first of its sub-run to perform. -/
def firstOfSub (s : State) (t : Nat) : Bool :=
  match (s.lane s.cur).run with
  | some r => r.warp ≠ t / 32 || r.done = 0
  | none => true

/-- The thread is the first of its run to perform (R391, R394). -/
def firstOfRun (s : State) : Bool :=
  match (s.lane s.cur).run with
  | some r => r.count = 0
  | none => true

/-- MSET (R172): M bit 0 is .or. -/
def mset (x : Ins) (s : State) : Out :=
  perThread x 1 (fun s w _ _ => releaseCheck s w x.f.d.toNat)
    (fun t s =>
      let m := x.f.d.toNat
      let old := if firstOfSub s t && !x.mb 0 then 0 else s.mask (t / 32) m
      .ok (s.setMask (t / 32) m (if s.pred t x.f.a.toNat then old ||| slotBit (t % 32) else old))) s

/-- MGET (R172). -/
def mget (x : Ins) (s : State) : Out :=
  perSubrun x id noEnd (fun ps s =>
    let w := ps.headD 0 / 32
    .ok (s.setW w x.f.d.toNat (s.mask w x.f.a.toNat) (s.rdy 1))) s

/-! ### Yielding and sleeping (R415) -/

/-- YIELD. -/
def yield_ (x : Ins) (s : State) : Out := perThread x 1 noEnd (fun _ s => .ok s) s

/-- SLEEP of one thread. -/
def sleepThread (x : Ins) (t : Nat) (s : State) : TOut :=
  match gather s x t with
  | .fault c => .fault c 0 0 s
  | .drop p _ => .stay (.queue p true s.clk) s
  | .vals v =>
    let n := v.b % 2 ^ 24
    if n = 0 then .ok s else .held ((s.hold t (.sleep (s.clk + n))).post n (.sleepExpiry t))

/-- SLEEP. -/
def sleep (x : Ins) (s : State) : Out := perThread x 1 noEnd (sleepThread x) s

/-- SLEEP_EXPIRY, R415. -/
def evSleepExpiry (s : State) (t : Nat) : State :=
  s.releaseWhere t 12 fun h => match h with
    | .sleep till => decide (till ≤ s.clk)
    | _ => false

/-! ### Traps (R391, R392) -/

/-- TRAP, BKPT and SYSC (R391): each performing thread passes, and the warp traps at the end of its sub-run. -/
def trapWith (cause : Nat) (x : Ins) (s : State) : Out :=
  perThread x 1
    (fun s w done till =>
      let slot := (maskSlots done).headD 0
      takeTrap s w { cause := cause, slot := slot, acc := 0, arg := x.f.imm.extractLsb' 0 16,
                     xpc := (s.thread (threadOf w slot)).pc - BitVec.ofNat 64 x.size, xaddr := 0, done := done } till)
    (fun _ s => .ok s) s

/-- IDEM (R394): once per run, .open sets the region entry of the cohort and .close clears it. -/
def idem (x : Ins) (s : State) : Out :=
  perThread x 1 noEnd
    (fun t s =>
      if !firstOfRun s then .ok s else
      let e := if x.mb 0 then none else some (relTarget (s.thread t).pc x.f.imm)
      .ok (s.modCore (coreOfThread t) fun c => { c with cohort := c.cohort.map fun h => { h with regionEntry := e } })) s

/-- The slots of a warp that have not exited and replay when it leaves its handler `h` (R392), as `done` says before or past the
instruction. -/
def replays (s : State) (w : Nat) (h : Handler) (done : Bool) : Bool :=
  (List.range 32).any fun k => h.replay.getLsbD k && !(s.thread (threadOf w k)).exited && ((s.warp w).xdone.getLsbD k == done)

/-- A replaying slot, before or past the instruction as `done` says, would go to the address `a`, which breaks R24. -/
def badReturn (s : State) (w : Nat) (done : Bool) (a : Dword) : Bool :=
  ((s.warp w).handler.any fun h => replays s w h done) && badTarget a

/-- RTT of a run (R392): the warp leaves its handler; the length of the instruction at $xpc is fetched, and a fault there is a
double fault, as is a target that breaks R24. The return from a PE handler lets the cohort go on (R396). -/
def rttThread (t : Nat) (s : State) : TOut :=
  if !s.inHandler t then .fault 2 0 0 s else
  let w := t / 32
  let core := coreOfThread t
  let p := (s.warp w).xpc
  if badReturn s w false p then .fault 10 0 p s else
  match fetchInstr s core p true with
  | (.error f, s) =>
    .last (takeTrap s w { cause := f.cause, slot := t % 32, acc := if f.cause = 3 then 4 else 0, arg := 0,
                          xpc := (s.thread t).pc, xaddr := f.addr, done := 0 } (s.clk + 1))
  | (.ok i, s) =>
    let n := match i.ins? with
      | some x => x.size
      | none => 4
    if badReturn s w true (p + BitVec.ofNat 64 n) then .fault 10 0 (p + BitVec.ofNat 64 n) s else
    let pe := (s.warp w).handler.any fun h => h.cause = 35
    let s := returnFromTrap s w n
    .last (if pe then s.modCore core fun c => { c with peStop := false } else s)

/-- RTT (R392). -/
def rtt (x : Ins) (s : State) : Out := perThread x 1 noEnd rttThread s

/-- NOP_LONG, R46: Long-form guarded no-operation that only advances the program counter. -/
def execNopLong (f : Long) (s : State) : Out := nop (Ins.ofBody .nop (.long f)) s

/-- NOP, R46: Short-form no-operation that only advances each executing thread's program counter. -/
def execNop  (s : State) : Out := nop (Ins.ofBody .nop (.short { u := false, b := 0, a := 0, d := 0 })) s

/-- BRA, R164: Short branch form: sets the thread's program counter to word 0 plus 4 times an 18-bit offset. -/
def execBra (g : BitVec 4) (off : BitVec 18) (s : State) : Out := bra (Ins.ofBody .bra (.branch g off)) s

/-- BRA_LONG, R164: Long-form branch with a 32-bit offset in IMM. -/
def execBraLong (f : Long) (s : State) : Out := bra (Ins.ofBody .bra (.long f)) s

/-- BRX, R167: Indexed branch through a target list read from memory. -/
def execBrx (f : Long) (s : State) : Out := brx false (Ins.ofBody .brx (.long f)) s

/-- CALL, R164: Short branch form call: pushes the return address on the slot's return stack and branches. -/
def execCall (g : BitVec 4) (off : BitVec 18) (s : State) : Out := call (Ins.ofBody .call (.branch g off)) s

/-- CALL_LONG, R164: Long-form call with a 32-bit offset. -/
def execCallLong (f : Long) (s : State) : Out := call (Ins.ofBody .call (.long f)) s

/-- CALLX, R167: Indexed call through a target list, pushing the return address. -/
def execCallx (f : Long) (s : State) : Out := brx true (Ins.ofBody .callx (.long f)) s

/-- RET, R166: Pops the slot's return stack in memory and transfers control to the popped address. -/
def execRet (f : Long) (s : State) : Out := ret (Ins.ofBody .ret (.long f)) s

/-- EXIT, R168: Ends the thread, removes it from every mask and discards its outstanding landings. -/
def execExit (f : Long) (s : State) : Out := exit_ (Ins.ofBody .exit (.long f)) s

/-- TRAP, R391: Performing threads advance, then the warp traps with cause SW and ARG from IMM. -/
def execTrap (f : Long) (s : State) : Out := trapWith 32 (Ins.ofBody .trap (.long f)) s

/-- BKPT, R391: Performing threads advance, then the warp traps with cause BK. -/
def execBkpt (f : Long) (s : State) : Out := trapWith 33 (Ins.ofBody .bkpt (.long f)) s

/-- IDEM_OPEN, R394: Sets the cohort's region entry to a label, marking an idempotent region. -/
def execIdemOpen (f : Long) (s : State) : Out := idem (Ins.ofBody .idem (.long f)) s

/-- IDEM_CLOSE, R394: Clears the cohort's region entry. -/
def execIdemClose (f : Long) (s : State) : Out := idem (Ins.ofBody .idem (.long f)) s

/-- YIELD, R415: Advances the thread and resets its ready time so that earlier-ready threads are chosen first. -/
def execYield (f : Long) (s : State) : Out := yield_ (Ins.ofBody .yield (.long f)) s

/-- SLEEP, R415: Holds the thread for n clks. -/
def execSleep (f : Long) (s : State) : Out := sleep (Ins.ofBody .sleep (.long f)) s

/-- JOIN, R171: Adds the executing thread to a mask register and applies the release check. -/
def execJoin (f : Long) (s : State) : Out := join (Ins.ofBody .join (.long f)) s

/-- LEAVE, R171: Removes the thread from every listed mask and applies the release checks in ascending index. -/
def execLeave (f : Long) (s : State) : Out := leave (Ins.ofBody .leave (.long f)) s

/-- WAITM, R173: Holds a member thread at the mask until every member is held, then releases all. -/
def execWaitm (f : Long) (s : State) : Out := waitm (Ins.ofBody .waitm (.long f)) s

/-- MSET, R172: Writes the sub-run's threads whose predicate is true into a mask, optionally OR-ing. -/
def execMset (f : Long) (s : State) : Out := mset (Ins.ofBody .mset (.long f)) s

/-- MGET, R172: Copies a mask register's 32 bits into a w register. -/
def execMget (f : Long) (s : State) : Out := mget (Ins.ofBody .mget (.long f)) s

/-- SYSC, R391: Performing threads advance, then the warp traps with cause SC to enter supervisor code. -/
def execSysc (f : Long) (s : State) : Out := trapWith 34 (Ins.ofBody .sysc (.long f)) s

/-- RTT, R392: Leaves the trap handler, restoring predicates, masks and per-slot program counters for replay. -/
def execRtt (f : Long) (s : State) : Out := rtt (Ins.ofBody .rtt (.long f)) s

end Sys2Proof.Machine
end

