-- ==== Sys2Proof/Machine/Sync.lean ====
section
/-! DEFINITION. Barrier objects, convergence registers and engine counters, opcodes 0xA0 to 0xA8 (spec/13). -/

namespace Sys2Proof.Machine

/-- Sends a reply of a barrier object to its thread (R275). -/
def sendBarRep (s : State) (core : Nat) (r : BarrierRep) : State :=
  let src := dieOfCore core
  let dst := dieOfCore (coreOfThread r.thread)
  if src = dst then s.post dieClk (.barrierReply r) else sendRep s src dst (.barrierReply r)

/-- The reply to a message. -/
def repOf (m : BarrierMsg) (value : Word) (fault : Nat) : BarrierRep :=
  { op := m.op, thread := m.thread, reg := m.reg, tag := m.tag, value := value, fault := fault, epoch := m.epoch }

/-- Threads of a core held at BWAIT on an object. -/
def waitersAt (s : State) (core idx : Nat) : List (Nat × Nat × Bool) :=
  s.threads.filterMap fun t => match t.2.hold with
    | .phase c i g ph => if c = core ∧ i = idx then some (t.1, g, ph) else none
    | _ => none

/-- A phase may have completed or the object been freed: waiting threads go on, or test their handle again (R271, R274). -/
def wakePhase (s : State) (core idx : Nat) : State :=
  let b := barAt s core idx
  let s := (waitersAt s core idx).foldl (fun s w =>
    if !b.alloc ∨ b.gen ≠ w.2.1 then s.modThread w.1 fun t => { t with hold := .none, since := s.clk + 1 }
    else if b.phase ≠ w.2.2 then l1Acquire (s.release w.1 12) (coreOfThread w.1)
    else s) s
  let due := b.waiters.filter fun m => !b.alloc || b.gen ≠ handleGen m.handle || b.phase ≠ m.arg.getLsbD 0
  let s := modBar s core idx fun b => { b with waiters := b.waiters.filter fun m => !due.contains m }
  due.foldl (fun s m => sendBarRep s core (repOf m 0 (if !b.alloc ∨ b.gen ≠ handleGen m.handle then 19 else 0))) s

/-- The test of an object at the end of a clk in which it was updated (R273). -/
def barTest (b : Barrier) : Barrier :=
  let b := { b with dirty := none }
  if b.alloc && !b.ovf && decide (b.pendArr = 0) && decide (b.pendBytes = 0) && (b.posted || b.nb) then
    { b with phase := !b.phase, pendArr := b.expected, posted := false }
  else b

/-- Objects with updates to test. -/
def dirtyBars (s : State) : List (Nat × Nat) :=
  s.cores.flatMap fun c => c.2.bar.filterMap fun b => if b.2.dirty.isSome then some (c.1, b.1) else none

/-- The end of a clk: every updated object is tested once (R273). -/
def settleBars (s : State) : State :=
  (dirtyBars s).foldl (fun s o => wakePhase (modBar s o.1 o.2 barTest) o.1 o.2) s

/-! ### Messages between cores (R275) -/

/-- Sends an update or a question to an object on another core, or fails where the core is unreachable (R368). -/
def sendBar (s : State) (core : Nat) (m : BarrierMsg) : State :=
  let src := dieOfCore core
  let dst := dieOfCore (handleCore m.handle)
  if src = dst then s.post dieClk (.barrierMessage m)
  else match unreach s src dst with
    | some c => s.post 0 (.remoteAccessFailure m.tag c)
    | none => sendReq s src dst (.barrierMessage m)

/-- BFREE on an object (R271). -/
def barFree (s : State) (h : Word) (asid n : Nat) : State × Nat :=
  let c := handleCore h
  let i := handleIdx h
  if !live s h asid then (s, 19)
  else if (barAt s c i).refs < n then (s, 20)
  else
    let s := modBar s c i fun b => { b with refs := b.refs - n }
    if (barAt s c i).refs = 0 then (wakePhase (freeBarrier s c i) c i, 0) else (s, 0)

/-- BARRIER_MESSAGE, R275: the checks are made at the object and the update applied in this clk's batch. -/
def evBarrierMessage (s : State) (m : BarrierMsg) : State :=
  let c := handleCore m.handle
  let i := handleIdx m.handle
  let b := barAt s c i
  let ok := live s m.handle m.asid.toNat
  let parity : Word := if b.phase then 1 else 0
  match m.op with
  | 0 | 1 | 2 =>
    let n := if m.op = 0 then m.arg.toNat else m.op - 1
    match (if ok then barUpdate b n (if m.op = 0 then none else some m.arg.toNat) else .inl 19) with
    | .inl f => sendBarRep s c (repOf m 0xFFFFFFFF f)
    | .inr b' => sendBarRep (modBar s c i fun _ => { b' with dirty := some s.clk }) c (repOf m parity 0)
  | 3 => sendBarRep s c (repOf m (if b.phase ≠ m.arg.getLsbD 0 then 1 else 0) (if !ok then 19 else if b.ovf then 21 else 0))
  | 4 =>
    if !ok then sendBarRep s c (repOf m 0 19)
    else if b.ovf then sendBarRep s c (repOf m 0 21)
    else if b.phase ≠ m.arg.getLsbD 0 then sendBarRep s c (repOf m 0 0)
    else modBar s c i fun b => { b with waiters := b.waiters ++ [m] }
  | _ =>
    let (s, f) := barFree s m.handle m.asid.toNat m.arg.toNat
    sendBarRep s c (repOf m 0 f)

/-- BARRIER_REPLY, R275: BARV and BEXP land, a refused one sets BAR with CAUSE 5; the others go on. BTEST and BWAIT raise their fault when
the instruction executes again, BFREE's is raised in the thread that is held at it. -/
def evBarrierReply (s : State) (r : BarrierRep) : State :=
  let core := coreOfThread r.thread
  if !(s.reqs.any fun q => q.1 = r.tag) then s
  else if (s.core core).epoch ≠ r.epoch then reqDone s r.tag
  else if r.op ≤ 2 then
    let q := s.req r.tag
    let s := if r.fault = 0 then s else remFail s core r.epoch (r.thread % 32) rsBAR 5 (placeDie q.cls q.pa) 0
    let s := s.landG r.thread r.reg r.tag r.value.toNat 1
    reqDone s r.tag
  else if r.fault ≠ 0 then
    let s := reqDone s r.tag
    if (s.thread r.thread).hold = .reply r.tag then
      let s := s.modThread r.thread fun t => { t with due := if r.op = 5 then 0 else r.fault, hold := .none, since := s.clk + 1 }
      if r.op ≠ 5 then s else
      s.post 0 (.trapEntry (r.thread / 32) { cause := r.fault, slot := r.thread % 32, acc := 0, arg := 0, xpc := (s.thread r.thread).pc, xaddr := 0,
                                             done := ~~~ (slotBit (r.thread % 32)) })
    else s.modWarp (r.thread / 32) fun w => { w with handler := w.handler.map fun h => { h with holds := kvDel h.holds (r.thread % 32) } }
  else
    let s := if r.op = 3 then s.setHeldP r.thread r.tag r.reg (r.value = 1) else s
    let s := if r.op = 4 ∨ (r.op = 3 ∧ r.value = 1) then l1Acquire s core else s
    reqDone s r.tag

/-- A message on its way from a thread, with the record by which its reply finds the thread. -/
def issueBar (s : State) (x : Ins) (t op : Nat) (h arg : Word) : Nat × State :=
  let core := coreOfThread t
  let (id, s) := s.fresh
  let r : Req := { reqBase x s t .bar with stage := 1, op := op, n := if op ≤ 2 then 1 else 0, tag := id, cls := 4,
                                           pa := 2 ^ 27 * dieOfCore (handleCore h), order := 0, scope := 0 }
  let s : State := { s with reqs := kvSet s.reqs id r }
  let s := if op ≤ 2 then s.emptyG t x.f.d.toNat id 1 else s
  (id, sendBar s core { op := op, thread := t, handle := h, arg := arg, reg := x.f.d.toNat, tag := id,
                        asid := BitVec.ofNat 12 (s.asidOf core), epoch := (s.core core).epoch })

/-! ### The instructions -/

/-- Raises the fault that a reply brought for the instruction, if there is one. -/
def dueFault (t : Nat) (s : State) (k : State → TOut) : TOut :=
  if (s.thread t).due = 0 then k s
  else .fault (s.thread t).due 0 0 (s.modThread t fun h => { h with due := 0 })

/-- The checks of a handle (R269): bits 15:13, and for an object of the thread's own core that it is live. -/
def withHandle (s : State) (t : Nat) (v : Vals) (here : Vals → Word → State → TOut) (far : Vals → Word → State → TOut) : TOut :=
  let h : Word := BitVec.ofNat 32 v.a
  if natBits h.toNat 13 3 ≠ 0 then .fault 19 0 0 s
  else if handleCore h = coreOfThread t then
    (if live s h (s.asidOf (coreOfThread t)) then here v h s else .fault 19 0 0 s)
  else far v h s

/-- A thread's instruction on a handle: its operands, the check of bits 15:13, then the local or the remote course. -/
def onHandle (x : Ins) (t : Nat) (s : State) (here : Vals → Word → State → TOut) (far : Vals → Word → State → TOut) : TOut :=
  dueFault t s fun s =>
    match gather s x t with
    | .fault c => .fault c 0 0 s
    | .drop p v => dropAt s p (!v.lackA) (withHandle s t v (fun _ _ s => .ok s) (fun _ _ s => .ok s))
    | .vals v => withHandle s t v here far

/-- The thread's earlier accesses are performed at .pkg, as the release of an arrival asks (R220, R225). -/
def released (s : State) (t : Nat) : Bool := fenceDone s t 2 3

/-- BARV and BEXP of one thread (R272). -/
def barvThread (x : Ins) (t : Nat) (s : State) : TOut :=
  let isExp := x.o = .bexp
  let n := if isExp then (x.mb 0).toNat else x.ifld 0 15
  let range (k : TOut) (s : State) : TOut := if !isExp && (n = 0 || decide (16384 < n)) then .fault 20 0 0 s else k
  onHandle x t s
    (fun v h s =>
      range (match barUpdate (barAt s (handleCore h) (handleIdx h)) n (if isExp then some v.b else none) with
      | .inl f => .fault f 0 0 s
      | .inr b =>
        if 0 < n ∧ !released s t then .stay .order s
        else
          let ph := (barAt s (handleCore h) (handleIdx h)).phase.toNat
          let s := modBar s (handleCore h) (handleIdx h) fun _ => { b with dirty := some s.clk }
          .ok (s.setG t x.f.d.toNat (BitVec.ofNat 32 ph) (s.rdy 1))) s)
    (fun v h s =>
      range (if 0 < n ∧ !released s t then .stay .order s
      else .ok (issueBar s x t (if !isExp then 0 else 1 + n) h (BitVec.ofNat 32 (if isExp then v.b else n))).2) s)

/-- BARV, BEXP (R272). -/
def barv (x : Ins) (s : State) : Out := perThread x 1 noEnd (barvThread x) s

/-- BWAIT of one thread (R274). -/
def bwaitThread (x : Ins) (t : Nat) (s : State) : TOut :=
  onHandle x t s
    (fun v h s =>
      let b := barAt s (handleCore h) (handleIdx h)
      let ph := v.b % 2 = 1
      if b.ovf then .fault 21 0 0 s
      else if b.phase ≠ decide ph then .ok (l1Acquire s (coreOfThread t))
      else .held (s.hold t (.phase (handleCore h) (handleIdx h) (handleGen h) (decide ph))))
    (fun v h s =>
      let (id, s) := issueBar s x t 4 h (BitVec.ofNat 32 (v.b % 2))
      .held (s.hold t (.reply id)))

/-- BWAIT (R274). -/
def bwait (x : Ins) (s : State) : Out := perThread x 1 noEnd (bwaitThread x) s

/-- BTEST of one thread (R274). -/
def btestThread (x : Ins) (t : Nat) (s : State) : TOut :=
  onHandle x t s
    (fun v h s =>
      let b := barAt s (handleCore h) (handleIdx h)
      let done := b.phase ≠ decide (v.b % 2 = 1)
      if b.ovf then .fault 21 0 0 s
      else
        let s := s.setP t x.f.d.toNat (decide done) (s.rdy 1)
        .ok (if done then l1Acquire s (coreOfThread t) else s))
    (fun v h s =>
      let (id, s) := issueBar s x t 3 h (BitVec.ofNat 32 (v.b % 2))
      .held (s.hold t (.reply id)))

/-- BTEST (R274). -/
def btest (x : Ins) (s : State) : Out := perThread x 1 noEnd (btestThread x) s

/-- BALLOC of a sub-run (R270). A count of references outside its range faults as one of arrivals does (notes/assumptions/92.md). -/
def ballocSub (x : Ins) (ps : List Nat) (s : State) : TOut :=
  let t := ps.headD 0
  let core := coreOfThread t
  match gather s x t with
  | .fault c => .fault c 0 0 s
  | .drop p _ => .stay (.queue p true s.clk) s
  | .vals v =>
    let n := if x.mb 7 then x.ifld 0 15 else v.b % 2 ^ 15
    if n = 0 ∨ 16384 < n ∨ x.ifld 16 16 = 0 then .fault 20 0 0 s
    else
      let free := (List.range 64).find? fun i => !(barAt s core i).alloc
      let give (s : State) (h : Word) (ok : Bool) : State :=
        ps.zipIdx.foldl (fun s p => (s.setG p.1 x.f.d.toNat h (s.clk + p.2 + 6)).setP p.1 x.f.a.toNat ok (s.clk + p.2 + 6)) s
      match free with
      | none => .ok (give s 0 false)
      | some i =>
        let g := (barAt s core i).gen % 127 + 1
        let b : Barrier := { asid := s.asidOf core, gen := g, alloc := true, nb := x.mb 0, refs := x.ifld 16 16,
                             expected := n, pendArr := n }
        .ok (give (modBar s core i fun _ => b) (handleOf core i g) true)

/-- BALLOC (R270). -/
def balloc (x : Ins) (s : State) : Out := perSubrun x id noEnd (ballocSub x) s

/-- BFREE of a sub-run (R271, R275): the first performing thread acts; for an object on another core it is held until the
reply. -/
def bfreeSub (x : Ins) (ps : List Nat) (s : State) : TOut :=
  let t := ps.headD 0
  let n := x.ifld 0 16
  onHandle x t s
    (fun _ h s =>
      if n = 0 then .fault 20 0 0 s else
      match barFree s h (s.asidOf (coreOfThread t)) n with
      | (s, 0) => .ok s
      | (s, f) => .fault f 0 0 s)
    (fun _ h s =>
      if n = 0 then .fault 20 0 0 s else
      let (id, s) := issueBar s x t 5 h (BitVec.ofNat 32 n)
      .held ((ps.drop 1).foldl (fun s u => s.advance u x.size) (s.hold t (.reply id))))

/-- BFREE (R271). -/
def bfree (x : Ins) (s : State) : Out := perSubrun x id noEnd (bfreeSub x) s

/-! ### Convergence registers (R277, R278) -/

/-- A convergence register of a core. -/
def cvAt (s : State) (core i : Nat) : Cv := kvGet {} (s.core core).cv i
/-- Changes a convergence register. -/
def modCv (s : State) (core i : Nat) (f : Cv → Cv) : State :=
  s.modCore core fun c => { c with cv := kvSet c.cv i (f (kvGet {} c.cv i)) }

/-- A round that is bound and fully signed fires in this clk (R278). -/
def cvTest (s : State) (core i : Nat) : State :=
  let c := cvAt s core i
  if c.bound.isSome && decide (c.size ≠ 0) && decide (c.signers.length = c.size) && !s.posted (.roundFire core i)
  then s.post 0 (.roundFire core i) else s

/-- CSIGN of one thread (R278). -/
def csignThread (x : Ins) (t : Nat) (s : State) : TOut :=
  match gather s x t with
  | .fault c => .fault c 0 0 s
  | .drop p _ =>
    let c := cvAt s (coreOfThread t) x.f.a.toNat
    dropAt s p (decide (c.size ≠ 0 ∧ c.signers.length = c.size)) (.fault 22 0 0 s)
  | .vals v =>
    let core := coreOfThread t
    let i := x.f.a.toNat
    let size := if x.mb 7 then x.ifld 0 11 else v.b % 2 ^ 11
    let c := cvAt s core i
    if size = 0 ∨ 1024 < size ∨ (c.size ≠ 0 ∧ (size ≠ c.size ∨ c.signers.length = c.size)) then .fault 22 0 0 s
    else
      let s := modCv s core i fun c => { c with size := size, signers := c.signers ++ [t] }
      .held (cvTest (s.hold t (.round i x.f.d.toNat)) core i)

/-- CSIGN (R278). -/
def csign (x : Ins) (s : State) : Out := perThread x 1 noEnd (csignThread x) s

/-! ### Engine counters (R279 to R282) -/

/-- A counter of a warp. -/
def counter (s : State) (w c : Nat) : Nat := kvGet 0 (s.warp w).cnt c

/-- Every counter of a mask is at most k. -/
def countersLow (s : State) (w mask k : Nat) : Bool := (List.range 6).all fun c => !mask.testBit c || decide (counter s w c ≤ k)

/-- WAITC (R281). -/
def waitc (x : Ins) (s : State) : Out :=
  perThread x 1 noEnd
    (fun t s =>
      if countersLow s (t / 32) x.f.m.toNat (x.ifld 0 6) then .ok s
      else .held (s.hold t (.counters x.f.m.toNat (x.ifld 0 6)))) s

/-- CNTR (R282). -/
def cntr (x : Ins) (s : State) : Out :=
  perThread x 1 noEnd
    (fun t s =>
      let v := (List.range 6).foldl (fun a c => a + counter s (t / 32) c % 64 * 2 ^ (8 * c)) 0
      .ok (putDest s x t 2 v false (s.rdy 1))) s

/-- BALLOC, R270: Allocates a barrier object from the core's pool and returns its handle. -/
def execBalloc (f : Long) (s : State) : Out := balloc (Ins.ofBody .balloc (.long f)) s

/-- BFREE, R271: Lowers a barrier object's reference count, freeing it at zero. -/
def execBfree (f : Long) (s : State) : Out := bfree (Ins.ofBody .bfree (.long f)) s

/-- BARV, R272: Arrives at a barrier object with a count and returns the phase parity. -/
def execBarv (f : Long) (s : State) : Out := barv (Ins.ofBody .barv (.long f)) s

/-- BEXP, R272: Posts expected bytes on a barrier object, optionally also arriving. -/
def execBexp (f : Long) (s : State) : Out := barv (Ins.ofBody .bexp (.long f)) s

/-- BWAIT, R274: Holds the thread until the phase of a parity completes. -/
def execBwait (f : Long) (s : State) : Out := bwait (Ins.ofBody .bwait (.long f)) s

/-- BTEST, R274: Tests whether the phase of a parity is complete. -/
def execBtest (f : Long) (s : State) : Out := btest (Ins.ofBody .btest (.long f)) s

/-- CSIGN, R278: Signs the current round of a convergence register and holds until it fires. -/
def execCsign (f : Long) (s : State) : Out := csign (Ins.ofBody .csign (.long f)) s

/-- WAITC, R281: Holds the thread until the named engine counters are at most k. -/
def execWaitc (f : Long) (s : State) : Out := waitc (Ins.ofBody .waitc (.long f)) s

/-- CNTR, R282: Reads the warp's six engine counters into a pair. -/
def execCntr (f : Long) (s : State) : Out := cntr (Ins.ofBody .cntr (.long f)) s

end Sys2Proof.Machine
end

