-- ==== Sys2Proof/Machine/Copy.lean ====
section
/-! DEFINITION. The copy and gather engine, opcodes 0xB0 to 0xB3, PUTN and GETN, 0x8E and 0x8F (spec/14, spec/17): the
issue, the service order, chunks with their reads and writes. -/

namespace Sys2Proof.Machine

/-! ### Addresses of elements (R293, R296, R372) -/

/-- The address of an element of a shaped copy. -/
def shapedAddr (base : Dword) (strides shape : List Nat) (e : Nat) : Nat :=
  let x0 := shape.getD 0 1
  let x1 := shape.getD 1 1
  let x2 := shape.getD 2 1
  (base.toNat + e % x0 + e / x0 % x1 * strides.getD 0 0 + e / x0 / x1 % x2 * strides.getD 1 0 + e / x0 / x1 / x2 * strides.getD 2 0) % 2 ^ 64

/-- A stride as a residue modulo 2^64. -/
def strideNat (i : Int) : Nat := (i % 2 ^ 64).toNat

/-- The address on the indexed side of a gather or scatter. -/
def rowAddr (base : Dword) (p : Op) (idx : List (Nat × Nat)) (e : Nat) : Nat :=
  let rsz := p.shape.getD 1 32
  (base.toNat + kvGet 0 idx (e / rsz) * (p.shape.getD 2 0 * 32) + e % rsz) % 2 ^ 64

/-- The source address of byte `e` of an operation. -/
def srcAddr (p : Op) (idx : List (Nat × Nat)) (e : Nat) : Nat :=
  match p.kind with
  | .cpy => shapedAddr p.src ((p.strides.take 3).map strideNat) p.shape e
  | .gath => rowAddr p.src p idx e
  | _ => (p.src.toNat + e) % 2 ^ 64

/-- The destination address of byte `e` of an operation. -/
def dstAddr (p : Op) (idx : List (Nat × Nat)) (e : Nat) : Nat :=
  match p.kind with
  | .cpy => shapedAddr p.dst ((p.strides.drop 3).map strideNat) p.shape e
  | .scat => rowAddr p.dst p idx e
  | _ => (p.dst.toNat + e) % 2 ^ 64

/-- The consecutive runs of the addresses of `n` elements from `e` on, cut at multiples of `cut`: element, address,
bytes. -/
def runsOf (addr : Nat → Nat) (cut : Nat) : Nat → Nat → List (Nat × Nat × Nat)
  | 0, _ => []
  | n + 1, e =>
    let a := addr e
    match runsOf addr cut n (e + 1) with
    | (e', a', l) :: r => if a' = a + 1 ∧ a' % cut ≠ 0 then (e, a, l + 1) :: r else (e, a, 1) :: (e', a', l) :: r
    | [] => [(e, a, 1)]

/-! ### Accesses (R288) -/

/-- The translation of an engine's address: bits 63:56, the window, the die's translation cache, a walk (R288, R381, R383). -/
def engXlate (s : State) (p : Op) (va acc : Nat) : Xlate :=
  let d := dieOfCore p.core
  if 2 ^ 56 ≤ va then .fault 7
  else if inWindow p.window.toNat va then windowXlate s p.launch p.window.toNat va acc
  else match (s.die d).tc.find? fun t => covers t p.asid va with
    | some t => leafXlate t va acc
    | none => xlateNow s d p.asid p.root p.launch p.window.toNat va acc

/-- The translation of an engine's access, with the check of a B page's region record (R251). -/
def engPlace (s : State) (p : Op) (va acc : Nat) : Xlate :=
  match engXlate s p va acc with
  | .ok q => if q.cls = 3 && !regionOk s q p.asid then .fault 9 else .ok q
  | r => r

/-- The failure code of a translation (Table 14-1, R380): a region record that denies counts as PM. -/
def xlateCode (c : Nat) : Nat := if c = 7 then 3 else if c = 5 ∨ c = 9 then 2 else 1

/-- The places of some runs, cut at bank words on S pages, or the code of the first that fails with its address. -/
def placeRuns (s : State) (p : Op) (acc : Nat) : List (Nat × Nat × Nat) → (Nat × Nat) ⊕ List Piece
  | [] => .inr []
  | (e, a, l) :: r =>
    match engPlace s p a acc with
    | .ok q =>
      match placeRuns s p acc r with
      | .inl c => .inl c
      | .inr ps =>
        let k := 32 - q.pa % 32
        if q.cls = 4 ∧ k < l then
          .inr ({ off := e, len := k, va := a, cls := 4, pa := q.pa } :: { off := e + k, len := l - k, va := a + k, cls := 4, pa := q.pa + k } :: ps)
        else .inr ({ off := e, len := l, va := a, cls := q.cls, pa := q.pa } :: ps)
    | .fault c => .inl (xlateCode c, a)
    | .miss => .inl (1, a)

/-- A request of an operation: `key` names the chunk. -/
def engReq (s : State) (o key : Nat) (k : ReqKind) (q : Piece) (data : List Byte) : Nat × State :=
  let p := s.op o
  let (id, s) := s.fresh
  let r : Req := { kind := k, thread := engThread o, core := p.core, epoch := p.epoch, va := BitVec.ofNat 64 q.va, cls := q.cls,
                   pa := q.pa, size := q.len, order := 0, scope := p.scope, op := q.off, ty := p.ty, data := data, reg := key,
                   tag := o, stage := 1 }
  (id, { s with reqs := kvSet s.reqs id r })

/-- Sends reads of a chunk. -/
def sendReads (s : State) (o k : Nat) (ps : List Piece) : State :=
  let (s, ids) := ps.foldl (fun (a : State × List Nat) q =>
    let (id, s) := engReq a.1 o k .erd q []
    (modChunk s o k fun c => { c with reads := c.reads ++ [id] }, a.2 ++ [id])) (s, [])
  ids.foldl launchReq s

/-- Sends writes of a chunk. -/
def sendWrites (s : State) (o k : Nat) (kind : ReqKind) (ws : List (Piece × List Byte)) : State :=
  let (s, ids) := ws.foldl (fun (a : State × List Nat) w =>
    let (id, s) := engReq a.1 o k kind w.1 w.2
    (modChunk s o k fun c => { c with writes := c.writes ++ [id] }, a.2 ++ [id])) (s, [])
  ids.foldl launchReq s

/-- An engine's write at its home or bank is judged against a declared buffer and applied (R290): whether it is refused. One that came
with its line's other sector is applied already (R234). -/
def applyWrite (s : State) (id : Nat) : State × Bool :=
  let r := s.req id
  if 2 ≤ r.stage then (s, false) else
  let home := placeDie r.cls r.pa
  match (if r.cls = 4 then bufAt s home r.pa else none) with
  | some (b, x) => if 2 ≤ x.state then (s, true) else (bufCount (performReq s id) home b r.size, false)
  | none => (performReq s id, false)

/-- DELIVER_AT_HOME and PUTN_FLAG_INCREMENT, R290, R373: the write is applied; it counts as performed now, or where it came from
another package when the acknowledgement is back (R220). -/
def evDeliverAtHome (s : State) (id : Nat) : State :=
  match s.reqs.find? fun r => r.1 = id with
  | none => s
  | some (_, r) =>
    let home := placeDie r.cls r.pa
    let line := r.pa / 64
    let (s, refused) := applyWrite s id
    let s := if r.cls = 4 then s else goLine (modTxn s home line fun t => { t with ev := none, await := [] }) home line line
    if r.failed then { s with reqs := kvDel s.reqs id }
    else if refused then engFail s id 5 0
    else if pkgOfDie home = pkgOfCore r.core then engEnd s id (s.req id)
    else answerReq s id 0

/-! ### The service order (R286, R287) -/

/-- The bytes of the next chunk of an operation, 0 where it has none ready. -/
def nextSize (p : Op) : Nat := if p.held ∨ p.stage = 0 then 0 else min 2048 (p.total - 2048 * p.next)

/-- The operations of a class queue with a chunk ready, in rotation order. -/
def readyOps (s : State) (d q : Nat) : List Nat := (kvGet [] (s.die d).classQ q).filter fun o => 0 < nextSize (s.op o)

/-- Lets the engine dispatch in the next clk, when every operation of this clk has entered its queue (R286, R287). -/
def pumpCopy (s : State) (d : Nat) : State :=
  let x := s.die d
  if x.inFlight < 2048 && (List.range 4).any (fun q => !(readyOps s d q).isEmpty) && !s.posted (.chunkDispatch d) then
    s.post 1 (.chunkDispatch d)
  else s

/-- A chunk leaves flight. -/
def endChunk (s : State) (o k : Nat) : State :=
  let d := dieOfCore (s.op o).core
  let slot := slotClass (s.op o).cls
  let s := s.modOp o fun p => { p with chunks := kvDel p.chunks k }
  if !slot then s else
  pumpCopy (s.modDie d fun x => { x with inFlight := x.inFlight - 1 }) d

/-- A chunk fails whole before any of its bytes is written (R291); those of one with a failed read were counted off then. -/
def chunkFails (s : State) (o k code : Nat) (va : Dword) : State :=
  let c := kvGet {} (s.op o).chunks k
  let n := if c.bad then 0 else c.size
  let s := copyOutTest (endChunk s o k) o
  failOp s o code 0 (dieOfCore (s.op o).core) va n

/-- The row addresses of a gather or scatter are 32-byte aligned (R296). -/
def rowsAligned (p : Op) : Bool :=
  match p.kind with
  | .gath | .scat => decide (p.src.toNat % 32 = 0 ∧ p.dst.toNat % 32 = 0)
  | _ => true

/-- A chunk's source reads go out, once both sides translate (R288, R291). -/
def startReads (s : State) (o k : Nat) : State :=
  let p := s.op o
  let c := kvGet {} p.chunks k
  let idx := p.index
  if !rowsAligned p then chunkFails s o k 3 0
  else match placeRuns s p 1 (runsOf (srcAddr p idx) 32 c.size (2048 * k)) with
    | .inl (code, a) => chunkFails s o k code (BitVec.ofNat 64 a)
    | .inr src =>
      match placeRuns s p 2 (runsOf (dstAddr p idx) 32 c.size (2048 * k)) with
      | .inl (code, a) => chunkFails s o k code (BitVec.ofNat 64 a)
      | .inr dst => sendReads (modChunk s o k fun c => { c with phase := 1, out := dst }) o k src

/-- The row in which a chunk of a gather or scatter begins, and the chunk that the row begins in. -/
def firstRow (p : Op) (k : Nat) : Nat := 2048 * k / p.shape.getD 1 32
/-- The chunk that a row begins in. -/
def rowChunk (p : Op) (i : Nat) : Nat := i * p.shape.getD 1 32 / 2048

/-- The entries of the index list for the rows that begin in a chunk, as pieces of the list: each is read once (R296). -/
def indexPieces (s : State) (p : Op) (k size : Nat) : (Nat × Nat) ⊕ List Piece :=
  let lo := firstRow p k
  let hi := (2048 * k + size - 1) / p.shape.getD 1 32
  placeRuns s p 1 (((List.range (hi + 1 - lo)).filter fun i => rowChunk p (lo + i) = k).map fun i =>
    (lo + i, (p.idx.toNat + 4 * (lo + i)) % 2 ^ 64, 4))

/-- The start that the first chunk makes on a named buffer (R293): false where it is refused. -/
def bufStart (s : State) (o : Nat) : State × Bool :=
  let p := s.op o
  let d := dieOfCore p.core
  match p.buf with
  | none => (s, true)
  | some b =>
    let x := kvGet {} (s.die d).buf b
    if !x.decl || x.serial ≠ p.serial then (s, true)
    else if !p.bout then (bufNote s d b fun x => { x with copyIn := true }, true)
    else if x.state ≤ 1 then (s, false)
    else ((bufNote s d b fun x => { x with outStart := x.outStart + 1 }).modOp o fun p => { p with begun := true }, true)

/-- Dispatches the next chunk of an operation. -/
def dispatchChunk (s : State) (d o : Nat) : State :=
  let p := s.op o
  let k := p.next
  let n := nextSize p
  let s := (s.modOp o fun p => { p with next := k + 1, stage := 2, chunks := kvSet p.chunks k { size := n } }).modDie d fun x =>
    { x with inFlight := x.inFlight + 1 }
  let (s, ok) := if k = 0 then bufStart s o else (s, true)
  if !ok then chunkFails s o k 5 p.src
  else if p.kind = .gath ∨ p.kind = .scat then
    match indexPieces s p k n with
    | .inl (code, a) => chunkFails s o k code (BitVec.ofNat 64 a)
    | .inr ps =>
      let s := sendReads (modChunk s o k fun c => { c with phase := 0 }) o k ps
      if ps.isEmpty then s.post 0 (.chunkSourceReadLanding o k) else s
  else startReads s o k

/-- The deficit round-robin of R287: dispatches of this clk, `n` at most. The deficit of a queue returns to 0 where its visit ends with no chunk
of it ready. -/
def drr : Nat → State → Nat → Nat → State
  | 0, s, _, _ => s
  | fuel + 1, s, d, n =>
    let x := s.die d
    if n = 0 ∨ 2048 ≤ x.inFlight ∨ !(List.range 4).any (fun q => !(readyOps s d q).isEmpty) then s
    else
      let q := x.round
      let next (s : State) : State := s.modDie d fun x => { x with round := (q + 3) % 4, visited := false }
      match readyOps s d q with
      | [] => drr fuel (next (if x.visited then s.modDie d fun x => { x with deficit := kvSet x.deficit q 0 } else s)) d n
      | o :: _ =>
        let df := kvGet 0 x.deficit q + (if x.visited then 0 else 2048 * 2 ^ q)
        let size := nextSize (s.op o)
        if df < size then drr fuel (next (s.modDie d fun x => { x with deficit := kvSet x.deficit q df })) d n
        else
          let l := (kvGet [] x.classQ q).erase o
          let more := 2048 * ((s.op o).next + 1) < (s.op o).total
          let s := s.modDie d fun x => { x with
            visited := true, deficit := kvSet x.deficit q (df - size), classQ := kvSet x.classQ q (if more then l ++ [o] else l) }
          let s := dispatchChunk s d o
          drr fuel (if (readyOps s d q).isEmpty then next (s.modDie d fun x => { x with deficit := kvSet x.deficit q 0 }) else s) d (n - 1)

/-- CHUNK_DISPATCH, R286, R287. -/
def evChunkDispatch (s : State) (d : Nat) : State :=
  let s := drr 64 s d 4
  -- an idle engine begins again with class 3
  let idle := (List.range 4).all fun q => (readyOps s d q).isEmpty
  pumpCopy (if idle then s.modDie d fun x => { x with round := 3, visited := false } else s) d

/-- The chunks that wait for an index entry of chunk `k` look again (R296). -/
def wakeRows (s : State) (o k : Nat) : State :=
  let p := s.op o
  (p.chunks.filter fun c => c.2.phase = 0 && c.2.reads.isEmpty && decide (c.1 ≠ k) && rowChunk p (firstRow p c.1) = k).foldl
    (fun s c => s.post 0 (.chunkSourceReadLanding o c.1)) s

/-- CHUNK_SOURCE_READ_LANDING, R293: the index entries or the source bytes of a chunk are all in. A chunk whose first row begins in an earlier
one waits for that row's entry, and fails with it. -/
def evChunkSourceReadLanding (s : State) (o k : Nat) : State :=
  let p := s.op o
  let c := kvGet {} p.chunks k
  if !(p.chunks.any fun x => x.1 = k) then s
  else if c.bad then wakeRows (chunkFails s o k 4 0) o k
  else if c.phase = 0 then
    if p.index.any fun e => e.1 = firstRow p k then wakeRows (startReads s o k) o k
    else if p.chunks.any fun e => e.1 = rowChunk p (firstRow p k) && !e.2.bad then s
    else chunkFails s o k 4 0
  else
    let bytes := (c.got.foldl (fun l g => kvSet l g.1 g.2) ([] : KV (List Byte))).flatMap (·.2)
    let ws := c.out.map fun q => (q, sliceL bytes (q.off - 2048 * k) q.len)
    let s := modChunk s o k fun c => { c with phase := 2, got := [] }
    sendWrites (copyOutTest s o) o k (if p.add then .eadd else .ewr) ws

/-- A PUTN whose data are written increments its flag (R373). -/
def sendFlag (s : State) (o : Nat) : State :=
  let p := s.op o
  match engXlate s p p.flag.toNat 2 with
  | .ok q =>
    let (id, s) := engReq s o (2 ^ 20) .eflag { off := 0, len := 4, va := p.flag.toNat, cls := q.cls, pa := q.pa } (leBytes 4 p.inc)
    launchReq s id
  | .fault c => failOp s o (xlateCode c) 0 (dieOfCore p.core) p.flag 0
  | .miss => s

/-- An operation of the Anvil or the press is complete: it leaves the Anvil queue (R309). -/
def finishOp (s : State) (o : Nat) : State :=
  let p := s.op o
  if !(s.ops.any fun x => x.1 = o) then s else
  let s := (completeOp (if p.stage < 3 then noteRetired s p else s) o).modCore p.core fun k => { k with anvilQ := k.anvilQ.erase o }
  if p.cls = 2 then sweepLeft (sweepOp s o) p.core else sweepOp s o

/-- CHUNK_COMPLETE, R286; the last chunk of an operation completes it (R224). -/
def evChunkComplete (s : State) (o k : Nat) : State :=
  if !((s.op o).chunks.any fun x => x.1 = k) then s else
  let n := (kvGet {} (s.op o).chunks k).size
  let s := endChunk s o k
  let p := s.op o
  if p.cls = 2 ∨ p.cls = 4 then finishOp (if 0 < n then landed s o n else s) o
  else if p.cls = 3 then s
  else if p.fail = 0 ∧ p.chunks.isEmpty ∧ p.total ≤ 2048 * p.next ∧ p.stage < 3 then
    (if p.kind = .putn then sendFlag s o else sweepOp (completeOp s o) o)
  else sweepOp s o

/-! ### Issue -/

/-- The lowest and the highest address of a side of a shaped copy. -/
def sideSpan (base : Dword) (strides : List Int) (shape : List Nat) : Dword × Dword :=
  let ext (f : Int → Int → Int) : Int := ((shape.drop 1).zip strides).foldl (fun a e => a + f 0 (((e.1 : Int) - 1) * e.2)) (0 : Int)
  (BitVec.ofInt 64 ((base.toNat : Int) + ext min), BitVec.ofInt 64 ((base.toNat : Int) + ext max + (shape.getD 0 1 : Int) - 1))

/-- A range of addresses lies in a declared buffer of the issuing die. -/
def inBuf (s : State) (core : Nat) (b : Buf) (lo hi : Dword) : Bool :=
  let h := s.cohort core
  let w := h.window.toNat
  inWindow w lo.toNat && inWindow w hi.toNat && decide (lo.toNat ≤ hi.toNat) && (match windowSpan s h.launch w lo.toNat with
    | some (e, sp) =>
      let key := sp.base + (lo.toNat - w) % 2 ^ 27
      decide (e = dieOfCore core) && decide ((lo.toNat - w) / 2 ^ 27 = (hi.toNat - w) / 2 ^ 27) && decide (b.base ≤ key)
        && decide (key + (hi.toNat - lo.toNat) < b.base + b.size)
    | none => false)

/-- The copy's checks of its barrier, where its handle is `known`, and its buffer (R295): the fault, or the operation that names
them. -/
def nameBarBuf (s : State) (x : Ins) (t hdl : Nat) (known : Bool) (lo hi : Dword) (p : Op) : (Nat × Dword) ⊕ Op :=
  let core := coreOfThread t
  let b := x.ifld 8 6
  let r := kvGet {} (s.die (dieOfCore core)).buf b
  let h : Word := BitVec.ofNat 32 hdl
  if x.mb 6 && known && !live s h p.asid then .inl (19, 0)
  else if x.ib 2 && !(r.decl && decide (r.from_ ≤ s.clk) && decide (r.owner = p.asid)) then .inl (16, 0)
  else if x.ib 2 && !inBuf s core r lo hi then .inl (16, lo)
  else .inr { p with bar := if x.mb 6 then some h else none, buf := if x.ib 2 then some b else none, bout := x.ib 3, serial := r.serial }

/-- The number in the D pair of a thread. -/
def dPair (s : State) (x : Ins) (t : Nat) : Dword := BitVec.ofNat 64 (gNum s t x.f.d.toNat 2)

/-- The checks and the issue of a CPY with its operands (R295). -/
def cpyBody (x : Ins) (t : Nat) (v : Vals) (s : State) : TOut :=
  let sz (lo n : Nat) : Nat := natBits x.lit.toNat lo n + 1
  let shape := [sz 0 18, sz 18 12, sz 30 12, sz 42 12]
  let total := shape.foldl (· * ·) 1
  let dense : List Int := [(sz 0 18 : Int), (sz 0 18 * sz 18 12 : Nat), (sz 0 18 * sz 18 12 * sz 30 12 : Nat)]
  let strides : List Int := if x.mb 7 then dense ++ dense
    else (List.range 6).map fun i => (s.greg t (x.f.c.toNat + i)).v.toInt
  let src : Dword := BitVec.ofNat 64 v.a
  let dst := dPair s x t
  let sp := sideSpan src (strides.take 3) shape
  let dp := sideSpan dst (strides.drop 3) shape
  let bad := [sp.1, sp.2, dp.1, dp.2].find? fun a => a.extractLsb' 56 8 ≠ 0
  if 2 ^ 32 < total then .fault 24 0 0 s
  else match bad with
    | some a => .fault 7 0 a s
    | none =>
      let side := if x.ib 3 then sp else dp
      match nameBarBuf s x t v.b (!v.lackB) side.1 side.2 (opOf s t .cpy 0) with
      | .inl (c, a) => .fault c 0 a s
      | .inr p => .ok (issueOp s [t] { p with dst := dst, src := src, strides := strides, shape := shape, total := total,
                                                prio := x.ifld 0 2, scope := x.scope }).2

/-- CPY of one thread (R295). -/
def cpyThread (x : Ins) (t : Nat) (s : State) : TOut :=
  match gather s x t with
  | .fault c => .fault c 0 0 s
  | .drop p v => dropAt s p true (cpyBody x t v s)
  | .vals v => cpyBody x t v s

/-- The whole sub-run is held for its copy slots and its counter (R285, R280). -/
def slotNeed (cls : Nat) (ps : List Nat) (s : State) : Option Hold := slotHold s (ps.headD 0 / 32) cls ps.length

/-- CPY (R295). -/
def cpy (x : Ins) (s : State) : Out := perThreadHeld x (slotNeed 0) (cpyThread x) s

/-- The checks and the issue of a GATH or SCAT with its operands (R297). -/
def gathBody (x : Ins) (t : Nat) (v : Vals) (s : State) : TOut :=
  let sc := x.o = .scat
  let nrow := natBits x.lit.toNat 0 16 + 1
  let rsz := (natBits x.lit.toNat 16 8 + 1) * 32
  let total := nrow * rsz
  let src : Dword := BitVec.ofNat 64 v.a
  let dst := dPair s x t
  let l : Dword := BitVec.ofNat 64 v.b
  if 2 ^ 32 < total then .fault 24 0 0 s
  else match [src, dst, l].find? fun a => a.extractLsb' 56 8 ≠ 0 with
    | some a => .fault 7 0 a s
    | none =>
      if l.toNat % 4 ≠ 0 then .fault 8 0 l s
      else if x.ib 2 && x.ib 3 != sc then .fault 16 0 0 s
      else
        let lo := if sc then src else dst
        match nameBarBuf s x t v.c (!v.lackC) lo (lo + BitVec.ofNat 64 (total - 1)) (opOf s t x.o 1) with
        | .inl (c, a) => .fault c 0 a s
        | .inr p => .ok (issueOp s [t] { p with dst := dst, src := src, idx := l, total := total, prio := x.ifld 0 2, scope := x.scope,
                                                  shape := [nrow, rsz, natBits x.lit.toNat 24 32], add := sc && x.mb 7, ty := x.f.t }).2

/-- GATH and SCAT of one thread (R297). -/
def gathThread (x : Ins) (t : Nat) (s : State) : TOut :=
  match gather s x t with
  | .fault c => .fault c 0 0 s
  | .drop p v => dropAt s p true (gathBody x t v s)
  | .vals v => gathBody x t v s

/-- GATH, SCAT (R296, R297). -/
def gath (x : Ins) (s : State) : Out := perThreadHeld x (slotNeed 1) (gathThread x) s

/-- The first fault of a translation of a range of `n` bytes for an access, page after page. -/
def rangeFault (s : State) (p : Op) (acc : Nat) : Nat → Nat → Nat → Option (Nat × Nat)
  | 0, _, _ => none
  | fuel + 1, a, n =>
    match engPlace s p (a % 2 ^ 64) acc with
    | .fault c => some (c, a % 2 ^ 64)
    | _ =>
      let k := 65536 - a % 65536
      if n ≤ k then none else rangeFault s p acc fuel (a + k) (n - k)

/-- The first fault of some ranges, each an address, a length and an access. -/
def rangesFault (s : State) (p : Op) (l : List (Nat × Nat × Nat)) : Option (Nat × Nat × Nat) :=
  l.findSome? fun r => (rangeFault s p r.2.2 (r.2.1 / 65536 + 2) r.1 r.2.1).map fun f => (f.1, r.2.2, f.2)

/-- The checks and the issue of a PUTN or GETN with its operands (R372); where the length is not known, the first byte is checked. -/
def putnBody (x : Ins) (t : Nat) (v : Vals) (s : State) : TOut :=
  let put := x.o = .putn
  let n := if v.lackC then 1 else v.c
  let src : Dword := BitVec.ofNat 64 v.a
  let dst := dPair s x t
  let flag : Dword := if put then BitVec.ofNat 64 v.b else 0
  let p := opOf s t x.o 5
  if !v.lackC && (n = 0 || decide (2 ^ 26 < n)) then .fault 24 0 0 s
  else match [dst, src, flag].find? fun a => a.extractLsb' 56 8 ≠ 0 with
    | some a => .fault 7 0 a s
    | none =>
      if put && flag.toNat % 4 ≠ 0 then .fault 8 0 flag s
      else match rangesFault s p ([(src.toNat, n, 1), (dst.toNat, n, 2)] ++ if put then [(flag.toNat, 4, 2)] else []) with
        | some (c, acc, a) => .fault c acc (BitVec.ofNat 64 a) s
        | none =>
          let onB := put && (match engXlate s p flag.toNat 2 with
            | .ok q => decide (q.cls = 3)
            | _ => false)
          let h : Word := BitVec.ofNat 32 v.b
          if onB then .fault 9 0 flag s
          else if !put && x.mb 6 && !v.lackB && !live s h p.asid then .fault 19 0 0 s
          else .ok (issueOp s [t] { p with dst := dst, src := src, total := n, flag := flag, inc := x.ifld 0 16, prio := x.ifld 16 2,
                                             scope := x.scope, bar := if !put && x.mb 6 then some h else none }).2

/-- PUTN and GETN of one thread (R372). -/
def putnThread (x : Ins) (t : Nat) (s : State) : TOut :=
  match gather s x t with
  | .fault c => .fault c 0 0 s
  | .drop p v => dropAt s p true (putnBody x t v s)
  | .vals v => putnBody x t v s

/-- PUTN, GETN (R371, R372). -/
def putn (x : Ins) (s : State) : Out := perThreadHeld x (slotNeed 5) (putnThread x) s

/-- The chunks that wait in a class queue, in units of 256 (Table 14-4). -/
def waitingUnits (s : State) (d q : Nat) : Nat :=
  min 255 (((kvGet [] (s.die d).classQ q).foldl (fun n o => n + (chunkCount (s.op o) - (s.op o).next)) 0) / 256)

/-- CPYQ of one thread (R298): the values of its clk. Under .st the first thread of the sub-run reads and clears the failure word, and every
later one receives what it read. -/
def cpyqThread (x : Ins) (t : Nat) (s : State) : TOut :=
  let w := t / 32
  let d := dieOfCore (coreOfWarp w)
  let hi := (List.range 4).foldl (fun n q => n + waitingUnits s d q * 2 ^ (32 + 8 * q)) 0
  let first := match (s.lane s.cur).run with
    | some r => decide (r.warp ≠ w ∨ r.done = 0)
    | none => true
  let s := if x.mb 0 && first then s.modWarp w fun h => { h with cpyWord := h.engFail, engFail := 0 } else s
  let lo := if x.mb 0 then (s.warp w).cpyWord.toNat else 1024 - slotsUsed s (coreOfWarp w)
  .ok (s.setGs t x.f.d.toNat (hi + lo) (s.rdy 1) 2)

/-- CPYQ (R298). -/
def cpyq (x : Ins) (s : State) : Out := perThread x 1 noEnd (cpyqThread x) s

/-- CPY, R295: Checks and issues a shaped copy of class K. -/
def execCpy (f : Long) (l : Dword) (s : State) : Out := cpy (Ins.ofBody .cpy (.longLit f l)) s

/-- GATH, R297: Checks and issues a gather by an index list, of class G. -/
def execGath (f : Long) (l : Dword) (s : State) : Out := gath (Ins.ofBody .gath (.longLit f l)) s

/-- SCAT, R297: Checks and issues a scatter by an index list, optionally adding, of class G. -/
def execScat (f : Long) (l : Dword) (s : State) : Out := gath (Ins.ofBody .scat (.longLit f l)) s

/-- CPYQ, R298: Reads queue depths and free copy slots, or reads and clears the engine-failure word. -/
def execCpyq (f : Long) (s : State) : Out := cpyq (Ins.ofBody .cpyq (.long f)) s

/-- PUTN, R372: Issues a remote put with a flag increment, of class F. -/
def execPutn (f : Long) (s : State) : Out := putn (Ins.ofBody .putn (.long f)) s

/-- GETN, R372: Issues a remote get, of class F. -/
def execGetn (f : Long) (s : State) : Out := putn (Ins.ofBody .getn (.long f)) s


end Sys2Proof.Machine
end

