-- ==== Sys2Proof/Machine/Anvil.lean ====
section
/-! DEFINITION. The Anvil, its tiles and the press units, opcodes 0xC0 to 0xCA (spec/15). -/

namespace Sys2Proof.Machine

/-! ### Formats (Tables 15-2 to 15-4) -/

/-- The bytes of a weight tile of a format (Table 15-3). -/
def tileBytes (fmt : Nat) : Nat := match fmt with
  | 3 => 2048
  | 4 => 1024
  | 5 | 6 => 8192
  | _ => 4096

/-- The bytes of `n` elements of a format along K. -/
def rowBytes (fmt n : Nat) : Nat := match fmt with
  | 3 => n / 2
  | 4 => n / 4
  | 5 | 6 => 2 * n
  | _ => n

/-- The byte of a list at a place; `none` where it comes from a failed read. -/
def byteAt (l : List (Option Byte)) (i : Nat) : Option Nat := (l.getD i (some 0)).map (·.toNat)

/-- A small integer as a value. -/
def intVal (i : Int) : FVal := .fin (decide (i < 0)) i.natAbs 0

/-- Element `k` of a row of a format that begins at byte `at_` (R301 to R303, R305); a NaN where it depends on a failed
read (R313). -/
def elemVal (fmt : Nat) (l : List (Option Byte)) (at_ k : Nat) : FVal :=
  let one (f : Nat → FVal) (i : Nat) : FVal := match byteAt l i with
    | some b => f b
    | none => .nan false
  let two (f : Nat → FVal) (i : Nat) : FVal := match byteAt l i, byteAt l (i + 1) with
    | some a, some b => f (a + 256 * b)
    | _, _ => .nan false
  match fmt with
  | 0 => one (fdec fmtE4M3) (at_ + k)
  | 1 => one (fdec fmtE5M2) (at_ + k)
  | 2 => one (fun b => intVal (sx 8 b)) (at_ + k)
  | 3 => one (fun b => intVal (sx 4 (if k % 2 = 0 then b % 16 else b / 16))) (at_ + k / 2)
  | 4 => two (fun c => intVal (lqElem c (k % 8))) (at_ + 2 * (k / 8))
  | 5 => two (fdec fmtBF16) (at_ + 2 * k)
  | _ => two (fdec fmtF16) (at_ + 2 * k)

/-- The exponent that a scale byte gives (R303, R304); none for a NaN block. -/
def scaleExp (fmt : Nat) (b : Option Nat) : Option Int :=
  match b with
  | some 255 | none => none
  | some v => some ((v : Int) - (if fmt = 4 then 128 else 127))

/-- A row of elements with the exponent of each of its blocks of 32. -/
structure Row where
  vals : List FVal
  exps : List (Option Int)

/-- A row of `n` elements from its bytes and its scale bytes, if it has them. -/
def rowOf (fmt n : Nat) (l : List (Option Byte)) (at_ : Nat) (scale : Option (List (Option Byte) × Nat)) : Row :=
  { vals := (List.range n).map (elemVal fmt l at_),
    exps := (List.range (n / 32)).map fun b => match scale with
      | some (sl, i) => scaleExp fmt (byteAt sl (i + b))
      | none => some 0 }

/-- Column `n` of a weight tile. -/
def Weights.col (w : Weights) (n : Nat) : Row :=
  rowOf w.fmt 64 w.data (n * rowBytes w.fmt 64) (if w.bx then some (w.scale, 2 * n) else none)

/-! ### Arithmetic (R307, R308) -/

/-- A value scaled by a power of two. -/
def scaleVal (e : Int) : FVal → FVal
  | .fin n m k => .fin n m (k + e)
  | v => v

/-- The products of block `b` of two rows, scaled; none where the block is a NaN (R307). -/
def blockProds (x y : Row) (b : Nat) : Option (List (FVal × FVal)) :=
  match x.exps.getD b none, y.exps.getD b none with
  | some e, some e' => some (((sliceL x.vals (32 * b) 32).map (scaleVal e)).zip ((sliceL y.vals (32 * b) 32).map (scaleVal e')))
  | _, _ => none

/-- An exact sum of products rounded once to f32 with .rn; a NaN where a block is one. -/
def sumRound (bs : List (Option (List (FVal × FVal)))) : Nat :=
  if bs.any (·.isNone) then fmtF32.nan else (fdot fmtF32 0 false (bs.flatMap fun b => b.getD []) []).1

/-- The accumulator after an activation row and a weight column (R307). -/
def dotAdd (acc : Word) (fmt : Nat) (x y : Row) : Word :=
  if fmt = 5 ∨ fmt = 6 then
    (x.vals.zip y.vals).foldl (fun a p => BitVec.ofNat 32 (fdot fmtF32 0 false [p] [fdec fmtF32 a.toNat]).1) acc
  else
    (List.range 2).foldl (fun a b => BitVec.ofNat 32 (faddBits fmtF32 0 false a.toNat (sumRound [blockProds x y b])).1) acc

/-- The pairs of Table 15-5. -/
def pairOk (w a : Nat) : Bool :=
  match w with
  | 0 | 1 => decide (a ≤ 1)
  | 2 | 3 | 4 => decide (a = 2)
  | 5 => decide (a = 5)
  | _ => decide (w = 6 ∧ a = 6)

/-- The clks that `n` rows occupy the array for (R310). -/
def occClks (w n : Nat) : Nat := if w = 3 ∨ w = 4 then (n + 1) / 2 else if 5 ≤ w then 2 * n else n
/-- The clk of the last of `n` rows after the start (R310). -/
def lastRowClk (w n : Nat) : Nat := if w = 3 ∨ w = 4 then (n - 1) / 2 else if 5 ≤ w then 2 * (n - 1) else n - 1

/-- An element of a tile. -/
def tileAt (s : State) (core tile i j : Nat) : Word := kvGet 0 (kvGet [] (s.core core).tiles tile) (64 * i + j)

/-- Changes a tile. -/
def modTile (s : State) (core tile : Nat) (f : KV Word → KV Word) : State :=
  s.modCore core fun c => { c with tiles := kvSet c.tiles tile (f (kvGet [] c.tiles tile)) }

/-- An element written; +0 is not listed. -/
def putElem (k : KV Word) (i : Nat) (v : Word) : KV Word := if v = 0 then kvDel k i else kvSet k i v

/-- Changes a tile of the cohort of an operation. -/
def modOpTile (s : State) (p : Op) (f : KV Word → KV Word) : State :=
  modSet s p fun x => { x with tiles := kvSet x.tiles p.tile (f (kvGet [] x.tiles p.tile)) }

/-- Row `row` of a tile with an activation row added under some weights (R307). -/
def addRow (z : Bool) (w : Weights) (fmt row : Nat) (x : Row) (k : KV Word) : KV Word :=
  (List.range 64).foldl (fun k' n => putElem k' (64 * row + n) (dotAdd (if z then 0 else kvGet 0 k (64 * row + n)) fmt x (w.col n))) k

/-! ### Ranges and reads -/

/-- The pages of a range, each as a translation for it, or the first fault. -/
def pagesOf (s : State) (p : Op) (acc : Nat) : Nat → Nat → Nat → (Nat × Nat) ⊕ List Trans
  | 0, _, _ => .inr []
  | fuel + 1, a, n =>
    match engPlace s p (a % 2 ^ 64) acc with
    | .fault c => .inl (c, a % 2 ^ 64)
    | .miss => .inl (4, a % 2 ^ 64)
    | .ok q =>
      let k := min n (65536 - a % 65536)
      let t : Trans := { asid := p.asid, vbase := a % 2 ^ 64, size := k, pbase := q.pa, cls := q.cls, limit := q.limit }
      if n ≤ k then .inr [t]
      else match pagesOf s p acc fuel (a + k) (n - k) with
        | .inl c => .inl c
        | .inr l => .inr (t :: l)

/-- The pages of several ranges, each an address, a length and an access; the first fault with its access. -/
def rangePages (s : State) (p : Op) : List (Nat × Nat × Nat) → (Nat × Nat × Nat) ⊕ List Trans
  | [] => .inr []
  | r :: l =>
    match pagesOf s p r.2.2 (r.2.1 / 65536 + 2) r.1 r.2.1 with
    | .inl f => .inl (f.1, r.2.2, f.2)
    | .inr a => match rangePages s p l with
      | .inl f => .inl f
      | .inr b => .inr (a ++ b)

/-- A failure of a read: code of R313, cause, home. -/
abbrev ReadFail := Option (Nat × Nat × Nat)

/-- A sector's bytes as an engine of a die reads them, or why it fails (R313). The read takes its course through the line's agents, which
act on what they find (R234, R239). -/
def readSector (s : State) (d : Nat) (q : Place) (n : Nat) : State × List (Option Byte) × ReadFail :=
  let none_ := List.replicate n (none : Option Byte)
  let home := placeDie q.cls q.pa
  match (if home = d then none else unreach s d home) with
  | some c => (s, none_, some (2, c, home))
  | none =>
    if q.cls = 4 then (s, (bytesAt s 4 q.pa n).map some, none)
    else
      let (s', cause) := visit s (q.pa / 64) q.cls
      let bad := cause ≠ 0 || poisoned s' (q.pa / 64)
      let s := postRead s d q.cls q.pa
      if bad then (s, none_, some (1, 0, home)) else (s, (bytesAt s' q.cls q.pa n).map some, none)

/-- The first of two failures. -/
def firstFail (a b : ReadFail) : ReadFail := a.orElse fun _ => b

/-- Bytes of an operation's range, sector by sector. -/
def readRange (s : State) (p : Op) : Nat → Nat → Nat → State × List (Option Byte) × ReadFail
  | 0, _, _ => (s, [], none)
  | fuel + 1, va, n =>
    if n = 0 then (s, [], none) else
    let k := min n (32 - va % 32)
    let (s, a, f) := match transAt p va with
      | some q => readSector s (dieOfCore p.core) q k
      | none => (s, List.replicate k none, some (2, 1, dieOfCore p.core))
    let (s, b, g) := readRange s p fuel (va + k) (n - k)
    (s, a ++ b, firstFail f g)

/-- Bytes of an operation's range. -/
def readBytes (s : State) (p : Op) (va : Dword) (n : Nat) : State × List (Option Byte) × ReadFail :=
  readRange s p (n / 32 + 2) va.toNat n

/-- Bytes of the issuing die's cellar. -/
def readCellar (s : State) (p : Op) (off n : Nat) : List (Option Byte) :=
  (bytesAt s 4 (2 ^ 27 * dieOfCore p.core + off) n).map some

/-- Records the failure of a read. -/
def noteRead (s : State) (o : Nat) (va : Dword) (f : ReadFail) : State :=
  match f with
  | some (code, cause, home) => noteFail s o code cause home va
  | none => s

/-- The unloaded latency λ of a source in clk (R310, Table 9-1). -/
def srcClk (s : State) (p : Op) (q : Option Place) : Nat :=
  let d := dieOfCore p.core
  match q with
  | some q =>
    let home := placeDie q.cls q.pa
    if q.cls = 4 ∧ home = d then 48
    else if home = d ∧ (s.die d).held.any (fun e => e.1 = q.pa / 64) then 96
    else readClk s d home
  | none => 144

/-! ### The queue (R309, R310) -/

/-- The unit of an operation: 0 weight loader, 1 array, 2 tile unit. -/
def unitOfOp (k : Opc) : Nat :=
  match k with
  | .wld => 0
  | .wswp | .mma | .mms | .mmg => 1
  | _ => 2

/-- The Anvil operations of a cohort not yet complete that name a tile. -/
def tileOpsOf (s : State) (core : Nat) (epoch : BitVec 16) (tile : Nat) : List Nat :=
  s.ops.filterMap fun o =>
    if o.2.core = core ∧ o.2.epoch = epoch ∧ o.2.cls = 2 ∧ o.2.stage < 3 ∧ namesTile o.2.kind ∧ o.2.tile = tile then some o.1 else none

/-- The Anvil operations of a core's cohort not yet complete that name a tile. -/
def tileOps (s : State) (core tile : Nat) : List Nat := tileOpsOf s core (s.core core).epoch tile

/-- Threads of a core wait at an ACCR or ACCW of the tile that comes before operation `o` (R309, R321). -/
def tileHeldFor (s : State) (core tile o : Nat) : Bool :=
  s.threads.any fun t => decide (coreOfThread t.1 = core) && ((match t.2.hold with
    | .tile k m => decide (k = tile ∧ m ≤ o)
    | _ => false) || (match t.2.pass with
    | some (k, m) => decide (k = tile ∧ m ≤ o)
    | none => false))

/-- Operation `e` of the same tile lets `o` start (R309): it has retired, or both are array operations and its last row has
entered. -/
def tileClear (s : State) (before : List Nat) (o e : Nat) : Bool :=
  let a := s.op o
  let b := s.op e
  if e = o then true
  else if isArray a.kind && isArray b.kind then !before.contains e || (decide (b.stage = 2) && decide (b.enter < s.clk))
  else !decide (e < o)

/-- The first clk in which a queued operation may start as far as it is known; none while it waits for another to end. -/
def startClk (s : State) (core o : Nat) : Option Nat :=
  let c := s.core core
  let p := s.op o
  let before := c.anvilQ.takeWhile (· ≠ o)
  let sameUnit := before.filter fun e => unitOfOp (s.op e).kind = unitOfOp p.kind
  let waits (k : Nat → Bool) : Bool := before.any k
  let tileOk := !namesTile p.kind ||
    ((tileOpsOf s core p.epoch p.tile).all (tileClear s before o) && !(decide (c.epoch = p.epoch) && tileHeldFor s core p.tile o))
  let ended := if namesTile p.kind then kvGet (0, 0) (setOf s p).tileEnd p.tile else (0, 0)
  if p.stage ≠ 1 ∨ p.held ∨ (c.epoch = p.epoch ∧ (c.saving.isSome ∨ c.restarting)) ∨ !tileOk then none
  else match unitOfOp p.kind with
    | 0 =>
      if !sameUnit.isEmpty ∨ waits (fun e => (s.op e).kind = .wswp) then none else some (max s.clk c.loaderFree)
    | 1 =>
      if p.kind = .wswp then
        if waits (fun e => (s.op e).kind = .wld ∨ (s.op e).kind = .wswp ∨ (isArray (s.op e).kind ∧ (s.op e).stage ≠ 2)) then none
        else some (max (max s.clk (p.issued + 1)) (max c.loaderFree (c.lastRow + 1)))
      else if sameUnit.any (fun e => !(isArray (s.op e).kind && decide ((s.op e).stage = 2))) then none
      else some (max (max (max s.clk c.arrayFree) ended.2) (p.issued + (if p.kind = .mma then 1 else 48)))
    | _ => if sameUnit.any (fun e => (s.op e).stage ≠ 2) then none else some (max (max s.clk c.tileFree) (max ended.1 ended.2))

/-- The event by which an operation starts. -/
def startEv (k : Opc) (o : Nat) : Ev :=
  match k with
  | .wld => .weightLoadStart o
  | .wswp => .wswpTakesEffect o
  | .mma | .mms | .mmg => .arrayOperationStart o
  | _ => .tileUnitComplete o

/-- An element converted to the destination format of ACCS (R323). -/
def accsElem (fmt : Nat) (sat : Bool) (v : Word) : List Byte :=
  match fmt with
  | 0 => leBytes 4 v.toNat
  | 1 => leBytes 2 (fcvtBits fmtF32 fmtBF16 0 false v.toNat).1
  | 2 => leBytes 2 (fcvtBits fmtF32 fmtF16 0 false v.toNat).1
  | 3 => leBytes 1 (cvt8 fmtF32 fmtE4M3 0 sat v.toNat).1
  | _ => leBytes 1 (cvt8 fmtF32 fmtE5M2 0 sat v.toNat).1

/-- The rows that an ACCS reads of its tile, in the destination format. No other operation changes the tile while it reads (R309). -/
def accsRead (s : State) (p : Op) : List (List Byte) :=
  let k := kvGet [] (setOf s p).tiles p.tile
  (List.range p.rows).map fun i => (List.range 64).flatMap fun j => accsElem p.fmt p.sat (kvGet 0 k (64 * (p.row0 + i) + j))

/-- The operations of a core's queue that may start have their start on the agenda; ACCZ, ACCM and ACCS start at once. -/
def pollAnvil (s : State) (core : Nat) : State :=
  (s.core core).anvilQ.foldl (fun s o =>
    let p := s.op o
    match startClk s core o with
    | some t =>
      let e := startEv p.kind o
      if s.posted e then s
      else if unitOfOp p.kind = 2 then
        if t ≠ s.clk then s else
        let n := if p.kind = .accs then 64 else 16
        let rows := if p.kind = .accs then accsRead s p else []
        ((s.modOp o fun p => { p with stage := 2, start := s.clk, acts := rows }).modCore core fun c => { c with tileFree := s.clk + n }).post (n - 1) e
      else s.post (t - s.clk) e
    | none => s) s

/-- Every Anvil queue is looked at. -/
def pollAnvils (s : State) : State :=
  (s.cores.filter fun c => !c.2.anvilQ.isEmpty).foldl (fun s c => pollAnvil s c.1) s

/-- The clk of the start event is still right. -/
def mayStart (s : State) (o : Nat) : Bool :=
  (s.ops.any fun x => x.1 = o) && startClk s (s.op o).core o = some s.clk

/-! ### Events of the units -/

/-- WEIGHT_LOAD_START, R310. -/
def evWeightLoadStart (s : State) (o : Nat) : State :=
  if !mayStart s o then s else
  let p := s.op o
  let n := tileBytes p.wfmt + (if p.bx then 128 else 0)
  (s.modOp o fun p => { p with stage := 2, start := s.clk }).post (srcClk s p (transAt p p.src.toNat) + (n + 511) / 512) (.weightLoadComplete o)

/-- WEIGHT_LOAD_COMPLETE, R310, R315: the shadow buffer takes the tile. -/
def evWeightLoadComplete (s : State) (o : Nat) : State :=
  if !(s.ops.any fun x => x.1 = o) then s else
  let p := s.op o
  let (s, data, f) := readBytes s p p.src (tileBytes p.wfmt)
  let (s, scale, g) := if p.bx then readBytes s p p.idx 128 else (s, [], none)
  let s := noteRead s o p.src (firstFail f g)
  let s := modSet s p fun x => { x with shadow := { fmt := p.wfmt, bx := p.bx, data := data, scale := scale } }
  finishOp (s.modCore p.core fun c => { c with loaderFree := s.clk + 1 }) o

/-- WSWP_TAKES_EFFECT, R316. -/
def evWswpTakesEffect (s : State) (o : Nat) : State :=
  if !mayStart s o then s else
  finishOp (modSet s (s.op o) fun x => { x with active := x.shadow, shadow := x.active }) o

/-- The buffer of an MMS or MMG at its start: it still holds its declaration, FULL or DRAINING (R318). -/
def bufReady (s : State) (p : Op) : Bool :=
  match p.buf with
  | some b =>
    let x := kvGet {} (s.die (dieOfCore p.core)).buf b
    x.decl && decide (x.serial = p.serial) && decide (2 ≤ x.state)
  | none => true

/-- A copy-out event of .drain on the operation's buffer (R318). -/
def drainNote (s : State) (p : Op) (f : Buf → Buf) : State :=
  match p.buf with
  | some b =>
    let d := dieOfCore p.core
    if p.drain && decide ((kvGet {} (s.die d).buf b).serial = p.serial) then bufNote s d b f else s
  | none => s

/-- The operation ends at once without touching its tile (R313). -/
def anvilEnd (s : State) (o code : Nat) : State := finishOp (noteFail s o code 0 (dieOfCore (s.op o).core) 0) o

/-- The activation rows of a buffer from an offset on, `n` of them followed by their scale bytes (R318, R319). -/
def bufRows (s : State) (p : Op) (n : Nat) : List Row :=
  let rb := rowBytes p.fmt 64
  let l := readCellar s p p.base (n * rb + if p.bx then 2 * n else 0)
  (List.range n).map fun j => rowOf p.fmt 64 l (j * rb) (if p.bx then some (l, n * rb + 2 * j) else none)

/-- Rows of an operation added into its tile from row `at_` on. -/
def addRows (s : State) (p : Op) (w : Weights) (at_ : Nat) (rows : List Row) : State :=
  modOpTile s p fun k => rows.zipIdx.foldl (fun k r => addRow p.z w w.fmt (at_ + r.2) r.1 k) k

/-- An array operation of `rows` rows runs for `occ` clks, its last row entering after `last` (R310, R414). -/
def runArray (s : State) (o rows occ last : Nat) : State :=
  let core := (s.op o).core
  let s := pmcAt s core (s.op o).epoch 8 rows
  let s := s.modOp o fun p => { p with stage := 2, start := s.clk, enter := s.clk + last, due := s.clk + last + 72 }
  (s.modCore core fun c => { c with arrayFree := s.clk + occ, lastRow := s.clk + last }).post last (.arrayOperationRetire o)

/-- The groups of an MMG in turn: each with its weights, rows and clks. -/
def runGroups (s : State) (o : Nat) (rows : List Row) : List Nat → Nat → Nat → Nat → State × Nat
  | [], _, _, clks => (s, clks)
  | c :: rest, g, j, clks =>
    let p := s.op o
    if c = 0 then runGroups s o rows rest (g + 1) j clks
    else
      let tb := tileBytes p.wfmt
      let w := tb + (if p.wbx then 128 else 0)
      let a := p.src + BitVec.ofNat 64 (g * w)
      let (s, data, f) := readBytes s p a tb
      let (s, scale, f') := if p.wbx then readBytes s p (a + BitVec.ofNat 64 tb) 128 else (s, [], none)
      let s := noteRead s o a (firstFail f f')
      let ws : Weights := { fmt := p.wfmt, bx := p.wbx, data := data, scale := scale }
      let s := addRows s p ws (p.row0 + j) (sliceL rows j c)
      runGroups s o rows rest (g + 1) (j + c) (clks + max (occClks p.wfmt c) (srcClk s p (transAt p a.toNat) + (w + 511) / 512))

/-- ARRAY_OPERATION_START, R309, R317 to R319: the rows are taken, and their results added to the tile, which no other
operation may look at before this one has retired. -/
def evArrayOperationStart (s : State) (o : Nat) : State :=
  if !mayStart s o then s else
  let p := s.op o
  let act := (setOf s p).active
  let wf := if p.kind = .mmg then p.wfmt else act.fmt
  if !bufReady s p then anvilEnd s o 3
  else
    let s := drainNote s p fun x => { x with outStart := x.outStart + 1 }
    let finish (s : State) : State := drainNote s p fun x => { x with outDone := x.outDone + 1 }
    if !pairOk wf p.fmt then anvilEnd (finish s) o 4
    else match p.kind with
      | .mma =>
        let rows := p.acts.map fun l => let l := l.map some
          rowOf p.fmt 64 l 0 (if p.bx then some (l, rowBytes p.fmt 64) else none)
        runArray (addRows s p act p.row0 rows) o p.rows (occClks wf p.rows) (lastRowClk wf p.rows)
      | .mms => runArray (addRows s p act p.row0 (bufRows s p p.rows)) o p.rows (occClks wf p.rows) (lastRowClk wf p.rows)
      | _ =>
        let (s, tab, f) := readBytes s p p.idx (4 * p.n)
        let s := noteRead s o p.idx f
        let cs := (List.range p.n).map fun g => (List.range 4).foldl (fun a i => a + (byteAt tab (4 * g + i)).getD 0 * 256 ^ i) 0
        let total := cs.foldl (· + ·) 0
        let size := match p.buf with
          | some b => (kvGet {} (s.die (dieOfCore p.core)).buf b).size
          | none => 0
        if f.isSome ∨ cs.any (fun c => decide (128 ≤ c)) ∨ 64 < p.row0 + total
            ∨ size < total * rowBytes p.fmt 64 + (if p.bx then 2 * total else 0) then anvilEnd (finish s) o 5
        else
          let (s, clks) := runGroups s o (bufRows s p total) cs 0 0 0
          runArray s o total clks (clks - 1)

/-- ARRAY_OPERATION_RETIRE, R310: the last row enters, and 72 clks later the operation retires. -/
def evArrayOperationRetire (s : State) (o : Nat) : State :=
  if !(s.ops.any fun x => x.1 = o) then s else
  let p := s.op o
  if s.clk < p.due then
    (drainNote s p fun x => { x with outDone := x.outDone + 1 }).post (p.due - s.clk) (.arrayOperationRetire o)
  else finishOp s o

/-- The rows of an ACCS with their addresses. -/
def accsRows (p : Op) : List (Nat × List Byte) := p.acts.zipIdx.map fun r => ((p.dst.toNat + r.2 * p.n) % 2 ^ 64, r.1)

/-- Bytes at an address cut into the pieces that a write covers (R288). -/
def cutPieces (p : Op) (va : Nat) (l : List Byte) : List (Piece × List Byte) :=
  (runsOf (fun e => va + e) 32 l.length 0).filterMap fun r =>
    (transAt p r.2.1).map fun q => ({ off := 0, len := r.2.2, va := r.2.1, cls := q.cls, pa := q.pa }, sliceL l r.1 r.2.2)

/-- An add-on-store goes to its home die whole (R324). -/
def sendAdd (s : State) (o : Nat) : State :=
  let p := s.op o
  let d := dieOfCore p.core
  match transAt p p.dst.toNat with
  | none => anvilEnd s o 2
  | some q =>
    let home := placeDie q.cls q.pa
    let s := modChunk s o 0 fun _ => { phase := 1 }
    if home = d then s.post 48 (.accsAddOnStore o)
    else match unreach s d home with
      | some c => finishOp ((noteFail s o 2 c home p.dst).modOp o fun p => { p with chunks := [] }) o
      | none => sendReq s d home (.accsAddOnStore o)

/-- TILE_UNIT_COMPLETE, R310, R320, R323: the tile unit is done; an ACCS now sends its writes. -/
def evTileUnitComplete (s : State) (o : Nat) : State :=
  if !(s.ops.any fun x => x.1 = o) then s else
  let p := s.op o
  match p.kind with
  | .accz => finishOp (modOpTile s p fun _ => []) o
  | .accm =>
    finishOp (modOpTile s p fun k => (List.range 4096).foldl (fun a i =>
      putElem a i (BitVec.ofNat 32 (fmulBits fmtF32 0 false (kvGet 0 k i).toNat p.value.toNat).1)) []) o
  | _ =>
    if p.add then sendAdd s o
    else
      let ws := (accsRows p).flatMap fun r => cutPieces p r.1 r.2
      sendWrites (modChunk s o 0 fun _ => { phase := 2 }) o 0 .ewr ws

/-- The addition of R196 on the elements of a row in the destination format. -/
def addFmt (fmt : Nat) (old new : List Byte) : List Byte :=
  let n := if fmt = 0 then 4 else 2
  let f := if fmt = 0 then fmtF32 else if fmt = 1 then fmtBF16 else fmtF16
  (List.range (new.length / n)).flatMap fun i =>
    leBytes n (faddBits f 0 false (bytesNat (sliceL old (n * i) n)) (bytesNat (sliceL new (n * i) n))).1

/-- The pieces of an add-on-store. -/
def addPieces (p : Op) : List (Piece × List Byte) := (accsRows p).flatMap fun r => cutPieces p r.1 r.2

/-- The lines of an add-on-store at its home. -/
def addLines (p : Op) : List Nat :=
  (addPieces p).foldl (fun l w => if w.1.cls = 4 then l else insertNat (w.1.pa / 64) l) []

/-- An add-on-store may begin: it holds all its lines, and what came before it to its bank words has been served (R324). -/
def addBegins (s : State) (home o : Nat) : Bool :=
  let p := s.op o
  let ws := addWords p
  (addLines p).all (fun l => let t := txnAt s home l
    decide (t.ev = some (.accsAddOnStore o)) && decide (t.await = [selfMark]))
  && !(s.reqs.any fun r => r.2.cls = 4 && decide (r.2.stage = 1 ∧ 0 < r.2.arrived ∧ r.2.arrived < p.came) && ws.contains (r.2.pa / 32))

/-- One piece of an add-on-store is added, if nothing refuses it, with the bytes that have landed so far. -/
def addPiece (home o : Nat) (a : State × Nat) (w : Piece × List Byte) : State × Nat :=
  let (s, n) := a
  let p := s.op o
  let q := w.1
  let va : Dword := BitVec.ofNat 64 q.va
  let add (s : State) : State :=
    let b := addFmt p.fmt (bytesAt s q.cls q.pa q.len) w.2
    afterWrite (putBytes s q.cls q.pa b) p.core q.cls q.pa false b
  if q.cls = 4 then
    match bufAt s home q.pa with
    | some (b, x) => if 2 ≤ x.state then (noteFail s o 3 0 home va, n) else (bufCount (add s) home b q.len, n + q.len)
    | none => (add s, n + q.len)
  else if poisoned s (q.pa / 64) then (noteFail s o 1 0 home va, n)
  else (add s, n + q.len)

/-- ACCS_ADD_ON_STORE, R324: it comes to its home, takes its place on every line, and once it holds them all is applied in one clk. -/
def evAccsAddOnStore (s : State) (o : Nat) : State :=
  if !(s.ops.any fun x => x.1 = o) then s else
  let p := s.op o
  let ps := addPieces p
  let home := match ps with
    | w :: _ => placeDie w.1.cls w.1.pa
    | [] => dieOfCore p.core
  let ls := addLines p
  match (kvGet {} p.chunks 0).phase with
  | 1 =>
    let s := modChunk (s.modOp o fun p => { p with came := s.clk }) o 0 fun c => { c with phase := 2 }
    (ls.foldl (fun s l => lineArrive s home l l (.accsAddOnStore o)) s).post 0 (.accsAddOnStore o)
  | 2 =>
    if !addBegins s home o then
      if ls.isEmpty && !s.posted (.accsAddOnStore o) then s.post 1 (.accsAddOnStore o) else s
    else
      let (s, n) := ps.foldl (addPiece home o) (s, 0)
      let s := modChunk s o 0 fun c => { c with phase := 3, size := if p.stage < 3 then n else 0 }
      let s := ls.foldl (fun s l => goLine (modTxn s home l fun t => { t with ev := none, await := [] }) home l l) s
      if pkgOfDie home = pkgOfCore p.core ∨ 3 ≤ p.stage then s.post 0 (.chunkComplete o 0) else sendRep s home (dieOfCore p.core) (.chunkComplete o 0)
  | _ => s

/-! ### Convergence rounds (R278, R317) -/

/-- The fragment registers of a signer: data, then its exponent register (Table 15-4). -/
def fragRegs (p : Op) : List Nat :=
  (List.range (rowBytes p.fmt 64 / 4)).map (p.base + ·) ++ (if p.bx then [p.n] else [])

/-- ROUND_FIRE, R278: the bound operation issues with the signers' rows, every signer is released with its ticket. -/
def evRoundFire (s : State) (core i : Nat) : State :=
  let c := cvAt s core i
  match c.bound with
  | none => s
  | some o =>
    let p := s.op o
    if c.size = 0 ∨ c.signers.length ≠ c.size then s
    else if c.signers.any fun t => (fragRegs p).any fun r => !(s.greg t r).full || decide (s.clk < (s.greg t r).rdy) then
      s.post 1 (.roundFire core i)
    else
      let rows := c.signers.map fun t => (fragRegs p).flatMap fun r => wordBytes (s.greg t r).v
      let s := modCv s core i fun _ => {}
      let s := c.signers.zipIdx.foldl (fun s e =>
        let mine (h : Hold) : Bool := match h with
          | .round v _ => decide (v = i)
          | _ => false
        match s.holdWhere e.1 mine with
        | some (.round _ r) => (s.setG e.1 r (BitVec.ofNat 32 e.2) (s.clk + 6)).releaseWhere e.1 12 mine
        | _ => s) s
      if !(s.ops.any fun x => x.1 = o) then s else
      pollAnvil ((s.modOp o fun p => { p with acts := rows, issued := s.clk }).modCore core fun k => { k with anvilQ := k.anvilQ ++ [o] }) core

/-! ### Issue (R311) -/

/-- The hold of R280 and R309 on a sub-run that would issue one Anvil operation. -/
def anvilNeed (s : State) (w : Nat) : Option Hold :=
  if 64 ≤ (s.core (coreOfWarp w)).anvilQ.length ∨ counterFull s w 2 1 then some (.anvilQueue 2) else none

/-- An instruction that issues one operation for its sub-run, in the clk of its first thread and with its registers. -/
def anvilSub (x : Ins) (body : Nat → Vals → State → (Nat × Nat × Dword) ⊕ Op) (ps : List Nat) (s : State) : TOut :=
  let t := ps.headD 0
  match anvilNeed s (t / 32) with
  | some h => .stay h s
  | none =>
    match gather s x t with
    | .fault c => .fault c 0 0 s
    | .drop p v => dropAt s p true (match body t v s with
      | .inl (c, acc, a) => .fault c acc a s
      | .inr _ => .ok s)
    | .vals v =>
      match body t v s with
      | .inl (c, acc, a) => .fault c acc a s
      | .inr p =>
        let (o, s) := issueOp s ps p
        .ok (s.modCore p.core fun k => { k with anvilQ := k.anvilQ ++ [o] })

/-- Checks 3 and 4 of R311 on addresses with their alignment. -/
def addrFault (l : List (Dword × Nat)) : Option (Nat × Nat × Dword) :=
  match l.find? fun a => a.1.extractLsb' 56 8 ≠ 0 with
  | some a => some (7, 0, a.1)
  | none => match l.find? fun a => a.1.toNat % a.2 ≠ 0 with
    | some a => some (8, 0, a.1)
    | none => none

/-- Check 5 and the class of a B page without a region (R251), then the rest. -/
def withPages (s : State) (p : Op) (l : List (Nat × Nat × Nat)) (k : List Trans → (Nat × Nat × Dword) ⊕ Op) : (Nat × Nat × Dword) ⊕ Op :=
  match rangePages s p l with
  | .inl (c, acc, a) => .inl (c, acc, BitVec.ofNat 64 a)
  | .inr ts => k ts

/-- WLD (R315). -/
def wldBody (x : Ins) (t : Nat) (v : Vals) (s : State) : (Nat × Nat × Dword) ⊕ Op :=
  let a : Dword := BitVec.ofNat 64 v.a
  let b : Dword := BitVec.ofNat 64 v.b
  let bx := x.ib 4
  let p := { opOf s t .wld 2 with src := a, idx := b, wfmt := x.ifld 0 4, bx := bx, scope := x.scope }
  match addrFault ((a, 64) :: if bx then [(b, 32)] else []) with
  | some f => .inl f
  | none => withPages s p ((a.toNat, tileBytes p.wfmt, 1) :: if bx then [(b.toNat, 128, 1)] else []) fun ts => .inr { p with trans := ts }

/-- WSWP (R316). -/
def wswpBody (_ : Ins) (t : Nat) (_ : Vals) (s : State) : (Nat × Nat × Dword) ⊕ Op := .inr (opOf s t .wswp 2)

/-- Checks 7 of R311: the buffer's record, its range where the offset is `known`, its state. -/
def bufCheck (s : State) (t b off n : Nat) (known : Bool) : Option Nat :=
  let core := coreOfThread t
  let r := kvGet {} (s.die (dieOfCore core)).buf b
  if !(r.decl && decide (r.from_ ≤ s.clk) && decide (r.owner = s.asidOf core)) then some 16
  else if known && (off % 32 ≠ 0 || decide (r.size < off + n)) then some 16
  else if known && decide (r.state ≤ 1) then some 15
  else none

/-- An operation of an MMS or MMG on its buffer. -/
def onBuf (s : State) (p : Op) (b off : Nat) : Op :=
  let r := kvGet {} (s.die (dieOfCore p.core)).buf b
  { p with buf := some b, serial := r.serial, base := r.base + off }

/-- MMS (R318). -/
def mmsBody (x : Ins) (t : Nat) (v : Vals) (s : State) : (Nat × Nat × Dword) ⊕ Op :=
  let n := x.ifld 8 6 + 1
  let bx := x.ib 20
  let fmt := x.ifld 16 4
  let b := x.f.a.toNat
  match bufCheck s t b v.b (n * rowBytes fmt 64 + if bx then 2 * n else 0) (!v.lackB) with
  | some c => .inl (c, 0, 0)
  | none => .inr (onBuf s { opOf s t .mms 2 with
      tile := x.f.d.toNat, row0 := x.ifld 0 6, rows := n, fmt := fmt, bx := bx, z := x.ib 21, drain := x.ib 22, scope := x.scope } b v.b)

/-- MMG (R319). -/
def mmgBody (x : Ins) (t : Nat) (v : Vals) (s : State) : (Nat × Nat × Dword) ⊕ Op :=
  let n := x.ifld 8 6 + 1
  let tab : Dword := BitVec.ofNat 64 v.b
  let w : Dword := BitVec.ofNat 64 v.c
  let p := { opOf s t .mmg 2 with
    tile := x.f.d.toNat, row0 := x.ifld 0 6, n := n, fmt := x.ifld 16 4, bx := x.ib 20, z := x.ib 21, drain := x.ib 22
    wfmt := x.ifld 24 4, wbx := x.ib 28, idx := tab, src := w, scope := x.scope }
  match addrFault [(tab, 4), (w, 64)] with
  | some f => .inl f
  | none =>
    withPages s p [(tab.toNat, 4 * n, 1), (w.toNat, n * (tileBytes p.wfmt + if p.wbx then 128 else 0), 1)] fun ts =>
      match bufCheck s t x.f.a.toNat 0 0 true with
      | some c => .inl (c, 0, 0)
      | none =>
        let p := { p with trans := ts }
        if (List.range (4 * n)).any fun i => match transAt p (tab.toNat + i) with
            | some q => decide (q.cls ≠ 4)
            | none => true then .inl (23, 0, 0)
        else .inr (onBuf s p x.f.a.toNat 0)

/-- ACCZ and ACCM (R320). -/
def acczBody (x : Ins) (t : Nat) (v : Vals) (s : State) : (Nat × Nat × Dword) ⊕ Op :=
  .inr { opOf s t x.o 2 with tile := x.f.d.toNat, value := BitVec.ofNat 32 v.a }

/-- ACCS (R323, R324). Of a pitch that is not known, because a queue port lacks it, the first row alone is checked. -/
def accsBody (x : Ins) (t : Nat) (v : Vals) (s : State) : (Nat × Nat × Dword) ⊕ Op :=
  let a : Dword := BitVec.ofNat 64 v.a
  let fmt := x.ifld 17 3
  let n := x.ifld 8 6 + 1
  let h : Word := BitVec.ofNat 32 v.c
  let add := x.ib 20
  let p := { opOf s t .accs 2 with
    tile := x.f.d.toNat, row0 := x.ifld 0 6, rows := n, fmt := fmt, dst := a, n := v.b, add := add, sat := x.ib 21
    scope := x.scope, bar := if x.ib 16 then some h else none }
  let rows := (List.range (if v.lackB then 1 else n)).map fun i => a + BitVec.ofNat 64 (i * v.b)
  match addrFault ((rows.map fun r => (r, 1)) ++ [(a, 32), (BitVec.ofNat 64 (if v.lackB then 0 else v.b % 32), 32)]) with
  | some f => .inl f
  | none =>
    withPages s p (rows.map fun r => (r.toNat, accsRow fmt, 2)) fun ts =>
      let homes := ts.foldl (fun l q => insertNat (if q.cls = 4 then 4096 + q.pbase / 2 ^ 27 else homeDie q.pbase) l) []
      if add && ts.any (fun q => q.cls = 3) then .inl (9, 0, a)
      else if x.ib 16 && !v.lackC && !live s h p.asid then .inl (19, 0, 0)
      else if !v.lackB && decide (v.b < accsRow fmt) then .inl (23, 0, 0)
      else if add && decide (1 < homes.length) then .inl (23, 0, 0)
      else .inr { p with trans := ts }

/-- WLD, WSWP, MMS, MMG, ACCZ, ACCM and ACCS as instructions (R311). -/
def anvilIns (body : Ins → Nat → Vals → State → (Nat × Nat × Dword) ⊕ Op) (x : Ins) (s : State) : Out :=
  perSubrun x id noEnd (anvilSub x (body x)) s

/-- MMA binds to the current round of its convergence register (R317). -/
def mmaSub (x : Ins) (ps : List Nat) (s : State) : TOut :=
  let t := ps.headD 0
  let core := coreOfThread t
  let i := x.f.a.toNat
  let n := x.ifld 8 6 + 1
  let c := cvAt s core i
  match anvilNeed s (t / 32) with
  | some h => .stay h s
  | none =>
    if c.bound.isSome ∨ (c.size ≠ 0 ∧ c.size ≠ n) then .fault 22 0 0 s
    else
      let p := { opOf s t .mma 2 with
        tile := x.f.d.toNat, row0 := x.ifld 0 6, rows := n, fmt := x.ifld 16 4, bx := x.ib 20, z := x.ib 21
        base := x.f.b.toNat, n := x.f.c.toNat, bound := s.clk }
      let (o, s) := issueOp s ps p
      .ok (cvTest (modCv s core i fun c => { c with size := n, bound := some o }) core i)

/-- MMA (R317). -/
def mma (x : Ins) (s : State) : Out := perSubrun x id noEnd (mmaSub x) s

/-! ### ACCR and ACCW (R321, R322) -/

/-- The elements of an access of a width code. -/
def accWidth (x : Ins) : Nat := if x.width = 1 then 2 else if x.width = 2 then 4 else 1

/-- A thread at a tile: held until every earlier operation of the tile has retired. -/
def atTile (s : State) (t tile : Nat) (k : State → TOut) : TOut :=
  let core := coreOfThread t
  let mark := match (s.thread t).pass with
    | some (_, m) => m
    | none => s.nextId
  if (tileOps s core tile).any (fun o => decide (o < mark)) then .stay (.tile tile mark) s
  else k (s.modThread t fun h => { h with pass := none })

/-- ACCR of one thread. -/
def accrThread (x : Ins) (t : Nat) (s : State) : TOut :=
  match gather s x t with
  | .fault c => .fault c 0 0 s
  | .drop p _ => .stay (.queue p true s.clk) s
  | .vals v =>
    let n := accWidth x
    let pos := if x.mb 1 then x.f.imm.toNat else v.b
    let c := natBits pos 0 6
    let i := natBits pos 8 6
    let tile := x.f.a.toNat
    if c % n ≠ 0 then .fault 23 0 0 s
    else atTile s t tile fun s =>
      let core := coreOfThread t
      let val := (List.range n).foldl (fun a m => a + (tileAt s core tile i (c + m)).toNat * 2 ^ (32 * m)) 0
      let (tag, s) := s.fresh
      .ok ((s.emptyG t x.f.d.toNat tag n).post 8 (.producerLanding
        { thread := t, reg := x.f.d.toNat, n := n, tag := tag, value := BitVec.ofNat 128 val, epoch := (s.core core).epoch, req := 0 }))

/-- ACCR.st (R322): the word is read and cleared once, and lands in every thread as the results of ACCR do. -/
def accrSt (x : Ins) (s : State) : Out :=
  perSubrun x id noEnd (fun ps s =>
    let w := ps.headD 0 / 32
    let v := (s.warp w).anvil
    let s := s.modWarp w fun h => { h with anvil := 0 }
    .ok (ps.zipIdx.foldl (fun s p =>
      let (tag, s) := s.fresh
      (s.emptyG p.1 x.f.d.toNat tag 1).post (8 + p.2) (.producerLanding
        { thread := p.1, reg := x.f.d.toNat, n := 1, tag := tag, value := v.setWidth 128, epoch := (s.core (coreOfWarp w)).epoch, req := 0 })) s)) s

/-- ACCR (R321). -/
def accr (x : Ins) (s : State) : Out := if x.mb 0 then accrSt x s else perThread x 1 noEnd (accrThread x) s

/-- ACCW of one thread with its operands. -/
def accwBody (x : Ins) (t : Nat) (v : Vals) (s : State) : TOut :=
  let n := accWidth x
  let pos := if x.mb 1 then x.f.imm.toNat else v.a
  let c := natBits pos 0 6
  let i := natBits pos 8 6
  let tile := x.f.d.toNat
  if c % n ≠ 0 then .fault 23 0 0 s
  else atTile s t tile fun s =>
    .ok (modTile s (coreOfThread t) tile fun k => (List.range n).foldl (fun k m =>
      putElem k (64 * i + c + m) (BitVec.ofNat 32 (v.b / 2 ^ (32 * m)))) k)

/-- ACCW of one thread. -/
def accwThread (x : Ins) (t : Nat) (s : State) : TOut :=
  match gather s x t with
  | .fault c => .fault c 0 0 s
  | .drop p v => dropAt s p (!v.lackA) (accwBody x t v s)
  | .vals v => accwBody x t v s

/-- ACCW (R321). -/
def accw (x : Ins) (s : State) : Out := perThread x 1 noEnd (accwThread x) s

/-! ### Press units (R325 to R327) -/

/-- The vector format that goes with a weight format (R326). -/
def vecFmt (wf : Nat) : Nat := if wf = 4 then 2 else wf

/-- MVB's checks (R326). -/
def mvbBody (x : Ins) (t : Nat) (v : Vals) (s : State) : (Nat × Nat × Dword) ⊕ Op :=
  let a : Dword := BitVec.ofNat 64 v.a
  let b : Dword := BitVec.ofNat 64 v.b
  let c : Dword := BitVec.ofNat 64 v.c
  let n := natBits x.lit.toNat 0 16 + 1
  let k := (natBits x.lit.toNat 16 12 + 1) * 32
  let pitch := natBits x.lit.toNat 28 32 * 32
  let wf := (x.f.m &&& 15).toNat
  let bx := x.mb 5
  let core := coreOfThread t
  let vn := rowBytes (vecFmt wf) k + (if x.mb 4 then k / 32 else 0)
  let p := { opOf s t .mvb 4 with
    src := a, dst := b, idx := c, n := n, rows := k, rop := pitch, wfmt := wf, bx := bx, wbx := x.mb 4, scope := 3 }
  let r := kvGet {} (s.die (dieOfCore core)).buf x.f.d.toNat
  match addrFault ([(a, 64), (b, 32)] ++ (if bx then [(c, 32)] else []) ++ [(BitVec.ofNat 64 (x.f.imm.toNat % 4), 4)]) with
  | some f => .inl f
  | none =>
    let rows := (List.range n).map fun i => ((a.toNat + i * pitch) % 2 ^ 64, rowBytes wf k, 1)
    match rangePages s p rows with
    | .inl (f, acc, e) => .inl (f, acc, BitVec.ofNat 64 e)
    | .inr mts =>
      withPages s p ((b.toNat, vn, 1) :: if bx then [(c.toNat, n * (k / 32), 1)] else []) fun ts =>
        let p := { p with trans := mts ++ ts }
        let onS := (List.range vn).all fun i => match transAt { p with trans := ts } (b.toNat + i) with
          | some q => decide (q.cls = 4)
          | none => false
        let stack (q : Trans) : Nat := 32 * pkgOfDie (homeDie q.pbase) + stackOf q.pbase
        let m := (mts.filter fun q => q.cls ≠ 4).map stack
        if mts.any fun q => q.cls = 0 ∨ q.cls = 3 ∨ q.cls = 4 then .inl (9, 0, a)
        else if !(r.decl && decide (r.from_ ≤ s.clk) && decide (r.owner = p.asid)) then .inl (16, 0, 0)
        else if r.size < x.f.imm.toNat + 4 * n then .inl (16, 0, 0)
        else if !onS ∨ pitch < rowBytes wf k then .inl (23, 0, 0)
        else if m.any (fun q => q ≠ m.headD 0 || q / 32 ≠ pkgOfCore core) then .inl (23, 0, 0)
        else .inr { p with base := r.base + x.f.imm.toNat }

/-- MVB (R325, R326). -/
def mvb (x : Ins) (s : State) : Out :=
  perSubrun x id noEnd (fun ps s =>
    let t := ps.headD 0
    if counterFull s (t / 32) 4 1 then .stay (.anvilQueue 4) s else
    match gather s x t with
    | .fault c => .fault c 0 0 s
    | .drop p _ => .stay (.queue p true s.clk) s
    | .vals v =>
      match mvbBody x t v s with
      | .inl (c, acc, a) => .fault c acc a s
      | .inr p => .ok (issueOp s ps p).2) s

/-- The clks for which a press operation keeps its stack's banks: its bytes at 9 TB/s (R12, R325, R327; notes/assumptions/1.md). -/
def pressClk (p : Op) : Nat := (p.n * (rowBytes p.wfmt p.rows + if p.bx then p.rows / 32 else 0) + 7499) / 7500

/-- A press operation takes its turn at its stack (R12, R325): its vector's way, the operations before it there, then its own bytes. -/
def startPress (s : State) (o : Nat) : State :=
  let p := s.op o
  let (d, k) := match transAt p p.src.toNat with
    | some q => (homeDie q.pa, stackOf q.pa)
    | none => (dieOfCore p.core, 0)
  let till := max (s.clk + 144) (kvGet 0 (s.die d).press k) + pressClk p
  ((s.modOp o fun p => { p with stage := 2, start := s.clk }).modDie d fun x => { x with press := kvSet x.press k till }).post
    (till - s.clk) (.pressOperation o)

/-- A result of the press (R327). -/
def pressDot (x y : Row) (k : Nat) : Word :=
  let bs := List.range (k / 32)
  let bank (q : Nat) : Option Nat :=
    match bs.filter fun b => b % 32 = q with
    | [] => none
    | l => some (sumRound (l.map (blockProds x y)))
  let r := (List.range 32).foldl (fun (a : Option Nat) q => match a, bank q with
    | a, none => a
    | none, some t => some t
    | some y, some t => some (faddBits fmtF32 0 false y t).1) none
  BitVec.ofNat 32 (r.getD 0)

/-- The rows of a press operation in turn: each result with the state after its reads. -/
def pressRows (s : State) (o : Nat) (p : Op) (vec : Row) : Nat → Nat → State × List Word
  | 0, _ => (s, [])
  | fuel + 1, i =>
    let a := p.src + BitVec.ofNat 64 (i * p.rop)
    let (s, data, f) := readBytes s p a (rowBytes p.wfmt p.rows)
    let (s, sc, g) := if p.bx then readBytes s p (p.idx + BitVec.ofNat 64 (i * (p.rows / 32))) (p.rows / 32) else (s, [], none)
    let s := noteRead s o a (firstFail f g)
    let w := pressDot (rowOf p.wfmt p.rows data 0 (if p.bx then some (sc, 0) else none)) vec p.rows
    let (s, l) := pressRows s o p vec fuel (i + 1)
    (s, w :: l)

/-- PRESS_OPERATION, R327: the banks compute the results, which go to the buffer. -/
def evPressOperation (s : State) (o : Nat) : State :=
  if !(s.ops.any fun x => x.1 = o) then s else
  let p := s.op o
  let vf := vecFmt p.wfmt
  let vb := rowBytes vf p.rows
  let (s, v, f) := readBytes s p p.dst (vb + if p.wbx then p.rows / 32 else 0)
  let s := noteRead s o p.dst f
  let (s, rs) := pressRows s o p (rowOf vf p.rows v 0 (if p.wbx then some (v, vb) else none)) p.n 0
  if !(s.ops.any fun x => x.1 = o) then s else
  let ws := rs.zipIdx.map fun r =>
    ({ off := 0, len := 4, va := 0, cls := 4, pa := 2 ^ 27 * dieOfCore p.core + p.base + 4 * r.2 : Piece }, wordBytes r.1)
  sendWrites (modChunk s o 0 fun _ => { phase := 2 }) o 0 .ewr ws

/-- WLD, R315: Issues a load of a weight tile into the shadow weight buffer. -/
def execWld (f : Long) (s : State) : Out := anvilIns wldBody (Ins.ofBody .wld (.long f)) s

/-- WSWP, R316: Issues an exchange of the active and shadow weight buffers. -/
def execWswp (f : Long) (s : State) : Out := anvilIns wswpBody (Ins.ofBody .wswp (.long f)) s

/-- MMA, R317: Binds a matrix operation on register rows to a convergence register round. -/
def execMma (f : Long) (s : State) : Out := mma (Ins.ofBody .mma (.long f)) s

/-- MMS, R318: Issues a matrix operation streaming rows from a declared buffer. -/
def execMms (f : Long) (s : State) : Out := anvilIns mmsBody (Ins.ofBody .mms (.long f)) s

/-- MMG, R319: Issues a grouped matrix operation with per-group weights. -/
def execMmg (f : Long) (s : State) : Out := anvilIns mmgBody (Ins.ofBody .mmg (.long f)) s

/-- ACCZ, R320: Issues a zeroing of an accumulator tile. -/
def execAccz (f : Long) (s : State) : Out := anvilIns acczBody (Ins.ofBody .accz (.long f)) s

/-- ACCR, R321: Reads accumulator tile elements into registers after the tile interlock. -/
def execAccr (f : Long) (s : State) : Out := accr (Ins.ofBody .accr (.long f)) s

/-- ACCR_ST, R322: Reads and clears the warp's Anvil status word. -/
def execAccrSt (f : Long) (s : State) : Out := accr (Ins.ofBody .accr (.long f)) s

/-- ACCW, R321: Writes registers into accumulator tile elements after the interlock. -/
def execAccw (f : Long) (s : State) : Out := accw (Ins.ofBody .accw (.long f)) s

/-- ACCS, R323: Issues a store or add-on-store of tile rows to memory. -/
def execAccs (f : Long) (s : State) : Out := anvilIns accsBody (Ins.ofBody .accs (.long f)) s

/-- MVB, R326: Issues a press matrix-vector multiply, of class V. -/
def execMvb (f : Long) (l : Dword) (s : State) : Out := mvb (Ins.ofBody .mvb (.longLit f l)) s

/-- ACCM, R320: Issues a scaling of every tile element by a w register value. -/
def execAccm (f : Long) (s : State) : Out := anvilIns acczBody (Ins.ofBody .accm (.long f)) s


end Sys2Proof.Machine
end

