-- ==== Sys2Proof/Machine/Rings.lean ====
section
/-! DEFINITION. Ring groups, collectives, hand-off arrivals and MAPQ, opcodes 0xD0 to 0xD6 and 0x90 (spec/16). -/

namespace Sys2Proof.Machine

/-! ### Groups (R330 to R333) -/

/-- The binding of a group on a die. -/
def bindOf (s : State) (d asid group : Nat) : Option RingBind :=
  (s.die d).binds.find? fun b => b.asid = asid && b.group = group

/-- The collective operations outstanding on a die for a group (R334). -/
def outTags (s : State) (d asid group : Nat) : List (Nat × Op) :=
  s.ops.filter fun o => o.2.cls = 3 && dieOfCore o.2.core = d && o.2.asid = asid && o.2.group = group && decide (o.2.stage < 3)

/-- The context of a binding slot has a cohort resident or saved on the die, or a tag outstanding there (R334). -/
def bindNeeded (s : State) (d : Nat) (b : RingBind) : Bool :=
  (s.cores.any fun c => decide (dieOfCore c.1 = d) && (match c.2.cohort with
    | some h => decide (h.ctx.asid = b.asid)
    | none => false))
  || (s.saved.any fun v => decide (v.2.asid = b.asid ∧ dieOfCore v.2.core = d))
  || s.ops.any fun o => o.2.cls = 3 && dieOfCore o.2.core = d && o.2.asid = b.asid && decide (o.2.stage < 3)

/-- Binding slots that nothing needs are freed (R334). -/
def freeBinds (s : State) (d : Nat) : State :=
  s.modDie d fun x => { x with binds := x.binds.filter (bindNeeded s d) }

/-- The thread has a write under way to some of the places that a table is read from (R212). -/
def ownWrite (s : State) (t : Nat) (ts : List Trans) : Option Trans :=
  ts.find? fun q => !(earlier s { thread := t, cls := q.cls, pa := q.pbase, size := q.size }).isEmpty

/-- RGSET of a sub-run (R332): the table is read in the clk of the first thread; gD lands after the read's latency, and the
binding takes effect in the clk after. -/
def rgsetSub (x : Ins) (ps : List Nat) (s : State) : TOut :=
  let t := ps.headD 0
  let core := coreOfThread t
  let d := dieOfCore core
  match gather s x t with
  | .fault c => .fault c 0 0 s
  | .drop p _ => .stay (.queue p true s.clk) s
  | .vals v =>
    let a : Dword := BitVec.ofNat 64 v.a
    match checkXlate s core a 8 1 with
    | .fault c => .fault c 1 a s
    | .miss => .wait (missWait s core a)
    | .ok q =>
      let p := { opOf s t .rgset 3 with trans := [{ vbase := a.toNat, size := 8, pbase := q.pa, cls := q.cls }] }
      match ownWrite s t p.trans with
      | some q => .stay (.own q.cls q.pbase q.size) s
      | none =>
      let (s, head, _) := readBytes s p a 8
      let n := min 512 ((byteAt head 0).getD 0 + 256 * (byteAt head 1).getD 0)
      match rangePages s p [(a.toNat, 8 + 4 * n, 1)] with
      | .inl (c, acc, e) => .fault c acc (BitVec.ofNat 64 e) s
      | .inr ts =>
        match ownWrite s t ts with
        | some q => .stay (.own q.cls q.pbase q.size) s
        | none =>
        let (s, bytes, _) := readBytes s { p with trans := ts } a (8 + 4 * n)
        if bytes.any (·.isNone) then .fault 17 1 a s
        else
          let s := freeBinds s d
          let b := bindOf s d p.asid (x.ifld 0 4)
          match tableOf s.domain (bytes.map (·.getD 0)) with
          | none => .fault 25 0 0 s
          | some (ver, dies) =>
            let differs := match b with
              | some b => decide (b.version ≠ ver ∨ b.ranks ≠ dies)
              | none => false
            if !dies.contains d then .fault 25 0 0 s
            else if b.isNone && decide (64 ≤ (s.die d).binds.length) then .fault 25 0 0 s
            else if differs && !(outTags s d p.asid (x.ifld 0 4)).isEmpty then .fault 25 0 0 s
            else
              let wait := srcClk s p (some q)
              let (id, s) := s.fresh
              let r := { reqBase x s t .rgset with va := a, stage := 1, op := x.ifld 0 4, fo := x.mb 0, data := bytes.map (·.getD 0) }
              let s : State := { s with reqs := kvSet s.reqs id r }
              let s := ps.foldl (fun s u => (s.emptyG u x.f.d.toNat id 1).post wait (.producerLanding
                { thread := u, reg := x.f.d.toNat, n := 1, tag := id, value := BitVec.ofNat 128 dies.length, epoch := r.epoch, req := 0 })) s
              .ok (s.post (wait + 1) (.producerLanding { landingOf r id with n := 0 }))

/-- RGSET (R332). -/
def rgset (x : Ins) (s : State) : Out := perSubrun x id noEnd (rgsetSub x) s

/-- An entry that was pushed to the same port before is still on its way (R333). -/
def entryBefore (s : State) (port src seq : Nat) (se : BitVec 16) : Bool :=
  let first (e : Ev) : Bool := match e with
    | .handoffEntryArrival _ p a _ _ f n => decide (p = port ∧ a = src ∧ f = se ∧ n < seq)
    | _ => false
  (s.msgs.any fun m => first m.2.ev) || s.agenda.any fun e => first e.2

/-- HANDOFF_ENTRY_ARRIVAL, R333: entries of a port are taken in the order of their pushes, whichever way they came (R347). -/
def evHandoffEntryArrival (s : State) (w port src : Nat) (v : Word) (we se : BitVec 16) (seq : Nat) : State :=
  if entryBefore s port src seq se then s.post 1 (.handoffEntryArrival w port src v we se seq) else
  let s := if (s.core (coreOfWarp w)).epoch ≠ we then s
    else if port = 8 then
      s.modWarp w fun x => { x with hand := { x.hand with q8 := x.hand.q8 ++ [(v, s.clk)] } }
    else s.modWarp w fun x => { x with hand := { x.hand with q10 := x.hand.q10 ++ [(v, s.clk)] } }
  if (s.core (coreOfWarp src)).epoch ≠ se then s
  else s.modWarp src fun x => { x with hand :=
    if port = 8 then { x.hand with sent9 := x.hand.sent9 - 1 } else { x.hand with sent11 := x.hand.sent11 - 1 } }

/-! ### Instances (R334 to R339) -/

/-- The ring tiles of `n` words (R336). -/
def tilesOf (n : Nat) : Nat := (n + 2047) / 2048
/-- The words of a tile. -/
def tileWords (n t : Nat) : Nat := min 2048 (n - 2048 * t)

/-- The kind of a collective (Table 16-5). -/
def ringKind (p : Op) : Nat := match p.kind with
  | .rrs => 1
  | .rag => 2
  | .rar => 3
  | .rbc => 4
  | _ => if p.recv then 6 else 5

/-- The tiles a rank gives first (R336). -/
def ownTiles (p : Op) : Nat := match p.kind with
  | .rrs => if p.rank = 0 then p.p * tilesOf p.n else 0
  | .rar => if p.rank = 0 then tilesOf p.n else 0
  | .rag => p.p * tilesOf p.n
  | .rbc => if p.rank = p.rootRank then p.p * tilesOf p.n else 0
  | _ => if p.recv then 0 else tilesOf p.n

/-- The steps and own deliveries that a rank takes (R336). -/
def ringExpect (p : Op) : Nat := match p.kind with
  | .rrs => (if p.rank = 0 then 0 else p.p * tilesOf p.n) + tilesOf p.n
  | .rar => (if p.rank = 0 then 0 else tilesOf p.n) + tilesOf p.n
  | .rag => p.p * tilesOf p.n
  | .rbc => tilesOf p.n
  | _ => if p.recv then tilesOf p.n else 0

/-- The ring tiles that must be complete at a rank (R343). -/
def ringTiles (p : Op) : Nat := match p.kind with
  | .rag => p.p * tilesOf p.n
  | _ => tilesOf p.n

/-- The neighbour of an RHO (R342): where a sender sends, whence a receiver takes. -/
def rhoPeer (p : Op) : Nat := if p.prev != p.recv then (p.rank + p.p - 1) % p.p else (p.rank + 1) % p.p

/-- Own tile `i` of a rank: step kind, chunk, tile, destination rank. -/
def ownStep (p : Op) (i : Nat) : Nat × Nat × Nat × Nat := match p.kind with
  | .rrs => (0, i / tilesOf p.n, i % tilesOf p.n, 1)
  | .rar => (0, 0, i, 1)
  | .rag => (1, p.rank, i / p.p, i % p.p)
  | .rbc => (1, 0, i / p.p, i % p.p)
  | _ => (if p.prev then 1 else 0, 0, i, rhoPeer p)

/-- The places that an operation found at issue still hold for a range (R341): a failure code otherwise. -/
def ringPlaces (s : State) (p : Op) (va n acc : Nat) : Option Nat :=
  match pagesOf s p acc (n / 65536 + 2) va n with
  | .inl (c, _) => some (xlateCode c)
  | .inr ts => if ts.all fun t => transAt p t.vbase = some { cls := t.cls, pa := t.pbase, limit := t.limit } then none else some 1

/-- A tile of a rank's source as words, or the code that its read gives. -/
def ringRead (s : State) (p : Op) (chunk tile : Nat) : State × (Nat ⊕ List Word) :=
  let c := if p.kind = .rrs then chunk else 0
  let va := (p.src.toNat + 4 * (c * p.n) + 8192 * tile) % 2 ^ 64
  let n := 4 * tileWords p.n tile
  match ringPlaces s p va n 1 with
  | some code => (s, .inl code)
  | none =>
    let (s, bytes, f) := readBytes s p (BitVec.ofNat 64 va) n
    match f with
    | some (code, _, _) => (s, .inl (if code = 1 then 4 else 6))
    | none => (s, .inr (bytesWords (bytes.map (·.getD 0))))

/-- A word has a NaN element of a type. -/
def wordNan (t : BitVec 4) (w : Word) : Bool :=
  if t = 4 then (fdec fmtF32 w.toNat).isNan
  else if t = 5 ∨ t = 6 then (fdec (fmtT t) (w.toNat % 65536)).isNan || (fdec (fmtT t) (w.toNat / 65536)).isNan
  else false

/-- Comb on one floating element (R231, R337). -/
def combElem (f : Fmt) (op y x : Nat) : Nat :=
  if (fdec f y).isNan || (fdec f x).isNan then f.nan
  else if op = 0 then (faddBits f 0 false y x).1
  else (fminmaxBits f (decide (op = 2)) false y x).1

/-- Comb (R231, R337). -/
def comb (t : BitVec 4) (op : Nat) (y x : Word) : Word :=
  if t = 4 then BitVec.ofNat 32 (combElem fmtF32 op y.toNat x.toNat)
  else if t = 5 ∨ t = 6 then
    BitVec.ofNat 32 (combElem (fmtT t) op (y.toNat % 65536) (x.toNat % 65536)
      + 65536 * combElem (fmtT t) op (y.toNat / 65536) (x.toNat / 65536))
  else if op = 0 then y + x
  else
    let lt (a b : Word) : Bool := if t = 0 then a.slt b else a.ult b
    if op = 1 then (if lt x y then x else y) else (if lt y x then x else y)

/-- A word with its NaN elements made canonical: a combination over one rank (R337). -/
def canonWord (t : BitVec 4) (w : Word) : Word :=
  let f (m : Fmt) (v : Nat) : Nat := if (fdec m v).isNan then m.nan else v
  if t = 4 then BitVec.ofNat 32 (f fmtF32 w.toNat)
  else if t = 5 ∨ t = 6 then BitVec.ofNat 32 (f (fmtT t) (w.toNat % 65536) + 65536 * f (fmtT t) (w.toNat / 65536))
  else w

/-- The record of an operation. -/
def modRec (s : State) (o : Nat) (f : RingRec → RingRec) : State :=
  s.modDie (dieOfCore (s.op o).core) fun x => { x with recs := x.recs.map fun r => if r.op = o then f r else r }

/-- A rank's part as its record shows it while the operation is there. -/
def recNow (s : State) (r : RingRec) : RingRec :=
  match s.ops.find? fun o => o.1 = r.op with
  | some (_, p) => { r with state := if p.fail ≠ 0 then 3 else 1, code := p.fail, restarts := min 255 p.restarts,
                            left := ringTiles p - p.done, nan := p.nan }
  | none => r

/-- An operation with nothing left to do leaves, its record final (R334). -/
def ringTest (s : State) (o : Nat) : State :=
  if !(s.ops.any fun x => x.1 = o) then s else
  let p := s.op o
  if p.recvd < ringExpect p ∨ p.next < ownTiles p ∨ !p.toSend.isEmpty ∨ !p.unacked.isEmpty ∨ !p.chunks.isEmpty ∨ p.stage = 0 then s
  else
    let d := dieOfCore p.core
    let s := modRec s o fun r => let r := recNow s r
      if p.fail = 0 then { r with state := 2, left := 0 } else r
    let s := if p.fail = 0 then completeOp s o else s
    freeBinds ({ s with ops := kvDel s.ops o }.modDie d fun x => { x with ringRot := x.ringRot.erase o }) d

/-- Lets a die's ring engine send. -/
def pumpRing (s : State) (d : Nat) : State :=
  if (s.die d).ringRot.any (fun o => !(s.op o).toSend.isEmpty || decide ((s.op o).next < ownTiles (s.op o)))
      && !s.posted (.ringStepSend d) then s.post 1 (.ringStepSend d) else s

/-- The operation of an instance at a die. -/
def instOp (s : State) (d inst : Nat) : Option Nat :=
  (s.ops.find? fun o => o.2.cls = 3 && dieOfCore o.2.core = d && o.2.inst = inst && decide (1 ≤ o.2.stage)).map (·.1)

/-- The dies of an instance (R334): those of its group, of an RHO the two ends. -/
def instDies (p : Op) : List Nat :=
  if p.kind = .rho then [p.ranks.getD p.rank 0, p.ranks.getD (rhoPeer p) 0].eraseDups else p.ranks

/-- A die issues a tag: its part belongs to the oldest instance of the tag that it has not issued yet, else to a new one (R334;
notes/assumptions/94.md). -/
def joinInst (s : State) (d : Nat) (p : Op) : RingInst × State :=
  let mine := s.insts.find? fun i => i.asid = p.asid && i.group = p.group && i.tag = p.tag && i.members.contains d && !i.joined.contains d
  let (i, s) := match mine with
    | some i => (i, s)
    | none =>
      let (id, s) := s.fresh
      ({ id := id, asid := p.asid, group := p.group, tag := p.tag, members := instDies p }, s)
  let i := { i with joined := d :: i.joined }
  let rest := s.insts.filter fun j => j.id ≠ i.id
  (i, { s with insts := if i.members.all i.joined.contains then rest else rest ++ [i] })

/-- A die has yet to issue an instance, or its issue waits for the issuers' earlier accesses. -/
def yetToIssue (s : State) (d inst : Nat) : Bool :=
  (s.insts.any fun i => i.id = inst && i.members.contains d && !i.joined.contains d)
    || s.ops.any fun o => o.2.cls = 3 && dieOfCore o.2.core = d && o.2.inst = inst && decide (o.2.stage = 0)

/-- A rank's part of an instance that fails everywhere ends (R339). -/
def failPart (s : State) (o code cause home : Nat) (va : Dword) : State :=
  let s := failOp s o code cause home va 0
  if !(s.ops.any fun x => x.1 = o) then s else
  ringTest (s.modOp o fun p => { p with toSend := [], unacked := [], next := ownTiles p, recvd := ringExpect p }) o

/-- An instance fails at every rank that has issued or later issues its tag (R339). -/
def failInstance (s : State) (p : Op) (code cause home : Nat) (va : Dword) : State :=
  let s : State := { s with insts := s.insts.map fun i => if i.id = p.inst ∧ i.failed = 0 then { i with failed := code } else i }
  p.ranks.foldl (fun s d =>
    match s.ops.find? fun o => o.2.cls = 3 && dieOfCore o.2.core = d && o.2.inst = p.inst with
    | some (o, _) => failPart s o code cause home va
    | none => s) s

/-- A tile reaches a rank's destination (R335, R337). -/
def ringDeliver (s : State) (o chunk tile : Nat) (data : List Word) (nan : Nat) : State :=
  let p := s.op o
  let s := s.modOp o fun p => { p with recvd := p.recvd + 1 }
  if p.fail ≠ 0 then s else
  let va := (p.dst.toNat + (if p.kind = .rag then 4 * (chunk * p.n) else 0) + 8192 * tile) % 2 ^ 64
  let bytes := wordsBytes data
  match ringPlaces s p va bytes.length 2 with
  | some code => failOp s o code 0 (dieOfCore p.core) (BitVec.ofNat 64 va) 0
  | none =>
    let s := s.modOp o fun p => { p with
      got := p.got + bytes.length,
      nan := if nan < 1024 then some (min nan (p.nan.getD 1024)) else p.nan }
    let k := chunk * tilesOf p.n + tile + 1
    sendWrites (modChunk s o k fun _ => { phase := 2 }) o k .ewr (cutPieces p va bytes)

/-- A step for a rank, to be sent in its turn. -/
def queueStep (s : State) (o kind chunk tile dst : Nat) (data : List Word) (nan : Nat) : State :=
  let p := s.op o
  let (id, s) := s.fresh
  let st : RingStep := {
    id := id, asid := BitVec.ofNat 12 p.asid, group := p.group, tag := p.tag, inst := p.inst, prev := p.prev, kind := kind,
    chunk := chunk, tile := tile, src := p.rank, dst := dst, sender := dieOfCore p.core, receiver := p.ranks.getD dst 0, data := data,
    nan := nan, opKind := p.kind.code, ty := p.ty, op := p.rop, n := p.n, root := p.rootRank, p := p.p, version := p.version }
  s.modOp o fun p => { p with toSend := p.toSend ++ [st] }

/-- The final tile of a chain at rank P - 1 (R336). -/
def ringFinal (s : State) (o chunk tile : Nat) (data : List Word) (nan : Nat) : State :=
  let p := s.op o
  if p.kind = .rar then
    let s := ringDeliver s o 0 tile data nan
    if p.rank = 0 then s else queueStep s o 2 0 tile (p.rank - 1) data nan
  else if chunk = p.rank then ringDeliver s o chunk tile data nan
  else queueStep s o 1 chunk tile chunk data nan

/-- The lowest rank that gave a NaN, with one more tile. -/
def nanRank (p : Op) (nan : Nat) (data : List Word) : Nat := if data.any (wordNan p.ty) then min nan p.rank else nan

/-- Sends a step to another die, or the instance fails for want of a path (R336, R348). -/
def sendStep (s : State) (o : Nat) (st : RingStep) : State :=
  match unreach s st.sender st.receiver with
  | some c => failInstance s (s.op o) 6 c st.receiver (s.op o).src
  | none =>
    sendOn (s.modOp o fun p => { p with unacked := kvSet p.unacked st.id st }) st.sender st.receiver
      (if st.kind = 0 then 0 else 1) (.ringStepArrival st)

/-- One tile of an operation goes out (R336). -/
def sendTile (s : State) (o : Nat) : State :=
  let p := s.op o
  match p.toSend with
  | st :: rest => sendStep (s.modOp o fun p => { p with toSend := rest }) o st
  | [] =>
    let (kind, chunk, tile, dst) := ownStep p p.next
    match ringRead s p chunk tile with
    | (s, .inl code) => failInstance s p code (if code = 6 then 1 else 0) (dieOfCore p.core) (p.src + BitVec.ofNat 64 (8192 * tile))
    | (s, .inr data) =>
      let s := s.modOp o fun p => { p with next := p.next + 1 }
      let red := p.kind = .rrs ∨ p.kind = .rar
      let nan := if red then nanRank p 1024 data else 1024
      if red ∧ p.p = 1 then
        let data := data.map (canonWord p.ty)
        ringTest (ringFinal s o chunk tile data nan) o
      else if kind = 1 ∧ p.ranks.getD dst 0 = dieOfCore p.core then ringTest (ringDeliver s o chunk tile data nan) o
      else
        let s := queueStep s o kind chunk tile dst data nan
        match (s.op o).toSend.getLast? with
        | some st => sendStep (s.modOp o fun p => { p with toSend := [] }) o st
        | none => s

/-- RING_STEP_SEND, R336: one tile, of the operations in rotation. -/
def evRingStepSend (s : State) (d : Nat) : State :=
  match (s.die d).ringRot.find? fun o => !(s.op o).toSend.isEmpty || decide ((s.op o).next < ownTiles (s.op o)) with
  | none => s
  | some o =>
    let s := s.modDie d fun x => { x with ringRot := x.ringRot.erase o ++ [o] }
    pumpRing (sendTile s o) d

/-- A step and the operation it meets agree (Table 16-3, MM). -/
def stepMatches (p : Op) (st : RingStep) : Bool :=
  decide (st.opKind = p.kind.code ∧ st.ty = p.ty ∧ st.op = p.rop ∧ st.n = p.n ∧ st.root = p.rootRank ∧ st.p = p.p ∧ st.version = p.version)
    && (p.kind ≠ .rho || (p.recv && decide (st.prev = p.prev ∧ st.src = rhoPeer p)))

/-- RING_STEP_ARRIVAL, R336, R337, R347. An instance that has failed as a whole takes no step (R339). -/
def evRingStepArrival (s : State) (st : RingStep) : State :=
  let d := st.receiver
  let ack (s : State) : State := if st.sender = d then s.post dieClk (.ringStepAck st.id) else sendRep s d st.sender (.ringStepAck st.id)
  if (s.die d).applied.contains st.id then ack s
  else match instOp s d st.inst with
    | none =>
      if yetToIssue s d st.inst then
        s.modDie d fun x => { x with refused := x.refused ++ [{ st with data := [] }] }
      else s
    | some o =>
      let p := s.op o
      if p.fail ≠ 0 ∧ ringExpect p ≤ p.recvd then s
      else if !stepMatches p st then failInstance s p 8 0 d 0
      else
        let s := ack (s.modDie d fun x => { x with applied := x.applied ++ [st.id] })
        let s := match st.kind with
          | 0 =>
            if p.kind = .rho then ringDeliver s o st.chunk st.tile st.data 1024 else
            let s := s.modOp o fun p => { p with recvd := p.recvd + 1 }
            match ringRead s p st.chunk st.tile with
            | (s, .inl code) => failInstance s p code (if code = 6 then 1 else 0) (dieOfCore p.core) (p.src + BitVec.ofNat 64 (8192 * st.tile))
            | (s, .inr mine) =>
              let nan := nanRank p st.nan mine
              let data := (st.data.zip mine).map fun e => comb p.ty p.rop e.1 e.2
              if p.rank + 1 = p.p then ringFinal s o st.chunk st.tile data nan
              else queueStep s o 0 st.chunk st.tile (p.rank + 1) data nan
          | 1 => ringDeliver s o st.chunk st.tile st.data st.nan
          | _ =>
            let s := ringDeliver s o st.chunk st.tile st.data st.nan
            if p.rank = 0 then s else queueStep s o 2 0 st.tile (p.rank - 1) st.data st.nan
        pumpRing (ringTest s o) d

/-- The operation whose step is not acknowledged. -/
def stepOwner (s : State) (id : Nat) : Option (Nat × RingStep) :=
  s.ops.findSome? fun o => (o.2.unacked.find? fun u => u.1 = id).map fun u => (o.1, u.2)

/-- RING_STEP_ACK, R347. -/
def evRingStepAck (s : State) (id : Nat) : State :=
  match stepOwner s id with
  | some (o, _) =>
    let rho := (s.op o).kind = .rho
    ringTest (s.modOp o fun p => { p with unacked := kvDel p.unacked id, done := if rho then p.done + 1 else p.done }) o
  | none => s

/-- STEP_RESEND_NOTICE, R336: a refused step is sent again. -/
def evStepResendNotice (s : State) (id : Nat) : State :=
  match stepOwner s id with
  | some (o, st) => sendStep s o st
  | none => s

/-- A tile is written at its rank, or its writes were refused (R334, R339). -/
def ringTileDone (s : State) (o : Nat) : State :=
  if !(s.ops.any fun x => x.1 = o) then s else
  let p := s.op o
  if p.fail = 6 then failInstance s p 6 2 (dieOfCore p.core) p.dst
  else ringTest (s.modOp o fun p => { p with done := p.done + 1 }) o

/-- An issued instance enters the ring engine (R223, R336): refused steps are asked for again. One that has failed, or one of whose dies is
unreachable, fails here (R339, R348). -/
def ringEnqueue (s : State) (o : Nat) : State :=
  let p := s.op o
  let d := dieOfCore p.core
  match (if p.doomed ≠ 0 then none else (instDies p).find? fun r => decide (r ≠ d) && (unreach s d r).isSome) with
  | some r => failInstance s p 6 ((unreach s d r).getD 2) r p.src
  | none =>
    if p.doomed ≠ 0 then failPart s o p.doomed 0 d p.src else
    let mine := (s.die d).refused.filter fun st => st.inst = p.inst
    let s := s.modDie d fun x => { x with ringRot := x.ringRot ++ [o], refused := x.refused.filter fun st => !mine.contains st }
    let s := mine.foldl (fun s st => if st.sender = d then s.post dieClk (.stepResendNotice st.id) else
      sendRep s d st.sender (.stepResendNotice st.id)) s
    pumpRing s d

/-- The record of a new issue takes a free slot of its group, or that of the oldest finished record (R334). -/
def newRec (s : State) (d : Nat) (r : RingRec) : State :=
  s.modDie d fun x =>
    let others := x.recs.filter fun e => !(e.asid = r.asid && e.group = r.group && e.tag = r.tag)
    let mine := others.filter fun e => e.asid = r.asid && e.group = r.group
    let others := if 64 ≤ mine.length then (match mine.find? fun e => !(s.ops.any fun o => o.1 = e.op && decide (o.2.stage < 3)) with
      | some e => others.erase e
      | none => others) else others
    { x with recs := others ++ [r] }

/-- The words of a rank's source and destination (Table 16-2), with what is checked at issue (R341). -/
def ringSizes (p : Op) : Nat × Nat := match p.kind with
  | .rrs => (p.p * p.n, p.n)
  | .rar => (p.n, p.n)
  | .rag => (p.n, p.p * p.n)
  | .rbc => (if p.rank = p.rootRank then p.n else 0, p.n)
  | _ => if p.recv then (0, p.n) else (p.n, 0)

/-- The checks and the issue of RRS, RAR, RAG, RBC and RHO with their operands (R341). What a queue port lacks, a count or a handle, is
not looked at. -/
def collBody (x : Ins) (ps : List Nat) (v : Vals) (s : State) : TOut :=
  let t := ps.headD 0
  let core := coreOfThread t
  let d := dieOfCore core
  let asid := s.asidOf core
  let group := x.ifld 0 4
  let tag : BitVec 16 := BitVec.ofNat 16 (x.ifld 16 16)
  let root := if x.o = .rbc then x.ifld 6 10 else 0
  let outs := outTags s d asid group
  match bindOf s d asid group with
  | none => .fault 25 0 0 s
  | some b =>
    if outs.any fun o => o.2.tag = tag then .fault 25 0 0 s
    else if (!v.lackC && (v.c = 0 || decide (2 ^ 28 < v.c))) || (x.o = .rbc && decide (b.ranks.length ≤ root)) then .fault 25 0 0 s
    else if counterFull s (t / 32) 3 1 ∨ 64 ≤ outs.length then .stay (.tags group) s
    else
      let h : Word := BitVec.ofNat 32 v.b
      let recv := x.o = .rho && x.ib 7
      let src : Dword := if recv then 0 else BitVec.ofNat 64 v.a
      let dst : Dword := if x.o = .rho && !recv then 0 else dPair s x t
      let p := { opOf s t x.o 3 with
        group := group, tag := tag, p := b.ranks.length, ranks := b.ranks, rank := b.ranks.findIdx (· = d), n := if v.lackC then 1 else v.c, rootRank := root,
        version := BitVec.ofNat 16 b.version, rop := if x.o = .rrs ∨ x.o = .rar then x.ifld 4 2 else 0, ty := x.f.t, src := src, dst := dst,
        prev := x.o = .rho && x.ib 6, recv := recv, scope := x.scope, bar := (if x.mb 6 then some h else none) }
      let (ns, nd) := ringSizes p
      match addrFault [(src, 4), (dst, 4)] with
      | some (c, acc, a) => .fault c acc a s
      | none =>
        match rangePages s p ((if ns = 0 then [] else [(src.toNat, 4 * ns, 1)]) ++ if nd = 0 then [] else [(dst.toNat, 4 * nd, 2)]) with
        | .inl (c, acc, a) => .fault c acc (BitVec.ofNat 64 a) s
        | .inr ts =>
          if x.mb 6 && !v.lackB && !live s h asid then .fault 19 0 0 s
          else
            let (i, s) := joinInst s d p
            let (o, s) := issueOp s ps { p with trans := ts, total := 4 * nd, inst := i.id, doomed := i.failed }
            .ok (newRec s d { asid := asid, group := group, tag := tag, kind := ringKind p, op := o })

/-- RRS, RAR, RAG, RBC and RHO of a sub-run (R341). -/
def collSub (x : Ins) (ps : List Nat) (s : State) : TOut :=
  match gather s x (ps.headD 0) with
  | .fault c => .fault c 0 0 s
  | .drop p v => dropAt s p true (collBody x ps v s)
  | .vals v => collBody x ps v s

/-- RRS, RAR, RAG, RBC, RHO (R334 to R342). -/
def coll (x : Ins) (s : State) : Out := perSubrun x id noEnd (collSub x) s

/-- The pair of a record (Table 16-5). -/
def recWord (r : RingRec) : Nat :=
  r.tag.toNat * 2 ^ 48 + r.nan.getD 0 * 2 ^ 38 + r.nan.isSome.toNat * 2 ^ 37 + r.kind * 2 ^ 34 + r.state * 2 ^ 30 + r.code * 2 ^ 26
    + r.restarts * 2 ^ 18 + min r.left (2 ^ 18 - 1)

/-- The group word (Table 16-6). -/
def groupWord (s : State) (d asid group : Nat) : Nat :=
  let wr := (wrapped s (pkgOfDie d)).toNat * 2 ^ 27
  match bindOf s d asid group with
  | some b => b.version * 2 ^ 32 + 2 ^ 28 + wr + (outTags s d asid group).length * 2 ^ 20 + b.ranks.findIdx (· = d) * 2 ^ 10 + b.ranks.length
  | none => wr

/-- RSTAT (R343). -/
def rstat (x : Ins) (s : State) : Out :=
  perSubrun x id noEnd (fun ps s =>
    let core := coreOfThread (ps.headD 0)
    let d := dieOfCore core
    let asid := s.asidOf core
    let g := x.ifld 0 4
    let v := if x.mb 0 then groupWord s d asid g
      else match (s.die d).recs.find? fun r => r.asid = asid && r.group = g && r.tag.toNat = x.ifld 16 16 with
        | some r => recWord (recNow s r)
        | none => 0
    .ok (ps.zipIdx.foldl (fun s p => s.setGs p.1 x.f.d.toNat v (s.clk + p.2 + 6) 2) s)) s

/-! ### MAPQ (R349) -/

/-- The translation alone, without a permission. -/
def placeOf (s : State) (core va : Nat) : Xlate :=
  let h := s.cohort core
  if inWindow h.window.toNat va then windowXlate s h.launch h.window.toNat va 1
  else match (s.core core).tlb.find? fun t => covers t h.ctx.asid va with
    | some t => .ok { cls := t.cls, pa := t.pbase + (va - t.vbase), limit := t.limit }
    | none => .miss

/-- The pair of Table 16-9 for a place. -/
def mapqWord (s : State) (d : Nat) (q : Place) : Nat :=
  let home := placeDie q.cls q.pa
  let p := pkgOfDie d
  let remote := pkgOfDie home ≠ p
  let x := d % 16
  let y := home % 16
  let far := home ≠ d ∧ (unreach s d home).isSome
  let (a, b) := hopsAB s p x y
  let hop (h : Option Nat) : Nat := if far then 31 else min 31 (h.getD 31)
  let ring := match ringRoute s p x y with
    | some (r, _) => if far then 0 else r
    | none => 0
  (decide far).toNat * 2 ^ 25 + (decide remote).toNat * 2 ^ 24 + pkgOfDie home * 2 ^ 19 + y * 2 ^ 15 + q.cls * 2 ^ 12
    + (wrapped s p).toNat * 2 ^ 11 + ring * 2 ^ 10 + hop b * 2 ^ 5 + hop a

/-- The pair of a MAPQ lands 8 clks after its issue (R349). -/
def mapqLand (s : State) (l : Landing) : State :=
  let (cls, pa, lim) := l.mapq.getD (0, 0, 0)
  let word := mapqWord s (dieOfCore (coreOfThread l.thread)) { cls := cls, pa := pa, limit := lim }
  s.post 8 (.producerLanding { l with value := BitVec.ofNat 128 word })

/-- The address of a MAPQ (R349). -/
def mapqAddr (x : Ins) (v : Vals) : Dword :=
  BitVec.ofNat 64 v.a + (if x.mb 0 then (BitVec.ofNat 32 v.b).signExtend 64 else x.f.imm.signExtend 64)

/-- MAPQ of one thread. -/
def mapqThread (x : Ins) (t : Nat) (s : State) : TOut :=
  match gather s x t with
  | .fault c => .fault c 0 0 s
  | .drop p _ => .stay (.queue p true s.clk) s
  | .vals v =>
    let core := coreOfThread t
    let addr := mapqAddr x v
    if addr.extractLsb' 56 8 ≠ 0 then .fault 7 1 addr s
    else match placeOf s core addr.toNat with
      | .fault c => .fault c 1 addr s
      | .miss => match walkFault s addr.toNat with
        | some c => .fault c 1 addr s
        | none => .wait (missWait s core addr)
      | .ok q =>
        let s := tlbTouch s core addr.toNat
        let (tag, s) := s.fresh
        .ok (mapqLand (s.emptyG t x.f.d.toNat tag 2)
          { thread := t, reg := x.f.d.toNat, n := 2, tag := tag, value := 0,
            epoch := (s.core core).epoch, req := 0, mapq := some (q.cls, q.pa, q.limit) })

/-- MAPQ (R349). -/
def mapq (x : Ins) (s : State) : Out := perThread x 1 noEnd (mapqThread x) s

/-- RGSET, R332: Binds a ring group on the die to a rank table, optionally binding hand-off ports. -/
def execRgset (f : Long) (s : State) : Out := rgset (Ins.ofBody .rgset (.long f)) s

/-- RRS, R335: Issues a reduce-scatter collective instance. -/
def execRrs (f : Long) (s : State) : Out := coll (Ins.ofBody .rrs (.long f)) s

/-- RAG, R335: Issues an all-gather collective instance. -/
def execRag (f : Long) (s : State) : Out := coll (Ins.ofBody .rag (.long f)) s

/-- RAR, R335: Issues an all-reduce collective instance. -/
def execRar (f : Long) (s : State) : Out := coll (Ins.ofBody .rar (.long f)) s

/-- RBC, R335: Issues a broadcast collective instance from a root. -/
def execRbc (f : Long) (s : State) : Out := coll (Ins.ofBody .rbc (.long f)) s

/-- RHO, R342: Issues the sending side of a hand-off to the neighbouring rank. -/
def execRho (f : Long) (s : State) : Out := coll (Ins.ofBody .rho (.long f)) s

/-- RHO_RECV, R342: Issues the receiving side of a hand-off. -/
def execRhoRecv (f : Long) (s : State) : Out := coll (Ins.ofBody .rho (.long f)) s

/-- RSTAT, R343: Returns a collective record. -/
def execRstat (f : Long) (s : State) : Out := rstat (Ins.ofBody .rstat (.long f)) s

/-- RSTAT_GRP, R343: Returns a ring group word. -/
def execRstatGrp (f : Long) (s : State) : Out := rstat (Ins.ofBody .rstat (.long f)) s

/-- MAPQ, R349: Reports the home, class and ring route of an address. -/
def execMapq (f : Long) (s : State) : Out := mapq (Ins.ofBody .mapq (.long f)) s


end Sys2Proof.Machine
end

