-- ==== Sys2Proof/Machine/Dispatcher.lean ====
section
/-! DEFINITION. The dispatchers (spec/19 R402 to R410): queues, acceptance, the cohort index of a strip with its leader and mirror,
placement, reclaim and completion; contexts that are live (R377). -/

namespace Sys2Proof.Machine

/-! ### Descriptors and queues (R375, R377, R403) -/

/-- A little-endian number at a physical address. -/
def physNat (s : State) (pa n : Nat) : Nat := bytesNat (memRead s.mem pa n)

/-- A little-endian number written at a physical address, unless its die is dead. -/
def physPut (s : State) (pa n v : Nat) : State :=
  if (s.die (homeDie pa)).dead then s else { s with mem := memWrite s.mem pa (leBytes n v) }

/-- The context descriptor at a physical address (Table 18-1). -/
def ctxAt (s : State) (pa : Nat) : CtxDesc :=
  let f := physNat s (pa + 4) 4
  { asid := natBits (physNat s pa 4) 0 12, remK := f.testBit 0, region := f.testBit 1, prewait := natBits f 8 8,
    root := physNat s (pa + 8) 8, handler := BitVec.ofNat 64 (physNat s (pa + 16) 8), hdata := BitVec.ofNat 64 (physNat s (pa + 24) 8) }

/-- Entry `a` of a package's directory (Table 19-2). -/
def dirEntry (s : State) (p a : Nat) : Nat := physNat s ((s.pkg p).lqBase + 8 * a) 8

/-- An address-space identifier is live on a package (R377). -/
def asidLive (s : State) (p a : Nat) : Bool :=
  (s.pkg p).lqEn && dirEntry s p a ≠ 0 && !(s.pkg p).ended.contains a

/-- The identifiers with an entry in a package's directory. -/
def dirAsids (s : State) (p : Nat) : List Nat :=
  let b := (s.pkg p).lqBase
  (s.mem.filterMap fun c => if b ≤ c.1 ∧ c.1 < b + 32768 then some ((c.1 - b) / 8) else none).eraseDups

/-- A queue descriptor (R403): its place, ring, configuration word, TAIL, ACCEPT and context descriptor. -/
structure QDesc where
  pa : Nat
  ring : Nat
  cfg : Nat
  tail : Nat
  accept : Nat
  ctxd : Nat
  deriving DecidableEq, Repr

/-- The queue descriptor at a physical address. -/
def qdescAt (s : State) (pa : Nat) : QDesc :=
  { pa := pa, ring := physNat s pa 8, cfg := physNat s (pa + 8) 4, tail := physNat s (pa + 12) 4, accept := physNat s (pa + 16) 4,
    ctxd := physNat s (pa + 24) 8 }

/-- The descriptor of a queue of a context. -/
def queueOf (s : State) (p a i : Nat) : QDesc := qdescAt s (dirEntry s p a + 64 * i)

/-- The entries of a queue's ring; a size outside 4 to 12 makes no queue. -/
def QDesc.entries (q : QDesc) : Nat := 2 ^ (q.cfg % 16)
/-- The queue is enabled. -/
def QDesc.enabled (q : QDesc) : Bool := q.cfg.testBit 31 && decide (4 ≤ q.cfg % 16) && decide (q.cfg % 16 ≤ 12)
/-- The records that TAIL is ahead of ACCEPT. -/
def QDesc.ahead (q : QDesc) : Nat := (q.tail + 2 ^ 32 - q.accept) % 2 ^ 32
/-- The virtual address of record `i`. -/
def QDesc.record (q : QDesc) (i : Nat) : Nat := q.ring + 64 * (i % q.entries)

/-! ### A dispatcher's accesses under a context -/

/-- The place of a virtual address for a dispatcher: translated without the caches, reachable and not poisoned. -/
def dispPlace (s : State) (d : Nat) (c : CtxDesc) (va acc : Nat) : Option Place :=
  match xlateNow s d c.asid c.root 0 (2 ^ 60) va acc with
  | .ok p => if (unreach s d (placeDie p.cls p.pa)).isSome && placeDie p.cls p.pa ≠ d || (p.cls ≠ 4 && badLine s (p.pa / 64)) then none else some p
  | _ => none

/-- The `n` bytes at a virtual address, none past the page of the first and last byte. -/
def dispRead (s : State) (d : Nat) (c : CtxDesc) (va n : Nat) : Option (List Byte) :=
  match dispPlace s d c va 1, dispPlace s d c (va + n - 1) 1 with
  | some p, some q =>
    let k := min n (65536 - va % 65536)
    some (bytesAt s p.cls p.pa k ++ bytesAt s q.cls (q.pa + 1 - (n - k)) (n - k))
  | _, _ => none

/-- The course of a dispatcher's read of `n` bytes within two pages (R9, R239). -/
def dispTouch (s : State) (d : Nat) (c : CtxDesc) (va n : Nat) : State :=
  let touch (s : State) (va n : Nat) : State := match xlateNow s d c.asid c.root 0 (2 ^ 60) va 1 with
    | .ok p => if n = 0 || ((unreach s d (placeDie p.cls p.pa)).isSome && placeDie p.cls p.pa ≠ d) then s else postReads s d p.cls p.pa n
    | _ => s
  let k := min n (65536 - va % 65536)
  touch (touch s va k) (va + k) (n - k)

/-- A word written at a virtual address, where it translates for writing; a release at .sys (R404, R410). -/
def dispWrite (s : State) (d : Nat) (c : CtxDesc) (va v : Nat) : State :=
  match dispPlace s d c va 2 with
  | some p => putBytes s p.cls p.pa (leBytes 4 v)
  | none => s

/-! ### Acceptance (R404) -/

/-- The first room for `n` bytes in the cellar that no span of a die owns (R187). -/
def spanFit (x : Die) (n : Nat) : Option Nat :=
  if n = 0 then some 0 else
  minList ((0 :: x.spans.map fun p => p.base + p.bytes).filter fun b => decide (b + n ≤ 2 ^ 27)
    && x.spans.all fun p => decide (p.bytes = 0 ∨ b + n ≤ p.base ∨ p.base + p.bytes ≤ b))

/-- The dies of a list with the most headroom, `n` of them, ascending (R408). -/
def mostRoom (s : State) (n : Nat) (l : List Nat) : List Nat :=
  let better (a b : Nat) : Bool := decide ((s.die b).headroom < (s.die a).headroom) || (decide ((s.die a).headroom = (s.die b).headroom) && decide (a < b))
  let top := l.filter fun a => decide ((l.filter fun b => better b a).length < n)
  top.foldl (fun m a => insertNat a m) []

/-- A package is reachable from another: some plane joins them both ways (R404). -/
def pkgReach (s : State) (p q : Nat) : Bool :=
  decide (p = q) || (s.domain.contains q && (List.range 16).any fun k =>
    !(s.die (16 * p + k)).dead && !(s.die (16 * q + k)).dead && (s.link (32 * (16 * p + k) + q)).up && (s.link (32 * (16 * q + k) + p)).up)

/-- The span dies of a launch on a package (R408), if it can be placed there. Dies that the record names need only be alive. -/
def stripDies (s : State) (server p mask n c : Nat) : Option (List Nat) :=
  let alive (d : Nat) : Bool := (s.die d).ok && !(s.die d).dead
  let fine (d : Nat) : Bool := alive d && (decide (p ≠ pkgOfDie server) || decide (d = server) || (unreach s server d).isNone)
  if mask ≠ 0 then
    let l := ((List.range 16).filter fun k => mask.testBit k).map (16 * p + ·)
    if l.all alive then some l else none
  else
    let l := (((List.range 16).map (16 * p + ·)).filter fun d => fine d && (spanFit (s.die d) c).isSome)
    if n ≤ l.length then some (mostRoom s n l) else none

/-- The strips of a launch: for each package its span dies (R408). -/
def chooseStrips (s : State) (server pmask strips dmask n c : Nat) : Option (List (Nat × List Nat)) :=
  if pmask ≠ 0 then
    let l := ((List.range 32).filter fun q => pmask.testBit q).map fun q => (q, if pkgReach s (pkgOfDie server) q then stripDies s server q dmask n c else none)
    if l.all fun e => e.2.isSome then some (l.map fun e => (e.1, e.2.getD [])) else none
  else
    let l := (s.domain.filter (pkgReach s (pkgOfDie server))).filterMap fun q => (stripDies s server q dmask n c).map fun ds => (q, ds)
    let sum (ds : List Nat) : Nat := ds.foldl (fun a d => a + (s.die d).headroom) 0
    let better (a b : Nat × List Nat) : Bool := decide (sum b.2 < sum a.2) || (decide (sum a.2 = sum b.2) && decide (a.1 < b.1))
    let top := l.filter fun a => decide ((l.filter fun b => better b a).length < strips)
    if strips ≤ l.length then some ((List.range 32).filterMap fun q => top.find? fun e => e.1 = q) else none

/-- A kernel descriptor as the dispatcher reads it (Table 3-4), if it is readable and its version is right. -/
def kernelAt (s : State) (d : Nat) (c : CtxDesc) (va : Nat) : Option (List Byte) :=
  match dispRead s d c va 64 with
  | some k => if bytesNat (k.take 4) = 0x10000 then some k else none
  | none => none

/-- The number in some bytes of a list. -/
def fieldAt (l : List Byte) (o n : Nat) : Nat := bytesNat (sliceL l o n)

/-- A strip as its launch is accepted (R407): its counter starts at `first` and grants `n` indices. -/
def freshStrip (p : Nat) (ds : List Nat) (first n : Nat) : Strip :=
  { pkg := p, dies := ds, next := first, stop := first + n, leader := ds.headD 0 }

/-- Judges a record (Table 19-3): the REASON that refuses it, the lowest that applies, or the launch. -/
def judge (s : State) (d p a i : Nat) (q : QDesc) (c : CtxDesc) (r : List Byte) : Nat ⊕ Launch :=
  let cohorts := fieldAt r 0x20 4
  let dmask := fieldAt r 0x24 2
  let spans := fieldAt r 0x26 1
  let sp := fieldAt r 0x27 1
  let strips := sp % 64
  let prio := sp / 64
  let pmask := fieldAt r 0x28 4
  let window := fieldAt r 0x10 8
  let param := fieldAt r 8 8
  if cohorts = 0 ∨ 65536 < cohorts ∨ spans = 0 ∨ 16 < spans ∨ strips = 0 ∨ 32 < strips then .inl 1
  else match kernelAt s d c (fieldAt r 0 8) with
    | none => .inl 3
    | some k =>
      let regs := fieldAt k 4 2
      let warps := fieldAt k 6 2
      let cellar := fieldAt k 8 1
      let tiles := fieldAt k 9 1
      if regs < 8 ∨ 240 < regs ∨ regs % 8 ≠ 0 ∨ warps = 0 ∨ 512 < warps ∨ 16 < cellar ∨ 16 < tiles then .inl 1
      else if 256 < (warps + 31) / 32 * regs then .inl 2
      else if (dmask ≠ 0 ∧ ((List.range 16).filter fun b => dmask.testBit b).length ≠ spans)
          ∨ (pmask ≠ 0 ∧ ((List.range 32).filter fun b => pmask.testBit b).length ≠ strips) then .inl 4
      else match chooseStrips s d pmask strips dmask spans (cellar * 2 ^ 23) with
        | none => .inl 5
        | some ss =>
          if prio ≠ natBits q.cfg 4 2 then .inl 6
          else if window % 2 ^ 27 ≠ 0 ∨ 2 ^ 56 < window + 2 ^ 36 ∨ param % 8 ≠ 0 ∨ (sliceL r 0x2C 16).any (· ≠ 0) ∨ c.asid ≠ a
              ∨ physNat s q.ctxd 4 ≠ c.asid then .inl 7
          else
            let ks := ss.zipIdx.map fun e => (e.2, freshStrip e.1.1 e.1.2 (e.2 * spans * cohorts) (spans * cohorts))
            .inr { asid := a, pkg := p, queue := i, desc := q.pa, record := BitVec.ofNat 64 (q.record q.accept), server := d, ctxd := q.ctxd,
                   root := c.root, param := BitVec.ofNat 64 param, window := BitVec.ofNat 64 window, done := BitVec.ofNat 64 (fieldAt r 0x18 8),
                   cohorts := cohorts, spans := spans, prio := prio, warps := warps, r := regs, tiles := tiles, cellar := cellar * 2 ^ 23,
                   entry := BitVec.ofNat 64 (fieldAt r 0 8 + fieldAt k 0x10 8), strips := ks, since := s.clk }

/-! ### The cohort index (R406 to R408) -/

/-- Changes a strip of a launch. -/
def modStrip (s : State) (l x : Nat) (f : Strip → Strip) : State :=
  s.modLaunch l fun n => { n with strips := kvSet n.strips x (f (kvGet {} n.strips x)) }
/-- A strip of a launch. -/
def stripAt (s : State) (l x : Nat) : Strip := kvGet {} (s.launch l).strips x

/-- A strip has indices that are not granted. -/
def Strip.ungranted (t : Strip) : Bool := !t.closed && (decide (t.next < t.stop) || t.pending.isSome)

/-- The indices of a strip that no die has asked for. -/
def Strip.free (t : Strip) : Nat := if t.closed then 0 else t.stop - t.next - t.asked.length

/-- A message of the dispatchers from one die to another. -/
def dispSend (s : State) (src dst : Nat) (e : Ev) : State := sendReq s src dst e

/-- The mirror of a strip (R407): the next span die along ring A from the leader, or for a strip of one span the next die. -/
def mirrorDie (s : State) (t : Strip) : Option Nat :=
  let p := pkgOfDie t.leader
  let along := ((List.range 15).map fun k => 16 * p + (t.leader % 16 + 1 + k) % 16).filter fun d => (unreach s t.leader d).isNone && (s.die d).ok
  match along.filter t.dies.contains with
  | d :: _ => some d
  | [] => along.head?

/-- The queue of a launch, as the rotation of R409 names it. -/
def queueKey (n : Launch) : Nat := (n.pkg * 4096 + n.asid) * 64 + n.queue

/-- An earlier launch of the queue has indices not yet granted or lost (R406). -/
def earlierOpen (s : State) (l : Nat) (n : Launch) : Bool :=
  s.launches.any fun m => decide (m.1 < l) && decide (queueKey m.2 = queueKey n) && decide (m.2.state = 1) && m.2.strips.any fun t => t.2.ungranted

/-- A core is free for a cohort: it holds none, and its lanes are between runs (R410). -/
def coreFree (s : State) (c : Nat) : Bool :=
  (s.core c).cohort.isNone && !((List.range 32).any fun k => (s.lane (32 * c + k)).run.isSome)

/-- The free cores of a die, ascending (R409). -/
def freeCores (s : State) (d : Nat) : List Nat := ((List.range 128).map (128 * d + ·)).filter (coreFree s)

/-- Requests and grants of a die under way. -/
def underWay (s : State) (d : Nat) : Nat :=
  s.launches.foldl (fun n l => l.2.strips.foldl (fun n t =>
    n + (t.2.asked.filter (· = d)).length + (t.2.sent.filter fun g => g.2 = d).length) n) 0

/-- What a die may give a core to: the class, a restarted or waiting cohort before a new index, the turn of the queue (R409). -/
structure Want where
  prio : Nat
  turn : Nat
  launch : Nat
  strip : Nat
  wait : Option Waiting
  deriving DecidableEq, Repr

/-- What a die may give a core to; of each strip it asks for one index at a time. -/
def wants (s : State) (d : Nat) : List Want :=
  let x := s.die d
  (s.launches.filter fun l => l.2.state = 1).flatMap fun l =>
    let turn := (x.lqRot.findIdx? (· = queueKey l.2)).elim 0 (· + 1)
    l.2.strips.flatMap fun t =>
      let room := t.2.opened.any (fun o => o.1 = d) || (spanFit x l.2.cellar).isSome
      if t.2.closed || !room then [] else
      (t.2.again.filter fun w => w.die = d).map (fun w => ⟨l.2.prio, turn, l.1, t.1, some w⟩)
        ++ (if t.2.dies.contains d && !t.2.asked.contains d && !(t.2.sent.any fun g => g.2 = d) && decide (0 < t.2.free)
            && !earlierOpen s l.1 l.2 then [⟨l.2.prio, turn, l.1, t.1, none⟩] else [])

/-- One want comes before another. -/
def Want.before (a b : Want) : Bool :=
  if a.prio ≠ b.prio then decide (b.prio < a.prio)
  else if a.wait.isSome ≠ b.wait.isSome then a.wait.isSome
  else if a.turn ≠ b.turn then decide (a.turn < b.turn)
  else decide (a.launch < b.launch ∨ (a.launch = b.launch ∧ a.strip < b.strip))

/-- The first of the wants. -/
def firstWant : List Want → Option Want
  | [] => none
  | a :: r => some (r.foldl (fun b x => if x.before b then x else b) a)

/-! ### Placement (R409) -/

/-- A collection without the keys of a range, with new ones in it. -/
def kvRange {α : Type} (l : KV α) (lo hi : Nat) (new : KV α) : KV α :=
  (l.filter fun e => decide (e.1 < lo)) ++ new ++ l.filter fun e => decide (hi ≤ e.1)

/-- Gives a core its warps, threads and lanes; a trap that awaited a warp of the cohort before is gone. -/
def setCoreRegs (s : State) (c : Nat) (lanes : KV Lane) (warps : KV Warp) (threads : KV Thread) : State :=
  let other (e : Ev) : Bool := match e with
    | .trapEntry w _ => coreOfWarp w ≠ c
    | _ => true
  { s with agenda := s.agenda.filter fun e => other e.2
           lanes := kvRange s.lanes (32 * c) (32 * c + 32) lanes, warps := kvRange s.warps (512 * c) (512 * c + 512) warps,
           threads := kvRange s.threads (16384 * c) (16384 * c + 16384) threads }

/-- The lanes of a core with `w` warps, their active sets full (R85). -/
def freshLanes (c w : Nat) : KV Lane :=
  (List.range (min w 32)).map fun k => (32 * c + k, { active := (List.range 8).filter fun i => decide (32 * i + k < w) })

/-- What a core holds that does not belong to a cohort. -/
def bareCore (k : Core) : Core :=
  { k with cohort := none, q := [], qpush := [], qpop := [], remstat := 0, cv := [], active := {}, shadow := {}, tiles := [], tileEnd := [],
           l1 := [], misses := [], fe := (0, []), preempt := none, peStop := false, saving := none,
           restarting := false, pmc := [] }

/-- A cohort begins on a core with every register in the state of Table 5-1, every thread at the entry (R93, R409). -/
def startCohort (s : State) (c : Nat) (h : Cohort) (entry : Dword) : State :=
  let s := s.modCore c fun k => { bareCore k with cohort := some h, epoch := k.epoch + 1, icache := [] }
  setCoreRegs s c (freshLanes c h.warps)
    ((List.range h.warps).map fun i => (512 * c + i, ({ w := [(0, h.param.extractLsb' 0 32), (1, h.param.extractLsb' 32 32)] } : Warp)))
    ((List.range (32 * h.warps)).map fun i => (16384 * c + i, ({ pc := entry, since := s.clk } : Thread)))

/-- The first placement of a launch on a die opens its span: a part of the cellar that reads as zero (R187), and a new
generation (R246). -/
def openSpan (s : State) (l x d : Nat) : State :=
  let n := s.launch l
  let t := stripAt s l x
  if t.opened.any fun o => o.1 = d then s else
  match spanFit (s.die d) n.cellar with
  | none => s
  | some b =>
    let s := s.modDie d fun y => { y with spans := y.spans ++ [{ launch := l, strip := x, span := t.dies.findIdx (· = d), base := b, bytes := n.cellar, asid := n.asid }] }
    let s : State := { s with cellar := memClear s.cellar (2 ^ 27 * d + b) n.cellar }
    let s := modStrip s l x fun t => { t with opened := kvSet t.opened d 0 }
    trimWhole (s.post 0 (.generationAdvance d 0)) d

/-- Places a granted cohort on a core (R409). -/
def placeCohort (s : State) (c l x : Nat) (w : Waiting) : State :=
  let d := dieOfCore c
  let s := openSpan s l x d
  let n := s.launch l
  let t := stripAt s l x
  let k := kvGet 0 t.opened d
  let entry := match w.entry with
    | some e => e
    | none => n.entry
  let h : Cohort :=
    { launch := l, index := w.index, ncohort := n.strips.length * n.spans * n.cohorts, span := t.dies.findIdx (· = d), nspan := n.spans, strip := x,
      warps := n.warps, r := n.r, tiles := n.tiles, window := n.window, entry := entry, param := n.param, prio := n.prio, ctx := ctxAt s n.ctxd,
      placed := s.clk, inSpan := w.inSpan.getD k }
  let s := startCohort s c h entry
  let s := s.modLaunch l fun n => { n with since := s.clk }
  modStrip s l x fun t => { t with again := t.again.erase w, placed := t.placed ++ [(w.index, d)],
                                   opened := if w.inSpan.isSome then t.opened else kvSet t.opened d (k + 1) }

/-- A die gives one free core: a cohort that waits is placed, or an index is asked for (R408, R409). -/
def seekOne (s : State) (d : Nat) : Option State :=
  match freeCores s d with
  | [] => none
  | c :: cs =>
    match firstWant (wants s d) with
    | none => none
    | some w =>
      let n := s.launch w.launch
      let turn (s : State) : State := s.modDie d fun x => { x with lqRot := x.lqRot.erase (queueKey n) ++ [queueKey n] }
      match w.wait with
      | some g => some (turn (placeCohort s c w.launch w.strip g))
      | none =>
        if cs.length + 1 ≤ underWay s d then none
        else
          let t := stripAt s w.launch w.strip
          let s := modStrip (turn s) w.launch w.strip fun t => { t with asked := t.asked ++ [d] }
          some (dispSend s d t.leader (.cohortIndexRequest w.launch w.strip d))

/-- A die gives its free cores while anything wants them. -/
def seekLoop : Nat → State → Nat → State
  | 0, s, _ => s
  | n + 1, s, d =>
    match seekOne s d with
    | some s => seekLoop n s d
    | none => s

/-- A die looks for work for its free cores (R408). -/
def seekWork (s : State) (d : Nat) : State :=
  let x := s.die d
  if !x.ok ∨ x.dead ∨ !(s.pkg (pkgOfDie d)).ready then s else seekLoop 256 s d

/-- The leader grants an index to the requesting die with the most headroom, through its mirror (R407, R408). -/
def grantNext (s : State) (l x : Nat) : State :=
  let t := stripAt s l x
  if (s.launch l).state ≠ 1 ∨ t.closed ∨ t.pending.isSome ∨ t.stop ≤ t.next then s else
  match mostRoom s 1 (t.heard.filter fun d => decide (0 < (s.die d).headroom) && !(s.die d).dead) with
  | [] => s
  | d :: _ =>
    let s := modStrip s l x fun t => { t with pending := some (t.next, d) }
    match mirrorDie s t with
    | some m => dispSend s t.leader m (.mirrorRecord l x t.next d)
    | none => s.post 0 (.mirrorAck l x t.next d)

/-- COHORT_INDEX_REQUEST, R408. -/
def evCohortIndexRequest (s : State) (l x d : Nat) : State :=
  if !((stripAt s l x).asked.contains d) then s
  else grantNext (modStrip s l x fun t => { t with heard := t.heard ++ [d] }) l x

/-- MIRROR_RECORD, R407. -/
def evMirrorRecord (s : State) (l x c d : Nat) : State :=
  let t := stripAt s l x
  match mirrorDie s t with
  | some m => dispSend (modStrip s l x fun t => { t with mirror := some (c, d) }) m t.leader (.mirrorAck l x c d)
  | none => s.post 0 (.mirrorAck l x c d)

/-- The span dies of every launch that runs look for work. -/
def seekAll (s : State) : State :=
  let ds := ((s.launches.filter fun l => l.2.state = 1).flatMap fun l => l.2.strips.flatMap fun t => t.2.dies).eraseDups
  ds.foldl seekWork s

/-- A strip whose counter is spent asks nothing more of its dies; the dies look for other work, also in the later launches of
its queue (R406). -/
def stripSpent (s : State) (l x : Nat) : State :=
  let t := stripAt s l x
  if t.next < t.stop ∨ t.pending.isSome then s
  else seekAll (modStrip s l x fun t => { t with asked := [], heard := [] })

/-- MIRROR_ACK, R407: the grant goes to its die, and the counter advances. -/
def evMirrorAck (s : State) (l x c d : Nat) : State :=
  let t := stripAt s l x
  if t.pending ≠ some (c, d) then s
  else
    let s := modStrip s l x fun t => { t with
      pending := none, next := c + 1, asked := t.asked.erase d, heard := t.heard.erase d, sent := t.sent ++ [(c, d)] }
    let s := dispSend s t.leader d (.cohortGrant l x c d)
    stripSpent (grantNext s l x) l x

/-- COHORT_GRANT, R407: the die holds the grant; it places the cohort on a free core. -/
def evCohortGrant (s : State) (l x c d : Nat) : State :=
  if !((stripAt s l x).sent.contains (c, d)) then s
  else
    let s := modStrip s l x fun t => { t with sent := t.sent.erase (c, d) }
    if (s.launch l).state ≠ 1 ∨ (s.die d).dead then s
    else seekWork (modStrip s l x fun t => { t with again := t.again ++ [{ index := c, die := d }] }) d

/-- POWER_HEADROOM_REPORT, R408: 420 W less the drawn power, an open value; zero at 100 °C and above (R431). -/
def evPowerHeadroomReport (s : State) (d : Nat) : State :=
  if (s.die d).dead then s else
  let (v, s) := s.chooseBelow 421
  let s := (s.modDie d fun x => { x with power := v, headroom := if 100 ≤ x.temp then 0 else 420 - v }).post (10 * usClk) (.powerHeadroomReport d)
  s.launches.foldl (fun s l => l.2.strips.foldl (fun s t => if t.2.pkg = pkgOfDie d then grantNext s l.1 t.1 else s) s) s

/-! ### Reading queues (R403 to R406) -/

/-- Examines record ACCEPT of a queue: STATUS is written, then ACCEPT (R404). A record that cannot be read is passed by. -/
def examine (s : State) (d p a i : Nat) : State :=
  let q := queueOf s p a i
  let c := ctxAt s q.ctxd
  let va := q.record q.accept
  let pass (s : State) : State := physPut s (q.pa + 16) 4 (q.accept + 1)
  let got := dispRead s d c va 64
  let s := dispTouch s d c va 64
  match got with
  | none => pass s
  | some r =>
    let s := dispTouch s d c (fieldAt r 0 8) 64
    match judge s d p a i q c r with
    | .inl why => pass (dispWrite s d c (va + 0x3C) (2 * 2 ^ 28 + why))
    | .inr n =>
      let s := pass (dispWrite s d c (va + 0x3C) (2 ^ 28))
      let (l, s) := s.fresh
      let s : State := { s with launches := kvSet s.launches l n }
      let s := seekAll s
      if n.prio = 3 then s.post (100 * usClk) (.class3Starvation l) else s

/-- Examines the records of a queue in index order. -/
def examineAll : Nat → State → Nat → Nat → Nat → Nat → State
  | 0, s, _, _, _, _ => s
  | n + 1, s, d, p, a, i => if (queueOf s p a i).ahead = 0 then s else examineAll n (examine s d p a i) d p a i

/-- The record of a queue (Table 20-8, 0x17 and 0x19). -/
def queueRec (kind a i : Nat) : EvRec := { kind := kind, asid := a, detail := a * 65536 + i }

/-- A serving dispatcher reads TAIL of one queue (R403, R405); `door` after a write to LQ_DOOR. -/
def readTail (s : State) (d : Nat) (door : Bool) (p a i : Nat) : State :=
  let q := queueOf s p a i
  if !q.enabled ∨ homeDie q.pa ≠ d ∨ (s.pkg p).lostQ.contains (a, i) then s
  else
    let ring := xlateNow s d a (ctxAt s q.ctxd).root 0 (2 ^ 60) q.ring 1
    let gone := match ring with
      | .ok r => (s.die (placeDie r.cls r.pa)).dead
      | _ => false
    if gone then (s.modPkg p fun g => { g with lostQ := (a, i) :: g.lostQ }).raise d (queueRec 0x17 a i)
    else
      let isOver := q.entries < q.ahead
      if (s.pkg p).overrun.contains (a, i) then
        if door ∧ !isOver then examineAll q.ahead (s.modPkg p fun g => { g with overrun := g.overrun.erase (a, i) }) d p a i else s
      else if isOver then (s.modPkg p fun g => { g with overrun := (a, i) :: g.overrun }).raise d (queueRec 0x19 a i)
      else examineAll q.ahead s d p a i

/-- A die's dispatcher reads TAIL of every queue that it serves (R403). -/
def readQueues (s : State) (d : Nat) (door : Bool) : State :=
  let p := pkgOfDie d
  if !(s.die d).ok ∨ (s.die d).dead ∨ !(s.pkg p).ready then s
  else (dirAsids s p).foldl (fun s a => (List.range 64).foldl (fun s i => if asidLive s p a then readTail s d door p a i else s) s) s

/-- LQ_DOOR, R403. -/
def evLqDoor (s : State) (d : Nat) : State := readQueues s d true

/-- TAIL_POLL, R403: TAIL is read again within 2 µs. -/
def evTailPoll (s : State) (d : Nat) : State :=
  if (s.die d).dead then s else (readQueues s d false).post (2 * usClk) (.tailPoll d)

/-! ### LAUNCH (R412) -/

/-- The serving die of a queue of a core's context, or the core's own die where there is none. -/
def servingDie (s : State) (core i : Nat) : Nat :=
  let p := pkgOfCore core
  let a := s.asidOf core
  if asidLive s p a then homeDie (queueOf s p a i).pa else dieOfCore core

/-- LAUNCH_APPEND, R412: the record is copied to slot TAIL, or refused, and the answer goes back. The dispatcher that has moved
TAIL reads it (R404). -/
def evLaunchAppend (s : State) (id : Nat) : State :=
  match s.reqs.find? fun r => r.1 = id with
  | none => s
  | some (_, r) =>
    let d := r.agent
    let src := dieOfCore r.core
    let p := pkgOfDie src
    let a := s.asidOf r.core
    let q := queueOf s p a r.op
    let (s, v) :=
      if !asidLive s p a ∨ !q.enabled ∨ !q.cfg.testBit 6 ∨ homeDie q.pa ≠ d then (s, 0xFFFFFFFE)
      else if q.ahead = q.entries then (s, 0xFFFFFFFF)
      else match dispPlace s d (ctxAt s q.ctxd) (q.record q.tail) 2 with
        | none => (s, 0xFFFFFFFE)
        | some w =>
          let s := putBytes s w.cls w.pa ((bytesAt s r.cls r.pa 60) ++ leBytes 4 0)
          (physPut s (q.pa + 12) 4 (q.tail + 1), q.tail)
    let s := s.modReq id fun x => { x with value := v, stage := 2 }
    let l := landingOf (s.req id) id
    let s := if src = d then s.post 48 (.producerLanding l) else sendRep s d src (.remoteReply l)
    readTail s d false p a r.op

/-! ### Reclaim and completion (R410) -/

/-- A span closes: its cellar returns to the die cache, and buffers in it become undeclared (R187, R189). -/
def closeSpan (s : State) (l x d : Nat) : State :=
  let mine := (s.die d).spans.filter fun p => p.launch = l ∧ p.strip = x
  let inside (b : Buf) : Bool := mine.any fun p => decide (p.base ≤ b.base) && decide (b.base < p.base + p.bytes)
  let s := s.modDie d fun y => { y with
    spans := y.spans.filter fun p => !(decide (p.launch = l ∧ p.strip = x)),
    buf := y.buf.filter fun b => !(b.2.decl && inside b.2) }
  modStrip s l x fun t => { t with opened := kvDel t.opened d }

/-- Spans of a strip whose counter is spent close once nothing of the launch stays on their die; a strip without an open
span closes. -/
def closeStrip (s : State) (l x : Nat) : State :=
  let t := stripAt s l x
  if t.closed ∨ t.next < t.stop ∨ t.pending.isSome then s
  else
    let busy (d : Nat) : Bool := t.placed.any (fun g => g.2 = d) || t.sent.any (fun g => g.2 = d) || t.again.any fun w => w.die = d
    let s := (t.opened.filter fun o => !busy o.1).foldl (fun s o => closeSpan s l x o.1) s
    let t := stripAt s l x
    if t.opened.isEmpty ∧ t.placed.isEmpty ∧ t.sent.isEmpty ∧ t.again.isEmpty then modStrip s l x fun t => { t with closed := true } else s

/-- A launch whose strips have closed and whose engine operations are complete completes (R410). -/
def pollLaunches (s : State) : State :=
  s.launches.foldl (fun s l =>
    if l.2.state = 1 && (l.2.strips.all fun t => t.2.closed) && !(s.ops.any fun o => decide (o.2.launch = l.1))
        && !s.posted (.launchCompletion l.1) then s.post 0 (.launchCompletion l.1) else s) s

/-- The objects of the resident cohort of a core return to the pool; who waits there looks again (R271). -/
def freeObjects (s : State) (c : Nat) : State :=
  ((s.core c).bar.filter fun b => b.2.alloc && !b.2.saved).foldl (fun s b => wakePhase (freeBarrier s c b.1) c b.1) s

/-- Operations bound to a convergence register that never fire, and where `all` every operation not started, are gone
(R329, R395, R410). -/
def dropUnfired (s : State) (c : Nat) : State :=
  let bound := (s.core c).cv.filterMap fun v => v.2.bound
  { s with ops := s.ops.filter fun o => !(bound.contains o.1) }

/-- The core is given back: registers, queue entries, convergence registers and tiles are discarded (R94, R410). Operations in
its Anvil queue go on, with the weights and tiles that are theirs alone from now on (R299; notes/assumptions/21.md). Binding slots of its context that nothing
needs are freed (R334). -/
def reclaimCore (s : State) (c : Nat) : State :=
  let s := dropUnfired (freeObjects s c) c
  let s := s.modCore c fun k => { bareCore k with
    left := kvSet k.left k.epoch.toNat { active := k.active, shadow := k.shadow, tiles := k.tiles, tileEnd := k.tileEnd } }
  freeBinds (sweepLeft (setCoreRegs s c [] [] []) c) (dieOfCore c)

/-- The cohort of a core has ended: its launch has one less. -/
def leaveLaunch (s : State) (h : Cohort) (d : Nat) : State :=
  if s.launches.any fun l => l.1 = h.launch then
    closeStrip (modStrip s h.launch h.strip fun t => { t with placed := t.placed.erase (h.index, d) }) h.launch h.strip
  else s

/-- COHORT_END, R410: the core is reclaimed once its lanes are between runs. -/
def evCohortEnd (s : State) (c : Nat) : State :=
  match (s.core c).cohort with
  | none => s
  | some h =>
    if (List.range 32).any fun k => (s.lane (32 * c + k)).run.isSome then s.post 1 (.cohortEnd c)
    else seekWork (leaveLaunch (reclaimCore s c) h (dieOfCore c)) (dieOfCore c)

/-- LAUNCH_COMPLETION, R410: STATUS, the completion word and DONECNT are written in this order, and the dies advance
their generation. One whose context ended waits for its cohorts to leave (R92, R368). -/
def evLaunchCompletion (s : State) (l : Nat) : State :=
  if !(s.launches.any fun x => x.1 = l) then s else
  let n := s.launch l
  let there := s.cores.any fun c => match c.2.cohort with
    | some h => decide (h.launch = l)
    | none => false
  if n.state ≠ 1 ∧ n.state ≠ 5 then s
  else if n.state = 5 ∧ there then s.post 1 (.launchCompletion l)
  else
    let spans := s.dies.flatMap fun d => d.2.spans.filterMap fun p => if p.launch = l then some (p.strip, d.1) else none
    let s := spans.foldl (fun s e => closeSpan s l e.1 e.2) s
    let st := if n.state = 5 then 5 else if 0 < n.lost then 4 else 3
    let v := st * 2 ^ 28 + min n.lost (2 ^ 20 - 1) * 256
    let c : CtxDesc := { asid := n.asid, root := n.root }
    let s := dispWrite s n.server c ((n.record.toNat + 0x3C) % 2 ^ 64) v
    let s := if n.done = 0 then s else dispWrite s n.server c n.done.toNat v
    let s := physPut s (n.desc + 20) 4 (physNat s (n.desc + 20) 4 + 1)
    let ds := (n.server :: n.strips.flatMap fun t => t.2.dies).eraseDups
    let s := ds.foldl (fun s d => if (s.die d).dead then s else s.post 0 (.generationAdvance d 0)) s
    seekAll { s with launches := kvDel s.launches l }

/-- CLASS3_STARVATION, R409: the most recently placed cohort of the lowest class on the launch's span dies is asked to
leave its core. -/
def evClass3Starvation (s : State) (l : Nat) : State :=
  if !(s.launches.any fun x => x.1 = l) ∨ (s.launch l).state ≠ 1 then s else
  let n := s.launch l
  if !(n.strips.any fun t => t.2.ungranted || !t.2.again.isEmpty || !t.2.sent.isEmpty) then s
  else if s.clk < n.since + 100 * usClk then s.post (n.since + 100 * usClk - s.clk) (.class3Starvation l)
  else
    let ds := n.strips.flatMap fun t => t.2.dies
    let cs := s.cores.filterMap fun c => match c.2.cohort with
      | some h => if ds.contains (dieOfCore c.1) ∧ c.2.preempt.isNone ∧ !c.2.peStop then some (c.1, h) else none
      | none => none
    let s := s.post (100 * usClk) (.class3Starvation l)
    match cs with
    | [] => s
    | c :: r =>
      let best := r.foldl (fun b x => if x.2.prio < b.2.prio ∨ (x.2.prio = b.2.prio ∧ b.2.placed < x.2.placed) then x else b) c
      s.post 0 (.preemptionRequest best.1)

/-! ### The end of an entry (R377) -/

/-- The host has written to entry `a` of a package's directory: 0 ends a live context that still has work, and lets an ended
identifier become live again. -/
def dirWritten (s : State) (p a : Nat) : State :=
  if dirEntry s p a ≠ 0 then s
  else
    let busy := (s.cores.any fun c => decide (pkgOfCore c.1 = p) && (match c.2.cohort with
        | some h => decide (h.ctx.asid = a)
        | none => false)) || (s.saved.any fun v => decide (v.2.asid = a)) || s.launches.any fun l => decide (l.2.asid = a ∧ l.2.state = 1)
    let s := if busy && !(s.pkg p).ended.contains a then
        endContext s a (some (16 * p + ((List.range 16).find? fun k => (s.die (16 * p + k)).ok && !(s.die (16 * p + k)).dead).getD 0,
          { kind := 0x24, asid := a, detail := 0 }))
      else s
    s.modPkg p fun g => { g with ended := g.ended.erase a, lostQ := g.lostQ.filter fun q => q.1 ≠ a, overrun := g.overrun.filter fun q => q.1 ≠ a }

end Sys2Proof.Machine
end

