-- ==== Sys2Proof/Machine/Fabric.lean ====
section
/-! DEFINITION. Bridges and links at work: grants, power states, failure and wrap (spec/16 R344 to R348, spec/11 R247 to R249), the
death of a die, flits, lost light and re-plans (spec/17 R351 to R365). Link 32 x die + q stands for what the die holds for
package q; the other end of the plane holds link `peerOf`. -/

namespace Sys2Proof.Machine

/-! ### What is lost with a path (R242, R249, R348, R367) -/

/-- The line of a transaction's key. -/
def lineOfKey (key : Nat) : Nat := key % 2 ^ 60

/-- What a message that cannot arrive stands for: a request fails, a holder counts as having answered, a step fails its
instance, a dispatcher's message is passed on the side-band. -/
def lostEv (s : State) (m : Msg) : State :=
  let cause := if (s.die m.dst).dead then 3 else 2
  match m.ev with
  | .rd q | .own q | .hwr q | .hrd q | .ldbTransaction q | .rackTransaction q | .launchAppend q | .atomicUnitApply q | .deliverAtHome q
  | .putnFlagIncrement q | .ownershipGrant q => s.post 0 (.remoteAccessFailure q cause)
  | .cellarGroupService _ _ q => s.post 0 (.remoteAccessFailure q cause)
  | .remoteReply l =>
    if (s.req l.req).kind = .flsh then s.post 0 (.remoteReply l)
    else if s.reqs.any fun r => r.1 = l.req then s.post 0 (.remoteAccessFailure l.req cause) else s
  | .generationAdvance _ q => s.post 0 (.remoteReply (landingOf (s.req q) q))
  | .atciRemoval a _ => s.post 0 (.remoteReply (landingOf (s.req a.id) a.id))
  | .probe a l h _ | .recallHolder a l h | .invalidation a l h => s.post 0 (.holderAnswer a l h 0)
  | .racking l d => s.post 0 (.holderAnswer (homeDie (64 * l)) l d 0)
  | .holderAnswer a l h dirty => s.post 0 (.holderAnswer a l h dirty)
  | .resplitShare h r _ _ ack => if ack then s.post 0 (.resplitAck h r) else s
  | .resplitAck h r => s.post 0 (.resplitAck h r)
  | .barrierMessage b => s.post 0 (.remoteAccessFailure b.tag cause)
  | .barrierReply b => s.post 0 (.remoteAccessFailure b.tag cause)
  | .accsAddOnStore o => finishOp ((noteFail s o 2 cause m.dst (s.op o).dst).modOp o fun p => { p with chunks := [] }) o
  | .chunkComplete o k => finishOp ((noteFail s o 2 cause m.here (s.op o).dst).modOp o fun p => { p with chunks := kvDel p.chunks k }) o
  | .ringStepArrival st => match stepOwner s st.id with
    | some (o, _) => failInstance s (s.op o) 6 cause m.dst (s.op o).src
    | none => s
  | .cohortIndexRequest _ _ _ | .mirrorRecord _ _ _ _ | .mirrorAck _ _ _ _ | .cohortGrant _ _ _ _ => s.post dieClk m.ev
  | _ => s

/-- The message has left every queue. -/
def dropMsg (s : State) (id : Nat) : State :=
  { s with msgs := kvDel s.msgs id, dirs := s.dirs.map fun d => (d.1, { d.2 with pass := d.2.pass.filter (· ≠ id), inj := d.2.inj.filter (· ≠ id) }),
           links := s.links.map fun l => (l.1, { l.2 with waiting := l.2.waiting.filter fun w => w.2 ≠ id }),
           dies := s.dies.map fun d => (d.1, { d.2 with heldTraffic := d.2.heldTraffic.filter (· ≠ id) }) }

/-- A transaction that awaits a holder that can no longer answer goes on; a line that the holder owned, or in which it held
sums, is poisoned (R234, R242, R249, R259). -/
def answerFor (s : State) (a key h : Nat) : State :=
  let line := lineOfKey key
  let m := agentMeta s a line
  let owned := (decide (2 ≤ m.st) && decide (m.st ≤ 4) && decide (m.owner = codeOf a h)) || decide (m.st = 5)
  let s := if !owned then s
    else if !isHome a line then lostOwner s a line
    else modTxn (if m.st = 5 then caskLost s a line (codeOf a h) else s) a key fun t => { t with poison := if t.poison = 0 then 17 else t.poison }
  s.post 0 (.holderAnswer a line h 0)

/-- Open cask entries whose home is unreachable are closed, their sums lost (R262). -/
def closeCasks (s : State) : State :=
  s.dies.foldl (fun s d => d.2.cask.foldl (fun s e =>
    let home := homeDie (64 * e.1)
    if home = d.1 ∨ (unreach s d.1 home).isNone then s
    else caskLost (s.modDie d.1 fun x => { x with cask := kvDel x.cask e.1 }) d.1 e.1 (d.1 % 16)) s) s

/-- Everything that waits for a die which is now unreachable fails or counts as answered, in this clk. -/
def failLost (s : State) : State :=
  let gone := s.msgs.filter fun m => (unreach s m.2.here m.2.dst).isSome
  let s := closeCasks (gone.foldl (fun s m => lostEv (dropMsg s m.1) m.2) s)
  let s := s.reqs.foldl (fun s r =>
    let d := dieOfCore r.2.core
    let home := if r.2.kind = .launch then r.2.agent else placeDie r.2.cls r.2.pa
    if r.2.stage ≠ 1 ∨ r.2.kind = .flsh ∨ r.2.kind = .rgset ∨ d = home then s
    else match unreach s d home with
      | some c => s.post 0 (.remoteAccessFailure r.1 (if c = 3 then 3 else 2))
      | none => s) s
  let s := s.dies.foldl (fun s d => d.2.txns.foldl (fun s t =>
    (t.2.await.filter fun h => decide (h ≠ selfMark) && (unreach s d.1 h).isSome).foldl (fun s h => answerFor s d.1 t.1 h) s) s) s
  let s := s.ops.foldl (fun s o =>
    if o.2.kind = .accs ∧ o.2.add ∧ o.2.stage < 3 ∧ (kvGet {} o.2.chunks 0).phase = 2 then
      match transAt o.2 o.2.dst.toNat with
      | some q =>
        let home := placeDie q.cls q.pa
        match (if home = dieOfCore o.2.core then none else unreach s (dieOfCore o.2.core) home) with
        | some c => finishOp (noteFail s o.1 2 c home o.2.dst) o.1
        | none => s
      | none => s
    else s) s
  s.ops.foldl (fun s o =>
    if o.2.cls ≠ 3 ∨ 3 ≤ o.2.stage ∨ o.2.fail ≠ 0 then s
    else
      let d := dieOfCore o.2.core
      match (instDies o.2).find? fun r => decide (r ≠ d) && (unreach s d r).isSome with
      | some r => if s.ops.any (fun x => x.1 = o.1) then failInstance s (s.op o.1) 6 ((unreach s d r).getD 2) r o.2.src else s
      | none => s) s

/-! ### Bridge directions (R11, R344) -/

/-- The bridge that a direction crosses, by the die of its lower end (R8). -/
def bridgeOf (dir : Nat) : Nat :=
  let d := dir / 2
  if dir % 2 = 0 then d else 16 * (d / 16) + (d + 15) % 16
/-- The die at the far end of a direction. -/
def farDie (dir : Nat) : Nat :=
  let d := dir / 2
  16 * (d / 16) + (if dir % 2 = 0 then (d + 1) % 16 else (d + 15) % 16)
/-- The two directions of a bridge. -/
def bridgeDirs (d : Nat) : List Nat := [2 * d, 2 * (16 * (d / 16) + (d + 1) % 16) + 1]

/-- The flits that a direction carries in a clk (Table 1-4; notes/assumptions/1.md). -/
def flitsPerClk : Nat := 104

/-- The message of which an active direction grants the next flit, and whether it passes (R11): passing and injected flits
alternate strictly where both wait. -/
def nextGrant (x : Dir) : Option (Nat × Bool) :=
  match x.pass, x.inj with
  | [], [] => none
  | a :: _, [] => some (a, true)
  | [], b :: _ => some (b, false)
  | a :: _, b :: _ => if x.gavePass then some (b, false) else some (a, true)

/-- The message at the head of one kind of waiting traffic has left its direction. -/
def Dir.pop (x : Dir) (passing : Bool) : Dir := if passing then { x with pass := x.pass.drop 1 } else { x with inj := x.inj.drop 1 }

/-- Grants flits of a direction for one clk; a message reaches the far die with its last flit. -/
def grantFlits : Nat → State → Nat → State
  | 0, s, _ => s
  | n + 1, s, dir =>
    match nextGrant (s.dir dir) with
    | none => s
    | some (id, passing) =>
      match s.msgs.find? fun m => m.1 = id with
      | none => grantFlits n (s.modDir dir fun x => x.pop passing) dir
      | some (_, m) =>
        let whole := decide (msgFlits s 64 m ≤ m.sent + 1)
        let s : State := { s with msgs := kvSet s.msgs id { m with since := 0, sent := if whole then 0 else m.sent + 1 } }
        let s := s.modDir dir fun x => { (if whole then x.pop passing else x) with gavePass := passing, last := s.clk }
        grantFlits n (if whole then s.post hopClk (.bridgeFlit dir id) else s) dir

/-- A direction that has just carried a flit becomes idle after its time (R344). -/
def armIdle (s : State) (dir : Nat) : State :=
  (s.unpost (.directionIdle dir)).post ((s.die (dir / 2)).idleAfter * usClk) (.directionIdle dir)

/-- BRIDGE_FLIT, R11: with message 0 the direction grants the flits of this clk; a granted flit reaches the far die. -/
def evBridgeFlit (s : State) (dir id : Nat) : State :=
  if id ≠ 0 then
    match s.msgs.find? fun m => m.1 = id with
    | none => s
    | some (_, m) => forward { s with msgs := kvSet s.msgs id { m with here := farDie dir } } id true
  else if (s.dir dir).state ≠ 0 ∨ !bridgeOk s dir then s
  else pumpDir (armIdle (grantFlits flitsPerClk s dir) dir) dir

/-- DIRECTION_IDLE, R344. -/
def evDirectionIdle (s : State) (dir : Nat) : State :=
  let x := s.dir dir
  let d := s.die (dir / 2)
  if x.state ≠ 0 ∨ (bridgeOk s dir && (!x.pass.isEmpty || !x.inj.isEmpty)) ∨ s.clk < x.last + d.idleAfter * usClk then s
  else (s.modDir dir fun x => { x with state := 1, last := s.clk }).post (d.sleepAfter * usClk) (.directionSleep dir)

/-- DIRECTION_SLEEP, R344. -/
def evDirectionSleep (s : State) (dir : Nat) : State :=
  let x := s.dir dir
  let d := s.die (dir / 2)
  if x.state = 1 ∧ d.sleepEn ∧ x.last + d.sleepAfter * usClk ≤ s.clk then s.modDir dir fun x => { x with state := 2 } else s

/-- LINK_WAKE_COMPLETE, R247: held messages are sent in the clk after. -/
def evLinkWakeComplete (s : State) (dir : Nat) : State :=
  if (s.dir dir).state ≠ 3 then s
  else pumpDir (armIdle (s.modDir dir fun x => { x with state := 0, errs := 0, last := s.clk }) dir) dir

/-- Errors of a bridge are counted; THRESH of them in a window declare it failed (R345). -/
def bridgeErrors (s : State) (b n : Nat) : State :=
  let s := s.modDie b fun x => { x with brgErr := min 255 (x.brgErr + n) }
  if (s.die b).brgThresh ≤ (s.die b).brgErr ∧ !(s.die b).brgFailed then s.post 0 (.bridgeDeclaredFailed b) else s

/-- LINK_WAKE_ERROR, R248: the bridge retrains and wakes again, within 20 µs or not; a retraining that fails, and three errors in a row,
declare it failed (R345; notes/assumptions/91.md). -/
def evLinkWakeError (s : State) (dir : Nat) : State :=
  if (s.dir dir).state ≠ 3 then s else
  let b := bridgeOf dir
  let s := (s.unpost (.linkWakeComplete dir)).modDir dir fun x => { x with errs := x.errs + 1 }
  let s := (s.modDie (dir / 2) fun x => { x with wakeErr := min 255 (x.wakeErr + 1) }).raise (dir / 2)
    { kind := 0x14, detail := b % 16 + (dir % 2) * 256 }
  let s := bridgeErrors s b 1
  let (r, s) := s.chooseBelow 2
  if r = 1 ∨ 3 ≤ (s.dir dir).errs then s.post 0 (.bridgeDeclaredFailed b)
  else
    let (v, s) := s.chooseBelow wakeLimit
    let v := v + 1
    s.post v (if v < wakeLimit then .linkWakeComplete dir else .linkWakeError dir)

/-- BRIDGE_CRC_FAILURE, R345: the flit is sent again; a retraining counts as well. -/
def evBridgeCrcFailure (s : State) (b : Nat) (retrained : Bool) : State := bridgeErrors s b (if retrained then 2 else 1)

/-- ERRCNT_WINDOW_EXPIRY, R345. -/
def evErrcntWindowExpiry (s : State) (b : Nat) : State :=
  (s.modDie b fun x => { x with brgErr := 0 }).post ((s.die b).brgWindow * 100 * usClk) (.errcntWindowExpiry b)

/-- The die that reports for a package: one that is not dead, from `d` on. -/
def reporter (s : State) (d : Nat) : Nat :=
  (((List.range 16).map fun k => 16 * (d / 16) + (d + k) % 16).find? fun e => (s.die e).ok && !(s.die e).dead).getD d

/-- BRIDGE_DECLARED_FAILED, R345: without another cause its retraining has failed, and a die of which both bridges have failed so is dead
(R249). Flits on the bridge are kept by the die before it, and within 2 µs the rings wrap. -/
def evBridgeDeclaredFailed (s : State) (b : Nat) : State :=
  if (s.die b).brgFailed then s else
  let e := 16 * (b / 16) + (b + 1) % 16
  let other := decide ((s.die b).brgThresh ≤ (s.die b).brgErr) || (s.die b).dead || (s.die e).dead || (bridgeDirs b).any fun k => 3 ≤ (s.dir k).errs
  let s := (s.modDie b fun x => { x with brgFailed := true, brgLost := !other }).raise (reporter s b) { kind := 0x15, detail := b % 16 }
  let s := [b, e].foldl (fun s d =>
    if (s.die d).brgLost && (s.die (16 * (d / 16) + (d + 15) % 16)).brgLost && !(s.die d).dead then s.post 0 (.dieDead d) else s) s
  let s := (bridgeDirs b).foldl (fun s dir =>
    let onWire := s.agenda.filterMap fun e => match e.2 with
      | .bridgeFlit k id => if k = dir ∧ id ≠ 0 then some id else none
      | _ => none
    let s := onWire.foldl (fun s id => s.unpost (.bridgeFlit dir id)) s
    let s : State := { s with msgs := s.msgs.map fun m => if onWire.contains m.1 then (m.1, { m.2 with since := s.clk + 1 }) else m }
    let s := s.modDir dir fun x => { x with pass := onWire ++ x.pass }
    let held := (s.dir dir).pass ++ (s.dir dir).inj
    { s with msgs := s.msgs.map fun m => if held.contains m.1 then (m.1, { m.2 with sent := 0 }) else m }) s
  let (v, s) := s.chooseBelow (2 * usClk)
  s.post (v + 1) (.ringWrapComplete b)

/-! ### Wrap (R346 to R348) -/

/-- The bridges of a route of at most `n` hops within a package, first leaving on ring `r`. -/
def bridgesOn (s : State) (p t : Nat) : Nat → Nat → Nat → List Nat
  | 0, _, _ => []
  | n + 1, x, r =>
    if x = t then [] else
    match ringStep s p x r with
    | none => []
    | some (r', y) => (16 * p + (if r' = 0 then x else y)) :: bridgesOn s p t n y r'

/-- A step's route from its sender crosses a bridge: ring A or B while the rings are whole (R336), else that of R346. -/
def stepCrosses (s : State) (st : RingStep) (b : Nat) : Bool :=
  let p := pkgOfDie st.sender
  let t := st.receiver % 16
  let r := if wrapped s p then ((ringRoute s p (st.sender % 16) t).getD (0, 0)).1 else if st.kind = 0 then 0 else 1
  decide (pkgOfDie b = p) && (bridgesOn s p t 32 (st.sender % 16) r).contains b

/-- In the clk after the wrap completes, the held flits go by the wrapped route (R346); no wake of the bridge goes on, and its
directions become idle after their time (R344). -/
def sendHeld (s : State) (b : Nat) : State :=
  (bridgeDirs b).foldl (fun s dir =>
    let x := s.dir dir
    let s := (s.unpost (.linkWakeComplete dir)).unpost (.linkWakeError dir)
    let s := s.modDir dir fun x => { x with pass := [], inj := [], state := if x.state = 3 then 0 else x.state }
    let s := if (s.dir dir).state = 0 then armIdle s dir else s
    let s := x.pass.foldl (fun s id => forward s id true) s
    x.inj.foldl (fun s id => forward s id false) s) s

/-- RING_WRAP_COMPLETE, R346, R347: steps not acknowledged whose route crossed the bridge are sent once again, what is now
unreachable fails, and in the next clk the held flits go. -/
def evRingWrapComplete (s : State) (b : Nat) : State :=
  if (s.die b).brgWrapped then sendHeld s b else
  let again := s.ops.flatMap fun o => o.2.unacked.filterMap fun u => if stepCrosses s u.2 b then some (o.1, u.2) else none
  let s := (s.modDie b fun x => { x with brgWrapped := true }).post 1 (.ringWrapComplete b)
  let s := again.foldl (fun s e =>
    if s.ops.any fun o => o.1 = e.1 then sendStep (s.modOp e.1 fun p => { p with restarts := p.restarts + 1 }) e.1 e.2 else s) s
  failLost s

/-! ### Heartbeats and dead dies (R249, R406, R407) -/

/-- HEARTBEAT, R249: a die's heartbeat arrives on both its bridges; 50 µs without one declare it dead. -/
def evHeartbeat (s : State) (d : Nat) : State :=
  if (s.die d).dead then s
  else ((s.unpost (.dieDead d)).post (50 * usClk) (.dieDead d)).post (5 * usClk) (.heartbeat d)

/-- The leader of a strip after its leader's death: its mirror, where that is a span die (R407). -/
def newLeader (s : State) (t : Strip) : Nat :=
  match (mirrorDie s t).filter t.dies.contains with
  | some m => m
  | none => (t.dies.find? fun e => !(s.die e).dead).getD t.leader

/-- The strip of a launch after the death of a die (R406, R407): cohorts on it, and an index under way to it, are lost; the mirror
becomes leader and resolves its last entry; a strip without a live span die ends. -/
def stripLoss (s : State) (l x d : Nat) : State :=
  let t := stripAt s l x
  if t.pkg ≠ pkgOfDie d ∨ t.closed then s else
  let gone := (t.placed.filter fun g => g.2 = d).length + (t.sent.filter fun g => g.2 = d).length + (t.again.filter fun w => w.die = d).length
  let aim := match t.pending with
    | some (_, e) => decide (e = d)
    | none => false
  let t' := { t with
    placed := t.placed.filter fun g => g.2 ≠ d, sent := t.sent.filter fun g => g.2 ≠ d, again := t.again.filter fun w => w.die ≠ d,
    asked := t.asked.filter (· ≠ d), heard := t.heard.filter (· ≠ d), opened := kvDel t.opened d,
    pending := if aim then none else t.pending, next := if aim then t.next + 1 else t.next }
  let lost (s : State) (n : Nat) : State := s.modLaunch l fun y => { y with lost := y.lost + n }
  let s := lost (modStrip s l x fun _ => t') (gone + aim.toNat)
  if t.dies.all fun e => (s.die e).dead then
    seekAll (lost (modStrip s l x fun t => { t with next := t.stop, pending := none, closed := true }) (t'.stop - t'.next))
  else
    let s := if t.leader ≠ d then s
      else modStrip s l x fun t => { t with
        leader := newLeader s t, heard := t.asked }
    let t := stripAt s l x
    let s := match t.pending with
      | some (c, e) =>
        if t.mirror = some (c, e) ∨ (mirrorDie s t).isNone then s.post 0 (.mirrorAck l x c e)
        else match mirrorDie s t with
          | some m => dispSend s t.leader m (.mirrorRecord l x c e)
          | none => s
      | none => grantNext s l x
    let s := t.sent.foldl (fun s g => dispSend s (stripAt s l x).leader g.2 (.cohortGrant l x g.1 g.2)) s
    closeStrip (stripSpent s l x) l x

/-- The queues whose descriptor a dead die homes are lost (R406). -/
def queueLoss (s : State) (d : Nat) : State :=
  let p := pkgOfDie d
  (dirAsids s p).foldl (fun s a => (List.range 64).foldl (fun s i =>
    let q := queueOf s p a i
    if asidLive s p a ∧ q.enabled ∧ homeDie q.pa = d ∧ !(s.pkg p).lostQ.contains (a, i) then
      (s.modPkg p fun g => { g with lostQ := (a, i) :: g.lostQ }).raise (reporter s d) (queueRec 0x17 a i)
    else s) s) s

/-- What stood on a dead die is gone: its cohorts, requests and operations. -/
def emptyDie (s : State) (d : Nat) : State :=
  let cs := s.cores.filterMap fun c => if dieOfCore c.1 = d then some c.1 else none
  let s := cs.foldl (fun s c => setCoreRegs (s.modCore c bareCore) c [] [] []) s
  let s : State := { s with reqs := s.reqs.filter fun r => dieOfCore r.2.core ≠ d, ops := s.ops.filter fun o => dieOfCore o.2.core ≠ d,
                            saved := s.saved.filter fun v => dieOfCore v.2.core ≠ d }
  s.modDie d fun x => { x with classQ := [], ringRot := [], spans := [], copies := [], held := [], cask := [] }

/-- DIE_DEAD, R249: the die is unreachable, its bridges are declared failed, and everything that waited for it ends. -/
def evDieDead (s : State) (d : Nat) : State :=
  if (s.die d).dead then s else
  let s := s.modDie d fun x => { x with dead := true, ok := false }
  let s := s.raise (reporter s d) { kind := 0x16, detail := d % 16 }
  let s := emptyDie s d
  let s := [d, 16 * (d / 16) + (d + 15) % 16].foldl (fun s b => if (s.die b).brgFailed then s else s.post 0 (.bridgeDeclaredFailed b)) s
  let s : State := { s with launches := s.launches.map fun l => if l.2.server = d then (l.1, { l.2 with server := reporter s d }) else l }
  let s := queueLoss s d
  let s := s.launches.foldl (fun s l => l.2.strips.foldl (fun s t => stripLoss s l.1 t.1 d) s) s
  failLost s

/-! ### Flits as bytes (R356 to R358) -/

/-- One bit of a CRC-32 of IEEE 802.3, reflected (R356). -/
def crcBit (c : Word) : Word := if c.getLsbD 0 then (c >>> 1) ^^^ 0xEDB88320 else c >>> 1
/-- One byte of a CRC-32. -/
def crcByte (c : Word) (b : Byte) : Word := (List.range 8).foldl (fun c _ => crcBit c) (c ^^^ b.setWidth 32)
/-- The CRC-32 of some bytes (R356). -/
def crc32 (l : List Byte) : Word := ~~~ (l.foldl crcByte 0xFFFFFFFF)

/-- The 48 bits of a flit's header (Table 17-1). -/
def Flit.header (f : Flit) : Nat :=
  (((((f.seq.toNat * 65536 + f.ack.toNat) * 4 + f.vc.toNat) * 16 + f.kind.toNat) * 4) + f.gvc.toNat) * 256 + f.grant.toNat
/-- Bytes 0 to 59 of a flit: its header and its payload. -/
def Flit.front (f : Flit) : List Byte := leBytes 6 f.header ++ (f.body.take 54 ++ List.replicate (54 - f.body.length) 0)
/-- The 64 bytes of a flit (R356). -/
def Flit.bytes (f : Flit) : List Byte := f.front ++ leBytes 4 (crc32 f.front).toNat

/-- The flit that 60 bytes stand for. -/
def flitOf (l : List Byte) : Flit :=
  let h := bytesNat (l.take 6)
  { seq := BitVec.ofNat 16 (natBits h 32 16), ack := BitVec.ofNat 16 (natBits h 16 16), vc := BitVec.ofNat 2 (natBits h 14 2),
    kind := BitVec.ofNat 4 (natBits h 10 4), gvc := BitVec.ofNat 2 (natBits h 8 2), grant := BitVec.ofNat 8 (natBits h 0 8),
    body := (l.drop 6).take 54 }

/-- The bytes of a flit of which no beat is missing. -/
def wireBytes : Wire → Option (List Byte)
  | [] => some []
  | none :: _ => none
  | some b :: r => (wireBytes r).map (b :: ·)

/-- The flit that a receiver reassembles: none where a beat is missing or the CRC fails (R356, R357). -/
def received (w : Wire) : Option Flit :=
  match wireBytes w with
  | none => none
  | some l => if l.length = 64 ∧ bytesNat (l.drop 60) = (crc32 (l.take 60)).toNat then some (flitOf l) else none

/-- The fibres of a mask in ascending order. -/
def fibresOf (m : BitVec 16) : List Nat := (List.range 16).filter fun f => m.getLsbD f
/-- The fibre of beat `b` of a link's stream: the active slot of rank b mod a (R357). -/
def beatFibre (m : BitVec 16) (b : Nat) : Nat := (fibresOf m).getD (b % (fibresOf m).length) 0
/-- What arrives of flit `i` of a stream over the slots `m` when the slots `lost` carry no light (R357). -/
def overSlots (m lost : BitVec 16) (i : Nat) (l : List Byte) : Wire :=
  l.zipIdx.map fun e => if lost.getLsbD (beatFibre m (8 * i + e.2 / 8)) then none else some e.1

/-- The payload of a DATA flit: the message it carries and whether this is its last flit (R358: internal to the device). -/
def dataBody (id : Nat) (whole : Bool) : List Byte := leBytes 54 (2 * id + whole.toNat)
/-- The message of a DATA flit, and whether the flit is its last. -/
def Flit.msg (f : Flit) : Nat × Bool := (bytesNat f.body / 2, bytesNat f.body % 2 = 1)
/-- The mask or the number in bytes 6 and 7 of a RESTRIPE or RELOCK (Table 17-2). -/
def Flit.half (f : Flit) : BitVec 16 := BitVec.ofNat 16 (bytesNat (f.body.take 2))

/-! ### Links (R353 to R362) -/

/-- What the other end of a plane holds for this die's package. -/
def peerOf (l : Nat) : Nat := 32 * (16 * (l % 32) + l / 32 % 16) + l / 32 / 16
/-- The slots over which a link sends. -/
def Link.active (x : Link) : BitVec 16 := x.txMask &&& ~~~ x.txDark
/-- The receive slots that have light, as far as the receiver knows. -/
def Link.lit (x : Link) : BitVec 16 := x.rxMask &&& ~~~ x.rxDark
/-- One bit of a mask. -/
def fibreBit (f : Nat) : BitVec 16 := BitVec.ofNat 16 (2 ^ f)
/-- The fibres of a quad (R352). -/
def quadMask (g : Nat) : BitVec 16 := BitVec.ofNat 16 (15 * 2 ^ (4 * g))
/-- The wavelength of a link's slots (R353). -/
def waveOf (l : Nat) : Nat := (l % 32 + 32 - pkgOfDie (l / 32)) % 32

/-- The fibres on which the laser source of a link's wavelength has failed (R352). -/
def laserDark (s : State) (l : Nat) : BitVec 16 :=
  (List.range 4).foldl (fun m g => if (s.die (l / 32)).lasersFailed.contains (8 * g + waveOf l / 4) then m ||| quadMask g else m) 0

/-- The transmit slots of a link whose light has fallen and whose loss will be detected within 1 µs (R361). -/
def fading (s : State) (l : Nat) : BitVec 16 :=
  let soon (due d k : Nat) : Bool := decide (due ≤ s.clk + Config.lightLead due d k % (usClk + 1))
  s.agenda.foldl (fun m e => match e.2 with
    | .lossOfLight k f => if k = peerOf l && soon e.1 (k / 32) f then m ||| fibreBit f else m
    | .laserSourceFailure d g i => if d = l / 32 && decide (i = waveOf l / 4) && soon e.1 d (16 + 8 * g + i) then m ||| quadMask g else m
    | _ => m) 0

/-- The slots that both ends of a link have: all of them, or the link does not train (R354). -/
def matched (s : State) (l : Nat) : Bool := decide ((s.link l).txMask ≠ 0) && decide ((s.link l).txMask = (s.link (peerOf l)).rxMask)

/-- The detail word of a fabric record (R370). -/
def linkDetail (s : State) (l : Nat) : Nat := (s.link l).active.toNat * 65536 + l % 32 * 2 ^ 11 + l / 32 % 16 * 2 ^ 7
/-- Raises a fabric record for a link. -/
def linkRec (s : State) (l kind : Nat) : State := s.raise (l / 32) { kind := kind, detail := linkDetail s l }

/-- A link sends now: it is up, has light, and its die is not dark in a re-plan (R362, R363). -/
def maySend (s : State) (l : Nat) : Bool :=
  (s.link l).up && decide ((s.link l).active ≠ 0) && decide ((s.die (l / 32)).planPhase ≤ 1)

/-- The slots over which a flit goes: the active ones, or those with light while the link has none in its mapping. -/
def sendSlots (s : State) (l : Nat) : BitVec 16 :=
  let x := s.link l
  if x.active ≠ 0 then x.active else x.txMask &&& (s.link (peerOf l)).lit &&& ~~~ laserDark s l

/-- A flit with the GRANT that this end has for its peer (R360); a sequenced flit keeps its GRANT when it is sent again, so that it is taken
once (notes/assumptions/56.md). -/
def grantFlit (s : State) (l : Nat) (f : Flit) : Flit × State :=
  let x := s.link l
  let g := ((List.range 3).find? fun v => decide (0 < x.freed.getD v 0)).getD 0
  let n := min 255 (x.freed.getD g 0)
  let freed := x.freed.zipIdx.map fun e => if e.2 = g then e.1 - n else e.1
  ({ f with gvc := BitVec.ofNat 2 g, grant := BitVec.ofNat 8 n }, s.modLink l fun x => { x with freed := freed })

/-- Puts a flit on a link, with the ACK of this end (R359), over its slots (R357). A peer whose selectors are elsewhere receives nothing. -/
def putFlit (s : State) (l : Nat) (f : Flit) : State :=
  let x := s.link l
  let far := peerOf l
  let f := { f with ack := x.taken }
  let w := overSlots (sendSlots s l) ((s.link far).rxDark ||| fading s l) x.stream f.bytes
  let s := s.modLink l fun x => { x with lastSent := s.clk, stream := x.stream + 1 }
  if sendSlots s l = 0 ∨ !matched s l ∨ (s.die (l / 32)).planPhase = 2 ∨ (s.die (far / 32)).planPhase = 2 then s
  else s.post linkClk (match f.kind.toNat with
    | 0 => .data far w
    | 1 => .idle far w
    | 2 => .replay far w
    | 3 => .restripe far w
    | 4 => .drainReq far w
    | 5 => .drainDone far w
    | _ => .relock far w)

/-- Sends a new sequenced flit; the replay buffer keeps it (R359). -/
def putSequenced (s : State) (l : Nat) (f : Flit) : State :=
  let (f, s) := grantFlit s l { f with seq := (s.link l).nextSeq }
  putFlit (s.modLink l fun x => { x with nextSeq := x.nextSeq + 1, replay := x.replay ++ [f] }) l f

/-- Sends the flits of a waiting message for which the channel has allowance and the replay buffer room (R358 to R360). -/
def sendParts : Nat → State → Nat → Nat → Nat → State
  | 0, s, _, _, _ => s
  | n + 1, s, l, vc, id =>
    let x := s.link l
    match s.msgs.find? fun m => m.1 = id with
    | none => s.modLink l fun x => { x with waiting := x.waiting.erase (vc, id) }
    | some (_, m) =>
      if 4096 ≤ x.replay.length ∨ x.allow.getD vc 0 = 0 then s
      else
        let whole := decide (msgFlits s 32 m ≤ m.sent + 1)
        let allow := x.allow.zipIdx.map fun e => if e.2 = vc then e.1 - 1 else e.1
        let s := s.modLink l fun x => { x with waiting := if whole then x.waiting.erase (vc, id) else x.waiting, allow := allow }
        let s : State := { s with msgs := kvSet s.msgs id { m with sent := if whole then 0 else m.sent + 1 } }
        let s := putSequenced s l { vc := BitVec.ofNat 2 vc, kind := 0, body := dataBody id whole }
        if whole then s else sendParts n s l vc id

/-- Sends what may be sent of the waiting messages, each channel in its order. -/
def sendWaiting (s : State) (l : Nat) : List (Nat × Nat) → State
  | [] => s
  | (vc, id) :: r => sendWaiting (sendParts 4096 s l vc id) l r

/-- A link control flit (Table 17-2). -/
def controlFlit (kind : Nat) (seq : BitVec 16) (body : List Byte) : Flit := { seq := seq, kind := BitVec.ofNat 4 kind, body := body }

/-- Requests from the peer that this die has taken and not yet answered (R363). -/
def unanswered (s : State) (l : Nat) : Bool :=
  s.reqs.any fun r => decide (r.2.stage = 1) && decide (pkgOfCore r.2.core = l % 32) && decide (placeDie r.2.cls r.2.pa = l / 32)
    && !(s.msgs.any fun m => m.2.ev = .rd r.1 || m.2.ev = .own r.1 || m.2.ev = .hwr r.1)

/-- The drain's markers (R363): DRAIN_REQ after the last request, DRAIN_DONE once what was taken before the peer's is answered. -/
def sendMarkers (s : State) (l : Nat) : State :=
  let x := s.link l
  let s := if (s.die (l / 32)).planPhase = 1 ∧ x.replay.length < 4096 ∧ !x.drainSent ∧ !(x.waiting.any fun w => w.1 = 0) then
      putSequenced (s.modLink l fun x => { x with drainSent := true }) l (controlFlit 4 0 []) else s
  let x := s.link l
  if x.replay.length < 4096 ∧ x.drainTaken ∧ !x.doneSent ∧ x.waiting.isEmpty ∧ !unanswered s l then
    putSequenced (s.modLink l fun x => { x with doneSent := true }) l (controlFlit 5 0 []) else s

/-- The peers of a die that a re-plan waits for. -/
def planLinks (s : State) (d : Nat) : List Nat := ((s.domain.filter (· ≠ pkgOfDie d)).map (32 * d + ·)).filter fun l => (s.link l).up

/-- The drain of a die is complete (R363): on every link the DRAIN_DONE for its own marker is taken and one for the peer's, if the peer has
sent a marker, is sent (notes/assumptions/22.md). -/
def drainTest (s : State) (d : Nat) : State :=
  if (s.die d).planPhase = 1 ∧ ((planLinks s d).all fun l => let x := s.link l
      (!x.drainTaken || x.doneSent) && x.doneTaken && x.replay.isEmpty) ∧ !s.posted (.replanDrainComplete d) then s.post 0 (.replanDrainComplete d) else s

/-- The timer of a link runs (R359). -/
def armTimer (s : State) (l : Nat) : State := (s.unpost (.idleFlitTimer l)).post 120 (.idleFlitTimer l)

/-- The peer does not yet stripe over the slots that this end receives with light: RESTRIPE has had no effect so far (R359). -/
def restripeDue (s : State) (l : Nat) : Bool :=
  let y := s.link (peerOf l)
  matched s (peerOf l) && decide (y.active ≠ y.txMask &&& (s.link l).lit &&& ~~~ laserDark s (peerOf l))

/-- A receiver announces its active slots on the reverse link (R361, Table 17-2). -/
def sendRestripe (s : State) (l : Nat) : State := putFlit s l (controlFlit 3 0 (leBytes 2 (s.link l).lit.toNat))

/-- Sends RELOCK on a link with the next SEQ to be sent and the allowances (R363, Table 17-2). -/
def sendRelock (s : State) (l : Nat) : State :=
  let x := s.link l
  let next := match x.replay with
    | f :: _ => f.seq
    | [] => x.nextSeq
  armTimer (putFlit s l (controlFlit 6 0 (leBytes 2 next.toNat ++ x.allow.map (BitVec.ofNat 8)))) l

/-- IDLE_FLIT_TIMER, R359: the sender looks at its traffic; with nothing sent for 100 ns it sends IDLE, and it repeats a RESTRIPE or a RELOCK that
has had no effect. -/
def evIdleFlitTimer (s : State) (l : Nat) : State :=
  if (s.die (l / 32)).planPhase = 3 ∨ ((s.link l).relocking && decide ((s.link l).active ≠ 0)) then (if (s.link l).relocked then s else sendRelock s l)
  else
    let s := if restripeDue s l then sendRestripe s l else s
    if !maySend s l then (if restripeDue s l then armTimer s l else s)
    else
      let s := sendMarkers (sendWaiting s l (s.link l).waiting) l
      let s := if (s.link l).lastSent + 120 ≤ s.clk then (let (f, s) := grantFlit s l (controlFlit 1 0 []); putFlit s l f) else s
      drainTest (armTimer s l) (l / 32)

/-- What the ACK and the GRANT of a flit tell this end (R359, R360). -/
def takeHeader (s : State) (l : Nat) (f : Flit) : State :=
  let x := s.link l
  let replay := if x.replay.any fun e => e.seq = f.ack then (x.replay.dropWhile fun e => e.seq ≠ f.ack).drop 1 else x.replay
  let allow := x.allow.zipIdx.map fun e => if e.2 = f.gvc.toNat then e.1 + f.grant.toNat else e.1
  let s := s.modLink l fun x => { x with replay := replay, allow := allow, lastTaken := s.clk }
  if (s.link l).waiting.isEmpty then s else pumpLink s l

/-- The receiver asks for the number it expects, at most once per µs for one number (R359). -/
def askReplay (s : State) (l : Nat) : State :=
  let x := s.link l
  let want := x.taken + 1
  if x.replayFor = want ∧ x.lastReplay ≠ 0 ∧ s.clk < x.lastReplay + usClk then s
  else if !maySend s l then s
  else (putFlit (s.modLink l fun x => { x with replayFor := want, lastReplay := s.clk }) l (controlFlit 2 want [])).post usClk (.replayRepeatTimer l)

/-- A flit is received (R356): one whose CRC fails is discarded and asked for again (R359), one of another KIND, a reserved one among them, is
discarded, any other is taken by `k`. -/
def takeFlit (s : State) (l kind : Nat) (w : Wire) (k : State → Flit → State) : State :=
  match received w with
  | none => askReplay s l
  | some f => if f.kind.toNat = kind then k s f else s

/-- A sequenced flit is taken in order by `k`, or discarded (R359). -/
def takeSequenced (s : State) (l kind : Nat) (w : Wire) (k : State → Flit → State) : State :=
  takeFlit s l kind w fun s f =>
    let x := s.link l
    if f.seq = x.taken + 1 then k (takeHeader (s.modLink l fun x => { x with taken := f.seq, lastReplay := 0 }) l f) f
    else if (x.taken - f.seq).toNat < 32768 then s
    else askReplay s l

/-- An unsequenced flit is taken by `k` with its header (R359). -/
def takeUnsequenced (s : State) (l kind : Nat) (w : Wire) (k : State → Flit → State) : State :=
  takeFlit s l kind w fun s f => k (takeHeader s l f) f

/-- DATA, R359: with its last flit a message goes on from this die; the flit's buffer is free again. -/
def evData (s : State) (l : Nat) (w : Wire) : State :=
  takeSequenced s l 0 w fun s f =>
    let freed := (s.link l).freed.zipIdx.map fun e => if e.2 = f.vc.toNat then e.1 + 1 else e.1
    let s := s.modLink l fun x => { x with freed := freed }
    match s.msgs.find? fun m => m.1 = f.msg.1 with
    | some (id, m) => if f.msg.2 then forward { s with msgs := kvSet s.msgs id { m with here := l / 32, sent := 0 } } id false else s
    | none => s

/-- IDLE, R359. -/
def evIdle (s : State) (l : Nat) (w : Wire) : State := takeUnsequenced s l 1 w fun s _ => drainTest s (l / 32)

/-- Sends the replay buffer again from a number on (R359, R361). -/
def resendFrom (s : State) (l : Nat) (seq : BitVec 16) : State :=
  if !maySend s l then s
  else ((s.link l).replay.dropWhile fun e => e.seq ≠ seq).foldl (fun s f => putFlit s l f) s

/-- REPLAY, R359. -/
def evReplay (s : State) (l : Nat) (w : Wire) : State := takeUnsequenced s l 2 w fun s f => resendFrom s l f.seq

/-- REPLAY_REPEAT_TIMER, R359: the same number is still expected. -/
def evReplayRepeatTimer (s : State) (l : Nat) : State :=
  let x := s.link l
  if x.lastReplay ≠ 0 ∧ x.replayFor = x.taken + 1 ∧ x.lastReplay + usClk ≤ s.clk then askReplay s l else s

/-- The sender has new active slots: it sends again from its oldest unacknowledged flit (R361). A link without any waits
LINK_DEAD µs for light (R362). -/
def slotsChanged (s : State) (l : Nat) : State :=
  let x := s.link l
  if x.active = 0 then
    if x.darkSince ≠ 0 then s
    else (s.modLink l fun x => { x with darkSince := s.clk + 1 }).post ((s.die (l / 32)).linkDead * usClk) (.linkDown l)
  else
    let s := s.modLink l fun x => { x with darkSince := 0 }
    pumpLink (match x.replay with
      | f :: _ => resendFrom s l f.seq
      | [] => s) l

/-- A link stripes over other slots: the die whose mapping changes records a loss (R361, R451), and it sends again. -/
def restripe (s : State) (l : Nat) (dark : BitVec 16) : State :=
  let was := (s.link l).active
  let s := s.modLink l fun x => { x with txDark := (dark ||| laserDark s l) &&& x.txMask }
  let now := (s.link l).active
  if now = was then s
  else slotsChanged (if was &&& ~~~ now = 0 then s else linkRec s l 0x20) l

/-- A link that was down and has a slot again relocks (R362): it begins anew and exchanges RELOCK. -/
def beginRelock (s : State) (l : Nat) : State :=
  sendRelock (s.modLink l fun x => { x with
    relocked := false, relocking := true, stream := 0, nextSeq := 0, replay := [], allow := [64, 64, 64] }) l

/-- RESTRIPE, R361: the mask of the peer's active receive slots; a link that was down and has a slot again relocks (R362). -/
def evRestripe (s : State) (l : Nat) (w : Wire) : State :=
  takeUnsequenced s l 3 w fun s f =>
    let s := restripe s l (~~~ f.half)
    if !(s.link l).up ∧ (s.link l).active ≠ 0 ∧ (s.die (l / 32)).planPhase = 0 then beginRelock s l else s

/-- The receive slots of a link have changed: it announces them, again and again until it sees the effect (R359, R361). -/
def announce (s : State) (l : Nat) : State :=
  let s := sendRestripe s l
  if s.posted (.idleFlitTimer l) then s else armTimer s l

/-- LOSS_OF_LIGHT, R361. -/
def evLossOfLight (s : State) (l f : Nat) : State :=
  announce (s.modLink l fun x => { x with rxDark := x.rxDark ||| (fibreBit f &&& x.rxMask) }) l

/-- LASER_SOURCE_FAILURE, R361, R352: wavelengths 4i to 4i + 3 on the four fibres of the quad go dark; the receivers detect it within 1 µs too. -/
def evLaserSourceFailure (s : State) (d quad source : Nat) : State :=
  let p := pkgOfDie d
  let s := s.modDie d fun x => { x with lasersFailed := insertNat (8 * quad + source) x.lasersFailed }
  (List.range 4).foldl (fun s k =>
    let w := 4 * source + k
    let l := 32 * d + (p + w) % 32
    if w = 0 then s else
    let s := (fibresOf ((s.link l).active &&& quadMask quad)).foldl (fun s f =>
      let (v, s) := s.chooseBelow (usClk + 1)
      s.post v (.lossOfLight (peerOf l) f)) s
    restripe s l (s.link l).txDark) s

/-- SLOT_LIGHT_REGAINED, R361: the slot rejoins the mapping; its source gives light again. -/
def evSlotLightRegained (s : State) (l f : Nat) : State :=
  let far := peerOf l
  let s := s.modDie (far / 32) fun x => { x with lasersFailed := x.lasersFailed.filter (· ≠ 8 * (f / 4) + waveOf far / 4) }
  announce (s.modLink l fun x => { x with rxDark := x.rxDark &&& ~~~ (fibreBit f) }) l

/-- Messages that a link holds fail with it. -/
def loseLink (s : State) (l : Nat) : State :=
  let x := s.link l
  let ids := x.waiting.map (·.2) ++ (x.replay.filterMap fun f => if f.kind = 0 then some f.msg.1 else none)
  let s := s.modLink l fun x => { x with waiting := [], replay := [] }
  ids.foldl (fun s id => match s.msgs.find? fun m => m.1 = id ∧ m.2.here = l / 32 with
    | some (_, m) => lostEv (dropMsg s id) m
    | none => s) s

/-- The peer's receiver has taken no flit for LINK_DEAD µs. -/
def starved (s : State) (l : Nat) : Bool :=
  decide ((s.link (peerOf l)).lastTaken + (s.die (l / 32)).linkDead * usClk ≤ s.clk)

/-- LINK_DOWN, R362: the watch on a link; where it has had no active slot, or its receiver no flit, for LINK_DEAD µs, it is down and
its requests fail. -/
def evLinkDown (s : State) (l : Nat) : State :=
  let x := s.link l
  let d := s.die (l / 32)
  if !x.up then s
  else if (x.darkSince ≠ 0 ∧ x.darkSince + d.linkDead * usClk ≤ s.clk + 1) ∨ x.txMask = 0 ∨ (d.planPhase = 0 ∧ starved s l) then
    failLost (loseLink (linkRec (s.modLink l fun x => { x with up := false }) l 0x21) l)
  else if s.posted (.linkDown l) then s
  else s.post (max 1 ((s.link (peerOf l)).lastTaken + d.linkDead * usClk - s.clk)) (.linkDown l)

/-- Both ends of a link begin anew (R360, R363). -/
def freshLink (s : State) (l : Nat) : State :=
  let s := s.modLink l fun x => { x with
    up := true, relocking := false, stream := 0, nextSeq := 0, replay := [], allow := [64, 64, 64], darkSince := 0, lastSent := s.clk }
  (s.modLink (peerOf l) fun x => { x with taken := 0xFFFF, freed := [0, 0, 0], lastTaken := s.clk, lastReplay := 0 }).post
    ((s.die (l / 32)).linkDead * usClk) (.linkDown l)

/-- LINK_UP, R362: a down link that has a slot again has relocked. -/
def evLinkUp (s : State) (l : Nat) : State :=
  if (s.link l).up ∨ (s.link l).active = 0 then s else pumpLink (linkRec (freshLink s l) l 0x22) l

/-! ### Pairing plans (R353 to R355, R363, R364) -/

/-- Byte `j` of a plan. -/
def planByte (pl : KV Byte) (j : Nat) : Nat := (kvGet 0 pl j).toNat

/-- A plan is refused (R354). -/
def planBad (pl : KV Byte) : Bool :=
  (List.range 256).any fun j =>
    let b := planByte pl j
    decide (128 ≤ b) && decide (b % 32 = 0) || decide (b / 32 % 4 ≠ 0)
      || (decide (128 ≤ b) && (List.range 8).any fun i => decide (8 * (j / 8) + i ≠ j) && decide (planByte pl (8 * (j / 8) + i) = b))

/-- The default even plan (R355). -/
def defaultPlan : KV Byte :=
  ((List.range 124).map fun j => (j, BitVec.ofNat 8 (128 + j % 31 + 1))) ++ (List.range 124).map fun j => (128 + j, BitVec.ofNat 8 (128 + j % 31 + 1))

/-- The fibres whose selectors pick a wavelength on one side of a plan. -/
def planMask (pl : KV Byte) (side w : Nat) : BitVec 16 :=
  (List.range 16).foldl (fun m f => if w ≠ 0 ∧ (List.range 8).any fun i => planByte pl (128 * side + 8 * f + i) = 128 + w then m ||| fibreBit f else m) 0

/-- The slots of every link of a die as the plan in force gives them (R353); those of a failed laser source stay dark (R352). -/
def applyPlan (s : State) (d : Nat) : State :=
  let pl := (s.die d).planInForce
  let p := pkgOfDie d
  (s.domain.filter (· ≠ p)).foldl (fun s q =>
    let l := 32 * d + q
    let tx := planMask pl 0 ((q + 32 - p) % 32)
    let rx := planMask pl 1 ((p + 32 - q) % 32)
    s.modLink l fun x => { x with txMask := tx, rxMask := rx, txDark := (x.txDark ||| laserDark s l) &&& tx, rxDark := x.rxDark &&& rx }) s

/-- REPLAN_GO, R363: PLAN is judged, and the drain begins. -/
def evReplanGo (s : State) (d : Nat) : State :=
  let x := s.die d
  if x.go then s
  else if planBad x.plan then s.modDie d fun x => { x with planRefused := true }
  else
    let s := s.modDie d fun x => { x with go := true, planPhase := 1 }
    let s := (planLinks s d).foldl (fun s l => pumpLink (s.modLink l fun x => { x with
      drainSent := false, doneTaken := false, relocked := false }) l) s
    drainTest (s.post (x.drainMax * usClk) (.drainMaxExpiry d)) d

/-- DRAIN_REQ, R363: the peer's marker. -/
def evDrainReq (s : State) (l : Nat) (w : Wire) : State :=
  takeSequenced s l 4 w fun s _ => pumpLink (s.modLink l fun x => { x with drainTaken := true, doneSent := false }) l

/-- DRAIN_DONE, R363. -/
def evDrainDone (s : State) (l : Nat) (w : Wire) : State :=
  takeSequenced s l 5 w fun s _ => drainTest (s.modLink l fun x => { x with doneTaken := true }) (l / 32)

/-- REPLAN_DRAIN_COMPLETE, R363: the selectors retune, within 25 µs. -/
def evReplanDrainComplete (s : State) (d : Nat) : State :=
  if (s.die d).planPhase ≠ 1 then s else
  let (v, s) := s.chooseBelow (25 * usClk)
  ((s.unpost (.drainMaxExpiry d)).modDie d fun x => { x with planPhase := 2 }).post (v + 1) (.selectorsLocked d)

/-- DRAIN_MAX_EXPIRY, R363. -/
def evDrainMaxExpiry (s : State) (d : Nat) : State := evReplanDrainComplete s d

/-- SELECTORS_LOCKED, R363: the links of the new plan relock; a new link starts at SEQ 0. -/
def evSelectorsLocked (s : State) (d : Nat) : State :=
  if (s.die d).planPhase ≠ 2 then s else
  let old := (s.domain.filter (· ≠ pkgOfDie d)).filter fun q => (s.link (32 * d + q)).txMask ≠ 0
  let s := applyPlan (s.modDie d fun x => { x with planPhase := 3, planInForce := x.plan }) d
  let s := (s.domain.filter (· ≠ pkgOfDie d)).foldl (fun s q =>
    let l := 32 * d + q
    let s := if old.contains q then s else s.modLink l fun x => { x with stream := 0, nextSeq := 0, replay := [], allow := [64, 64, 64] }
    sendRelock (s.modLink l fun x => { x with relocked := false }) l) s
  s.post (10 * usClk) (.replanResume d)

/-- The links of the plan in force whose peers have relocked are all of them. -/
def relockTest (s : State) (d : Nat) : State :=
  let ls := ((s.domain.filter (· ≠ pkgOfDie d)).map (32 * d + ·)).filter fun l => (s.link l).rxMask ≠ 0 || (s.link l).txMask ≠ 0
  if (s.die d).planPhase = 3 ∧ (ls.all fun l => (s.link l).relocked) then (s.unpost (.replanResume d)).post 0 (.replanResume d) else s

/-- RELOCK, R363: the peer's next SEQ and allowances, which a link that was not up begins with. A die that is not re-planning answers with its own
until the peer has taken it. -/
def evRelock (s : State) (l : Nat) (w : Wire) : State :=
  takeUnsequenced s l 6 w fun s f =>
    let first := !(s.link l).relocked
    let s := s.modLink l fun x =>
      let y := { x with relocked := true }
      if (s.link (peerOf l)).up then y else { y with taken := f.half - 1, freed := (List.range 3).map fun v => 64 - (f.body.getD (2 + v) 0).toNat }
    if (s.die (l / 32)).planPhase = 0 then
      let s := if (s.link l).relocking then s.post 0 (.linkUp l) else s
      if first || !(s.link (peerOf l)).relocked then sendRelock s l else s
    else relockTest s (l / 32)

/-- REPLAN_RESUME, R364: links that relocked carry traffic, others are down; held traffic is sent, or fails where its peer is not
reached. -/
def evReplanResume (s : State) (d : Nat) : State :=
  if (s.die d).planPhase ≠ 3 then s else
  let s := s.modDie d fun x => { x with planPhase := 0, go := false }
  let s := (s.domain.filter (· ≠ pkgOfDie d)).foldl (fun s q =>
    let l := 32 * d + q
    let x := s.link l
    if matched s l ∧ x.relocked then
      let s := s.modLink l fun x => { x with drainSent := false, drainTaken := false, doneSent := false, doneTaken := false }
      if x.up then slotsChanged s l else s.post 0 (.linkUp l)
    else if x.up then
      loseLink (linkRec (s.modLink l fun x => { x with up := false }) l 0x21) l
    else s) s
  let s := s.raise d { kind := 0x23, detail := d % 16 * 2 ^ 7 }
  let held := (s.die d).heldTraffic
  let s := s.modDie d fun x => { x with heldTraffic := [] }
  failLost (held.foldl (fun s id => forward s id false) s)

end Sys2Proof.Machine
end

