-- ==== Sys2Proof/Machine/System.lean ====
section
/-! DEFINITION. The system instructions, opcodes 0xE0 to 0xE7 (spec/18, spec/19 R412 to R414); pre-emption, region restart, the save
of a cohort and its return (R394 to R400); the removal of translations (R384). -/

namespace Sys2Proof.Machine

/-! ### LAUNCH, EVNT, PMC (R412 to R414) -/

/-- LAUNCH of one thread (R412): the address checks, then the request, a release at .sys, to the serving dispatcher. -/
def launchThread (x : Ins) (t : Nat) (s : State) : TOut :=
  match gather s x t with
  | .fault c => .fault c 0 0 s
  | .drop p _ => .stay (.queue p true s.clk) s
  | .vals v =>
    let core := coreOfThread t
    let a : Dword := BitVec.ofNat 64 v.a
    match checkXlate s core a 64 1 with
    | .fault c => .fault c 1 a s
    | .miss => .wait (missWait s core a)
    | .ok p =>
      match lineFault s p.cls p.pa with
      | some c => .fault c 1 a (noteLine s c p)
      | none =>
        let s := tlbTouch s core a.toNat
        let i := x.ifld 0 6
        let (id, s) := s.fresh
        let r := { reqBase x s t .launch with
          va := a, cls := p.cls, pa := p.pa, size := 4, op := i, n := 1, tag := id, order := 0, scope := 5, all := true, agent := servingDie s core i }
        let s : State := { s.emptyG t x.f.d.toNat id 1 with reqs := kvSet s.reqs id r }
        .ok (if mayGo s id r then launchReq s id else s)

/-- LAUNCH (R412). -/
def launchIns (x : Ins) (s : State) : Out := perThread x 1 noEnd (launchThread x) s

/-- EVNT of one thread (R413): held while the die holds all the records it can. -/
def evntThread (x : Ins) (t : Nat) (s : State) : TOut :=
  match gather s x t with
  | .fault c => .fault c 0 0 s
  | .drop p _ => .stay (.queue p true s.clk) s
  | .vals v =>
    let core := coreOfThread t
    let d := dieOfCore core
    if 256 ≤ (s.die d).awaiting.length then .stay .evnt s
    else .ok (s.raise d { kind := 0x40, core := core % 128, slot := t % 32, asid := s.asidOf core, detail := v.a, addr := x.ifld 0 16 })

/-- EVNT (R413). -/
def evnt (x : Ins) (s : State) : Out := perThread x 1 noEnd (evntThread x) s

/-- A performance counter of a core's cohort (R414). -/
def pmcValue (s : State) (core sel : Nat) : Nat :=
  if sel = 0 then s.clk - (s.cohort core).placed else kvGet 0 (s.core core).pmc sel

/-- PMC (R414). -/
def pmc (x : Ins) (s : State) : Out :=
  perThread x 1 noEnd (fun t s => .ok (putDest s x t 2 (pmcValue s (coreOfThread t) (x.ifld 0 8)) false (s.rdy 1))) s

/-! ### Instructions of a handler (R390) -/

/-- An instruction of the privileged view acts once per sub-run; outside a handler it raises PV (R104, R390). -/
def svSub (x : Ins) (body : List Nat → State → TOut) (s : State) : Out :=
  perSubrun x id noEnd (fun ps s => if ps.any fun t => !s.inHandler t then .fault 2 0 0 s else body ps s) s

/-- HALT (R389, R391): the context ends in this clk. The cause that entered the handler is also the last one
(notes/assumptions/18.md). -/
def halt (x : Ins) (s : State) : Out :=
  svSub x (fun ps s =>
    let t := ps.headD 0
    let core := coreOfThread t
    let asid := s.asidOf core
    let cause := match (s.warp (t / 32)).handler with
      | some h => h.cause
      | none => 0
    .last (endContext s asid (some (dieOfCore core,
      { kind := 0x32, core := core % 128, slot := t % 32, asid := asid, detail := endDetail cause cause (x.ifld 0 16),
        addr := (s.warp (t / 32)).xaddr.toNat })) )) s

/-! ### ATCI (R384) -/

/-- The bytes of the page sizes of ATCI. -/
def atciBytes (size : Nat) : Nat := if size = 0 then 2 ^ 16 else if size = 1 then 2 ^ 21 else 2 ^ 30

/-- The page or the range that an ATCI names is not aligned (R384). -/
def atciFault (x : Ins) (v : Vals) (s : State) : TOut :=
  let bytes := atciBytes (x.ifld 0 2)
  if (x.f.m &&& 3).toNat = 0 ∧ v.a % bytes ≠ 0 then .fault 8 0 (BitVec.ofNat 64 v.a) s
  else if x.mb 2 ∧ v.c % bytes ≠ 0 then .fault 8 0 (BitVec.ofNat 64 v.c) s
  else .ok s

/-- ATCI of a run: every die of the scope is asked, and the threads wait for the last answer. -/
def atciSub (x : Ins) (ps : List Nat) (s : State) : TOut :=
  let t := ps.headD 0
  match gather s x t with
  | .fault c => .fault c 0 0 s
  | .drop p v => dropAt s p true (atciFault x v s)
  | .vals v =>
    let core := coreOfThread t
    let d := dieOfCore core
    let kind := (x.f.m &&& 3).toNat
    let home := x.mb 2
    match atciFault x v s with
    | .ok s =>
      let ds := (scopeDies s d x.scope).filter fun e => e = d || (unreach s d e).isNone
      let (id, s) := s.fresh
      let r := { reqBase x s t .flsh with stage := 1, n := ds.length, order := 0, cls := 0, pa := v.c, op := home.toNat, size := x.ifld 0 2 }
      let s : State := { s with reqs := kvSet s.reqs id r }
      let a : AtciReq := { id := id, thread := t, kind := kind, size := x.ifld 0 2, va := BitVec.ofNat 64 v.a,
                           asid := BitVec.ofNat 12 v.b, home := home, pa := v.c, since := 0 }
      let s := ds.foldl (fun s e => if e = d then s.post 0 (.atciRemoval a e) else sendReq s d e (.atciRemoval a e)) s
      .held (ps.foldl (fun s u => s.hold u (.reply id)) s)
    | e => e

/-- ATCI (R384). -/
def atci (x : Ins) (s : State) : Out := svSub x (atciSub x) s

/-- A cached translation is one that an ATCI names. -/
def atciHits (a : AtciReq) (t : Trans) : Bool :=
  match a.kind with
  | 0 => decide (t.asid = a.asid.toNat) && decide (t.vbase < a.va.toNat + atciBytes a.size) && decide (a.va.toNat < t.vbase + t.size)
  | 1 => decide (t.asid = a.asid.toNat)
  | 2 => true
  | _ => false

/-- The lines of a physical range homed on a die that are not HOME, or have a transaction running. -/
def linesOf (s : State) (d pa n : Nat) : List Nat :=
  let mine (l : Nat) : Bool := decide (homeDie (64 * l) = d) && decide (pa ≤ 64 * l) && decide (64 * l < pa + n)
  let there := s.metaw.filterMap fun m => if mine m.1 && m.2 ≠ 0 then some m.1 else none
  there ++ (s.die d).txns.filterMap fun t => if t.1 < 2 ^ 60 ∧ mine t.1 ∧ t.2.ev.isSome ∧ t.1 ∉ there then some t.1 else none

/-- ATCI_REMOVAL, R384: the die's caches lose the translations; walks that began before are waited for. With kind 3, after every removal,
the die's home agents bring the lines of the range to HOME. -/
def evAtciRemoval (s : State) (a : AtciReq) (d : Nat) : State :=
  let src := dieOfCore (coreOfThread a.thread)
  let answer (s : State) : State :=
    let l := landingOf (s.req a.id) a.id
    if src = d then s.post 0 (.remoteReply l) else sendRep s d src (.remoteReply l)
  if a.kind = 3 then
    let ls := linesOf s d a.pa (atciBytes a.size)
    let s := s.modReq a.id fun r => { r with n := r.n + ls.length }
    answer (ls.foldl (fun s l => lineArrive s d l l (.atciRemoval a d)) s)
  else
  let a := if a.since = 0 then { a with since := s.clk + 1 } else a
  let s := s.modDie d fun x => { x with tc := x.tc.filter fun t => !atciHits a t }
  let s : State := { s with cores := s.cores.map (fun c =>
    if dieOfCore c.1 = d then (c.1, { c.2 with tlb := c.2.tlb.filter fun t => !atciHits a t }) else c) }
  if (s.die d).walks.any (fun w => w.started && decide (w.start < a.since)) then s.post 1 (.atciRemoval a d)
  else answer s

/-! ### Traps at a later clk (R387, R396) -/

/-- TRAP_ENTRY, R387: the warp traps once its lane is between runs and it is outside a handler; a pre-emption trap waits for
every handler of the cohort, and stops the cohort; where its warp has ended meanwhile, the request waits on (R396). -/
def evTrapEntry (s : State) (w : Nat) (i : TrapInfo) : State :=
  let c := coreOfWarp w
  let pe := i.cause = 35
  if s.warpCount c ≤ w % 512 ∨ (s.warp w).gone then
    (if pe ∧ (s.core c).cohort.isSome then (s.modCore c fun k => { k with preempt := some s.clk }).post ((s.cohort c).ctx.prewait * usClk) (.prewaitTimeout c) else s)
  else if (s.lane (laneOfWarp w)).run.isSome ∨ (s.warp w).handler.isSome
      ∨ (pe ∧ (s.warpsOf c).any fun v => (s.warp v).handler.isSome) then s.post 1 (.trapEntry w i)
  else
    let s := if pe then s.modCore c fun k => { k with peStop := true } else s
    takeTrap s w i s.clk

/-- PPT (R396): with a request pending, the warp of the run's first performing thread outside a handler takes the trap PE
after the run. -/
def ppt (x : Ins) (s : State) : Out :=
  perThread x 1
    (fun s w done _ =>
      let c := coreOfWarp w
      let slot := (maskSlots done).headD 0
      if (s.core c).preempt.isNone ∨ (s.warp w).handler.isSome ∨ (s.cohort c).ctx.handler = 0 then s
      else (s.modCore c fun k => { k with preempt := none }).post 1 (.trapEntry w
        { cause := 35, slot := slot, acc := 0, arg := 0, xpc := (s.thread (threadOf w slot)).pc - BitVec.ofNat 64 x.size, xaddr := 0, done := done }))
    (fun _ s => .ok s) s

/-! ### Pre-emption and region restart (R395, R396) -/

/-- No lane of a core is in a run, and every result of its last run is readable: 5 clks after the run's occupancy (R92). -/
def coreBetween (s : State) (c : Nat) : Bool :=
  (List.range 32).all fun k =>
    let l := s.lane (32 * c + k)
    l.run.isNone && (decide (l.ended = 0) || decide (l.ended + 5 ≤ s.clk))

/-- An operation of a cohort that is discarded by a region restart (R299, R329, R350): what has not started is gone; a copy loses
its undispatched chunks, a collective fails with RS. -/
def discardOp (s : State) (o : Nat) : State :=
  if !(s.ops.any fun x => x.1 = o) then s else
  let p := s.op o
  if p.cls = 3 then (if p.fail = 0 ∧ p.stage < 3 then failInstance s p 10 0 (dieOfCore p.core) p.src else s)
  else if slotClass p.cls then
    let s := s.modDie (dieOfCore p.core) fun x => { x with classQ := x.classQ.map fun q => (q.1, q.2.filter (· ≠ o)) }
    let s := s.modOp o fun p => { p with fail := 12, stage := 3, after := [], total := min p.total (2048 * p.next) }
    sweepOp (copyOutTest s o) o
  else if p.stage ≤ 1 then { s with ops := kvDel s.ops o }
  else s

/-- The operations of the cohort that a core holds now. -/
def cohortOps (s : State) (c : Nat) : List Nat :=
  s.ops.filterMap fun o => if o.2.core = c ∧ o.2.epoch = (s.core c).epoch then some o.1 else none

/-- A region restart (R395): everything of the cohort is discarded; it keeps its index and is placed again, every thread at the
region entry. -/
def restartRegion (s : State) (c : Nat) (h : Cohort) : State :=
  let d := dieOfCore c
  let s := (cohortOps s c).foldl discardOp s
  let left := s
  let s := s.modCore c fun k => { k with anvilQ := k.anvilQ.filter fun o => left.ops.any fun x => x.1 = o }
  let s := (reclaimCore s c).modCore c fun k => { k with epoch := k.epoch + 1 }
  let w : Waiting := { index := h.index, die := d, inSpan := some h.inSpan, entry := h.regionEntry }
  seekWork (modStrip s h.launch h.strip fun t => { t with placed := t.placed.erase (h.index, d), again := t.again ++ [w] }) d

/-- A pre-emption trap of a cohort waits for its handlers (R396). -/
def pePending (s : State) (c : Nat) : Bool :=
  s.agenda.any fun e => match e.2 with
    | .trapEntry w i => decide (coreOfWarp w = c) && decide (i.cause = 35)
    | _ => false

/-- PREEMPTION_REQUEST, R395, R396: a cohort in a region that may restart does so between runs; otherwise the request waits for
a PPT or for PREWAIT. -/
def evPreemptionRequest (s : State) (c : Nat) : State :=
  match (s.core c).cohort with
  | none => s
  | some h =>
    let k := s.core c
    if k.preempt.isSome ∨ k.peStop ∨ k.saving.isSome ∨ pePending s c then s
    else if k.restarting ∨ (h.regionEntry.isSome ∧ h.ctx.region) then
      if coreBetween s c then restartRegion s c h
      else (s.modCore c fun k => { k with restarting := true }).post 1 (.preemptionRequest c)
    else
      let s := s.modCore c fun k => { k with preempt := some s.clk }
      if h.ctx.handler = 0 then s else s.post (h.ctx.prewait * usClk) (.prewaitTimeout c)

/-- PREWAIT_TIMEOUT, R396: at the next run boundary the lowest warp that has not wholly exited traps with PE, once no warp of
the cohort is in a handler. -/
def evPrewaitTimeout (s : State) (c : Nat) : State :=
  match (s.core c).cohort, (s.core c).preempt with
  | some h, some since =>
    if s.clk < since + h.ctx.prewait * usClk then s
    else
      let ws := (s.warpsOf c).filter fun w => !warpExited s w
      match ws with
      | [] => s
      | w :: _ =>
        if (s.warpsOf c).any (fun v => (s.warp v).handler.isSome) ∨ (s.lane (laneOfWarp w)).run.isSome then s.post 1 (.prewaitTimeout c)
        else
          let slot := ((List.range 32).find? fun k => !(s.thread (threadOf w k)).exited).getD 0
          takeTrap (s.modCore c fun k => { k with preempt := none, peStop := true }) w
            { cause := 35, slot := slot, acc := 0, arg := 0, xpc := (s.thread (threadOf w slot)).pc, xaddr := 0, done := 0 } s.clk
  | _, _ => s

/-! ### The save area (R397, R398) -/

/-- The bytes before the accumulator tiles. -/
def areaFixed : Nat := 229376
/-- The bytes of a thread record. -/
def recordBytes (r : Nat) : Nat := 64 + 4 * r
/-- The bytes of a save area (Table 18-9). -/
def areaSize (warps r tiles : Nat) : Nat := areaFixed + 16384 * tiles + 512 * warps + 32 * warps * recordBytes r
/-- The offset of the thread records. -/
def areaThreads (warps tiles : Nat) : Nat := areaFixed + 16384 * tiles + 512 * warps

/-- The 64 KiB pages that a range meets, by an address in each. -/
def unitsOf (va n : Nat) : List Nat :=
  (List.range ((va % 65536 + n + 65535) / 65536)).map fun k => if k = 0 then va else va / 65536 * 65536 + 65536 * k

/-- The place of an address of a save area under a core's context, of class T or N. -/
def areaPlace (s : State) (c va acc : Nat) : Option Place :=
  let h := s.cohort c
  match xlateNow s (dieOfCore c) h.ctx.asid h.ctx.root h.launch h.window.toNat va acc with
  | .ok p => if (p.cls = 0 ∨ p.cls = 2) ∧ ((unreach s (dieOfCore c) (homeDie p.pa)).isNone ∨ homeDie p.pa = dieOfCore c) then some p else none
  | _ => none

/-- The whole range can be used. -/
def areaOk (s : State) (c va n acc : Nat) : Bool := (unitsOf va n).all fun a => (areaPlace s c a acc).isSome

/-- Writes bytes of a save area, which lie in one page or two. -/
def areaPut (s : State) (c va : Nat) (l : List Byte) : State :=
  let k := min l.length (65536 - va % 65536)
  let put (s : State) (va : Nat) (l : List Byte) : State := match areaPlace s c va 2 with
    | some p => putBytes s p.cls p.pa l
    | none => s
  let s := put s va (l.take k)
  if k < l.length then put s (va + k) (l.drop k) else s

/-- Reads bytes of a save area, which lie in one page or two. -/
def areaGet (s : State) (c va n : Nat) : List Byte :=
  let k := min n (65536 - va % 65536)
  let get (va n : Nat) : List Byte := match areaPlace s c va 1 with
    | some p => bytesAt s p.cls p.pa n
    | none => List.replicate n 0
  get va k ++ (if k < n then get (va + k) (n - k) else [])

/-- The reads of a range of a save area take their course (R9, R239; notes/assumptions/49.md). -/
def areaTouch (s : State) (c va n : Nat) : State :=
  (unitsOf va n).foldl (fun s a => match areaPlace s c a 1 with
    | some p => postReads s (dieOfCore c) p.cls p.pa (min (va + n) (a / 65536 * 65536 + 65536) - a)
    | none => s) s

/-- The header of a save area (Table 18-9), with the number of the saved cohort in its core state. -/
def headerBytes (c : Nat) (h : Cohort) (key : Nat) : List Byte :=
  leBytes 4 0x464C5331 ++ leBytes 4 0x10000 ++ leBytes 4 h.ctx.asid
    ++ leBytes 4 (dieOfCore c % 16 + c % 128 * 16 + pkgOfCore c * 2048) ++ leBytes 4 h.index
    ++ leBytes 4 (h.warps % 1024 + h.r * 1024 + h.tiles * 2 ^ 18) ++ leBytes 8 (areaSize h.warps h.r h.tiles) ++ List.replicate 224 0 ++ leBytes 8 key

/-- A list of bytes cut or filled with zeros to a length. -/
def padTo (n : Nat) (l : List Byte) : List Byte := (l ++ List.replicate n 0).take n

/-- The queue ports of a core in a save area, from offset 0x200: each its count and its entries (R94; notes/assumptions/12.md). -/
def portBytes (k : Core) : List Byte :=
  (List.range 8).flatMap fun p => let q := kvGet [] k.q p
    leBytes 4 q.length ++ padTo 256 (wordsBytes (q.map (·.1)))

/-- An accumulator tile in a save area. -/
def tileImage (t : KV Word) : List Byte := (List.range 4096).flatMap fun i => wordBytes (kvGet 0 t i)

/-- A warp record: w0 to w63, masks, $rank, counters, status words, trap state and shadow masks (R94; notes/assumptions/12.md). -/
def warpBytes (w : Warp) : List Byte :=
  padTo 512 (wordsBytes ((List.range 64).map (kvGet 0 w.w) ++ (List.range 16).map (kvGet 0 w.m) ++ [w.rank]
    ++ (List.range 6).map (fun c => BitVec.ofNat 32 (kvGet 0 w.cnt c)) ++ [w.engFail, w.anvil, w.xcause, w.xpc.setWidth 32, (w.xpc >>> 32).setWidth 32,
      w.xaddr.setWidth 32, (w.xaddr >>> 32).setWidth 32, w.xdone] ++ (List.range 16).map (kvGet 0 w.xm)))

/-- A thread record (R398). -/
def threadBytes (t : Thread) (r : Nat) (pending : Bool) : List Byte :=
  let g (k : Nat) : GReg := kvGet {} t.g k
  leBytes 8 t.pc.toNat ++ leBytes 4 t.fstat.toNat ++ leBytes 1 (t.p.toNat % 128) ++ leBytes 1 (t.exited.toNat + 2 * pending.toNat) ++ leBytes 2 0
    ++ leBytes 30 ((List.range r).foldl (fun n k => n + if (g k).full then 2 ^ k else 0) 0) ++ leBytes 18 0
    ++ (List.range r).flatMap fun k => leBytes 4 (g k).v.toNat

/-- A thread as its record gives it; the producer tag of an empty register stays as saved. -/
def threadOfBytes (t : Thread) (r : Nat) (l : List Byte) : Thread :=
  let full := fieldAt l 0x10 30
  { t with
    pc := BitVec.ofNat 64 (fieldAt l 0 8), fstat := BitVec.ofNat 32 (fieldAt l 8 4), p := BitVec.ofNat 8 (fieldAt l 12 1 % 128 + 128),
    exited := (fieldAt l 13 1).testBit 0,
    g := (List.range r).map fun k => (k, { v := BitVec.ofNat 32 (fieldAt l (0x40 + 4 * k) 4), full := full.testBit k,
                                           tag := if full.testBit k then 0 else (kvGet {} t.g k).tag }) }

/-! ### CTXS (R397) -/

/-- A read that is issued again after a restore (R397). -/
def isRead2 (k : ReqKind) : Bool := match k with
  | .ld | .ldc | .ldb => true
  | _ => false

/-- A request that a save waits for. A RACK executes again after the restore (R266). -/
def saveWaits (s : State) (c : Nat) (r : Req) : Bool :=
  decide (r.core = c) && decide (r.epoch = (s.core c).epoch) && ofThread r.kind && !isRead2 r.kind && r.kind ≠ .pref && r.kind ≠ .rack && !(r.kind = .bar && r.op = 4)

/-- An event concerns the landing of a result, or a hand-off entry, at a core's warps. -/
def saveBlocks (s : State) (c : Nat) (e : Ev) : Bool :=
  match e with
  | .producerLanding l => decide (coreOfThread l.thread = c) && decide (l.epoch = (s.core c).epoch) && l.mapq.isNone && !(s.reqs.any fun r => r.1 = l.req)
  | .handoffEntryArrival w _ v _ _ _ _ => decide (coreOfWarp w = c ∨ coreOfWarp v = c)
  | _ => false

/-- Everything that R397 waits for has completed. -/
def saveReady (s : State) (c : Nat) : Bool :=
  coreBetween s c && !(s.reqs.any fun r => saveWaits s c r.2) && !(s.agenda.any fun e => saveBlocks s c e.2) && !(s.msgs.any fun m => saveBlocks s c m.2.ev)
    && (cohortOps s c).all fun o => let p := s.op o
      if slotClass p.cls then p.chunks.isEmpty else !(decide (p.cls = 2) && decide (p.stage = 2))

/-- Saves that can go on do so. -/
def pollSaves (s : State) : State :=
  (s.cores.filter fun c => c.2.saving.isSome).foldl (fun s c =>
    if saveReady s c.1 && !s.posted (.saveAreaWrite c.1) then s.post 0 (.saveAreaWrite c.1) else s) s

/-- CTXS of a warp (R397): the area is checked, and the save begins. A second CTXS waits at its instruction. One in a PE handler ends the stop
of the cohort (R396). -/
def ctxsSub (x : Ins) (ps : List Nat) (s : State) : TOut :=
  let t := ps.headD 0
  let c := coreOfThread t
  match gather s x t with
  | .fault k => .fault k 0 0 s
  | .drop p _ => .stay (.queue p true s.clk) s
  | .vals v =>
    let h := s.cohort c
    let answer (n : Nat) : TOut := .ok (ps.foldl (fun s u => putDest s x u 1 n false (s.rdy 1)) s)
    let pe := (s.warp (t / 32)).handler.any fun h => h.cause = 35
    let s := if pe then s.modCore c fun k => { k with peStop := false } else s
    if (s.core c).saving.isSome then .stay .save s
    else if v.a % 4096 ≠ 0 then answer 1
    else if !areaOk s c v.a (areaSize h.warps h.r h.tiles) 2 then answer 2
    else
      let s := s.modCore c fun k => { k with
        saving := some { area := BitVec.ofNat 64 v.a, warp := t / 32, threads := ps, reg := x.f.d.toNat, size := x.size } }
      let s := (cohortOps s c).foldl (fun s o => s.modOp o fun p => if slotClass p.cls then { p with held := true } else p) s
      .held (ps.foldl (fun s u => s.hold u .save) s)

/-- CTXS (R397). -/
def ctxs (x : Ins) (s : State) : Out := svSub x (ctxsSub x) s

/-- A thread as it is saved: it waits for nothing, and those that perform the CTXS have passed it with gD := 0. -/
def savedThread (s : State) (v : Save) (t : Nat) : Thread :=
  let h := s.thread t
  let h := { h with hold := .none, prdy := [], frdy := 0, since := 0, due := 0, slot := false }
  if v.threads.contains t then { h with pc := h.pc + BitVec.ofNat 64 v.size, g := kvSet h.g v.reg { v := 0 } } else h

/-- The cohort of a core as it is saved (R397, R284, R329). -/
def savedOf (s : State) (c : Nat) (h : Cohort) (v : Save) : Saved :=
  let k := s.core c
  let mine {α : Type} (l : KV α) (n : Nat) : KV α := l.filter fun e => e.1 / n = c
  { asid := h.ctx.asid, core := c, epoch := k.epoch, cohort := h, resident := s.clk - h.placed,
    coreState := { k with
      anvilQ := (k.anvilQ.filter (cohortOps s c).contains), left := [], cohort := none, l1 := [], icache := [], tlb := [], misses := [], saving := none, peStop := false, preempt := none,
      cv := k.cv.map (fun e => (e.1, { e.2 with signers := [] })), bar := k.bar.filter (fun b => b.2.alloc && !b.2.saved) },
    lanes := (mine s.lanes 32).map fun l => (l.1, { l.2 with run := none, freeAt := 0 }),
    warps := (mine s.warps 512).map fun w => (w.1, { w.2 with wrdy := [], wpast := [], handler := w.2.handler.map fun y => { y with holds := [] } }),
    threads := (mine s.threads 16384).map fun t => (t.1, savedThread s v t.1),
    reads := s.reqs.filter fun r => decide (r.2.core = c) && decide (r.2.epoch = k.epoch) && isRead2 r.2.kind
    maps := s.agenda.filterMap fun e => match e.2 with
      | .producerLanding l => if coreOfThread l.thread = c ∧ l.epoch = k.epoch ∧ l.mapq.isSome then some l else none
      | _ => none
    traps := s.agenda.filterMap fun e => match e.2 with
      | .trapEntry w i => if coreOfWarp w = c then some (w, i) else none
      | _ => none }

/-- SAVE_AREA_WRITE, R397: the area is written, the epoch advances and the cohort leaves its core; its barrier objects, its
cellar and its operations stay. -/
def evSaveAreaWrite (s : State) (c : Nat) : State :=
  match (s.core c).cohort, (s.core c).saving with
  | some h, some v =>
    if !saveReady s c then s else
    let (key, s) := s.fresh
    let sv := savedOf s c h v
    let a := v.area.toNat
    let s := areaPut (areaPut s c a (headerBytes c h key)) c (a + 0x200) (portBytes sv.coreState)
    let s := (List.range h.tiles).foldl (fun s i => areaPut s c (a + areaFixed + 16384 * i) (tileImage (kvGet [] sv.coreState.tiles i))) s
    let s := (List.range h.warps).foldl (fun s i =>
      areaPut s c (a + areaFixed + 16384 * h.tiles + 512 * i) (warpBytes (kvGet {} sv.warps (512 * c + i)))) s
    let recs := (List.range (32 * h.warps)).map fun i => 16384 * c + i
    let s := recs.foldl (fun s t =>
      areaPut s c (a + areaThreads h.warps h.tiles + (t % 16384) * recordBytes h.r)
        (threadBytes (kvGet {} sv.threads t) h.r (sv.reads.any (fun r => r.2.thread = t) || sv.maps.any (fun l => l.thread = t)))) s
    let mine (r : Req) : Bool := decide (r.core = c) && decide (r.epoch = sv.epoch) && ofThread r.kind
    let s : State := { s with
      saved := kvSet s.saved key sv
      reqs := (s.reqs.filter fun r => !mine r.2 || (decide (r.2.kind = .rack) && decide (1 ≤ r.2.stage))).map fun r =>
        if mine r.2 then (r.1, { r.2 with failed := true }) else r }
    let s := s.modCore c fun k => { bareCore k with
      epoch := k.epoch + 1, anvilQ := (k.anvilQ.filter fun o => !sv.coreState.anvilQ.contains o), bar := k.bar.map fun b => (b.1, if b.2.alloc then { b.2 with saved := true } else b.2) }
    seekWork (setCoreRegs s c [] [] []) (dieOfCore c)
  | _, _ => s

/-! ### CTXR (R399) -/

/-- A number of a warp or thread moved to another core, `n` of them to a core. -/
def moved (c n i : Nat) : Nat := n * c + i % n

/-- The reads of a saved cohort under new numbers (R399): each is issued again as it was, after the reads it followed. -/
def reissue (s : State) (c : Nat) (reads : KV Req) : State :=
  let base := s.nextId
  let num (id : Nat) : Option Nat := (reads.findIdx? fun r => r.1 = id).map (base + ·)
  let s : State := { s with nextId := base + reads.length }
  let s := reads.zipIdx.foldl (fun s e =>
    let r := e.1.2
    let r := { r with
      thread := moved c 16384 r.thread, core := c, epoch := (s.core c).epoch, stage := 0, after := r.after.filterMap num,
      follow := (num r.follow).getD 0, hit := false, all := false, agent := 0, grant := none, right := none, failed := false }
    { s with reqs := kvSet s.reqs (base + e.2) r }) s
  let s : State := { s with threads := s.threads.map (fun t =>
    if coreOfThread t.1 = c then (t.1, { t.2 with acq := t.2.acq.filterMap num }) else t) }
  pollReqs s

/-- The groups of a context on a die are bound again from their tables as they now stand, which are read as the restored cohort reads
(R331, R399). -/
def rebind (s : State) (c : Nat) : State :=
  let d := dieOfCore c
  let ctx := (s.cohort c).ctx
  let table (va n : Nat) : Option (List Byte) :=
    let p := opOf s (16384 * c) .rgset 3
    match rangePages s p [(va, n, 1)] with
    | .inl _ => none
    | .inr ts => match readBytes s { p with trans := ts } (BitVec.ofNat 64 va) n with
      | (_, l, _) => if l.any (·.isNone) then none else some (l.map (·.getD 0))
  let again (b : RingBind) : RingBind :=
    match table b.table.toNat 8 with
    | none => b
    | some hd => match table b.table.toNat (8 + 4 * fieldAt hd 0 2) with
      | none => b
      | some l => match tableOf s.domain l with
        | some (ver, dies) => if dies.contains d then { b with version := ver, ranks := dies } else b
        | none => b
  let s := s.modDie d fun x => { x with binds := x.binds.map fun b => if b.asid = ctx.asid then again b else b }
  let ring (w : Warp) : Warp :=
    let w := match w.rankOf.bind fun g => bindOf s d ctx.asid g with
      | some b => { w with rank := BitVec.ofNat 32 (b.ranks.findIdx (· = d)) }
      | none => w
    match (if w.hand.bound then bindOf s d ctx.asid w.hand.group else none) with
    | some b =>
      let k := b.ranks.findIdx (· = d)
      let n := b.ranks.length
      { w with hand := { w.hand with rank := k, p := n, next := b.ranks.getD ((k + 1) % n) 0, prev := b.ranks.getD ((k + n - 1) % n) 0 } }
    | none => w
  { s with warps := s.warps.map fun w => if coreOfWarp w.1 = c then (w.1, ring w.2) else w }

/-- Puts a saved cohort on a core (R399, steps 1 to 6). -/
def restore (s : State) (c key : Nat) (v : Saved) (area : Nat) : State :=
  let k := v.coreState
  let h := { v.cohort with placed := s.clk - v.resident }
  let s : State := { s with saved := kvDel s.saved key }
  let cleared (e : Nat × Barrier) : Nat × Barrier :=
    if v.core = c ∧ k.bar.any (fun b => b.1 = e.1 ∧ b.2.gen = e.2.gen) then (e.1, { e.2 with saved := false }) else e
  let s := s.modCore c fun x => { bareCore x with
    cohort := some h, epoch := x.epoch + 1, icache := [], q := k.q, remstat := k.remstat, cv := k.cv, active := k.active, shadow := k.shadow,
    tiles := k.tiles, tileEnd := k.tileEnd, anvilQ := x.anvilQ ++ k.anvilQ, pmc := k.pmc, bar := x.bar.map cleared }
  let epoch := (s.core c).epoch
  let at_ := area + areaThreads h.warps h.tiles
  let s := areaTouch (areaTouch s c area 0x108) c at_ (32 * h.warps * recordBytes h.r)
  let threads := (List.range (32 * h.warps)).map fun i =>
    let t := threadOfBytes (kvGet {} v.threads (16384 * v.core + i)) h.r (areaGet s c (at_ + i * recordBytes h.r) (recordBytes h.r))
    (16384 * c + i, { t with since := s.clk + 1 })
  let s := setCoreRegs s c (v.lanes.map fun l => (moved c 32 l.1, l.2)) (v.warps.map fun w => (moved c 512 w.1, w.2)) threads
  let issued (p : Op) : Nat := if p.stage ≤ 1 then s.clk else p.issued
  let own (p : Op) : Op := if p.core = v.core ∧ p.epoch = v.epoch then
      { p with core := c, warp := moved c 512 p.warp, thread := moved c 16384 p.thread, epoch := epoch, held := false, issued := issued p } else p
  let s : State := { s with ops := s.ops.map fun o => (o.1, own o.2) }
  let s := rebind s c
  let s := (s.warpsOf c).foldl (fun s w => (List.range 6).foldl (fun s e => evEngineRetirement s w e) s) s
  let s := pollAnvil (pumpCopy s (dieOfCore c)) c
  let s := v.maps.foldl (fun s l => mapqLand s { l with thread := moved c 16384 l.thread, epoch := epoch }) s
  let s := v.traps.foldl (fun s t => s.post 0 (.trapEntry (moved c 512 t.1) t.2)) s
  reissue s c v.reads

/-- CTXR of a warp (R399): the checks in their order; on success the executing cohort ends and the saved one takes its place. -/
def ctxrSub (x : Ins) (ps : List Nat) (s : State) : TOut :=
  let t := ps.headD 0
  let c := coreOfThread t
  match gather s x t with
  | .fault k => .fault k 0 0 s
  | .drop p _ => .stay (.queue p true s.clk) s
  | .vals v =>
    let answer (n : Nat) : TOut := .ok (ps.foldl (fun s u => putDest s x u 1 n false (s.rdy 1)) s)
    if !areaOk s c v.a 0x108 1 then answer 5
    else
      let hd := areaGet s c v.a 0x108
      let key := fieldAt hd 0x100 8
      if fieldAt hd 0 4 ≠ 0x464C5331 ∨ fieldAt hd 4 4 ≠ 0x10000 then answer 1
      else match s.saved.find? fun e => e.1 = key with
        | none => answer (if asidLive s (pkgOfCore c) (fieldAt hd 8 4 % 4096) then 1 else 4)
        | some (_, sv) =>
          if !areaOk s c v.a (fieldAt hd 0x18 8) 1 then answer 5
          else if dieOfCore sv.core ≠ dieOfCore c then answer 2
          else if sv.core ≠ c ∧ !sv.coreState.bar.isEmpty then answer 3
          else if !asidLive s (pkgOfCore c) sv.asid then answer 4
          else
            let h := s.cohort c
            let s := leaveLaunch (reclaimCore s c) h (dieOfCore c)
            .last (restore (s.modCore c fun k => { k with cohort := some h }) c key sv v.a)

/-- CTXR (R399). -/
def ctxr (x : Ins) (s : State) : Out := svSub x (ctxrSub x) s

/-- LAUNCH, R412: Releases at .sys and appends a launch record to a device-fed launch queue. -/
def execLaunch (f : Long) (s : State) : Out := launchIns (Ins.ofBody .launch (.long f)) s

/-- EVNT, R413: Sends the host an event record with a code and detail. -/
def execEvnt (f : Long) (s : State) : Out := evnt (Ins.ofBody .evnt (.long f)) s

/-- PMC, R414: Reads a cohort performance counter. -/
def execPmc (f : Long) (s : State) : Out := pmc (Ins.ofBody .pmc (.long f)) s

/-- ATCI, R384: Removes cached translations and optionally brings lines to HOME. -/
def execAtci (f : Long) (s : State) : Out := atci (Ins.ofBody .atci (.long f)) s

/-- CTXS, R397: Begins saving the cohort into a save area. -/
def execCtxs (f : Long) (s : State) : Out := ctxs (Ins.ofBody .ctxs (.long f)) s

/-- CTXR, R399: Restores a saved cohort onto the executing core. -/
def execCtxr (f : Long) (s : State) : Out := ctxr (Ins.ofBody .ctxr (.long f)) s

/-- HALT, R391: Ends the context with a code. -/
def execHalt (f : Long) (s : State) : Out := halt (Ins.ofBody .halt (.long f)) s

/-- PPT, R396: Marks a pre-emption point at which a pending PE trap is delivered. -/
def execPpt (f : Long) (s : State) : Out := ppt (Ins.ofBody .ppt (.long f)) s


end Sys2Proof.Machine
end

