-- ==== Sys2Proof/Machine/Host.lean ====
section
/-! DEFINITION. The host (spec/20): the two register views, start-up and reset, device memory through BAR4, the ring of
event records, error windows, the patrol scrubber's round and the thermal trip. -/

namespace Sys2Proof.Machine

/-! ### Reading registers (R418 to R430) -/

/-- The line whose request a held message of ownership traffic keeps in WAKE-WAIT (R247, R259); an EVX serves none. -/
def evLine : Ev → Option Nat
  | .probe _ l _ _ | .recallHolder _ l _ | .invalidation _ l _ | .holderAnswer _ l _ _ | .racking l _ | .caskOpenRequest l _ | .caskGrant l _ _
  | .drainArrival l _ _ _ _ _ => some l
  | _ => none

/-- What a held message keeps in WAKE-WAIT, as a home and a line, or for a re-split a number beside the lines that names the region. -/
def waitKey (e : Ev) : Option (Nat × Nat) :=
  match e with
  | .resplitShare h r _ _ _ | .resplitAck h r => some (h, 2 ^ 60 + r)
  | _ => (evLine e).map fun l => (homeDie (64 * l), l)

/-- The messages that hold requests homed on a die in WAKE-WAIT (R247). -/
def wakeWaits (s : State) (d : Nat) : List Msg :=
  (s.msgs.map (·.2)).filter fun m => m.own && decide (m.since ≠ 0) && (waitKey m.ev).any fun k => k.1 = d

/-- COH_WAIT (Table 11-6). -/
def cohWait (s : State) (d : Nat) : Nat :=
  let l := wakeWaits s d
  let held := (l.filterMap fun m => waitKey m.ev).eraseDups.length
  let old := l.foldl (fun n m => max n ((s.clk + 1 - m.since) / usClk)) 0
  min held 65535 * 65536 + (s.die d).wakeErr * 256 + min old 255

/-- The 64-bit registers of a die's block (Table 20-2); a read of LQ_DOOR gives an open value. -/
def dieReg (s : State) (d o : Nat) : Option Nat :=
  let x := s.die d
  let st (r : Nat) : Nat := (s.dir (2 * d + r)).state
  if o = 0x00 then some (x.power % 65536 * 2 ^ 32 + x.temp % 256 * 2 ^ 24 + x.dead.toNat * 2 + (x.ok && !x.dead).toNat)
  else if o = 0x08 then some (x.rdcGen * 4 + x.rdcSize)
  else if o = 0x10 then some (cohWait s d)
  else if o = 0x18 then some (st 0 * 2 ^ 30 + st 1 * 2 ^ 28 + x.sleepEn.toNat * 65536 + x.sleepAfter * 256 + x.idleAfter)
  else if o = 0x20 then some (x.brgFailed.toNat * 2 ^ 31 + x.brgThresh * 65536 + x.brgWindow * 256 + x.brgErr)
  else if o = 0x28 then some (Config.freeNat o % 2 ^ 64)
  else if o = 0x40 then some (x.go.toNat * 2 ^ 31 + x.planRefused.toNat * 2 ^ 30 + x.planPhase % 4 * 2 ^ 28 + x.drainMax * 256 + x.linkDead)
  else if 0x100 ≤ o ∧ o < 0x200 then
    let l := s.link (32 * d + (o - 0x100) / 8)
    some ((if l.up then l.active.toNat * 65536 + 32768 else l.active.toNat * 65536) + min l.replay.length 4096)
  else if 0x200 ≤ o ∧ o < 0x300 then some (bytesNat ((List.range 8).map fun k => kvGet 0 x.plan (o - 0x200 + k)))
  else if o = 0x80000 then some x.diagAddr.toNat
  else if o = 0x80008 then some x.diagData.toNat
  else if o = 0x80010 then some x.diagCheck.toNat
  else none

/-- A region record as a number (Table 12-1). -/
def Region.num (r : Region) : Nat :=
  r.limit.toNat * 2 ^ 160 + r.share.toNat * 2 ^ 128 + r.bshare.toNat * 2 ^ 96 + r.dies.toNat * 2 ^ 80 + r.pkgs.toNat * 2 ^ 48
    + r.asid % 4096 * 2 ^ 32 + r.acks % 256 * 2 ^ 24 + r.valid.toNat

/-- A barrier object as a number (Table 13-1). -/
def Barrier.num (b : Barrier) : Nat :=
  b.asid % 4096 * 2 ^ 116 + b.gen % 128 * 2 ^ 109 + b.alloc.toNat * 2 ^ 108 + b.phase.toNat * 2 ^ 107 + b.nb.toNat * 2 ^ 106
    + b.posted.toNat * 2 ^ 105 + b.refs % 65536 * 2 ^ 89 + b.expected % 32768 * 2 ^ 74 + b.pendArr % 32768 * 2 ^ 59 + b.ovf.toNat * 2 ^ 58
    + b.saved.toNat * 2 ^ 57 + (b.pendBytes % 2 ^ 40).toNat

/-- A convergence register as a number (Table 13-3). -/
def Cv.num (v : Cv) : Nat := v.bound.isSome.toNat * 2 ^ 31 + v.signers.length % 2048 * 2 ^ 11 + v.size % 2048

/-- A word of a die's block that is part of a table (Table 20-2). -/
def dieTableWord (s : State) (d o : Nat) : Option Nat :=
  if 0x1000 ≤ o ∧ o < 0x3000 ∧ o % 32 < 24 then
    some (natBits (kvGet {} (s.die d).region ((o - 0x1000) / 32)).num (8 * (o % 32)) 32)
  else if 0x4000 ≤ o ∧ o < 0x24000 then
    let c := 128 * d + (o - 0x4000) / 1024
    some (natBits (kvGet {} (s.core c).bar (o % 1024 / 16)).num (8 * (o % 16)) 32)
  else if 0x24000 ≤ o ∧ o < 0x25000 then some (kvGet {} (s.core (128 * d + (o - 0x24000) / 32)).cv (o % 32 / 4)).num
  else none

/-- The ordering code of the silicon: one of the three (R2, Table 20-3). -/
def orderCode : Nat := Config.silicon.2.toNat % 3

/-- DEV_ID (Table 20-3). -/
def devId (p : Nat) : Nat := 0x10000 * 2 ^ 32 + p % 32 * 2 ^ 11 + Config.silicon.1.toNat * 2 ^ 8 + orderCode

/-- The 64-bit registers of the package block (Table 20-2). -/
def pkgReg (s : State) (p o : Nat) : Option Nat :=
  let g := s.pkg p
  match o with
  | 0x00 => some (devId p)
  | 0x08 => some (g.dieOk.toNat * 2 ^ 48 + g.brgOk.toNat * 2 ^ 32 + g.ready.toNat * 8 + g.phase % 8)
  | 0x10 => some 0
  | 0x18 => some (g.lqBase % 2 ^ 52 / 2 ^ 15 * 2 ^ 15 + g.lqEn.toNat)
  | 0x20 => some g.scrubPeriod
  | 0x28 => some (g.errThresh * 65536 + g.errWindow)
  | 0x30 => some g.evqBase
  | 0x38 => some (g.evqIrq.toNat * 256 + g.evqLog)
  | 0x40 => some g.evqHead
  | 0x48 => some g.evqTail
  | 0x50 => some g.evqDrop
  | _ => none

/-- The word at an offset of the privileged view, if Table 20-2 names it. -/
def barWord (s : State) (p off : Nat) : Option Nat :=
  let half (r : Option Nat) : Option Nat := r.map fun v => if off % 8 = 0 then v % 2 ^ 32 else v / 2 ^ 32 % 2 ^ 32
  if off < 0x1000000 then
    let d := 16 * p + off / 2 ^ 20
    let o := off % 2 ^ 20
    match dieTableWord s d o with
    | some v => some v
    | none => half (dieReg s d (o / 8 * 8))
  else
    let o := off - 0x1000000
    if 0x10000 ≤ o ∧ o < 0x30000 then some (kvGet 0 (s.pkg p).region ((o - 0x10000) / 4)).toNat
    else half (pkgReg s p (o / 8 * 8))

/-- The word at an offset of the unprivileged view (R418): DEV_ID and MGMT_STAT, and LQ_DOOR of each die. -/
def userWord (s : State) (p off : Nat) : Option Nat :=
  if off < 16 then barWord s p (0x1000000 + off)
  else if 0x1000 ≤ off ∧ off < 0x1080 then barWord s p ((off - 0x1000) / 8 * 2 ^ 20 + 0x28 + off % 8)
  else none

/-- A host read of a management register (R418); anything else reads as all ones. -/
def regRead (s : State) (p : Nat) (priv : Bool) (off size : Nat) : Nat :=
  let w (o : Nat) : Option Nat := if priv then barWord s p o else userWord s p o
  if size = 4 ∧ off % 4 = 0 then (w off).getD (2 ^ 32 - 1)
  else if size = 8 ∧ off % 8 = 0 then
    match w off, w (off + 4) with
    | some a, some b => a + 2 ^ 32 * b
    | _, _ => 2 ^ 64 - 1
  else 2 ^ (8 * size) - 1

/-! ### Start-up and reset (R421 to R423) -/

/-- The package that a happening belongs to, where it belongs to one alone. -/
def evPkg : Ev → Option Nat
  | .runFormation l | .warpSwap l | .pendingWarpPromotion l => some (pkgOfCore (coreOfLane l))
  | .warpLeavesActiveSet w | .trapEntry w _ | .engineRetirement w _ | .handoffEntryArrival w _ _ _ _ _ _ => some (pkgOfCore (coreOfWarp w))
  | .sleepExpiry t => some (pkgOfCore (coreOfThread t))
  | .producerLanding l => some (pkgOfCore (coreOfThread l.thread))
  | .l1SectorExpiry c _ | .roundFire c _ | .pageWalk c _ | .translationCacheLookup c _ | .preemptionRequest c | .prewaitTimeout c
  | .saveAreaWrite c | .cohortEnd c => some (pkgOfCore c)
  | .cellarGroupService d _ _ | .bufferStateChange d _ | .generationAdvance d _ | .rdcSweeperStep d | .dieCacheEviction d _ | .heartbeat d
  | .dieDead d | .regionRecordWrite d _ _ _ | .chunkDispatch d | .ringStepSend d | .bridgeCrcFailure d _ | .errcntWindowExpiry d
  | .bridgeDeclaredFailed d | .ringWrapComplete d | .laserSourceFailure d _ _ | .replanGo d | .replanDrainComplete d | .drainMaxExpiry d
  | .selectorsLocked d | .replanResume d | .lqDoor d | .tailPoll d | .powerHeadroomReport d | .eventRecordWrite d | .scrubStep d _
  | .lineDiagAddr d _ | .lineDiagComplete d | .thermal d _ => some (pkgOfDie d)
  | .linkWakeComplete d | .linkWakeError d | .bridgeFlit d _ | .directionIdle d | .directionSleep d => some (pkgOfDie (d / 2))
  | .data l _ | .idle l _ | .replay l _ | .restripe l _ | .drainReq l _ | .drainDone l _ | .relock l _ | .idleFlitTimer l
  | .replayRepeatTimer l | .lossOfLight l _ | .slotLightRegained l _ | .linkDown l | .linkUp l => some (pkgOfDie (l / 32))
  | .homeAgentEviction l => some (pkgOfDie (homeDie (64 * l)))
  | .proxyEviction p _ | .powerPhaseDone p | .calibrationDone p _ | .initialisationDone p | .errorWindowExpiry p | .thermalPowerOff p => some p
  | _ => none

/-- The contexts that have work on a package. -/
def pkgContexts (s : State) (p : Nat) : List Nat :=
  ((s.cores.filterMap fun c => if pkgOfCore c.1 = p then c.2.cohort.map (·.ctx.asid) else none)
    ++ (s.launches.filterMap fun l => if l.2.pkg = p ∨ l.2.strips.any (fun t => t.2.pkg = p) then some l.2.asid else none)
    ++ s.saved.filterMap fun v => if pkgOfCore v.2.core = p then some v.2.asid else none).eraseDups

/-- A package loses everything it holds: its contexts end without records, and event records not yet written are gone (R423). -/
def emptyPkg (s : State) (p : Nat) : State :=
  let s := (pkgContexts s p).foldl (fun s a => endContext s a none) s
  let out {α : Type} (n : Nat) (l : KV α) : KV α := l.filter fun e => e.1 / n ≠ p
  let s : State := { s with
    threads := out (16384 * 128 * 16) s.threads, warps := out (512 * 128 * 16) s.warps, lanes := out (32 * 128 * 16) s.lanes,
    cores := out (128 * 16) s.cores, dies := out 16 s.dies, dirs := out 32 s.dirs, links := out 512 s.links,
    reqs := s.reqs.filter fun r => pkgOfCore r.2.core ≠ p, ops := s.ops.filter fun o => pkgOfCore o.2.core ≠ p,
    msgs := s.msgs.filter fun m => pkgOfDie m.2.here ≠ p, launches := s.launches.filter fun l => l.2.pkg ≠ p,
    saved := s.saved.filter fun v => pkgOfCore v.2.core ≠ p, agenda := s.agenda.filter fun e => evPkg e.2 ≠ some p }
  failLost s

/-- The package starts at phase 1 (R421). -/
def restart (s : State) (p : Nat) : State :=
  let s := emptyPkg s p
  let s : State := { s with pkgs := kvSet s.pkgs p { powered := true, phase := 1 } }
  let (v, s) := s.chooseBelow (50000 * usClk + 1)
  s.post v (.powerPhaseDone p)

/-- POWER_ON, R421. -/
def evPowerOn (s : State) (p : Nat) : State := if (s.pkg p).powered then s else restart s p

/-- HOST_CTL_RESET and LINK_RESET, R423. -/
def evHostCtlReset (s : State) (p : Nat) : State := restart s p

/-- What calibration finds (R422), an open outcome. -/
def someCalibration (s : State) (p : Nat) : Calibration × State :=
  let (a, s) := s.choose
  let (b, s) := s.choose
  let (c, s) := s.choose
  let slots := (List.range (16 * 32 * 16)).filter fun k => c.testBit k
  ({ dieOk := BitVec.ofNat 16 a, brgOk := BitVec.ofNat 16 b, dark := slots.map fun k => (512 * p + k / 16, k % 16) }, s)

/-- POWER_PHASE_DONE, R421. -/
def evPowerPhaseDone (s : State) (p : Nat) : State :=
  if (s.pkg p).phase ≠ 1 then s else
  let (c, s) := someCalibration (s.modPkg p fun g => { g with phase := 2 }) p
  let (v, s) := s.chooseBelow (300000 * usClk + 1)
  s.post v (.calibrationDone p c)

/-- CALIBRATION_DONE, R422. -/
def evCalibrationDone (s : State) (p : Nat) (c : Calibration) : State :=
  if (s.pkg p).phase ≠ 2 then s
  else if c.dieOk = 0 then s.modPkg p fun g => { g with phase := 7 }
  else
    let s := s.modPkg p fun g => { g with phase := 3, dieOk := c.dieOk, brgOk := c.brgOk }
    let s := (List.range 16).foldl (fun s k => s.modDie (16 * p + k) fun x => { x with
      ok := c.dieOk.getLsbD k, dead := !c.dieOk.getLsbD k, brgFailed := !c.brgOk.getLsbD k, brgWrapped := !c.brgOk.getLsbD k }) s
    let s := c.dark.foldl (fun s e => s.modLink e.1 fun x => { x with rxDark := x.rxDark ||| fibreBit e.2 }) s
    let (v, s) := s.chooseBelow (25000 * usClk + 1)
    s.post v (.initialisationDone p)

/-- The clks between two lines of a patrol scrubber (R426). -/
def scrubClk (hours : Nat) : Nat := hours * 3600 * 1000000 * usClk / 2 ^ 31

/-- The line that a die's scrubber reads next (R426). -/
def scrubLineOf (s : State) (d : Nat) : Nat := d * 2 ^ 31 + (s.die d).scrub % 2 ^ 31

/-- SCRUB_STEP, R426, R427: the line of the patrol's turn sets the next one; any other line is visited out of turn. -/
def evPatrol (s : State) (d line : Nat) : State :=
  let h := (s.pkg (pkgOfDie d)).scrubPeriod
  let s := if line ≠ scrubLineOf s d then s
    else
      let s := s.modDie d fun x => { x with scrub := (x.scrub + 1) % 2 ^ 31 }
      if h = 0 then s else s.post (scrubClk h) (.scrubStep d (scrubLineOf s d))
  evScrubStep s d line

/-- The dies of a package that run. -/
def goodDies (s : State) (p : Nat) : List Nat := ((List.range 16).map (16 * p + ·)).filter fun d => (s.die d).ok && !(s.die d).dead

/-- A die begins to work when its package is ready: its plan, its periodic happenings. -/
def startDie (s : State) (d : Nat) : State :=
  let s := applyPlan (s.modDie d fun x => { x with plan := defaultPlan, planInForce := defaultPlan }) d
  let s := armIdle (armIdle s (2 * d)) (2 * d + 1)
  let h := (s.pkg (pkgOfDie d)).scrubPeriod
  let s := if h = 0 then s else s.post (scrubClk h) (.scrubStep d (scrubLineOf s d))
  (((s.post 0 (.heartbeat d)).post 0 (.powerHeadroomReport d)).post 0 (.tailPoll d)).post
    ((s.die d).brgWindow * 100 * usClk) (.errcntWindowExpiry d)

/-- The links between a die and the same plane of every other ready package come up. -/
def startLinks (s : State) (d : Nat) : State :=
  (s.domain.filter fun q => q ≠ pkgOfDie d ∧ (s.pkg q).ready ∧ (s.die (16 * q + d % 16)).ok).foldl (fun s q =>
    let l := 32 * d + q
    let r := peerOf l
    let s := (s.modLink l fun x => { x with txDark := ((s.link r).rxDark ||| laserDark s l) &&& x.txMask }).modLink r fun x => { x with
      txDark := ((s.link l).rxDark ||| laserDark s r) &&& x.txMask }
    if matched s l ∧ matched s r ∧ (s.link l).active ≠ 0 ∧ (s.link r).active ≠ 0 then pumpLink (pumpLink (freshLink (freshLink s l) r) l) r else s) s

/-- INITIALISATION_DONE, R421, R422: memory is zero and HOME, $clk is 0, the records of start-up are raised in their order, and the
dispatchers begin. -/
def evInitialisationDone (s : State) (p : Nat) : State :=
  if (s.pkg p).phase ≠ 3 then s else
  let s : State := { s with
    mem := memClear s.mem (p * 2 ^ Config.paPkgBit) (2 ^ Config.paPkgBit), cellar := memClear s.cellar (16 * p * 2 ^ 27) (16 * 2 ^ 27),
    metaw := s.metaw.filter fun m => pkgOfDie (homeDie (64 * m.1)) ≠ p, errs := s.errs.filter fun e => pkgOfDie (homeDie (64 * e.1)) ≠ p }
  let s := (List.range 16).foldl (fun s k => s.modDie (16 * p + k) fun x => { x with
    region := [], rdcGen := 1, lost := [] }) s
  let s := s.modPkg p fun g => { g with phase := 4, ready := true, clk0 := s.clk }
  let good := goodDies s p
  let first := good.headD (16 * p)
  let s := s.raise first { kind := 0x01, detail := (s.pkg p).dieOk.toNat }
  let s := ((List.range 16).filter fun k => !(s.pkg p).dieOk.getLsbD k).foldl (fun s k => s.raise first { kind := 0x16, detail := k }) s
  let s := ((List.range 16).filter fun k => !(s.pkg p).brgOk.getLsbD k).foldl (fun s k => s.raise first { kind := 0x15, detail := k }) s
  let s := good.foldl startDie s
  (good.foldl startLinks s).post ((s.pkg p).errWindow * 1000000 * usClk) (.errorWindowExpiry p)

/-! ### Device memory (R417, R421) -/

/-- The physical address of an offset of BAR4 (notes/assumptions/2.md). -/
def barPa (p off : Nat) : Nat := p * 2 ^ Config.paPkgBit + off

/-- The visit of a line by the host agent at its home: what is wrong with it is found as by any other access (R234, R259). -/
def hostVisit (s : State) (line : Nat) : State :=
  if inRdc s line then s else
  let (s', cause) := visit s line 9
  if cause = 0 then s' else postRead s (homeDie (64 * line)) 9 (64 * line)

/-- A line gives the host no data: it is poisoned, or will be. -/
def hostLost (s : State) (line : Nat) : Bool := poisoned s line || (!inRdc s line && decide ((visit s line 9).2 ≠ 0))

/-- The lines of a range. -/
def linesIn (pa n : Nat) : List Nat := if n = 0 then [] else (List.range ((pa + n - 1) / 64 - pa / 64 + 1)).map (pa / 64 + ·)

/-- Host memory accesses reach a range. -/
def hostReaches (s : State) (p off n : Nat) : Bool :=
  decide (off + n ≤ 2 ^ 41) && (linesIn (barPa p off) n).all fun l => (s.die (homeDie (64 * l))).ok && !(s.die (homeDie (64 * l))).dead

/-- The entries of a package's directory that a range touches. -/
def dirTouched (s : State) (p pa n : Nat) : List Nat :=
  let b := (s.pkg p).lqBase
  if !(s.pkg p).lqEn then [] else (List.range 4096).filter fun a => decide (pa < b + 8 * a + 8) && decide (b + 8 * a < pa + n)

/-- HOST_MEMORY_WRITE, R417: the bytes are written in the order of delivery; one to a dead die is lost. Before READY it is dropped. -/
def evHostMemoryWrite (s : State) (p off : Nat) (b : List Byte) : State :=
  if !(s.pkg p).ready ∨ !hostReaches s p off b.length then s
  else
    let pa := barPa p off
    let s := (linesIn pa b.length).foldl hostVisit s
    let s : State := { s with mem := memWrite s.mem pa b }
    (dirTouched s p pa b.length).foldl (fun s a => dirWritten s p a) s

/-- The bytes of a host read that reaches no memory, open values. -/
def openBytes : Nat → State → List Byte × State
  | 0, s => ([], s)
  | n + 1, s =>
    let (v, s) := s.choose
    let (l, s) := openBytes n s
    (BitVec.ofNat 8 v :: l, s)

/-- HOST_MEMORY_READ, R417: the bytes returned are kept in the package's list of reads. Before READY they are all ones; those of a line
that gives no data are open values (R234, R259). -/
def evHostMemoryRead (s : State) (p off n : Nat) : State :=
  let (b, s) :=
    if !(s.pkg p).ready then (List.replicate n 0xFF, s)
    else if !hostReaches s p off n then openBytes n s
    else
      let pa := barPa p off
      let bad := (linesIn pa n).filter (hostLost s)
      let s := (linesIn pa n).foldl hostVisit s
      let (free, s) := openBytes (if bad.isEmpty then 0 else n) s
      (((memRead s.mem pa n).zipIdx.map fun b => if bad.contains ((pa + b.2) / 64) then free.getD b.2 0 else b.1), s)
  s.modPkg p fun g => { g with hostReads := g.hostReads ++ [(off, b)] }

/-! ### Event records (R424, R425) -/

/-- An event record as bytes (Table 20-7). -/
def recordBytesOf (r : EvRec) : List Byte :=
  leBytes 2 (r.kind % 256) ++ leBytes 1 r.pkg ++ leBytes 1 r.die ++ leBytes 2 r.core ++ leBytes 1 r.slot ++ leBytes 1 0 ++ leBytes 4 r.asid
    ++ leBytes 4 r.detail ++ leBytes 8 r.clk ++ leBytes 8 r.addr

/-- The event ring has room (R425). -/
def evqRoom (g : Pkg) : Bool := decide (g.evqBase ≠ 0) && decide ((g.evqTail + 2 ^ 64 - g.evqHead) % 2 ^ 64 < 2 ^ g.evqLog)

/-- EVENT_RECORD_WRITE, R425: the oldest awaiting record of a die is written, EVQ_TAIL advances, and the interrupt is raised. -/
def evEventRecordWrite (s : State) (d : Nat) : State :=
  let p := pkgOfDie d
  let g := s.pkg p
  match (s.die d).awaiting with
  | [] => s
  | r :: rest =>
    if !evqRoom g then s
    else
      let s := s.modDie d fun x => { x with awaiting := rest }
      let s : State := { s with host := memWrite s.host (g.evqBase + 32 * (g.evqTail % 2 ^ g.evqLog)) (recordBytesOf r) }
      let s := s.modPkg p fun g => { g with evqTail := (g.evqTail + 1) % 2 ^ 64, msix := g.msix + g.evqIrq.toNat }
      if rest.isEmpty then s else s.post 0 (.eventRecordWrite d)

/-- Every die of a package looks at the event ring. -/
def pumpRecords (s : State) (p : Nat) : State :=
  ((List.range 16).map (16 * p + ·)).foldl (fun s d => if (s.die d).awaiting.isEmpty then s else s.post 0 (.eventRecordWrite d)) s

/-! ### Writing registers (R6, R418) -/

/-- A field whose range is 1 to its largest value: 0 leaves it unchanged (R6). -/
def ranged (old new : Nat) : Nat := if new = 0 then old else new

/-- A record of Table 12-1 may become valid (R253). -/
def limitGood (l : Word) : Bool := !l.getLsbD 31 && l ≠ 0 && natBits l.toNat 23 8 ≠ 255

/-- REGION_RECORD_WRITE, R253. -/
def evRegionRecordWrite (s : State) (d rec_ word : Nat) (v : Word) : State :=
  let r : Region := kvGet {} (s.die d).region rec_
  let put (r : Region) : State := s.modDie d fun x => { x with region := kvSet x.region rec_ r }
  if word = 5 then (if r.valid then s else put { r with limit := v })
  else if word = 1 then (if r.valid then s else put { r with asid := natBits v.toNat 0 12 })
  else if word ≠ 0 then s
  else if v.getLsbD 0 && !r.valid then
    if limitGood r.limit && asidLive s (pkgOfDie d) r.asid then
      put { r with valid := true, share := r.limit, bshare := r.limit, dies := 0, pkgs := 0, acks := 0 }
    else s
  else if !v.getLsbD 0 && r.valid && r.dies = 0 && r.pkgs = 0 && r.acks = 0 then put { r with valid := false }
  else s

/-- Sleep and idle times of a die's directions are counted anew (R344). -/
def rearm (s : State) (d : Nat) : State :=
  [2 * d, 2 * d + 1].foldl (fun s k =>
    let x := s.dir k
    let y := s.die d
    if x.state = 0 then (s.unpost (.directionIdle k)).post (x.last + y.idleAfter * usClk - s.clk) (.directionIdle k)
    else if x.state = 1 then (s.unpost (.directionSleep k)).post (x.last + y.sleepAfter * usClk - s.clk) (.directionSleep k)
    else s) s

/-- A write to a 64-bit register of a die's block. `n` is the register with the written bytes replaced, `v` the bytes written in
their places and `m` their mask. -/
def writeDieReg (s : State) (d o : Nat) (n v m : Dword) : State :=
  let f (lo w : Nat) : Nat := natBits n.toNat lo w
  let one (k : Nat) : Bool := (v &&& m).getLsbD k
  if o = 0x08 then (if (s.die d).spans.isEmpty ∧ f 0 2 ≠ (s.die d).rdcSize then rdcClear ((rdcClear s d).modDie d fun x => { x with rdcSize := f 0 2 }) d else s)
  else if o = 0x10 then s.modDie d fun x => { x with wakeErr := x.wakeErr &&& (255 - natBits (v &&& m).toNat 8 8) }
  else if o = 0x18 then
    rearm (s.modDie d fun x => { x with sleepEn := (f 16 1 = 1), sleepAfter := ranged x.sleepAfter (f 8 8), idleAfter := ranged x.idleAfter (f 0 8) }) d
  else if o = 0x20 then s.modDie d fun x => { x with brgThresh := ranged x.brgThresh (f 16 8), brgWindow := ranged x.brgWindow (f 8 8) }
  else if o = 0x28 then s.post 0 (.lqDoor d)
  else if o = 0x40 then
    let s := s.modDie d fun x => { x with
      planRefused := x.planRefused && !one 30, drainMax := ranged x.drainMax (f 8 8), linkDead := ranged x.linkDead (f 0 8) }
    if one 31 then s.post 0 (.replanGo d) else s
  else if 0x200 ≤ o ∧ o < 0x300 then
    if (s.die d).go then s
    else 
      let put (p : KV Byte) (k : Nat) : KV Byte := if m.getLsbD (8 * k) then kvSet p (o - 0x200 + k) (n.extractLsb' (8 * k) 8) else p
      s.modDie d fun x => { x with plan := (List.range 8).foldl put x.plan }
  else if o = 0x80000 then s.post 0 (.lineDiagAddr d n)
  else s

/-- A write to a 64-bit register of the package block. -/
def writePkgReg (s : State) (p o : Nat) (n v m : Dword) : State :=
  let g := s.pkg p
  let f (lo w : Nat) : Nat := natBits n.toNat lo w
  let still := g.evqTail = g.evqHead
  match o with
  | 0x10 => if (v &&& m).getLsbD 0 then s.post 0 (.hostCtlReset p) else s
  | 0x18 => s.modPkg p fun g => { g with lqBase := f 15 37 * 2 ^ 15, lqEn := n.getLsbD 0 }
  | 0x20 =>
    let s' := s.modPkg p fun g => { g with scrubPeriod := f 0 8 }
    if g.scrubPeriod = 0 ∧ f 0 8 ≠ 0 then
      (goodDies s' p).foldl (fun s d => (s.unpost (.scrubStep d (scrubLineOf s d))).post (scrubClk (f 0 8)) (.scrubStep d (scrubLineOf s d))) s'
    else s'
  | 0x28 => s.modPkg p fun g => { g with errWindow := ranged g.errWindow (f 0 16), errThresh := ranged g.errThresh (f 16 8) }
  | 0x30 => if still then pumpRecords (s.modPkg p fun g => { g with evqBase := f 6 58 * 64 }) p else s
  | 0x38 =>
    if still then pumpRecords (s.modPkg p fun g => { g with
      evqLog := if 6 ≤ f 0 5 ∧ f 0 5 ≤ 16 then f 0 5 else g.evqLog, evqIrq := n.getLsbD 8 }) p else s
  | 0x40 => pumpRecords (s.modPkg p fun g => { g with evqHead := n.toNat }) p
  | _ => s

/-- A word written to a table of a die's block: a region record. The management view writes no barrier object (R267). -/
def writeTableWord (s : State) (d o : Nat) (v : Word) : State :=
  if 0x1000 ≤ o ∧ o < 0x3000 then s.post 0 (.regionRecordWrite d ((o - 0x1000) / 32) (o % 32 / 4) v) else s

/-- The words of a host write, the higher one first, with their offsets. -/
def writeWords (off size : Nat) (v : Dword) : List (Nat × Word) :=
  if size = 8 then [(off + 4, v.extractLsb' 32 32), (off, v.extractLsb' 0 32)] else [(off, v.extractLsb' 0 32)]

/-- A write through the privileged view. -/
def writePriv (s : State) (p off size : Nat) (v : Dword) : State :=
  let m : Dword := if size = 8 then 0xFFFFFFFFFFFFFFFF else if off % 8 = 0 then 0xFFFFFFFF else 0xFFFFFFFF00000000
  let v' : Dword := if off % 8 = 0 then v else v <<< 32
  let merged (r : Nat) : Dword := (BitVec.ofNat 64 r &&& ~~~ m) ||| (v' &&& m)
  if off < 0x1000000 then
    let d := 16 * p + off / 2 ^ 20
    let o := off % 2 ^ 20
    if (dieTableWord s d o).isSome then (writeWords o size v).foldl (fun s w => writeTableWord s d w.1 w.2) s
    else match dieReg s d (o / 8 * 8) with
      | some r => writeDieReg s d (o / 8 * 8) (merged r) v' m
      | none => s
  else
    let o := off - 0x1000000
    if 0x10000 ≤ o ∧ o < 0x30000 then
      (writeWords (o - 0x10000) size v).foldl (fun s w => if w.2.getLsbD 31 then
        s.modPkg p fun g => { g with region := kvSet g.region (w.1 / 4) (kvGet 0 g.region (w.1 / 4) &&& 0x7FFFFFFF) } else s) s
    else match pkgReg s p (o / 8 * 8) with
      | some r => writePkgReg s p (o / 8 * 8) (merged r) v' m
      | none => s

/-- REGISTER_WRITE, R6, R418: aligned writes of 4 and 8 bytes change the fields of their access codes; a register with a row of its
own gets that happening. The unprivileged view takes a write to LQ_DOOR alone. A package without power has HOST_CTL alone (R431). -/
def evRegisterWrite (s : State) (p : Nat) (priv : Bool) (off size : Nat) (v : Dword) : State :=
  if !((size = 4 ∨ size = 8) ∧ off % size = 0) then s
  else if !(s.pkg p).powered ∧ !(priv ∧ off = 0x1000010) then s
  else if priv then writePriv s p off size v
  else if 0x1000 ≤ off ∧ off < 0x1080 then s.post 0 (.lqDoor (16 * p + (off - 0x1000) / 8))
  else s

/-! ### Windows and heat (R428, R431) -/

/-- ERROR_WINDOW_EXPIRY, R428. -/
def evErrorWindowExpiry (s : State) (p : Nat) : State :=
  (s.modPkg p fun g => { g with
    region := (g.region.map fun r => (r.1, r.2 &&& 0xFFFFFF00)).filter fun r => r.2 ≠ 0, counted := [], raised := [] }).post
    ((s.pkg p).errWindow * 1000000 * usClk) (.errorWindowExpiry p)

/-- THERMAL, R431: a die's hottest sensor; at 110 °C the record is raised and the module removes power a millisecond later. -/
def evThermal (s : State) (d : Nat) (temp : Byte) : State :=
  let was := (s.die d).temp
  let s := s.modDie d fun x => { x with temp := temp.toNat, headroom := if 100 ≤ temp.toNat then 0 else x.headroom }
  if temp.toNat < 110 ∨ 110 ≤ was then s
  else
    let s := s.raise d { kind := 0x18, detail := temp.toNat }
    if (s.pkg (pkgOfDie d)).thermal then s
    else (s.modPkg (pkgOfDie d) fun g => { g with thermal := true }).post (1000 * usClk) (.thermalPowerOff (pkgOfDie d))

/-- THERMAL_POWER_OFF, R431: the package is without power until a reset or a power cycle. -/
def evThermalPowerOff (s : State) (p : Nat) : State :=
  let s := emptyPkg s p
  { s with pkgs := kvSet s.pkgs p { thermal := true } }

end Sys2Proof.Machine
end

