-- ==== Sys2Proof/Machine/Sched.lean ====
section
/-! DEFINITION. Which run a lane begins (spec/04): readiness (R76), the end of waits, forming a run (R81, R84, R87, R175), the active
set (R85, R86, R88), and the polls of everything that waits. -/

namespace Sys2Proof.Machine

/-! ### Readiness (R76, R175) -/

/-- The instruction at an address as the cohort of a core would fetch it now. -/
def insAt (s : State) (core : Nat) (pc : Dword) (sv : Bool) : Option Ins :=
  match (fetchInstr s core pc sv).1 with
  | .ok i => i.ins?
  | .error _ => none

/-- Accesses and engine issues wait for the thread's earlier acquires to land (R220). MAPQ, CPYQ, ACCR, ACCW, RSTAT, BUFD, BUFS and
BUFF are neither (R205, R298, R321, R343, R349). -/
def waitsAcq (x : Ins) : Bool :=
  let n := x.o.code
  match x.o with
  | .mapq | .cpyq | .accr | .accw | .rstat | .bufd | .bufs | .buff => false
  | _ => (2 ≤ n && n ≤ 5) || (0x80 ≤ n && n ≤ 0x91) || (0xB0 ≤ n && n ≤ 0xB3) || (0xC0 ≤ n && n ≤ 0xCA) || (0xD0 ≤ n && n ≤ 0xD6) || n = 0xE0

/-- The clk from which a register that the instruction reads is readable; none while it is empty and not named with FE. -/
def refClk (s : State) (t : Nat) : RegRef → Option Nat
  | .g r fe => let g := s.greg t r
    if g.full then some g.rdy else if fe then some 0 else none
  | .w r => some (kvGet 0 (s.warp (t / 32)).wrdy r)
  | .p k => some (if k = 7 then 0 else kvGet 0 (s.thread t).prdy k)
  | .q _ => some 0
  | .fstat => some (s.thread t).frdy

/-- The later of two clks, where both are known. -/
def laterClk (a b : Option Nat) : Option Nat :=
  match a, b with
  | some m, some n => some (max m n)
  | _, _ => none

/-- The clk from which all that a thread needs for its instruction is readable, if it can be known; a thread whose guard is false
needs its guard alone. -/
def needClk (s : State) (x : Ins) (t : Nat) : Option Nat :=
  let g := refClk s t (.p (x.f.g.toNat % 8))
  if !guardTrue s x t then g
  else if waitsAcq x && !(s.thread t).acq.isEmpty then none
  else (insReads x).foldl (fun a r => laterClk a (refClk s t r)) g

/-- A core may begin runs, of handlers only where its cohort is stopped (R92, R396). -/
def coreRuns (s : State) (c : Nat) : Bool :=
  match (s.core c).cohort with
  | some h => (s.core c).saving.isNone && !(s.core c).restarting && !((s.pkg (pkgOfCore c)).ended.contains h.ctx.asid)
  | none => false

/-- A thread may be ready, as far as its registers do not matter. -/
def mayRun (s : State) (t : Nat) : Bool :=
  s.alive t && decide ((s.thread t).since ≤ s.clk) && decide ((s.thread t).hold = .none) && (!(s.core (coreOfThread t)).peStop || s.inHandler t)

/-- The clks between two threads of a run for the purpose of readiness; an instruction with U = 1 executes once. -/
def spacing (x : Ins) : Nat := if x.f.u then 0 else occupancy x

/-- The exchange instructions that form passes (R175). -/
def isPass (x : Ins) : Bool := 0x70 ≤ x.o.code && x.o.code ≤ 0x77

/-- The ready time of a thread that is ready now: fixed once it has been ready in some clk (R76). -/
def readyTime (s : State) (t : Nat) : Nat :=
  let h := s.thread t
  if h.since < h.noted then h.noted - 1 else s.clk

/-- The ready threads of a list in run order with their ready times, from a position of the run on. -/
def readyFrom (s : State) (x : Ins) : Nat → List Nat → List (Nat × Nat)
  | _, [] => []
  | pos, t :: r =>
    match (if mayRun s t then needClk s x t else none) with
    | none => readyFrom s x pos r
    | some n =>
      if n ≤ s.clk + pos * spacing x then
        (t, readyTime s t) :: readyFrom s x (pos + (guardTrue s x t).toNat) r
      else readyFrom s x pos r

/-- The threads of a warp at an address. -/
def atPc (s : State) (w : Nat) (pc : Dword) : List Nat := (State.threadsOf w).filter fun t => s.alive t && (s.thread t).pc = pc

/-- The ready threads of a warp at an address with their ready times, from a position on. A pass needs every thread of the
warp there by the clk in which it would begin (R175). -/
def readyAt (s : State) (w : Nat) (pc : Dword) (pos : Nat) : List (Nat × Nat) :=
  let ts := atPc s w pc
  match insAt s (coreOfWarp w) pc (s.warp w).handler.isSome with
  | none => (ts.filter (mayRun s)).map fun t => (t, readyTime s t)
  | some x =>
    if isPass x then
      let late := pos * spacing x
      if ts.all fun t => mayRun s t && (needClk s x t).any (· ≤ s.clk + late) then
        ts.map fun t => (t, readyTime s t)
      else []
    else readyFrom s x pos ts

/-- The addresses at which a warp's threads stand that may be ready. -/
def pcsOf (s : State) (w : Nat) : List Dword := (((State.threadsOf w).filter (mayRun s)).map fun t => (s.thread t).pc).eraseDups

/-- The oldest of some ready threads; the first on a tie (R87). -/
def oldest : List (Nat × Nat) → Option (Nat × Nat)
  | [] => none
  | a :: r => some (r.foldl (fun b x => if x.2 < b.2 then x else b) a)

/-- The ready threads of a warp, ascending by slot within each address. -/
def readyOf (s : State) (w : Nat) : List (Nat × Nat) := (pcsOf s w).flatMap fun pc => readyAt s w pc 0

/-- The ready thread of a warp with the oldest ready time, ties to the lower slot. -/
def oldestOf (s : State) (w : Nat) : Option (Nat × Nat) :=
  match readyOf s w with
  | [] => none
  | a :: r => some (r.foldl (fun b x => if x.2 < b.2 ∨ (x.2 = b.2 ∧ x.1 < b.1) then x else b) a)

/-- The warps resident on a lane, in order of their lane warp index. -/
def residents (s : State) (l : Nat) : List Nat :=
  ((List.range 16).map (warpOfLwi l)).filter fun w => decide (w % 512 < s.warpCount (coreOfLane l))

/-- The warps with a thread that waits for nothing and has no ready time yet. -/
def unnoted (s : State) : List Nat :=
  s.threads.foldl (fun l t =>
    let h := t.2
    if h.exited || decide (h.hold ≠ .none ∨ s.clk < h.since ∨ h.since < h.noted) || l.head? == some (t.1 / 32) then l else t.1 / 32 :: l) []

/-- Fixes the ready time of every thread that has become ready by this clk (R76). -/
def noteReady (s : State) : State :=
  ((unnoted s).filter fun w => coreRuns s (coreOfWarp w)).foldl (fun s w =>
    (readyOf s w).foldl (fun s e => s.modThread e.1 fun h => { h with noted := e.2 + 1 }) s) s

/-- Time passes: at the end of a clk the ready times of that clk stand. -/
def passTo (s : State) (n : Nat) : State := { noteReady s with clk := n }

/-- A lane can begin a run. -/
def laneFree (s : State) (l : Nat) : Bool :=
  (s.lane l).run.isNone && decide ((s.lane l).freeAt ≤ s.clk) && coreRuns s (coreOfLane l)

/-- Runs that a pending warp waits for before it is promoted (R88). -/
def promoteAfter : Nat := 255

/-- The pending warps of a lane that have waited long enough (R88). -/
def overdue (x : Lane) (i : Nat) : Bool := x.waited.any fun w => w.1 = i && decide (w.2 + promoteAfter ≤ x.begun)

/-- The thread that a lane selects: a promoted warp's, else the oldest of the active set (R87, R88). -/
def selectOn (s : State) (l : Nat) : Option (Nat × Nat) :=
  let x := s.lane l
  let due := x.active.filter (overdue x)
  match oldest (due.filterMap fun i => oldestOf s (warpOfLwi l i)) with
  | some t => some t
  | none => oldest (x.active.filterMap fun i => oldestOf s (warpOfLwi l i))

/-! ### Forming a run (R81, R83, R84) -/

/-- The position in a run at which the threads of warp `w` begin: the performing threads of the warps with a lower lane warp index
(R73). -/
def runPos (s : State) (x : Option Ins) (run : List Nat) (w : Nat) : Nat :=
  let before := run.filter fun u => decide (u / 32 < w)
  match x with
  | some x => (before.filter (guardTrue s x)).length
  | none => before.length

/-- Adds the ready threads of other warps of the active set, while the run holds fewer than 32 threads; a pass is added whole. -/
def mergeWarps (s : State) (pc : Dword) (pass : Bool) : List Nat → List Nat → List Nat
  | run, [] => run
  | run, w :: ws =>
    if 32 ≤ run.length ∨ (s.warp w).handler.isSome then mergeWarps s pc pass run ws
    else
      let more := (readyAt s w pc (runPos s (insAt s (coreOfWarp w) pc false) run w)).map (·.1)
      if pass ∧ 32 < run.length + more.length then mergeWarps s pc pass run ws
      else mergeWarps s pc pass (run ++ more.take (32 - run.length)) ws

/-- The threads of the run that a lane forms for a selected thread, in run order. -/
def formThreads (s : State) (l t : Nat) : List Nat :=
  let w := t / 32
  let pc := (s.thread t).pc
  let sv := (s.warp w).handler.isSome
  let pass := (insAt s (coreOfLane l) pc sv).any isPass
  let mine := (readyAt s w pc 0).map (·.1)
  let others := ((s.lane l).active.map (warpOfLwi l)).filter (· ≠ w)
  let run := if sv then mine else mergeWarps s pc pass mine others
  -- run order: ascending lane warp index, then slot (R73)
  ((s.lane l).active.map (warpOfLwi l)).flatMap fun v => run.filter fun u => u / 32 = v

/-- The queue ports that an instruction pops. -/
def popPorts (x : Option Ins) : List Nat :=
  match x with
  | none => []
  | some x => (insReads x).filterMap fun r => match r with
    | .q p => some p
    | _ => none

/-- The front end delivers the instruction of an address in this clk: at most two addresses a core and clk (R84). -/
def frontEnd (s : State) (c : Nat) (pc : Dword) : Option State :=
  let used := if (s.core c).fe.1 = s.clk then (s.core c).fe.2 else []
  if used.contains pc then some s
  else if 2 ≤ used.length then none
  else some (s.modCore c fun k => { k with fe := (s.clk, pc :: used) })

/-- Pending warps of a lane: resident and not in its active set (R85). -/
def pendingOf (s : State) (l : Nat) : List Nat :=
  (List.range ((s.warpCount (coreOfLane l) + 31 - l % 32) / 32)).filter fun i =>
    !(s.lane l).active.contains i && !(s.warp (warpOfLwi l i)).gone

/-- A run begins: pending warps with a ready thread count it (R88). -/
def countRun (s : State) (l : Nat) (ws : List Nat) : State :=
  let x := s.lane l
  let n := x.begun + 1
  let pend := (pendingOf s l).filter fun i => !(readyOf s (warpOfLwi l i)).isEmpty
  let waited : KV Nat := pend.map fun i => (i, kvGet x.begun x.waited i)
  s.modLane l fun x => { x with begun := n, waited := waited, last := ws.foldl (fun m w => kvSet m (lwiOfWarp w) n) x.last }

/-- The address whose translation a run asks for when it is formed (R383). -/
def aheadAddr (s : State) (x : Ins) (t : Nat) (v : Vals) : Option Dword :=
  match x.o with
  | .ld | .ldc | .st | .atom | .red | .cas | .acc | .ldb | .rack => some (memAddr x v)
  | .mapq => some (mapqAddr x v)
  | .launch | .rgset => some (BitVec.ofNat 64 v.a)
  | .call | .callx | .ret => some (stackArea s t)
  | _ => none

/-- The core looks up its TLB for every thread of a run that performs, and sends the misses at once (R383). -/
def runMisses (s : State) (c : Nat) (x : Option Ins) (ts : List Nat) : State :=
  match x with
  | none => s
  | some x =>
    if !(popPorts (some x)).isEmpty then s else
    ts.foldl (fun s t =>
      if !guardTrue s x t then s else
      match gather s x t with
      | .vals v =>
        match aheadAddr s x t v with
        | none => s
        | some a => match xlate s c a.toNat 1 with
          | .miss => if a.extractLsb' 56 8 = 0 then missSend s c a.toNat else s
          | _ => s
      | _ => s) s

/-- RUN_FORMATION, R81: the lane selects a thread, and the run of its address begins. -/
def evRunFormation (s : State) (l : Nat) : State :=
  match selectOn s l with
  | none => s
  | some (t, _) =>
    let c := coreOfLane l
    let pc := (s.thread t).pc
    match frontEnd s c pc with
    | none => s.modLane l fun x => { x with freeAt := s.clk + 1 }
    | some s =>
      let ts := formThreads s l t
      let ws := (ts.map (· / 32)).eraseDups
      let x := insAt s c pc (s.warp (t / 32)).handler.isSome
      let s := runMisses (pmcAdd (countRun s l ws) c 1 1) c x ts
      s.modLane l fun y => { y with run := some { pc := pc, threads := ts, clk := s.clk, begun := s.clk, pops := popPorts x, warp := (ts.headD t) / 32 } }

/-! ### The active set (R85, R86, R88) -/

/-- A register is empty and its long-latency producer outstanding; one that FESET.empty emptied is not (R97). -/
def awaited (s : State) (t r : Nat) : Bool := !(s.greg t r).full && decide ((s.greg t r).tag ≠ 0)

/-- A thread waits on a long-latency dependence (R86): a register whose producer is outstanding, a queue port, WAITM, BWAIT, WAITC
or SLEEP, a FENCE (R229), the reply of a RACK or ATCI (R265, R384), or room for an operation, a tag or an event record (R280, R285, R309,
R321, R335, R413). -/
def longWait (s : State) (t : Nat) : Bool :=
  let x := insAt s (coreOfThread t) (s.thread t).pc (s.inHandler t)
  s.alive t && match (s.thread t).hold with
    | .mask _ | .sleep _ | .counters .. | .phase .. | .queue .. | .fence .. | .slots .. | .anvilQueue _ | .tile .. | .tags _ | .evnt => true
    | .reply _ => x.any fun x => decide (x.o = .bwait ∨ x.o = .rack ∨ x.o = .atci)
    | .indexed r => awaited s t r
    | .none => x.any fun x => guardTrue s x t && (insReads x).any fun r => match r with
      | .g k fe => !fe && awaited s t k
      | _ => false
    | _ => false

/-- The pending warp of a lane with the oldest ready thread, ties to the lower index. -/
def bestPending (s : State) (l : Nat) : Option Nat :=
  (oldest ((pendingOf s l).filterMap fun i => (oldestOf s (warpOfLwi l i)).map fun e => (i, e.2))).map (·.1)

/-- The run of a lane has threads of a warp still to execute. -/
def inRun (s : State) (l w : Nat) : Bool :=
  match (s.lane l).run with
  | some r => r.threads.any fun t => t / 32 = w
  | none => false

/-- The active warp of a lane that is swapped out now. DESIGN CHOICE (log 86): of several, the one of lowest lane warp index. -/
def swapOut (s : State) (l : Nat) : Option Nat :=
  (s.lane l).active.find? fun i =>
    let w := warpOfLwi l i
    !inRun s l w && (readyOf s w).isEmpty && (State.threadsOf w).any (longWait s)

/-- A pending warp takes the place of an active one. -/
def putActive (s : State) (l : Nat) (out inn : Nat) : State :=
  s.modLane l fun x => { x with active := insertNat inn (x.active.filter (· ≠ out)) }

/-- A lane has a swap to make (R86). -/
def swapDue (s : State) (l : Nat) : Bool :=
  coreRuns s (coreOfLane l) && !(pendingOf s l).isEmpty && (swapOut s l).isSome && (bestPending s l).isSome

/-- WARP_SWAP, R86. -/
def evWarpSwap (s : State) (l : Nat) : State :=
  match swapOut s l, bestPending s l with
  | some o, some i => putActive s l o i
  | _, _ => s

/-- The pending warp that is promoted now (R88), none while a promoted warp has yet to begin its run. DESIGN CHOICE (log 86): of
several, the one with the oldest ready thread, ties to the lower lane warp index. -/
def promoted (s : State) (l : Nat) : Option Nat :=
  let x := s.lane l
  if x.active.any fun i => overdue x i && !(readyOf s (warpOfLwi l i)).isEmpty then none
  else (oldest (((pendingOf s l).filter (overdue x)).filterMap fun i => (oldestOf s (warpOfLwi l i)).map fun e => (i, e.2))).map (·.1)

/-- PENDING_WARP_PROMOTION, R88: the warp replaces the active warp that began a run least recently, and its thread is selected
next. -/
def evPendingWarpPromotion (s : State) (l : Nat) : State :=
  let x := s.lane l
  match promoted s l, oldest (x.active.map fun i => (i, kvGet 0 x.last i)) with
  | some i, some (o, _) => putActive s l o i
  | _, _ => s

/-- WARP_LEAVES_ACTIVE_SET, R86: its place is filled. -/
def evWarpLeavesActiveSet (s : State) (w : Nat) : State :=
  if !warpExited s w ∨ (s.warp w).gone then s else
  let l := laneOfWarp w
  let s := s.modWarp w fun x => { x with gone := true }
  let s := s.modLane l fun x => { x with active := x.active.filter (· ≠ lwiOfWarp w) }
  match (bestPending s l).orElse fun _ => (pendingOf s l).head? with
  | some i => s.modLane l fun x => { x with active := insertNat i x.active }
  | none => s

/-! ### The end of waits (R76, R77, R229, R281, R285) -/

/-- A thread executes its instruction again from the next clk on. -/
def retry (s : State) (t : Nat) : State := s.modThread t fun x => { x with hold := .none, since := s.clk + 1 }

/-- The wait of a thread that waits to execute its instruction again is over. -/
def retryDue (s : State) (t : Nat) (h : Hold) : Bool :=
  let w := t / 32
  let c := coreOfThread t
  match h with
  | .anvilQueue k => (k ≠ 2 || decide ((s.core c).anvilQ.length < 64)) && !counterFull s w k 1
  | .tile k m => !((tileOps s c k).any fun o => decide (o < m))
  | .tags g => !counterFull s w 3 1 && decide ((outTags s (dieOfCore c) (s.asidOf c) g).length < 64)
  | .evnt => decide ((s.die (dieOfCore c)).awaiting.length < 256)
  | .queue p pop since =>
    if p < 8 then decide (since < kvGet 0 (if pop then (s.core c).qpush else (s.core c).qpop) p)
    else bindFault s w p (!pop) || (if pop then !(portEntries s w p).isEmpty else pushRoom s w p)
  | .indexed r => (s.greg t r).full && decide ((s.greg t r).rdy ≤ s.clk)
  | .stack => match stackCheck s t with
    | (.ok p, _) => !stackBusy s t p
    | _ => true
  | .own cls pa size => (earlier s { thread := t, cls := cls, pa := pa, size := size }).isEmpty
  | .order => released s t
  | _ => false

/-- A branch or a call whose accesses are performed and whose reads have landed knows its target (R166, R167). -/
def settled (s : State) (ids : List Nat) (till : Nat) : Bool :=
  decide (till ≤ s.clk) && !(s.reqs.any fun r => ids.contains r.1 && decide (r.2.stage < 2))

/-- Looks at one thread's wait. -/
def pollHold (s : State) (t : Nat) (h : Hold) : State :=
  match h with
  | .counters m k => if countersLow s (t / 32) m k then s.release t 12 else s
  | .fence o sc => if fenceDone s t o sc then (fenceEnd s t o sc).release t 12 else s
  | .settle ids till => if settled s ids till then s.modThread t fun x => { x with hold := .none, since := s.clk } else s
  | .tile k m => if retryDue s t h then (retry s t).modThread t fun x => { x with pass := some (k, m) } else s
  | _ => if retryDue s t h then retry s t else s

/-- Looks at a wait for a reply, also one that a warp's handler keeps. -/
def pollReply (s : State) (t id : Nat) : State :=
  if s.reqs.any fun r => r.1 = id then s else s.releaseWhere t 12 fun h => decide (h = .reply id)

/-- The sub-runs that wait for copy slots in their order, by the clk since which they are held and their lane: the class, the number of
operations, the threads (R285). -/
def slotWaits (s : State) : KV (Nat × Nat × List Nat) :=
  s.threads.foldl (fun l t => match t.2.hold with
    | .slots c m since =>
      let key := (since * 2 ^ 24 + laneOfWarp (t.1 / 32)) * 2 ^ 24 + t.1 / 32
      kvSet l key (c, m, (kvGet (c, m, []) l key).2.2 ++ [t.1])
    | _ => l) []

/-- The sub-runs that wait for copy slots execute again, each core's in their order, as far as the free slots go; one that its warp's counter
holds lets the later ones pass (R285). Each has its slots from now on. The `short` cores have a sub-run that does not fit. -/
def giveSlots : KV (Nat × Nat × List Nat) → List Nat → State → State
  | [], _, s => s
  | (_, c, m, ts) :: r, short, s =>
    let w := ts.headD 0 / 32
    if counterFull s w c m || short.contains (coreOfWarp w) then giveSlots r short s
    else if (slotHold s w c m).isSome then giveSlots r (coreOfWarp w :: short) s
    else giveSlots r short (ts.foldl (fun s t => (retry s t).modThread t fun x => { x with slot := true }) s)

/-- Looks at the waits for copy slots. -/
def pollSlots (s : State) : State := giveSlots (slotWaits s) [] s

/-- Threads that wait, with what they wait for. -/
def waiting (s : State) : List (Nat × Hold) := s.threads.filterMap fun t => if t.2.hold = .none then none else some (t.1, t.2.hold)

/-- The waits that handlers keep. -/
def keptWaits (s : State) : List (Nat × Hold) :=
  s.warps.flatMap fun w => match w.2.handler with
    | some h => h.holds.map fun e => (32 * w.1 + e.1, e.2)
    | none => []

/-- Looks at every wait. -/
def pollHolds (s : State) : State :=
  let s := (waiting s).foldl (fun s w => pollHold s w.1 w.2) s
  (waiting s ++ keptWaits s).foldl (fun s w => match w.2 with
    | .reply id => pollReply s w.1 id
    | _ => s) (pollSlots s)

/-- Everything that waits for something which has happened goes on. -/
def wake (s : State) : State := pollHolds (pollLaunches (pollSaves (pollAnvils (pollOps (pollReqs s)))))

/-! ### What comes next within a clk (R74, R83, R84, R100) -/

/-- The threads of a sub-run are readable in run order from a position on; those whose guard is false take no clk. -/
def readyInOrder (s : State) (x : Ins) : Nat → List Nat → Bool
  | _, [] => true
  | pos, t :: r =>
    if !s.alive t then readyInOrder s x pos r
    else decide ((needClk s x t).getD 0 ≤ s.clk + (if isPass x then 0 else pos * spacing x))
      && readyInOrder s x (pos + (guardTrue s x t).toNat) r

/-- The next thread of a lane's run executes in this clk: its turn has come, the lane is not held, and what the thread reads is
readable (R74, R76); at the beginning of a sub-run, what all its threads read (R83). -/
def sliceReady (s : State) (l : Nat) : Bool :=
  match (s.lane l).run with
  | none => false
  | some r => decide (r.clk ≤ s.clk) && !r.wait && (match r.threads with
    | [] => true
    | t :: _ => match insAt s (coreOfLane l) r.pc (s.inHandler t) with
      | none => true
      | some x => readyInOrder s x 0 (if isCollective x then r.threads.takeWhile fun u => u / 32 = t / 32 else [t]))

/-- A queue as lanes contend for it: one of a core's eight, or a hand-off port of a warp. -/
abbrev QueueId := Bool × Nat × Nat

/-- The queue that warp `w` pops at a port, and the one that it pushes to. -/
def popQueue (w port : Nat) : QueueId := if port < 8 then (false, coreOfWarp w, port) else (true, w, port)

/-- The queue that warp `w` pushes to at a port (R102). -/
def pushQueue (s : State) (w port : Nat) : Option QueueId :=
  if port < 8 then some (false, coreOfWarp w, port)
  else (partnerOn s w (portDie s w port)).map fun v => (true, v, if port = 9 then 8 else 10)

/-- What the next thread of a lane's run does at queues: those it pops, the one it pushes to and whether that has room. -/
def queuesOf (s : State) (l : Nat) : List QueueId × Option QueueId × Bool :=
  match (s.lane l).run with
  | none => ([], none, true)
  | some r =>
    match insAt s (coreOfLane l) r.pc (s.inHandler (r.threads.headD 0)) with
    | none => ([], none, true)
    | some x =>
      match performers x s r.threads with
      | [] => ([], none, true)
      | t :: _ =>
        let w := t / 32
        (r.pops.map (popQueue w), (pushOf x).bind (pushQueue s w), match pushOf x with
          | some p => pushRoom s w p
          | none => true)

/-- The lane whose thread executes before that of lane `l` on account of R100: a lower one that pops or pushes the same queue, or one
whose pop makes the room that a push lacks. `ls` are the lanes with a thread to execute, `seen` those passed already: where pops and pushes wait for each
other in a ring, the first of them is dropped. -/
def queueTurn (s : State) (ls : List Nat) : Nat → List Nat → Nat → Nat
  | 0, _, l => l
  | n + 1, seen, l =>
    let q := queuesOf s l
    let others := ls.filter fun m => m ≠ l && !seen.contains m
    let same := others.find? fun m => decide (m < l) && (let r := queuesOf s m
      r.1.any q.1.contains || (r.2.1.isSome && decide (r.2.1 = q.2.1)))
    let room := if q.2.2 then none else others.find? fun m => (queuesOf s m).1.any fun p => decide (q.2.1 = some p)
    match same.orElse fun _ => room with
    | some m => queueTurn s ls n (l :: seen) m
    | none => l

/-- The lane whose thread executes next: of those with a thread to execute the one held longest, then the lowest
(notes/assumptions/14.md), queues in the order of R100. -/
def pickSlice (s : State) : Option Nat :=
  match (s.lanes.filter fun l => sliceReady s l.1).map fun l => (l.1, match l.2.run with
    | some r => if r.since = 0 then s.clk + 1 else r.since
    | none => s.clk + 1) with
  | [] => none
  | [l] => some l.1
  | ls => (oldest ls).map fun l => queueTurn s (ls.map (·.1)) ls.length [] l.1

/-- The lane that forms a run next: the one whose selected thread has been ready longest, then the lower lane (R84). -/
def pickFormation (s : State) : Option Nat :=
  let ls := s.lanes.filterMap fun l => if laneFree s l.1 then (selectOn s l.1).map fun t => (l.1, t.2) else none
  (oldest ls).map (·.1)

/-- A change of an active set that is due (R86, R88). DESIGN CHOICE (log 86): a swap comes before a promotion. -/
def pickActive (s : State) : Option Ev :=
  s.lanes.findSome? fun l =>
    if swapDue s l.1 then some (.warpSwap l.1)
    else if (s.lane l.1).run.isNone && coreRuns s (coreOfLane l.1) && (promoted s l.1).isSome then some (.pendingWarpPromotion l.1)
    else none

/-- The clk in which something can happen next: the next one while a cohort is resident or an Anvil has work, else that of the agenda. -/
def nextClk (s : State) : Nat :=
  if s.cores.any fun c => c.2.cohort.isSome || !c.2.anvilQ.isEmpty then s.clk + 1
  else match s.agenda with
    | (d, _) :: _ => max (s.clk + 1) d
    | [] => s.clk + 1

end Sys2Proof.Machine
end

