-- ==== Sys2Proof/Machine/Events.lean ====
section
/-! DEFINITION. The events of the opcode table as meanings: each takes the happening that `State.ev` names. -/

namespace Sys2Proof.Machine

/-- The meaning of an event row: the happening is taken from the state, and one of another row is a fault. -/
def onEvent (s : State) (f : Ev → State → Option State) : Out :=
  match s.ev with
  | none => .fault .noEvent
  | some e => match f e { s with ev := none } with
    | some s => .next s
    | none => .fault .noEvent

/-- OPERATION_ENQUEUE, R223: an operation whose issuers' earlier writes are performed enters its engine's queue. -/
def evOperationEnqueue (s : State) (o : Nat) : State :=
  if !(s.ops.any fun x => x.1 = o) ∨ (s.op o).stage ≠ 0 ∨ !(s.op o).after.isEmpty then s
  else
    let p := s.op o
    let s := s.modOp o fun p => { p with stage := 1 }
    let d := dieOfCore p.core
    if slotClass p.cls then
      pumpCopy (s.modDie d fun x => { x with classQ := kvSet x.classQ p.prio (kvGet [] x.classQ p.prio ++ [o]) }) d
    else if p.cls = 2 then pollAnvil s p.core
    else if p.cls = 4 then startPress s o
    else ringEnqueue s o

/-- CHUNK_COMPLETE, R286: for a collective the end of a tile of its instance (R336). -/
def evChunkEnd (s : State) (o k : Nat) : State :=
  let ring := (s.op o).cls = 3 ∧ (s.op o).chunks.any fun x => x.1 = k
  let s := evChunkComplete s o k
  if ring then ringTileDone s o else s

/-- RUN_FORMATION, R81: A lane selects the oldest ready thread, forms a run at its program counter and begins it. -/
def execRunFormation (s : State) : Out :=
  onEvent s fun e s => match e with
    | .runFormation a => some (evRunFormation s a)
    | _ => none

/-- WARP_SWAP, R86: A waiting active warp is replaced by a pending warp with a ready thread. -/
def execWarpSwap (s : State) : Out :=
  onEvent s fun e s => match e with
    | .warpSwap a => some (evWarpSwap s a)
    | _ => none

/-- PENDING_WARP_PROMOTION, R88: After 255 runs a pending warp's ready thread is promoted into the active set. -/
def execPendingWarpPromotion (s : State) : Out :=
  onEvent s fun e s => match e with
    | .pendingWarpPromotion a => some (evPendingWarpPromotion s a)
    | _ => none

/-- WARP_LEAVES_ACTIVE_SET, R86: In the clk after its last thread exits, a warp leaves the active set and the place is refilled. -/
def execWarpLeavesActiveSet (s : State) : Out :=
  onEvent s fun e s => match e with
    | .warpLeavesActiveSet a => some (evWarpLeavesActiveSet s a)
    | _ => none

/-- SLEEP_EXPIRY, R415: A sleeping thread's n clks run out and it becomes ready. -/
def execSleepExpiry (s : State) : Out :=
  onEvent s fun e s => match e with
    | .sleepExpiry a => some (evSleepExpiry s a)
    | _ => none

/-- PRODUCER_LANDING, R95: A long-latency result lands and fills its register if the producer tag still matches. -/
def execProducerLanding (s : State) : Out :=
  onEvent s fun e s => match e with
    | .producerLanding a => some (evProducerLanding s a)
    | _ => none

/-- TRAP_ENTRY, R387: In the clk after a faulting run the warp stops, trap state is written and slots go to the handler. -/
def execTrapEntry (s : State) : Out :=
  onEvent s fun e s => match e with
    | .trapEntry a b => some (evTrapEntry s a b)
    | _ => none

/-- HANDOFF_ENTRY_ARRIVAL, R333: An entry pushed to a hand-off port arrives at the partner warp's receiving port. -/
def execHandoffEntryArrival (s : State) : Out :=
  onEvent s fun e s => match e with
    | .handoffEntryArrival a b c d e f g => some (evHandoffEntryArrival s a b c d e f g)
    | _ => none

/-- CELLAR_GROUP_SERVICE, R188: A cellar bank serves one bank word per clk of the arriving groups, merging requests to one word. -/
def execCellarGroupService (s : State) : Out :=
  onEvent s fun e s => match e with
    | .cellarGroupService a b c => some (evCellarGroupService s a b c)
    | _ => none

/-- BUFFER_STATE_CHANGE, R192: A declared buffer's state change takes effect in the clk after its event. -/
def execBufferStateChange (s : State) : Out :=
  onEvent s fun e s => match e with
    | .bufferStateChange a b => some (evBufferStateChange s a b)
    | _ => none

/-- ATOMIC_UNIT_APPLY, R195: An atomic unit or bank applies an atomic or reduction indivisibly at the home. -/
def execAtomicUnitApply (s : State) : Out :=
  onEvent s fun e s => match e with
    | .atomicUnitApply a => some (evAtomicUnitApply s a)
    | _ => none

/-- L1_SECTOR_EXPIRY, R214: An L1 sector is dropped 4,096 clk after filling. -/
def execL1SectorExpiry (s : State) : Out :=
  onEvent s fun e s => match e with
    | .l1SectorExpiry a b => some (evL1SectorExpiry s a b)
    | _ => none

/-- GENERATION_ADVANCE, R246: A die advances its remote-data cache generation at a launch boundary or FLSH request. -/
def execGenerationAdvance (s : State) : Out :=
  onEvent s fun e s => match e with
    | .generationAdvance a b => some (evGenerationAdvance s a b)
    | _ => none

/-- RDC_SWEEPER_STEP, R246: The sweeper reads one remote-data cache entry per clk and invalidates stale ones. -/
def execRdcSweeperStep (s : State) : Out :=
  onEvent s fun e s => match e with
    | .rdcSweeperStep a => some (evRdcSweeperStep s a)
    | _ => none

/-- RD, R239: A read request from another die reaches the home agent and moves the line. -/
def execRd (s : State) : Out :=
  onEvent s fun e s => match e with
    | .rd a => some (evArrive s (.rd a))
    | _ => none

/-- OWN, R239: An ownership request for a store reaches the home agent. -/
def execOwn (s : State) : Out :=
  onEvent s fun e s => match e with
    | .own a => some (evArrive s (.own a))
    | _ => none

/-- HRD, R239: A read at home by a thread of the home die reaches the home agent. -/
def execHrd (s : State) : Out :=
  onEvent s fun e s => match e with
    | .hrd a => some (evArrive s (.hrd a))
    | _ => none

/-- HWR, R239: A home store or any atomic reaches the home agent, which makes its copy the only one. -/
def execHwr (s : State) : Out :=
  onEvent s fun e s => match e with
    | .hwr a => some (evArrive s (.hwr a))
    | _ => none

/-- EVX, R239: An owner's eviction with its dirty sectors reaches the home agent. -/
def execEvx (s : State) : Out :=
  onEvent s fun e s => match e with
    | .evx a b c => some (evArrive s (.evx a b c))
    | _ => none

/-- PROBE, R238: A holder receives a probe, keeps a read-only copy and returns its dirty sectors. -/
def execProbe (s : State) : Out :=
  onEvent s fun e s => match e with
    | .probe a b c d => some (evHolder s (.probe a b c d) a b c)
    | _ => none

/-- RECALL, R238: A holder receives a recall, drops its copy and returns its dirty sectors. -/
def execRecall (s : State) : Out :=
  onEvent s fun e s => match e with
    | .recallHolder a b c => some (evHolder s (.recallHolder a b c) a b c)
    | _ => none

/-- INVALIDATION, R238: A holder receives an invalidation and drops its copy. -/
def execInvalidation (s : State) : Out :=
  onEvent s fun e s => match e with
    | .invalidation a b c => some (evHolder s (.invalidation a b c) a b c)
    | _ => none

/-- HOLDER_ANSWER, R240: A holder's answer reaches the home agent, which ends the transaction on the last one. -/
def execHolderAnswer (s : State) : Out :=
  onEvent s fun e s => match e with
    | .holderAnswer a b c d => some (evHolderAnswer s a b c d)
    | _ => none

/-- OWNERSHIP_GRANT, R243: A reply granting ownership reaches the requesting die cache and the waiting store is applied. -/
def execOwnershipGrant (s : State) : Out :=
  onEvent s fun e s => match e with
    | .ownershipGrant a => some (evOwnershipGrant s a)
    | _ => none

/-- DIE_CACHE_EVICTION, R238: A die cache evicts a copy, silently if shared or by EVX if owned. -/
def execDieCacheEviction (s : State) : Out :=
  onEvent s fun e s => match e with
    | .dieCacheEviction a b => some (evDieCacheEviction s a b)
    | _ => none

/-- PROXY_EVICTION, R242: A proxy recalls or invalidates its package's holders and evicts a line. -/
def execProxyEviction (s : State) : Out :=
  onEvent s fun e s => match e with
    | .proxyEviction a b => some (evProxyEviction s a b)
    | _ => none

/-- LINK_WAKE_COMPLETE, R247: A woken bridge direction becomes active and its held messages are sent. -/
def execLinkWakeComplete (s : State) : Out :=
  onEvent s fun e s => match e with
    | .linkWakeComplete a => some (evLinkWakeComplete s a)
    | _ => none

/-- LINK_WAKE_ERROR, R248: A wake not complete after 20 µs raises an error and retrains the bridge. -/
def execLinkWakeError (s : State) : Out :=
  onEvent s fun e s => match e with
    | .linkWakeError a => some (evLinkWakeError s a)
    | _ => none

/-- HEARTBEAT, R249: A die sends a heartbeat on each bridge every 5 µs. -/
def execHeartbeat (s : State) : Out :=
  onEvent s fun e s => match e with
    | .heartbeat a => some (evHeartbeat s a)
    | _ => none

/-- DIE_DEAD, R249: A die with no heartbeat for 50 µs, or two failed bridges, is declared dead. -/
def execDieDead (s : State) : Out :=
  onEvent s fun e s => match e with
    | .dieDead a => some (evDieDead s a)
    | _ => none

/-- CASK_OPEN_REQUEST, R259: An open request reaches home, adds the holder, re-splits and grants a share. -/
def execCaskOpenRequest (s : State) : Out :=
  onEvent s fun e s => match e with
    | .caskOpenRequest a b => some (evArrive s (.caskOpenRequest a b))
    | _ => none

/-- CASK_GRANT, R262: A grant reaches the cask store, clearing OPENING and placing the entry's additions. -/
def execCaskGrant (s : State) : Out :=
  onEvent s fun e s => match e with
    | .caskGrant a b c => some (evCaskGrant s a b c)
    | _ => none

/-- DRAIN_ARRIVAL, R258: A drain reaches home and is applied to the line as one indivisible update. -/
def execDrainArrival (s : State) : Out :=
  onEvent s fun e s => match e with
    | .drainArrival a b r c d e => some (evDrainArrival s a b r c d e)
    | _ => none

/-- RACKING, R257: A holder receives a racking message and drains and closes its entry. -/
def execRacking (s : State) : Out :=
  onEvent s fun e s => match e with
    | .racking a b => some (evRacking s a b)
    | _ => none

/-- RESPLIT_SHARE, R260: A holder receives a new share, drains entries above it and acknowledges. -/
def execResplitShare (s : State) : Out :=
  onEvent s fun e s => match e with
    | .resplitShare a b c d e => some (evResplitShare s a b c d e)
    | _ => none

/-- RESPLIT_ACK, R260: A re-split acknowledgement reaches home and lowers ACKS. -/
def execResplitAck (s : State) : Out :=
  onEvent s fun e s => match e with
    | .resplitAck a b => some (evResplitAck s a b)
    | _ => none

/-- LDB_TRANSACTION, R263: An LDB reaches home, racks holders to the tolerance and reads the word. -/
def execLdbTransaction (s : State) : Out :=
  onEvent s fun e s => match e with
    | .ldbTransaction a => some (evArrive s (.ldbTransaction a))
    | _ => none

/-- RACK_TRANSACTION, R265: A RACK reaches home and racks every CASK line of the region. -/
def execRackTransaction (s : State) : Out :=
  onEvent s fun e s => match e with
    | .rackTransaction a => some (evRackTransaction s a)
    | _ => none

/-- REGION_RECORD_WRITE, R253: A supervisor write to a region record sets or clears VALID under its conditions. -/
def execRegionRecordWrite (s : State) : Out :=
  onEvent s fun e s => match e with
    | .regionRecordWrite a b c d => some (evRegionRecordWrite s a b c d)
    | _ => none

/-- BARRIER_MESSAGE, R275: A barrier instruction naming an object on another core arrives and is checked and applied. -/
def execBarrierMessage (s : State) : Out :=
  onEvent s fun e s => match e with
    | .barrierMessage a => some (evBarrierMessage s a)
    | _ => none

/-- BARRIER_REPLY, R275: A reply from a remote barrier object reaches the issuing thread. -/
def execBarrierReply (s : State) : Out :=
  onEvent s fun e s => match e with
    | .barrierReply a => some (evBarrierReply s a)
    | _ => none

/-- ROUND_FIRE, R278: A convergence round with its operation bound and all signatures fires and releases signers. -/
def execRoundFire (s : State) : Out :=
  onEvent s fun e s => match e with
    | .roundFire a b => some (evRoundFire s a b)
    | _ => none

/-- ENGINE_RETIREMENT, R280: A completed engine operation retires in issue order and its counter falls. -/
def execEngineRetirement (s : State) : Out :=
  onEvent s fun e s => match e with
    | .engineRetirement a b => some (evEngineRetirement s a b)
    | _ => none

/-- OPERATION_ENQUEUE, R223: An issued engine operation enters its queue once the issuers' earlier writes are performed. -/
def execOperationEnqueue (s : State) : Out :=
  onEvent s fun e s => match e with
    | .operationEnqueue a => some (evOperationEnqueue s a)
    | _ => none

/-- CHUNK_DISPATCH, R287: The copy engine dispatches chunks by deficit round-robin over class queues. -/
def execChunkDispatch (s : State) : Out :=
  onEvent s fun e s => match e with
    | .chunkDispatch a => some (evChunkDispatch s a)
    | _ => none

/-- CHUNK_COMPLETE, R286: A chunk's last write is performed at scope and it leaves flight. -/
def execChunkComplete (s : State) : Out :=
  onEvent s fun e s => match e with
    | .chunkComplete a b => some (evChunkEnd s a b)
    | _ => none

/-- DELIVER_AT_HOME, R290: An engine write reaches its home or bank, is judged against buffer state and counted off. -/
def execDeliverAtHome (s : State) : Out :=
  onEvent s fun e s => match e with
    | .deliverAtHome a => some (evDeliverAtHome s a)
    | _ => none

/-- WEIGHT_LOAD_COMPLETE, R310: A WLD completes and writes the shadow weight buffer. -/
def execWeightLoadComplete (s : State) : Out :=
  onEvent s fun e s => match e with
    | .weightLoadComplete a => some (evWeightLoadComplete s a)
    | _ => none

/-- WSWP_TAKES_EFFECT, R316: The weight buffers are exchanged once earlier loads and array rows allow. -/
def execWswpTakesEffect (s : State) : Out :=
  onEvent s fun e s => match e with
    | .wswpTakesEffect a => some (evWswpTakesEffect s a)
    | _ => none

/-- ARRAY_OPERATION_START, R309: An array or tile-unit operation starts once tile order allows. -/
def execArrayOperationStart (s : State) : Out :=
  onEvent s fun e s => match e with
    | .arrayOperationStart a => some (evArrayOperationStart s a)
    | _ => none

/-- ARRAY_OPERATION_RETIRE, R310: An array operation retires 72 clks after its last row enters. -/
def execArrayOperationRetire (s : State) : Out :=
  onEvent s fun e s => match e with
    | .arrayOperationRetire a => some (evArrayOperationRetire s a)
    | _ => none

/-- TILE_UNIT_COMPLETE, R310: ACCZ or ACCM retires after 16 clks in the tile unit. -/
def execTileUnitComplete (s : State) : Out :=
  onEvent s fun e s => match e with
    | .tileUnitComplete a => some (evTileUnitComplete s a)
    | _ => none

/-- ACCS_ADD_ON_STORE, R324: An add-on-store reaches its home and is applied as one indivisible transaction. -/
def execAccsAddOnStore (s : State) : Out :=
  onEvent s fun e s => match e with
    | .accsAddOnStore a => some (evAccsAddOnStore s a)
    | _ => none

/-- PRESS_OPERATION, R327: Press banks compute row results and deliver them to the buffer. -/
def execPressOperation (s : State) : Out :=
  onEvent s fun e s => match e with
    | .pressOperation a => some (evPressOperation s a)
    | _ => none

/-- RING_STEP_SEND, R336: A ring engine sends the next tile step of its outstanding instances in rotation. -/
def execRingStepSend (s : State) : Out :=
  onEvent s fun e s => match e with
    | .ringStepSend a => some (evRingStepSend s a)
    | _ => none

/-- RING_STEP_ARRIVAL, R336: A step reaches its rank and is combined, relayed, written or refused. -/
def execRingStepArrival (s : State) : Out :=
  onEvent s fun e s => match e with
    | .ringStepArrival a => some (evRingStepArrival s a)
    | _ => none

/-- RING_STEP_ACK, R347: A step acknowledgement reaches the sender, which releases the tile. -/
def execRingStepAck (s : State) : Out :=
  onEvent s fun e s => match e with
    | .ringStepAck a => some (evRingStepAck s a)
    | _ => none

/-- STEP_RESEND_NOTICE, R336: A rank's issue of a tag notifies refused senders, which send again. -/
def execStepResendNotice (s : State) : Out :=
  onEvent s fun e s => match e with
    | .stepResendNotice a => some (evStepResendNotice s a)
    | _ => none

/-- BRIDGE_FLIT, R11: A flit is granted an outgoing ring direction, alternating passing and injected traffic. -/
def execBridgeFlit (s : State) : Out :=
  onEvent s fun e s => match e with
    | .bridgeFlit a b => some (evBridgeFlit s a b)
    | _ => none

/-- BRIDGE_CRC_FAILURE, R345: A bridge flit fails its CRC, is sent again and ERRCNT rises. -/
def execBridgeCrcFailure (s : State) : Out :=
  onEvent s fun e s => match e with
    | .bridgeCrcFailure a b => some (evBridgeCrcFailure s a b)
    | _ => none

/-- ERRCNT_WINDOW_EXPIRY, R345: At the end of a window ERRCNT returns to 0. -/
def execErrcntWindowExpiry (s : State) : Out :=
  onEvent s fun e s => match e with
    | .errcntWindowExpiry a => some (evErrcntWindowExpiry s a)
    | _ => none

/-- BRIDGE_DECLARED_FAILED, R345: A bridge is declared failed and its dies start wrapping. -/
def execBridgeDeclaredFailed (s : State) : Out :=
  onEvent s fun e s => match e with
    | .bridgeDeclaredFailed a => some (evBridgeDeclaredFailed s a)
    | _ => none

/-- RING_WRAP_COMPLETE, R346: The wrap completes, held flits go by the wrapped route and unacknowledged steps are resent. -/
def execRingWrapComplete (s : State) : Out :=
  onEvent s fun e s => match e with
    | .ringWrapComplete a => some (evRingWrapComplete s a)
    | _ => none

/-- DIRECTION_IDLE, R344: A bridge direction with no flit for IDLE_AFTER µs becomes idle. -/
def execDirectionIdle (s : State) : Out :=
  onEvent s fun e s => match e with
    | .directionIdle a => some (evDirectionIdle s a)
    | _ => none

/-- DIRECTION_SLEEP, R344: An idle direction becomes asleep after SLEEP_AFTER µs when enabled. -/
def execDirectionSleep (s : State) : Out :=
  onEvent s fun e s => match e with
    | .directionSleep a => some (evDirectionSleep s a)
    | _ => none

/-- DATA, R359: A sequenced DATA flit is taken in order or discarded and replay requested. -/
def execData (s : State) : Out :=
  onEvent s fun e s => match e with
    | .data a b => some (evData s a b)
    | _ => none

/-- IDLE, R359: An IDLE flit carrying ACK and GRANT is taken. -/
def execIdle (s : State) : Out :=
  onEvent s fun e s => match e with
    | .idle a b => some (evIdle s a b)
    | _ => none

/-- REPLAY, R359: A REPLAY flit makes the sender resend from the named number. -/
def execReplay (s : State) : Out :=
  onEvent s fun e s => match e with
    | .replay a b => some (evReplay s a b)
    | _ => none

/-- RESTRIPE, R361: A RESTRIPE flit makes the sender stripe over the remaining slots and resend. -/
def execRestripe (s : State) : Out :=
  onEvent s fun e s => match e with
    | .restripe a b => some (evRestripe s a b)
    | _ => none

/-- DRAIN_REQ, R363: A peer's drain marker is taken during re-plan. -/
def execDrainReq (s : State) : Out :=
  onEvent s fun e s => match e with
    | .drainReq a b => some (evDrainReq s a b)
    | _ => none

/-- DRAIN_DONE, R363: A peer's drain completion is taken during re-plan. -/
def execDrainDone (s : State) : Out :=
  onEvent s fun e s => match e with
    | .drainDone a b => some (evDrainDone s a b)
    | _ => none

/-- RELOCK, R363: A RELOCK flit with next SEQ and allowances is taken during re-plan. -/
def execRelock (s : State) : Out :=
  onEvent s fun e s => match e with
    | .relock a b => some (evRelock s a b)
    | _ => none

/-- IDLE_FLIT_TIMER, R359: A sender with nothing to send for 100 ns sends IDLE. -/
def execIdleFlitTimer (s : State) : Out :=
  onEvent s fun e s => match e with
    | .idleFlitTimer a => some (evIdleFlitTimer s a)
    | _ => none

/-- REPLAY_REPEAT_TIMER, R359: A receiver may repeat a REPLAY for one number after 1 µs. -/
def execReplayRepeatTimer (s : State) : Out :=
  onEvent s fun e s => match e with
    | .replayRepeatTimer a => some (evReplayRepeatTimer s a)
    | _ => none

/-- LOSS_OF_LIGHT, R361: A receiver detects loss of light on a slot, marks it dark and sends RESTRIPE. -/
def execLossOfLight (s : State) : Out :=
  onEvent s fun e s => match e with
    | .lossOfLight a b => some (evLossOfLight s a b)
    | _ => none

/-- LASER_SOURCE_FAILURE, R361: A transmitter detects a failed laser source and restripes its links. -/
def execLaserSourceFailure (s : State) : Out :=
  onEvent s fun e s => match e with
    | .laserSourceFailure a b c => some (evLaserSourceFailure s a b c)
    | _ => none

/-- SLOT_LIGHT_REGAINED, R361: A dark slot regains light, trains and rejoins the mapping. -/
def execSlotLightRegained (s : State) : Out :=
  onEvent s fun e s => match e with
    | .slotLightRegained a b => some (evSlotLightRegained s a b)
    | _ => none

/-- LINK_DOWN, R362: A link without active slot or flits for LINK_DEAD µs goes down and its requests fail. -/
def execLinkDown (s : State) : Out :=
  onEvent s fun e s => match e with
    | .linkDown a => some (evLinkDown s a)
    | _ => none

/-- LINK_UP, R362: A down link regains a slot, relocks and is up again. -/
def execLinkUp (s : State) : Out :=
  onEvent s fun e s => match e with
    | .linkUp a => some (evLinkUp s a)
    | _ => none

/-- REPLAN_GO, R363: A write of 1 to GO judges PLAN and begins the re-plan drain phase. -/
def execReplanGo (s : State) : Out :=
  onEvent s fun e s => match e with
    | .replanGo a => some (evReplanGo s a)
    | _ => none

/-- REPLAN_DRAIN_COMPLETE, R363: DRAIN_DONE is exchanged on every link and the dark phase begins. -/
def execReplanDrainComplete (s : State) : Out :=
  onEvent s fun e s => match e with
    | .replanDrainComplete a => some (evReplanDrainComplete s a)
    | _ => none

/-- DRAIN_MAX_EXPIRY, R363: A drain exceeding DRAIN_MAX ends phase 1 at once. -/
def execDrainMaxExpiry (s : State) : Out :=
  onEvent s fun e s => match e with
    | .drainMaxExpiry a => some (evDrainMaxExpiry s a)
    | _ => none

/-- SELECTORS_LOCKED, R363: The retuned selectors lock and the relock phase begins. -/
def execSelectorsLocked (s : State) : Out :=
  onEvent s fun e s => match e with
    | .selectorsLocked a => some (evSelectorsLocked s a)
    | _ => none

/-- REPLAN_RESUME, R364: RELOCK is taken on every link; held traffic is sent or fails and GO clears. -/
def execReplanResume (s : State) : Out :=
  onEvent s fun e s => match e with
    | .replanResume a => some (evReplanResume s a)
    | _ => none

/-- REMOTE_ACCESS_FAILURE, R368: An access to an unreachable home fails by the context's remote-failure mode. -/
def execRemoteAccessFailure (s : State) : Out :=
  onEvent s fun e s => match e with
    | .remoteAccessFailure a b => some (evRemoteAccessFailure s a b)
    | _ => none

/-- PUTN_FLAG_INCREMENT, R373: After every data write is performed, the flag is incremented as a release at .dom. -/
def execPutnFlagIncrement (s : State) : Out :=
  onEvent s fun e s => match e with
    | .putnFlagIncrement a => some (evDeliverAtHome s a)
    | _ => none

/-- PAGE_WALK, R380: A walker reads and checks the page-table entries of an address. -/
def execPageWalk (s : State) : Out :=
  onEvent s fun e s => match e with
    | .pageWalk a b => some (evPageWalk s a b)
    | _ => none

/-- TRANSLATION_CACHE_LOOKUP, R383: A TLB miss reaches the die's translation cache, which answers or starts a walk. -/
def execTranslationCacheLookup (s : State) : Out :=
  onEvent s fun e s => match e with
    | .translationCacheLookup a b => some (evTranslationCacheLookup s a b)
    | _ => none

/-- PREEMPTION_REQUEST, R396: A pre-emption request reaches a cohort and is served by region restart or a PE trap. -/
def execPreemptionRequest (s : State) : Out :=
  onEvent s fun e s => match e with
    | .preemptionRequest a => some (evPreemptionRequest s a)
    | _ => none

/-- PREWAIT_TIMEOUT, R396: With no PPT within PREWAIT µs the PE trap goes to the lowest eligible warp. -/
def execPrewaitTimeout (s : State) : Out :=
  onEvent s fun e s => match e with
    | .prewaitTimeout a => some (evPrewaitTimeout s a)
    | _ => none

/-- SAVE_AREA_WRITE, R397: Once outstanding writes and atomics complete, the cohort's state is written and it leaves the core. -/
def execSaveAreaWrite (s : State) : Out :=
  onEvent s fun e s => match e with
    | .saveAreaWrite a => some (evSaveAreaWrite s a)
    | _ => none

/-- REMOTE_REPLY, R400: A remote reply arrives and is discarded unless it carries the core's current epoch. -/
def execRemoteReply (s : State) : Out :=
  onEvent s fun e s => match e with
    | .remoteReply a => some (evRemoteReply s a)
    | _ => none

/-- LQ_DOOR, R403: A write to LQ_DOOR makes the die's dispatcher read TAIL at once. -/
def execLqDoor (s : State) : Out :=
  onEvent s fun e s => match e with
    | .lqDoor a => some (evLqDoor s a)
    | _ => none

/-- TAIL_POLL, R403: At least every 2 µs the serving dispatcher reads TAIL and examines new records. -/
def execTailPoll (s : State) : Out :=
  onEvent s fun e s => match e with
    | .tailPoll a => some (evTailPoll s a)
    | _ => none

/-- LAUNCH_APPEND, R412: A LAUNCH request reaches the serving dispatcher, which appends the record or refuses. -/
def execLaunchAppend (s : State) : Out :=
  onEvent s fun e s => match e with
    | .launchAppend a => some (evLaunchAppend s a)
    | _ => none

/-- COHORT_INDEX_REQUEST, R408: A span die with a free core requests an index from the strip leader. -/
def execCohortIndexRequest (s : State) : Out :=
  onEvent s fun e s => match e with
    | .cohortIndexRequest a b c => some (evCohortIndexRequest s a b c)
    | _ => none

/-- MIRROR_RECORD, R407: The mirror records a pending grant (c, t) and acknowledges. -/
def execMirrorRecord (s : State) : Out :=
  onEvent s fun e s => match e with
    | .mirrorRecord a b c d => some (evMirrorRecord s a b c d)
    | _ => none

/-- MIRROR_ACK, R407: The mirror's acknowledgement reaches the leader, which sends the grant. -/
def execMirrorAck (s : State) : Out :=
  onEvent s fun e s => match e with
    | .mirrorAck a b c d => some (evMirrorAck s a b c d)
    | _ => none

/-- COHORT_GRANT, R407: A grant of a cohort index reaches its target die. -/
def execCohortGrant (s : State) : Out :=
  onEvent s fun e s => match e with
    | .cohortGrant a b c d => some (evCohortGrant s a b c d)
    | _ => none

/-- POWER_HEADROOM_REPORT, R408: Every 10 µs a die reports its power headroom. -/
def execPowerHeadroomReport (s : State) : Out :=
  onEvent s fun e s => match e with
    | .powerHeadroomReport a => some (evPowerHeadroomReport s a)
    | _ => none

/-- CLASS3_STARVATION, R409: A class-3 launch with no placement for 100 µs requests pre-emption. -/
def execClass3Starvation (s : State) : Out :=
  onEvent s fun e s => match e with
    | .class3Starvation a => some (evClass3Starvation s a)
    | _ => none

/-- COHORT_END, R410: A cohort whose threads all exited is reclaimed and its span may close. -/
def execCohortEnd (s : State) : Out :=
  onEvent s fun e s => match e with
    | .cohortEnd a => some (evCohortEnd s a)
    | _ => none

/-- LAUNCH_COMPLETION, R410: Once every strip closed and engine work completed, STATUS, DONE and DONECNT are written. -/
def execLaunchCompletion (s : State) : Out :=
  onEvent s fun e s => match e with
    | .launchCompletion a => some (evLaunchCompletion s a)
    | _ => none

/-- HOST_MEMORY_WRITE, R417: A host posted write through BAR4 is performed at .sys. -/
def execHostMemoryWrite (s : State) : Out :=
  onEvent s fun e s => match e with
    | .hostMemoryWrite a b c => some (evHostMemoryWrite s a b c)
    | _ => none

/-- HOST_MEMORY_READ, R417: A host read through BAR4 returns after earlier posted writes are performed. -/
def execHostMemoryRead (s : State) : Out :=
  onEvent s fun e s => match e with
    | .hostMemoryRead a b c => some (evHostMemoryRead s a b c)
    | _ => none

/-- REGISTER_WRITE, R6: A write to a management register with no row of its own updates its fields by access code. -/
def execRegisterWrite (s : State) : Out :=
  onEvent s fun e s => match e with
    | .registerWrite a b c d e => some (evRegisterWrite s a b c d e)
    | _ => none

/-- POWER_ON, R421: Applied power starts the power phase. -/
def execPowerOn (s : State) : Out :=
  onEvent s fun e s => match e with
    | .powerOn a => some (evPowerOn s a)
    | _ => none

/-- POWER_PHASE_DONE, R421: Power stages and clocks are up and calibration begins. -/
def execPowerPhaseDone (s : State) : Out :=
  onEvent s fun e s => match e with
    | .powerPhaseDone a => some (evPowerPhaseDone s a)
    | _ => none

/-- CALIBRATION_DONE, R422: Calibration ends, marking failed dies, bridges and slots, and initialisation begins or the package fails. -/
def execCalibrationDone (s : State) : Out :=
  onEvent s fun e s => match e with
    | .calibrationDone a b => some (evCalibrationDone s a b)
    | _ => none

/-- INITIALISATION_DONE, R422: Memory is initialised, READY is set, $clk zeroed and start-up records raised. -/
def execInitialisationDone (s : State) : Out :=
  onEvent s fun e s => match e with
    | .initialisationDone a => some (evInitialisationDone s a)
    | _ => none

/-- HOST_CTL_RESET, R423: A write of 1 to RESET ends every context and restarts the package. -/
def execHostCtlReset (s : State) : Out :=
  onEvent s fun e s => match e with
    | .hostCtlReset a => some (evHostCtlReset s a)
    | _ => none

/-- LINK_RESET, R423: A function-level or hot reset of the host link restarts the package. -/
def execLinkReset (s : State) : Out :=
  onEvent s fun e s => match e with
    | .linkReset a => some (evHostCtlReset s a)
    | _ => none

/-- EVENT_RECORD_WRITE, R425: An awaiting event record is written to the host ring when there is room and EVQ_TAIL advances. -/
def execEventRecordWrite (s : State) : Out :=
  onEvent s fun e s => match e with
    | .eventRecordWrite a => some (evEventRecordWrite s a)
    | _ => none

/-- SCRUB_STEP, R427: The patrol scrubber reads the next line as a transaction and corrects or poisons it. -/
def execScrubStep (s : State) : Out :=
  onEvent s fun e s => match e with
    | .scrubStep a b => some (evPatrol s a b)
    | _ => none

/-- ERROR_WINDOW_EXPIRY, R428: At the end of each window every CNT returns to 0. -/
def execErrorWindowExpiry (s : State) : Out :=
  onEvent s fun e s => match e with
    | .errorWindowExpiry a => some (evErrorWindowExpiry s a)
    | _ => none

/-- LINE_DIAG_ADDR, R429: A write of a line address starts a diagnostic read at the home agent. -/
def execLineDiagAddr (s : State) : Out :=
  onEvent s fun e s => match e with
    | .lineDiagAddr a b => some (evLineDiagAddr s a b)
    | _ => none

/-- LINE_DIAG_COMPLETE, R430: The diagnostic read completes, filling LINE_DIAG_DATA and LINE_DIAG_CHECK and setting DONE. -/
def execLineDiagComplete (s : State) : Out :=
  onEvent s fun e s => match e with
    | .lineDiagComplete a => some (evLineDiagComplete s a)
    | _ => none

/-- THERMAL, R431: A die reaching 110 °C raises THERMAL. -/
def execThermal (s : State) : Out :=
  onEvent s fun e s => match e with
    | .thermal a b => some (evThermal s a b)
    | _ => none

/-- THERMAL_POWER_OFF, R431: One millisecond after THERMAL the module removes power. -/
def execThermalPowerOff (s : State) : Out :=
  onEvent s fun e s => match e with
    | .thermalPowerOff a => some (evThermalPowerOff s a)
    | _ => none

/-- CHUNK_SOURCE_READ_LANDING, R293: The source read of an engine chunk lands at the engine, after which its bytes are delivered, and a copy-out completes when all its chunks' reads have landed. -/
def execChunkSourceReadLanding (s : State) : Out :=
  onEvent s fun e s => match e with
    | .chunkSourceReadLanding a b => some (evChunkSourceReadLanding s a b)
    | _ => none

/-- HOME_AGENT_EVICTION, R237: The home die cache evicts a line it holds as home agent and writes the line with its authoritative metadata word back to HBM4E. -/
def execHomeAgentEviction (s : State) : Out :=
  onEvent s fun e s => match e with
    | .homeAgentEviction a => some (evHomeAgentEviction s a)
    | _ => none

/-- WEIGHT_LOAD_START, R310: A queued WLD starts in the weight loader once the loader is idle and every earlier WSWP has taken effect. -/
def execWeightLoadStart (s : State) : Out :=
  onEvent s fun e s => match e with
    | .weightLoadStart a => some (evWeightLoadStart s a)
    | _ => none

/-- ATCI_REMOVAL, R384: An ATCI request reaches a die of its scope, whose TLBs and translation cache remove the named translations and whose home agents bring the named lines to HOME, and the die answers. -/
def execAtciRemoval (s : State) : Out :=
  onEvent s fun e s => match e with
    | .atciRemoval a b => some (evAtciRemoval s a b)
    | _ => none

end Sys2Proof.Machine
end

