-- ==== Sys2Proof/Machine/Exchange.lean ====
section
/-! DEFINITION. The exchange instructions and XLANE, opcodes 0x70 to 0x78 (spec/08, R175 to R183). An exchange acts on
its whole pass in the pass's first clk; the result of the j-th thread is readable by Table 4-1. -/

namespace Sys2Proof.Machine

/-- The operands of a thread for an instruction that names no queue port and sets no FE bit (R176). -/
def opnds (s : State) (x : Ins) (t : Nat) : Nat × Nat × Nat :=
  match gather s x t with
  | .vals v => (v.a, v.b, v.c)
  | _ => (0, 0, 0)

/-- The identity of a thread whose source is not in the pass (R178). -/
def identity (x : Ins) (c : Nat) : Nat :=
  match x.width with
  | 1 => c
  | 2 => x.lit.toNat % 2 ^ 32
  | _ => 0

/-- Writes the results of the threads of a pass, each as `f` gives it from its position in the pass. -/
def putPass (x : Ins) (n : Nat) (f : Nat → Nat) (ps : List Nat) (s : State) : State :=
  (ps.zipIdx).foldl (fun s p => s.setGs p.1 x.f.d.toNat (f p.1) (s.clk + p.2 + 6) n) s

/-- An exchange that gives each thread A of another slot of the pass, or its identity (R179). `src` names the slot. -/
def exchange (src : Ins → Nat → Nat → Option Nat) (x : Ins) (s : State) : Out :=
  perSubrun x id noEnd (fun ps s =>
    let val (t : Nat) : Nat :=
      let o := opnds s x t
      match src x (t % 32) o.2.1 with
      | some k => match ps.find? fun u => u % 32 = k with
        | some u => (opnds s x u).1
        | none => identity x o.2.2
      | none => identity x o.2.2
    .ok (putPass x 1 val ps s)) s

/-- The source slot of XCH (R179): k slots below, around the warp unless .nw. -/
def xchSrc (x : Ins) (slot _b : Nat) : Option Nat :=
  let k := x.ifld 0 5
  if k ≤ slot then some (slot - k) else if x.mb 5 then none else some (slot + 32 - k)
/-- The source slot of XIDX (R179). -/
def xidxSrc (x : Ins) (_slot b : Nat) : Option Nat := some (if x.mb 5 then x.ifld 0 5 else b % 32)
/-- The source slot of BCST (R179). -/
def bcstSrc (x : Ins) (_slot _b : Nat) : Option Nat := some (x.ifld 0 5)

/-- One step of SCAN and REDW (R180): op 0 .add, 1 .min, 2 .max, 3 .and, 4 .or, 5 .xor. -/
def combine (op : Nat) (t : BitVec 4) (a b : Nat) : Nat × Word :=
  let e (v : Nat) : Int := elemInt (signedT t) 32 v
  match op with
  | 0 => if t = 4 then faddBits fmtF32 0 false a b else ((a + b) % 2 ^ 32, 0)
  | 1 => if t = 4 then fminmaxBits fmtF32 false false a b else (if e a ≤ e b then a else b, 0)
  | 2 => if t = 4 then fminmaxBits fmtF32 true false a b else (if e b ≤ e a then a else b, 0)
  | 3 => (a &&& b, 0)
  | 4 => (a ||| b, 0)
  | _ => (a ^^^ b, 0)

/-- A result of SCAN or REDW: a NaN is canonical (R133, R180). -/
def canonF (t : BitVec 4) (v : Nat) : Nat := if t = 4 && (fdec fmtF32 v).isNan then fmtF32.nan else v

/-- The identities of Table 8-4. -/
def scanIdentity (op : Nat) (t : BitVec 4) : Nat :=
  match op with
  | 0 => if t = 4 then 0x80000000 else 0
  | 1 => if t = 4 then 0x7F800000 else if t = 0 then 0x7FFFFFFF else 0xFFFFFFFF
  | 2 => if t = 4 then 0xFF800000 else if t = 0 then 0x80000000 else 0
  | 3 => 0xFFFFFFFF
  | _ => 0

/-- The combination of a list of values in order, with the flags of its steps (R180). -/
def combineAll (op : Nat) (t : BitVec 4) : List Nat → Nat × Word
  | [] => (scanIdentity op t, 0)
  | v :: r => r.foldl (fun acc u => let q := combine op t acc.1 u; (q.1, acc.2 ||| q.2)) (v, 0)

/-- SCAN (R180): each thread combines the slots of the pass at or below its own, or below it under .excl. -/
def scan (x : Ins) (s : State) : Out :=
  perSubrun x id noEnd (fun ps s =>
    let upTo (t : Nat) : Nat × Word :=
      combineAll x.order x.f.t ((ps.filter fun u => if x.mb 3 then u < t else u ≤ t).map fun u => (opnds s x u).1)
    let s' := putPass x 1 (fun t => canonF x.f.t (upTo t).1) ps s
    .ok ((ps.zipIdx).foldl (fun a p => putFlags a x p.1 (upTo p.1).2 (s.clk + p.2 + 6)) s')) s

/-- REDW (R180): the combination over the pass, to a w register. -/
def redw (x : Ins) (s : State) : Out :=
  perSubrun x id noEnd (fun ps s =>
    let (v, fl) := combineAll x.order x.f.t (ps.map fun u => (opnds s x u).1)
    let rdy := s.clk + ps.length + 5
    let s := s.setW (ps.headD 0 / 32) x.f.d.toNat (BitVec.ofNat 32 (canonF x.f.t v)) rdy
    .ok (ps.foldl (fun s t => putFlags s x t fl rdy) s)) s

/-- The rank of a value in REDWX (R181): −0 below +0, a NaN last for .min and first for .max. -/
def redwxKey (t : BitVec 4) (isMax : Bool) (v : Nat) : Int :=
  if t = 4 then
    if (fdec fmtF32 v).isNan then (if isMax then -(2 ^ 40) else 2 ^ 40)
    else if v.testBit 31 then -((v % 2 ^ 31 : Nat) : Int) - 1 else (v : Int)
  else elemInt (signedT t) 32 v

/-- The winner among pairs in order of preference (R181). -/
def redwxBest (t : BitVec 4) (isMax : Bool) : List (Nat × Nat) → Nat × Nat
  | [] => (0, 0)
  | p :: r => r.foldl (fun best q =>
      let kb := redwxKey t isMax best.1
      let kq := redwxKey t isMax q.1
      if (if isMax then kb < kq else kq < kb) then q else best) p

/-- REDWX (R181). -/
def redwx (x : Ins) (s : State) : Out :=
  perSubrun x id noEnd (fun ps s =>
    let isMax := x.mb 0
    let inPass := ps.map fun t => let o := opnds s x t; (o.1, if x.mb 7 then t % 32 else o.2.1)
    let out := if ps.length < 32 then [(scanIdentity (if isMax then 2 else 1) x.f.t, 0xFFFFFFFF)] else []
    let (v, i) := redwxBest x.f.t isMax (inPass ++ out)
    let nv := flagIf (x.f.t = 4 && inPass.any fun p => (fdec fmtF32 p.1).isSig) flagNV
    let rdy := s.clk + ps.length + 5
    let s := s.setWs (ps.headD 0 / 32) x.f.d.toNat (canonF x.f.t v + i * 2 ^ 32) rdy 2
    .ok (ps.foldl (fun s t => putFlags s x t nv rdy) s)) s

/-- MATCH (R182). -/
def matchEq (x : Ins) (s : State) : Out :=
  perSubrun x id noEnd (fun ps s =>
    let val (t : Nat) : Nat :=
      (slotsMask ((ps.filter fun u => (opnds s x u).1 = (opnds s x t).1).map (· % 32))).toNat
    .ok (putPass x 1 val ps s)) s

/-- VOTE (R182): M 1:0 is 0 .any, 1 .all, 2 .ballot. -/
def vote (x : Ins) (s : State) : Out :=
  perSubrun x id noEnd (fun ps s =>
    let yes := ps.filter fun t => s.pred t x.f.a.toNat
    match x.f.m.toNat with
    | 2 => .ok (putPass x 1 (fun _ => (slotsMask (yes.map (· % 32))).toNat) ps s)
    | k =>
      let r := if k = 0 then !yes.isEmpty else decide (yes.length = ps.length)
      .ok ((ps.zipIdx).foldl (fun s p => s.setP p.1 x.f.d.toNat r (s.clk + p.2 + 6)) s)) s

/-- The partner warp of XLANE (R183), where the cohort holds it. -/
def xlanePartner (s : State) (x : Ins) (w : Nat) : Option Nat :=
  let l := w % 32
  let k := x.ifld 0 5
  let l' := if x.mb 1 then (l + k) % 32 else l ^^^ k
  let v := w - l + l'
  if v % 512 < s.warpCount (coreOfWarp w) then some v else none

/-- XLANE (R183): a register of the same slot of the partner warp, or under .w its w register once for the sub-run. -/
def xlane (x : Ins) (s : State) : Out :=
  if x.mb 0 then
    perSubrun x id noEnd (fun ps s =>
      let t := ps.headD 0
      let v := match xlanePartner s x (t / 32) with
        | some p => (s.wseen p x.f.a.toNat s.clk).toNat
        | none => identity x (opnds s x t).2.2
      .ok (s.setW (t / 32) x.f.d.toNat (BitVec.ofNat 32 v) (s.rdy 1))) s
  else
    perThread x 1 noEnd (fun t s =>
      let v := match xlanePartner s x (t / 32) with
        | some p => ((s.greg (threadOf p (t % 32)) x.f.a.toNat).seen s.clk).toNat
        | none => identity x (opnds s x t).2.2
      .ok (s.setG t x.f.d.toNat (BitVec.ofNat 32 v) (s.rdy 1))) s

/-- XCH, R179: Short-form exchange of A from slot s minus k within the pass. -/
def execXch (f : Short) (s : State) : Out := exchange xchSrc (Ins.ofBody .xch (.short f)) s

/-- XCH_LONG, R179: Long-form XCH with .nw or a register identity. -/
def execXchLong (f : Long) (s : State) : Out := exchange xchSrc (Ins.ofBody .xch (.long f)) s

/-- XCH_LONG_LIT, R179: Long form with a literal identity. -/
def execXchLongLit (f : Long) (l : Dword) (s : State) : Out := exchange xchSrc (Ins.ofBody .xch (.longLit f l)) s

/-- XIDX, R179: Short-form exchange of A from a slot named by B. -/
def execXidx (f : Short) (s : State) : Out := exchange xidxSrc (Ins.ofBody .xidx (.short f)) s

/-- XIDX_LIT, R179: XIDX with a literal source slot. -/
def execXidxLit (f : Short) (l : Dword) (s : State) : Out := exchange xidxSrc (Ins.ofBody .xidx (.lit f l)) s

/-- XIDX_LONG, R179: Long-form XIDX. -/
def execXidxLong (f : Long) (s : State) : Out := exchange xidxSrc (Ins.ofBody .xidx (.long f)) s

/-- XIDX_LONG_LIT, R179: Long-form XIDX with a literal identity. -/
def execXidxLongLit (f : Long) (l : Dword) (s : State) : Out := exchange xidxSrc (Ins.ofBody .xidx (.longLit f l)) s

/-- SCAN, R180: Short-form inclusive add scan over the pass. -/
def execScan (f : Short) (s : State) : Out := scan (Ins.ofBody .scan (.short f)) s

/-- SCAN_LONG, R180: Long-form scan with op, type or .excl. -/
def execScanLong (f : Long) (s : State) : Out := scan (Ins.ofBody .scan (.long f)) s

/-- REDW, R180: Short-form add reduction of the pass into a w register. -/
def execRedw (f : Short) (s : State) : Out := redw (Ins.ofBody .redw (.short f)) s

/-- REDW_LONG, R180: Long-form REDW with op and type. -/
def execRedwLong (f : Long) (s : State) : Out := redw (Ins.ofBody .redw (.long f)) s

/-- REDWX, R181: Finds the least or greatest value over all slots with its index into a w pair. -/
def execRedwx (f : Long) (s : State) : Out := redwx (Ins.ofBody .redwx (.long f)) s

/-- MATCH, R182: Short-form mask of pass slots holding an equal value. -/
def execMatchEq (f : Short) (s : State) : Out := matchEq (Ins.ofBody .matchEq (.short f)) s

/-- MATCH_LONG, R182: Long-form MATCH, including 64-bit values. -/
def execMatchEqLong (f : Long) (s : State) : Out := matchEq (Ins.ofBody .matchEq (.long f)) s

/-- VOTE, R182: Any, all or ballot of a predicate over the pass. -/
def execVote (f : Long) (s : State) : Out := vote (Ins.ofBody .vote (.long f)) s

/-- BCST, R179: Short-form broadcast of A from a constant slot. -/
def execBcst (f : Short) (s : State) : Out := exchange bcstSrc (Ins.ofBody .bcst (.short f)) s

/-- BCST_LONG, R179: Long-form BCST with a register identity. -/
def execBcstLong (f : Long) (s : State) : Out := exchange bcstSrc (Ins.ofBody .bcst (.long f)) s

/-- BCST_LONG_LIT, R179: Long-form BCST with a literal identity. -/
def execBcstLongLit (f : Long) (l : Dword) (s : State) : Out := exchange bcstSrc (Ins.ofBody .bcst (.longLit f l)) s

/-- XLANE, R183: Reads a register of the partner warp on another lane. -/
def execXlane (f : Long) (s : State) : Out := xlane (Ins.ofBody .xlane (.long f)) s

/-- XLANE_LIT, R183: XLANE with a literal identity in a long form with literal. -/
def execXlaneLit (f : Long) (l : Dword) (s : State) : Out := xlane (Ins.ofBody .xlane (.longLit f l)) s

end Sys2Proof.Machine
end

