-- ==== Sys2Proof/Machine/Dispatch.lean ====
section
/-! DEFINITION. The dispatch: one arm per instruction and event of the opcode table. -/

namespace Sys2Proof.Machine

def exec (i : Instr) (s : State) : Host.Outcome State Fault Refusal :=
  match i with
  | .nopLong f => Sys2Proof.Machine.execNopLong f s
  | .bra g off => Sys2Proof.Machine.execBra g off s
  | .braLong f => Sys2Proof.Machine.execBraLong f s
  | .brx f => Sys2Proof.Machine.execBrx f s
  | .call g off => Sys2Proof.Machine.execCall g off s
  | .callLong f => Sys2Proof.Machine.execCallLong f s
  | .callx f => Sys2Proof.Machine.execCallx f s
  | .ret f => Sys2Proof.Machine.execRet f s
  | .exit f => Sys2Proof.Machine.execExit f s
  | .trap f => Sys2Proof.Machine.execTrap f s
  | .bkpt f => Sys2Proof.Machine.execBkpt f s
  | .idemOpen f => Sys2Proof.Machine.execIdemOpen f s
  | .idemClose f => Sys2Proof.Machine.execIdemClose f s
  | .yield f => Sys2Proof.Machine.execYield f s
  | .sleep f => Sys2Proof.Machine.execSleep f s
  | .join f => Sys2Proof.Machine.execJoin f s
  | .leave f => Sys2Proof.Machine.execLeave f s
  | .waitm f => Sys2Proof.Machine.execWaitm f s
  | .mset f => Sys2Proof.Machine.execMset f s
  | .mget f => Sys2Proof.Machine.execMget f s
  | .sysc f => Sys2Proof.Machine.execSysc f s
  | .rtt f => Sys2Proof.Machine.execRtt f s
  | .mov f => Sys2Proof.Machine.execMov f s
  | .movLong f => Sys2Proof.Machine.execMovLong f s
  | .movi f => Sys2Proof.Machine.execMovi f s
  | .moviLit f lit => Sys2Proof.Machine.execMoviLit f lit s
  | .moviLong f => Sys2Proof.Machine.execMoviLong f s
  | .moviLongLit f lit => Sys2Proof.Machine.execMoviLongLit f lit s
  | .movx f => Sys2Proof.Machine.execMovx f s
  | .movxLong f => Sys2Proof.Machine.execMovxLong f s
  | .movxw f => Sys2Proof.Machine.execMovxw f s
  | .movxwLit f lit => Sys2Proof.Machine.execMovxwLit f lit s
  | .movxwLong f => Sys2Proof.Machine.execMovxwLong f s
  | .sel f => Sys2Proof.Machine.execSel f s
  | .movs f => Sys2Proof.Machine.execMovs f s
  | .sets f => Sys2Proof.Machine.execSets f s
  | .fetest f => Sys2Proof.Machine.execFetest f s
  | .feset f => Sys2Proof.Machine.execFeset f s
  | .plop f => Sys2Proof.Machine.execPlop f s
  | .slotr f => Sys2Proof.Machine.execSlotr f s
  | .slotw f => Sys2Proof.Machine.execSlotw f s
  | .add f => Sys2Proof.Machine.execAdd f s
  | .addLit f lit => Sys2Proof.Machine.execAddLit f lit s
  | .addLong f => Sys2Proof.Machine.execAddLong f s
  | .sub f => Sys2Proof.Machine.execSub f s
  | .subLit f lit => Sys2Proof.Machine.execSubLit f lit s
  | .subLong f => Sys2Proof.Machine.execSubLong f s
  | .addc f => Sys2Proof.Machine.execAddc f s
  | .subc f => Sys2Proof.Machine.execSubc f s
  | .mul f => Sys2Proof.Machine.execMul f s
  | .mulLit f lit => Sys2Proof.Machine.execMulLit f lit s
  | .mulLong f => Sys2Proof.Machine.execMulLong f s
  | .mulh f => Sys2Proof.Machine.execMulh f s
  | .mulhLit f lit => Sys2Proof.Machine.execMulhLit f lit s
  | .mulhLong f => Sys2Proof.Machine.execMulhLong f s
  | .mulw f => Sys2Proof.Machine.execMulw f s
  | .mulwLit f lit => Sys2Proof.Machine.execMulwLit f lit s
  | .mulwLong f => Sys2Proof.Machine.execMulwLong f s
  | .mad f => Sys2Proof.Machine.execMad f s
  | .madLit f lit => Sys2Proof.Machine.execMadLit f lit s
  | .madLong f => Sys2Proof.Machine.execMadLong f s
  | .madw f => Sys2Proof.Machine.execMadw f s
  | .madwLit f lit => Sys2Proof.Machine.execMadwLit f lit s
  | .madwLong f => Sys2Proof.Machine.execMadwLong f s
  | .div f => Sys2Proof.Machine.execDiv f s
  | .divLit f lit => Sys2Proof.Machine.execDivLit f lit s
  | .divLong f => Sys2Proof.Machine.execDivLong f s
  | .rem f => Sys2Proof.Machine.execRem f s
  | .remLit f lit => Sys2Proof.Machine.execRemLit f lit s
  | .remLong f => Sys2Proof.Machine.execRemLong f s
  | .min f => Sys2Proof.Machine.execMin f s
  | .minLit f lit => Sys2Proof.Machine.execMinLit f lit s
  | .minLong f => Sys2Proof.Machine.execMinLong f s
  | .max f => Sys2Proof.Machine.execMax f s
  | .maxLit f lit => Sys2Proof.Machine.execMaxLit f lit s
  | .maxLong f => Sys2Proof.Machine.execMaxLong f s
  | .abs f => Sys2Proof.Machine.execAbs f s
  | .absLong f => Sys2Proof.Machine.execAbsLong f s
  | .neg f => Sys2Proof.Machine.execNeg f s
  | .negLong f => Sys2Proof.Machine.execNegLong f s
  | .lea f => Sys2Proof.Machine.execLea f s
  | .and f => Sys2Proof.Machine.execAnd f s
  | .andLit f lit => Sys2Proof.Machine.execAndLit f lit s
  | .andLong f => Sys2Proof.Machine.execAndLong f s
  | .or f => Sys2Proof.Machine.execOr f s
  | .orLit f lit => Sys2Proof.Machine.execOrLit f lit s
  | .orLong f => Sys2Proof.Machine.execOrLong f s
  | .xor f => Sys2Proof.Machine.execXor f s
  | .xorLit f lit => Sys2Proof.Machine.execXorLit f lit s
  | .xorLong f => Sys2Proof.Machine.execXorLong f s
  | .andn f => Sys2Proof.Machine.execAndn f s
  | .andnLit f lit => Sys2Proof.Machine.execAndnLit f lit s
  | .andnLong f => Sys2Proof.Machine.execAndnLong f s
  | .not f => Sys2Proof.Machine.execNot f s
  | .notLong f => Sys2Proof.Machine.execNotLong f s
  | .shl f => Sys2Proof.Machine.execShl f s
  | .shlLit f lit => Sys2Proof.Machine.execShlLit f lit s
  | .shlLong f => Sys2Proof.Machine.execShlLong f s
  | .shr f => Sys2Proof.Machine.execShr f s
  | .shrLit f lit => Sys2Proof.Machine.execShrLit f lit s
  | .shrLong f => Sys2Proof.Machine.execShrLong f s
  | .sra f => Sys2Proof.Machine.execSra f s
  | .sraLit f lit => Sys2Proof.Machine.execSraLit f lit s
  | .sraLong f => Sys2Proof.Machine.execSraLong f s
  | .rotl f => Sys2Proof.Machine.execRotl f s
  | .rotlLit f lit => Sys2Proof.Machine.execRotlLit f lit s
  | .rotlLong f => Sys2Proof.Machine.execRotlLong f s
  | .popc f => Sys2Proof.Machine.execPopc f s
  | .popcLong f => Sys2Proof.Machine.execPopcLong f s
  | .clz f => Sys2Proof.Machine.execClz f s
  | .clzLong f => Sys2Proof.Machine.execClzLong f s
  | .ctz f => Sys2Proof.Machine.execCtz f s
  | .ctzLong f => Sys2Proof.Machine.execCtzLong f s
  | .brev f => Sys2Proof.Machine.execBrev f s
  | .brevLong f => Sys2Proof.Machine.execBrevLong f s
  | .bfx f => Sys2Proof.Machine.execBfx f s
  | .bfi f => Sys2Proof.Machine.execBfi f s
  | .cmp f => Sys2Proof.Machine.execCmp f s
  | .sext f => Sys2Proof.Machine.execSext f s
  | .permb f => Sys2Proof.Machine.execPermb f s
  | .dp4 f => Sys2Proof.Machine.execDp4 f s
  | .dp4Lit f lit => Sys2Proof.Machine.execDp4Lit f lit s
  | .dp4Long f => Sys2Proof.Machine.execDp4Long f s
  | .fadd f => Sys2Proof.Machine.execFadd f s
  | .faddLit f lit => Sys2Proof.Machine.execFaddLit f lit s
  | .faddLong f => Sys2Proof.Machine.execFaddLong f s
  | .fsub f => Sys2Proof.Machine.execFsub f s
  | .fsubLit f lit => Sys2Proof.Machine.execFsubLit f lit s
  | .fsubLong f => Sys2Proof.Machine.execFsubLong f s
  | .fmul f => Sys2Proof.Machine.execFmul f s
  | .fmulLit f lit => Sys2Proof.Machine.execFmulLit f lit s
  | .fmulLong f => Sys2Proof.Machine.execFmulLong f s
  | .ffma f => Sys2Proof.Machine.execFfma f s
  | .ffmaLit f lit => Sys2Proof.Machine.execFfmaLit f lit s
  | .ffmaLong f => Sys2Proof.Machine.execFfmaLong f s
  | .fmin f => Sys2Proof.Machine.execFmin f s
  | .fminLit f lit => Sys2Proof.Machine.execFminLit f lit s
  | .fminLong f => Sys2Proof.Machine.execFminLong f s
  | .fmax f => Sys2Proof.Machine.execFmax f s
  | .fmaxLit f lit => Sys2Proof.Machine.execFmaxLit f lit s
  | .fmaxLong f => Sys2Proof.Machine.execFmaxLong f s
  | .fabs f => Sys2Proof.Machine.execFabs f s
  | .fneg f => Sys2Proof.Machine.execFneg f s
  | .fcmp f => Sys2Proof.Machine.execFcmp f s
  | .fclass f => Sys2Proof.Machine.execFclass f s
  | .fdiv f => Sys2Proof.Machine.execFdiv f s
  | .fsqrt f => Sys2Proof.Machine.execFsqrt f s
  | .frcp f => Sys2Proof.Machine.execFrcp f s
  | .frsq f => Sys2Proof.Machine.execFrsq f s
  | .fexp2 f => Sys2Proof.Machine.execFexp2 f s
  | .flog2 f => Sys2Proof.Machine.execFlog2 f s
  | .fsin f => Sys2Proof.Machine.execFsin f s
  | .fcos f => Sys2Proof.Machine.execFcos f s
  | .frnd f => Sys2Proof.Machine.execFrnd f s
  | .fcvt f => Sys2Proof.Machine.execFcvt f s
  | .fcvti f => Sys2Proof.Machine.execFcvti f s
  | .icvtf f => Sys2Proof.Machine.execIcvtf f s
  | .fsgn f => Sys2Proof.Machine.execFsgn f s
  | .fscl f => Sys2Proof.Machine.execFscl f s
  | .pack8 f => Sys2Proof.Machine.execPack8 f s
  | .unpk8 f => Sys2Proof.Machine.execUnpk8 f s
  | .lqd f => Sys2Proof.Machine.execLqd f s
  | .fdot2 f => Sys2Proof.Machine.execFdot2 f s
  | .xch f => Sys2Proof.Machine.execXch f s
  | .xchLong f => Sys2Proof.Machine.execXchLong f s
  | .xchLongLit f lit => Sys2Proof.Machine.execXchLongLit f lit s
  | .xidx f => Sys2Proof.Machine.execXidx f s
  | .xidxLit f lit => Sys2Proof.Machine.execXidxLit f lit s
  | .xidxLong f => Sys2Proof.Machine.execXidxLong f s
  | .xidxLongLit f lit => Sys2Proof.Machine.execXidxLongLit f lit s
  | .scan f => Sys2Proof.Machine.execScan f s
  | .scanLong f => Sys2Proof.Machine.execScanLong f s
  | .redw f => Sys2Proof.Machine.execRedw f s
  | .redwLong f => Sys2Proof.Machine.execRedwLong f s
  | .redwx f => Sys2Proof.Machine.execRedwx f s
  | .matchEq f => Sys2Proof.Machine.execMatchEq f s
  | .matchEqLong f => Sys2Proof.Machine.execMatchEqLong f s
  | .vote f => Sys2Proof.Machine.execVote f s
  | .bcst f => Sys2Proof.Machine.execBcst f s
  | .bcstLong f => Sys2Proof.Machine.execBcstLong f s
  | .bcstLongLit f lit => Sys2Proof.Machine.execBcstLongLit f lit s
  | .xlane f => Sys2Proof.Machine.execXlane f s
  | .xlaneLit f lit => Sys2Proof.Machine.execXlaneLit f lit s
  | .ld f => Sys2Proof.Machine.execLd f s
  | .st f => Sys2Proof.Machine.execSt f s
  | .ldc f => Sys2Proof.Machine.execLdc f s
  | .pref f => Sys2Proof.Machine.execPref f s
  | .atom f => Sys2Proof.Machine.execAtom f s
  | .red f => Sys2Proof.Machine.execRed f s
  | .cas f => Sys2Proof.Machine.execCas f s
  | .fence f => Sys2Proof.Machine.execFence f s
  | .acc f => Sys2Proof.Machine.execAcc f s
  | .ldb f => Sys2Proof.Machine.execLdb f s
  | .rack f => Sys2Proof.Machine.execRack f s
  | .bufd f => Sys2Proof.Machine.execBufd f s
  | .bufs f => Sys2Proof.Machine.execBufs f s
  | .bufsQ f => Sys2Proof.Machine.execBufsQ f s
  | .buff f => Sys2Proof.Machine.execBuff f s
  | .putn f => Sys2Proof.Machine.execPutn f s
  | .getn f => Sys2Proof.Machine.execGetn f s
  | .mapq f => Sys2Proof.Machine.execMapq f s
  | .flsh f => Sys2Proof.Machine.execFlsh f s
  | .balloc f => Sys2Proof.Machine.execBalloc f s
  | .bfree f => Sys2Proof.Machine.execBfree f s
  | .barv f => Sys2Proof.Machine.execBarv f s
  | .bexp f => Sys2Proof.Machine.execBexp f s
  | .bwait f => Sys2Proof.Machine.execBwait f s
  | .btest f => Sys2Proof.Machine.execBtest f s
  | .csign f => Sys2Proof.Machine.execCsign f s
  | .waitc f => Sys2Proof.Machine.execWaitc f s
  | .cntr f => Sys2Proof.Machine.execCntr f s
  | .cpy f lit => Sys2Proof.Machine.execCpy f lit s
  | .gath f lit => Sys2Proof.Machine.execGath f lit s
  | .scat f lit => Sys2Proof.Machine.execScat f lit s
  | .cpyq f => Sys2Proof.Machine.execCpyq f s
  | .wld f => Sys2Proof.Machine.execWld f s
  | .wswp f => Sys2Proof.Machine.execWswp f s
  | .mma f => Sys2Proof.Machine.execMma f s
  | .mms f => Sys2Proof.Machine.execMms f s
  | .mmg f => Sys2Proof.Machine.execMmg f s
  | .accz f => Sys2Proof.Machine.execAccz f s
  | .accr f => Sys2Proof.Machine.execAccr f s
  | .accrSt f => Sys2Proof.Machine.execAccrSt f s
  | .accw f => Sys2Proof.Machine.execAccw f s
  | .accs f => Sys2Proof.Machine.execAccs f s
  | .mvb f lit => Sys2Proof.Machine.execMvb f lit s
  | .accm f => Sys2Proof.Machine.execAccm f s
  | .rgset f => Sys2Proof.Machine.execRgset f s
  | .rrs f => Sys2Proof.Machine.execRrs f s
  | .rag f => Sys2Proof.Machine.execRag f s
  | .rar f => Sys2Proof.Machine.execRar f s
  | .rbc f => Sys2Proof.Machine.execRbc f s
  | .rho f => Sys2Proof.Machine.execRho f s
  | .rhoRecv f => Sys2Proof.Machine.execRhoRecv f s
  | .rstat f => Sys2Proof.Machine.execRstat f s
  | .rstatGrp f => Sys2Proof.Machine.execRstatGrp f s
  | .launch f => Sys2Proof.Machine.execLaunch f s
  | .evnt f => Sys2Proof.Machine.execEvnt f s
  | .pmc f => Sys2Proof.Machine.execPmc f s
  | .atci f => Sys2Proof.Machine.execAtci f s
  | .ctxs f => Sys2Proof.Machine.execCtxs f s
  | .ctxr f => Sys2Proof.Machine.execCtxr f s
  | .halt f => Sys2Proof.Machine.execHalt f s
  | .ppt f => Sys2Proof.Machine.execPpt f s
  | .nop => Sys2Proof.Machine.execNop s
  | .runFormation => Sys2Proof.Machine.execRunFormation s
  | .warpSwap => Sys2Proof.Machine.execWarpSwap s
  | .pendingWarpPromotion => Sys2Proof.Machine.execPendingWarpPromotion s
  | .warpLeavesActiveSet => Sys2Proof.Machine.execWarpLeavesActiveSet s
  | .sleepExpiry => Sys2Proof.Machine.execSleepExpiry s
  | .producerLanding => Sys2Proof.Machine.execProducerLanding s
  | .trapEntry => Sys2Proof.Machine.execTrapEntry s
  | .handoffEntryArrival => Sys2Proof.Machine.execHandoffEntryArrival s
  | .cellarGroupService => Sys2Proof.Machine.execCellarGroupService s
  | .bufferStateChange => Sys2Proof.Machine.execBufferStateChange s
  | .atomicUnitApply => Sys2Proof.Machine.execAtomicUnitApply s
  | .l1SectorExpiry => Sys2Proof.Machine.execL1SectorExpiry s
  | .generationAdvance => Sys2Proof.Machine.execGenerationAdvance s
  | .rdcSweeperStep => Sys2Proof.Machine.execRdcSweeperStep s
  | .rd => Sys2Proof.Machine.execRd s
  | .own => Sys2Proof.Machine.execOwn s
  | .hrd => Sys2Proof.Machine.execHrd s
  | .hwr => Sys2Proof.Machine.execHwr s
  | .evx => Sys2Proof.Machine.execEvx s
  | .probe => Sys2Proof.Machine.execProbe s
  | .recallHolder => Sys2Proof.Machine.execRecall s
  | .invalidation => Sys2Proof.Machine.execInvalidation s
  | .holderAnswer => Sys2Proof.Machine.execHolderAnswer s
  | .ownershipGrant => Sys2Proof.Machine.execOwnershipGrant s
  | .dieCacheEviction => Sys2Proof.Machine.execDieCacheEviction s
  | .proxyEviction => Sys2Proof.Machine.execProxyEviction s
  | .linkWakeComplete => Sys2Proof.Machine.execLinkWakeComplete s
  | .linkWakeError => Sys2Proof.Machine.execLinkWakeError s
  | .heartbeat => Sys2Proof.Machine.execHeartbeat s
  | .dieDead => Sys2Proof.Machine.execDieDead s
  | .caskOpenRequest => Sys2Proof.Machine.execCaskOpenRequest s
  | .caskGrant => Sys2Proof.Machine.execCaskGrant s
  | .drainArrival => Sys2Proof.Machine.execDrainArrival s
  | .racking => Sys2Proof.Machine.execRacking s
  | .resplitShare => Sys2Proof.Machine.execResplitShare s
  | .resplitAck => Sys2Proof.Machine.execResplitAck s
  | .ldbTransaction => Sys2Proof.Machine.execLdbTransaction s
  | .rackTransaction => Sys2Proof.Machine.execRackTransaction s
  | .regionRecordWrite => Sys2Proof.Machine.execRegionRecordWrite s
  | .barrierMessage => Sys2Proof.Machine.execBarrierMessage s
  | .barrierReply => Sys2Proof.Machine.execBarrierReply s
  | .roundFire => Sys2Proof.Machine.execRoundFire s
  | .engineRetirement => Sys2Proof.Machine.execEngineRetirement s
  | .operationEnqueue => Sys2Proof.Machine.execOperationEnqueue s
  | .chunkDispatch => Sys2Proof.Machine.execChunkDispatch s
  | .chunkComplete => Sys2Proof.Machine.execChunkComplete s
  | .deliverAtHome => Sys2Proof.Machine.execDeliverAtHome s
  | .weightLoadComplete => Sys2Proof.Machine.execWeightLoadComplete s
  | .wswpTakesEffect => Sys2Proof.Machine.execWswpTakesEffect s
  | .arrayOperationStart => Sys2Proof.Machine.execArrayOperationStart s
  | .arrayOperationRetire => Sys2Proof.Machine.execArrayOperationRetire s
  | .tileUnitComplete => Sys2Proof.Machine.execTileUnitComplete s
  | .accsAddOnStore => Sys2Proof.Machine.execAccsAddOnStore s
  | .pressOperation => Sys2Proof.Machine.execPressOperation s
  | .ringStepSend => Sys2Proof.Machine.execRingStepSend s
  | .ringStepArrival => Sys2Proof.Machine.execRingStepArrival s
  | .ringStepAck => Sys2Proof.Machine.execRingStepAck s
  | .stepResendNotice => Sys2Proof.Machine.execStepResendNotice s
  | .bridgeFlit => Sys2Proof.Machine.execBridgeFlit s
  | .bridgeCrcFailure => Sys2Proof.Machine.execBridgeCrcFailure s
  | .errcntWindowExpiry => Sys2Proof.Machine.execErrcntWindowExpiry s
  | .bridgeDeclaredFailed => Sys2Proof.Machine.execBridgeDeclaredFailed s
  | .ringWrapComplete => Sys2Proof.Machine.execRingWrapComplete s
  | .directionIdle => Sys2Proof.Machine.execDirectionIdle s
  | .directionSleep => Sys2Proof.Machine.execDirectionSleep s
  | .data => Sys2Proof.Machine.execData s
  | .idle => Sys2Proof.Machine.execIdle s
  | .replay => Sys2Proof.Machine.execReplay s
  | .restripe => Sys2Proof.Machine.execRestripe s
  | .drainReq => Sys2Proof.Machine.execDrainReq s
  | .drainDone => Sys2Proof.Machine.execDrainDone s
  | .relock => Sys2Proof.Machine.execRelock s
  | .idleFlitTimer => Sys2Proof.Machine.execIdleFlitTimer s
  | .replayRepeatTimer => Sys2Proof.Machine.execReplayRepeatTimer s
  | .lossOfLight => Sys2Proof.Machine.execLossOfLight s
  | .laserSourceFailure => Sys2Proof.Machine.execLaserSourceFailure s
  | .slotLightRegained => Sys2Proof.Machine.execSlotLightRegained s
  | .linkDown => Sys2Proof.Machine.execLinkDown s
  | .linkUp => Sys2Proof.Machine.execLinkUp s
  | .replanGo => Sys2Proof.Machine.execReplanGo s
  | .replanDrainComplete => Sys2Proof.Machine.execReplanDrainComplete s
  | .drainMaxExpiry => Sys2Proof.Machine.execDrainMaxExpiry s
  | .selectorsLocked => Sys2Proof.Machine.execSelectorsLocked s
  | .replanResume => Sys2Proof.Machine.execReplanResume s
  | .remoteAccessFailure => Sys2Proof.Machine.execRemoteAccessFailure s
  | .putnFlagIncrement => Sys2Proof.Machine.execPutnFlagIncrement s
  | .pageWalk => Sys2Proof.Machine.execPageWalk s
  | .translationCacheLookup => Sys2Proof.Machine.execTranslationCacheLookup s
  | .preemptionRequest => Sys2Proof.Machine.execPreemptionRequest s
  | .prewaitTimeout => Sys2Proof.Machine.execPrewaitTimeout s
  | .saveAreaWrite => Sys2Proof.Machine.execSaveAreaWrite s
  | .remoteReply => Sys2Proof.Machine.execRemoteReply s
  | .lqDoor => Sys2Proof.Machine.execLqDoor s
  | .tailPoll => Sys2Proof.Machine.execTailPoll s
  | .launchAppend => Sys2Proof.Machine.execLaunchAppend s
  | .cohortIndexRequest => Sys2Proof.Machine.execCohortIndexRequest s
  | .mirrorRecord => Sys2Proof.Machine.execMirrorRecord s
  | .mirrorAck => Sys2Proof.Machine.execMirrorAck s
  | .cohortGrant => Sys2Proof.Machine.execCohortGrant s
  | .powerHeadroomReport => Sys2Proof.Machine.execPowerHeadroomReport s
  | .class3Starvation => Sys2Proof.Machine.execClass3Starvation s
  | .cohortEnd => Sys2Proof.Machine.execCohortEnd s
  | .launchCompletion => Sys2Proof.Machine.execLaunchCompletion s
  | .hostMemoryWrite => Sys2Proof.Machine.execHostMemoryWrite s
  | .hostMemoryRead => Sys2Proof.Machine.execHostMemoryRead s
  | .registerWrite => Sys2Proof.Machine.execRegisterWrite s
  | .powerOn => Sys2Proof.Machine.execPowerOn s
  | .powerPhaseDone => Sys2Proof.Machine.execPowerPhaseDone s
  | .calibrationDone => Sys2Proof.Machine.execCalibrationDone s
  | .initialisationDone => Sys2Proof.Machine.execInitialisationDone s
  | .hostCtlReset => Sys2Proof.Machine.execHostCtlReset s
  | .linkReset => Sys2Proof.Machine.execLinkReset s
  | .eventRecordWrite => Sys2Proof.Machine.execEventRecordWrite s
  | .scrubStep => Sys2Proof.Machine.execScrubStep s
  | .errorWindowExpiry => Sys2Proof.Machine.execErrorWindowExpiry s
  | .lineDiagAddr => Sys2Proof.Machine.execLineDiagAddr s
  | .lineDiagComplete => Sys2Proof.Machine.execLineDiagComplete s
  | .thermal => Sys2Proof.Machine.execThermal s
  | .thermalPowerOff => Sys2Proof.Machine.execThermalPowerOff s
  | .chunkSourceReadLanding => Sys2Proof.Machine.execChunkSourceReadLanding s
  | .homeAgentEviction => Sys2Proof.Machine.execHomeAgentEviction s
  | .weightLoadStart => Sys2Proof.Machine.execWeightLoadStart s
  | .atciRemoval => Sys2Proof.Machine.execAtciRemoval s

end Sys2Proof.Machine
end

