-- ==== Sys2Proof/Machine/Step.lean ====
section
/-! DEFINITION. One step of the machine: waits that have ended end, then the earliest thing that is due happens: a happening of the
agenda, a change of an active set, a run that forms, the next thread of a run, the test of the barrier objects at the end of the clk, or
the passing of time. What the parts mean stands in the files of the instructions and in Machine/Sched.lean; notes/assumptions/1.md and
14.md give the order inside a clk. -/

namespace Sys2Proof.Machine

/-- What a step does next. -/
inductive Pick where
  | happen (e : Ev)
  | slice (lane : Nat)
  | settle
  | pass (till : Nat)
  deriving DecidableEq, Repr

/-- The first happening that starts an unpowered package (R421). -/
def startUp (s : State) : Option Ev := (s.domain.find? fun p => !(s.pkg p).powered && !(s.pkg p).thermal).map .powerOn

/-- What comes after every happening of the clk: active sets, new runs, threads, then barrier objects, then the next clk. -/
def pickRest (s : State) : Pick :=
  match pickActive s with
  | some e => .happen e
  | none => match pickFormation s with
    | some l => .happen (.runFormation l)
    | none => match pickSlice s with
      | some l => .slice l
      | none =>
        if !(dirtyBars s).isEmpty then .settle
        else match startUp s with
          | some e => .happen e
          | none => .pass (nextClk s)

/-- What a step does next: the oldest happening that is due comes first. -/
def pick (s : State) : Pick :=
  match s.agenda with
  | (d, e) :: _ => if d ≤ s.clk then .happen e else pickRest s
  | [] => pickRest s

/-- The happening is off the agenda where it was its head, and stands for its row to act on. -/
def takeEvent (s : State) (e : Ev) : State :=
  { s with ev := some e, agenda := match s.agenda with
    | (d, x) :: r => if d ≤ s.clk ∧ x = e then r else s.agenda
    | [] => [] }

/-- A lane executes its run's instruction for the next thread, or takes the fault of its decoding (R47, R48). -/
def runSlice (s : State) (l : Nat) : Host.Outcome State Fault Refusal :=
  let s := { s with cur := l }
  match (s.lane l).run with
  | none => .next s
  | some r =>
    match fetchInstr s (coreOfLane l) r.pc (s.inHandler (r.threads.headD 0)) with
    | (.error f, s) => .next (decodeFault s r f)
    | (.ok i, s) => exec i s

/-- What a step does, once it is chosen. -/
def doPick (s : State) : Pick → Host.Outcome State Fault Refusal
  | .happen e => exec e.instr (takeEvent s e)
  | .slice l => runSlice s l
  | .settle => .next (settleBars s)
  | .pass n => .next (passTo s n)

/-- A step of a machine on which no happening stands: waits that have ended end, then one thing happens. -/
def stepOn (s : State) : Host.Outcome State Fault Refusal :=
  let s := wake s
  doPick s (pick s)

/-- One step. The happening of the step before stands no more. -/
def step (s : State) : Host.Outcome State Fault Refusal :=
  match s.ev with
  | none => stepOn s
  | some _ => stepOn { s with ev := none }

/-! ### Placing one instruction -/

/-- The address of the instruction that `withFetchWord` places, virtual and physical. -/
def fetchAt : Nat := 0x3000

/-- A page table of one page: 1 GiB of class T from address 0, at physical address 0, readable, writable and executable (R378). -/
def onePage (m : List Host.Cell) : List Host.Cell :=
  memWrite (memWrite m 0x1000 (leBytes 8 0x8000000000002000)) 0x2000 (leBytes 8 0xC700000000000000)

/-- The cohort of the placed instruction: all registers and tiles that a cohort of one warp may have. -/
def placedCohort : Cohort :=
  { ncohort := 1, nspan := 1, r := 240, tiles := 16, window := 0x10000000000, entry := BitVec.ofNat 64 fetchAt, ctx := { asid := 1, root := 0x1000 } }

/-- The machine with one thread about to execute the instruction of bits `w`: a cohort of one warp stands on core 0 of a ready package,
slots 1 to 31 have exited, and lane 0 has begun the run (notes/assumptions/4.md). -/
def State.withFetchWord (s : State) (nbits w : Nat) : State :=
  { s with
    clk := s.clk + 1, agenda := [], ev := none, reqs := [], ops := [], launches := []
    pkgs := [(0, { s.pkg 0 with powered := true, phase := 4, ready := true, ended := [] })]
    dies := [(0, { s.die 0 with ok := true, dead := false })]
    cores := [(0, { cohort := some { placedCohort with placed := s.clk } })]
    lanes := [(0, { active := [0], run := some { pc := BitVec.ofNat 64 fetchAt, threads := [0], clk := s.clk + 1, begun := s.clk + 1 } })]
    warps := [(0, {})]
    threads := (List.range 32).map fun k => (k, { pc := BitVec.ofNat 64 fetchAt, exited := decide (k ≠ 0) })
    mem := memWrite (onePage s.mem) fetchAt (leBytes 20 (w % 2 ^ nbits))
    metaw := [] }

end Sys2Proof.Machine
end

