-- ==== Sys2Proof/Safety.lean ====
section
/-! DEFINITION. What the claims about the machine are stated in: whose turn it is on a lane, what a step keeps, and states
whose memories are in canonical form. -/

namespace Sys2Proof.Machine

/-- The physical memory, the cellars and the host memory are in canonical form. -/
def State.MemOk (s : State) : Prop :=
  Memory.wf s.mem = true ∧ Memory.wf s.cellar = true ∧ Memory.wf s.host = true

/-- The current lane has begun a run, and thread `t` is the next one to execute its instruction `x`: it is active, its guard
is true, it stands once in the run, and no queue port has dropped the rest of the run (R32, R74, R77). -/
structure Turn (s : State) (x : Ins) (t : Nat) : Prop where
  run : ∃ r rest, (s.lane s.cur).run = some r ∧ r.threads = t :: rest ∧ r.ports = [] ∧ t ∉ rest
  alive : s.alive t = true
  guard : guardTrue s x t = true

/-- As `Turn`, where `t` is the only thread of the run and waits for nothing. -/
structure Alone (s : State) (x : Ins) (t : Nat) : Prop where
  run : ∃ r, (s.lane s.cur).run = some r ∧ r.threads = [t] ∧ r.ports = [] ∧ r.warp = t / 32 ∧ r.done = 0 ∧ r.count = 0 ∧
    r.ends = []
  alive : s.alive t = true
  guard : guardTrue s x t = true
  free : (s.thread t).hold = .none

/-- The current lane has begun a run of the threads `ps`, which are of one warp and all perform: one sub-run (R73, R78). -/
structure Whole (s : State) (x : Ins) (ps : List Nat) : Prop where
  run : ∃ r, (s.lane s.cur).run = some r ∧ r.threads = ps
  some : ps ≠ []
  once : ps.Nodup
  warp : ∀ u ∈ ps, u / 32 = ps.headD 0 / 32
  alive : ∀ u ∈ ps, s.alive u = true
  guard : ∀ u ∈ ps, guardTrue s x u = true

/-- The instruction answers a next state, and `post` holds of it. -/
def Runs (i : Instr) (s : State) (post : State → Prop) : Prop :=
  ∃ s', exec i s = .next s' ∧ post s'

/-- The row of the happening `e` answers a next state, and `post` holds of it. -/
def Happens (i : Instr) (e : Ev) (s : State) (post : State → Prop) : Prop :=
  s.ev = some e → Runs i s post

/-- What `s'` keeps of `s`: every g register but those of `G`, predicate but those of `P`, $fstat but of the threads of
`F`, w register but those of `W`; which threads have exited; the masks, the trap registers and all else of a warp; every
queue, barrier object, tile and all else of a core but its performance counters; memory, the agenda and everything
outside the threads, the warps, the lanes and the cores. A program counter, a wait and a ready time may change. -/
structure Kept (s s' : State) (G P : Nat → Nat → Prop) (F : Nat → Prop) (W : Nat → Nat → Prop) : Prop where
  greg : ∀ u r, ¬ G u r → s'.greg u r = s.greg u r
  pred : ∀ u k, ¬ P u k → s'.pred u k = s.pred u k
  fstat : ∀ u, ¬ F u → (s'.thread u).fstat = (s.thread u).fstat
  exited : ∀ u, (s'.thread u).exited = (s.thread u).exited
  wreg : ∀ w r, ¬ W w r → s'.wreg w r = s.wreg w r
  warp : ∀ w, { s'.warp w with w := [], wrdy := [], wpast := [] } = { s.warp w with w := [], wrdy := [], wpast := [] }
  core : ∀ c, { s'.core c with pmc := [] } = { s.core c with pmc := [] }
  rest : { s' with threads := [], warps := [], lanes := [], cores := [] } = { s with threads := [], warps := [], lanes := [], cores := [] }

/-- No register. -/
def noReg : Nat → Nat → Prop := fun _ _ => False
/-- No thread. -/
def noThread : Nat → Prop := fun _ => False
/-- The `n` registers of thread (or warp) `t` from `d` on. -/
def regs (t d n : Nat) : Nat → Nat → Prop := fun u r => u = t ∧ d ≤ r ∧ r < d + n

/-- Nothing but program counters, waits and ready times of threads, the lanes and performance counters differs. -/
abbrev Same (s s' : State) : Prop := Kept s s' noReg noReg noThread noReg

/-- The instruction completes for thread `t`: its effect makes `s1` of the state, the thread advances by the instruction's
length, and nothing else differs (`Same`). -/
def Passes (i : Instr) (x : Ins) (t : Nat) (s s1 : State) : Prop :=
  Runs i s fun s' => Same s1 s' ∧ (s'.thread t).pc = (s1.thread t).pc + BitVec.ofNat 64 x.size ∧
    (s'.thread t).hold = (s1.thread t).hold

/-- The instruction completes for thread `t` with the state `s1`, in which the thread's program counter is already set or the
thread is held. -/
def Lands (i : Instr) (t : Nat) (s s1 : State) : Prop :=
  Runs i s fun s' => Same s1 s' ∧ (s'.thread t).pc = (s1.thread t).pc ∧ (s'.thread t).hold = (s1.thread t).hold

/-- The instruction completes once for the threads `ps` of a sub-run: its effect makes `s1` of the state, every thread
advances, and nothing else differs. -/
def PassesAll (i : Instr) (x : Ins) (ps : List Nat) (s s1 : State) : Prop :=
  Runs i s fun s' => Same s1 s' ∧
    ∀ u ∈ ps, (s'.thread u).pc = (s1.thread u).pc + BitVec.ofNat 64 x.size ∧ (s'.thread u).hold = (s1.thread u).hold

/-- The warp of thread `t` has trapped out of the run `r` (R91, R387): it runs the handler, the trap registers hold the cause,
the access code, the slot, the address, the program counter of the run and the slots that performed, the masks are saved and
cleared, every slot stands at the handler, and no g register and no byte of memory is changed. -/
structure Trapped (s s' : State) (r : Run) (t cause acc : Nat) (addr : Dword) : Prop where
  handler : ((s'.warp (t / 32)).handler.map Handler.cause) = some cause
  xcause : (s'.warp (t / 32)).xcause = BitVec.ofNat 32 (acc * 2 ^ 13 + t % 32 * 2 ^ 8 + cause)
  xaddr : (s'.warp (t / 32)).xaddr = addr
  xpc : (s'.warp (t / 32)).xpc = r.pc
  xdone : (s'.warp (t / 32)).xdone = if r.warp = t / 32 then r.done else 0
  xm : (s'.warp (t / 32)).xm = (s.warp (t / 32)).m
  m : (s'.warp (t / 32)).m = []
  slots : ∀ k < 32, (s'.thread (threadOf (t / 32) k)).pc = (s.cohort (coreOfWarp (t / 32))).ctx.handler ∧
    (s'.thread (threadOf (t / 32) k)).p = 0x80
  greg : ∀ u k, s'.greg u k = s.greg u k
  mem : s'.mem = s.mem
  cellar : s'.cellar = s.cellar

/-- The instruction traps for thread `t` after its reads have made `s1` of the state, in a warp that runs no handler and a context
that names one. -/
def TrapsOn (i : Instr) (t cause acc : Nat) (addr : Dword) (s s1 : State) : Prop :=
  (s1.warp (t / 32)).handler = none → (s1.cohort (coreOfWarp (t / 32))).ctx.handler ≠ 0 →
    Runs i s fun s' => ∃ r, (s.lane s.cur).run = some r ∧ Trapped s1 s' r t cause acc addr

/-- The instruction traps for thread `t`, in a warp that runs no handler and a context that names one. -/
def Traps (i : Instr) (t cause acc : Nat) (addr : Dword) (s : State) : Prop := TrapsOn i t cause acc addr s s

/-- The threads of the current lane's run that are of the warp of thread `t` and perform. -/
def subRun (s : State) (x : Ins) (t : Nat) : List Nat :=
  match (s.lane s.cur).run with
  | some r => (r.threads.filter fun u => u / 32 = t / 32).filter fun u => s.alive u && guardTrue s x u
  | none => []

/-- The sub-run of thread `t` has begun to issue, or has been given its copy slots (R285). -/
def Begun (s : State) (t : Nat) : Prop :=
  ∃ r, (s.lane s.cur).run = some r ∧ r.warp = t / 32 ∧ (r.done ≠ 0 ∨ r.slots ≠ 0)

/-- The hold of R285 on the sub-run of thread `t`, whose threads would issue operations of a class. -/
def subHold (s : State) (x : Ins) (t cls : Nat) : Option Hold := slotHold s (t / 32) cls (subRun s x t).length

/-- The whole sub-run of thread `t` is held before any of its threads performs, and nothing else differs (R285). -/
def HoldsAll (i : Instr) (x : Ins) (t : Nat) (h : Hold) (s : State) : Prop :=
  Runs i s fun s' => Same s s' ∧ ∀ u ∈ subRun s x t, (s'.thread u).pc = (s.thread u).pc ∧ (s'.thread u).hold = h

/-- The instruction, after its reads have made `s1` of the state, ends the context of a core on every package (R389). -/
def EndsContext (i : Instr) (core : Nat) (s s1 : State) : Prop :=
  Runs i s fun s' => ∀ k, s1.pkg k ≠ {} → ((s'.pkg k).ended.contains (s1.asidOf core)) = true

/-- The contents of mask `m` of warp `w` after the release check on the contents `new`: none where every member is held at the
mask (R173). -/
def checked (s : State) (w m : Nat) (new : Word) : Word :=
  if new ≠ 0 ∧ ∀ k ∈ maskSlots new, (s.thread (threadOf w k)).hold = .mask m then 0 else new

/-- What an instruction on masks leaves: every g and w register, memory, and of its thread's warp the other masks. -/
structure MaskOnly (s s' : State) (w : Nat) (ms : List Nat) : Prop where
  greg : ∀ u r, s'.greg u r = s.greg u r
  wreg : ∀ v r, s'.wreg v r = s.wreg v r
  mask : ∀ v m, (v ≠ w ∨ m ∉ ms) → s'.mask v m = s.mask v m
  mem : s'.mem = s.mem
  cellar : s'.cellar = s.cellar

/-- The short form `i` writes the word that `fn` makes of its registers A and B and of the old D to D, and changes nothing
else (R26, R27). -/
def ShortWord (i : Instr) (o : Opc) (f : Short) (fn : Word → Word → Word → Word) : Prop :=
  f.u = false → ∀ s t, Turn s (Ins.ofBody o (.short f)) t → Runs i s fun s' =>
    (s'.greg t f.d.toNat).v = fn (s.greg t f.a.toNat).v (s.greg t f.b.toNat).v (s.greg t f.d.toNat).v ∧
    (s'.greg t f.d.toNat).full = true ∧ (s'.thread t).pc = (s.thread t).pc + 4 ∧
    Kept s s' (regs t f.d.toNat 1) noReg noThread noReg

/-- A register pair of a thread, the odd register above the even one (R35). -/
def State.gpair (s : State) (t r : Nat) : Dword := (s.greg t (r + 1)).v ++ (s.greg t r).v

/-- The short form `i` writes the 64 bits that `fn` makes of its registers A and B and of the old pair D to the pair D, and
changes nothing else. -/
def ShortPair (i : Instr) (o : Opc) (f : Short) (fn : Word → Word → Dword → Dword) : Prop :=
  f.u = false → ∀ s t, Turn s (Ins.ofBody o (.short f)) t → Runs i s fun s' =>
    s'.gpair t f.d.toNat = fn (s.greg t f.a.toNat).v (s.greg t f.b.toNat).v (s.gpair t f.d.toNat) ∧
    (s'.thread t).pc = (s.thread t).pc + 4 ∧ Kept s s' (regs t f.d.toNat 2) noReg noThread noReg

/-- An engine operation `o` of a class has been issued for a thread or a sub-run (R223, R280): it is outstanding for the thread, the
warp's counter of the class has risen, it enters its queue in this clk unless it waits for earlier writes, and no register and no byte of
memory is changed. -/
structure Issued (s s1 : State) (t cls o : Nat) : Prop where
  thread : (s1.op o).thread = t
  ofClass : (s1.op o).cls = cls
  asid : (s1.op o).asid = s.asidOf (coreOfThread t)
  outstanding : (s1.op o).stage = 0
  enters : (s1.op o).after = [] → (s.clk, .operationEnqueue o) ∈ s1.agenda
  counter : counter s1 (t / 32) cls = counter s (t / 32) cls + 1
  greg : ∀ u r, s1.greg u r = s.greg u r
  mem : s1.mem = s.mem
  cellar : s1.cellar = s.cellar

/-- The kind of access that an instruction makes by the checks of R199 alone. -/
def accessKind : Instr → Option ReqKind
  | .ld _ => some .ld
  | .ldc _ => some .ldc
  | .st _ => some .st
  | .atom _ => some .atom
  | .red _ => some .red
  | .cas _ => some .cas
  | .ldb _ => some .ldb
  | _ => none

/-- The bytes of an access (R198, R203, R261). -/
def accessSize (k : ReqKind) (x : Ins) : Nat :=
  match k with
  | .ld | .ldc | .st => memSize x
  | .atom | .red | .cas => atomSize x
  | _ => 4

/-- The function that an instruction computes on its operands A, B and C, for the instructions of the integer, floating-point and
move chapters whose whole effect is a value, a predicate and exception flags. -/
def computes : Instr → Option (Ins → Nat → Nat → Nat → AluOut)
  | .add _ | .addLit _ _ | .addLong _ => some addFn
  | .sub _ | .subLit _ _ | .subLong _ => some subFn
  | .addc _ => some addcFn
  | .subc _ => some subcFn
  | .mul _ | .mulLit _ _ | .mulLong _ => some mulFn
  | .mulh _ | .mulhLit _ _ | .mulhLong _ => some mulhFn
  | .mulw _ | .mulwLit _ _ | .mulwLong _ => some mulwFn
  | .mad _ | .madLit _ _ | .madLong _ => some madFn
  | .madw _ | .madwLit _ _ | .madwLong _ => some madwFn
  | .div _ | .divLit _ _ | .divLong _ => some divFn
  | .rem _ | .remLit _ _ | .remLong _ => some remFn
  | .min _ | .minLit _ _ | .minLong _ => some minFn
  | .max _ | .maxLit _ _ | .maxLong _ => some maxFn
  | .abs _ | .absLong _ => some absFn
  | .neg _ | .negLong _ => some negFn
  | .lea _ => some leaFn
  | .and _ | .andLit _ _ | .andLong _ => some andFn
  | .or _ | .orLit _ _ | .orLong _ => some orFn
  | .xor _ | .xorLit _ _ | .xorLong _ => some xorFn
  | .andn _ | .andnLit _ _ | .andnLong _ => some andnFn
  | .not _ | .notLong _ => some notFn
  | .shl _ | .shlLit _ _ | .shlLong _ => some shlFn
  | .shr _ | .shrLit _ _ | .shrLong _ => some shrFn
  | .sra _ | .sraLit _ _ | .sraLong _ => some sraFn
  | .rotl _ | .rotlLit _ _ | .rotlLong _ => some rotlFn
  | .popc _ | .popcLong _ => some popcFn
  | .clz _ | .clzLong _ => some clzFn
  | .ctz _ | .ctzLong _ => some ctzFn
  | .brev _ | .brevLong _ => some brevFn
  | .bfx _ => some bfxFn
  | .bfi _ => some bfiFn
  | .cmp _ => some cmpFn
  | .sext _ => some sextFn
  | .permb _ => some permbFn
  | .dp4 _ | .dp4Lit _ _ | .dp4Long _ => some dp4Fn
  | .fadd _ | .faddLit _ _ | .faddLong _ => some faddFn
  | .fsub _ | .fsubLit _ _ | .fsubLong _ => some fsubFn
  | .fmul _ | .fmulLit _ _ | .fmulLong _ => some fmulFn
  | .ffma _ | .ffmaLit _ _ | .ffmaLong _ => some ffmaFn
  | .fmin _ | .fminLit _ _ | .fminLong _ => some fminFn
  | .fmax _ | .fmaxLit _ _ | .fmaxLong _ => some fmaxFn
  | .fabs _ => some fabsFn
  | .fneg _ => some fnegFn
  | .fcmp _ => some fcmpFn
  | .fclass _ => some fclassFn
  | .fdiv _ => some fdivFn
  | .fsqrt _ => some fsqrtFn
  | .frcp _ => some (apxFn frcp32)
  | .frsq _ => some (apxFn frsq32)
  | .fexp2 _ => some (apxFn fexp232)
  | .flog2 _ => some (apxFn flog232)
  | .fsin _ => some (apxFn (fsincos32 false))
  | .fcos _ => some (apxFn (fsincos32 true))
  | .frnd _ => some frndFn
  | .fcvt _ => some fcvtFn
  | .fcvti _ => some fcvtiFn
  | .icvtf _ => some icvtfFn
  | .fsgn _ => some fsgnFn
  | .fscl _ => some fsclFn
  | .pack8 _ => some pack8Fn
  | .unpk8 _ => some unpk8Fn
  | .lqd _ => some lqdFn
  | .fdot2 _ => some fdot2Fn
  | .mov _ | .movLong _ => some movFn
  | .movi _ | .moviLit _ _ | .moviLong _ | .moviLongLit _ _ => some moviFn
  | .sel _ => some selFn
  | .plop _ => some plopFn
  | _ => none

/-- What a happening does to the machine on which it stands no more: the meaning of its row (Machine/Events.lean). -/
def Ev.effect (e : Ev) (s : State) : State :=
  match e with
  | .runFormation a => evRunFormation s a
  | .warpSwap a => evWarpSwap s a
  | .pendingWarpPromotion a => evPendingWarpPromotion s a
  | .warpLeavesActiveSet a => evWarpLeavesActiveSet s a
  | .sleepExpiry a => evSleepExpiry s a
  | .producerLanding a => evProducerLanding s a
  | .trapEntry a b => evTrapEntry s a b
  | .handoffEntryArrival a b c d e f g => evHandoffEntryArrival s a b c d e f g
  | .cellarGroupService a b c => evCellarGroupService s a b c
  | .bufferStateChange a b => evBufferStateChange s a b
  | .atomicUnitApply a => evAtomicUnitApply s a
  | .l1SectorExpiry a b => evL1SectorExpiry s a b
  | .generationAdvance a b => evGenerationAdvance s a b
  | .rdcSweeperStep a => evRdcSweeperStep s a
  | .rd a => evArrive s (.rd a)
  | .own a => evArrive s (.own a)
  | .hrd a => evArrive s (.hrd a)
  | .hwr a => evArrive s (.hwr a)
  | .evx a b c => evArrive s (.evx a b c)
  | .probe a b c d => evHolder s (.probe a b c d) a b c
  | .recallHolder a b c => evHolder s (.recallHolder a b c) a b c
  | .invalidation a b c => evHolder s (.invalidation a b c) a b c
  | .holderAnswer a b c d => evHolderAnswer s a b c d
  | .ownershipGrant a => evOwnershipGrant s a
  | .dieCacheEviction a b => evDieCacheEviction s a b
  | .proxyEviction a b => evProxyEviction s a b
  | .linkWakeComplete a => evLinkWakeComplete s a
  | .linkWakeError a => evLinkWakeError s a
  | .heartbeat a => evHeartbeat s a
  | .dieDead a => evDieDead s a
  | .caskOpenRequest a b => evArrive s (.caskOpenRequest a b)
  | .caskGrant a b c => evCaskGrant s a b c
  | .drainArrival a b c d e f => evDrainArrival s a b c d e f
  | .racking a b => evRacking s a b
  | .resplitShare a b c d e => evResplitShare s a b c d e
  | .resplitAck a b => evResplitAck s a b
  | .ldbTransaction a => evArrive s (.ldbTransaction a)
  | .rackTransaction a => evRackTransaction s a
  | .regionRecordWrite a b c d => evRegionRecordWrite s a b c d
  | .barrierMessage a => evBarrierMessage s a
  | .barrierReply a => evBarrierReply s a
  | .roundFire a b => evRoundFire s a b
  | .engineRetirement a b => evEngineRetirement s a b
  | .operationEnqueue a => evOperationEnqueue s a
  | .chunkDispatch a => evChunkDispatch s a
  | .chunkComplete a b => evChunkEnd s a b
  | .deliverAtHome a => evDeliverAtHome s a
  | .weightLoadComplete a => evWeightLoadComplete s a
  | .wswpTakesEffect a => evWswpTakesEffect s a
  | .arrayOperationStart a => evArrayOperationStart s a
  | .arrayOperationRetire a => evArrayOperationRetire s a
  | .tileUnitComplete a => evTileUnitComplete s a
  | .accsAddOnStore a => evAccsAddOnStore s a
  | .pressOperation a => evPressOperation s a
  | .ringStepSend a => evRingStepSend s a
  | .ringStepArrival a => evRingStepArrival s a
  | .ringStepAck a => evRingStepAck s a
  | .stepResendNotice a => evStepResendNotice s a
  | .bridgeFlit a b => evBridgeFlit s a b
  | .bridgeCrcFailure a b => evBridgeCrcFailure s a b
  | .errcntWindowExpiry a => evErrcntWindowExpiry s a
  | .bridgeDeclaredFailed a => evBridgeDeclaredFailed s a
  | .ringWrapComplete a => evRingWrapComplete s a
  | .directionIdle a => evDirectionIdle s a
  | .directionSleep a => evDirectionSleep s a
  | .data a b => evData s a b
  | .idle a b => evIdle s a b
  | .replay a b => evReplay s a b
  | .restripe a b => evRestripe s a b
  | .drainReq a b => evDrainReq s a b
  | .drainDone a b => evDrainDone s a b
  | .relock a b => evRelock s a b
  | .idleFlitTimer a => evIdleFlitTimer s a
  | .replayRepeatTimer a => evReplayRepeatTimer s a
  | .lossOfLight a b => evLossOfLight s a b
  | .laserSourceFailure a b c => evLaserSourceFailure s a b c
  | .slotLightRegained a b => evSlotLightRegained s a b
  | .linkDown a => evLinkDown s a
  | .linkUp a => evLinkUp s a
  | .replanGo a => evReplanGo s a
  | .replanDrainComplete a => evReplanDrainComplete s a
  | .drainMaxExpiry a => evDrainMaxExpiry s a
  | .selectorsLocked a => evSelectorsLocked s a
  | .replanResume a => evReplanResume s a
  | .remoteAccessFailure a b => evRemoteAccessFailure s a b
  | .putnFlagIncrement a => evDeliverAtHome s a
  | .pageWalk a b => evPageWalk s a b
  | .translationCacheLookup a b => evTranslationCacheLookup s a b
  | .preemptionRequest a => evPreemptionRequest s a
  | .prewaitTimeout a => evPrewaitTimeout s a
  | .saveAreaWrite a => evSaveAreaWrite s a
  | .remoteReply a => evRemoteReply s a
  | .lqDoor a => evLqDoor s a
  | .tailPoll a => evTailPoll s a
  | .launchAppend a => evLaunchAppend s a
  | .cohortIndexRequest a b c => evCohortIndexRequest s a b c
  | .mirrorRecord a b c d => evMirrorRecord s a b c d
  | .mirrorAck a b c d => evMirrorAck s a b c d
  | .cohortGrant a b c d => evCohortGrant s a b c d
  | .powerHeadroomReport a => evPowerHeadroomReport s a
  | .class3Starvation a => evClass3Starvation s a
  | .cohortEnd a => evCohortEnd s a
  | .launchCompletion a => evLaunchCompletion s a
  | .hostMemoryWrite a b c => evHostMemoryWrite s a b c
  | .hostMemoryRead a b c => evHostMemoryRead s a b c
  | .registerWrite a b c d e => evRegisterWrite s a b c d e
  | .powerOn a => evPowerOn s a
  | .powerPhaseDone a => evPowerPhaseDone s a
  | .calibrationDone a b => evCalibrationDone s a b
  | .initialisationDone a => evInitialisationDone s a
  | .hostCtlReset a => evHostCtlReset s a
  | .linkReset a => evHostCtlReset s a
  | .eventRecordWrite a => evEventRecordWrite s a
  | .scrubStep a b => evPatrol s a b
  | .errorWindowExpiry a => evErrorWindowExpiry s a
  | .lineDiagAddr a b => evLineDiagAddr s a b
  | .lineDiagComplete a => evLineDiagComplete s a
  | .thermal a b => evThermal s a b
  | .thermalPowerOff a => evThermalPowerOff s a
  | .chunkSourceReadLanding a b => evChunkSourceReadLanding s a b
  | .homeAgentEviction a => evHomeAgentEviction s a
  | .weightLoadStart a => evWeightLoadStart s a
  | .atciRemoval a b => evAtciRemoval s a b

end Sys2Proof.Machine
end

