-- ==== Sys2Proof/Certificates/Slice0/Obligations.lean ====
section
/-! DEFINITION. The statements for the provers. -/

open Sys2Proof Sys2Proof.Machine

/-! ### Encoding -/

/-- R22, R26 to R31, R41, R42: the bytes of every well-formed instruction decode to it, with every field as it was, and the bytes
after them are left. -/
def Obligations.DecodeOfEncodeIsTheInstruction : Prop :=
  ∀ (i : Instr) (rest : List Byte), i.parts.isSome → i.wf = true → decode (encodeBytes i ++ rest) = .ok (i, rest)

/-- What the decoder answers is well formed, and its encoding is the bytes that were read: no two words stand for one
instruction, and no bit of an accepted word is without meaning. -/
def Obligations.EncodeOfDecodeIsTheBytes : Prop :=
  ∀ (bs : List Byte) (i : Instr) (rest : List Byte), decode bs = .ok (i, rest) → i.wf = true ∧ bs = encodeBytes i ++ rest

/-- R47, Table 2-13 steps 2 and 3: an opcode that no instruction has, and a length field that the opcode does not have, are no
instruction, whatever follows. -/
def Obligations.UndefinedWordsAreRejected : Prop :=
  ∀ (w : Word) (rest : List Byte),
    (Opc.ofCode (w.extractLsb' 2 8).toNat = none → decode (wordBytes w ++ rest) = .error .undefinedOpcode) ∧
    (∀ o, Opc.ofCode (w.extractLsb' 2 8).toNat = some o → o.lenOk (w.extractLsb' 0 2) = false →
      decode (wordBytes w ++ rest) = .error .illegalLength)

/-! ### A step -/

/-- R73, R74: where a lane's turn has come, the step is the meaning of the instruction fetched at the run's program counter, on
the state after the waits that have ended and the fetch; where a happening is due, it is the meaning of that happening's row. Which lane or happening of a clk comes
first is the model's choice (notes/assumptions/1.md). -/
def Obligations.StepRunsDecodedInstruction : Prop :=
  ∀ (s : State), s.ev = none →
    (∀ (l : Nat) (r : Run) (i : Instr) (s1 : State), pick (wake s) = .slice l → ((wake s).lane l).run = some r →
      fetchInstr { wake s with cur := l } (coreOfLane l) r.pc ((wake s).inHandler (r.threads.headD 0)) = (.ok i, s1) →
      step s = exec i s1) ∧
    (∀ e : Ev, pick (wake s) = .happen e → step s = exec e.instr (takeEvent (wake s) e))

/-- No step of the machine stops: whatever the state, it answers a next state. No instruction and no event that a step comes to
is refused, and none of ordinary data ends a run. -/
def Obligations.EveryStepAnswersANextState : Prop := ∀ s : State, ∃ s', step s = .next s'

/-! ### Integer instructions, short forms -/

/-- R106, R117 to R119, R129: the arithmetic instructions in their short forms: ADD, SUB, MUL, MULH, MAD, MIN, MAX, ABS and NEG, which wrap; DIV and
REM, with a zero divisor and the quotient that overflows; MOV and MOVI; MULW and MADW with their pairs, and DP4 with its signed bytes. -/
def Obligations.ShortArithmetic : Prop :=
  ∀ f : Short,
    ShortWord (.add f) .add f (fun a b _ => a + b) ∧
    ShortWord (.sub f) .sub f (fun a b _ => a - b) ∧
    ShortWord (.mul f) .mul f (fun a b _ => a * b) ∧
    ShortWord (.mulh f) .mulh f (fun a b _ => (a.signExtend 64 * b.signExtend 64).extractLsb' 32 32) ∧
    ShortWord (.mad f) .mad f (fun a b d => a * b + d) ∧
    ShortWord (.min f) .min f (fun a b _ => if a.slt b then a else b) ∧
    ShortWord (.max f) .max f (fun a b _ => if a.slt b then b else a) ∧
    ShortWord (.abs f) .abs f (fun a _ _ => if a.slt 0 then -a else a) ∧
    ShortWord (.neg f) .neg f (fun a _ _ => -a) ∧
    ShortWord (.div f) .div f (fun a b _ => if b = 0 then 0xFFFFFFFF else a.sdiv b) ∧
    ShortWord (.rem f) .rem f (fun a b _ => if b = 0 then a else a.srem b) ∧
    ShortWord (.mov f) .mov f (fun a _ _ => a) ∧
    ShortWord (.movi f) .movi f (fun _ _ _ => (f.b ++ f.a).signExtend 32) ∧
    ShortPair (.mulw f) .mulw f (fun a b _ => a.signExtend 64 * b.signExtend 64) ∧
    ShortPair (.madw f) .madw f (fun a b d => a.signExtend 64 * b.signExtend 64 + d) ∧
    ShortWord (.dp4 f) .dp4 f (fun a b d => d +
      (a.extractLsb' 0 8).signExtend 32 * (b.extractLsb' 0 8).signExtend 32 +
      (a.extractLsb' 8 8).signExtend 32 * (b.extractLsb' 8 8).signExtend 32 +
      (a.extractLsb' 16 8).signExtend 32 * (b.extractLsb' 16 8).signExtend 32 +
      (a.extractLsb' 24 8).signExtend 32 * (b.extractLsb' 24 8).signExtend 32)

/-- R121 to R123: the logical instructions, the shifts and the rotation, whose count is taken modulo 32, and POPC, CLZ, CTZ and BREV, in their short
forms. -/
def Obligations.ShortLogicAndBits : Prop :=
  ∀ f : Short,
    ShortWord (.and f) .and f (fun a b _ => a &&& b) ∧
    ShortWord (.or f) .or f (fun a b _ => a ||| b) ∧
    ShortWord (.xor f) .xor f (fun a b _ => a ^^^ b) ∧
    ShortWord (.andn f) .andn f (fun a b _ => a &&& ~~~ b) ∧
    ShortWord (.not f) .not f (fun a _ _ => ~~~ a) ∧
    ShortWord (.shl f) .shl f (fun a b _ => a <<< (b.toNat % 32)) ∧
    ShortWord (.shr f) .shr f (fun a b _ => a >>> (b.toNat % 32)) ∧
    ShortWord (.sra f) .sra f (fun a b _ => a.sshiftRight (b.toNat % 32)) ∧
    ShortWord (.rotl f) .rotl f (fun a b _ => a.rotateLeft (b.toNat % 32)) ∧
    ShortWord (.popc f) .popc f (fun a _ _ => BitVec.ofNat 32 ((List.range 32).filter a.getLsbD).length) ∧
    ShortWord (.clz f) .clz f (fun a _ _ => BitVec.ofNat 32 ((List.range 32).takeWhile fun k => !a.getLsbD (31 - k)).length) ∧
    ShortWord (.ctz f) .ctz f (fun a _ _ => BitVec.ofNat 32 ((List.range 32).takeWhile fun k => !a.getLsbD k).length) ∧
    ShortWord (.brev f) .brev f (fun a _ _ => a.reverse)

/-! ### Instructions that compute, all forms -/

/-- R99, R113, R138: an instruction that computes a value, a predicate and flags, in every form and type, with register
operands, an immediate, a literal or queue ports: where its operands can be read and its port has room, it completes. Without
ports, the destination registers hold the value, the predicate and the flags follow, and nothing else changes. -/
def Obligations.ComputingFormsComplete : Prop :=
  ∀ (i : Instr) (fn : Ins → Nat → Nat → Nat → AluOut) (x : Ins) (s : State) (t : Nat) (v : Vals),
    computes i = some fn → i.ins? = some x → x.f.u = false → Turn s x t → gather s x t = .vals v →
    (∀ p, pushOf x = some p → pushRoom v.st (t / 32) p = true) →
    ∃ s1, Passes i x t s s1 ∧ (pushOf x = none → v.popped = false →
      let o := fn x v.a v.b v.c
      (∀ k < destN x, (s1.greg t (x.f.d.toNat + k)).v = BitVec.ofNat 32 (o.v / 2 ^ (32 * k)) ∧
        (s1.greg t (x.f.d.toNat + k)).full = true) ∧
      (∀ k b, o.p = some (k, b) → k < 7 → s1.pred t k = b) ∧
      (s1.thread t).fstat = (s.thread t).fstat ||| o.flags ∧
      Kept s s1 (regs t x.f.d.toNat (destN x)) (fun u k => u = t ∧ ∃ b, o.p = some (k, b)) (fun u => u = t) noReg)

/-- R38, R78, R161: a uniform instruction computes once for its warp, on w registers; every thread of the sub-run advances and
receives the flags. -/
def Obligations.UniformFormsComplete : Prop :=
  ∀ (i : Instr) (fn : Ins → Nat → Nat → Nat → AluOut) (x : Ins) (s : State) (ps : List Nat) (v : Vals),
    computes i = some fn → i.ins? = some x → x.f.u = true → Whole s x ps → gather s x (ps.headD 0) = .vals v →
    ∃ s1, PassesAll i x ps s s1 ∧
      let o := fn x v.a v.b v.c
      let w := ps.headD 0 / 32
      (∀ k < destN x, s1.wreg w (x.f.d.toNat + k) = BitVec.ofNat 32 (o.v / 2 ^ (32 * k))) ∧
      (∀ u ∈ ps, (s1.thread u).fstat = (s.thread u).fstat ||| o.flags) ∧
      Kept s s1 noReg noReg (fun u => u ∈ ps) (regs w x.f.d.toNat (destN x))

/-! ### Words, reset and memory -/

/-- The worked examples of Tables 2-14 and 2-15: what each of their words stands for, and the step at which each of the others
is refused. -/
def Obligations.SpecWordsDecode : Prop :=
  decode [0xA0, 0x14, 0x06, 0x04] = .ok (.add { u := false, b := 4, a := 3, d := 5 }, []) ∧
  decode [0xA0, 0x08, 0x00, 0x81] = .ok (.add { u := true, b := 1, a := 0, d := 2 }, []) ∧
  decode [0x64, 0x1C, 0xFA, 0x7F] = .ok (.movi { u := false, b := 0x7F, a := 0x7D, d := 7 }, []) ∧
  decode [0x66, 0x1C, 0x00, 0x00, 0x78, 0x56, 0x34, 0x12, 0x00, 0x00, 0x00, 0x00] =
    .ok (.moviLit { u := false, b := 0, a := 0, d := 7 } 0x12345678, []) ∧
  decode [0x04, 0x84, 0xFE, 0xFF] = .ok (.bra 0b0001 0x3FFFA, []) ∧
  decode [0x4D, 0x21, 0x0B, 0x2A, 0x83, 0x84, 0x40, 0x01, 0x00, 0x00, 0x00, 0x00] =
    .ok (.ffmaLong { u := false, g := 0b1010, a := 130, d := 200, m := 1, t := 4, fe := 0, c := 132, b := 131, imm := 0 }, []) ∧
  decode [0xC8, 0x1C, 0x00, 0x00] = .ok (.rem { u := false, b := 0, a := 0, d := 7 }, []) ∧
  decode [0xFC, 0x03, 0x00, 0x00] = .error .undefinedOpcode ∧
  decode [0x1C, 0x01, 0x00, 0x00] = .error .illegalLength ∧
  decode [0x66, 0x00, 0x00, 0x00, 0x00, 0x00, 0x00, 0x00, 0x01, 0x00, 0x00, 0x00] = .error .illegalField ∧
  decode [0x01, 0x02, 0x00, 0x40, 0x00, 0x00, 0x00, 0x00, 0x00, 0x00, 0x00, 0x00] = .error .illegalField ∧
  decode [0xA1, 0x00, 0x00, 0x3C, 0x00, 0x00, 0x00, 0x00, 0x00, 0x00, 0x00, 0x00] = .error .illegalField ∧
  decode [0xA0, 0x00, 0x80, 0x80] = .error .illegalField

/-- Tables 5-1, 13-1, 20-2 and 20-3, R93, R112, R421: after reset no package has power, no die is present, no cohort is resident, every
register reads 0 and is full, p7 is true, $rank is all ones, every mask and counter is 0, and the management registers hold the values of their
tables. That g and w registers read 0 is the model's choice (notes/assumptions/15.md). -/
def Obligations.ResetLeavesTheStatedValues : Prop :=
  let s := State.reset
  s.clk = 0 ∧ s.agenda = [] ∧ s.mem = [] ∧
  (∀ t r, (s.greg t r).v = 0 ∧ (s.greg t r).full = true) ∧ (∀ w r, s.wreg w r = 0) ∧ (∀ t, (s.thread t).p = 0x80) ∧
  (∀ w, (s.warp w).rank = 0xFFFFFFFF ∧ (s.warp w).handler = none ∧ (s.warp w).m = [] ∧ (s.warp w).cnt = []) ∧
  (∀ c, (s.core c).cohort = none ∧ (s.core c).remstat = 0) ∧
  (∀ d, (s.die d).ok = false ∧ (s.die d).brgThresh = 16 ∧ (s.die d).brgWindow = 10 ∧ (s.die d).sleepEn = true ∧
    (s.die d).sleepAfter = 100 ∧ (s.die d).idleAfter = 1 ∧ (s.die d).drainMax = 100 ∧ (s.die d).linkDead = 50) ∧
  (∀ p, (s.pkg p).powered = false ∧ (s.pkg p).ready = false ∧ (s.pkg p).scrubPeriod = 24 ∧ (s.pkg p).errWindow = 3600 ∧
    (s.pkg p).errThresh = 8 ∧ (s.pkg p).lqEn = false)

/-- Reset memory, cellars and host memory are in canonical form. -/
def Obligations.ResetMemoryCanonical : Prop := State.reset.MemOk

/-- R4: the bytes written from an address on read back, and every other byte reads as before; a memory in canonical form is determined by
what its bytes read as. -/
def Obligations.MemoryIsItsBytes : Prop :=
  (∀ (m : List Host.Cell) (a : Nat) (l : List Byte), Memory.wf m = true →
    memRead (memWrite m a l) a l.length = l ∧ (∀ b, b < a ∨ a + l.length ≤ b → memGet (memWrite m a l) b = memGet m b)) ∧
  (∀ m n : List Host.Cell, Memory.wf m = true → Memory.wf n = true → (∀ a, memGet m a = memGet n a) → m = n)

/-- R4, R23, R47: a word of code is the four bytes of memory at its physical address, little-endian, where its page translates, the
line is reachable, is not poisoned and decodes, and the core holds no line; and where the words at a program counter decode to an
instruction that the mode, the registers and the tiles of the cohort allow, the fetch there gives it. -/
def Obligations.FetchReadsTheBytes : Prop :=
  (∀ (s : State) (core : Nat) (va : Dword) (p : Place), va.toNat % 4 = 0 → va.toNat < 2 ^ 56 → (s.core core).icache = [] →
    xlateNow s (dieOfCore core) (s.cohort core).ctx.asid (s.cohort core).ctx.root (s.cohort core).launch
      (s.cohort core).window.toNat (64 * (va.toNat / 64)) 4 = .ok p → badLine s (p.pa / 64) = false →
    (homeDie p.pa = dieOfCore core ∨ unreach s (dieOfCore core) (homeDie p.pa) = none) →
    ∃ w, (fetchWord s core va).1 = some w ∧ wordBytes w = memRead s.mem (p.pa / 64 * 64 + va.toNat % 64) 4) ∧
  (∀ (s s1 : State) (core : Nat) (pc : Dword) (sv : Bool) (ws : List Word) (i : Instr) (x : Ins) (rest : List Byte),
    fetchWords s core pc 5 = (.ok ws, s1) → decode (ws.flatMap wordBytes) = .ok (i, rest) → i.ins? = some x →
    (x.o.sv = true → sv = true) → insTopG x ≤ (s.cohort core).r → badTile s core x = false →
    (fetchInstr s core pc sv).1 = .ok i)

/-! ### Operands -/

/-- R37, R97: a source register whose FE bit is set and that is empty raises cause EM, and nothing of the instruction is done. -/
def Obligations.EmptyRegisterTraps : Prop :=
  ∀ (i : Instr) (fn : Ins → Nat → Nat → Nat → AluOut) (x : Ins) (s : State) (t r : Nat),
    computes i = some fn → i.ins? = some x → x.f.u = false → Turn s x t → (∀ p, RegRef.q p ∉ insReads x) → pushOf x = none →
    RegRef.g r true ∈ insReads x → (s.greg t r).full = false → Traps i t 13 0 0 s

/-- R98 to R101: MOV takes the head entry of a core's queue port q0 to q7, if one was pushed in an earlier clk, and its
destination is empty until it lands; it puts the value of its source register behind the entries of a port that has room; with no entry, or
no room, the thread waits at its instruction and nothing else changes. -/
def Obligations.QueuePortsMoveEntries : Prop :=
  ∀ (f : Long) (s : State) (t : Nat), f.u = false → f.t = 15 → f.fe = 0 → f.m = 0 →
    let x := Ins.ofBody .mov (.long f)
    let w := t / 32
    Turn s x t →
    (∀ k < 8, f.a.toNat = 240 + k → f.d.toNat < 240 →
      (∀ e l, popable s w k = e :: l → ∃ s1, Passes (.movLong f) x t s s1 ∧
        portEntries s1 w k = (portEntries s w k).drop 1 ∧ (s1.greg t f.d.toNat).full = false ∧
        (∃ p, p ∈ s1.agenda ∧ p.1 = s.clk + 8 ∧ p.2 = .producerLanding ⟨t, f.d.toNat, 1,
          (s1.greg t f.d.toNat).tag, BitVec.ofNat 128 e.1.toNat, (s.core (coreOfThread t)).epoch, 0, none⟩)) ∧
      (popable s w k = [] → ∃ s1, Lands (.movLong f) t s s1 ∧ s1 = s.hold t (.queue k true s.clk))) ∧
    (∀ k < 8, f.d.toNat = 240 + k → f.a.toNat < 240 →
      (pushRoom s w k = true → ∃ s1, Passes (.movLong f) x t s s1 ∧
        portEntries s1 w k = portEntries s w k ++ [((s.greg t f.a.toNat).v, s.clk)] ∧ (∀ u r, s1.greg u r = s.greg u r)) ∧
      (pushRoom s w k = false → ∃ s1, Lands (.movLong f) t s s1 ∧ s1 = s.hold t (.queue k false s.clk)))

/-! ### Control flow -/

/-- R24, R28, R164: a branch goes to the address of its word 0 plus four times its offset; a target that is no multiple of 4 or lies
beyond 56 bits raises cause BT. -/
def Obligations.BranchGoesToItsTarget : Prop :=
  ∀ (i : Instr) (x : Ins) (s : State) (t : Nat) (off : Dword),
    ((∃ g o, i = .bra g o ∧ off = o.signExtend 64) ∨ ∃ f, i = .braLong f ∧ off = f.imm.signExtend 64) →
    i.ins? = some x → Turn s x t →
    let a := (s.thread t).pc + 4 * off
    if a.extractLsb' 0 2 = 0 ∧ a.extractLsb' 56 8 = 0 then ∃ s1, Lands i t s s1 ∧ Same s s1 ∧ (s1.thread t).pc = a
    else Traps i t 10 0 a s

/-- R165, R166: a call reads the depth of the slot's stack in memory, pushes the address of the next instruction on it, by the two stores of
the entry and of the depth, and goes to its target; a full stack raises cause RS, a target that breaks R24 cause BT. RET takes the top entry and
lowers the depth; an empty or broken stack raises cause RS, an entry that breaks R24 cause BT. A line of the stack that cannot be read raises its cause.
Each read gives the bytes of memory at its place where the home can be reached, and changes no register. -/
def Obligations.CallAndReturnUseTheStack : Prop :=
  (∀ (s : State) (t : Nat) (p : Place) (va : Dword) (n : Nat),
    (∀ u r, (ownRead s t p va n).1.greg u r = s.greg u r) ∧
    (p.cls ≠ 1 → (ownRead s t p va n).1.mem = s.mem ∧ (ownRead s t p va n).1.cellar = s.cellar) ∧
    ((placeDie p.cls p.pa = dieOfCore (coreOfThread t) ∨ unreach s (dieOfCore (coreOfThread t)) (placeDie p.cls p.pa) = none) →
      (ownRead s t p va n).2 = bytesNat (bytesAt s p.cls p.pa n))) ∧
  (∀ (i : Instr) (x : Ins) (s : State) (t : Nat) (off : Dword) (p : Place),
    ((∃ g o, i = .call g o ∧ off = o.signExtend 64) ∨ ∃ f, i = .callLong f ∧ off = f.imm.signExtend 64) →
    i.ins? = some x → Turn s x t →
    let target := (s.thread t).pc + 4 * off
    let a := stackArea s t
    let o := ownRead s t p a 8
    let d := o.2
    let q : Place := { p with pa := p.pa + (8 + 8 * d) }
    (badTarget target = true → Traps i t 10 0 target s) ∧
    (badTarget target = false → stackCheck s t = (.ok p, 0) → stackBusy s t p = false →
      (127 ≤ d → TrapsOn i t 11 0 a s o.1) ∧
      (d < 127 →
        (∀ c, lineFault o.1 p.cls q.pa = some c → TrapsOn i t c 3 (a + BitVec.ofNat 64 (8 + 8 * d)) s (noteLine o.1 c q)) ∧
        (∀ s1 s2, lineFault o.1 p.cls q.pa = none →
          stackStore o.1 t p a (8 + 8 * d) ((s.thread t).pc + BitVec.ofNat 64 x.size).toNat = some s1 →
          stackStore s1 t p a 0 (d + 1) = some s2 →
          ∃ s3, Lands i t s s3 ∧ (s3.thread t).pc = target ∧ s3.reqs = s2.reqs ∧ s3.mem = s2.mem ∧ (∀ u r, s3.greg u r = s2.greg u r))))) ∧
  (∀ (f : Long) (s : State) (t : Nat) (p : Place),
    let x := Ins.ofBody .ret (.long f)
    let a := stackArea s t
    let o := ownRead s t p a 8
    let d := o.2
    let q : Place := { p with pa := p.pa + 8 * d }
    let e := ownRead o.1 t q (a + BitVec.ofNat 64 (8 * d)) 8
    let target : Dword := BitVec.ofNat 64 e.2
    Turn s x t → stackCheck s t = (.ok p, 0) → stackBusy s t p = false →
    ((d = 0 ∨ 127 < d) → TrapsOn (.ret f) t 11 0 a s o.1) ∧
    (0 < d → d ≤ 127 →
      (∀ c, lineFault o.1 p.cls q.pa = some c → TrapsOn (.ret f) t c 3 (a + BitVec.ofNat 64 (8 * d)) s (noteLine o.1 c q)) ∧
      (lineFault o.1 p.cls q.pa = none →
        (badTarget target = true → TrapsOn (.ret f) t 10 0 target s e.1) ∧
        (∀ s1, badTarget target = false → stackStore e.1 t p a 0 (d - 1) = some s1 →
          ∃ s3, Lands (.ret f) t s s3 ∧ (s3.thread t).pc = target ∧ s3.reqs = s1.reqs ∧ s3.mem = s1.mem ∧
            (∀ u r, s3.greg u r = s1.greg u r)))))

/-- R167: BRX goes to the target that the list in memory gives for the index, CALLX calls it; an index at or beyond the list's length, or
a length of 0 or above 4096, or a target that breaks R24, raises cause BT. The list is read as an LD of the thread reads it, after its own earlier accesses to the word. -/
def Obligations.IndexedBranchTakesTheListEntry : Prop :=
  ∀ (f : Long) (o : Opc) (i : Instr) (s : State) (t : Nat) (v : Vals) (p q : Place),
    (o = .brx ∧ i = .brx f ∨ o = .callx ∧ i = .callx f) →
    let x := Ins.ofBody o (.long f)
    let c := coreOfThread t
    let list := (s.thread t).pc + 4 * f.imm.signExtend 64
    let word := list + BitVec.ofNat 64 (4 + 4 * v.a)
    let l := ownRead s t p list 4
    let n := l.2
    let e := ownRead l.1 t q word 4
    let target := (s.thread t).pc + 4 * (BitVec.ofNat 32 e.2).signExtend 64
    Turn s x t → gather s x t = .vals v → checkAccess s .ld c list 4 = .ok p →
    ((earlier s { thread := t, cls := p.cls, pa := p.pa, size := 4 }).isEmpty = false → Lands i t s (s.hold t (.own p.cls p.pa 4))) ∧
    ((earlier s { thread := t, cls := p.cls, pa := p.pa, size := 4 }).isEmpty = true →
      ((n = 0 ∨ 4096 < n ∨ n ≤ v.a) → TrapsOn i t 10 0 list s l.1) ∧
      (0 < n → n ≤ 4096 → v.a < n → checkAccess l.1 .ld c word 4 = .ok q →
        (earlier l.1 { thread := t, cls := q.cls, pa := q.pa, size := 4 }).isEmpty = true →
        (badTarget target = true → TrapsOn i t 10 0 target s e.1) ∧
        (badTarget target = false → o = .brx → ∃ s1, Lands i t s s1 ∧ (s1.thread t).pc = target ∧ s1.mem = e.1.mem ∧
          s1.reqs = e.1.reqs ∧ ∀ u r, s1.greg u r = s.greg u r) ∧
        (∀ s1, badTarget target = false → o = .callx → pushCall x t target e.1 = .jump s1 → ∃ s2, Lands i t s s2 ∧ (s2.thread t).pc = target ∧
          (v.popped = false → s2 = s1) ∧ s2.reqs = s1.reqs ∧ s2.mem = s1.mem ∧ ∀ u r, s2.greg u r = s1.greg u r)))

/-- R168: EXIT ends its thread and takes it out of every mask of its warp; memory and every register keep their contents. -/
def Obligations.ExitEndsTheThread : Prop :=
  ∀ (f : Long) (s : State) (t : Nat),
    let x := Ins.ofBody .exit (.long f)
    Alone s x t → s.inHandler t = false → Runs (.exit f) s fun s' =>
      (s'.thread t).exited = true ∧ (∀ m < 12, (s'.mask (t / 32) m).getLsbD (t % 32) = false) ∧
      (∀ u r, (s'.greg u r).v = (s.greg u r).v) ∧ (∀ w r, s'.wreg w r = s.wreg w r) ∧ s'.mem = s.mem

/-- R171, R172: JOIN adds its thread to a mask, LEAVE takes it out of the masks it names, MSET writes the threads of the sub-run whose
predicate is true, MGET copies a mask to a w register; the release check follows (R173). -/
def Obligations.MaskInstructionsChangeMembership : Prop :=
  ∀ (f : Long) (s : State) (t : Nat),
    let w := t / 32
    let bit : Word := slotBit (t % 32)
    (Alone s (Ins.ofBody .join (.long f)) t → Runs (.join f) s fun s' =>
      s'.mask w f.d.toNat = checked s w f.d.toNat (s.mask w f.d.toNat ||| bit) ∧ MaskOnly s s' w [f.d.toNat] ∧
      (s'.thread t).pc = (s.thread t).pc + 12) ∧
    (Alone s (Ins.ofBody .leave (.long f)) t → Runs (.leave f) s fun s' =>
      (∀ m < 12, f.imm.getLsbD m = true → s'.mask w m = checked s w m (s.mask w m &&& ~~~ bit)) ∧
      MaskOnly s s' w ((List.range 12).filter fun m => f.imm.getLsbD m) ∧ (s'.thread t).pc = (s.thread t).pc + 12) ∧
    (Alone s (Ins.ofBody .mset (.long f)) t → Runs (.mset f) s fun s' =>
      let old := if f.m.getLsbD 0 then s.mask w f.d.toNat else 0
      s'.mask w f.d.toNat = checked s w f.d.toNat (if s.pred t f.a.toNat then old ||| bit else old) ∧ MaskOnly s s' w [f.d.toNat] ∧
      (s'.thread t).pc = (s.thread t).pc + 12) ∧
    (∀ ps, Whole s (Ins.ofBody .mget (.long f)) ps → ∃ s1, PassesAll (.mget f) (Ins.ofBody .mget (.long f)) ps s s1 ∧
      s1.wreg (ps.headD 0 / 32) f.d.toNat = s.mask (ps.headD 0 / 32) f.a.toNat ∧
      Kept s s1 noReg noReg noThread (regs (ps.headD 0 / 32) f.d.toNat 1))

/-- R173: WAITM holds a member at the mask until every member is held there; then all advance and the mask is empty. A thread that is no
member only advances. -/
def Obligations.WaitmHoldsUntilAllMembersWait : Prop :=
  ∀ (f : Long) (s : State) (t : Nat),
    let x := Ins.ofBody .waitm (.long f)
    let w := t / 32
    let m := f.a.toNat
    Alone s x t → Runs (.waitm f) s fun s' => MaskOnly s s' w [m] ∧
      ((s.mask w m).getLsbD (t % 32) = false → (s'.thread t).pc = (s.thread t).pc + 12 ∧ (s'.thread t).hold = .none) ∧
      ((s.mask w m).getLsbD (t % 32) = true →
        ((∀ k < 32, k ≠ t % 32 → (s.mask w m).getLsbD k = true → (s.thread (threadOf w k)).hold = .mask m) →
          s'.mask w m = 0 ∧ ∀ k < 32, (s.mask w m).getLsbD k = true → (s'.thread (threadOf w k)).hold = .none ∧
            (s'.thread (threadOf w k)).pc = (s.thread (threadOf w k)).pc + 12) ∧
        (¬ (∀ k < 32, k ≠ t % 32 → (s.mask w m).getLsbD k = true → (s.thread (threadOf w k)).hold = .mask m) →
          s'.mask w m = s.mask w m ∧ (s'.thread t).hold = .mask m ∧ (s'.thread t).pc = (s.thread t).pc))

/-- R46, R394, R396, R415: NOP in both forms and YIELD only advance the program counter. SLEEP holds its thread for n clks, or not at all for n = 0.
IDEM.open sets the region entry of the cohort to the address that its offset names, once per run, and IDEM.close clears it. PPT only advances where
no pre-emption is requested or its warp runs a handler; where one is, its warp traps with cause PE in the next clk. -/
def Obligations.ThreadsSleepYieldAndMarkRegions : Prop :=
  (∀ (i : Instr) (x : Ins) (s : State) (t : Nat), (i = .nop ∨ (∃ f, i = .nopLong f) ∨ ∃ f, i = .yield f) →
    i.ins? = some x → Turn s x t → Passes i x t s s) ∧
  (∀ (f : Long) (s : State) (t : Nat) (v : Vals), Turn s (Ins.ofBody .sleep (.long f)) t →
    gather s (Ins.ofBody .sleep (.long f)) t = .vals v →
    let n := v.b % 2 ^ 24
    (n = 0 → Passes (.sleep f) (Ins.ofBody .sleep (.long f)) t s s) ∧
    (n ≠ 0 → ∃ s1, Lands (.sleep f) t s s1 ∧ (s1.thread t).hold = .sleep (s.clk + n) ∧ (s1.thread t).pc = (s.thread t).pc ∧
      (s.clk + n, .sleepExpiry t) ∈ s1.agenda ∧ Same s { s1 with agenda := s.agenda })) ∧
  (∀ (f : Long) (i : Instr) (e : Dword → Option Dword) (s : State) (t : Nat),
    (i = .idemOpen f ∧ f.m.getLsbD 0 = false ∧ (e = fun pc => some (pc + 4 * f.imm.signExtend 64)) ∨
      i = .idemClose f ∧ f.m.getLsbD 0 = true ∧ e = fun _ => none) →
    Turn s (Ins.ofBody .idem (.long f)) t →
    ∃ s1, Passes i (Ins.ofBody .idem (.long f)) t s s1 ∧
      (firstOfRun s = false → s1 = s) ∧
      (firstOfRun s = true → (s1.core (coreOfThread t)).cohort =
          (s.core (coreOfThread t)).cohort.map (fun h => { h with regionEntry := e (s.thread t).pc }) ∧
        ∀ u r, s1.greg u r = s.greg u r)) ∧
  (∀ (f : Long) (s : State) (t : Nat),
    let x := Ins.ofBody .ppt (.long f)
    let c := coreOfThread t
    Alone s x t →
    (((s.core c).preempt = none ∨ s.inHandler t = true ∨ (s.cohort c).ctx.handler = 0) → Passes (.ppt f) x t s s) ∧
    ((s.core c).preempt.isSome = true → s.inHandler t = false → (s.cohort c).ctx.handler ≠ 0 → Runs (.ppt f) s fun s' =>
      (s'.core c).preempt = none ∧ (s'.thread t).pc = (s.thread t).pc + 12 ∧
      (s.clk + 1, .trapEntry (t / 32) ⟨35, t % 32, 0, 0, (s.thread t).pc, 0, slotBit (t % 32)⟩) ∈ s'.agenda ∧ ∀ u r, s'.greg u r = s.greg u r))

/-! ### Exceptions -/

/-- R387, R388: entering the handler saves the reason, the program counter, the masks, every slot's program counter and predicates and the
replay set, clears the masks, gives w56 and w57 HDATA and w58 to w63 zero, and starts every slot at HANDLER 8 clks after the run
ended; memory and the g registers keep their contents.
A fault in a handler, or in a context that names none, ends the context on every package (R389). -/
def Obligations.TakingATrapSavesTheWarp : Prop :=
  (∀ (s : State) (w : Nat) (i : TrapInfo) (n : Nat), (s.warp w).handler = none →
    let ctx := (s.cohort (coreOfWarp w)).ctx
    ctx.handler ≠ 0 →
    let s' := takeTrap s w i n
    (s'.warp w).xcause = xcauseWord i ∧ (s'.warp w).xpc = i.xpc ∧ (s'.warp w).xaddr = i.xaddr ∧ (s'.warp w).xdone = i.done ∧
    (s'.warp w).xm = (s.warp w).m ∧ (∀ m, s'.mask w m = 0) ∧
    s'.wreg w 56 = ctx.hdata.extractLsb' 0 32 ∧ s'.wreg w 57 = ctx.hdata.extractLsb' 32 32 ∧ (∀ r, 58 ≤ r → r < 64 → s'.wreg w r = 0) ∧
    (∀ r < 56, s'.wreg w r = s.wreg w r) ∧
    (∃ h, (s'.warp w).handler = some h ∧ h.cause = i.cause ∧ h.w = (List.range 8).map (fun k => (56 + k, s.wreg w (56 + k))) ∧ ∀ k < 32,
      kvGet 0 h.pcs k = (s.thread (threadOf w k)).pc ∧ kvGet 0x80 h.preds k = (s.thread (threadOf w k)).p ∧
      (h.replay.getLsbD k = true ↔ (s.thread (threadOf w k)).pc = i.xpc ∧ i.done.getLsbD k = false)) ∧
    (∀ k < 32, (s'.thread (threadOf w k)).pc = ctx.handler ∧ (s'.thread (threadOf w k)).p = 0x80 ∧
      (s'.thread (threadOf w k)).hold = .none ∧ (s'.thread (threadOf w k)).since = n + 8) ∧
    (∀ u r, s'.greg u r = s.greg u r) ∧ (∀ v, v ≠ w → s'.warp v = s.warp v) ∧ s'.mem = s.mem ∧ s'.cellar = s.cellar) ∧
  (∀ (s : State) (w : Nat) (i : TrapInfo) (n : Nat),
    ((s.warp w).handler.isSome = true ∨ (s.cohort (coreOfWarp w)).ctx.handler = 0) →
    ∀ p, s.pkg p ≠ {} → ((takeTrap s w i n).pkg p).ended.contains (s.asidOf (coreOfWarp w)) = true)

/-- R391: TRAP, BKPT and SYSC advance their thread and then trap with cause SW, BK or SC; ARG is bits 15:0 of IMM, $xdone names the
slot, and its saved program counter is that of the next instruction. -/
def Obligations.SoftwareTrapsEnterTheHandler : Prop :=
  ∀ (f : Long) (o : Opc) (i : Instr) (cause : Nat) (s : State) (t : Nat),
    (o = .trap ∧ i = .trap f ∧ cause = 32 ∨ o = .bkpt ∧ i = .bkpt f ∧ cause = 33 ∨ o = .sysc ∧ i = .sysc f ∧ cause = 34) →
    Alone s (Ins.ofBody o (.long f)) t →
    let w := t / 32
    let hd := (s.cohort (coreOfWarp w)).ctx.handler
    (s.warp w).handler = none → hd ≠ 0 → Runs i s fun s' =>
      (s'.warp w).xcause = BitVec.ofNat 32 ((f.imm.extractLsb' 0 16).toNat * 2 ^ 16 + t % 32 * 2 ^ 8 + cause) ∧
      (s'.warp w).xpc = (s.thread t).pc ∧ (s'.warp w).xdone = slotBit (t % 32) ∧ (s'.warp w).xaddr = 0 ∧
      (s'.warp w).xm = (s.warp w).m ∧ (s'.warp w).m = [] ∧
      (∃ h, (s'.warp w).handler = some h ∧ h.cause = cause ∧ kvGet 0 h.pcs (t % 32) = (s.thread t).pc + 12) ∧
      (∀ k < 32, (s'.thread (threadOf w k)).pc = hd) ∧ (∀ u r, s'.greg u r = s.greg u r) ∧ s'.mem = s.mem

/-- R24, R389, R392: RTT leaves the handler: the masks, w56 to w63 and the predicates come back, a slot of the replay set that has not exited starts
at $xpc, or after its instruction where its $xdone bit is set, and every other slot where it stood. Outside a handler it raises
cause PV. A start that breaks R24, and an instruction at $xpc that cannot be fetched, are faults in a handler, which end the context. -/
def Obligations.ReturnFromTrapRestoresTheWarp : Prop :=
  ∀ (f : Long) (s : State) (t : Nat),
    let w := t / 32
    let c := coreOfThread t
    let a := (s.warp w).xpc
    Turn s (Ins.ofBody .rtt (.long f)) t →
    ((s.warp w).handler = none → Traps (.rtt f) t 2 0 0 s) ∧
    (∀ h, (s.warp w).handler = some h →
      (badReturn s w false a = true → EndsContext (.rtt f) c s s) ∧
      (badReturn s w false a = false →
        (∀ e s2, fetchInstr s c a true = (.error e, s2) → EndsContext (.rtt f) c s s2) ∧
        (∀ j x s2, fetchInstr s c a true = (.ok j, s2) → j.ins? = some x →
          let b := a + BitVec.ofNat 64 x.size
          (badReturn s2 w true b = true → EndsContext (.rtt f) c s s2) ∧
          (badReturn s2 w true b = false → Runs (.rtt f) s fun s' =>
            (s'.warp w).handler = none ∧ (s'.warp w).m = (s.warp w).xm ∧ (∀ u r, s'.greg u r = s.greg u r) ∧ s'.mem = s2.mem ∧
            (∀ v : Nat → Word, h.w = (List.range 8).map (fun k => (56 + k, v k)) →
              (∀ k < 8, s'.wreg w (56 + k) = v k) ∧ ∀ r < 56, s'.wreg w r = s.wreg w r) ∧
            ∀ k < 32, (s'.thread (threadOf w k)).p = kvGet 0x80 h.preds k ∧
              ((s.thread (threadOf w k)).exited = false → h.replay.getLsbD k = true →
                (s'.thread (threadOf w k)).pc = if (s.warp w).xdone.getLsbD k then b else a) ∧
              ((s.thread (threadOf w k)).exited = true ∨ h.replay.getLsbD k = false →
                (s'.thread (threadOf w k)).pc = kvGet 0 h.pcs k)))))

/-! ### Moves and special registers -/

/-- R107: MOVX reads, and MOVXW writes, the register of its thread whose index its operand A gives; an index that the cohort's
registers do not reach raises cause XR; MOVX of a register that is empty or not yet readable waits at its instruction. The
register that MOVXW writes is full and its producer tag is cancelled. -/
def Obligations.IndexedMovesReachTheNamedRegister : Prop :=
  ∀ (i : Instr) (x : Ins) (s : State) (t : Nat) (v : Vals), i.ins? = some x → x.f.u = false → Turn s x t → gather s x t = .vals v →
    let r := (s.cohort (coreOfThread t)).r
    let d := x.f.d.toNat
    ((x.o = .movx ∨ x.o = .movxw) → r ≤ v.a → Traps i t 12 0 0 s) ∧
    (x.o = .movx → v.a < r →
      (((s.greg t v.a).full = false ∨ s.clk < (s.greg t v.a).rdy) → Lands i t s (s.hold t (.indexed v.a))) ∧
      ((s.greg t v.a).full = true → (s.greg t v.a).rdy ≤ s.clk → (∀ p, pushOf x = some p → pushRoom v.st (t / 32) p = true) →
        ∃ s1, Passes i x t s s1 ∧ (pushOf x = none → v.popped = false →
          (s1.greg t d).v = (s.greg t v.a).v ∧ (s1.greg t d).full = true ∧ Kept s s1 (regs t d 1) noReg noThread noReg))) ∧
    (x.o = .movxw → v.a < r → ∃ s1, Passes i x t s s1 ∧ (s1.greg t v.a).v = BitVec.ofNat 32 v.b ∧ (s1.greg t v.a).full = true ∧
      (s1.greg t v.a).tag = 0 ∧ (v.popped = false → Kept s s1 (regs t v.a 1) noReg noThread noReg))

/-- R104, R109, Table 5-2: MOVS reads and SETS writes a special register. One whose user view is none raises cause PV outside a
handler; a write of one that is read-only in the thread's view raises cause IO. -/
def Obligations.SpecialRegistersReadAndWrite : Prop :=
  ∀ (f : Long) (s : State) (t : Nat), f.u = false →
    let n := f.imm.toNat % 256
    let c := coreOfThread t
    let h := s.cohort c
    let w := s.warp (t / 32)
    (Turn s (Ins.ofBody .movs (.long f)) t → f.d.toNat < 240 →
      let x := Ins.ofBody .movs (.long f)
      (((0x11 ≤ n ∧ n ≤ 0x15) ∨ 0x20 ≤ n) → s.inHandler t = false → Traps (.movs f) t 2 0 0 s) ∧
      (¬ (((0x11 ≤ n ∧ n ≤ 0x15) ∨ 0x20 ≤ n) ∧ s.inHandler t = false) → ∃ s1, Passes (.movs f) x t s s1 ∧
        (∀ k < destN x, (s1.greg t (f.d.toNat + k)).v = BitVec.ofNat 32 (readSr s t n / 2 ^ (32 * k)) ∧
          (s1.greg t (f.d.toNat + k)).full = true) ∧
        Kept s s1 (regs t f.d.toNat (destN x)) noReg noThread noReg)) ∧
    (∀ m val, (m, val) ∈ [(0x00, t % 32), (0x01, t / 32 % 512), (0x02, t / 32 % 32), (0x03, c % 128), (0x04, dieOfCore c % 16),
        (0x05, pkgOfCore c), (0x06, h.index), (0x07, h.ncohort), (0x08, h.span), (0x09, h.nspan), (0x0A, h.strip),
        (0x0B, w.rank.toNat), (0x0D, (s.thread t).fstat.toNat), (0x0E, (s.core c).remstat.toNat),
        (0x10, h.window.toNat + (16 * h.strip + h.span) * 2 ^ 27), (0x12, w.xcause.toNat), (0x13, w.xpc.toNat),
        (0x14, w.xaddr.toNat), (0x15, w.xdone.toNat)] → readSr s t m = val) ∧
    (∀ k < 12, readSr s t (0x20 + k) = (kvGet 0 w.xm k).toNat) ∧
    (Turn s (Ins.ofBody .sets (.long f)) t →
      let x := Ins.ofBody .sets (.long f)
      (((0x11 ≤ n ∧ n ≤ 0x15) ∨ 0x20 ≤ n) → s.inHandler t = false → Traps (.sets f) t 2 0 0 s) ∧
      ((n ≤ 0x0C ∨ n = 0x0F ∧ s.inHandler t = false ∨ n = 0x10) → Traps (.sets f) t 1 0 0 s) ∧
      (∀ v, (n = 0x0D ∨ n = 0x0E ∨ s.inHandler t = true ∧ (n = 0x0F ∨ 0x11 ≤ n)) → gather s x t = .vals v →
        ∃ s1, Passes (.sets f) x t s s1 ∧ (∀ u r, s1.greg u r = s.greg u r) ∧ (∀ w r, s1.wreg w r = s.wreg w r) ∧
          (n = 0x0D → (s1.thread t).fstat = fstatMask (BitVec.ofNat 32 v.a) ∧ Kept s s1 noReg noReg (fun u => u = t) noReg) ∧
          (n = 0x0E → (s1.core c).remstat = remstatW1C (s.core c).remstat (BitVec.ofNat 32 v.a)) ∧
          (n = 0x0F → ∀ h, (s.core c).cohort = some h → (s1.cohort c).prio = v.a % 4) ∧
          (n = 0x13 → (s1.warp (t / 32)).xpc = BitVec.ofNat 64 v.a) ∧ (n = 0x14 → (s1.warp (t / 32)).xaddr = BitVec.ofNat 64 v.a) ∧
          (n = 0x15 → (s1.warp (t / 32)).xdone = BitVec.ofNat 32 v.a) ∧
          (∀ k < 12, n = 0x20 + k → kvGet 0 (s1.warp (t / 32)).xm k = BitVec.ofNat 32 v.a)))

/-- R110 to R112: FETEST gives a predicate a register's full/empty bit; PLOP gives a predicate the bit of its table that three predicates select; FESET makes a register full or empty and cancels its tag, its
contents as they were; p7 is true whatever is written to it; SLOTR gives a w register the value that a register of the named slot holds, SLOTW gives a register of the named slot a
w register's value and makes it full. -/
def Obligations.FullEmptyBitsAndSlots : Prop :=
  ∀ (f : Long) (s : State), (∀ u, s.pred u 7 = true) ∧
    (∀ t, Turn s (Ins.ofBody .fetest (.long f)) t → ∃ s1, Passes (.fetest f) (Ins.ofBody .fetest (.long f)) t s s1 ∧
      (f.d.toNat < 7 → s1.pred t f.d.toNat = (s.greg t f.a.toNat).full) ∧
      Kept s s1 noReg (regs t f.d.toNat 1) noThread noReg) ∧
    (∀ t, Turn s (Ins.ofBody .plop (.long f)) t → ∃ s1, Passes (.plop f) (Ins.ofBody .plop (.long f)) t s s1 ∧
      (f.d.toNat < 7 → s1.pred t f.d.toNat = f.imm.getLsbD
        (4 * (s.pred t f.a.toNat).toNat + 2 * (s.pred t f.b.toNat).toNat + (s.pred t f.c.toNat).toNat)) ∧
      Kept s s1 noReg (regs t f.d.toNat 1) noThread noReg) ∧
    (∀ t, Turn s (Ins.ofBody .feset (.long f)) t → ∃ s1, Passes (.feset f) (Ins.ofBody .feset (.long f)) t s s1 ∧
      s1.greg t f.d.toNat = { s.greg t f.d.toNat with full := !f.m.getLsbD 0, tag := 0 } ∧
      Kept s s1 (regs t f.d.toNat 1) noReg noThread noReg) ∧
    (∀ ps, Whole s (Ins.ofBody .slotr (.long f)) ps →
      let w := ps.headD 0 / 32
      let k := if f.m.getLsbD 0 then (s.wreg w f.b.toNat).toNat % 32 else f.imm.toNat % 32
      ∃ s1, PassesAll (.slotr f) (Ins.ofBody .slotr (.long f)) ps s s1 ∧
        ((s.greg (threadOf w k) f.a.toNat).rdy ≤ s.clk → s1.wreg w f.d.toNat = (s.greg (threadOf w k) f.a.toNat).v) ∧
        Kept s s1 noReg noReg noThread (regs w f.d.toNat 1)) ∧
    (∀ ps, Whole s (Ins.ofBody .slotw (.long f)) ps →
      let w := ps.headD 0 / 32
      let k := if f.m.getLsbD 0 then (s.wreg w f.b.toNat).toNat % 32 else f.imm.toNat % 32
      ∃ s1, PassesAll (.slotw f) (Ins.ofBody .slotw (.long f)) ps s s1 ∧
        (s1.greg (threadOf w k) f.d.toNat).v = s.wreg w f.a.toNat ∧ (s1.greg (threadOf w k) f.d.toNat).full = true ∧
        (s1.greg (threadOf w k) f.d.toNat).tag = 0 ∧ Kept s s1 (regs (threadOf w k) f.d.toNat 1) noReg noThread noReg)

/-! ### Exchanges -/

/-- R176 to R179: XCH, XIDX and BCST, in every form, give each thread of the pass the operand A of the thread in the slot that the instruction
names, or its identity where no thread of the pass is in that slot. -/
def Obligations.ExchangesReadTheNamedSlot : Prop :=
  ∀ (i : Instr) (x : Ins) (s : State) (ps : List Nat), i.ins? = some x → (x.o = .xch ∨ x.o = .xidx ∨ x.o = .bcst) → Whole s x ps →
    let k := x.f.imm.toNat % 32
    let src (u : Nat) : Option Nat :=
      if x.o = .xch then (if k ≤ u % 32 then some (u % 32 - k) else if x.mb 5 then none else some (u % 32 + 32 - k))
      else if x.o = .xidx then some (if x.mb 5 then k else (opnds s x u).2.1 % 32) else some k
    ∃ s1, PassesAll i x ps s s1 ∧ Kept s s1 (fun u r => u ∈ ps ∧ r = x.f.d.toNat) noReg noThread noReg ∧
      ∀ u ∈ ps, (s1.greg u x.f.d.toNat).full = true ∧
        (∀ v ∈ ps, src u = some (v % 32) → (s1.greg u x.f.d.toNat).v = BitVec.ofNat 32 (opnds s x v).1) ∧
        ((∀ v ∈ ps, src u ≠ some (v % 32)) → (s1.greg u x.f.d.toNat).v = BitVec.ofNat 32 (identity x (opnds s x u).2.2))

/-- R180, R181: SCAN gives each thread the combination of the values of the slots of the pass up to its own, or below it under .excl; REDW the
combination over the pass to a w register, REDWX the extreme value with its index to a pair; the short forms add modulo 2^32. -/
def Obligations.ScansAndReductionsCombineThePass : Prop :=
  ∀ (i : Instr) (x : Ins) (s : State) (ps : List Nat), i.ins? = some x → Whole s x ps →
    let w := ps.headD 0 / 32
    let val (u : Nat) : Nat := (opnds s x u).1
    (x.o = .scan → ∃ s1, PassesAll i x ps s s1 ∧
      Kept s s1 (fun u r => u ∈ ps ∧ r = x.f.d.toNat) noReg (fun u => u ∈ ps) noReg ∧
      ∀ u ∈ ps, (s1.greg u x.f.d.toNat).full = true ∧
        (s1.greg u x.f.d.toNat).v = BitVec.ofNat 32 (canonF x.f.t
          (combineAll x.order x.f.t ((ps.filter fun v => if x.mb 3 then v < u else v ≤ u).map val)).1) ∧
        ((∃ f, i = .scan f) → (s1.greg u x.f.d.toNat).v = BitVec.ofNat 32 ((ps.filter fun v => v ≤ u).map val).sum)) ∧
    (x.o = .redw → ∃ s1, PassesAll i x ps s s1 ∧ Kept s s1 noReg noReg (fun u => u ∈ ps) (regs w x.f.d.toNat 1) ∧
      s1.wreg w x.f.d.toNat = BitVec.ofNat 32 (canonF x.f.t (combineAll x.order x.f.t (ps.map val)).1) ∧
      ((∃ f, i = .redw f) → s1.wreg w x.f.d.toNat = BitVec.ofNat 32 (ps.map val).sum)) ∧
    (x.o = .redwx → ∃ s1, PassesAll i x ps s s1 ∧ Kept s s1 noReg noReg (fun u => u ∈ ps) (regs w x.f.d.toNat 2) ∧
      (ps.length = 32 → x.f.t = 1 → ∃ u ∈ ps, s1.wreg w x.f.d.toNat = BitVec.ofNat 32 (val u) ∧
        s1.wreg w (x.f.d.toNat + 1) = BitVec.ofNat 32 (if x.mb 7 then u % 32 else (opnds s x u).2.1) ∧
        ∀ v ∈ ps, if x.mb 0 then val v ≤ val u else val u ≤ val v))

/-- R182, R183: MATCH gives each thread the mask of the slots of the pass whose value equals its own; VOTE gives whether any or all
threads of the pass have the predicate, or the mask of those that have it; XLANE gives the register that the same slot of
the partner warp holds, or under .w the partner's w register, or the identity where the cohort has no such warp. -/
def Obligations.MatchVoteAndLaneExchange : Prop :=
  (∀ (i : Instr) (x : Ins) (s : State) (ps : List Nat), i.ins? = some x → Whole s x ps →
    let d := x.f.d.toNat
    let mask (p : Nat → Prop) (m : Word) : Prop := ∀ k < 32, m.getLsbD k = true ↔ ∃ v ∈ ps, v % 32 = k ∧ p v
    (x.o = .matchEq → ∃ s1, PassesAll i x ps s s1 ∧ Kept s s1 (fun u r => u ∈ ps ∧ r = d) noReg noThread noReg ∧
      ∀ u ∈ ps, mask (fun v => (opnds s x v).1 = (opnds s x u).1) (s1.greg u d).v) ∧
    (x.o = .vote → x.f.m = 2 → ∃ s1, PassesAll i x ps s s1 ∧ Kept s s1 (fun u r => u ∈ ps ∧ r = d) noReg noThread noReg ∧
      ∀ u ∈ ps, mask (fun v => s.pred v x.f.a.toNat = true) (s1.greg u d).v) ∧
    (x.o = .vote → x.f.m = 0 ∨ x.f.m = 1 → ∃ s1, PassesAll i x ps s s1 ∧
      Kept s s1 noReg (fun u k => u ∈ ps ∧ k = d) noThread noReg ∧ ∀ u ∈ ps, d < 7 → (s1.pred u d = true ↔
        if x.f.m = 0 then ∃ v ∈ ps, s.pred v x.f.a.toNat = true else ∀ v ∈ ps, s.pred v x.f.a.toNat = true))) ∧
  (∀ (i : Instr) (x : Ins) (s : State), i.ins? = some x → x.o = .xlane →
    let partner (w : Nat) : Option Nat :=
      let l := if x.mb 1 then (w % 32 + x.f.imm.toNat % 32) % 32 else (w % 32) ^^^ (x.f.imm.toNat % 32)
      let v := w - w % 32 + l
      if v % 512 < s.warpCount (coreOfWarp w) then some v else none
    (∀ t, x.mb 0 = false → Turn s x t → ∃ s1, Passes i x t s s1 ∧ Kept s s1 (regs t x.f.d.toNat 1) noReg noThread noReg ∧
      (s1.greg t x.f.d.toNat).full = true ∧
      (∀ v, partner (t / 32) = some v → (s.greg (threadOf v (t % 32)) x.f.a.toNat).rdy < s.clk →
        (s1.greg t x.f.d.toNat).v = (s.greg (threadOf v (t % 32)) x.f.a.toNat).v) ∧
      (partner (t / 32) = none → (s1.greg t x.f.d.toNat).v = BitVec.ofNat 32 (identity x (opnds s x t).2.2))) ∧
    (∀ ps, x.mb 0 = true → Whole s x ps →
      let w := ps.headD 0 / 32
      ∃ s1, PassesAll i x ps s s1 ∧ Kept s s1 noReg noReg noThread (regs w x.f.d.toNat 1) ∧
      (∀ v, partner w = some v → kvGet 0 (s.warp v).wrdy x.f.a.toNat < s.clk → s1.wreg w x.f.d.toNat = s.wreg v x.f.a.toNat) ∧
      (partner w = none → s1.wreg w x.f.d.toNat = BitVec.ofNat 32 (identity x (opnds s x (ps.headD 0)).2.2))))

/-! ### Memory -/

/-- R194, R198 to R204, R212: an access whose checks pass, and for which entries are free, is issued: the instruction completes,
the registers that its value will land in are empty, and a request for its bytes with its operands is under way; memory and every other
register are as before. Only a read of a G page may change a byte, where its die decodes an entry of its own remote-data cache to something
wrong (R233, R245). -/
def Obligations.AccessesAreIssued : Prop :=
  ∀ (i : Instr) (x : Ins) (k : ReqKind) (s : State) (t : Nat) (v : Vals) (p : Place), accessKind i = some k → i.ins? = some x →
    let core := coreOfThread t
    let n := accessSize k x
    let regN := max 1 (n / 4)
    Turn s x t → gather s x t = .vals v → checkAccess s k core (memAddr x v) n = .ok p →
    readEntries s core < 4096 → writeEntries s core < 2048 → ackCount s (t / 32) < 4095 →
    ∃ s1 id, Passes i x t s s1 ∧ (p.cls ≠ 1 → s1.mem = s.mem) ∧ s1.cellar = s.cellar ∧
      (s.MemOk → ∀ a, a / 64 ∉ rdcWays s (dieOfCore core) p.pa → memGet s1.mem a = memGet s.mem a) ∧
      (s1.req id).kind = k ∧ (s1.req id).thread = t ∧ (s1.req id).va = memAddr x v ∧ (s1.req id).cls = p.cls ∧
      (s1.req id).pa = p.pa ∧ (s1.req id).size = n ∧ (s1.req id).order = (if k = .ldc then 0 else x.order) ∧
      (k = .st → (s1.req id).data = leBytes n (gNum s t x.f.d.toNat regN)) ∧
      ((k = .atom ∨ k = .red) → (s1.req id).op = x.f.c.toNat ∧ (s1.req id).data = leBytes n v.b) ∧
      (k = .cas → (s1.req id).data = leBytes n v.b ∧ (s1.req id).data2 = leBytes n v.c) ∧
      (k = .ldb → (s1.req id).data = leBytes n v.b) ∧
      (isRead k = true → ∀ j < regN, (s1.greg t (x.f.d.toNat + j)).full = false ∧ (s1.greg t (x.f.d.toNat + j)).tag = id) ∧
      (∀ u r, ¬ (isRead k = true ∧ regs t x.f.d.toNat regN u r) → s1.greg u r = s.greg u r)

/-- R199, R261: the checks of an access are made in order, and the first that fails is raised, before anything is done: bits
63:56, alignment, translation and permission, the class of the page, the declared buffer, and for an access that its home answers at once the
line. An access whose translation is not at hand holds its
lane, and its thread stands where it stood. -/
def Obligations.AccessFaultsComeInOrder : Prop :=
  ∀ (i : Instr) (x : Ins) (k : ReqKind) (s : State) (t : Nat) (v : Vals),
    (accessKind i = some k ∨ (∃ f, i = .acc f) ∧ k = .acc ∨ (∃ f, i = .rack f) ∧ k = .rack) → i.ins? = some x →
    let core := coreOfThread t
    let n := accessSize k x
    let addr := memAddr x v
    Turn s x t → gather s x t = .vals v →
    (addr.extractLsb' 56 8 ≠ 0 → Traps i t 7 (accOf k) addr s) ∧
    (addr.extractLsb' 56 8 = 0 → addr.toNat % n ≠ 0 → Traps i t 8 (accOf k) addr s) ∧
    (addr.extractLsb' 56 8 = 0 → addr.toNat % n = 0 →
      (∀ c, xlate s core addr.toNat (accOf k) = .fault c → Traps i t c (accOf k) addr s) ∧
      (xlate s core addr.toNat (accOf k) = .miss →
        (∀ c, walkFault s addr.toNat = some c → Traps i t c (accOf k) addr s) ∧
        (walkFault s addr.toNat = none → Runs i s fun s' => s'.threads = s.threads ∧ s'.warps = s.warps ∧ s'.mem = s.mem ∧ s'.reqs = s.reqs)) ∧
      (∀ p, xlate s core addr.toNat (accOf k) = .ok p →
        (classFault s k p (s.asidOf core) = true → Traps i t 9 (accOf k) addr s) ∧
        (classFault s k p (s.asidOf core) = false → bufFault s k core p = true → Traps i t 15 (accOf k) addr s) ∧
        (∀ c, classFault s k p (s.asidOf core) = false → bufFault s k core p = false → k ≠ .acc → k ≠ .rack →
          lineFault s p.cls p.pa = some c → TrapsOn i t c (accOf k) addr s (noteLine s c p))))

/-- R202, R207, R229: PREF completes whatever its operands and its address, and changes no register and no memory but what a look into its die's
remote-data cache decodes; FENCE completes where its thread has no
access outstanding, an acquire at a scope beyond the core drops the L1 but for what LDC brought, and it holds its thread otherwise; FLSH clears the
core's L1, completes at the scope of the core, and holds its thread otherwise while its own die advances its generation. -/
def Obligations.PrefetchFenceAndFlush : Prop :=
  ∀ (f : Long) (s : State) (t : Nat),
    let c := coreOfThread t
    (Turn s (Ins.ofBody .pref (.long f)) t →
      let x := Ins.ofBody .pref (.long f)
      (∀ e, gather s x t = .fault e → Passes (.pref f) x t s s) ∧
      (∀ v, gather s x t = .vals v → ∃ s1, Passes (.pref f) x t s s1 ∧ (∀ u r, s1.greg u r = s.greg u r) ∧ s1.cellar = s.cellar ∧
        (s.errs = [] → s1.mem = s.mem) ∧
        (s.MemOk → ∀ a, (∀ p, checkAccess s .pref c (memAddr x v) 4 = .ok p → p.cls = 1 → a / 64 ∉ rdcWays s (dieOfCore c) p.pa) →
          memGet s1.mem a = memGet s.mem a))) ∧
    (Turn s (Ins.ofBody .fence (.long f)) t →
      let x := Ins.ofBody .fence (.long f)
      ((∀ r ∈ s.reqs, r.2.thread ≠ t) → ackCount s (t / 32) = 0 → ∃ s1, Passes (.fence f) x t s s1 ∧
        (isAcq x.order = true → 1 ≤ x.scope → (s1.core c).l1 = (s.core c).l1.filter fun e => e.2.ldc) ∧
        ((isAcq x.order = false ∨ x.scope = 0) → s1 = s)) ∧
      (fenceDone s t x.order x.scope = false → Lands (.fence f) t s (s.hold t (.fence x.order x.scope)))) ∧
    (Turn s (Ins.ofBody .flsh (.long f)) t →
      let x := Ins.ofBody .flsh (.long f)
      (x.scope ≤ 1 → ∃ s1, Passes (.flsh f) x t s s1 ∧ (s1.core c).l1 = []) ∧
      (x.scope = 2 → ∃ s1 id, Lands (.flsh f) t s s1 ∧ (s1.core c).l1 = [] ∧ (s1.thread t).hold = .reply id ∧
        (s1.thread t).pc = (s.thread t).pc ∧ (s.clk, .generationAdvance (dieOfCore c) id) ∈ s1.agenda))

/-- R262, R265: an ACC whose checks pass completes and changes no register and no memory; where its die's store holds an entry of the line that is
open, the word's sum and the entry's magnitude grow by the value. RACK holds its thread until home answers. -/
def Obligations.BoundedAccumulationIsIssued : Prop :=
  ∀ (f : Long) (s : State) (t : Nat) (v : Vals) (p : Place),
    let c := coreOfThread t
    let d := dieOfCore c
    let line := p.pa / 64
    (let x := Ins.ofBody .acc (.long f);
      Turn s x t → gather s x t = .vals v → checkAccess s .acc c (memAddr x v) 4 = .ok p →
      storeStuck s (accStore d p.pa) line = false →
      ∃ s1, Passes (.acc f) x t s s1 ∧ (∀ u r, s1.greg u r = s.greg u r) ∧ s1.mem = s.mem ∧
        (accStore d p.pa = d → (d = homeDie p.pa ∨ unreach s d (homeDie p.pa) = none) →
          ((s.die d).cask.any fun y => y.1 = line) = true →
          let e := kvGet {} (s.die d).cask line
          let e' := caskPlus e (p.pa % 64 / 4) (BitVec.ofNat 32 (bytesNat (leBytes 4 v.b))) s.clk
          e.opening = false → e'.mu.toNat ≤ e'.share.toNat → kvGet {} (s1.die d).cask line = e')) ∧
    (let x := Ins.ofBody .rack (.long f);
      Turn s x t → gather s x t = .vals v → checkAccess s .rack c (memAddr x v) 4 = .ok p →
      ∃ s1 id, Lands (.rack f) t s s1 ∧ (s1.thread t).hold = .reply id ∧ (s1.thread t).pc = (s.thread t).pc ∧
        (s1.req id).kind = .rack ∧ (s1.req id).pa = p.pa ∧ (∀ u r, s1.greg u r = s.greg u r) ∧ s1.mem = s.mem)

/-- R205, R206: BUFD declares a record for a range of cellar, and one that it refuses, or a use of a record that is not the context's own, raises cause
BD; BUFS returns the record word and notes its event, under .q the word alone; BUFF frees the record unless it is
DRAINING, which raises cause BS. -/
def Obligations.BufferInstructionsUseTheRecord : Prop :=
  ∀ (f : Long) (s : State) (t : Nat),
    let d := dieOfCore (coreOfThread t)
    (∀ v, Turn s (Ins.ofBody .bufd (.long f)) t → gather s (Ins.ofBody .bufd (.long f)) t = .vals v →
      let r := kvGet {} (s.die d).buf f.d.toNat
      let bad := bufdPlace s t f.d.toNat (BitVec.ofNat 64 v.a) v.b v.c true true
      (bad = none → Traps (.bufd f) t 16 0 (BitVec.ofNat 64 v.a) s) ∧
      (∀ base, bad = some base → ∃ s1, Passes (.bufd f) (Ins.ofBody .bufd (.long f)) t s s1 ∧
        (r.decl = true → s1 = s) ∧
        (r.decl = false →
          let r' := kvGet {} (s1.die d).buf f.d.toNat
          r'.decl = true ∧ r'.state = 0 ∧ r'.landed = 0 ∧ r'.base = base ∧ r'.size = v.b ∧ r'.expect = v.c ∧
          r'.owner = s.asidOf (coreOfThread t) ∧ ∀ u k, s1.greg u k = s.greg u k))) ∧
    (∀ (i : Instr) (q : Bool) (x : Ins), (i = .bufs f ∧ q = false ∨ i = .bufsQ f ∧ q = true) → i.ins? = some x →
      x.mb 0 = q → f.u = false → f.d.toNat < 240 → Turn s x t →
      (∀ r, ownBuf s t f.a.toNat = some r → ∃ s1, Passes i x t s s1 ∧ (s1.greg t f.d.toNat).v = bufWord r ∧
        (s1.greg t f.d.toNat).full = true ∧ (q = true → Kept s s1 (regs t f.d.toNat 1) noReg noThread noReg) ∧
        (q = false → (kvGet {} (s1.die d).buf f.a.toNat).setFull = true ∧ s1.posted (.bufferStateChange d f.a.toNat) = true)) ∧
      (ownBuf s t f.a.toNat = none → (q = false ∨
          (kvGet {} (s.die d).buf f.a.toNat).decl = true ∧ (kvGet {} (s.die d).buf f.a.toNat).from_ ≤ s.clk) → Traps i t 16 0 0 s) ∧
      (q = true → (kvGet {} (s.die d).buf f.a.toNat).decl = false → ∃ s1, Passes i x t s s1 ∧ (s1.greg t f.d.toNat).v = 0 ∧
        Kept s s1 (regs t f.d.toNat 1) noReg noThread noReg)) ∧
    (f.u = false → f.d.toNat < 240 → Turn s (Ins.ofBody .buff (.long f)) t →
      (ownBuf s t f.a.toNat = none → Traps (.buff f) t 16 0 0 s) ∧
      (∀ r, ownBuf s t f.a.toNat = some r → (r.state = 3 → Traps (.buff f) t 15 0 0 s) ∧
        (r.state ≠ 3 → ∃ s1, Passes (.buff f) (Ins.ofBody .buff (.long f)) t s s1 ∧ (s1.greg t f.d.toNat).v = bufWord r ∧
          (kvGet {} (s1.die d).buf f.a.toNat).drop = true ∧ s1.posted (.bufferStateChange d f.a.toNat) = true)))

/-- R195, R200, R203, R204: where an access is performed, it takes the bytes of its place and, as one action, stores write theirs, atomics the new
value that their operation makes of the old, and CAS its new value where the old one equals the compared; no other byte changes, but
that a write of a G page of another die may refresh an entry of its own die's remote-data cache (R245). -/
def Obligations.AccessesPerformAtTheirPlace : Prop :=
  ∀ (s : State) (id : Nat), Memory.wf s.mem = true → Memory.wf s.cellar = true →
    let r := s.req id
    let old := bytesNat (bytesAt s r.cls r.pa r.size)
    let s' := performReq s id
    let d := dieOfCore r.core
    let cached (a : Nat) : Prop := r.cls = 1 ∧ homeDie r.pa ≠ d ∧ (s.die d).rdcSize ≠ 0 ∧ a / 64 ∈ rdcWays s d r.pa
    let clean (n : Nat) : Prop := ∀ k < n, ¬ cached (r.pa + k)
    let outside (l : List Byte) : Prop := ∀ c a n, ((c = 4 ↔ r.cls ≠ 4) ∨ a + n ≤ r.pa ∨ r.pa + l.length ≤ a) →
      (c = 4 ∨ ∀ k < n, ¬ cached (a + k)) → bytesAt s' c a n = bytesAt s c a n
    (s'.req id).value = old ∧ (s'.req id).stage = 2 ∧ (∀ u k, s'.greg u k = s.greg u k) ∧
    (r.kind = .st → (clean r.data.length → bytesAt s' r.cls r.pa r.data.length = r.data) ∧ outside r.data) ∧
    ((r.kind = .ld ∨ r.kind = .ldc ∨ r.kind = .pref) → ∀ c a n, bytesAt s' c a n = bytesAt s c a n) ∧
    (r.kind = .cas → (old = bytesNat r.data → (clean r.data2.length → bytesAt s' r.cls r.pa r.data2.length = r.data2) ∧ outside r.data2) ∧
      (old ≠ bytesNat r.data → ∀ c a n, bytesAt s' c a n = bytesAt s c a n)) ∧
    ((r.kind = .atom ∨ r.kind = .red) →
      let b := bytesNat r.data
      let new := bytesNat (bytesAt s' r.cls r.pa r.size)
      let w := 2 ^ (8 * r.size)
      outside (leBytes r.size 0) ∧ (clean r.size → new = atomNew r.op r.ty old b % w) ∧
      (clean r.size → r.ty = 1 → r.size = 4 → b < 2 ^ 32 →
        (r.op = 0 → new = (old + b) % 2 ^ 32) ∧ (r.op = 1 → new = min old b) ∧ (r.op = 2 → new = max old b) ∧
        (r.op = 3 → new = old &&& b) ∧ (r.op = 4 → new = old ||| b) ∧ (r.op = 5 → new = old ^^^ b) ∧ (r.op = 6 → new = b) ∧
        (r.op = 7 → new = if b ≤ old then 0 else old + 1) ∧ (r.op = 8 → new = if old = 0 ∨ b < old then b else old - 1)))

/-! ### Barrier objects, convergence registers and counters -/

/-- R268, R270: BALLOC takes the core's free object of the lowest index, gives it its count, its references and the next
generation, and every thread of the sub-run its handle and a true predicate; without a free object a zero and a false predicate;
a count of 0 or above 16,384, or of no references, raises cause BU. With counts in their range it always completes. -/
def Obligations.BallocTakesTheLowestFreeObject : Prop :=
  ∀ (f : Long) (s : State) (ps : List Nat) (v : Vals),
    let x := Ins.ofBody .balloc (.long f)
    let t := ps.headD 0
    let c := coreOfThread t
    let n := if x.mb 7 then f.imm.toNat % 2 ^ 15 else v.b % 2 ^ 15
    let refs := f.imm.toNat / 2 ^ 16 % 2 ^ 16
    let d := f.d.toNat
    Whole s x ps → gather s x t = .vals v →
    ((n = 0 ∨ 16384 < n ∨ refs = 0) → Traps (.balloc f) t 20 0 0 s) ∧
    (0 < n → n ≤ 16384 → 0 < refs →
      (∃ s1, PassesAll (.balloc f) x ps s s1 ∧ s1.mem = s.mem) ∧
      ((∀ i < 64, (barAt s c i).alloc = true) → ∃ s1, PassesAll (.balloc f) x ps s s1 ∧
        ∀ u ∈ ps, (s1.greg u d).v = 0 ∧ (f.a.toNat < 7 → s1.pred u f.a.toNat = false)) ∧
      (∀ i < 64, (barAt s c i).alloc = false → (∀ j < i, (barAt s c j).alloc = true) →
        let g := (barAt s c i).gen % 127 + 1
        ∃ s1, PassesAll (.balloc f) x ps s s1 ∧
          barAt s1 c i = { asid := s.asidOf c, gen := g, alloc := true, nb := x.mb 0, refs := refs,
                           expected := n, pendArr := n } ∧
          (∀ j, j ≠ i → barAt s1 c j = barAt s c j) ∧
          ∀ u ∈ ps, (s1.greg u d).v = handleOf c i g ∧ (f.a.toNat < 7 → s1.pred u f.a.toNat = true)))

/-- R269, R271, R272, R274: BARV, BEXP, BWAIT, BTEST and BFREE on an object of their own core. A handle that is not live raises cause BH.
BARV and BEXP give the phase and take their arrivals and bytes from the object; BTEST gives whether the phase is complete; BWAIT
goes on or is held; BFREE lowers the references and frees the object at 0. -/
def Obligations.LocalBarrierInstructions : Prop :=
  ∀ (f : Long) (o : Opc) (i : Instr) (s : State) (t : Nat) (v : Vals),
    (o = .barv ∧ i = .barv f ∨ o = .bexp ∧ i = .bexp f ∨ o = .bwait ∧ i = .bwait f ∨ o = .btest ∧ i = .btest f ∨
      o = .bfree ∧ i = .bfree f) →
    let x := Ins.ofBody o (.long f)
    let c := coreOfThread t
    let h : Word := BitVec.ofNat 32 v.a
    let k := handleIdx h
    let b := barAt s c k
    let n := if o = .bexp then f.m.toNat % 2 else f.imm.toNat % 2 ^ 15
    let e : Option Nat := if o = .bexp then some v.b else none
    let frees := f.imm.toNat % 2 ^ 16
    (if o = .bfree then Whole s x [t] else Turn s x t) → gather s x t = .vals v → (s.thread t).due = 0 → handleCore h = c →
    (live s h (s.asidOf c) = false → Traps i t 19 0 0 s) ∧
    (live s h (s.asidOf c) = true →
      ((o = .barv ∨ o = .bexp) → (o = .barv → 0 < n ∧ n ≤ 16384) →
        (∀ y, barUpdate b n e = .inl y → Traps i t y 0 0 s) ∧
        (∀ b', barUpdate b n e = .inr b' →
          ((n = 0 ∨ released s t = true) → ∃ s1, Passes i x t s s1 ∧ (s1.greg t f.d.toNat).v = BitVec.ofNat 32 b.phase.toNat ∧
            (s1.greg t f.d.toNat).full = true ∧ barAt s1 c k = { b' with dirty := some s.clk } ∧
            b'.pendArr + n = b.pendArr ∧ (o = .bexp → b'.pendBytes = b.pendBytes + v.b ∧ b'.posted = true)) ∧
          (0 < n → released s t = false → Lands i t s (s.hold t .order)))) ∧
      (o = .barv → (n = 0 ∨ 16384 < n) → Traps i t 20 0 0 s) ∧
      ((o = .bwait ∨ o = .btest) → b.ovf = true → Traps i t 21 0 0 s) ∧
      (o = .bwait → b.ovf = false →
        (b.phase ≠ decide (v.b % 2 = 1) → ∃ s1, Passes i x t s s1 ∧ ∀ u r, s1.greg u r = s.greg u r) ∧
        (b.phase = decide (v.b % 2 = 1) → Lands i t s (s.hold t (.phase c k (handleGen h) b.phase)))) ∧
      (o = .btest → b.ovf = false → ∃ s1, Passes i x t s s1 ∧
        (f.d.toNat < 7 → s1.pred t f.d.toNat = decide (b.phase ≠ decide (v.b % 2 = 1))) ∧ ∀ u r, s1.greg u r = s.greg u r) ∧
      (o = .bfree → frees = 0 → Traps i t 20 0 0 s) ∧
      (o = .bfree → frees ≠ 0 →
        (b.refs < frees → Traps i t 20 0 0 s) ∧
        (frees ≤ b.refs → ∃ s1, PassesAll i x [t] s s1 ∧ (barAt s1 c k).refs = b.refs - frees ∧
          ((barAt s1 c k).alloc = true ↔ b.refs ≠ frees))))

/-- R275: a barrier instruction on an object of another core sends a message with its handle and operand; BARV and BEXP complete and
their register is empty until the reply, the others are held for it. That the 48 clk of R275 are never more is the
model's choice (notes/assumptions/1.md). -/
def Obligations.RemoteBarrierInstructionsSendAMessage : Prop :=
  ∀ (f : Long) (o : Opc) (i : Instr) (op : Nat) (arg : Vals → Nat) (s : State) (t : Nat) (v : Vals),
    (o = .barv ∧ i = .barv f ∧ op = 0 ∧ (arg = fun _ => f.imm.toNat % 2 ^ 15) ∧ 0 < f.imm.toNat % 2 ^ 15 ∧ f.imm.toNat % 2 ^ 15 ≤ 16384 ∨
      o = .bexp ∧ i = .bexp f ∧ op = 1 + f.m.toNat % 2 ∧ (arg = fun v => v.b) ∨
      o = .btest ∧ i = .btest f ∧ op = 3 ∧ (arg = fun v => v.b % 2) ∨ o = .bwait ∧ i = .bwait f ∧ op = 4 ∧ (arg = fun v => v.b % 2)) →
    let x := Ins.ofBody o (.long f)
    let c := coreOfThread t
    let h : Word := BitVec.ofNat 32 v.a
    Turn s x t → gather s x t = .vals v → (s.thread t).due = 0 → natBits h.toNat 13 3 = 0 → handleCore h ≠ c →
    dieOfCore (handleCore h) = dieOfCore c → released s t = true →
    let m (id : Nat) : BarrierMsg := ⟨op, t, h, BitVec.ofNat 32 (arg v), f.d.toNat, id, BitVec.ofNat 12 (s.asidOf c), (s.core c).epoch⟩
    (op ≤ 2 → ∃ s1 id, Passes i x t s s1 ∧ (s1.greg t f.d.toNat).full = false ∧ (s1.greg t f.d.toNat).tag = id ∧
      (s.clk + 48, .barrierMessage (m id)) ∈ s1.agenda) ∧
    (2 < op → ∃ s1 id, Lands i t s s1 ∧ (s1.thread t).hold = .reply id ∧ (∀ u r, s1.greg u r = s.greg u r) ∧
      (s.clk + 48, .barrierMessage (m id)) ∈ s1.agenda)

/-- R272, R273: an object whose arrivals and bytes are all in completes its phase at the test at the end of the clk: the parity changes and
the arrivals are expected anew; otherwise it stands; an object that counts bytes does not complete before bytes were posted. -/
def Obligations.BarrierPhaseCompletes : Prop :=
  ∀ (b : Barrier), (barTest b).alloc = b.alloc ∧ (barTest b).gen = b.gen ∧ (barTest b).expected = b.expected ∧ (barTest b).refs = b.refs ∧
    (b.alloc = true → b.ovf = false → b.pendArr = 0 → b.pendBytes = 0 → (b.posted = true ∨ b.nb = true) →
      (barTest b).phase = !b.phase ∧ (barTest b).pendArr = b.expected ∧ (barTest b).posted = false) ∧
    ((b.alloc = false ∨ b.ovf = true ∨ b.pendArr ≠ 0 ∨ b.pendBytes ≠ 0 ∨ b.posted = false ∧ b.nb = false) →
      barTest b = { b with dirty := none }) ∧
    (∀ n : Nat, b.nb = false → -(2 ^ 39) ≤ b.pendBytes - n → (barLand b n).pendBytes = b.pendBytes - n ∧ (barLand b n).ovf = b.ovf) ∧
    (∀ n : Nat, b.nb = false → b.pendBytes - n < -(2 ^ 39) → (barLand b n).ovf = true) ∧
    (∀ n : Nat, b.nb = true → barLand b n = b)

/-- R278, R281, R282: CSIGN signs the round of a convergence register and is held for it; a size that is 0, above 1,024 or another than the round's, or a
round already full, raises cause CV. WAITC goes on where the counters it names are at most k, and is held otherwise; CNTR writes the six counters, and
zero in every other bit. -/
def Obligations.ConvergenceAndCounters : Prop :=
  ∀ (f : Long) (s : State) (t : Nat),
    let c := coreOfThread t
    let w := t / 32
    (∀ v, Turn s (Ins.ofBody .csign (.long f)) t → gather s (Ins.ofBody .csign (.long f)) t = .vals v →
      let size := if f.m.getLsbD 7 then f.imm.toNat % 2 ^ 11 else v.b % 2 ^ 11
      let r := cvAt s c f.a.toNat
      ((size = 0 ∨ 1024 < size ∨ r.size ≠ 0 ∧ (size ≠ r.size ∨ r.signers.length = r.size)) → Traps (.csign f) t 22 0 0 s) ∧
      (0 < size → size ≤ 1024 → (r.size = 0 ∨ r.size = size ∧ r.signers.length ≠ r.size) →
        ∃ s1, Lands (.csign f) t s s1 ∧ (s1.thread t).hold = .round f.a.toNat f.d.toNat ∧ (s1.thread t).pc = (s.thread t).pc ∧
          cvAt s1 c f.a.toNat = { r with size := size, signers := r.signers ++ [t] } ∧ (∀ u k, s1.greg u k = s.greg u k) ∧
          (r.bound.isSome = true → r.signers.length + 1 = size → s1.posted (.roundFire c f.a.toNat) = true))) ∧
    (Turn s (Ins.ofBody .waitc (.long f)) t →
      let x := Ins.ofBody .waitc (.long f)
      ((∀ q < 6, f.m.getLsbD q = true → counter s w q ≤ f.imm.toNat % 64) → Passes (.waitc f) x t s s) ∧
      ((∃ q < 6, f.m.getLsbD q = true ∧ f.imm.toNat % 64 < counter s w q) →
        Lands (.waitc f) t s (s.hold t (.counters f.m.toNat (f.imm.toNat % 64))))) ∧
    (Turn s (Ins.ofBody .cntr (.long f)) t → f.u = false → f.d.toNat < 239 →
      ∃ s1, Passes (.cntr f) (Ins.ofBody .cntr (.long f)) t s s1 ∧ Kept s s1 (regs t f.d.toNat 2) noReg noThread noReg ∧
        (∀ q < 6, (s1.gpair t f.d.toNat).toNat / 2 ^ (8 * q) % 2 ^ 8 = counter s w q % 64) ∧
        (s1.gpair t f.d.toNat).toNat < 2 ^ 48)

/-! ### Engines -/

/-- R285, R295: CPY issues a shaped copy of class K: its sizes from the literal, its strides from registers or dense, its barrier and buffer as
named. A total above 2^32 raises cause EO, an address with bits 63:56 set cause AS, a bad barrier or buffer its cause; without free slots and
counter room for the threads of the sub-run that perform, the whole sub-run waits before any of them. CPYQ gives each thread the free slots, or under .st the failure word,
which the sub-run's first thread clears, and the depths of the queues. -/
def Obligations.CopyIssuesAnOperation : Prop :=
  (∀ (f : Long) (l : Dword) (s : State) (t : Nat) (v : Vals),
    let x := Ins.ofBody .cpy (.longLit f l)
    let sz (lo n : Nat) : Nat := natBits x.lit.toNat lo n + 1
    let shape := [sz 0 18, sz 18 12, sz 30 12, sz 42 12]
    let total := sz 0 18 * sz 18 12 * sz 30 12 * sz 42 12
    let dense : List Int := [(sz 0 18 : Int), (sz 0 18 * sz 18 12 : Nat), (sz 0 18 * sz 18 12 * sz 30 12 : Nat)]
    let strides := if x.mb 7 then dense ++ dense else (List.range 6).map fun i => (s.greg t (f.c.toNat + i)).v.toInt
    let src : Dword := BitVec.ofNat 64 v.a
    let dst : Dword := BitVec.ofNat 64 (gNum s t f.d.toNat 2)
    let sp := sideSpan src (strides.take 3) shape
    let dp := sideSpan dst (strides.drop 3) shape
    let side := if x.ib 3 then sp else dp
    Turn s x t →
    (¬ Begun s t → ∀ h, subHold s x t 0 = some h → HoldsAll (.cpy f l) x t h s) ∧
    ((Begun s t ∨ subHold s x t 0 = none) → gather s x t = .vals v →
      (2 ^ 32 < total → Traps (.cpy f l) t 24 0 0 s) ∧
      (total ≤ 2 ^ 32 → (∀ a, [sp.1, sp.2, dp.1, dp.2].find? (fun a => a.extractLsb' 56 8 ≠ 0) = some a → Traps (.cpy f l) t 7 0 a s) ∧
        ((∀ a ∈ [sp.1, sp.2, dp.1, dp.2], a.extractLsb' 56 8 = 0) →
          (∀ c a, nameBarBuf s x t v.b true side.1 side.2 (opOf s t .cpy 0) = .inl (c, a) → Traps (.cpy f l) t c 0 a s) ∧
          (∀ p, nameBarBuf s x t v.b true side.1 side.2 (opOf s t .cpy 0) = .inr p → ∃ s1 o, Passes (.cpy f l) x t s s1 ∧ Issued s s1 t 0 o ∧
            (s1.op o).kind = .cpy ∧ (s1.op o).src = src ∧ (s1.op o).dst = dst ∧ (s1.op o).shape = shape ∧ (s1.op o).strides = strides ∧
            (s1.op o).total = total ∧ (s1.op o).bar = (if x.mb 6 then some (BitVec.ofNat 32 v.b) else none) ∧
            (s1.op o).buf = (if x.ib 2 then some (x.ifld 8 6) else none)))))) ∧
  (∀ (f : Long) (s : State) (t : Nat) (r : Run),
    let x := Ins.ofBody .cpyq (.long f)
    let w := t / 32
    let d := dieOfCore (coreOfWarp w)
    let first : Bool := decide (r.warp ≠ w ∨ r.done = 0)
    Turn s x t → (s.lane s.cur).run = some r → ∃ s1, Passes (.cpyq f) x t s s1 ∧
      (s1.greg t f.d.toNat).v = (if x.mb 0 then (if first then (s.warp w).engFail else (s.warp w).cpyWord)
        else BitVec.ofNat 32 (1024 - slotsUsed s (coreOfWarp w))) ∧
      (∀ q < 4, (s1.greg t (f.d.toNat + 1)).v.toNat / 2 ^ (8 * q) % 2 ^ 8 = waitingUnits s d q) ∧
      (s1.warp w).engFail = (if x.mb 0 && first then 0 else (s.warp w).engFail) ∧
      (∀ u k, ¬ regs t f.d.toNat 2 u k → s1.greg u k = s.greg u k) ∧ s1.mem = s.mem ∧ s1.cellar = s.cellar)

/-- R296, R297, R371, R372: GATH and SCAT issue an operation of class G on an index list, PUTN and GETN one of class F on a range, with the sizes and addresses
of their operands; a size out of its limits raises cause EO, a misaligned list or flag cause AD, and missing slots or counter room hold the
sub-run. -/
def Obligations.GatherAndPutIssueAnOperation : Prop :=
  (∀ (f : Long) (l : Dword) (i : Instr) (o : Opc) (s : State) (t : Nat) (v : Vals), (o = .gath ∧ i = .gath f l ∨ o = .scat ∧ i = .scat f l) →
    let x := Ins.ofBody o (.longLit f l)
    let nrow := natBits x.lit.toNat 0 16 + 1
    let rsz := (natBits x.lit.toNat 16 8 + 1) * 32
    let src : Dword := BitVec.ofNat 64 v.a
    let dst : Dword := BitVec.ofNat 64 (gNum s t f.d.toNat 2)
    let list : Dword := BitVec.ofNat 64 v.b
    let lo := if o = .scat then src else dst
    Turn s x t →
    (¬ Begun s t → ∀ h, subHold s x t 1 = some h → HoldsAll i x t h s) ∧
    ((Begun s t ∨ subHold s x t 1 = none) → gather s x t = .vals v →
      (2 ^ 32 < nrow * rsz → Traps i t 24 0 0 s) ∧
      (nrow * rsz ≤ 2 ^ 32 → src.extractLsb' 56 8 = 0 → dst.extractLsb' 56 8 = 0 → list.extractLsb' 56 8 = 0 →
        (list.toNat % 4 ≠ 0 → Traps i t 8 0 list s) ∧
        (list.toNat % 4 = 0 → (x.ib 2 = true → (x.ib 3 = true ↔ o = .scat)) →
          ∀ p, nameBarBuf s x t v.c true lo (lo + BitVec.ofNat 64 (nrow * rsz - 1)) (opOf s t o 1) = .inr p →
          ∃ s1 n, Passes i x t s s1 ∧ Issued s s1 t 1 n ∧ (s1.op n).kind = o ∧ (s1.op n).src = src ∧ (s1.op n).dst = dst ∧
            (s1.op n).idx = list ∧ (s1.op n).total = nrow * rsz ∧ (s1.op n).shape = [nrow, rsz, natBits x.lit.toNat 24 32])))) ∧
  (∀ (f : Long) (i : Instr) (o : Opc) (s : State) (t : Nat) (v : Vals), (o = .putn ∧ i = .putn f ∨ o = .getn ∧ i = .getn f) →
    let x := Ins.ofBody o (.long f)
    let src : Dword := BitVec.ofNat 64 v.a
    let dst : Dword := BitVec.ofNat 64 (gNum s t f.d.toNat 2)
    let flag : Dword := if o = .putn then BitVec.ofNat 64 v.b else 0
    let p := opOf s t o 5
    Turn s x t →
    (¬ Begun s t → ∀ h, subHold s x t 5 = some h → HoldsAll i x t h s) ∧
    ((Begun s t ∨ subHold s x t 5 = none) → gather s x t = .vals v →
      ((v.c = 0 ∨ 2 ^ 26 < v.c) → Traps i t 24 0 0 s) ∧
      (0 < v.c → v.c ≤ 2 ^ 26 → src.extractLsb' 56 8 = 0 → dst.extractLsb' 56 8 = 0 → flag.extractLsb' 56 8 = 0 →
        (o = .putn → flag.toNat % 4 ≠ 0 → Traps i t 8 0 flag s) ∧
        (flag.toNat % 4 = 0 →
          rangesFault s p ([(src.toNat, v.c, 1), (dst.toNat, v.c, 2)] ++ if o = .putn then [(flag.toNat, 4, 2)] else []) = none →
          (o = .putn → ∀ q, engXlate s p flag.toNat 2 = .ok q → q.cls ≠ 3) →
          (o = .getn → x.mb 6 = true → live s (BitVec.ofNat 32 v.b) p.asid = true) →
          ∃ s1 n, Passes i x t s s1 ∧ Issued s s1 t 5 n ∧ (s1.op n).kind = o ∧ (s1.op n).src = src ∧ (s1.op n).dst = dst ∧
            (s1.op n).total = v.c ∧ (s1.op n).flag = flag ∧ (s1.op n).inc = f.imm.toNat % 2 ^ 16))))

/-- R309, R311, R315 to R320, R323, R326: WLD, WSWP, MMS, MMG, ACCZ, ACCM, ACCS and MVB issue one operation for their sub-run once the queue and the counter
have room; the first check of R311 that fails is raised, before anything is done. WSWP, ACCZ and ACCM have none, MMS has those of its buffer, and a WLD
whose address is no multiple of 64 raises cause AD. -/
def Obligations.AnvilInstructionsIssueAnOperation : Prop :=
  (∀ (i : Instr) (x : Ins) (body : Ins → Nat → Vals → State → (Nat × Nat × Dword) ⊕ Op) (cls : Nat) (s : State) (ps : List Nat) (v : Vals),
    let t := ps.headD 0
    ((∃ f, i = .wld f) ∧ body = wldBody ∧ cls = 2 ∨ (∃ f, i = .wswp f) ∧ body = wswpBody ∧ cls = 2 ∨ (∃ f, i = .mms f) ∧ body = mmsBody ∧ cls = 2 ∨
      (∃ f, i = .mmg f) ∧ body = mmgBody ∧ cls = 2 ∨ (∃ f, i = .accz f) ∧ body = acczBody ∧ cls = 2 ∨
      (∃ f, i = .accm f) ∧ body = acczBody ∧ cls = 2 ∨ (∃ f, i = .accs f) ∧ body = accsBody ∧ cls = 2 ∨
      (∃ f l, i = .mvb f l) ∧ body = mvbBody ∧ cls = 4) →
    i.ins? = some x → Whole s x ps → gather s x t = .vals v →
    (if cls = 2 then (s.core (coreOfThread t)).anvilQ.length < 64 ∧ counter s (t / 32) 2 < 63 else counter s (t / 32) 4 < 63) →
    (∀ c acc a, body x t v s = .inl (c, acc, a) → Traps i t c acc a s) ∧
    (∀ p, body x t v s = .inr p → ∃ s1 o, PassesAll i x ps s s1 ∧ Issued s s1 t cls o ∧ (∃ l, s1.op o = { p with after := l }) ∧
      (cls = 2 → (s1.core (coreOfThread t)).anvilQ = (s.core (coreOfThread t)).anvilQ ++ [o]))) ∧
  (∀ (x : Ins) (t : Nat) (v : Vals) (s : State),
    wswpBody x t v s = .inr (opOf s t .wswp 2) ∧
    (∃ p, acczBody x t v s = .inr p ∧ p.tile = x.f.d.toNat ∧ p.value = BitVec.ofNat 32 v.a ∧ p.kind = x.o) ∧
    ((BitVec.ofNat 64 v.a : Dword).extractLsb' 56 8 = 0 → x.ib 4 = false → v.a % 64 ≠ 0 → wldBody x t v s = .inl (8, 0, BitVec.ofNat 64 v.a)) ∧
    (bufCheck s t x.f.a.toNat v.b ((x.ifld 8 6 + 1) * rowBytes (x.ifld 16 4) 64 + if x.ib 20 then 2 * (x.ifld 8 6 + 1) else 0) (!v.lackB) = none →
      ∃ p, mmsBody x t v s = .inr p ∧ p.kind = .mms ∧ p.tile = x.f.d.toNat ∧ p.row0 = x.ifld 0 6 ∧ p.rows = x.ifld 8 6 + 1 ∧
        p.fmt = x.ifld 16 4 ∧ p.buf = some x.f.a.toNat))

/-- R317, R321, R322: MMA binds its operation to a free round of its convergence register, of its own size or none yet, and raises cause CV otherwise. ACCR
reads elements of a tile that no earlier operation still uses, and they land 8 clks later; ACCW writes them and no others; an element that is not aligned to
the width raises cause AO, and a tile in use holds the thread. ACCR.st gives the warp's status word and clears it. -/
def Obligations.TilesAreReadAndWritten : Prop :=
  (∀ (f : Long) (s : State) (ps : List Nat),
    let x := Ins.ofBody .mma (.long f)
    let t := ps.headD 0
    let c := coreOfThread t
    let r := cvAt s c f.a.toNat
    let n := f.imm.toNat / 2 ^ 8 % 2 ^ 6 + 1
    Whole s x ps → (s.core c).anvilQ.length < 64 → counter s (t / 32) 2 < 63 →
    ((r.bound.isSome = true ∨ r.size ≠ 0 ∧ r.size ≠ n) → Traps (.mma f) t 22 0 0 s) ∧
    (r.bound = none → (r.size = 0 ∨ r.size = n) → ∃ s1 o, PassesAll (.mma f) x ps s s1 ∧ Issued s s1 t 2 o ∧ (s1.op o).kind = .mma ∧
      (s1.op o).tile = f.d.toNat ∧ (s1.op o).row0 = f.imm.toNat % 2 ^ 6 ∧ (s1.op o).rows = n ∧
      cvAt s1 c f.a.toNat = { r with size := n, bound := some o })) ∧
  (∀ (f : Long) (s : State) (t : Nat) (v : Vals),
    let c := coreOfThread t
    (∀ x, x = Ins.ofBody .accr (.long f) → x.mb 0 = false → Turn s x t → gather s x t = .vals v → (s.thread t).pass = none →
      let n := accWidth x
      let pos := if x.mb 1 then f.imm.toNat else v.b
      (pos % 64 % n ≠ 0 → Traps (.accr f) t 23 0 0 s) ∧
      (pos % 64 % n = 0 →
        ((∃ o ∈ tileOps s c f.a.toNat, o < s.nextId) → Lands (.accr f) t s (s.hold t (.tile f.a.toNat s.nextId))) ∧
        (tileOps s c f.a.toNat = [] → ∃ s1 l, Passes (.accr f) x t s s1 ∧ (s.clk + 8, .producerLanding l) ∈ s1.agenda ∧
          l.thread = t ∧ l.reg = f.d.toNat ∧ l.n = n ∧
          (∀ m < n, (s1.greg t (f.d.toNat + m)).full = false ∧ (s1.greg t (f.d.toNat + m)).tag = l.tag ∧
            l.value.toNat / 2 ^ (32 * m) % 2 ^ 32 = (tileAt s c f.a.toNat (pos / 2 ^ 8 % 2 ^ 6) (pos % 64 + m)).toNat)))) ∧
    (∀ x, x = Ins.ofBody .accw (.long f) → Turn s x t → gather s x t = .vals v → (s.thread t).pass = none →
      let n := accWidth x
      let pos := if x.mb 1 then f.imm.toNat else v.a
      let row := pos / 2 ^ 8 % 2 ^ 6
      let elems (s : State) := kvGet [] (s.core c).tiles f.d.toNat
      (pos % 64 % n ≠ 0 → Traps (.accw f) t 23 0 0 s) ∧
      (pos % 64 % n = 0 →
        ((∃ o ∈ tileOps s c f.d.toNat, o < s.nextId) → Lands (.accw f) t s (s.hold t (.tile f.d.toNat s.nextId))) ∧
        (tileOps s c f.d.toNat = [] → ∃ s1, Passes (.accw f) x t s s1 ∧ (∀ u r, s1.greg u r = s.greg u r) ∧
          (∀ m < n, tileAt s1 c f.d.toNat row (pos % 64 + m) = BitVec.ofNat 32 (v.b / 2 ^ (32 * m))) ∧
          (∀ k i j, k ≠ f.d.toNat → tileAt s1 c k i j = tileAt s c k i j) ∧
          ((elems s).Pairwise (fun a b => a.1 < b.1) → (elems s1).Pairwise (fun a b => a.1 < b.1) ∧
            ∀ i j, (∀ m < n, 64 * i + j ≠ 64 * row + pos % 64 + m) → tileAt s1 c f.d.toNat i j = tileAt s c f.d.toNat i j))))) ∧
  (∀ (i : Instr) (x : Ins) (s : State) (ps : List Nat), (∃ f, i = .accrSt f) → i.ins? = some x → x.mb 0 = true → Whole s x ps →
    let w := ps.headD 0 / 32
    ∃ s1, PassesAll i x ps s s1 ∧ (s1.warp w).anvil = 0 ∧ ∀ u ∈ ps, (s1.greg u x.f.d.toNat).full = false ∧
      ∃ due l, (due, .producerLanding l) ∈ s1.agenda ∧ l.thread = u ∧ l.reg = x.f.d.toNat ∧ l.n = 1 ∧ l.value = (s.warp w).anvil.setWidth 128 ∧
        l.tag = (s1.greg u x.f.d.toNat).tag)

/-! ### Rings -/

/-- R331, R332: RGSET reads the rank table at its address and, where it is valid, names the issuing die and a binding is free or agrees, gives every thread the number
of ranks when it lands and binds the group in the clk after. It reads the table after its own earlier accesses to it. A table that is not valid, or does not name the die, raises cause RG. -/
def Obligations.RgsetReadsTheRankTable : Prop :=
  ∀ (f : Long) (s : State) (ps : List Nat) (v : Vals) (q : Place) (ts : List Trans),
    let x := Ins.ofBody .rgset (.long f)
    let t := ps.headD 0
    let core := coreOfThread t
    let d := dieOfCore core
    let a : Dword := BitVec.ofNat 64 v.a
    let p := { opOf s t .rgset 3 with trans := [({ vbase := a.toNat, size := 8, pbase := q.pa, cls := q.cls } : Trans)] }
    let r1 := readBytes s p a 8
    let n := min 512 ((byteAt r1.2.1 0).getD 0 + 256 * (byteAt r1.2.1 1).getD 0)
    let r2 := readBytes r1.1 { p with trans := ts } a (8 + 4 * n)
    let s2 := freeBinds r2.1 d
    let g := f.imm.toNat % 2 ^ 4
    Whole s x ps → gather s x t = .vals v → checkXlate s core a 8 1 = .ok q → ownWrite s t p.trans = none →
    rangePages r1.1 p [(a.toNat, 8 + 4 * n, 1)] = .inr ts → ownWrite r1.1 t ts = none → (∀ b ∈ r2.2.1, b.isSome = true) →
    let traps : Prop := (s.warp (t / 32)).handler = none → (s.cohort core).ctx.handler ≠ 0 → Runs (.rgset f) s fun s' =>
      (s'.warp (t / 32)).xcause = BitVec.ofNat 32 (t % 32 * 2 ^ 8 + 25) ∧ (s'.warp (t / 32)).m = [] ∧ ∀ u r, s'.greg u r = s.greg u r
    (tableOf s2.domain (r2.2.1.map (·.getD 0)) = none → traps) ∧
    (∀ ver dies, tableOf s2.domain (r2.2.1.map (·.getD 0)) = some (ver, dies) →
      (d ∉ dies → traps) ∧
      (d ∈ dies → (bindOf s2 d p.asid g = none ∧ (s2.die d).binds.length < 64 ∨ ∃ b, bindOf s2 d p.asid g = some b ∧ b.version = ver ∧ b.ranks = dies) →
        ∃ s1 due id, PassesAll (.rgset f) x ps s s1 ∧ (∀ u ∈ ps, (s1.greg u f.d.toNat).full = false ∧ (s1.greg u f.d.toNat).tag = id ∧
            ∃ l, (due, .producerLanding l) ∈ s1.agenda ∧ l.thread = u ∧ l.reg = f.d.toNat ∧ l.tag = id ∧ l.value = BitVec.ofNat 128 dies.length) ∧
          ∃ l, (due + 1, .producerLanding l) ∈ s1.agenda ∧ l.req = id ∧ (s1.req id).kind = .rgset ∧ (s1.req id).op = g ∧ (s1.req id).va = a))

/-- R334, R341: a collective of a bound group, on a tag that is not outstanding there, is issued with class R and gets a record; an unbound group, a tag outstanding, a
length of 0 or above 2^28 or a root beyond the group raises cause RG; 64 tags outstanding or a full counter hold its threads. -/
def Obligations.CollectivesAreIssued : Prop :=
  ∀ (f : Long) (o : Opc) (i : Instr) (s : State) (ps : List Nat) (v : Vals),
    (o = .rrs ∧ i = .rrs f ∨ o = .rag ∧ i = .rag f ∨ o = .rar ∧ i = .rar f ∨ o = .rbc ∧ i = .rbc f ∨ o = .rho ∧ (i = .rho f ∨ i = .rhoRecv f)) →
    let x := Ins.ofBody o (.long f)
    let t := ps.headD 0
    let core := coreOfThread t
    let d := dieOfCore core
    let asid := s.asidOf core
    let g := f.imm.toNat % 2 ^ 4
    let tag : BitVec 16 := f.imm.extractLsb' 16 16
    let root := f.imm.toNat / 2 ^ 6 % 2 ^ 10
    let outs := outTags s d asid g
    let recv := o = .rho ∧ x.ib 7 = true
    let src : Dword := if recv then 0 else BitVec.ofNat 64 v.a
    let dst : Dword := if o = .rho ∧ x.ib 7 = false then 0 else BitVec.ofNat 64 (gNum s t f.d.toNat 2)
    Whole s x ps → gather s x t = .vals v →
    ((bindOf s d asid g = none ∨ (∃ e ∈ outs, e.2.tag = tag) ∨ v.c = 0 ∨ 2 ^ 28 < v.c) → Traps i t 25 0 0 s) ∧
    (∀ b, bindOf s d asid g = some b → (∀ e ∈ outs, e.2.tag ≠ tag) → 0 < v.c → v.c ≤ 2 ^ 28 →
      let rank := b.ranks.findIdx (· = d)
      let ns := if o = .rrs then b.ranks.length * v.c else if o = .rbc ∧ rank ≠ root then 0 else if recv then 0 else v.c
      let nd := if o = .rag then b.ranks.length * v.c else if o = .rho ∧ ¬ recv then 0 else v.c
      (o = .rbc → b.ranks.length ≤ root → Traps i t 25 0 0 s) ∧
      ((o = .rbc → root < b.ranks.length) → (63 ≤ counter s (t / 32) 3 ∨ 64 ≤ outs.length) → Runs i s fun s' =>
        (∀ u ∈ ps, (s'.thread u).hold = .tags g ∧ (s'.thread u).pc = (s.thread u).pc) ∧ s'.ops = s.ops ∧ s'.mem = s.mem) ∧
      ((o = .rbc → root < b.ranks.length) → counter s (t / 32) 3 < 63 → outs.length < 64 →
        src.extractLsb' 56 8 = 0 → dst.extractLsb' 56 8 = 0 → src.toNat % 4 = 0 → dst.toNat % 4 = 0 →
        ∀ ts, rangePages s (opOf s t o 3) ((if ns = 0 then [] else [(src.toNat, 4 * ns, 1)]) ++ if nd = 0 then [] else [(dst.toNat, 4 * nd, 2)]) = .inr ts →
        (x.mb 6 = true → live s (BitVec.ofNat 32 v.b) asid = true) →
        ∃ s1 n, PassesAll i x ps s s1 ∧ Issued s s1 t 3 n ∧ (s1.op n).kind = o ∧ (s1.op n).group = g ∧ (s1.op n).tag = tag ∧
          (s1.op n).rank = rank ∧ (s1.op n).p = b.ranks.length ∧ (s1.op n).n = v.c ∧ (s1.op n).src = src ∧ (s1.op n).dst = dst ∧
          ∃ r ∈ (s1.die d).recs, r.asid = asid ∧ r.group = g ∧ r.tag = tag ∧ r.op = n ∧ r.state = 1))

/-- R343, R349: RSTAT gives every thread the record of a tag, 0 where there is none, or under .grp the word of the group; MAPQ gives the home and the way of an
address, 8 clks later, with the checks of its translation. -/
def Obligations.RingStatusAndMapQueries : Prop :=
  (∀ (i : Instr) (x : Ins) (s : State) (ps : List Nat), ((∃ f, i = .rstat f) ∨ ∃ f, i = .rstatGrp f) → i.ins? = some x → Whole s x ps →
    let core := coreOfThread (ps.headD 0)
    let d := dieOfCore core
    let asid := s.asidOf core
    let g := x.f.imm.toNat % 2 ^ 4
    ∃ s1, PassesAll i x ps s s1 ∧ Kept s s1 (fun u r => u ∈ ps ∧ (r = x.f.d.toNat ∨ r = x.f.d.toNat + 1)) noReg noThread noReg ∧
      ∀ u ∈ ps, s1.gpair u x.f.d.toNat = BitVec.ofNat 64 (if x.mb 0 then groupWord s d asid g
        else match (s.die d).recs.find? fun r => r.asid = asid && r.group = g && r.tag.toNat = x.f.imm.toNat / 2 ^ 16 % 2 ^ 16 with
          | some r => recWord (recNow s r)
          | none => 0)) ∧
  (∀ (f : Long) (s : State) (t : Nat) (v : Vals),
    let x := Ins.ofBody .mapq (.long f)
    let c := coreOfThread t
    let addr : Dword := BitVec.ofNat 64 v.a + (if x.mb 0 then (BitVec.ofNat 32 v.b).signExtend 64 else f.imm.signExtend 64)
    Turn s x t → gather s x t = .vals v →
    (addr.extractLsb' 56 8 ≠ 0 → Traps (.mapq f) t 7 1 addr s) ∧
    (addr.extractLsb' 56 8 = 0 → (∀ e, placeOf s c addr.toNat = .fault e → Traps (.mapq f) t e 1 addr s) ∧
      (∀ q, placeOf s c addr.toNat = .ok q → ∃ s1 l, Passes (.mapq f) x t s s1 ∧ (s.clk + 8, .producerLanding l) ∈ s1.agenda ∧
        l.thread = t ∧ l.reg = f.d.toNat ∧ l.n = 2 ∧ (∃ s2, l.value = BitVec.ofNat 128 (mapqWord s2 (dieOfCore c) q) ∧ s2.dies = s.dies ∧
          s2.links = s.links ∧ s2.domain = s.domain) ∧
        (∀ k < 2, (s1.greg t (f.d.toNat + k)).full = false ∧ (s1.greg t (f.d.toNat + k)).tag = l.tag) ∧
        (∀ u r, ¬ regs t f.d.toNat 2 u r → s1.greg u r = s.greg u r))))

/-! ### System -/

/-- R412 to R414: LAUNCH checks its record's address and sends a request to the dispatcher, its register empty until it lands; EVNT adds a record of the host's
events while fewer than 256 await; PMC reads a counter of the cohort. -/
def Obligations.LaunchEventAndCounters : Prop :=
  (∀ (f : Long) (s : State) (t : Nat) (v : Vals),
    let x := Ins.ofBody .launch (.long f)
    let c := coreOfThread t
    let a : Dword := BitVec.ofNat 64 v.a
    Turn s x t → gather s x t = .vals v →
    (∀ e, checkXlate s c a 64 1 = .fault e → Traps (.launch f) t e 1 a s) ∧
    (∀ p, checkXlate s c a 64 1 = .ok p →
      (∀ e, lineFault s p.cls p.pa = some e → TrapsOn (.launch f) t e 1 a s (noteLine s e p)) ∧
      (lineFault s p.cls p.pa = none → ∃ s1 id, Passes (.launch f) x t s s1 ∧ (s1.greg t f.d.toNat).full = false ∧ (s1.greg t f.d.toNat).tag = id ∧
        (s1.req id).kind = .launch ∧ (s1.req id).pa = p.pa ∧ (s1.req id).op = f.imm.toNat % 64 ∧ s1.mem = s.mem ∧
        (∀ u r, ¬ regs t f.d.toNat 1 u r → s1.greg u r = s.greg u r)))) ∧
  (∀ (f : Long) (s : State) (t : Nat) (v : Vals),
    let x := Ins.ofBody .evnt (.long f)
    let c := coreOfThread t
    let d := dieOfCore c
    Turn s x t → gather s x t = .vals v →
    ((s.die d).awaiting.length < 256 → ∃ s1, Passes (.evnt f) x t s s1 ∧ (∀ u r, s1.greg u r = s.greg u r) ∧ ∃ r,
      (s1.die d).awaiting = (s.die d).awaiting ++ [r] ∧ r.kind = 0x40 ∧ r.die = d % 16 ∧ r.pkg = pkgOfDie d ∧ r.core = c % 128 ∧
      r.slot = t % 32 ∧ r.asid = s.asidOf c ∧ r.detail = v.a ∧ r.addr = f.imm.toNat % 2 ^ 16) ∧
    (256 ≤ (s.die d).awaiting.length → Lands (.evnt f) t s (s.hold t .evnt))) ∧
  (∀ (f : Long) (s : State) (t : Nat),
    let x := Ins.ofBody .pmc (.long f)
    let n := f.imm.toNat % 2 ^ 8
    let c := coreOfThread t
    f.u = false → f.d.toNat < 239 → Turn s x t → ∃ s1, Passes (.pmc f) x t s s1 ∧ Kept s s1 (regs t f.d.toNat 2) noReg noThread noReg ∧
      s1.gpair t f.d.toNat = BitVec.ofNat 64 (if n = 0 then s.clk - (s.cohort c).placed else kvGet 0 (s.core c).pmc n))

/-- R104, R389, R390: ATCI, CTXS, CTXR and HALT raise cause PV outside a handler. HALT in one ends the context. -/
def Obligations.HandlerInstructionsArePrivileged : Prop :=
  ∀ (f : Long) (o : Opc) (i : Instr) (s : State) (ps : List Nat),
    (o = .atci ∧ i = .atci f ∨ o = .ctxs ∧ i = .ctxs f ∨ o = .ctxr ∧ i = .ctxr f ∨ o = .halt ∧ i = .halt f) →
    let t := ps.headD 0
    Whole s (Ins.ofBody o (.long f)) ps →
    (s.inHandler t = false → Traps i t 2 0 0 s) ∧
    (s.inHandler t = true → o = .halt → Runs i s fun s' =>
      (∀ p, s.pkg p ≠ {} → (s'.pkg p).ended.contains (s.asidOf (coreOfThread t)) = true) ∧ (∀ u r, s'.greg u r = s.greg u r) ∧ s'.mem = s.mem)

/-- R384, R397, R399: in a handler ATCI holds its threads and asks its own die to remove the translations it names; CTXS gives 1 for an area that is
misaligned and 2 for one that it cannot use, and holds its threads for the save otherwise; CTXR gives 5 for an area that it cannot use, 1 for one
that holds no save area, and where its checks pass puts the saved cohort in the place of its own, which has left its launch. -/
def Obligations.TranslationRemovalSaveAndRestore : Prop :=
  ∀ (f : Long) (s : State) (ps : List Nat) (v : Vals),
    let t := ps.headD 0
    let c := coreOfThread t
    let d := dieOfCore c
    let h := s.cohort c
    s.inHandler t = true →
    (∀ x, x = Ins.ofBody .atci (.long f) → Whole s x ps → gather s x t = .vals v →
      let n := atciBytes (f.imm.toNat % 4)
      (f.m.toNat % 4 = 0 → v.a % n = 0) → (x.mb 2 = true → v.c % n = 0) → (x.scope ≤ 3 ∨ pkgOfDie d ∈ s.domain) →
      Runs (.atci f) s fun s' => ∃ id a, (∀ u ∈ ps, (s'.thread u).hold = .reply id ∧ (s'.thread u).pc = (s.thread u).pc) ∧
        (s.clk, .atciRemoval a d) ∈ s'.agenda ∧ a.id = id ∧ a.kind = f.m.toNat % 4 ∧ a.va = BitVec.ofNat 64 v.a ∧ a.asid = BitVec.ofNat 12 v.b ∧
        a.home = x.mb 2 ∧ a.pa = v.c ∧ (∀ u r, s'.greg u r = s.greg u r) ∧ s'.mem = s.mem) ∧
    (∀ x, x = Ins.ofBody .ctxs (.long f) → f.u = false → f.d.toNat < 240 → Whole s x ps → gather s x t = .vals v → (s.core c).saving = none →
      (v.a % 4096 ≠ 0 → ∃ s1, PassesAll (.ctxs f) x ps s s1 ∧ ∀ u ∈ ps, (s1.greg u f.d.toNat).v = 1) ∧
      (v.a % 4096 = 0 → areaOk s c v.a (areaSize h.warps h.r h.tiles) 2 = false → ∃ s1, PassesAll (.ctxs f) x ps s s1 ∧ ∀ u ∈ ps, (s1.greg u f.d.toNat).v = 2) ∧
      (v.a % 4096 = 0 → areaOk s c v.a (areaSize h.warps h.r h.tiles) 2 = true → Runs (.ctxs f) s fun s' =>
        (s'.core c).saving = some ⟨BitVec.ofNat 64 v.a, t / 32, ps, f.d.toNat, 12⟩ ∧ (∀ u ∈ ps, (s'.thread u).hold = .save) ∧
        (∀ u r, s'.greg u r = s.greg u r) ∧ s'.mem = s.mem)) ∧
    (∀ x, x = Ins.ofBody .ctxr (.long f) → f.u = false → f.d.toNat < 240 → Whole s x ps → gather s x t = .vals v →
      let hd := areaGet s c v.a 0x108
      (areaOk s c v.a 0x108 1 = false → ∃ s1, PassesAll (.ctxr f) x ps s s1 ∧ ∀ u ∈ ps, (s1.greg u f.d.toNat).v = 5) ∧
      (areaOk s c v.a 0x108 1 = true → (fieldAt hd 0 4 ≠ 0x464C5331 ∨ fieldAt hd 4 4 ≠ 0x10000) →
        ∃ s1, PassesAll (.ctxr f) x ps s s1 ∧ ∀ u ∈ ps, (s1.greg u f.d.toNat).v = 1) ∧
      (∀ key sv, areaOk s c v.a 0x108 1 = true → fieldAt hd 0 4 = 0x464C5331 → fieldAt hd 4 4 = 0x10000 → fieldAt hd 0x100 8 = key →
        s.saved.find? (fun e => e.1 = key) = some (key, sv) → areaOk s c v.a (fieldAt hd 0x18 8) 1 = true →
        (sv.core = c ∨ dieOfCore sv.core = d ∧ sv.coreState.bar = []) → asidLive s (pkgOfCore c) sv.asid = true →
        let left := (leaveLaunch (reclaimCore s c) h d).modCore c fun k => { k with cohort := some h }
        let s2 := restore left c key sv v.a
        Runs (.ctxr f) s fun s' => ∃ r, (s.lane s.cur).run = some r ∧ s' = closeRun s2 r (s2.clk + 1)))

/-! ### Events -/

/-- Every event of the opcode table has its effect where its happening stands: the step of any of the 123 rows answers a next state, whatever the
state. What each effect is stands in Machine/Events.lean, under the rule that the row cites; the statements that follow say what the rules
say of some of them. -/
def Obligations.EventsHaveTheirEffect : Prop :=
  ∀ (e : Ev) (s : State), s.ev = some e → exec e.instr s = .next (e.effect { s with ev := none })

/-- R95, R214, R387, R400, R415: a sleeping thread becomes ready when its clks are over and goes on after its instruction; a landing fills the registers
that are still empty under its tag, in the epoch of its core, and no other; an L1 sector is dropped 4,096 clk after its fill and no other; and
a trap is taken where the warp is between runs and runs no handler. -/
def Obligations.CoreEventsActOnTheirThread : Prop :=
  (∀ (t till : Nat) (s : State), (s.thread t).hold = .sleep till → (s.warp (t / 32)).handler = none →
    Happens .sleepExpiry (.sleepExpiry t) s fun s' =>
    (till ≤ s.clk → (s'.thread t).hold = .none ∧ (s'.thread t).pc = (s.thread t).pc + 12 ∧ (∀ u, u ≠ t → s'.thread u = s.thread u)) ∧
    (s.clk < till → s' = { s with ev := none }) ∧ (∀ u r, s'.greg u r = s.greg u r) ∧ s'.mem = s.mem) ∧
  (∀ (l : Landing) (s : State), l.req = 0 → Happens .producerLanding (.producerLanding l) s fun s' =>
    (∀ k < l.n, let g := s.greg l.thread (l.reg + k)
      ((s.core (coreOfThread l.thread)).epoch = l.epoch → g.tag = l.tag → g.full = false → l.tag ≠ 0 →
        (s'.greg l.thread (l.reg + k)).full = true ∧
          (s'.greg l.thread (l.reg + k)).v = BitVec.ofNat 32 (l.value.toNat / 2 ^ (32 * k))) ∧
      (((s.core (coreOfThread l.thread)).epoch ≠ l.epoch ∨ g.tag ≠ l.tag ∨ g.full = true) → s'.greg l.thread (l.reg + k) = g)) ∧
    (∀ u r, ¬ regs l.thread l.reg l.n u r → s'.greg u r = s.greg u r) ∧ s'.mem = s.mem) ∧
  (∀ (c k : Nat) (s : State), Happens .l1SectorExpiry (.l1SectorExpiry c k) s fun s' =>
    (s'.core c).l1 = (s.core c).l1.filter (fun e => e.1 ≠ k ∨ s.clk < e.2.fill + 4096) ∧ (∀ d, d ≠ c → s'.core d = s.core d) ∧
    s'.threads = s.threads ∧ s'.mem = s.mem) ∧
  (∀ (w : Nat) (i : TrapInfo) (s : State), w % 512 < s.warpCount (coreOfWarp w) → (s.warp w).gone = false → i.cause ≠ 35 →
    Happens .trapEntry (.trapEntry w i) s fun s' =>
      ((s.lane (laneOfWarp w)).run = none → (s.warp w).handler = none → s' = takeTrap { s with ev := none } w i s.clk) ∧
      ((s.lane (laneOfWarp w)).run.isSome = true ∨ (s.warp w).handler.isSome = true →
        s'.threads = s.threads ∧ (s.clk + 1, .trapEntry w i) ∈ s'.agenda))

/-- R190 to R192, R238, R246, R253, R260: the change of a buffer's state, the eviction of a copy, the advance of a generation, which waits while an entry carries the generation to come, the write
of a region record and the acknowledgement of a re-split. -/
def Obligations.DieEventsChangeTheirRecords : Prop :=
  (∀ (d k : Nat) (s : State), Happens .bufferStateChange (.bufferStateChange d k) s fun s' =>
    let b := kvGet {} (s.die d).buf k
    let b' := kvGet {} (s'.die d).buf k
    (b.drop = true → b'.decl = false) ∧
    (b.drop = false →
      (b.state = 0 → b.copyIn = true ∨ 0 < b.added → b.setFull = false → (b.expect = 0 ∨ b.landed + b.added < b.expect) →
        b'.state = 1 ∧ b'.landed = b.landed + b.added) ∧
      (b.state ≤ 1 → 0 < b.added → b.expect ≠ 0 → b.expect ≤ b.landed + b.added → b.outStart = 0 → b'.state = 2) ∧
      (b.state ≤ 1 → b.setFull = true → b'.state = 2 ∨ 0 < b.outStart) ∧
      (b.state = 2 → b.setFull = false → 0 < b.outStart → b.outDone = 0 → b'.state = 3 ∧ b'.outs = b.outs + b.outStart) ∧
      (b.state = 3 → b.setFull = false → 0 < b.outDone → b.outs + b.outStart = b.outDone → b'.state = 0 ∧ b'.landed = 0)) ∧
    s'.mem = s.mem ∧ s'.cellar = s.cellar ∧ s'.cores = s.cores) ∧
  (∀ (d line : Nat) (c : Copy) (s : State), copyOf s d line = some c → c.level = 0 →
    Happens .dieCacheEviction (.dieCacheEviction d line) s fun s' =>
      (s'.die d).copies = kvDel (s.die d).copies line ∧ s'.msgs = s.msgs ∧ s'.mem = s.mem) ∧
  (∀ (d : Nat) (s : State),
    (rdcOfGen s d (nextGen (s.die d).rdcGen) = [] → Happens .generationAdvance (.generationAdvance d 0) s fun s' =>
      (s'.die d).rdcGen = nextGen (s.die d).rdcGen ∧ s'.metaw = s.metaw ∧ s'.mem = s.mem ∧ ∀ e, e ≠ d → s'.die e = s.die e) ∧
    (rdcOfGen s d (nextGen (s.die d).rdcGen) ≠ [] → Happens .generationAdvance (.generationAdvance d 0) s fun s' =>
      s'.dies = s.dies ∧ ∃ due, s.clk ≤ due ∧ (due, .generationAdvance d 0) ∈ s'.agenda)) ∧
  (∀ (d k : Nat) (v : Word) (s : State), Happens .regionRecordWrite (.regionRecordWrite d k 0 v) s fun s' =>
    let r := kvGet {} (s.die d).region k
    let r' := kvGet {} (s'.die d).region k
    (v.getLsbD 0 = true → r.valid = false → limitGood r.limit = true → asidLive s (pkgOfDie d) r.asid = true →
      r' = { limit := r.limit, share := r.limit, bshare := r.limit, asid := r.asid, valid := true }) ∧
    (v.getLsbD 0 = true → r.valid = false → limitGood r.limit = false → r' = r) ∧
    (v.getLsbD 0 = false → r.valid = true → r'.valid = decide (r.dies ≠ 0 ∨ r.pkgs ≠ 0 ∨ r.acks ≠ 0))) ∧
  (∀ (d k : Nat) (s : State), Happens .resplitAck (.resplitAck d k) s fun s' =>
    let r := kvGet {} (s.die d).region k
    let r' := kvGet {} (s'.die d).region k
    r'.acks = r.acks - 1 ∧ (r.acks ≤ 1 → r'.bshare = r.share) ∧ (1 < r.acks → r'.bshare = r.bshare))

/-- R6, R417, R418, R423: host writes through BAR4 change device memory and host reads return it, on a package that is ready; before that writes are dropped
and reads give all ones; a read of a line that gives no data is no such read. A register write that is misaligned, or neither 4 nor 8 bytes, is ignored, a field from 1 to its largest value keeps its
contents under 0, LQ_DOOR and RESET have their happenings, and a package without power has HOST_CTL alone. Which bits of an address name the package and the
die is the model's choice (notes/assumptions/2.md). -/
def Obligations.HostAccessesReachMemoryAndRegisters : Prop :=
  (∀ (p off : Nat) (b : List Byte) (s : State), Happens .hostMemoryWrite (.hostMemoryWrite p off b) s fun s' =>
    ((s.pkg p).ready = false → s' = { s with ev := none }) ∧
    ((s.pkg p).ready = true → hostReaches s p off b.length = true → s.errs = [] → (s.pkg p).lqEn = false →
      s'.mem = memWrite s.mem (barPa p off) b ∧ s'.cellar = s.cellar ∧ s'.threads = s.threads)) ∧
  (∀ (p off n : Nat) (s : State), Happens .hostMemoryRead (.hostMemoryRead p off n) s fun s' =>
    ((s.pkg p).ready = false → (s'.pkg p).hostReads = (s.pkg p).hostReads ++ [(off, List.replicate n 0xFF)]) ∧
    ((s.pkg p).ready = true → hostReaches s p off n = true → s.errs = [] → (∀ l ∈ linesIn (barPa p off) n, hostLost s l = false) →
      (s'.pkg p).hostReads = (s.pkg p).hostReads ++ [(off, memRead s.mem (barPa p off) n)])) ∧
  (∀ (p off size : Nat) (priv : Bool) (v : Dword) (s : State), Happens .registerWrite (.registerWrite p priv off size v) s fun s' =>
    ((size ≠ 4 ∧ size ≠ 8) ∨ off % size ≠ 0 → s' = { s with ev := none }) ∧
    ((s.pkg p).powered = false → (priv = false ∨ off ≠ 0x1000010) → s' = { s with ev := none }) ∧
    (priv = true → off = 0x1000010 → size = 4 ∨ size = 8 → v.getLsbD 0 = true → (s.clk, .hostCtlReset p) ∈ s'.agenda) ∧
    ((s.pkg p).powered = true → priv = true → off = 0x1000028 → size = 4 → ∀ g', g' = s'.pkg p →
      g'.errWindow = (if natBits v.toNat 0 16 = 0 then (s.pkg p).errWindow else natBits v.toNat 0 16) ∧
      g'.errThresh = (if natBits v.toNat 16 8 = 0 then (s.pkg p).errThresh else natBits v.toNat 16 8)) ∧
    ((s.pkg p).powered = true → priv = false → size = 8 → ∀ k < 16, off = 0x1000 + 8 * k → (s.clk, .lqDoor (16 * p + k)) ∈ s'.agenda))

/-- R421 to R423, R428, R431: power starts the power phase, which calibration follows within 50 ms and ends within 300 ms; it marks the dies that failed, and a
package of which every die failed is in phase 7; initialisation zeroes the memory, sets READY and starts $clk at 0. A die at 110 °C has the
power of its package removed a millisecond later. The end of an error window clears the counts of corrected errors. -/
def Obligations.StartUpAndHeat : Prop :=
  (∀ (p : Nat) (s : State), (s.pkg p).powered = false → Happens .powerOn (.powerOn p) s fun s' =>
    s'.pkg p = { powered := true, phase := 1 } ∧ ∃ due ≤ s.clk + 50000 * 1200, (due, .powerPhaseDone p) ∈ s'.agenda) ∧
  (∀ (p : Nat) (s : State), (s.pkg p).phase = 1 → Happens .powerPhaseDone (.powerPhaseDone p) s fun s' =>
    (s'.pkg p).phase = 2 ∧ ∃ due c, due ≤ s.clk + 300000 * 1200 ∧ (due, .calibrationDone p c) ∈ s'.agenda) ∧
  (∀ (p : Nat) (c : Calibration) (s : State), (s.pkg p).phase = 2 → Happens .calibrationDone (.calibrationDone p c) s fun s' =>
    (c.dieOk = 0 → (s'.pkg p).phase = 7 ∧ (s'.pkg p).ready = (s.pkg p).ready) ∧
    (c.dieOk ≠ 0 → (s'.pkg p).phase = 3 ∧ (s'.pkg p).dieOk = c.dieOk ∧ (s'.pkg p).brgOk = c.brgOk ∧
      ∀ k < 16, (s'.die (16 * p + k)).ok = c.dieOk.getLsbD k ∧ (s'.die (16 * p + k)).dead = !c.dieOk.getLsbD k)) ∧
  (∀ (p : Nat) (s : State), (s.pkg p).phase = 3 → Happens .initialisationDone (.initialisationDone p) s fun s' =>
    (s'.pkg p).phase = 4 ∧ (s'.pkg p).ready = true ∧ s'.pkgClk p = 0 ∧ ∀ a, barPa p 0 ≤ a → a < barPa (p + 1) 0 → memGet s'.mem a = 0) ∧
  (∀ (d : Nat) (temp : Byte) (s : State), Happens .thermal (.thermal d temp) s fun s' => (s'.die d).temp = temp.toNat ∧
    (110 ≤ temp.toNat → (s.die d).temp < 110 → (s.pkg (pkgOfDie d)).thermal = false → (s'.pkg (pkgOfDie d)).thermal = true ∧
      (s.clk + 1000 * 1200, .thermalPowerOff (pkgOfDie d)) ∈ s'.agenda) ∧
    (temp.toNat < 110 → s'.agenda = s.agenda ∧ s'.pkgs = s.pkgs)) ∧
  (∀ (p : Nat) (s : State), Happens .thermalPowerOff (.thermalPowerOff p) s fun s' => s'.pkg p = { thermal := true }) ∧
  (∀ (p k : Nat) (s : State), Happens .errorWindowExpiry (.errorWindowExpiry p) s fun s' =>
    kvGet 0 (s'.pkg p).region k &&& 0xFF = 0 ∧ (s.clk + (s.pkg p).errWindow * 1200000000, .errorWindowExpiry p) ∈ s'.agenda)

/-- R247, R344, R345, R356, R357, R359, R361 to R363: a bridge direction without a flit becomes idle and then asleep, if its sleep is enabled, and a wake makes it
active; CRC failures raise ERRCNT, by 2 with a retraining, and THRESH of them declare the bridge failed; a flit of a link is taken in its order, once; beat b of a link's stream goes over the active slot of rank b mod a, and a flit of which a beat has no
light fails its CRC; a lost slot goes dark; a link that has light again starts at SEQ 0; and GO refuses a bad plan and begins the drain of a good one. -/
def Obligations.BridgeAndLinkEventsFollowTheirRules : Prop :=
  (∀ (k : Nat) (s : State), (s.dir k).state = 0 → Happens .directionIdle (.directionIdle k) s fun s' =>
    ((bridgeOk s k = false ∨ (s.dir k).pass = [] ∧ (s.dir k).inj = []) → (s.dir k).last + (s.die (k / 2)).idleAfter * 1200 ≤ s.clk →
      (s'.dir k).state = 1 ∧ (s.clk + (s.die (k / 2)).sleepAfter * 1200, .directionSleep k) ∈ s'.agenda) ∧
    (s.clk < (s.dir k).last + (s.die (k / 2)).idleAfter * 1200 → s' = { s with ev := none })) ∧
  (∀ (k : Nat) (s : State), (s.dir k).state = 1 → Happens .directionSleep (.directionSleep k) s fun s' =>
    ((s.die (k / 2)).sleepEn = true → (s.dir k).last + (s.die (k / 2)).sleepAfter * 1200 ≤ s.clk → (s'.dir k).state = 2) ∧
    ((s.die (k / 2)).sleepEn = false → s' = { s with ev := none })) ∧
  (∀ (k : Nat) (s : State), (s.dir k).state = 3 → Happens .linkWakeComplete (.linkWakeComplete k) s fun s' =>
    (s'.dir k).state = 0 ∧ (s'.dir k).errs = 0) ∧
  (∀ (b : Nat) (re : Bool) (s : State), Happens .bridgeCrcFailure (.bridgeCrcFailure b re) s fun s' =>
    (s'.die b).brgErr = min 255 ((s.die b).brgErr + if re then 2 else 1) ∧
    ((s.die b).brgThresh ≤ (s'.die b).brgErr → (s.die b).brgFailed = false → (s.clk, .bridgeDeclaredFailed b) ∈ s'.agenda) ∧
    ((s'.die b).brgErr < (s.die b).brgThresh → s'.agenda = s.agenda)) ∧
  (∀ (b : Nat) (s : State), Happens .errcntWindowExpiry (.errcntWindowExpiry b) s fun s' => (s'.die b).brgErr = 0 ∧
    (s.clk + (s.die b).brgWindow * 120000, .errcntWindowExpiry b) ∈ s'.agenda) ∧
  (∀ (b : Nat) (s : State), (s.die b).brgFailed = false → Happens .bridgeDeclaredFailed (.bridgeDeclaredFailed b) s fun s' =>
    (s'.die b).brgFailed = true ∧ ∃ due ≤ s.clk + 2400, (due, .ringWrapComplete b) ∈ s'.agenda) ∧
  (∀ (l : Nat) (w : Wire) (s : State), Happens .data (.data l w) s fun s' =>
    (received w = none → (s'.link l).taken = (s.link l).taken ∧ s'.msgs = s.msgs) ∧
    (∀ f, received w = some f →
      (f.kind ≠ 0 → s' = { s with ev := none }) ∧
      (f.kind = 0 → f.seq = (s.link l).taken + 1 → (s'.link l).taken = f.seq) ∧
      (f.kind = 0 → f.seq ≠ (s.link l).taken + 1 → (s'.link l).taken = (s.link l).taken ∧ s'.msgs = s.msgs ∧
        (((s.link l).taken - f.seq).toNat < 32768 → s' = { s with ev := none })))) ∧
  (∀ (m : BitVec 16) (b k : Nat), k < 16 → m.getLsbD k = true →
    ((List.range k).filter m.getLsbD).length = b % ((List.range 16).filter m.getLsbD).length → beatFibre m b = k) ∧
  (∀ (f : Flit) (m lost : BitVec 16) (i : Nat), f.body.length = 54 →
    ((∀ b < 8, lost.getLsbD (beatFibre m (8 * i + b)) = false) → received (overSlots m lost i f.bytes) = some f) ∧
    ((∃ b < 8, lost.getLsbD (beatFibre m (8 * i + b)) = true) → received (overSlots m lost i f.bytes) = none)) ∧
  (∀ (l f : Nat) (s : State), f < 16 → Happens .lossOfLight (.lossOfLight l f) s fun s' =>
    (s'.link l).rxDark = (s.link l).rxDark ||| (BitVec.ofNat 16 (2 ^ f) &&& (s.link l).rxMask)) ∧
  (∀ (l : Nat) (s : State), (s.link l).up = false → (s.link l).active ≠ 0 → peerOf l ≠ l → Happens .linkUp (.linkUp l) s fun s' =>
    (s'.link l).up = true ∧ (s'.link l).nextSeq = 0 ∧ (s'.link (peerOf l)).taken = 0xFFFF) ∧
  (∀ (d : Nat) (s : State), Happens .replanGo (.replanGo d) s fun s' =>
    ((s.die d).go = true → s' = { s with ev := none }) ∧
    ((s.die d).go = false → planBad (s.die d).plan = true → (s'.die d).planRefused = true ∧ (s'.die d).go = false) ∧
    ((s.die d).go = false → planBad (s.die d).plan = false → (s'.die d).go = true ∧ (s'.die d).planPhase = 1 ∧
      (s.clk + (s.die d).drainMax * 1200, .drainMaxExpiry d) ∈ s'.agenda))

/-- Every step keeps the physical memory, the cellars and the host memory in canonical form. -/
def Obligations.StepKeepsMemoryCanonical : Prop := ∀ s s' : State, s.MemOk → step s = .next s' → s'.MemOk
end

