-- ==== Sys2Proof/Laws/Basic.lean ====
section
/-! SUPPORT. Keyed collections, and the parts of the state after a change of one of them. -/

namespace Sys2Proof

/-- A read after a write of a keyed collection. -/
theorem kvGet_kvSet {α : Type} (d v : α) (l : KV α) (k j : Nat) :
    kvGet d (kvSet l k v) j = if j = k then v else kvGet d l j := by
  induction l with
  | nil => by_cases h : j = k <;> simp [kvSet, kvGet, h]
  | cons e r ih =>
    obtain ⟨k', v'⟩ := e
    simp only [kvSet]
    split
    · simp only [kvGet]
      split
      · rfl
      · split
        · rw [if_neg (by omega), if_pos (by omega)]
        · rfl
    · split
      · subst_vars
        simp only [kvGet]
        split <;> rfl
      · simp only [kvGet]
        split
        · rw [if_neg (by omega)]
        · split
          · rw [if_neg (by omega)]
          · exact ih

@[simp] theorem kvGet_kvSet_same {α : Type} (d v : α) (l : KV α) (k : Nat) : kvGet d (kvSet l k v) k = v := by
  rw [kvGet_kvSet, if_pos rfl]

theorem kvGet_kvSet_ne {α : Type} (d v : α) (l : KV α) {k j : Nat} (h : j ≠ k) :
    kvGet d (kvSet l k v) j = kvGet d l j := by
  rw [kvGet_kvSet, if_neg h]

end Sys2Proof

namespace Sys2Proof.Machine.State

/-! Reading a part after `mod…` of the same part. -/

theorem thread_modThread (s : State) (t u : Nat) (f : Thread → Thread) :
    (s.modThread t f).thread u = if u = t then f (s.thread t) else s.thread u := kvGet_kvSet ..
theorem warp_modWarp (s : State) (t u : Nat) (f : Warp → Warp) :
    (s.modWarp t f).warp u = if u = t then f (s.warp t) else s.warp u := kvGet_kvSet ..
theorem lane_modLane (s : State) (t u : Nat) (f : Lane → Lane) :
    (s.modLane t f).lane u = if u = t then f (s.lane t) else s.lane u := kvGet_kvSet ..
theorem core_modCore (s : State) (t u : Nat) (f : Core → Core) :
    (s.modCore t f).core u = if u = t then f (s.core t) else s.core u := kvGet_kvSet ..
theorem die_modDie (s : State) (t u : Nat) (f : Die → Die) :
    (s.modDie t f).die u = if u = t then f (s.die t) else s.die u := kvGet_kvSet ..
theorem dir_modDir (s : State) (t u : Nat) (f : Dir → Dir) :
    (s.modDir t f).dir u = if u = t then f (s.dir t) else s.dir u := kvGet_kvSet ..
theorem link_modLink (s : State) (t u : Nat) (f : Link → Link) :
    (s.modLink t f).link u = if u = t then f (s.link t) else s.link u := kvGet_kvSet ..
theorem pkg_modPkg (s : State) (t u : Nat) (f : Pkg → Pkg) :
    (s.modPkg t f).pkg u = if u = t then f (s.pkg t) else s.pkg u := kvGet_kvSet ..
theorem launch_modLaunch (s : State) (t u : Nat) (f : Launch → Launch) :
    (s.modLaunch t f).launch u = if u = t then f (s.launch t) else s.launch u := kvGet_kvSet ..
theorem req_modReq (s : State) (t u : Nat) (f : Req → Req) :
    (s.modReq t f).req u = if u = t then f (s.req t) else s.req u := kvGet_kvSet ..
theorem op_modOp (s : State) (t u : Nat) (f : Op → Op) :
    (s.modOp t f).op u = if u = t then f (s.op t) else s.op u := kvGet_kvSet ..

@[simp] theorem thread_modThread_same (s : State) (t : Nat) (f : Thread → Thread) :
    (s.modThread t f).thread t = f (s.thread t) := kvGet_kvSet_same ..
@[simp] theorem warp_modWarp_same (s : State) (t : Nat) (f : Warp → Warp) : (s.modWarp t f).warp t = f (s.warp t) :=
  kvGet_kvSet_same ..
@[simp] theorem lane_modLane_same (s : State) (t : Nat) (f : Lane → Lane) : (s.modLane t f).lane t = f (s.lane t) :=
  kvGet_kvSet_same ..
@[simp] theorem core_modCore_same (s : State) (t : Nat) (f : Core → Core) : (s.modCore t f).core t = f (s.core t) :=
  kvGet_kvSet_same ..
@[simp] theorem die_modDie_same (s : State) (t : Nat) (f : Die → Die) : (s.modDie t f).die t = f (s.die t) :=
  kvGet_kvSet_same ..
@[simp] theorem dir_modDir_same (s : State) (t : Nat) (f : Dir → Dir) : (s.modDir t f).dir t = f (s.dir t) :=
  kvGet_kvSet_same ..
@[simp] theorem link_modLink_same (s : State) (t : Nat) (f : Link → Link) : (s.modLink t f).link t = f (s.link t) :=
  kvGet_kvSet_same ..
@[simp] theorem pkg_modPkg_same (s : State) (t : Nat) (f : Pkg → Pkg) : (s.modPkg t f).pkg t = f (s.pkg t) :=
  kvGet_kvSet_same ..
@[simp] theorem launch_modLaunch_same (s : State) (t : Nat) (f : Launch → Launch) :
    (s.modLaunch t f).launch t = f (s.launch t) := kvGet_kvSet_same ..
@[simp] theorem req_modReq_same (s : State) (t : Nat) (f : Req → Req) : (s.modReq t f).req t = f (s.req t) :=
  kvGet_kvSet_same ..
@[simp] theorem op_modOp_same (s : State) (t : Nat) (f : Op → Op) : (s.modOp t f).op t = f (s.op t) :=
  kvGet_kvSet_same ..

end Sys2Proof.Machine.State
end

