-- ==== Sys2Proof/Laws/State.lean ====
section
/-! SUPPORT. What each update of the state leaves as it was, one lemma for each field and each part. -/

namespace Sys2Proof.Machine.State


/-! modThread -/

section
variable (s : State) (k : Nat) (f : Thread → Thread)

@[simp] theorem modThread_clk : (s.modThread k f).clk = s.clk := rfl
@[simp] theorem modThread_agenda : (s.modThread k f).agenda = s.agenda := rfl
@[simp] theorem modThread_ev : (s.modThread k f).ev = s.ev := rfl
@[simp] theorem modThread_cur : (s.modThread k f).cur = s.cur := rfl
@[simp] theorem modThread_free : (s.modThread k f).free = s.free := rfl
@[simp] theorem modThread_nextId : (s.modThread k f).nextId = s.nextId := rfl
@[simp] theorem modThread_domain : (s.modThread k f).domain = s.domain := rfl
@[simp] theorem modThread_warps : (s.modThread k f).warps = s.warps := rfl
@[simp] theorem modThread_lanes : (s.modThread k f).lanes = s.lanes := rfl
@[simp] theorem modThread_cores : (s.modThread k f).cores = s.cores := rfl
@[simp] theorem modThread_dies : (s.modThread k f).dies = s.dies := rfl
@[simp] theorem modThread_dirs : (s.modThread k f).dirs = s.dirs := rfl
@[simp] theorem modThread_links : (s.modThread k f).links = s.links := rfl
@[simp] theorem modThread_pkgs : (s.modThread k f).pkgs = s.pkgs := rfl
@[simp] theorem modThread_mem : (s.modThread k f).mem = s.mem := rfl
@[simp] theorem modThread_cellar : (s.modThread k f).cellar = s.cellar := rfl
@[simp] theorem modThread_host : (s.modThread k f).host = s.host := rfl
@[simp] theorem modThread_metaw : (s.modThread k f).metaw = s.metaw := rfl
@[simp] theorem modThread_errs : (s.modThread k f).errs = s.errs := rfl
@[simp] theorem modThread_reqs : (s.modThread k f).reqs = s.reqs := rfl
@[simp] theorem modThread_insts : (s.modThread k f).insts = s.insts := rfl
@[simp] theorem modThread_ops : (s.modThread k f).ops = s.ops := rfl
@[simp] theorem modThread_msgs : (s.modThread k f).msgs = s.msgs := rfl
@[simp] theorem modThread_launches : (s.modThread k f).launches = s.launches := rfl
@[simp] theorem modThread_saved : (s.modThread k f).saved = s.saved := rfl
@[simp] theorem modThread_warp (n : Nat) : (s.modThread k f).warp n = s.warp n := rfl
@[simp] theorem modThread_lane (n : Nat) : (s.modThread k f).lane n = s.lane n := rfl
@[simp] theorem modThread_core (n : Nat) : (s.modThread k f).core n = s.core n := rfl
@[simp] theorem modThread_die (n : Nat) : (s.modThread k f).die n = s.die n := rfl
@[simp] theorem modThread_dir (n : Nat) : (s.modThread k f).dir n = s.dir n := rfl
@[simp] theorem modThread_link (n : Nat) : (s.modThread k f).link n = s.link n := rfl
@[simp] theorem modThread_pkg (n : Nat) : (s.modThread k f).pkg n = s.pkg n := rfl
@[simp] theorem modThread_launch (n : Nat) : (s.modThread k f).launch n = s.launch n := rfl
@[simp] theorem modThread_req (n : Nat) : (s.modThread k f).req n = s.req n := rfl
@[simp] theorem modThread_op (n : Nat) : (s.modThread k f).op n = s.op n := rfl
@[simp] theorem modThread_wreg (t r : Nat) : (s.modThread k f).wreg t r = s.wreg t r := rfl
@[simp] theorem modThread_mask (t r : Nat) : (s.modThread k f).mask t r = s.mask t r := rfl
@[simp] theorem modThread_cohort (n : Nat) : (s.modThread k f).cohort n = s.cohort n := rfl

end

/-! modWarp -/

section
variable (s : State) (k : Nat) (f : Warp → Warp)

@[simp] theorem modWarp_clk : (s.modWarp k f).clk = s.clk := rfl
@[simp] theorem modWarp_agenda : (s.modWarp k f).agenda = s.agenda := rfl
@[simp] theorem modWarp_ev : (s.modWarp k f).ev = s.ev := rfl
@[simp] theorem modWarp_cur : (s.modWarp k f).cur = s.cur := rfl
@[simp] theorem modWarp_free : (s.modWarp k f).free = s.free := rfl
@[simp] theorem modWarp_nextId : (s.modWarp k f).nextId = s.nextId := rfl
@[simp] theorem modWarp_domain : (s.modWarp k f).domain = s.domain := rfl
@[simp] theorem modWarp_threads : (s.modWarp k f).threads = s.threads := rfl
@[simp] theorem modWarp_lanes : (s.modWarp k f).lanes = s.lanes := rfl
@[simp] theorem modWarp_cores : (s.modWarp k f).cores = s.cores := rfl
@[simp] theorem modWarp_dies : (s.modWarp k f).dies = s.dies := rfl
@[simp] theorem modWarp_dirs : (s.modWarp k f).dirs = s.dirs := rfl
@[simp] theorem modWarp_links : (s.modWarp k f).links = s.links := rfl
@[simp] theorem modWarp_pkgs : (s.modWarp k f).pkgs = s.pkgs := rfl
@[simp] theorem modWarp_mem : (s.modWarp k f).mem = s.mem := rfl
@[simp] theorem modWarp_cellar : (s.modWarp k f).cellar = s.cellar := rfl
@[simp] theorem modWarp_host : (s.modWarp k f).host = s.host := rfl
@[simp] theorem modWarp_metaw : (s.modWarp k f).metaw = s.metaw := rfl
@[simp] theorem modWarp_errs : (s.modWarp k f).errs = s.errs := rfl
@[simp] theorem modWarp_reqs : (s.modWarp k f).reqs = s.reqs := rfl
@[simp] theorem modWarp_insts : (s.modWarp k f).insts = s.insts := rfl
@[simp] theorem modWarp_ops : (s.modWarp k f).ops = s.ops := rfl
@[simp] theorem modWarp_msgs : (s.modWarp k f).msgs = s.msgs := rfl
@[simp] theorem modWarp_launches : (s.modWarp k f).launches = s.launches := rfl
@[simp] theorem modWarp_saved : (s.modWarp k f).saved = s.saved := rfl
@[simp] theorem modWarp_thread (n : Nat) : (s.modWarp k f).thread n = s.thread n := rfl
@[simp] theorem modWarp_lane (n : Nat) : (s.modWarp k f).lane n = s.lane n := rfl
@[simp] theorem modWarp_core (n : Nat) : (s.modWarp k f).core n = s.core n := rfl
@[simp] theorem modWarp_die (n : Nat) : (s.modWarp k f).die n = s.die n := rfl
@[simp] theorem modWarp_dir (n : Nat) : (s.modWarp k f).dir n = s.dir n := rfl
@[simp] theorem modWarp_link (n : Nat) : (s.modWarp k f).link n = s.link n := rfl
@[simp] theorem modWarp_pkg (n : Nat) : (s.modWarp k f).pkg n = s.pkg n := rfl
@[simp] theorem modWarp_launch (n : Nat) : (s.modWarp k f).launch n = s.launch n := rfl
@[simp] theorem modWarp_req (n : Nat) : (s.modWarp k f).req n = s.req n := rfl
@[simp] theorem modWarp_op (n : Nat) : (s.modWarp k f).op n = s.op n := rfl
@[simp] theorem modWarp_greg (t r : Nat) : (s.modWarp k f).greg t r = s.greg t r := rfl
@[simp] theorem modWarp_pred (t r : Nat) : (s.modWarp k f).pred t r = s.pred t r := rfl
@[simp] theorem modWarp_cohort (n : Nat) : (s.modWarp k f).cohort n = s.cohort n := rfl

end

/-! modLane -/

section
variable (s : State) (k : Nat) (f : Lane → Lane)

@[simp] theorem modLane_clk : (s.modLane k f).clk = s.clk := rfl
@[simp] theorem modLane_agenda : (s.modLane k f).agenda = s.agenda := rfl
@[simp] theorem modLane_ev : (s.modLane k f).ev = s.ev := rfl
@[simp] theorem modLane_cur : (s.modLane k f).cur = s.cur := rfl
@[simp] theorem modLane_free : (s.modLane k f).free = s.free := rfl
@[simp] theorem modLane_nextId : (s.modLane k f).nextId = s.nextId := rfl
@[simp] theorem modLane_domain : (s.modLane k f).domain = s.domain := rfl
@[simp] theorem modLane_threads : (s.modLane k f).threads = s.threads := rfl
@[simp] theorem modLane_warps : (s.modLane k f).warps = s.warps := rfl
@[simp] theorem modLane_cores : (s.modLane k f).cores = s.cores := rfl
@[simp] theorem modLane_dies : (s.modLane k f).dies = s.dies := rfl
@[simp] theorem modLane_dirs : (s.modLane k f).dirs = s.dirs := rfl
@[simp] theorem modLane_links : (s.modLane k f).links = s.links := rfl
@[simp] theorem modLane_pkgs : (s.modLane k f).pkgs = s.pkgs := rfl
@[simp] theorem modLane_mem : (s.modLane k f).mem = s.mem := rfl
@[simp] theorem modLane_cellar : (s.modLane k f).cellar = s.cellar := rfl
@[simp] theorem modLane_host : (s.modLane k f).host = s.host := rfl
@[simp] theorem modLane_metaw : (s.modLane k f).metaw = s.metaw := rfl
@[simp] theorem modLane_errs : (s.modLane k f).errs = s.errs := rfl
@[simp] theorem modLane_reqs : (s.modLane k f).reqs = s.reqs := rfl
@[simp] theorem modLane_insts : (s.modLane k f).insts = s.insts := rfl
@[simp] theorem modLane_ops : (s.modLane k f).ops = s.ops := rfl
@[simp] theorem modLane_msgs : (s.modLane k f).msgs = s.msgs := rfl
@[simp] theorem modLane_launches : (s.modLane k f).launches = s.launches := rfl
@[simp] theorem modLane_saved : (s.modLane k f).saved = s.saved := rfl
@[simp] theorem modLane_thread (n : Nat) : (s.modLane k f).thread n = s.thread n := rfl
@[simp] theorem modLane_warp (n : Nat) : (s.modLane k f).warp n = s.warp n := rfl
@[simp] theorem modLane_core (n : Nat) : (s.modLane k f).core n = s.core n := rfl
@[simp] theorem modLane_die (n : Nat) : (s.modLane k f).die n = s.die n := rfl
@[simp] theorem modLane_dir (n : Nat) : (s.modLane k f).dir n = s.dir n := rfl
@[simp] theorem modLane_link (n : Nat) : (s.modLane k f).link n = s.link n := rfl
@[simp] theorem modLane_pkg (n : Nat) : (s.modLane k f).pkg n = s.pkg n := rfl
@[simp] theorem modLane_launch (n : Nat) : (s.modLane k f).launch n = s.launch n := rfl
@[simp] theorem modLane_req (n : Nat) : (s.modLane k f).req n = s.req n := rfl
@[simp] theorem modLane_op (n : Nat) : (s.modLane k f).op n = s.op n := rfl
@[simp] theorem modLane_greg (t r : Nat) : (s.modLane k f).greg t r = s.greg t r := rfl
@[simp] theorem modLane_pred (t r : Nat) : (s.modLane k f).pred t r = s.pred t r := rfl
@[simp] theorem modLane_wreg (t r : Nat) : (s.modLane k f).wreg t r = s.wreg t r := rfl
@[simp] theorem modLane_mask (t r : Nat) : (s.modLane k f).mask t r = s.mask t r := rfl
@[simp] theorem modLane_cohort (n : Nat) : (s.modLane k f).cohort n = s.cohort n := rfl
@[simp] theorem modLane_alive (n : Nat) : (s.modLane k f).alive n = s.alive n := rfl

end

/-! modCore -/

section
variable (s : State) (k : Nat) (f : Core → Core)

@[simp] theorem modCore_clk : (s.modCore k f).clk = s.clk := rfl
@[simp] theorem modCore_agenda : (s.modCore k f).agenda = s.agenda := rfl
@[simp] theorem modCore_ev : (s.modCore k f).ev = s.ev := rfl
@[simp] theorem modCore_cur : (s.modCore k f).cur = s.cur := rfl
@[simp] theorem modCore_free : (s.modCore k f).free = s.free := rfl
@[simp] theorem modCore_nextId : (s.modCore k f).nextId = s.nextId := rfl
@[simp] theorem modCore_domain : (s.modCore k f).domain = s.domain := rfl
@[simp] theorem modCore_threads : (s.modCore k f).threads = s.threads := rfl
@[simp] theorem modCore_warps : (s.modCore k f).warps = s.warps := rfl
@[simp] theorem modCore_lanes : (s.modCore k f).lanes = s.lanes := rfl
@[simp] theorem modCore_dies : (s.modCore k f).dies = s.dies := rfl
@[simp] theorem modCore_dirs : (s.modCore k f).dirs = s.dirs := rfl
@[simp] theorem modCore_links : (s.modCore k f).links = s.links := rfl
@[simp] theorem modCore_pkgs : (s.modCore k f).pkgs = s.pkgs := rfl
@[simp] theorem modCore_mem : (s.modCore k f).mem = s.mem := rfl
@[simp] theorem modCore_cellar : (s.modCore k f).cellar = s.cellar := rfl
@[simp] theorem modCore_host : (s.modCore k f).host = s.host := rfl
@[simp] theorem modCore_metaw : (s.modCore k f).metaw = s.metaw := rfl
@[simp] theorem modCore_errs : (s.modCore k f).errs = s.errs := rfl
@[simp] theorem modCore_reqs : (s.modCore k f).reqs = s.reqs := rfl
@[simp] theorem modCore_insts : (s.modCore k f).insts = s.insts := rfl
@[simp] theorem modCore_ops : (s.modCore k f).ops = s.ops := rfl
@[simp] theorem modCore_msgs : (s.modCore k f).msgs = s.msgs := rfl
@[simp] theorem modCore_launches : (s.modCore k f).launches = s.launches := rfl
@[simp] theorem modCore_saved : (s.modCore k f).saved = s.saved := rfl
@[simp] theorem modCore_thread (n : Nat) : (s.modCore k f).thread n = s.thread n := rfl
@[simp] theorem modCore_warp (n : Nat) : (s.modCore k f).warp n = s.warp n := rfl
@[simp] theorem modCore_lane (n : Nat) : (s.modCore k f).lane n = s.lane n := rfl
@[simp] theorem modCore_die (n : Nat) : (s.modCore k f).die n = s.die n := rfl
@[simp] theorem modCore_dir (n : Nat) : (s.modCore k f).dir n = s.dir n := rfl
@[simp] theorem modCore_link (n : Nat) : (s.modCore k f).link n = s.link n := rfl
@[simp] theorem modCore_pkg (n : Nat) : (s.modCore k f).pkg n = s.pkg n := rfl
@[simp] theorem modCore_launch (n : Nat) : (s.modCore k f).launch n = s.launch n := rfl
@[simp] theorem modCore_req (n : Nat) : (s.modCore k f).req n = s.req n := rfl
@[simp] theorem modCore_op (n : Nat) : (s.modCore k f).op n = s.op n := rfl
@[simp] theorem modCore_greg (t r : Nat) : (s.modCore k f).greg t r = s.greg t r := rfl
@[simp] theorem modCore_pred (t r : Nat) : (s.modCore k f).pred t r = s.pred t r := rfl
@[simp] theorem modCore_wreg (t r : Nat) : (s.modCore k f).wreg t r = s.wreg t r := rfl
@[simp] theorem modCore_mask (t r : Nat) : (s.modCore k f).mask t r = s.mask t r := rfl

end

/-! modDie -/

section
variable (s : State) (k : Nat) (f : Die → Die)

@[simp] theorem modDie_clk : (s.modDie k f).clk = s.clk := rfl
@[simp] theorem modDie_agenda : (s.modDie k f).agenda = s.agenda := rfl
@[simp] theorem modDie_ev : (s.modDie k f).ev = s.ev := rfl
@[simp] theorem modDie_cur : (s.modDie k f).cur = s.cur := rfl
@[simp] theorem modDie_free : (s.modDie k f).free = s.free := rfl
@[simp] theorem modDie_nextId : (s.modDie k f).nextId = s.nextId := rfl
@[simp] theorem modDie_domain : (s.modDie k f).domain = s.domain := rfl
@[simp] theorem modDie_threads : (s.modDie k f).threads = s.threads := rfl
@[simp] theorem modDie_warps : (s.modDie k f).warps = s.warps := rfl
@[simp] theorem modDie_lanes : (s.modDie k f).lanes = s.lanes := rfl
@[simp] theorem modDie_cores : (s.modDie k f).cores = s.cores := rfl
@[simp] theorem modDie_dirs : (s.modDie k f).dirs = s.dirs := rfl
@[simp] theorem modDie_links : (s.modDie k f).links = s.links := rfl
@[simp] theorem modDie_pkgs : (s.modDie k f).pkgs = s.pkgs := rfl
@[simp] theorem modDie_mem : (s.modDie k f).mem = s.mem := rfl
@[simp] theorem modDie_cellar : (s.modDie k f).cellar = s.cellar := rfl
@[simp] theorem modDie_host : (s.modDie k f).host = s.host := rfl
@[simp] theorem modDie_metaw : (s.modDie k f).metaw = s.metaw := rfl
@[simp] theorem modDie_errs : (s.modDie k f).errs = s.errs := rfl
@[simp] theorem modDie_reqs : (s.modDie k f).reqs = s.reqs := rfl
@[simp] theorem modDie_insts : (s.modDie k f).insts = s.insts := rfl
@[simp] theorem modDie_ops : (s.modDie k f).ops = s.ops := rfl
@[simp] theorem modDie_msgs : (s.modDie k f).msgs = s.msgs := rfl
@[simp] theorem modDie_launches : (s.modDie k f).launches = s.launches := rfl
@[simp] theorem modDie_saved : (s.modDie k f).saved = s.saved := rfl
@[simp] theorem modDie_thread (n : Nat) : (s.modDie k f).thread n = s.thread n := rfl
@[simp] theorem modDie_warp (n : Nat) : (s.modDie k f).warp n = s.warp n := rfl
@[simp] theorem modDie_lane (n : Nat) : (s.modDie k f).lane n = s.lane n := rfl
@[simp] theorem modDie_core (n : Nat) : (s.modDie k f).core n = s.core n := rfl
@[simp] theorem modDie_dir (n : Nat) : (s.modDie k f).dir n = s.dir n := rfl
@[simp] theorem modDie_link (n : Nat) : (s.modDie k f).link n = s.link n := rfl
@[simp] theorem modDie_pkg (n : Nat) : (s.modDie k f).pkg n = s.pkg n := rfl
@[simp] theorem modDie_launch (n : Nat) : (s.modDie k f).launch n = s.launch n := rfl
@[simp] theorem modDie_req (n : Nat) : (s.modDie k f).req n = s.req n := rfl
@[simp] theorem modDie_op (n : Nat) : (s.modDie k f).op n = s.op n := rfl
@[simp] theorem modDie_greg (t r : Nat) : (s.modDie k f).greg t r = s.greg t r := rfl
@[simp] theorem modDie_pred (t r : Nat) : (s.modDie k f).pred t r = s.pred t r := rfl
@[simp] theorem modDie_wreg (t r : Nat) : (s.modDie k f).wreg t r = s.wreg t r := rfl
@[simp] theorem modDie_mask (t r : Nat) : (s.modDie k f).mask t r = s.mask t r := rfl
@[simp] theorem modDie_cohort (n : Nat) : (s.modDie k f).cohort n = s.cohort n := rfl
@[simp] theorem modDie_alive (n : Nat) : (s.modDie k f).alive n = s.alive n := rfl

end

/-! modDir -/

section
variable (s : State) (k : Nat) (f : Dir → Dir)

@[simp] theorem modDir_clk : (s.modDir k f).clk = s.clk := rfl
@[simp] theorem modDir_agenda : (s.modDir k f).agenda = s.agenda := rfl
@[simp] theorem modDir_ev : (s.modDir k f).ev = s.ev := rfl
@[simp] theorem modDir_cur : (s.modDir k f).cur = s.cur := rfl
@[simp] theorem modDir_free : (s.modDir k f).free = s.free := rfl
@[simp] theorem modDir_nextId : (s.modDir k f).nextId = s.nextId := rfl
@[simp] theorem modDir_domain : (s.modDir k f).domain = s.domain := rfl
@[simp] theorem modDir_threads : (s.modDir k f).threads = s.threads := rfl
@[simp] theorem modDir_warps : (s.modDir k f).warps = s.warps := rfl
@[simp] theorem modDir_lanes : (s.modDir k f).lanes = s.lanes := rfl
@[simp] theorem modDir_cores : (s.modDir k f).cores = s.cores := rfl
@[simp] theorem modDir_dies : (s.modDir k f).dies = s.dies := rfl
@[simp] theorem modDir_links : (s.modDir k f).links = s.links := rfl
@[simp] theorem modDir_pkgs : (s.modDir k f).pkgs = s.pkgs := rfl
@[simp] theorem modDir_mem : (s.modDir k f).mem = s.mem := rfl
@[simp] theorem modDir_cellar : (s.modDir k f).cellar = s.cellar := rfl
@[simp] theorem modDir_host : (s.modDir k f).host = s.host := rfl
@[simp] theorem modDir_metaw : (s.modDir k f).metaw = s.metaw := rfl
@[simp] theorem modDir_errs : (s.modDir k f).errs = s.errs := rfl
@[simp] theorem modDir_reqs : (s.modDir k f).reqs = s.reqs := rfl
@[simp] theorem modDir_insts : (s.modDir k f).insts = s.insts := rfl
@[simp] theorem modDir_ops : (s.modDir k f).ops = s.ops := rfl
@[simp] theorem modDir_msgs : (s.modDir k f).msgs = s.msgs := rfl
@[simp] theorem modDir_launches : (s.modDir k f).launches = s.launches := rfl
@[simp] theorem modDir_saved : (s.modDir k f).saved = s.saved := rfl
@[simp] theorem modDir_thread (n : Nat) : (s.modDir k f).thread n = s.thread n := rfl
@[simp] theorem modDir_warp (n : Nat) : (s.modDir k f).warp n = s.warp n := rfl
@[simp] theorem modDir_lane (n : Nat) : (s.modDir k f).lane n = s.lane n := rfl
@[simp] theorem modDir_core (n : Nat) : (s.modDir k f).core n = s.core n := rfl
@[simp] theorem modDir_die (n : Nat) : (s.modDir k f).die n = s.die n := rfl
@[simp] theorem modDir_link (n : Nat) : (s.modDir k f).link n = s.link n := rfl
@[simp] theorem modDir_pkg (n : Nat) : (s.modDir k f).pkg n = s.pkg n := rfl
@[simp] theorem modDir_launch (n : Nat) : (s.modDir k f).launch n = s.launch n := rfl
@[simp] theorem modDir_req (n : Nat) : (s.modDir k f).req n = s.req n := rfl
@[simp] theorem modDir_op (n : Nat) : (s.modDir k f).op n = s.op n := rfl
@[simp] theorem modDir_greg (t r : Nat) : (s.modDir k f).greg t r = s.greg t r := rfl
@[simp] theorem modDir_pred (t r : Nat) : (s.modDir k f).pred t r = s.pred t r := rfl
@[simp] theorem modDir_wreg (t r : Nat) : (s.modDir k f).wreg t r = s.wreg t r := rfl
@[simp] theorem modDir_mask (t r : Nat) : (s.modDir k f).mask t r = s.mask t r := rfl
@[simp] theorem modDir_cohort (n : Nat) : (s.modDir k f).cohort n = s.cohort n := rfl
@[simp] theorem modDir_alive (n : Nat) : (s.modDir k f).alive n = s.alive n := rfl

end

/-! modLink -/

section
variable (s : State) (k : Nat) (f : Link → Link)

@[simp] theorem modLink_clk : (s.modLink k f).clk = s.clk := rfl
@[simp] theorem modLink_agenda : (s.modLink k f).agenda = s.agenda := rfl
@[simp] theorem modLink_ev : (s.modLink k f).ev = s.ev := rfl
@[simp] theorem modLink_cur : (s.modLink k f).cur = s.cur := rfl
@[simp] theorem modLink_free : (s.modLink k f).free = s.free := rfl
@[simp] theorem modLink_nextId : (s.modLink k f).nextId = s.nextId := rfl
@[simp] theorem modLink_domain : (s.modLink k f).domain = s.domain := rfl
@[simp] theorem modLink_threads : (s.modLink k f).threads = s.threads := rfl
@[simp] theorem modLink_warps : (s.modLink k f).warps = s.warps := rfl
@[simp] theorem modLink_lanes : (s.modLink k f).lanes = s.lanes := rfl
@[simp] theorem modLink_cores : (s.modLink k f).cores = s.cores := rfl
@[simp] theorem modLink_dies : (s.modLink k f).dies = s.dies := rfl
@[simp] theorem modLink_dirs : (s.modLink k f).dirs = s.dirs := rfl
@[simp] theorem modLink_pkgs : (s.modLink k f).pkgs = s.pkgs := rfl
@[simp] theorem modLink_mem : (s.modLink k f).mem = s.mem := rfl
@[simp] theorem modLink_cellar : (s.modLink k f).cellar = s.cellar := rfl
@[simp] theorem modLink_host : (s.modLink k f).host = s.host := rfl
@[simp] theorem modLink_metaw : (s.modLink k f).metaw = s.metaw := rfl
@[simp] theorem modLink_errs : (s.modLink k f).errs = s.errs := rfl
@[simp] theorem modLink_reqs : (s.modLink k f).reqs = s.reqs := rfl
@[simp] theorem modLink_insts : (s.modLink k f).insts = s.insts := rfl
@[simp] theorem modLink_ops : (s.modLink k f).ops = s.ops := rfl
@[simp] theorem modLink_msgs : (s.modLink k f).msgs = s.msgs := rfl
@[simp] theorem modLink_launches : (s.modLink k f).launches = s.launches := rfl
@[simp] theorem modLink_saved : (s.modLink k f).saved = s.saved := rfl
@[simp] theorem modLink_thread (n : Nat) : (s.modLink k f).thread n = s.thread n := rfl
@[simp] theorem modLink_warp (n : Nat) : (s.modLink k f).warp n = s.warp n := rfl
@[simp] theorem modLink_lane (n : Nat) : (s.modLink k f).lane n = s.lane n := rfl
@[simp] theorem modLink_core (n : Nat) : (s.modLink k f).core n = s.core n := rfl
@[simp] theorem modLink_die (n : Nat) : (s.modLink k f).die n = s.die n := rfl
@[simp] theorem modLink_dir (n : Nat) : (s.modLink k f).dir n = s.dir n := rfl
@[simp] theorem modLink_pkg (n : Nat) : (s.modLink k f).pkg n = s.pkg n := rfl
@[simp] theorem modLink_launch (n : Nat) : (s.modLink k f).launch n = s.launch n := rfl
@[simp] theorem modLink_req (n : Nat) : (s.modLink k f).req n = s.req n := rfl
@[simp] theorem modLink_op (n : Nat) : (s.modLink k f).op n = s.op n := rfl
@[simp] theorem modLink_greg (t r : Nat) : (s.modLink k f).greg t r = s.greg t r := rfl
@[simp] theorem modLink_pred (t r : Nat) : (s.modLink k f).pred t r = s.pred t r := rfl
@[simp] theorem modLink_wreg (t r : Nat) : (s.modLink k f).wreg t r = s.wreg t r := rfl
@[simp] theorem modLink_mask (t r : Nat) : (s.modLink k f).mask t r = s.mask t r := rfl
@[simp] theorem modLink_cohort (n : Nat) : (s.modLink k f).cohort n = s.cohort n := rfl
@[simp] theorem modLink_alive (n : Nat) : (s.modLink k f).alive n = s.alive n := rfl

end

/-! modPkg -/

section
variable (s : State) (k : Nat) (f : Pkg → Pkg)

@[simp] theorem modPkg_clk : (s.modPkg k f).clk = s.clk := rfl
@[simp] theorem modPkg_agenda : (s.modPkg k f).agenda = s.agenda := rfl
@[simp] theorem modPkg_ev : (s.modPkg k f).ev = s.ev := rfl
@[simp] theorem modPkg_cur : (s.modPkg k f).cur = s.cur := rfl
@[simp] theorem modPkg_free : (s.modPkg k f).free = s.free := rfl
@[simp] theorem modPkg_nextId : (s.modPkg k f).nextId = s.nextId := rfl
@[simp] theorem modPkg_domain : (s.modPkg k f).domain = s.domain := rfl
@[simp] theorem modPkg_threads : (s.modPkg k f).threads = s.threads := rfl
@[simp] theorem modPkg_warps : (s.modPkg k f).warps = s.warps := rfl
@[simp] theorem modPkg_lanes : (s.modPkg k f).lanes = s.lanes := rfl
@[simp] theorem modPkg_cores : (s.modPkg k f).cores = s.cores := rfl
@[simp] theorem modPkg_dies : (s.modPkg k f).dies = s.dies := rfl
@[simp] theorem modPkg_dirs : (s.modPkg k f).dirs = s.dirs := rfl
@[simp] theorem modPkg_links : (s.modPkg k f).links = s.links := rfl
@[simp] theorem modPkg_mem : (s.modPkg k f).mem = s.mem := rfl
@[simp] theorem modPkg_cellar : (s.modPkg k f).cellar = s.cellar := rfl
@[simp] theorem modPkg_host : (s.modPkg k f).host = s.host := rfl
@[simp] theorem modPkg_metaw : (s.modPkg k f).metaw = s.metaw := rfl
@[simp] theorem modPkg_errs : (s.modPkg k f).errs = s.errs := rfl
@[simp] theorem modPkg_reqs : (s.modPkg k f).reqs = s.reqs := rfl
@[simp] theorem modPkg_insts : (s.modPkg k f).insts = s.insts := rfl
@[simp] theorem modPkg_ops : (s.modPkg k f).ops = s.ops := rfl
@[simp] theorem modPkg_msgs : (s.modPkg k f).msgs = s.msgs := rfl
@[simp] theorem modPkg_launches : (s.modPkg k f).launches = s.launches := rfl
@[simp] theorem modPkg_saved : (s.modPkg k f).saved = s.saved := rfl
@[simp] theorem modPkg_thread (n : Nat) : (s.modPkg k f).thread n = s.thread n := rfl
@[simp] theorem modPkg_warp (n : Nat) : (s.modPkg k f).warp n = s.warp n := rfl
@[simp] theorem modPkg_lane (n : Nat) : (s.modPkg k f).lane n = s.lane n := rfl
@[simp] theorem modPkg_core (n : Nat) : (s.modPkg k f).core n = s.core n := rfl
@[simp] theorem modPkg_die (n : Nat) : (s.modPkg k f).die n = s.die n := rfl
@[simp] theorem modPkg_dir (n : Nat) : (s.modPkg k f).dir n = s.dir n := rfl
@[simp] theorem modPkg_link (n : Nat) : (s.modPkg k f).link n = s.link n := rfl
@[simp] theorem modPkg_launch (n : Nat) : (s.modPkg k f).launch n = s.launch n := rfl
@[simp] theorem modPkg_req (n : Nat) : (s.modPkg k f).req n = s.req n := rfl
@[simp] theorem modPkg_op (n : Nat) : (s.modPkg k f).op n = s.op n := rfl
@[simp] theorem modPkg_greg (t r : Nat) : (s.modPkg k f).greg t r = s.greg t r := rfl
@[simp] theorem modPkg_pred (t r : Nat) : (s.modPkg k f).pred t r = s.pred t r := rfl
@[simp] theorem modPkg_wreg (t r : Nat) : (s.modPkg k f).wreg t r = s.wreg t r := rfl
@[simp] theorem modPkg_mask (t r : Nat) : (s.modPkg k f).mask t r = s.mask t r := rfl
@[simp] theorem modPkg_cohort (n : Nat) : (s.modPkg k f).cohort n = s.cohort n := rfl
@[simp] theorem modPkg_alive (n : Nat) : (s.modPkg k f).alive n = s.alive n := rfl

end

/-! modLaunch -/

section
variable (s : State) (k : Nat) (f : Launch → Launch)

@[simp] theorem modLaunch_clk : (s.modLaunch k f).clk = s.clk := rfl
@[simp] theorem modLaunch_agenda : (s.modLaunch k f).agenda = s.agenda := rfl
@[simp] theorem modLaunch_ev : (s.modLaunch k f).ev = s.ev := rfl
@[simp] theorem modLaunch_cur : (s.modLaunch k f).cur = s.cur := rfl
@[simp] theorem modLaunch_free : (s.modLaunch k f).free = s.free := rfl
@[simp] theorem modLaunch_nextId : (s.modLaunch k f).nextId = s.nextId := rfl
@[simp] theorem modLaunch_domain : (s.modLaunch k f).domain = s.domain := rfl
@[simp] theorem modLaunch_threads : (s.modLaunch k f).threads = s.threads := rfl
@[simp] theorem modLaunch_warps : (s.modLaunch k f).warps = s.warps := rfl
@[simp] theorem modLaunch_lanes : (s.modLaunch k f).lanes = s.lanes := rfl
@[simp] theorem modLaunch_cores : (s.modLaunch k f).cores = s.cores := rfl
@[simp] theorem modLaunch_dies : (s.modLaunch k f).dies = s.dies := rfl
@[simp] theorem modLaunch_dirs : (s.modLaunch k f).dirs = s.dirs := rfl
@[simp] theorem modLaunch_links : (s.modLaunch k f).links = s.links := rfl
@[simp] theorem modLaunch_pkgs : (s.modLaunch k f).pkgs = s.pkgs := rfl
@[simp] theorem modLaunch_mem : (s.modLaunch k f).mem = s.mem := rfl
@[simp] theorem modLaunch_cellar : (s.modLaunch k f).cellar = s.cellar := rfl
@[simp] theorem modLaunch_host : (s.modLaunch k f).host = s.host := rfl
@[simp] theorem modLaunch_metaw : (s.modLaunch k f).metaw = s.metaw := rfl
@[simp] theorem modLaunch_errs : (s.modLaunch k f).errs = s.errs := rfl
@[simp] theorem modLaunch_reqs : (s.modLaunch k f).reqs = s.reqs := rfl
@[simp] theorem modLaunch_insts : (s.modLaunch k f).insts = s.insts := rfl
@[simp] theorem modLaunch_ops : (s.modLaunch k f).ops = s.ops := rfl
@[simp] theorem modLaunch_msgs : (s.modLaunch k f).msgs = s.msgs := rfl
@[simp] theorem modLaunch_saved : (s.modLaunch k f).saved = s.saved := rfl
@[simp] theorem modLaunch_thread (n : Nat) : (s.modLaunch k f).thread n = s.thread n := rfl
@[simp] theorem modLaunch_warp (n : Nat) : (s.modLaunch k f).warp n = s.warp n := rfl
@[simp] theorem modLaunch_lane (n : Nat) : (s.modLaunch k f).lane n = s.lane n := rfl
@[simp] theorem modLaunch_core (n : Nat) : (s.modLaunch k f).core n = s.core n := rfl
@[simp] theorem modLaunch_die (n : Nat) : (s.modLaunch k f).die n = s.die n := rfl
@[simp] theorem modLaunch_dir (n : Nat) : (s.modLaunch k f).dir n = s.dir n := rfl
@[simp] theorem modLaunch_link (n : Nat) : (s.modLaunch k f).link n = s.link n := rfl
@[simp] theorem modLaunch_pkg (n : Nat) : (s.modLaunch k f).pkg n = s.pkg n := rfl
@[simp] theorem modLaunch_req (n : Nat) : (s.modLaunch k f).req n = s.req n := rfl
@[simp] theorem modLaunch_op (n : Nat) : (s.modLaunch k f).op n = s.op n := rfl
@[simp] theorem modLaunch_greg (t r : Nat) : (s.modLaunch k f).greg t r = s.greg t r := rfl
@[simp] theorem modLaunch_pred (t r : Nat) : (s.modLaunch k f).pred t r = s.pred t r := rfl
@[simp] theorem modLaunch_wreg (t r : Nat) : (s.modLaunch k f).wreg t r = s.wreg t r := rfl
@[simp] theorem modLaunch_mask (t r : Nat) : (s.modLaunch k f).mask t r = s.mask t r := rfl
@[simp] theorem modLaunch_cohort (n : Nat) : (s.modLaunch k f).cohort n = s.cohort n := rfl
@[simp] theorem modLaunch_alive (n : Nat) : (s.modLaunch k f).alive n = s.alive n := rfl

end

/-! modReq -/

section
variable (s : State) (k : Nat) (f : Req → Req)

@[simp] theorem modReq_clk : (s.modReq k f).clk = s.clk := rfl
@[simp] theorem modReq_agenda : (s.modReq k f).agenda = s.agenda := rfl
@[simp] theorem modReq_ev : (s.modReq k f).ev = s.ev := rfl
@[simp] theorem modReq_cur : (s.modReq k f).cur = s.cur := rfl
@[simp] theorem modReq_free : (s.modReq k f).free = s.free := rfl
@[simp] theorem modReq_nextId : (s.modReq k f).nextId = s.nextId := rfl
@[simp] theorem modReq_domain : (s.modReq k f).domain = s.domain := rfl
@[simp] theorem modReq_threads : (s.modReq k f).threads = s.threads := rfl
@[simp] theorem modReq_warps : (s.modReq k f).warps = s.warps := rfl
@[simp] theorem modReq_lanes : (s.modReq k f).lanes = s.lanes := rfl
@[simp] theorem modReq_cores : (s.modReq k f).cores = s.cores := rfl
@[simp] theorem modReq_dies : (s.modReq k f).dies = s.dies := rfl
@[simp] theorem modReq_dirs : (s.modReq k f).dirs = s.dirs := rfl
@[simp] theorem modReq_links : (s.modReq k f).links = s.links := rfl
@[simp] theorem modReq_pkgs : (s.modReq k f).pkgs = s.pkgs := rfl
@[simp] theorem modReq_mem : (s.modReq k f).mem = s.mem := rfl
@[simp] theorem modReq_cellar : (s.modReq k f).cellar = s.cellar := rfl
@[simp] theorem modReq_host : (s.modReq k f).host = s.host := rfl
@[simp] theorem modReq_metaw : (s.modReq k f).metaw = s.metaw := rfl
@[simp] theorem modReq_errs : (s.modReq k f).errs = s.errs := rfl
@[simp] theorem modReq_ops : (s.modReq k f).ops = s.ops := rfl
@[simp] theorem modReq_insts : (s.modReq k f).insts = s.insts := rfl
@[simp] theorem modReq_msgs : (s.modReq k f).msgs = s.msgs := rfl
@[simp] theorem modReq_launches : (s.modReq k f).launches = s.launches := rfl
@[simp] theorem modReq_saved : (s.modReq k f).saved = s.saved := rfl
@[simp] theorem modReq_thread (n : Nat) : (s.modReq k f).thread n = s.thread n := rfl
@[simp] theorem modReq_warp (n : Nat) : (s.modReq k f).warp n = s.warp n := rfl
@[simp] theorem modReq_lane (n : Nat) : (s.modReq k f).lane n = s.lane n := rfl
@[simp] theorem modReq_core (n : Nat) : (s.modReq k f).core n = s.core n := rfl
@[simp] theorem modReq_die (n : Nat) : (s.modReq k f).die n = s.die n := rfl
@[simp] theorem modReq_dir (n : Nat) : (s.modReq k f).dir n = s.dir n := rfl
@[simp] theorem modReq_link (n : Nat) : (s.modReq k f).link n = s.link n := rfl
@[simp] theorem modReq_pkg (n : Nat) : (s.modReq k f).pkg n = s.pkg n := rfl
@[simp] theorem modReq_launch (n : Nat) : (s.modReq k f).launch n = s.launch n := rfl
@[simp] theorem modReq_op (n : Nat) : (s.modReq k f).op n = s.op n := rfl
@[simp] theorem modReq_greg (t r : Nat) : (s.modReq k f).greg t r = s.greg t r := rfl
@[simp] theorem modReq_pred (t r : Nat) : (s.modReq k f).pred t r = s.pred t r := rfl
@[simp] theorem modReq_wreg (t r : Nat) : (s.modReq k f).wreg t r = s.wreg t r := rfl
@[simp] theorem modReq_mask (t r : Nat) : (s.modReq k f).mask t r = s.mask t r := rfl
@[simp] theorem modReq_cohort (n : Nat) : (s.modReq k f).cohort n = s.cohort n := rfl
@[simp] theorem modReq_alive (n : Nat) : (s.modReq k f).alive n = s.alive n := rfl

end

/-! modOp -/

section
variable (s : State) (k : Nat) (f : Op → Op)

@[simp] theorem modOp_clk : (s.modOp k f).clk = s.clk := rfl
@[simp] theorem modOp_agenda : (s.modOp k f).agenda = s.agenda := rfl
@[simp] theorem modOp_ev : (s.modOp k f).ev = s.ev := rfl
@[simp] theorem modOp_cur : (s.modOp k f).cur = s.cur := rfl
@[simp] theorem modOp_free : (s.modOp k f).free = s.free := rfl
@[simp] theorem modOp_nextId : (s.modOp k f).nextId = s.nextId := rfl
@[simp] theorem modOp_domain : (s.modOp k f).domain = s.domain := rfl
@[simp] theorem modOp_threads : (s.modOp k f).threads = s.threads := rfl
@[simp] theorem modOp_warps : (s.modOp k f).warps = s.warps := rfl
@[simp] theorem modOp_lanes : (s.modOp k f).lanes = s.lanes := rfl
@[simp] theorem modOp_cores : (s.modOp k f).cores = s.cores := rfl
@[simp] theorem modOp_dies : (s.modOp k f).dies = s.dies := rfl
@[simp] theorem modOp_dirs : (s.modOp k f).dirs = s.dirs := rfl
@[simp] theorem modOp_links : (s.modOp k f).links = s.links := rfl
@[simp] theorem modOp_pkgs : (s.modOp k f).pkgs = s.pkgs := rfl
@[simp] theorem modOp_mem : (s.modOp k f).mem = s.mem := rfl
@[simp] theorem modOp_cellar : (s.modOp k f).cellar = s.cellar := rfl
@[simp] theorem modOp_host : (s.modOp k f).host = s.host := rfl
@[simp] theorem modOp_metaw : (s.modOp k f).metaw = s.metaw := rfl
@[simp] theorem modOp_errs : (s.modOp k f).errs = s.errs := rfl
@[simp] theorem modOp_reqs : (s.modOp k f).reqs = s.reqs := rfl
@[simp] theorem modOp_insts : (s.modOp k f).insts = s.insts := rfl
@[simp] theorem modOp_msgs : (s.modOp k f).msgs = s.msgs := rfl
@[simp] theorem modOp_launches : (s.modOp k f).launches = s.launches := rfl
@[simp] theorem modOp_saved : (s.modOp k f).saved = s.saved := rfl
@[simp] theorem modOp_thread (n : Nat) : (s.modOp k f).thread n = s.thread n := rfl
@[simp] theorem modOp_warp (n : Nat) : (s.modOp k f).warp n = s.warp n := rfl
@[simp] theorem modOp_lane (n : Nat) : (s.modOp k f).lane n = s.lane n := rfl
@[simp] theorem modOp_core (n : Nat) : (s.modOp k f).core n = s.core n := rfl
@[simp] theorem modOp_die (n : Nat) : (s.modOp k f).die n = s.die n := rfl
@[simp] theorem modOp_dir (n : Nat) : (s.modOp k f).dir n = s.dir n := rfl
@[simp] theorem modOp_link (n : Nat) : (s.modOp k f).link n = s.link n := rfl
@[simp] theorem modOp_pkg (n : Nat) : (s.modOp k f).pkg n = s.pkg n := rfl
@[simp] theorem modOp_launch (n : Nat) : (s.modOp k f).launch n = s.launch n := rfl
@[simp] theorem modOp_req (n : Nat) : (s.modOp k f).req n = s.req n := rfl
@[simp] theorem modOp_greg (t r : Nat) : (s.modOp k f).greg t r = s.greg t r := rfl
@[simp] theorem modOp_pred (t r : Nat) : (s.modOp k f).pred t r = s.pred t r := rfl
@[simp] theorem modOp_wreg (t r : Nat) : (s.modOp k f).wreg t r = s.wreg t r := rfl
@[simp] theorem modOp_mask (t r : Nat) : (s.modOp k f).mask t r = s.mask t r := rfl
@[simp] theorem modOp_cohort (n : Nat) : (s.modOp k f).cohort n = s.cohort n := rfl
@[simp] theorem modOp_alive (n : Nat) : (s.modOp k f).alive n = s.alive n := rfl

end

/-! post -/

section
variable (s : State) (d : Nat) (e : Ev)

@[simp] theorem post_clk : (s.post d e).clk = s.clk := rfl
@[simp] theorem post_ev : (s.post d e).ev = s.ev := rfl
@[simp] theorem post_cur : (s.post d e).cur = s.cur := rfl
@[simp] theorem post_free : (s.post d e).free = s.free := rfl
@[simp] theorem post_nextId : (s.post d e).nextId = s.nextId := rfl
@[simp] theorem post_domain : (s.post d e).domain = s.domain := rfl
@[simp] theorem post_threads : (s.post d e).threads = s.threads := rfl
@[simp] theorem post_warps : (s.post d e).warps = s.warps := rfl
@[simp] theorem post_lanes : (s.post d e).lanes = s.lanes := rfl
@[simp] theorem post_cores : (s.post d e).cores = s.cores := rfl
@[simp] theorem post_dies : (s.post d e).dies = s.dies := rfl
@[simp] theorem post_dirs : (s.post d e).dirs = s.dirs := rfl
@[simp] theorem post_links : (s.post d e).links = s.links := rfl
@[simp] theorem post_pkgs : (s.post d e).pkgs = s.pkgs := rfl
@[simp] theorem post_mem : (s.post d e).mem = s.mem := rfl
@[simp] theorem post_cellar : (s.post d e).cellar = s.cellar := rfl
@[simp] theorem post_host : (s.post d e).host = s.host := rfl
@[simp] theorem post_metaw : (s.post d e).metaw = s.metaw := rfl
@[simp] theorem post_errs : (s.post d e).errs = s.errs := rfl
@[simp] theorem post_reqs : (s.post d e).reqs = s.reqs := rfl
@[simp] theorem post_ops : (s.post d e).ops = s.ops := rfl
@[simp] theorem post_insts : (s.post d e).insts = s.insts := rfl
@[simp] theorem post_msgs : (s.post d e).msgs = s.msgs := rfl
@[simp] theorem post_launches : (s.post d e).launches = s.launches := rfl
@[simp] theorem post_saved : (s.post d e).saved = s.saved := rfl
@[simp] theorem post_thread (n : Nat) : (s.post d e).thread n = s.thread n := rfl
@[simp] theorem post_warp (n : Nat) : (s.post d e).warp n = s.warp n := rfl
@[simp] theorem post_lane (n : Nat) : (s.post d e).lane n = s.lane n := rfl
@[simp] theorem post_core (n : Nat) : (s.post d e).core n = s.core n := rfl
@[simp] theorem post_die (n : Nat) : (s.post d e).die n = s.die n := rfl
@[simp] theorem post_dir (n : Nat) : (s.post d e).dir n = s.dir n := rfl
@[simp] theorem post_link (n : Nat) : (s.post d e).link n = s.link n := rfl
@[simp] theorem post_pkg (n : Nat) : (s.post d e).pkg n = s.pkg n := rfl
@[simp] theorem post_launch (n : Nat) : (s.post d e).launch n = s.launch n := rfl
@[simp] theorem post_req (n : Nat) : (s.post d e).req n = s.req n := rfl
@[simp] theorem post_op (n : Nat) : (s.post d e).op n = s.op n := rfl
@[simp] theorem post_greg (t r : Nat) : (s.post d e).greg t r = s.greg t r := rfl
@[simp] theorem post_pred (t r : Nat) : (s.post d e).pred t r = s.pred t r := rfl
@[simp] theorem post_wreg (t r : Nat) : (s.post d e).wreg t r = s.wreg t r := rfl
@[simp] theorem post_mask (t r : Nat) : (s.post d e).mask t r = s.mask t r := rfl
@[simp] theorem post_cohort (n : Nat) : (s.post d e).cohort n = s.cohort n := rfl
@[simp] theorem post_alive (n : Nat) : (s.post d e).alive n = s.alive n := rfl

end

/-! unpost -/

section
variable (s : State) (e : Ev)

@[simp] theorem unpost_clk : (s.unpost e).clk = s.clk := rfl
@[simp] theorem unpost_ev : (s.unpost e).ev = s.ev := rfl
@[simp] theorem unpost_cur : (s.unpost e).cur = s.cur := rfl
@[simp] theorem unpost_free : (s.unpost e).free = s.free := rfl
@[simp] theorem unpost_nextId : (s.unpost e).nextId = s.nextId := rfl
@[simp] theorem unpost_domain : (s.unpost e).domain = s.domain := rfl
@[simp] theorem unpost_threads : (s.unpost e).threads = s.threads := rfl
@[simp] theorem unpost_warps : (s.unpost e).warps = s.warps := rfl
@[simp] theorem unpost_lanes : (s.unpost e).lanes = s.lanes := rfl
@[simp] theorem unpost_cores : (s.unpost e).cores = s.cores := rfl
@[simp] theorem unpost_dies : (s.unpost e).dies = s.dies := rfl
@[simp] theorem unpost_dirs : (s.unpost e).dirs = s.dirs := rfl
@[simp] theorem unpost_links : (s.unpost e).links = s.links := rfl
@[simp] theorem unpost_pkgs : (s.unpost e).pkgs = s.pkgs := rfl
@[simp] theorem unpost_mem : (s.unpost e).mem = s.mem := rfl
@[simp] theorem unpost_cellar : (s.unpost e).cellar = s.cellar := rfl
@[simp] theorem unpost_host : (s.unpost e).host = s.host := rfl
@[simp] theorem unpost_metaw : (s.unpost e).metaw = s.metaw := rfl
@[simp] theorem unpost_errs : (s.unpost e).errs = s.errs := rfl
@[simp] theorem unpost_reqs : (s.unpost e).reqs = s.reqs := rfl
@[simp] theorem unpost_ops : (s.unpost e).ops = s.ops := rfl
@[simp] theorem unpost_insts : (s.unpost e).insts = s.insts := rfl
@[simp] theorem unpost_msgs : (s.unpost e).msgs = s.msgs := rfl
@[simp] theorem unpost_launches : (s.unpost e).launches = s.launches := rfl
@[simp] theorem unpost_saved : (s.unpost e).saved = s.saved := rfl
@[simp] theorem unpost_thread (n : Nat) : (s.unpost e).thread n = s.thread n := rfl
@[simp] theorem unpost_warp (n : Nat) : (s.unpost e).warp n = s.warp n := rfl
@[simp] theorem unpost_lane (n : Nat) : (s.unpost e).lane n = s.lane n := rfl
@[simp] theorem unpost_core (n : Nat) : (s.unpost e).core n = s.core n := rfl
@[simp] theorem unpost_die (n : Nat) : (s.unpost e).die n = s.die n := rfl
@[simp] theorem unpost_dir (n : Nat) : (s.unpost e).dir n = s.dir n := rfl
@[simp] theorem unpost_link (n : Nat) : (s.unpost e).link n = s.link n := rfl
@[simp] theorem unpost_pkg (n : Nat) : (s.unpost e).pkg n = s.pkg n := rfl
@[simp] theorem unpost_launch (n : Nat) : (s.unpost e).launch n = s.launch n := rfl
@[simp] theorem unpost_req (n : Nat) : (s.unpost e).req n = s.req n := rfl
@[simp] theorem unpost_op (n : Nat) : (s.unpost e).op n = s.op n := rfl
@[simp] theorem unpost_greg (t r : Nat) : (s.unpost e).greg t r = s.greg t r := rfl
@[simp] theorem unpost_pred (t r : Nat) : (s.unpost e).pred t r = s.pred t r := rfl
@[simp] theorem unpost_wreg (t r : Nat) : (s.unpost e).wreg t r = s.wreg t r := rfl
@[simp] theorem unpost_mask (t r : Nat) : (s.unpost e).mask t r = s.mask t r := rfl
@[simp] theorem unpost_cohort (n : Nat) : (s.unpost e).cohort n = s.cohort n := rfl
@[simp] theorem unpost_alive (n : Nat) : (s.unpost e).alive n = s.alive n := rfl

end

end Sys2Proof.Machine.State
end

