-- ==== Sys2Proof/Laws/Run.lean ====
section
/-! SUPPORT. What the shared course of an instruction keeps, and what one thread or one sub-run of a run does. -/

namespace Sys2Proof.Machine

/-! ### Kept -/

theorem Kept.refl (s : State) (G P F W) : Kept s s G P F W :=
  ⟨fun _ _ _ => rfl, fun _ _ _ => rfl, fun _ _ => rfl, fun _ => rfl, fun _ _ _ => rfl, fun _ => rfl, fun _ => rfl, rfl⟩

theorem Kept.trans {s t u : State} {G P F W} (a : Kept s t G P F W) (b : Kept t u G P F W) : Kept s u G P F W :=
  ⟨fun x r h => (b.greg x r h).trans (a.greg x r h), fun x r h => (b.pred x r h).trans (a.pred x r h),
   fun x h => (b.fstat x h).trans (a.fstat x h), fun x => (b.exited x).trans (a.exited x),
   fun x r h => (b.wreg x r h).trans (a.wreg x r h), fun x => (b.warp x).trans (a.warp x),
   fun x => (b.core x).trans (a.core x), b.rest.trans a.rest⟩

theorem Kept.mono {s t : State} {G P F W G' P' F' W'} (a : Kept s t G P F W) (hG : ∀ u r, G u r → G' u r)
    (hP : ∀ u r, P u r → P' u r) (hF : ∀ u, F u → F' u) (hW : ∀ u r, W u r → W' u r) : Kept s t G' P' F' W' :=
  ⟨fun u r h => a.greg u r (mt (hG u r) h), fun u r h => a.pred u r (mt (hP u r) h), fun u h => a.fstat u (mt (hF u) h),
   a.exited, fun u r h => a.wreg u r (mt (hW u r) h), a.warp, a.core, a.rest⟩

/-- A state that keeps everything keeps it whatever else may change. -/
theorem Kept.all {s t : State} (a : Kept s t noReg noReg noThread noReg) (G P F W) : Kept s t G P F W :=
  a.mono (fun _ _ h => h.elim) (fun _ _ h => h.elim) (fun _ h => h.elim) (fun _ _ h => h.elim)

theorem Kept.mem {s t : State} {G P F W} (a : Kept s t G P F W) : t.mem = s.mem :=
  show ({ t with threads := [], warps := [], lanes := [], cores := [] } : State).mem = _ by rw [a.rest]
theorem Kept.cellar {s t : State} {G P F W} (a : Kept s t G P F W) : t.cellar = s.cellar :=
  show ({ t with threads := [], warps := [], lanes := [], cores := [] } : State).cellar = _ by rw [a.rest]
theorem Kept.agenda {s t : State} {G P F W} (a : Kept s t G P F W) : t.agenda = s.agenda :=
  show ({ t with threads := [], warps := [], lanes := [], cores := [] } : State).agenda = _ by rw [a.rest]
theorem Kept.reqs {s t : State} {G P F W} (a : Kept s t G P F W) : t.reqs = s.reqs :=
  show ({ t with threads := [], warps := [], lanes := [], cores := [] } : State).reqs = _ by rw [a.rest]
theorem Kept.pkgs {s t : State} {G P F W} (a : Kept s t G P F W) : t.pkgs = s.pkgs :=
  show ({ t with threads := [], warps := [], lanes := [], cores := [] } : State).pkgs = _ by rw [a.rest]
theorem Kept.clk {s t : State} {G P F W} (a : Kept s t G P F W) : t.clk = s.clk :=
  show ({ t with threads := [], warps := [], lanes := [], cores := [] } : State).clk = _ by rw [a.rest]
theorem Kept.mask {s t : State} {G P F W} (a : Kept s t G P F W) (v m : Nat) : t.mask v m = s.mask v m :=
  congrArg (fun l => kvGet 0 l m) (show ({ t.warp v with w := [], wrdy := [], wpast := [] } : Warp).m = _ by rw [a.warp])

/-- A change of a thread's program counter, wait or ready time. -/
theorem kept_modThread (s : State) (t : Nat) (f : Thread → Thread) (hg : (f (s.thread t)).g = (s.thread t).g)
    (hp : (f (s.thread t)).p = (s.thread t).p) (hf : (f (s.thread t)).fstat = (s.thread t).fstat)
    (he : (f (s.thread t)).exited = (s.thread t).exited) : Kept s (s.modThread t f) noReg noReg noThread noReg := by
  refine ⟨fun u r _ => ?_, fun u k _ => ?_, fun u _ => ?_, fun u => ?_, fun _ _ _ => rfl, fun _ => rfl, fun _ => rfl, rfl⟩
  · unfold State.greg; rw [State.thread_modThread]; split
    · subst_vars; rw [hg]
    · rfl
  · unfold State.pred; rw [State.thread_modThread]; split
    · subst_vars; rw [hp]
    · rfl
  · rw [State.thread_modThread]; split
    · subst_vars; exact hf
    · rfl
  · rw [State.thread_modThread]; split
    · subst_vars; exact he
    · rfl

theorem kept_advance (s : State) (t n : Nat) : Kept s (s.advance t n) noReg noReg noThread noReg :=
  kept_modThread s t _ rfl rfl rfl rfl
theorem kept_jump (s : State) (t : Nat) (a : Dword) : Kept s (s.jump t a) noReg noReg noThread noReg :=
  kept_modThread s t _ rfl rfl rfl rfl
theorem kept_hold (s : State) (t : Nat) (h : Hold) : Kept s (s.hold t h) noReg noReg noThread noReg :=
  kept_modThread s t _ rfl rfl rfl rfl

theorem kept_modLane (s : State) (l : Nat) (f : Lane → Lane) : Kept s (s.modLane l f) noReg noReg noThread noReg :=
  ⟨fun _ _ _ => rfl, fun _ _ _ => rfl, fun _ _ => rfl, fun _ => rfl, fun _ _ _ => rfl, fun _ => rfl, fun _ => rfl, rfl⟩
theorem kept_setRun (s : State) (r : Option Run) : Kept s (setRun s r) noReg noReg noThread noReg := kept_modLane ..
theorem kept_closeRun (s : State) (r : Run) (n : Nat) : Kept s (closeRun s r n) noReg noReg noThread noReg := kept_modLane ..

theorem kept_pmcAdd (s : State) (c k n : Nat) : Kept s (pmcAdd s c k n) noReg noReg noThread noReg := by
  refine ⟨fun _ _ _ => rfl, fun _ _ _ => rfl, fun _ _ => rfl, fun _ => rfl, fun _ _ _ => rfl, fun _ => rfl, fun u => ?_, rfl⟩
  unfold pmcAdd; rw [State.core_modCore]; split
  · subst_vars; rfl
  · rfl

theorem kept_stallAdd (s : State) (c : Nat) (r : Run) : Kept s (stallAdd s c r) noReg noReg noThread noReg := by
  unfold stallAdd; split
  · exact Kept.refl ..
  · exact kept_pmcAdd ..

theorem kept_drain (x : Ins) (s : State) (l : List Nat) : Kept s (drain x s l).1 noReg noReg noThread noReg := by
  induction l generalizing s with
  | nil => exact Kept.refl ..
  | cons t r ih =>
    unfold drain; split
    · exact ih s
    · split
      · exact Kept.refl ..
      · exact (kept_advance s t x.size).trans (ih _)

theorem kept_drainSub (x : Ins) (s : State) (w : Nat) (l : List Nat) :
    Kept s (drainSub x s w l).1 noReg noReg noThread noReg := by
  unfold drainSub; split
  · exact kept_drain ..
  · exact kept_drain ..

/-- An instruction that adds nothing at the end of a run changes nothing there. -/
@[simp] theorem finish_noEnd (s : State) (r : Run) (till : Nat) : finish noEnd s r till = s := by
  unfold finish
  induction r.over with
  | nil => rfl
  | cons a l ih => exact ih

/-- Going on with a run changes nothing but lanes and the program counters of threads whose guard is false. -/
theorem kept_goOn (x : Ins) (s : State) (r : Run) (l : List Nat) (n : Nat) :
    Kept s (goOn x noEnd s r l n) noReg noReg noThread noReg := by
  have h := kept_drainSub x s r.warp l
  unfold goOn
  simp only [finish_noEnd]
  split
  · exact h.trans (kept_closeRun ..)
  · split
    · exact h.trans (kept_setRun ..)
    · split
      · exact h.trans (kept_setRun ..)
      · exact h.trans (kept_setRun ..)

/-! ### Writing registers -/

theorem greg_modG (s : State) (t r u k : Nat) (f : GReg → GReg) :
    (s.modG t r f).greg u k = if u = t ∧ k = r then f (s.greg t r) else s.greg u k := by
  unfold State.modG State.greg
  rw [State.thread_modThread]
  split
  · subst_vars; simp only [kvGet_kvSet, true_and]
  · rename_i h; rw [if_neg (fun e => h e.1)]

@[simp] theorem greg_setG_same (s : State) (t r : Nat) (v : Word) (rdy : Nat) :
    (s.setG t r v rdy).greg t r = (s.greg t r).write s.clk v rdy := by
  unfold State.setG; rw [greg_modG, if_pos ⟨rfl, rfl⟩]

@[simp] theorem write_v (g : GReg) (x : Nat) (v : Word) (rdy : Nat) : (g.write x v rdy).v = v := rfl
@[simp] theorem write_full (g : GReg) (x : Nat) (v : Word) (rdy : Nat) : (g.write x v rdy).full = true := rfl

theorem kept_modG (s : State) (t r : Nat) (f : GReg → GReg) : Kept s (s.modG t r f) (regs t r 1) noReg noThread noReg := by
  refine ⟨fun u k h => ?_, fun u k _ => ?_, fun u _ => ?_, fun u => ?_, fun _ _ _ => rfl, fun _ => rfl, fun _ => rfl, rfl⟩
  · rw [greg_modG, if_neg]
    rintro ⟨rfl, rfl⟩
    exact h ⟨rfl, Nat.le_refl _, Nat.lt_succ_self _⟩
  all_goals
    unfold State.modG
    try unfold State.pred
    rw [State.thread_modThread]
    split
    · subst_vars; rfl
    · rfl

theorem kept_setG (s : State) (t r : Nat) (v : Word) (rdy : Nat) :
    Kept s (s.setG t r v rdy) (regs t r 1) noReg noThread noReg := kept_modG ..

theorem kept_setGs (s : State) (t r v rdy n : Nat) : Kept s (s.setGs t r v rdy n) (regs t r n) noReg noThread noReg := by
  induction n generalizing s r v with
  | zero => exact Kept.refl ..
  | succ n ih =>
    refine Kept.trans (t := s.setG t r (BitVec.ofNat 32 v) rdy) ?_ ?_
    · exact (kept_setG ..).mono (fun u k h => ⟨h.1, h.2.1, by have := h.2.2; omega⟩) (fun _ _ h => h) (fun _ h => h) (fun _ _ h => h)
    · exact (ih ..).mono (fun u k h => ⟨h.1, by have := h.2.1; omega, by have := h.2.2; omega⟩) (fun _ _ h => h) (fun _ h => h) (fun _ _ h => h)

theorem bit8 (k j : Nat) (h : k < 8) : (BitVec.ofNat 8 (2 ^ k)).getLsbD j = decide (k = j) := by
  rw [BitVec.getLsbD_ofNat, Nat.testBit_two_pow]
  by_cases e : k = j
  · subst e; simp [h]
  · simp [e]

theorem predSet_same (p : BitVec 8) (k : Nat) (v : Bool) (h : k < 7) : (predSet p k v).getLsbD k = v := by
  unfold predSet
  rw [if_neg (by omega)]
  cases v
  · simp only [Bool.false_eq_true, if_false, BitVec.getLsbD_and, BitVec.getLsbD_not, bit8 k k (by omega), decide_true]
    simp
  · simp only [if_true, BitVec.getLsbD_or, bit8 k k (by omega), decide_true, Bool.or_true]

theorem predSet_other (p : BitVec 8) (k j : Nat) (v : Bool) (h : j ≠ k) : (predSet p k v).getLsbD j = p.getLsbD j := by
  unfold predSet
  split
  · rfl
  · by_cases hj : j < 8
    · split
      · rw [BitVec.getLsbD_or, bit8 k j (by omega)]; simp [Ne.symm h]
      · rw [BitVec.getLsbD_and, BitVec.getLsbD_not, bit8 k j (by omega)]; simp [Ne.symm h, hj]
    · rw [BitVec.getLsbD_of_ge _ _ (by omega), BitVec.getLsbD_of_ge _ _ (by omega)]

theorem kept_setP (s : State) (t k : Nat) (v : Bool) (rdy : Nat) : Kept s (s.setP t k v rdy) noReg (regs t k 1) noThread noReg := by
  unfold State.setP
  split
  · exact Kept.refl ..
  · rename_i hk
    refine ⟨fun u r _ => ?_, fun u j h => ?_, fun u _ => ?_, fun u => ?_, fun _ _ _ => rfl, fun _ => rfl, fun _ => rfl, rfl⟩
    · unfold State.greg; rw [State.thread_modThread]; split
      · subst_vars; rfl
      · rfl
    · unfold State.pred; rw [State.thread_modThread]; split
      · subst_vars
        have hj : j ≠ k := fun e => h ⟨rfl, by omega, by omega⟩
        rw [predSet_other _ _ _ _ hj]
      · rfl
    all_goals
      rw [State.thread_modThread]
      split
      · subst_vars; rfl
      · rfl

/-- A predicate reads as written; p7 stays true. -/
theorem pred_setP (s : State) (t k : Nat) (v : Bool) (rdy : Nat) (h : k < 7) : (s.setP t k v rdy).pred t k = v := by
  unfold State.setP State.pred
  rw [if_neg (by omega), State.thread_modThread_same]
  show (decide (k = 7) || (predSet (s.thread t).p k v).getLsbD k) = v
  rw [predSet_same _ _ _ h]
  simp; omega

theorem kept_orFlags (s : State) (t : Nat) (f : Word) (rdy : Nat) :
    Kept s (s.orFlags t f rdy) noReg noReg (fun u => u = t) noReg := by
  unfold State.orFlags
  refine ⟨fun u r _ => ?_, fun u j h => ?_, fun u h => ?_, fun u => ?_, fun _ _ _ => rfl, fun _ => rfl, fun _ => rfl, rfl⟩
  all_goals
    try unfold State.greg
    try unfold State.pred
    rw [State.thread_modThread]
    split
    · subst_vars; first | rfl | exact absurd rfl h
    · rfl

theorem wreg_setW (s : State) (w r : Nat) (v : Word) (rdy u k : Nat) :
    (s.setW w r v rdy).wreg u k = if u = w ∧ k = r then v else s.wreg u k := by
  unfold State.setW State.wreg
  rw [State.warp_modWarp]
  split
  · subst_vars; simp only [kvGet_kvSet, true_and]
  · rename_i h; rw [if_neg (fun e => h e.1)]

theorem kept_setW (s : State) (w r : Nat) (v : Word) (rdy : Nat) :
    Kept s (s.setW w r v rdy) noReg noReg noThread (regs w r 1) := by
  refine ⟨fun _ _ _ => rfl, fun _ _ _ => rfl, fun _ _ => rfl, fun _ => rfl, fun u k h => ?_, fun u => ?_, fun _ => rfl, rfl⟩
  · rw [wreg_setW, if_neg]
    rintro ⟨rfl, rfl⟩
    exact h ⟨rfl, Nat.le_refl _, Nat.lt_succ_self _⟩
  · unfold State.setW; rw [State.warp_modWarp]; split
    · subst_vars; rfl
    · rfl

theorem kept_setWs (s : State) (w r v rdy n : Nat) : Kept s (s.setWs w r v rdy n) noReg noReg noThread (regs w r n) := by
  induction n generalizing s r v with
  | zero => exact Kept.refl ..
  | succ n ih =>
    refine Kept.trans (t := s.setW w r (BitVec.ofNat 32 v) rdy) ?_ ?_
    · exact (kept_setW ..).mono (fun _ _ h => h) (fun _ _ h => h) (fun _ h => h) (fun u k h => ⟨h.1, h.2.1, by have := h.2.2; omega⟩)
    · exact (ih ..).mono (fun _ _ h => h) (fun _ _ h => h) (fun _ h => h) (fun u k h => ⟨h.1, by have := h.2.1; omega, by have := h.2.2; omega⟩)

/-! ### One thread of a run -/

/-- Where it is a thread's turn, the threads before it are none. -/
theorem drain_turn {s : State} {x : Ins} {t : Nat} (l : List Nat) (ha : s.alive t = true) (hg : guardTrue s x t = true) :
    drain x s (t :: l) = (s, t :: l) := by
  simp [drain, ha, hg]

theorem drainSub_turn {s : State} {x : Ins} {t : Nat} (l : List Nat) (ha : s.alive t = true) (hg : guardTrue s x t = true) :
    drainSub x s (t / 32) (t :: l) = (s, t :: l) := by
  unfold drainSub
  split
  · simp [drain_turn _ ha hg, List.takeWhile_append_dropWhile]
  · exact drain_turn l ha hg

/-- The state after a thread performed and the run went on: `s` is what its instruction made of the state. -/
def afterTurn (x : Ins) (cost : Nat) (endf : EndFn) (r : Run) (t : Nat) (rest : List Nat) (s : State) : State :=
  goOn x endf (pmcAdd (stallAdd s (coreOfThread t) r) (coreOfThread t) 2 1)
    { r with count := r.count + 1, since := 0, done := r.done ||| slotBit (t % 32) } rest (s.clk + cost)

/-- The run of a thread whose turn it is. -/
def turnRun (keep : Nat) (r : Run) (t : Nat) : Run :=
  { atWarp r t with walk := none, slots := max keep (atWarp r t).slots - 1 }

/-- Going on after a thread's turn changes nothing but lanes, counters and program counters. -/
theorem kept_afterTurn (x : Ins) (cost : Nat) (r : Run) (t : Nat) (rest : List Nat) (s : State) :
    Kept s (afterTurn x cost noEnd r t rest s) noReg noReg noThread noReg :=
  (kept_stallAdd ..).trans ((kept_pmcAdd ..).trans (kept_goOn ..))

theorem atWarp_ports {r : Run} (t : Nat) (h : r.ports = []) : (atWarp r t).ports = [] := by
  unfold atWarp; split <;> simp [h]

/-- The outcome of an instruction whose thread performs, by what its body answers. -/
theorem perThreadKeep_turn {s : State} {x : Ins} {t : Nat} (h : Turn s x t) (keep cost : Nat) (endf : EndFn)
    (body : Nat → State → TOut) :
    ∃ r0 r rest, (s.lane s.cur).run = some r0 ∧ r = turnRun keep r0 t ∧ r0.threads = t :: rest ∧ t ∉ rest ∧
      (∀ s1, body t s = .ok s1 → perThreadKeep keep x cost endf body s = .next (afterTurn x cost endf r t rest (s1.advance t x.size))) ∧
      (∀ s1, body t s = .jump s1 → perThreadKeep keep x cost endf body s = .next (afterTurn x cost endf r t rest s1)) ∧
      (∀ s1, body t s = .held s1 → perThreadKeep keep x cost endf body s = .next (afterTurn x cost endf r t rest s1)) ∧
      (∀ c a d s1, body t s = .fault c a d s1 → perThreadKeep keep x cost endf body s = .next (faultRun s1 r t c a d)) ∧
      (∀ s1, body t s = .last s1 → perThreadKeep keep x cost endf body s =
        .next (closeRun s1 r (s.clk + cost * (performers x s (t :: rest)).length))) ∧
      (∀ o s1, body t s = .stay o s1 → perThreadKeep keep x cost endf body s =
        .next (goOn x endf (s1.hold t o) { r with ports := (queueHold o).toList } rest s1.clk)) := by
  obtain ⟨r, rest, hr, ht, hp, hn⟩ := h.run
  refine ⟨r, _, rest, hr, rfl, ht, hn, ?_, ?_, ?_, ?_, ?_, ?_⟩
  all_goals
    intros
    rename_i hb
    unfold perThreadKeep
    have hports : (atWarp r t).ports = [] := atWarp_ports t hp
    simp only [hr, drainRun, ht, List.headD_cons, drainSub_turn rest h.alive h.guard, ne_eq, not_true_eq_false, and_false,
      if_false, hports, hb, afterTurn, turnRun]

/-- The outcome of an instruction whose thread performs, by what its body answers. -/
theorem perThread_turn {s : State} {x : Ins} {t : Nat} (h : Turn s x t) (cost : Nat) (endf : EndFn)
    (body : Nat → State → TOut) :
    ∃ r0 r rest, (s.lane s.cur).run = some r0 ∧ r = turnRun 0 r0 t ∧ r0.threads = t :: rest ∧ t ∉ rest ∧
      (∀ s1, body t s = .ok s1 → perThread x cost endf body s = .next (afterTurn x cost endf r t rest (s1.advance t x.size))) ∧
      (∀ s1, body t s = .jump s1 → perThread x cost endf body s = .next (afterTurn x cost endf r t rest s1)) ∧
      (∀ s1, body t s = .held s1 → perThread x cost endf body s = .next (afterTurn x cost endf r t rest s1)) ∧
      (∀ c a d s1, body t s = .fault c a d s1 → perThread x cost endf body s = .next (faultRun s1 r t c a d)) ∧
      (∀ s1, body t s = .last s1 → perThread x cost endf body s =
        .next (closeRun s1 r (s.clk + cost * (performers x s (t :: rest)).length))) ∧
      (∀ o s1, body t s = .stay o s1 → perThread x cost endf body s =
        .next (goOn x endf (s1.hold t o) { r with ports := (queueHold o).toList } rest s1.clk)) :=
  perThreadKeep_turn h 0 cost endf body

/-! ### The thread itself -/

theorem thread_advance_ne (s : State) {t u n : Nat} (h : u ≠ t) : (s.advance t n).thread u = s.thread u := by
  unfold State.advance; rw [State.thread_modThread, if_neg h]

@[simp] theorem thread_advance_pc (s : State) (t n : Nat) :
    ((s.advance t n).thread t).pc = (s.thread t).pc + BitVec.ofNat 64 n := by
  simp [State.advance]
@[simp] theorem thread_advance_hold (s : State) (t n : Nat) : ((s.advance t n).thread t).hold = (s.thread t).hold := by
  simp [State.advance]

theorem thread_drain (x : Ins) (s : State) (l : List Nat) {t : Nat} (h : t ∉ l) : (drain x s l).1.thread t = s.thread t := by
  induction l generalizing s with
  | nil => rfl
  | cons a r ih =>
    simp only [List.mem_cons, not_or] at h
    unfold drain; split
    · exact ih s h.2
    · split
      · rfl
      · rw [ih _ h.2, thread_advance_ne s h.1]

theorem thread_drainSub (x : Ins) (s : State) (w : Nat) (l : List Nat) {t : Nat} (h : t ∉ l) :
    (drainSub x s w l).1.thread t = s.thread t := by
  unfold drainSub; split
  · exact thread_drain _ _ _ fun m => h (List.takeWhile_subset _ m)
  · exact thread_drain _ _ _ h

theorem thread_goOn (x : Ins) (s : State) (r : Run) (l : List Nat) (n : Nat) {t : Nat} (h : t ∉ l) :
    (goOn x noEnd s r l n).thread t = s.thread t := by
  have e := thread_drainSub x s r.warp l h
  unfold goOn
  simp only [finish_noEnd]
  split
  · exact e
  · split
    · exact e
    · split <;> exact e

theorem thread_afterTurn (x : Ins) (cost : Nat) (r : Run) (t : Nat) (rest : List Nat) (s : State) (h : t ∉ rest) :
    (afterTurn x cost noEnd r t rest s).thread t = s.thread t := by
  unfold afterTurn
  rw [thread_goOn _ _ _ _ _ h]
  show (stallAdd s _ _).thread t = _
  unfold stallAdd; split <;> rfl

/-! ### Completion -/

/-- A thread whose body performs passes. -/
theorem passes_of_ok {i : Instr} {s s1 : State} {x : Ins} {t cost : Nat} {body : Nat → State → TOut} (h : Turn s x t)
    (e : exec i s = perThread x cost noEnd body s) (hb : body t s = .ok s1) : Passes i x t s s1 := by
  obtain ⟨-, r, rest, -, -, -, hn, ok, -⟩ := perThread_turn h cost noEnd body
  refine ⟨_, e.trans (ok s1 hb), (kept_advance s1 t x.size).trans (kept_afterTurn ..), ?_, ?_⟩
  · rw [thread_afterTurn _ _ _ _ _ _ hn, thread_advance_pc]
  · rw [thread_afterTurn _ _ _ _ _ _ hn, thread_advance_hold]

/-- A thread whose body sets its program counter, or holds it, lands. -/
theorem lands_of_jump {i : Instr} {s s1 : State} {x : Ins} {t cost : Nat} {body : Nat → State → TOut} (h : Turn s x t)
    (e : exec i s = perThread x cost noEnd body s) (hb : body t s = .jump s1 ∨ body t s = .held s1) : Lands i t s s1 := by
  obtain ⟨-, r, rest, -, -, -, hn, -, jump, held, -⟩ := perThread_turn h cost noEnd body
  refine ⟨_, e.trans (hb.elim (jump s1) (held s1)), kept_afterTurn .., ?_, ?_⟩ <;> rw [thread_afterTurn _ _ _ _ _ _ hn]

theorem Passes.runs {i : Instr} {x : Ins} {t : Nat} {s s1 : State} (h : Passes i x t s s1) {post : State → Prop}
    (k : ∀ s', Same s1 s' → (s'.thread t).pc = (s1.thread t).pc + BitVec.ofNat 64 x.size → post s') : Runs i s post := by
  obtain ⟨s', e, same, pc, -⟩ := h
  exact ⟨s', e, k s' same pc⟩

/-! ### A whole sub-run -/

theorem kept_foldl {α : Type} (f : State → α → State) (l : List α) (s : State) {G P F W}
    (h : ∀ s, ∀ a ∈ l, Kept s (f s a) G P F W) : Kept s (l.foldl f s) G P F W := by
  induction l generalizing s with
  | nil => exact Kept.refl ..
  | cons a r ih =>
    exact (h s a List.mem_cons_self).trans (ih (f s a) fun s b hb => h s b (List.mem_cons_of_mem _ hb))

theorem kept_advances (l : List Nat) (n : Nat) (s : State) :
    Same s (l.foldl (fun s u => s.advance u n) s) := kept_foldl _ l s fun s a _ => kept_advance s a n

theorem thread_advances_out (l : List Nat) (n : Nat) (s : State) {u : Nat} (h : u ∉ l) :
    (l.foldl (fun s u => s.advance u n) s).thread u = s.thread u := by
  induction l generalizing s with
  | nil => rfl
  | cons a r ih =>
    simp only [List.mem_cons, not_or] at h
    rw [List.foldl_cons, ih _ h.2, thread_advance_ne s h.1]

theorem thread_advances_in (l : List Nat) (n : Nat) (s : State) {u : Nat} (h : u ∈ l) (hn : l.Nodup) :
    ((l.foldl (fun s u => s.advance u n) s).thread u).pc = (s.thread u).pc + BitVec.ofNat 64 n ∧
    ((l.foldl (fun s u => s.advance u n) s).thread u).hold = (s.thread u).hold := by
  induction l generalizing s with
  | nil => cases h
  | cons a r ih =>
    rw [List.nodup_cons] at hn
    rw [List.foldl_cons]
    by_cases e : u = a
    · subst e
      rw [thread_advances_out r n _ hn.1]
      exact ⟨thread_advance_pc .., thread_advance_hold ..⟩
    · have hr : u ∈ r := by simpa [e] using h
      have := ih (s.advance a n) hr hn.2
      rwa [thread_advance_ne s e] at this

/-- What a sub-run whose threads all perform does, by what its body answers. -/
theorem perSubrun_whole {s : State} {x : Ins} {ps : List Nat} (h : Whole s x ps) (cost : Nat → Nat) (endf : EndFn)
    (body : List Nat → State → TOut) :
    ∃ r, (s.lane s.cur).run = some r ∧ r.threads = ps ∧
      (∀ s1, body ps s = .ok s1 → ∃ r' n, perSubrun x cost endf body s =
        .next (goOn x endf (pmcAdd (stallAdd (ps.foldl (fun s u => s.advance u x.size) s1) (coreOfThread (ps.headD 0)) r')
          (coreOfThread (ps.headD 0)) 2 ps.length) { r' with count := r'.count + ps.length, since := 0, done := slotsMask (ps.map (· % 32)) } [] n)) := by
  obtain ⟨r, hr, hps⟩ := h.run
  refine ⟨r, hr, hps, fun s1 hb => ?_⟩
  obtain ⟨t, more, rfl⟩ : ∃ t more, ps = t :: more := by
    cases ps with
    | nil => exact absurd rfl h.some
    | cons t more => exact ⟨t, more, rfl⟩
  have ha := h.alive t List.mem_cons_self
  have hg := h.guard t List.mem_cons_self
  have hw : ∀ u ∈ t :: more, u / 32 = t / 32 := h.warp
  have hmine : ((t :: more).filter fun u => decide (u / 32 = t / 32)) = t :: more :=
    List.filter_eq_self.2 fun u hu => by simpa using hw u hu
  have hrest : (more.filter fun u => decide (u / 32 ≠ t / 32)) = [] :=
    List.filter_eq_nil_iff.2 fun u hu => by simpa using hw u (List.mem_cons_of_mem _ hu)
  have hps' : ((t :: more).filter fun u => s.alive u && guardTrue s x u) = t :: more :=
    List.filter_eq_self.2 fun u hu => by simp [h.alive u hu, h.guard u hu]
  have hno : ((t :: more).filter fun u => s.alive u && !guardTrue s x u) = [] :=
    List.filter_eq_nil_iff.2 fun u hu => by simp [h.guard u hu]
  refine ⟨{ atWarp r t with walk := none }, ((t :: more).foldl (fun s u => s.advance u x.size) s1).clk + max (cost (t :: more).length) 1, ?_⟩
  unfold perSubrun
  simp only [hr, drainRun, hps, List.headD_cons, drainSub_turn more ha hg, ne_eq, not_true_eq_false, and_false, if_false,
    hmine, hrest, hps', hno, List.foldl_nil, hb]

/-- A sub-run whose threads all perform passes. -/
theorem passesAll_of_ok {i : Instr} {s s1 : State} {x : Ins} {ps : List Nat} {cost : Nat → Nat}
    {body : List Nat → State → TOut} (h : Whole s x ps) (e : exec i s = perSubrun x cost noEnd body s)
    (hb : body ps s = .ok s1) : PassesAll i x ps s s1 := by
  obtain ⟨r, -, -, ok⟩ := perSubrun_whole h cost noEnd body
  obtain ⟨r', n, hn⟩ := ok s1 hb
  refine ⟨_, e.trans hn, ?_, fun u hu => ?_⟩
  · exact (kept_advances ps x.size s1).trans ((kept_stallAdd ..).trans ((kept_pmcAdd ..).trans (kept_goOn ..)))
  · rw [thread_goOn _ _ _ _ _ List.not_mem_nil]
    have : (pmcAdd (stallAdd (ps.foldl (fun s u => s.advance u x.size) s1) (coreOfThread (ps.headD 0)) r')
        (coreOfThread (ps.headD 0)) 2 ps.length).thread u = (ps.foldl (fun s u => s.advance u x.size) s1).thread u := by
      show (stallAdd _ _ _).thread u = _
      unfold stallAdd; split <;> rfl
    rw [this]
    exact thread_advances_in ps x.size s1 hu h.once

end Sys2Proof.Machine
end

