-- ==== Sys2Proof/Laws/Alu.lean ====
section
/-! SUPPORT. The instructions that compute a result: the course of one thread and of a uniform sub-run. -/

namespace Sys2Proof.Machine

/-- An instruction that computes is the shared course with its function. -/
theorem exec_computes {i : Instr} {fn : Ins → Nat → Nat → Nat → AluOut} {x : Ins} (h : computes i = some fn)
    (hx : i.ins? = some x) (s : State) : exec i s = alu fn x s := by
  cases i <;> first | (cases h; done) | (cases h; cases hx; rfl)

/-- The registers that `setGs` writes. -/
theorem greg_setGs (s : State) (t r v rdy n k : Nat) (h : k < n) :
    ((s.setGs t r v rdy n).greg t (r + k)).v = BitVec.ofNat 32 (v / 2 ^ (32 * k)) ∧
    ((s.setGs t r v rdy n).greg t (r + k)).full = true := by
  induction n generalizing s r v k with
  | zero => omega
  | succ n ih =>
    unfold State.setGs
    cases k with
    | zero =>
      simp only [Nat.add_zero]
      rw [(kept_setGs (s.setG t r (BitVec.ofNat 32 v) rdy) t (r + 1) (v / 2 ^ 32) rdy n).greg t r
        (fun h => by have := h.2.1; omega)]
      simp
    | succ k =>
      have := ih (s.setG t r (BitVec.ofNat 32 v) rdy) (r + 1) (v / 2 ^ 32) k (by omega)
      rw [Nat.add_assoc, Nat.add_comm 1 k] at this
      rwa [Nat.div_div_eq_div_mul, ← Nat.pow_add, Nat.add_comm 32, ← Nat.mul_succ] at this

/-- The registers that `setWs` writes. -/
theorem wreg_setWs (s : State) (w r v rdy n k : Nat) (h : k < n) :
    (s.setWs w r v rdy n).wreg w (r + k) = BitVec.ofNat 32 (v / 2 ^ (32 * k)) := by
  induction n generalizing s r v k with
  | zero => omega
  | succ n ih =>
    unfold State.setWs
    cases k with
    | zero =>
      simp only [Nat.add_zero]
      rw [(kept_setWs (s.setW w r (BitVec.ofNat 32 v) rdy) w (r + 1) (v / 2 ^ 32) rdy n).wreg w r
        (fun h => by have := h.2.1; omega), wreg_setW]
      simp
    | succ k =>
      have := ih (s.setW w r (BitVec.ofNat 32 v) rdy) (r + 1) (v / 2 ^ 32) k (by omega)
      rw [Nat.add_assoc, Nat.add_comm 1 k] at this
      rwa [Nat.div_div_eq_div_mul, ← Nat.pow_add, Nat.add_comm 32, ← Nat.mul_succ] at this

/-- Without a port, the D field of an instruction that writes registers is no queue port. -/
theorem plain_dest {x : Ins} (hu : x.f.u = false) (hp : pushOf x = none) (hd : destN x ≠ 0) : ¬ 240 ≤ x.f.d.toNat := by
  unfold destN at hd
  unfold pushOf at hp
  split at hd
  · rename_i w e
    rw [e] at hp
    simp only [hu, Bool.not_false, Bool.true_and] at hp
    intro h
    simp [h] at hp
  · exact absurd rfl hd

/-- Writing what was computed, without queue ports. -/
theorem putOut_plain (s : State) (x : Ins) (cost t : Nat) (o : AluOut) (hu : x.f.u = false) (hp : pushOf x = none) :
    let s1 := putOut s x cost t false o
    (∀ k < destN x, (s1.greg t (x.f.d.toNat + k)).v = BitVec.ofNat 32 (o.v / 2 ^ (32 * k)) ∧
      (s1.greg t (x.f.d.toNat + k)).full = true) ∧
    (∀ k b, o.p = some (k, b) → k < 7 → s1.pred t k = b) ∧
    (s1.thread t).fstat = (s.thread t).fstat ||| (if raisesFlags x then o.flags else 0) ∧
    Kept s s1 (regs t x.f.d.toNat (destN x)) (fun u k => u = t ∧ ∃ b, o.p = some (k, b)) (fun u => u = t) noReg := by
  intro s1
  -- the three updates one after another
  obtain ⟨a, ha⟩ : ∃ a, a = (match o.p with
    | some (k, v) => s.setP t k v (s.rdy cost)
    | none => s) := ⟨_, rfl⟩
  obtain ⟨b, hb⟩ : ∃ b, b = (if destN x = 0 then a else putDest a x t (destN x) o.v false (a.rdy cost)) := ⟨_, rfl⟩
  have hs1 : s1 = putFlags b x t o.flags (b.rdy cost) := by
    show putOut s x cost t false o = _
    unfold putOut
    rw [hb, ha]
    cases o.p with
    | none => rfl
    | some q => rfl
  have ka : Kept s a noReg (fun u k => u = t ∧ ∃ b, o.p = some (k, b)) noThread noReg := by
    rw [ha]
    split
    · rename_i k v e
      exact (kept_setP ..).mono (fun _ _ h => h) (fun u j h => ⟨h.1, v, by rw [e]; have := h.2; congr 2; omega⟩)
        (fun _ h => h) (fun _ _ h => h)
    · exact Kept.refl ..
  have hbG : b = a.setGs t x.f.d.toNat o.v (a.rdy cost) (destN x) := by
    rw [hb]
    split
    · rename_i e; rw [e]; rfl
    · rename_i e
      unfold putDest
      simp [hu, plain_dest hu hp e]
  have kb : Kept a b (regs t x.f.d.toNat (destN x)) noReg noThread noReg := hbG ▸ kept_setGs ..
  have kc : Kept b s1 noReg noReg (fun u => u = t) noReg := by
    rw [hs1]; unfold putFlags; split
    · exact kept_orFlags ..
    · exact Kept.refl ..
  refine ⟨fun k hk => ?_, fun k v e hk => ?_, ?_, ?_⟩
  · rw [kc.greg _ _ (fun h => h), hbG]
    exact greg_setGs _ _ _ _ _ _ _ hk
  · rw [kc.pred _ _ (fun h => h), kb.pred _ _ (fun h => h), ha, e]
    exact pred_setP _ _ _ _ _ hk
  · have e : (b.thread t).fstat = (s.thread t).fstat := (kb.fstat t (fun h => h)).trans (ka.fstat t (fun h => h))
    rw [hs1, ← e]
    unfold putFlags
    split <;> simp [State.orFlags]
  · have F : ∀ u : Nat, noThread u → u = t := fun _ h => h.elim
    refine Kept.trans (ka.mono (fun _ _ h => h.elim) (fun _ _ h => h) F (fun _ _ h => h))
      (Kept.trans (kb.mono (fun _ _ h => h) (fun _ _ h => h.elim) F (fun _ _ h => h))
        (kc.mono (fun _ _ h => h.elim) (fun _ _ h => h.elim) (fun _ h => h) (fun _ _ h => h)))

/-- The instructions that compute read A like every other instruction. -/
theorem computes_opc {i : Instr} {fn : Ins → Nat → Nat → Nat → AluOut} {x : Ins} (h : computes i = some fn)
    (hx : i.ins? = some x) : x.o ≠ .balloc ∧ x.o ≠ .xlane := by
  cases i <;> first | (cases h; done) | (cases hx; exact ⟨Opc.noConfusion, Opc.noConfusion⟩)

/-- A field that names no queue port takes nothing. -/
theorem takeField_state (s st : State) (x : Ins) (th : Nat) (k : FK) (v : BitVec 8) (fe : Bool) (imm : Option Nat)
    (h : ∀ p, RegRef.q p ∉ fieldRefs x.f.u x.f.t k v fe) : (takeField s st x th k v imm).2 = st := by
  unfold takeField
  split
  · rename_i w
    split
    · rename_i c
      simp only [Bool.and_eq_true, Bool.not_eq_true', decide_eq_true_eq] at c
      exact absurd (by simp [fieldRefs, c.1, c.2]) (h (v.toNat - 240))
    · rfl
  · rfl
  · rfl

/-- A field that names no queue port supplies what it names. -/
theorem takeField_value (s st : State) (x : Ins) (th : Nat) (k : FK) (v : BitVec 8) (fe : Bool)
    (h : ∀ p, RegRef.q p ∉ fieldRefs x.f.u x.f.t k v fe) :
    (takeField s st x th k v none).1 = fieldNum s x.f.u x.f.t th k v := by
  unfold takeField
  split
  · rename_i w
    split
    · rename_i c
      simp only [Bool.and_eq_true, Bool.not_eq_true', decide_eq_true_eq] at c
      exact absurd (by simp [fieldRefs, c.1, c.2]) (h (v.toNat - 240))
    · rfl
  · rfl
  · rfl

/-- Of operands that have been read every one is known. -/
theorem gather_known {s : State} {x : Ins} {t : Nat} {v : Vals} (h : gather s x t = .vals v) :
    v.lackA = false ∧ v.lackB = false ∧ v.lackC = false := by
  unfold gather at h
  simp only at h
  repeat' split at h
  all_goals first | (cases h; done) | skip
  all_goals injection h with h; subst h; exact ⟨rfl, rfl, rfl⟩

/-- What the operand fields read: those that name no queue port are no ports of the instruction's reads. -/
theorem no_ports {x : Ins} (hx : x.o ≠ .balloc ∧ x.o ≠ .xlane) (hq : ∀ p, RegRef.q p ∉ insReads x) :
    (∀ p, RegRef.q p ∉ fieldRefs x.f.u x.f.t x.shape.a x.f.a (x.f.fe.getLsbD 0)) ∧
    (∀ p, RegRef.q p ∉ fieldRefs x.f.u x.f.t x.shape.b x.f.b (x.f.fe.getLsbD 1)) ∧
    (∀ p, RegRef.q p ∉ fieldRefs x.f.u x.f.t x.shape.c x.f.c (x.f.fe.getLsbD 2)) := by
  refine ⟨fun p hm => hq p ?_, fun p hm => hq p ?_, fun p hm => hq p ?_⟩
  · unfold insReads; simp only [hx.1, hx.2, or_self, if_false, List.mem_append]; exact .inl (.inl (.inl (.inl hm)))
  · unfold insReads; simp only [List.mem_append]; exact .inl (.inl (.inl (.inr hm)))
  · unfold insReads; simp only [List.mem_append]; exact .inl (.inl (.inr hm))

/-- Operands that name no queue port leave the state as it is. -/
theorem gather_state {s : State} {x : Ins} {t : Nat} {v : Vals} (h : gather s x t = .vals v) (hp : v.popped = false)
    (hx : x.o ≠ .balloc ∧ x.o ≠ .xlane) : v.st = s := by
  unfold gather at h
  simp only at h
  repeat' split at h
  all_goals first | (cases h; done) | skip
  all_goals
    injection h with h
    subst h
    have hq : ∀ p, RegRef.q p ∉ insReads x := by
      intro p hm
      have e : (!(List.filterMap (fun r => match r with | .q p => some p | _ => none) (insReads x)).isEmpty) = false := hp
      simp only [Bool.not_eq_false', List.isEmpty_iff] at e
      exact Option.some_ne_none p (List.filterMap_eq_nil_iff.1 e _ hm)
    obtain ⟨hA, hB, hC⟩ := no_ports hx hq
    unfold readOperands
    simp only [takeField_state _ _ _ _ _ _ _ _ hC, takeField_state _ _ _ _ _ _ _ _ hB, takeField_state _ _ _ _ _ _ _ _ hA]

/-- The operands of an instruction that names no queue port, tests no full/empty bit and takes no immediate. -/
theorem gather_plain {s : State} {x : Ins} {t : Nat} (hq : ∀ p, RegRef.q p ∉ insReads x) (hp : pushOf x = none)
    (hf : ∀ k, RegRef.g k true ∉ insReads x) (hl : x.bLit = none) (hb : x.mb 7 = false) (hc : x.mb 6 = false)
    (hx : x.o ≠ .balloc ∧ x.o ≠ .xlane) :
    gather s x t = .vals
      { a := fieldNum s x.f.u x.f.t t x.shape.a x.f.a, b := fieldNum s x.f.u x.f.t t x.shape.b x.f.b,
        c := fieldNum s x.f.u x.f.t t x.shape.c x.f.c, popped := false, st := s } := by
  obtain ⟨hA, hB, hC⟩ := no_ports hx hq
  have e : ∀ g : RegRef → Option Nat, (∀ r, (∀ p, r ≠ .q p) → g r = none) → (insReads x).filterMap g = [] := fun g hg =>
    List.filterMap_eq_nil_iff.2 fun r hr => hg r fun p h => hq p (h ▸ hr)
  have e2 : ∀ g : RegRef → Bool, (∀ r, (∀ k, r ≠ .g k true) → g r = false) → (insReads x).any g = false := fun g hg =>
    List.any_eq_false.2 fun r hr => by rw [hg r fun k h => hf k (h ▸ hr)]; exact Bool.false_ne_true
  unfold gather
  simp only [hp]
  rw [e _ (fun r h => by cases r <;> first | rfl | exact absurd rfl (h _)),
    e2 _ (fun r h => by
      cases r with
      | g k fe => cases fe with
        | true => exact absurd rfl (h k)
        | false => rfl
      | _ => rfl)]
  simp only [List.any_nil, Bool.or_self, Bool.false_eq_true, if_false, shortPort, List.isEmpty_nil, Bool.not_true]
  unfold readOperands
  simp only [hl, hb, hc, Option.isSome_none, Bool.or_self, Bool.false_eq_true, if_false,
    takeField_state _ _ _ _ _ _ _ _ hA, takeField_state _ _ _ _ _ _ _ _ hB, takeField_state _ _ _ _ _ _ _ _ hC,
    takeField_value _ _ _ _ _ _ _ hA, takeField_value _ _ _ _ _ _ _ hB, takeField_value _ _ _ _ _ _ _ hC]

end Sys2Proof.Machine
end

