-- ==== Sys2Proof/Laws/Exec.lean ====
section
/-! SUPPORT. The meaning of an instruction by its opcode: the constructors of one opcode differ in the layout of their fields alone. -/

namespace Sys2Proof.Machine

/-- What an instruction does, by its opcode. -/
def opMeaning (x : Ins) (s : State) : Out :=
  match x.o with
  | .abs => alu absFn x s
  | .acc => acc x s
  | .accm => anvilIns acczBody x s
  | .accr => accr x s
  | .accs => anvilIns accsBody x s
  | .accw => accw x s
  | .accz => anvilIns acczBody x s
  | .add => alu addFn x s
  | .addc => alu addcFn x s
  | .and => alu andFn x s
  | .andn => alu andnFn x s
  | .atci => atci x s
  | .atom => memIns .atom atomReq atomSize x s
  | .balloc => balloc x s
  | .barv => barv x s
  | .bcst => exchange bcstSrc x s
  | .bexp => barv x s
  | .bfi => alu bfiFn x s
  | .bfree => bfree x s
  | .bfx => alu bfxFn x s
  | .bkpt => trapWith 33 x s
  | .bra => bra x s
  | .brev => alu brevFn x s
  | .brx => brx false x s
  | .btest => btest x s
  | .bufd => bufd x s
  | .buff => buff x s
  | .bufs => bufs x s
  | .bwait => bwait x s
  | .call => call x s
  | .callx => brx true x s
  | .cas => memIns .cas casReq atomSize x s
  | .clz => alu clzFn x s
  | .cmp => alu cmpFn x s
  | .cntr => cntr x s
  | .cpy => cpy x s
  | .cpyq => cpyq x s
  | .csign => csign x s
  | .ctxr => ctxr x s
  | .ctxs => ctxs x s
  | .ctz => alu ctzFn x s
  | .div => alu divFn x s
  | .dp4 => alu dp4Fn x s
  | .evnt => evnt x s
  | .exit => exit_ x s
  | .fabs => alu fabsFn x s
  | .fadd => alu faddFn x s
  | .fclass => alu fclassFn x s
  | .fcmp => alu fcmpFn x s
  | .fcos => alu (apxFn (fsincos32 true)) x s
  | .fcvt => alu fcvtFn x s
  | .fcvti => alu fcvtiFn x s
  | .fdiv => alu fdivFn x s
  | .fdot2 => alu fdot2Fn x s
  | .fence => fence x s
  | .feset => feset x s
  | .fetest => fetest x s
  | .fexp2 => alu (apxFn fexp232) x s
  | .ffma => alu ffmaFn x s
  | .flog2 => alu (apxFn flog232) x s
  | .flsh => flsh x s
  | .fmax => alu fmaxFn x s
  | .fmin => alu fminFn x s
  | .fmul => alu fmulFn x s
  | .fneg => alu fnegFn x s
  | .frcp => alu (apxFn frcp32) x s
  | .frnd => alu frndFn x s
  | .frsq => alu (apxFn frsq32) x s
  | .fscl => alu fsclFn x s
  | .fsgn => alu fsgnFn x s
  | .fsin => alu (apxFn (fsincos32 false)) x s
  | .fsqrt => alu fsqrtFn x s
  | .fsub => alu fsubFn x s
  | .gath => gath x s
  | .getn => putn x s
  | .halt => halt x s
  | .icvtf => alu icvtfFn x s
  | .idem => idem x s
  | .join => join x s
  | .launch => launchIns x s
  | .ld => memIns .ld ldReq memSize x s
  | .ldb => memIns .ldb ldbReq (fun _ => 4) x s
  | .ldc => memIns .ldc ldcReq memSize x s
  | .lea => alu leaFn x s
  | .leave => leave x s
  | .lqd => alu lqdFn x s
  | .mad => alu madFn x s
  | .madw => alu madwFn x s
  | .mapq => mapq x s
  | .matchEq => matchEq x s
  | .max => alu maxFn x s
  | .mget => mget x s
  | .min => alu minFn x s
  | .mma => mma x s
  | .mmg => anvilIns mmgBody x s
  | .mms => anvilIns mmsBody x s
  | .mov => alu movFn x s
  | .movi => alu moviFn x s
  | .movs => movs x s
  | .movx => movx x s
  | .movxw => movxw x s
  | .mset => mset x s
  | .mul => alu mulFn x s
  | .mulh => alu mulhFn x s
  | .mulw => alu mulwFn x s
  | .mvb => mvb x s
  | .neg => alu negFn x s
  | .nop => nop x s
  | .not => alu notFn x s
  | .or => alu orFn x s
  | .pack8 => alu pack8Fn x s
  | .permb => alu permbFn x s
  | .plop => alu plopFn x s
  | .pmc => pmc x s
  | .popc => alu popcFn x s
  | .ppt => ppt x s
  | .pref => pref x s
  | .putn => putn x s
  | .rack => rack x s
  | .rag => coll x s
  | .rar => coll x s
  | .rbc => coll x s
  | .red => memIns .red atomReq atomSize x s
  | .redw => redw x s
  | .redwx => redwx x s
  | .rem => alu remFn x s
  | .ret => ret x s
  | .rgset => rgset x s
  | .rho => coll x s
  | .rotl => alu rotlFn x s
  | .rrs => coll x s
  | .rstat => rstat x s
  | .rtt => rtt x s
  | .scan => scan x s
  | .scat => gath x s
  | .sel => alu selFn x s
  | .sets => sets x s
  | .sext => alu sextFn x s
  | .shl => alu shlFn x s
  | .shr => alu shrFn x s
  | .sleep => sleep x s
  | .slotr => slotr x s
  | .slotw => slotw x s
  | .sra => alu sraFn x s
  | .st => stIns x s
  | .sub => alu subFn x s
  | .subc => alu subcFn x s
  | .sysc => trapWith 34 x s
  | .trap => trapWith 32 x s
  | .unpk8 => alu unpk8Fn x s
  | .vote => vote x s
  | .waitc => waitc x s
  | .waitm => waitm x s
  | .wld => anvilIns wldBody x s
  | .wswp => anvilIns wswpBody x s
  | .xch => exchange xchSrc x s
  | .xidx => exchange xidxSrc x s
  | .xlane => xlane x s
  | .xor => alu xorFn x s
  | .yield => yield_ x s


/-- The meaning of every instruction is that of its opcode, on its fields. -/
theorem exec_ins {i : Instr} {x : Ins} (h : i.ins? = some x) (s : State) : exec i s = opMeaning x s := by
  cases i 
  all_goals first
    | (obtain rfl := Option.some.inj h; rfl)
    | exact nomatch h
end Sys2Proof.Machine
end

