-- ==== Sys2Proof/Laws/Trap.lean ====
section
/-! SUPPORT. Taking an exception, the end of a run by a fault, and a run of one thread. -/

namespace Sys2Proof.Machine

/-- The threads after a change of the same kind to some slots of a warp. -/
theorem thread_foldSlots (w : Nat) (f : Nat → Thread → Thread) (l : List Nat) (s : State) (u : Nat) (hn : l.Nodup) :
    (l.foldl (fun s k => s.modThread (threadOf w k) (f k)) s).thread u =
      if threadOf w (u - 32 * w) = u ∧ u - 32 * w ∈ l then f (u - 32 * w) (s.thread u) else s.thread u := by
  induction l generalizing s with
  | nil => simp
  | cons a r ih =>
    rw [List.nodup_cons] at hn
    rw [List.foldl_cons, ih _ hn.2, State.thread_modThread]
    by_cases hu : threadOf w (u - 32 * w) = u
    · by_cases ha : u - 32 * w = a
      · subst ha
        rw [if_neg (fun h => hn.1 h.2), if_pos hu.symm, if_pos ⟨hu, List.mem_cons_self⟩, hu]
      · have : u ≠ threadOf w a := by unfold threadOf at hu ⊢; omega
        rw [if_neg this]
        simp [hu, ha]
    · have : u ≠ threadOf w a := by unfold threadOf at hu ⊢; omega
      simp [hu, this]

theorem rest_foldSlots (w : Nat) (f : Nat → Thread → Thread) (l : List Nat) (s : State) :
    { l.foldl (fun s k => s.modThread (threadOf w k) (f k)) s with threads := [] } = { s with threads := [] } := by
  induction l generalizing s with
  | nil => rfl
  | cons a r ih => rw [List.foldl_cons, ih]; rfl

/-- States that differ in threads only have the same warps, cores and memory. -/
theorem parts_of_rest {s s' : State} (h : { s' with threads := [] } = { s with threads := [] }) :
    (∀ w, s'.warp w = s.warp w) ∧ (∀ c, s'.core c = s.core c) ∧ (∀ l, s'.lane l = s.lane l) ∧ s'.mem = s.mem ∧
      s'.cellar = s.cellar ∧ s'.agenda = s.agenda ∧ s'.clk = s.clk ∧ s'.cur = s.cur := by
  obtain ⟨a1, a2, a3, a4, a5, a6, a7, a8, a9, a10, a11, a12, a13, a14, a15, a16, a17, a18, a19, a20, a21, a22, a23, a24, a25, a26⟩ := s
  obtain ⟨b1, b2, b3, b4, b5, b6, b7, b8, b9, b10, b11, b12, b13, b14, b15, b16, b17, b18, b19, b20, b21, b22, b23, b24, b25, b26⟩ := s'
  injection h
  subst_vars
  exact ⟨fun _ => rfl, fun _ => rfl, fun _ => rfl, rfl, rfl, rfl, rfl, rfl⟩

/-- A fault ends the run, and the warp of its thread is in its handler. -/
theorem faultRun_trapped (s : State) (r : Run) (t cause acc : Nat) (addr : Dword) (hh : (s.warp (t / 32)).handler = none)
    (hc : (s.cohort (coreOfWarp (t / 32))).ctx.handler ≠ 0) : Trapped s (faultRun s r t cause acc addr) r t cause acc addr := by
  have hh2 : ((closeRun s r s.clk).warp (t / 32)).handler = none := hh
  have hc2 : ¬ ((closeRun s r s.clk).cohort (coreOfWarp (t / 32))).ctx.handler = 0 := hc
  have hr := rest_foldSlots (t / 32)
  unfold faultRun takeTrap
  simp only [hh2, hc2, if_false]
  refine ⟨?_, ?_, ?_, ?_, ?_, ?_, ?_, fun k hk => ?_, fun u k => ?_, ?_, ?_⟩
  any_goals rw [(parts_of_rest (hr _ _ _)).1, State.warp_modWarp_same]
  · rfl
  · simp [xcauseWord]
  · rfl
  · rw [thread_foldSlots (t / 32) _ _ _ _ List.nodup_range, if_pos]
    · exact ⟨rfl, rfl⟩
    · unfold threadOf; simp only [List.mem_range]; omega
  · unfold State.greg
    rw [thread_foldSlots (t / 32) _ _ _ _ List.nodup_range]
    split <;> rfl
  · exact (parts_of_rest (hr _ _ _)).2.2.2.1
  · exact (parts_of_rest (hr _ _ _)).2.2.2.2.1

/-- A run whose head is the thread's warp has the same trap. -/
theorem trapped_turn {s s' : State} {r q : Run} {t c a : Nat} {d : Dword} (h : Trapped s s' q t c a d)
    (hp : q.pc = r.pc) (hw : q.warp = t / 32) (hd : q.done = if r.warp = t / 32 then r.done else 0) : Trapped s s' r t c a d :=
  ⟨h.handler, h.xcause, h.xaddr, h.xpc.trans hp, h.xdone.trans (by rw [if_pos hw, hd]), h.xm, h.m, h.slots, h.greg, h.mem, h.cellar⟩

@[simp] theorem atWarp_pc (r : Run) (t : Nat) : (atWarp r t).pc = r.pc := by unfold atWarp; split <;> rfl
@[simp] theorem atWarp_warp (r : Run) (t : Nat) : (atWarp r t).warp = t / 32 := by
  unfold atWarp; split
  · assumption
  · rfl
theorem atWarp_done (r : Run) (t : Nat) : (atWarp r t).done = if r.warp = t / 32 then r.done else 0 := by
  unfold atWarp; split <;> rfl

/-- A thread whose body raises a fault on the state `s1` that it made traps on that state. -/
theorem trapsOn_of_fault {i : Instr} {s s1 : State} {x : Ins} {t cost : Nat} {endf : EndFn} {body : Nat → State → TOut}
    {c a : Nat} {d : Dword} (h : Turn s x t) (e : exec i s = perThread x cost endf body s) (hb : body t s = .fault c a d s1) :
    TrapsOn i t c a d s s1 := by
  intro hh hc
  obtain ⟨r0, r, rest, hr, rfl, ht, -, -, -, -, fault, -⟩ := perThread_turn h cost endf body
  exact ⟨_, e.trans (fault c a d s1 hb), r0, hr,
    trapped_turn (faultRun_trapped _ _ _ _ _ _ hh hc) (atWarp_pc ..) (atWarp_warp ..) (atWarp_done ..)⟩

/-- A thread whose body raises a fault without a change of the state traps. -/
theorem traps_of_fault {i : Instr} {s : State} {x : Ins} {t cost : Nat} {endf : EndFn} {body : Nat → State → TOut}
    {c a : Nat} {d : Dword} (h : Turn s x t) (e : exec i s = perThread x cost endf body s) (hb : body t s = .fault c a d s) :
    Traps i t c a d s := trapsOn_of_fault h e hb

/-- A sub-run whose body raises a fault without a change of the state traps. -/
theorem traps_of_subFault {i : Instr} {s : State} {x : Ins} {ps : List Nat} {cost : Nat → Nat} {endf : EndFn}
    {body : List Nat → State → TOut} {c a : Nat} {d : Dword} (h : Whole s x ps)
    (e : exec i s = perSubrun x cost endf body s) (hb : body ps s = .fault c a d s) : Traps i (ps.headD 0) c a d s := by
  intro hh hc
  obtain ⟨r, hr, hps⟩ := h.run
  obtain ⟨t, more, rfl⟩ : ∃ t more, ps = t :: more := by
    cases ps with
    | nil => exact absurd rfl h.some
    | cons t more => exact ⟨t, more, rfl⟩
  have ha := h.alive t List.mem_cons_self
  have hg := h.guard t List.mem_cons_self
  have hw : ∀ u ∈ t :: more, u / 32 = t / 32 := h.warp
  have hmine : ((t :: more).filter fun u => decide (u / 32 = t / 32)) = t :: more :=
    List.filter_eq_self.2 fun u hu => by simpa using hw u hu
  have hps' : ((t :: more).filter fun u => s.alive u && guardTrue s x u) = t :: more :=
    List.filter_eq_self.2 fun u hu => by simp [h.alive u hu, h.guard u hu]
  have hno : ((t :: more).filter fun u => s.alive u && !guardTrue s x u) = [] :=
    List.filter_eq_nil_iff.2 fun u hu => by simp [h.guard u hu]
  refine ⟨faultRun s { atWarp r t with walk := none } t c a d, ?_, r, hr, 
    trapped_turn (faultRun_trapped _ _ _ _ _ _ hh hc) (atWarp_pc ..) (atWarp_warp ..) (atWarp_done ..)⟩
  rw [e]; unfold perSubrun
  simp only [hr, drainRun, hps, List.headD_cons, drainSub_turn more ha hg, ne_eq, not_true_eq_false, and_false, if_false,
    hmine, hps', hno, List.foldl_nil, hb]

/-- The mask of one slot is not empty. -/
theorem slotBit_ne (k : Nat) (h : k < 32) : slotBit k ≠ 0 := by
  intro e
  have := congrArg BitVec.toNat e
  simp only [slotBit, BitVec.toNat_ofNat] at this
  rw [Nat.mod_eq_of_lt (Nat.pow_lt_pow_right (by omega) h)] at this
  exact absurd this (Nat.pos_iff_ne_zero.1 (Nat.two_pow_pos k))

/-- The run of a thread that is the only one and has performed. -/
def Run.after (r : Run) (t : Nat) : Run :=
  { turnRun 0 r t with count := 1, since := 0, done := slotBit (t % 32) }

/-- The state that the end of the sub-run of one thread acts on. -/
def afterAlone (s : State) (r : Run) (t : Nat) : State :=
  pmcAdd (stallAdd s (coreOfThread t) (turnRun 0 r t)) (coreOfThread t) 2 1

/-- A thread that is the only one of its run: the effect at the end of the sub-run comes after its own. -/
theorem perThread_alone {s : State} {x : Ins} {t : Nat} (h : Alone s x t) (cost : Nat) (endf : EndFn)
    (body : Nat → State → TOut) :
    ∃ r : Run, (s.lane s.cur).run = some r ∧ r.threads = [t] ∧ r.warp = t / 32 ∧ r.done = 0 ∧ r.count = 0 ∧
      (∀ s1, body t s = .ok s1 → perThread x cost endf body s =
        .next (closeRun (endf (afterAlone (s1.advance t x.size) r t) (t / 32) (slotBit (t % 32)) (s1.clk + cost)) (r.after t) (s1.clk + cost))) ∧
      (∀ s1, (body t s = .jump s1 ∨ body t s = .held s1) → perThread x cost endf body s =
        .next (closeRun (endf (afterAlone s1 r t) (t / 32) (slotBit (t % 32)) (s1.clk + cost)) (r.after t) (s1.clk + cost))) := by
  obtain ⟨r, hr, ht, hp, hw, hd, hct, he⟩ := h.run
  have hs : slotBit (t % 32) ≠ 0 := slotBit_ne _ (Nat.mod_lt _ (by omega))
  have turn : Turn s x t := ⟨⟨r, [], hr, ht, hp, List.not_mem_nil⟩, h.alive, h.guard⟩
  obtain ⟨r0, q, rest, hr0, rfl, ht0, -, ok, jump, held, -⟩ := perThread_turn turn cost endf body
  obtain rfl : r = r0 := Option.some.inj (hr.symm.trans hr0)
  obtain rfl : rest = [] := (List.cons.inj (ht.symm.trans ht0)).2.symm
  have key : ∀ s2, afterTurn x cost endf (turnRun 0 r t) t [] s2 =
      closeRun (endf (afterAlone s2 r t) (t / 32) (slotBit (t % 32)) (s2.clk + cost)) (r.after t) (s2.clk + cost) := by
    intro s2
    have hns : ¬ slotBit (t % 32) = 0#32 := hs
    unfold afterTurn goOn drainSub
    cases hc : isCollective x <;>
      simp [drain, finish, Run.over, subEnd, turnRun, atWarp, Run.after, afterAlone, hns, hc, hw, hd, hct, he]
  exact ⟨r, hr, ht, hw, hd, hct, fun s1 hb => (ok s1 hb).trans (by rw [key]; rfl),
    fun s1 hb => (hb.elim (jump s1) (held s1)).trans (by rw [key])⟩

theorem kept_afterAlone (s : State) (r : Run) (t : Nat) : Kept s (afterAlone s r t) noReg noReg noThread noReg :=
  (kept_stallAdd ..).trans (kept_pmcAdd ..)

theorem thread_afterAlone (s : State) (r : Run) (t u : Nat) : (afterAlone s r t).thread u = s.thread u := by
  unfold afterAlone stallAdd; split <;> rfl

end Sys2Proof.Machine
end

