-- ==== Sys2Proof/Laws/Masks.lean ====
section
/-! SUPPORT. The release check on a mask: what it makes of the mask, and what it leaves. -/

namespace Sys2Proof.Machine

/-- What releases of threads leave: everything but program counters, waits and ready times of threads. -/
structure OnlyThreads (s s' : State) : Prop where
  rest : { s' with threads := [] } = { s with threads := [] }
  regs : ∀ u, (s'.thread u).g = (s.thread u).g ∧ (s'.thread u).p = (s.thread u).p ∧ (s'.thread u).exited = (s.thread u).exited

theorem OnlyThreads.refl (s : State) : OnlyThreads s s := ⟨rfl, fun _ => ⟨rfl, rfl, rfl⟩⟩
theorem OnlyThreads.trans {s t u : State} (a : OnlyThreads s t) (b : OnlyThreads t u) : OnlyThreads s u :=
  ⟨b.rest.trans a.rest, fun x => ⟨(b.regs x).1.trans (a.regs x).1, (b.regs x).2.1.trans (a.regs x).2.1, (b.regs x).2.2.trans (a.regs x).2.2⟩⟩

theorem onlyThreads_release (s : State) (t n : Nat) : OnlyThreads s (s.release t n) :=
  ⟨rfl, fun u => by unfold State.release; rw [State.thread_modThread]; split <;> (subst_vars; exact ⟨rfl, rfl, rfl⟩)⟩

theorem onlyThreads_releases (w n : Nat) (l : List Nat) (s : State) :
    OnlyThreads s (l.foldl (fun s k => s.release (threadOf w k) n) s) := by
  induction l generalizing s with
  | nil => exact OnlyThreads.refl s
  | cons a r ih => exact (onlyThreads_release ..).trans (ih _)

theorem OnlyThreads.mask {s s' : State} (h : OnlyThreads s s') (v m : Nat) : s'.mask v m = s.mask v m := by
  unfold State.mask; rw [(parts_of_rest h.rest).1]
theorem OnlyThreads.wreg {s s' : State} (h : OnlyThreads s s') (v r : Nat) : s'.wreg v r = s.wreg v r := by
  unfold State.wreg; rw [(parts_of_rest h.rest).1]
theorem OnlyThreads.greg {s s' : State} (h : OnlyThreads s s') (u r : Nat) : s'.greg u r = s.greg u r := by
  unfold State.greg; rw [(h.regs u).1]

theorem mask_setMask (s : State) (w m v k : Nat) (x : Word) :
    (s.setMask w m x).mask v k = if v = w ∧ k = m then x else s.mask v k := by
  unfold State.setMask State.mask
  rw [State.warp_modWarp]
  split
  · subst_vars; simp only [kvGet_kvSet, true_and]
  · rename_i h; rw [if_neg (fun e => h e.1)]

/-- A thread after releases of some slots of a warp. -/
theorem thread_releases (w n : Nat) (l : List Nat) (s : State) (hn : l.Nodup) (k : Nat) :
    (l.foldl (fun s k => s.release (threadOf w k) n) s).thread (threadOf w k) =
      if k ∈ l then { s.thread (threadOf w k) with hold := .none, pc := (s.thread (threadOf w k)).pc + BitVec.ofNat 64 n, since := s.clk + 1 }
      else s.thread (threadOf w k) := by
  induction l generalizing s with
  | nil => simp
  | cons a r ih =>
    rw [List.nodup_cons] at hn
    rw [List.foldl_cons, ih _ hn.2]
    unfold State.release
    rw [State.thread_modThread]
    by_cases e : k = a
    · subst e; simp [hn.1]
    · have : threadOf w k ≠ threadOf w a := by unfold threadOf; omega
      simp [this, e]

theorem mem_maskSlots (m : Word) (k : Nat) : k ∈ maskSlots m ↔ k < 32 ∧ m.getLsbD k = true := by
  simp [maskSlots]

theorem mem_heldAt (s : State) (w m k : Nat) : k ∈ heldAt s w m ↔ k < 32 ∧ (s.thread (threadOf w k)).hold = .mask m := by
  simp [heldAt]

/-- The condition under which a release check releases the members. -/
theorem allHeld_iff (s : State) (w m : Nat) (x : Word) :
    (maskSlots x).all (fun k => (heldAt s w m).contains k) = true ↔ ∀ k ∈ maskSlots x, (s.thread (threadOf w k)).hold = .mask m := by
  rw [List.all_eq_true]
  refine forall_congr' fun k => imp_congr_right fun hk => ?_
  rw [List.contains_iff_mem, mem_heldAt]
  exact ⟨fun h => h.2, fun h => ⟨((mem_maskSlots x k).1 hk).1, h⟩⟩

theorem mask_releaseCheck (s : State) (w m v k : Nat) :
    (releaseCheck s w m).mask v k = if v = w ∧ k = m then checked s w m (s.mask w m) else s.mask v k := by
  unfold releaseCheck checked
  simp only [allHeld_iff]
  have h1 := onlyThreads_releases w 12 ((heldAt s w m).filter fun k => !(s.mask w m).getLsbD k) s
  split
  · rw [(onlyThreads_releases ..).mask, mask_setMask, h1.mask]
  · rw [h1.mask]
    split
    · rename_i e; rw [e.1, e.2]
    · rfl

/-- What a release check leaves. -/
theorem releaseCheck_keeps (s : State) (w m : Nat) :
    (∀ u r, (releaseCheck s w m).greg u r = s.greg u r) ∧ (∀ v r, (releaseCheck s w m).wreg v r = s.wreg v r) ∧
    (releaseCheck s w m).mem = s.mem ∧ (releaseCheck s w m).cellar = s.cellar ∧
    (∀ u, ((releaseCheck s w m).thread u).exited = (s.thread u).exited ∧ ((releaseCheck s w m).thread u).p = (s.thread u).p) := by
  have h1 := onlyThreads_releases w 12 ((heldAt s w m).filter fun k => !(s.mask w m).getLsbD k) s
  unfold releaseCheck
  simp only
  split
  · have h2 := onlyThreads_releases w 12 (maskSlots (s.mask w m))
      (State.setMask (List.foldl (fun s k => s.release (threadOf w k) 12) s ((heldAt s w m).filter fun k => !(s.mask w m).getLsbD k)) w m 0)
    have e : ∀ (u : State), { u.setMask w m 0 with warps := [] } = { u with warps := [] } := fun _ => rfl
    refine ⟨fun u r => (h2.greg u r).trans (h1.greg u r), fun v r => (h2.wreg v r).trans (Eq.trans ?_ (h1.wreg v r)), ?_, ?_, fun u => ?_⟩
    · unfold State.setMask State.wreg
      rw [State.warp_modWarp]; split
      · subst_vars; rfl
      · rfl
    · exact (parts_of_rest h2.rest).2.2.2.1.trans (parts_of_rest h1.rest).2.2.2.1
    · exact (parts_of_rest h2.rest).2.2.2.2.1.trans (parts_of_rest h1.rest).2.2.2.2.1
    · exact ⟨(h2.regs u).2.2.trans (h1.regs u).2.2, (h2.regs u).2.1.trans (h1.regs u).2.1⟩
  · exact ⟨h1.greg, h1.wreg, (parts_of_rest h1.rest).2.2.2.1, (parts_of_rest h1.rest).2.2.2.2.1, fun u => ⟨(h1.regs u).2.2, (h1.regs u).2.1⟩⟩

/-- A thread that does not wait at a mask is left as it is by the mask's release check. -/
theorem thread_releaseCheck (s : State) (w m k : Nat) (h : (s.thread (threadOf w k)).hold ≠ .mask m) :
    (releaseCheck s w m).thread (threadOf w k) = s.thread (threadOf w k) := by
  have n1 : ((heldAt s w m).filter fun k => !(s.mask w m).getLsbD k).Nodup := (List.nodup_range.filter _).filter _
  have n2 : (maskSlots (s.mask w m)).Nodup := List.nodup_range.filter _
  have out : k ∉ heldAt s w m := fun e => h ((mem_heldAt s w m k).1 e).2
  unfold releaseCheck
  simp only [allHeld_iff]
  split
  · rename_i c
    rw [thread_releases _ _ _ _ n2, if_neg fun e => h (c.2 k e)]
    show (List.foldl _ s _).thread _ = _
    rw [thread_releases _ _ _ _ n1, if_neg fun e => out (List.mem_of_mem_filter e)]
  · rw [thread_releases _ _ _ _ n1, if_neg fun e => out (List.mem_of_mem_filter e)]

/-- The members of a mask go on where all of them wait at it. -/
theorem thread_releaseCheck_all (s : State) (w m k : Nat) (h0 : s.mask w m ≠ 0)
    (ha : ∀ k ∈ maskSlots (s.mask w m), (s.thread (threadOf w k)).hold = .mask m) (hk : k ∈ maskSlots (s.mask w m)) :
    ((releaseCheck s w m).thread (threadOf w k)).hold = .none ∧
    ((releaseCheck s w m).thread (threadOf w k)).pc = (s.thread (threadOf w k)).pc + 12 := by
  have n1 : ((heldAt s w m).filter fun k => !(s.mask w m).getLsbD k).Nodup := (List.nodup_range.filter _).filter _
  have n2 : (maskSlots (s.mask w m)).Nodup := List.nodup_range.filter _
  unfold releaseCheck
  simp only [allHeld_iff]
  rw [if_pos ⟨h0, ha⟩, thread_releases _ _ _ _ n2, if_pos hk]
  refine ⟨rfl, ?_⟩
  show ((List.foldl _ s _).thread _).pc + _ = _
  rw [thread_releases _ _ _ _ n1, if_neg]
  · rfl
  · intro e
    have := (List.mem_filter.1 e).2
    rw [((mem_maskSlots _ _).1 hk).2] at this
    cases this

/-- The release check looks at nothing but the waits of the warp's threads. -/
theorem checked_congr (s s' : State) (w m : Nat) (new : Word) (h : ∀ k, (s'.thread (threadOf w k)).hold = (s.thread (threadOf w k)).hold) :
    checked s' w m new = checked s w m new := by
  unfold checked; simp only [h]

/-- The release checks on several masks. -/
theorem releaseChecks_foldl (w : Nat) (l : List Nat) (s : State) (hn : l.Nodup) :
   let s' := l.foldl (fun s m => releaseCheck s w m) s
   (∀ v m, s'.mask v m = if v = w ∧ m ∈ l then checked s w m (s.mask w m) else s.mask v m) ∧
   (∀ k, (∀ m ∈ l, (s.thread (threadOf w k)).hold ≠ .mask m) → s'.thread (threadOf w k) = s.thread (threadOf w k)) ∧
   (∀ u r, s'.greg u r = s.greg u r) ∧ (∀ v r, s'.wreg v r = s.wreg v r) ∧ s'.mem = s.mem ∧ s'.cellar = s.cellar ∧ (∀ u, (s'.thread u).exited = (s.thread u).exited) := by
  induction l generalizing s with
  | nil => simp
  | cons a r ih =>
    rw [List.nodup_cons] at hn
    obtain ⟨i1, i2, i3, i4, i5, i6, i7⟩ := ih (releaseCheck s w a) hn.2
    obtain ⟨k1, k2, k3, k4, k5⟩ := releaseCheck_keeps s w a
    have hold_iff : ∀ m, m ≠ a → ∀ k, ((releaseCheck s w a).thread (threadOf w k)).hold = .mask m ↔ (s.thread (threadOf w k)).hold = .mask m := by
      intro m hm k
      by_cases e : (s.thread (threadOf w k)).hold = .mask a
      · rw [e]
        have : ((releaseCheck s w a).thread (threadOf w k)).hold = .mask a ∨ ((releaseCheck s w a).thread (threadOf w k)).hold = .none := by
          have n1 : ((heldAt s w a).filter fun k => !(s.mask w a).getLsbD k).Nodup := (List.nodup_range.filter _).filter _
          have n2 : (maskSlots (s.mask w a)).Nodup := List.nodup_range.filter _
          unfold releaseCheck
          simp only
          split
          · rw [thread_releases _ _ _ _ n2]
            split
            · right; rfl
            · show ((List.foldl _ s _).thread _).hold = _ ∨ ((List.foldl _ s _).thread _).hold = _
              rw [thread_releases _ _ _ _ n1]; split
              · right; rfl
              · left; exact e
          · rw [thread_releases _ _ _ _ n1]; split
            · right; rfl
            · left; exact e
        rcases this with h | h
        · rw [h]
        · rw [h]; simp only [reduceCtorEq, Hold.mask.injEq, false_iff]; omega
      · rw [thread_releaseCheck _ _ _ _ e]
    refine ⟨fun v m => ?_, fun k hk => ?_, fun u r => (i3 u r).trans (k1 u r), fun u r => (i4 u r).trans (k2 u r), i5.trans k3, i6.trans k4, fun u => (i7 u).trans (k5 u).1⟩
    · refine (i1 v m).trans ?_
      rw [mask_releaseCheck s w a v m, mask_releaseCheck s w a w m]
      by_cases hv : v = w
      · subst hv
        by_cases hm : m = a
        · subst hm; simp [hn.1]
        · simp only [true_and, hm, if_false, List.mem_cons, false_or]
          split
          · unfold checked; simp only [hold_iff m hm]
          · rfl
      · simp [hv]
    · have e := thread_releaseCheck s w a k (hk a List.mem_cons_self)
      exact (i2 k (fun m hm => by rw [e]; exact hk m (List.mem_cons_of_mem _ hm))).trans e

end Sys2Proof.Machine
end

