-- ==== Sys2Proof/Laws/Memory.lean ====
section
/-! SUPPORT. The canonical form of a memory: every operation on one keeps it, and what a byte reads as after a write. -/

namespace Sys2Proof.Machine

theorem wfFrom_mono (m : List Host.Cell) {a b : Nat} (h : a ≤ b) (hw : memWfFrom b m = true) : memWfFrom a m = true := by
  cases m with
  | nil => rfl
  | cons c r =>
    obtain ⟨x, y⟩ := c
    simp only [memWfFrom, Bool.and_eq_true, decide_eq_true_eq] at *
    exact ⟨⟨by omega, hw.1.2⟩, hw.2⟩

/-- Below its first cell a memory reads as 0. -/
theorem memGet_below (m : List Host.Cell) {lo a : Nat} (hw : memWfFrom lo m = true) (h : a < lo) : memGet m a = 0 := by
  cases m with
  | nil => rfl
  | cons c r =>
    obtain ⟨x, y⟩ := c
    simp only [memWfFrom, Bool.and_eq_true, decide_eq_true_eq] at hw
    rw [memGet, if_neg (by omega), if_pos (by omega)]

/-- A write of one byte keeps the canonical form. -/
theorem wfFrom_memSet (m : List Host.Cell) (lo a : Nat) (b : Byte) (hl : lo ≤ a) (hw : memWfFrom lo m = true) :
    memWfFrom lo (memSet m a b) = true := by
  induction m generalizing lo with
  | nil => unfold memSet; split <;> simp_all [memWfFrom]
  | cons c r ih =>
    obtain ⟨x, y⟩ := c
    simp only [memWfFrom, Bool.and_eq_true, decide_eq_true_eq, bne_iff_ne] at hw
    unfold memSet
    split
    · split
      · simp only [memWfFrom, Bool.and_eq_true, decide_eq_true_eq, bne_iff_ne]; exact hw
      · simp only [memWfFrom, Bool.and_eq_true, decide_eq_true_eq, bne_iff_ne]
        exact ⟨⟨hl, ‹_›⟩, ⟨by omega, hw.1.2⟩, hw.2⟩
    · split
      · subst_vars
        split
        · exact wfFrom_mono r (by omega) hw.2
        · simp only [memWfFrom, Bool.and_eq_true, decide_eq_true_eq, bne_iff_ne]
          exact ⟨⟨hl, ‹_›⟩, hw.2⟩
      · simp only [memWfFrom, Bool.and_eq_true, decide_eq_true_eq, bne_iff_ne]
        exact ⟨hw.1, ih _ (by omega) hw.2⟩

theorem wf_memSet {m : List Host.Cell} (a : Nat) (b : Byte) (h : Memory.wf m = true) : Memory.wf (memSet m a b) = true :=
  wfFrom_memSet m 0 a b (Nat.zero_le _) h

/-- A write of bytes keeps the canonical form. -/
theorem wf_memWrite {m : List Host.Cell} (a : Nat) (l : List Byte) (h : Memory.wf m = true) : Memory.wf (memWrite m a l) = true := by
  induction l generalizing m a with
  | nil => exact h
  | cons b r ih => exact ih (a + 1) (wf_memSet a b h)

/-- Clearing a range keeps the canonical form. -/
theorem wf_memClear {m : List Host.Cell} (a n : Nat) (h : Memory.wf m = true) : Memory.wf (memClear m a n) = true := by
  unfold Memory.wf at h ⊢
  unfold memClear
  generalize 0 = lo at h ⊢
  induction m generalizing lo with
  | nil => rfl
  | cons c r ih =>
    obtain ⟨x, y⟩ := c
    simp only [memWfFrom, Bool.and_eq_true] at h
    rw [List.filter_cons]
    split
    · simp only [memWfFrom, Bool.and_eq_true]; exact ⟨h.1, ih _ h.2⟩
    · exact wfFrom_mono _ (by have := h.1.1; simp only [decide_eq_true_eq] at this; omega) (ih _ h.2)

/-- A byte after a write of one byte. -/
theorem memGet_memSet {m : List Host.Cell} {lo : Nat} (a : Nat) (b : Byte) (c : Nat) (hw : memWfFrom lo m = true) :
    memGet (memSet m a b) c = if c = a then b else memGet m c := by
  induction m generalizing lo with
  | nil => unfold memSet; split <;> split <;> simp_all [memGet]
  | cons e r ih =>
    obtain ⟨x, y⟩ := e
    simp only [memWfFrom, Bool.and_eq_true] at hw
    have ih := ih hw.2
    have gb : ∀ {c}, c ≤ x → memGet r c = 0 := fun h => memGet_below r hw.2 (by omega)
    unfold memSet
    repeat' split
    all_goals try simp only [memGet]
    all_goals grind

end Sys2Proof.Machine
end

