-- ==== Sys2Proof/Laws/PerInstr.lean ====
section
/-! SUPPORT. Facts about every constructor of Instr, one lemma each: the opcode and the layout of an instruction lead back to it. -/

namespace Sys2Proof.Laws.Layout

/-- The opcode and the layout of an instruction stand for it. -/
def Statement (i : Instr) : Prop := ∀ p, i.parts = some p → i.rowOk = true → Instr.ofParts p.1 p.2 = some i

/-- The instructions whose constructor follows from opcode and layout alone. -/
theorem of_parts {i : Instr} {p : Opc × Body} (h : i.parts = some p) (e : Instr.ofParts p.1 p.2 = some i) : Statement i := by
  intro q hq _
  obtain rfl : p = q := Option.some.inj (h.symm.trans hq)
  exact e

/-- Of two rows that share an opcode and a layout, the modifier bit tells which an instruction is. -/
theorem of_row {i : Instr} {p : Opc × Body} (h : i.parts = some p) (e : i.rowOk = true → Instr.ofParts p.1 p.2 = some i) :
    Statement i := by
  intro q hq r
  obtain rfl : p = q := Option.some.inj (h.symm.trans hq)
  exact e r

/-- An event has no layout. -/
theorem of_none {i : Instr} (h : i.parts = none) : Statement i := by
  intro p hp _
  rw [h] at hp
  cases hp

theorem nopLong (f : Long) : Statement (.nopLong f) := of_parts rfl rfl
theorem bra (g : BitVec 4) (off : BitVec 18) : Statement (.bra g off) := of_parts rfl rfl
theorem braLong (f : Long) : Statement (.braLong f) := of_parts rfl rfl
theorem brx (f : Long) : Statement (.brx f) := of_parts rfl rfl
theorem call (g : BitVec 4) (off : BitVec 18) : Statement (.call g off) := of_parts rfl rfl
theorem callLong (f : Long) : Statement (.callLong f) := of_parts rfl rfl
theorem callx (f : Long) : Statement (.callx f) := of_parts rfl rfl
theorem ret (f : Long) : Statement (.ret f) := of_parts rfl rfl
theorem exit (f : Long) : Statement (.exit f) := of_parts rfl rfl
theorem trap (f : Long) : Statement (.trap f) := of_parts rfl rfl
theorem bkpt (f : Long) : Statement (.bkpt f) := of_parts rfl rfl
theorem idemOpen (f : Long) : Statement (.idemOpen f) := by
  refine of_row (p := (.idem, .long f)) rfl fun r => ?_
  have e : f.m.getLsbD 0 = false := by simpa using (show (!f.m.getLsbD 0) = true from r)
  show (if f.m.getLsbD 0 then some (Instr.idemClose f) else some (Instr.idemOpen f)) = _
  rw [e]
  rfl
theorem idemClose (f : Long) : Statement (.idemClose f) := by
  refine of_row (p := (.idem, .long f)) rfl fun r => ?_
  have e : f.m.getLsbD 0 = true := by simpa using (show (f.m.getLsbD 0) = true from r)
  show (if f.m.getLsbD 0 then some (Instr.idemClose f) else some (Instr.idemOpen f)) = _
  rw [e]
  rfl
theorem yield (f : Long) : Statement (.yield f) := of_parts rfl rfl
theorem sleep (f : Long) : Statement (.sleep f) := of_parts rfl rfl
theorem join (f : Long) : Statement (.join f) := of_parts rfl rfl
theorem leave (f : Long) : Statement (.leave f) := of_parts rfl rfl
theorem waitm (f : Long) : Statement (.waitm f) := of_parts rfl rfl
theorem mset (f : Long) : Statement (.mset f) := of_parts rfl rfl
theorem mget (f : Long) : Statement (.mget f) := of_parts rfl rfl
theorem sysc (f : Long) : Statement (.sysc f) := of_parts rfl rfl
theorem rtt (f : Long) : Statement (.rtt f) := of_parts rfl rfl
theorem mov (f : Short) : Statement (.mov f) := of_parts rfl rfl
theorem movLong (f : Long) : Statement (.movLong f) := of_parts rfl rfl
theorem movi (f : Short) : Statement (.movi f) := of_parts rfl rfl
theorem moviLit (f : Short) (lit : Dword) : Statement (.moviLit f lit) := of_parts rfl rfl
theorem moviLong (f : Long) : Statement (.moviLong f) := of_parts rfl rfl
theorem moviLongLit (f : Long) (lit : Dword) : Statement (.moviLongLit f lit) := of_parts rfl rfl
theorem movx (f : Short) : Statement (.movx f) := of_parts rfl rfl
theorem movxLong (f : Long) : Statement (.movxLong f) := of_parts rfl rfl
theorem movxw (f : Short) : Statement (.movxw f) := of_parts rfl rfl
theorem movxwLit (f : Short) (lit : Dword) : Statement (.movxwLit f lit) := of_parts rfl rfl
theorem movxwLong (f : Long) : Statement (.movxwLong f) := of_parts rfl rfl
theorem sel (f : Long) : Statement (.sel f) := of_parts rfl rfl
theorem movs (f : Long) : Statement (.movs f) := of_parts rfl rfl
theorem sets (f : Long) : Statement (.sets f) := of_parts rfl rfl
theorem fetest (f : Long) : Statement (.fetest f) := of_parts rfl rfl
theorem feset (f : Long) : Statement (.feset f) := of_parts rfl rfl
theorem plop (f : Long) : Statement (.plop f) := of_parts rfl rfl
theorem slotr (f : Long) : Statement (.slotr f) := of_parts rfl rfl
theorem slotw (f : Long) : Statement (.slotw f) := of_parts rfl rfl
theorem add (f : Short) : Statement (.add f) := of_parts rfl rfl
theorem addLit (f : Short) (lit : Dword) : Statement (.addLit f lit) := of_parts rfl rfl
theorem addLong (f : Long) : Statement (.addLong f) := of_parts rfl rfl
theorem sub (f : Short) : Statement (.sub f) := of_parts rfl rfl
theorem subLit (f : Short) (lit : Dword) : Statement (.subLit f lit) := of_parts rfl rfl
theorem subLong (f : Long) : Statement (.subLong f) := of_parts rfl rfl
theorem addc (f : Long) : Statement (.addc f) := of_parts rfl rfl
theorem subc (f : Long) : Statement (.subc f) := of_parts rfl rfl
theorem mul (f : Short) : Statement (.mul f) := of_parts rfl rfl
theorem mulLit (f : Short) (lit : Dword) : Statement (.mulLit f lit) := of_parts rfl rfl
theorem mulLong (f : Long) : Statement (.mulLong f) := of_parts rfl rfl
theorem mulh (f : Short) : Statement (.mulh f) := of_parts rfl rfl
theorem mulhLit (f : Short) (lit : Dword) : Statement (.mulhLit f lit) := of_parts rfl rfl
theorem mulhLong (f : Long) : Statement (.mulhLong f) := of_parts rfl rfl
theorem mulw (f : Short) : Statement (.mulw f) := of_parts rfl rfl
theorem mulwLit (f : Short) (lit : Dword) : Statement (.mulwLit f lit) := of_parts rfl rfl
theorem mulwLong (f : Long) : Statement (.mulwLong f) := of_parts rfl rfl
theorem mad (f : Short) : Statement (.mad f) := of_parts rfl rfl
theorem madLit (f : Short) (lit : Dword) : Statement (.madLit f lit) := of_parts rfl rfl
theorem madLong (f : Long) : Statement (.madLong f) := of_parts rfl rfl
theorem madw (f : Short) : Statement (.madw f) := of_parts rfl rfl
theorem madwLit (f : Short) (lit : Dword) : Statement (.madwLit f lit) := of_parts rfl rfl
theorem madwLong (f : Long) : Statement (.madwLong f) := of_parts rfl rfl
theorem div (f : Short) : Statement (.div f) := of_parts rfl rfl
theorem divLit (f : Short) (lit : Dword) : Statement (.divLit f lit) := of_parts rfl rfl
theorem divLong (f : Long) : Statement (.divLong f) := of_parts rfl rfl
theorem rem (f : Short) : Statement (.rem f) := of_parts rfl rfl
theorem remLit (f : Short) (lit : Dword) : Statement (.remLit f lit) := of_parts rfl rfl
theorem remLong (f : Long) : Statement (.remLong f) := of_parts rfl rfl
theorem min (f : Short) : Statement (.min f) := of_parts rfl rfl
theorem minLit (f : Short) (lit : Dword) : Statement (.minLit f lit) := of_parts rfl rfl
theorem minLong (f : Long) : Statement (.minLong f) := of_parts rfl rfl
theorem max (f : Short) : Statement (.max f) := of_parts rfl rfl
theorem maxLit (f : Short) (lit : Dword) : Statement (.maxLit f lit) := of_parts rfl rfl
theorem maxLong (f : Long) : Statement (.maxLong f) := of_parts rfl rfl
theorem abs (f : Short) : Statement (.abs f) := of_parts rfl rfl
theorem absLong (f : Long) : Statement (.absLong f) := of_parts rfl rfl
theorem neg (f : Short) : Statement (.neg f) := of_parts rfl rfl
theorem negLong (f : Long) : Statement (.negLong f) := of_parts rfl rfl
theorem lea (f : Long) : Statement (.lea f) := of_parts rfl rfl
theorem and (f : Short) : Statement (.and f) := of_parts rfl rfl
theorem andLit (f : Short) (lit : Dword) : Statement (.andLit f lit) := of_parts rfl rfl
theorem andLong (f : Long) : Statement (.andLong f) := of_parts rfl rfl
theorem or (f : Short) : Statement (.or f) := of_parts rfl rfl
theorem orLit (f : Short) (lit : Dword) : Statement (.orLit f lit) := of_parts rfl rfl
theorem orLong (f : Long) : Statement (.orLong f) := of_parts rfl rfl
theorem xor (f : Short) : Statement (.xor f) := of_parts rfl rfl
theorem xorLit (f : Short) (lit : Dword) : Statement (.xorLit f lit) := of_parts rfl rfl
theorem xorLong (f : Long) : Statement (.xorLong f) := of_parts rfl rfl
theorem andn (f : Short) : Statement (.andn f) := of_parts rfl rfl
theorem andnLit (f : Short) (lit : Dword) : Statement (.andnLit f lit) := of_parts rfl rfl
theorem andnLong (f : Long) : Statement (.andnLong f) := of_parts rfl rfl
theorem not (f : Short) : Statement (.not f) := of_parts rfl rfl
theorem notLong (f : Long) : Statement (.notLong f) := of_parts rfl rfl
theorem shl (f : Short) : Statement (.shl f) := of_parts rfl rfl
theorem shlLit (f : Short) (lit : Dword) : Statement (.shlLit f lit) := of_parts rfl rfl
theorem shlLong (f : Long) : Statement (.shlLong f) := of_parts rfl rfl
theorem shr (f : Short) : Statement (.shr f) := of_parts rfl rfl
theorem shrLit (f : Short) (lit : Dword) : Statement (.shrLit f lit) := of_parts rfl rfl
theorem shrLong (f : Long) : Statement (.shrLong f) := of_parts rfl rfl
theorem sra (f : Short) : Statement (.sra f) := of_parts rfl rfl
theorem sraLit (f : Short) (lit : Dword) : Statement (.sraLit f lit) := of_parts rfl rfl
theorem sraLong (f : Long) : Statement (.sraLong f) := of_parts rfl rfl
theorem rotl (f : Short) : Statement (.rotl f) := of_parts rfl rfl
theorem rotlLit (f : Short) (lit : Dword) : Statement (.rotlLit f lit) := of_parts rfl rfl
theorem rotlLong (f : Long) : Statement (.rotlLong f) := of_parts rfl rfl
theorem popc (f : Short) : Statement (.popc f) := of_parts rfl rfl
theorem popcLong (f : Long) : Statement (.popcLong f) := of_parts rfl rfl
theorem clz (f : Short) : Statement (.clz f) := of_parts rfl rfl
theorem clzLong (f : Long) : Statement (.clzLong f) := of_parts rfl rfl
theorem ctz (f : Short) : Statement (.ctz f) := of_parts rfl rfl
theorem ctzLong (f : Long) : Statement (.ctzLong f) := of_parts rfl rfl
theorem brev (f : Short) : Statement (.brev f) := of_parts rfl rfl
theorem brevLong (f : Long) : Statement (.brevLong f) := of_parts rfl rfl
theorem bfx (f : Long) : Statement (.bfx f) := of_parts rfl rfl
theorem bfi (f : Long) : Statement (.bfi f) := of_parts rfl rfl
theorem cmp (f : Long) : Statement (.cmp f) := of_parts rfl rfl
theorem sext (f : Long) : Statement (.sext f) := of_parts rfl rfl
theorem permb (f : Long) : Statement (.permb f) := of_parts rfl rfl
theorem dp4 (f : Short) : Statement (.dp4 f) := of_parts rfl rfl
theorem dp4Lit (f : Short) (lit : Dword) : Statement (.dp4Lit f lit) := of_parts rfl rfl
theorem dp4Long (f : Long) : Statement (.dp4Long f) := of_parts rfl rfl
theorem fadd (f : Short) : Statement (.fadd f) := of_parts rfl rfl
theorem faddLit (f : Short) (lit : Dword) : Statement (.faddLit f lit) := of_parts rfl rfl
theorem faddLong (f : Long) : Statement (.faddLong f) := of_parts rfl rfl
theorem fsub (f : Short) : Statement (.fsub f) := of_parts rfl rfl
theorem fsubLit (f : Short) (lit : Dword) : Statement (.fsubLit f lit) := of_parts rfl rfl
theorem fsubLong (f : Long) : Statement (.fsubLong f) := of_parts rfl rfl
theorem fmul (f : Short) : Statement (.fmul f) := of_parts rfl rfl
theorem fmulLit (f : Short) (lit : Dword) : Statement (.fmulLit f lit) := of_parts rfl rfl
theorem fmulLong (f : Long) : Statement (.fmulLong f) := of_parts rfl rfl
theorem ffma (f : Short) : Statement (.ffma f) := of_parts rfl rfl
theorem ffmaLit (f : Short) (lit : Dword) : Statement (.ffmaLit f lit) := of_parts rfl rfl
theorem ffmaLong (f : Long) : Statement (.ffmaLong f) := of_parts rfl rfl
theorem fmin (f : Short) : Statement (.fmin f) := of_parts rfl rfl
theorem fminLit (f : Short) (lit : Dword) : Statement (.fminLit f lit) := of_parts rfl rfl
theorem fminLong (f : Long) : Statement (.fminLong f) := of_parts rfl rfl
theorem fmax (f : Short) : Statement (.fmax f) := of_parts rfl rfl
theorem fmaxLit (f : Short) (lit : Dword) : Statement (.fmaxLit f lit) := of_parts rfl rfl
theorem fmaxLong (f : Long) : Statement (.fmaxLong f) := of_parts rfl rfl
theorem fabs (f : Long) : Statement (.fabs f) := of_parts rfl rfl
theorem fneg (f : Long) : Statement (.fneg f) := of_parts rfl rfl
theorem fcmp (f : Long) : Statement (.fcmp f) := of_parts rfl rfl
theorem fclass (f : Long) : Statement (.fclass f) := of_parts rfl rfl
theorem fdiv (f : Long) : Statement (.fdiv f) := of_parts rfl rfl
theorem fsqrt (f : Long) : Statement (.fsqrt f) := of_parts rfl rfl
theorem frcp (f : Long) : Statement (.frcp f) := of_parts rfl rfl
theorem frsq (f : Long) : Statement (.frsq f) := of_parts rfl rfl
theorem fexp2 (f : Long) : Statement (.fexp2 f) := of_parts rfl rfl
theorem flog2 (f : Long) : Statement (.flog2 f) := of_parts rfl rfl
theorem fsin (f : Long) : Statement (.fsin f) := of_parts rfl rfl
theorem fcos (f : Long) : Statement (.fcos f) := of_parts rfl rfl
theorem frnd (f : Long) : Statement (.frnd f) := of_parts rfl rfl
theorem fcvt (f : Long) : Statement (.fcvt f) := of_parts rfl rfl
theorem fcvti (f : Long) : Statement (.fcvti f) := of_parts rfl rfl
theorem icvtf (f : Long) : Statement (.icvtf f) := of_parts rfl rfl
theorem fsgn (f : Long) : Statement (.fsgn f) := of_parts rfl rfl
theorem fscl (f : Long) : Statement (.fscl f) := of_parts rfl rfl
theorem pack8 (f : Long) : Statement (.pack8 f) := of_parts rfl rfl
theorem unpk8 (f : Long) : Statement (.unpk8 f) := of_parts rfl rfl
theorem lqd (f : Long) : Statement (.lqd f) := of_parts rfl rfl
theorem fdot2 (f : Long) : Statement (.fdot2 f) := of_parts rfl rfl
theorem xch (f : Short) : Statement (.xch f) := of_parts rfl rfl
theorem xchLong (f : Long) : Statement (.xchLong f) := of_parts rfl rfl
theorem xchLongLit (f : Long) (lit : Dword) : Statement (.xchLongLit f lit) := of_parts rfl rfl
theorem xidx (f : Short) : Statement (.xidx f) := of_parts rfl rfl
theorem xidxLit (f : Short) (lit : Dword) : Statement (.xidxLit f lit) := of_parts rfl rfl
theorem xidxLong (f : Long) : Statement (.xidxLong f) := of_parts rfl rfl
theorem xidxLongLit (f : Long) (lit : Dword) : Statement (.xidxLongLit f lit) := of_parts rfl rfl
theorem scan (f : Short) : Statement (.scan f) := of_parts rfl rfl
theorem scanLong (f : Long) : Statement (.scanLong f) := of_parts rfl rfl
theorem redw (f : Short) : Statement (.redw f) := of_parts rfl rfl
theorem redwLong (f : Long) : Statement (.redwLong f) := of_parts rfl rfl
theorem redwx (f : Long) : Statement (.redwx f) := of_parts rfl rfl
theorem matchEq (f : Short) : Statement (.matchEq f) := of_parts rfl rfl
theorem matchEqLong (f : Long) : Statement (.matchEqLong f) := of_parts rfl rfl
theorem vote (f : Long) : Statement (.vote f) := of_parts rfl rfl
theorem bcst (f : Short) : Statement (.bcst f) := of_parts rfl rfl
theorem bcstLong (f : Long) : Statement (.bcstLong f) := of_parts rfl rfl
theorem bcstLongLit (f : Long) (lit : Dword) : Statement (.bcstLongLit f lit) := of_parts rfl rfl
theorem xlane (f : Long) : Statement (.xlane f) := of_parts rfl rfl
theorem xlaneLit (f : Long) (lit : Dword) : Statement (.xlaneLit f lit) := of_parts rfl rfl
theorem ld (f : Long) : Statement (.ld f) := of_parts rfl rfl
theorem st (f : Long) : Statement (.st f) := of_parts rfl rfl
theorem ldc (f : Long) : Statement (.ldc f) := of_parts rfl rfl
theorem pref (f : Long) : Statement (.pref f) := of_parts rfl rfl
theorem atom (f : Long) : Statement (.atom f) := of_parts rfl rfl
theorem red (f : Long) : Statement (.red f) := of_parts rfl rfl
theorem cas (f : Long) : Statement (.cas f) := of_parts rfl rfl
theorem fence (f : Long) : Statement (.fence f) := of_parts rfl rfl
theorem acc (f : Long) : Statement (.acc f) := of_parts rfl rfl
theorem ldb (f : Long) : Statement (.ldb f) := of_parts rfl rfl
theorem rack (f : Long) : Statement (.rack f) := of_parts rfl rfl
theorem bufd (f : Long) : Statement (.bufd f) := of_parts rfl rfl
theorem bufs (f : Long) : Statement (.bufs f) := by
  refine of_row (p := (.bufs, .long f)) rfl fun r => ?_
  have e : f.m.getLsbD 0 = false := by simpa using (show (!f.m.getLsbD 0) = true from r)
  show (if f.m.getLsbD 0 then some (Instr.bufsQ f) else some (Instr.bufs f)) = _
  rw [e]
  rfl
theorem bufsQ (f : Long) : Statement (.bufsQ f) := by
  refine of_row (p := (.bufs, .long f)) rfl fun r => ?_
  have e : f.m.getLsbD 0 = true := by simpa using (show (f.m.getLsbD 0) = true from r)
  show (if f.m.getLsbD 0 then some (Instr.bufsQ f) else some (Instr.bufs f)) = _
  rw [e]
  rfl
theorem buff (f : Long) : Statement (.buff f) := of_parts rfl rfl
theorem putn (f : Long) : Statement (.putn f) := of_parts rfl rfl
theorem getn (f : Long) : Statement (.getn f) := of_parts rfl rfl
theorem mapq (f : Long) : Statement (.mapq f) := of_parts rfl rfl
theorem flsh (f : Long) : Statement (.flsh f) := of_parts rfl rfl
theorem balloc (f : Long) : Statement (.balloc f) := of_parts rfl rfl
theorem bfree (f : Long) : Statement (.bfree f) := of_parts rfl rfl
theorem barv (f : Long) : Statement (.barv f) := of_parts rfl rfl
theorem bexp (f : Long) : Statement (.bexp f) := of_parts rfl rfl
theorem bwait (f : Long) : Statement (.bwait f) := of_parts rfl rfl
theorem btest (f : Long) : Statement (.btest f) := of_parts rfl rfl
theorem csign (f : Long) : Statement (.csign f) := of_parts rfl rfl
theorem waitc (f : Long) : Statement (.waitc f) := of_parts rfl rfl
theorem cntr (f : Long) : Statement (.cntr f) := of_parts rfl rfl
theorem cpy (f : Long) (lit : Dword) : Statement (.cpy f lit) := of_parts rfl rfl
theorem gath (f : Long) (lit : Dword) : Statement (.gath f lit) := of_parts rfl rfl
theorem scat (f : Long) (lit : Dword) : Statement (.scat f lit) := of_parts rfl rfl
theorem cpyq (f : Long) : Statement (.cpyq f) := of_parts rfl rfl
theorem wld (f : Long) : Statement (.wld f) := of_parts rfl rfl
theorem wswp (f : Long) : Statement (.wswp f) := of_parts rfl rfl
theorem mma (f : Long) : Statement (.mma f) := of_parts rfl rfl
theorem mms (f : Long) : Statement (.mms f) := of_parts rfl rfl
theorem mmg (f : Long) : Statement (.mmg f) := of_parts rfl rfl
theorem accz (f : Long) : Statement (.accz f) := of_parts rfl rfl
theorem accr (f : Long) : Statement (.accr f) := by
  refine of_row (p := (.accr, .long f)) rfl fun r => ?_
  have e : f.m.getLsbD 0 = false := by simpa using (show (!f.m.getLsbD 0) = true from r)
  show (if f.m.getLsbD 0 then some (Instr.accrSt f) else some (Instr.accr f)) = _
  rw [e]
  rfl
theorem accrSt (f : Long) : Statement (.accrSt f) := by
  refine of_row (p := (.accr, .long f)) rfl fun r => ?_
  have e : f.m.getLsbD 0 = true := by simpa using (show (f.m.getLsbD 0) = true from r)
  show (if f.m.getLsbD 0 then some (Instr.accrSt f) else some (Instr.accr f)) = _
  rw [e]
  rfl
theorem accw (f : Long) : Statement (.accw f) := of_parts rfl rfl
theorem accs (f : Long) : Statement (.accs f) := of_parts rfl rfl
theorem mvb (f : Long) (lit : Dword) : Statement (.mvb f lit) := of_parts rfl rfl
theorem accm (f : Long) : Statement (.accm f) := of_parts rfl rfl
theorem rgset (f : Long) : Statement (.rgset f) := of_parts rfl rfl
theorem rrs (f : Long) : Statement (.rrs f) := of_parts rfl rfl
theorem rag (f : Long) : Statement (.rag f) := of_parts rfl rfl
theorem rar (f : Long) : Statement (.rar f) := of_parts rfl rfl
theorem rbc (f : Long) : Statement (.rbc f) := of_parts rfl rfl
theorem rho (f : Long) : Statement (.rho f) := by
  refine of_row (p := (.rho, .long f)) rfl fun r => ?_
  have e : f.imm.getLsbD 7 = false := by simpa using (show (!f.imm.getLsbD 7) = true from r)
  show (if f.imm.getLsbD 7 then some (Instr.rhoRecv f) else some (Instr.rho f)) = _
  rw [e]
  rfl
theorem rhoRecv (f : Long) : Statement (.rhoRecv f) := by
  refine of_row (p := (.rho, .long f)) rfl fun r => ?_
  have e : f.imm.getLsbD 7 = true := by simpa using (show (f.imm.getLsbD 7) = true from r)
  show (if f.imm.getLsbD 7 then some (Instr.rhoRecv f) else some (Instr.rho f)) = _
  rw [e]
  rfl
theorem rstat (f : Long) : Statement (.rstat f) := by
  refine of_row (p := (.rstat, .long f)) rfl fun r => ?_
  have e : f.m.getLsbD 0 = false := by simpa using (show (!f.m.getLsbD 0) = true from r)
  show (if f.m.getLsbD 0 then some (Instr.rstatGrp f) else some (Instr.rstat f)) = _
  rw [e]
  rfl
theorem rstatGrp (f : Long) : Statement (.rstatGrp f) := by
  refine of_row (p := (.rstat, .long f)) rfl fun r => ?_
  have e : f.m.getLsbD 0 = true := by simpa using (show (f.m.getLsbD 0) = true from r)
  show (if f.m.getLsbD 0 then some (Instr.rstatGrp f) else some (Instr.rstat f)) = _
  rw [e]
  rfl
theorem launch (f : Long) : Statement (.launch f) := of_parts rfl rfl
theorem evnt (f : Long) : Statement (.evnt f) := of_parts rfl rfl
theorem pmc (f : Long) : Statement (.pmc f) := of_parts rfl rfl
theorem atci (f : Long) : Statement (.atci f) := of_parts rfl rfl
theorem ctxs (f : Long) : Statement (.ctxs f) := of_parts rfl rfl
theorem ctxr (f : Long) : Statement (.ctxr f) := of_parts rfl rfl
theorem halt (f : Long) : Statement (.halt f) := of_parts rfl rfl
theorem ppt (f : Long) : Statement (.ppt f) := of_parts rfl rfl
theorem nop : Statement .nop := of_parts rfl rfl
theorem runFormation : Statement .runFormation := of_none rfl
theorem warpSwap : Statement .warpSwap := of_none rfl
theorem pendingWarpPromotion : Statement .pendingWarpPromotion := of_none rfl
theorem warpLeavesActiveSet : Statement .warpLeavesActiveSet := of_none rfl
theorem sleepExpiry : Statement .sleepExpiry := of_none rfl
theorem producerLanding : Statement .producerLanding := of_none rfl
theorem trapEntry : Statement .trapEntry := of_none rfl
theorem handoffEntryArrival : Statement .handoffEntryArrival := of_none rfl
theorem cellarGroupService : Statement .cellarGroupService := of_none rfl
theorem bufferStateChange : Statement .bufferStateChange := of_none rfl
theorem atomicUnitApply : Statement .atomicUnitApply := of_none rfl
theorem l1SectorExpiry : Statement .l1SectorExpiry := of_none rfl
theorem generationAdvance : Statement .generationAdvance := of_none rfl
theorem rdcSweeperStep : Statement .rdcSweeperStep := of_none rfl
theorem rd : Statement .rd := of_none rfl
theorem own : Statement .own := of_none rfl
theorem hrd : Statement .hrd := of_none rfl
theorem hwr : Statement .hwr := of_none rfl
theorem evx : Statement .evx := of_none rfl
theorem probe : Statement .probe := of_none rfl
theorem recallHolder : Statement .recallHolder := of_none rfl
theorem invalidation : Statement .invalidation := of_none rfl
theorem holderAnswer : Statement .holderAnswer := of_none rfl
theorem ownershipGrant : Statement .ownershipGrant := of_none rfl
theorem dieCacheEviction : Statement .dieCacheEviction := of_none rfl
theorem proxyEviction : Statement .proxyEviction := of_none rfl
theorem linkWakeComplete : Statement .linkWakeComplete := of_none rfl
theorem linkWakeError : Statement .linkWakeError := of_none rfl
theorem heartbeat : Statement .heartbeat := of_none rfl
theorem dieDead : Statement .dieDead := of_none rfl
theorem caskOpenRequest : Statement .caskOpenRequest := of_none rfl
theorem caskGrant : Statement .caskGrant := of_none rfl
theorem drainArrival : Statement .drainArrival := of_none rfl
theorem racking : Statement .racking := of_none rfl
theorem resplitShare : Statement .resplitShare := of_none rfl
theorem resplitAck : Statement .resplitAck := of_none rfl
theorem ldbTransaction : Statement .ldbTransaction := of_none rfl
theorem rackTransaction : Statement .rackTransaction := of_none rfl
theorem regionRecordWrite : Statement .regionRecordWrite := of_none rfl
theorem barrierMessage : Statement .barrierMessage := of_none rfl
theorem barrierReply : Statement .barrierReply := of_none rfl
theorem roundFire : Statement .roundFire := of_none rfl
theorem engineRetirement : Statement .engineRetirement := of_none rfl
theorem operationEnqueue : Statement .operationEnqueue := of_none rfl
theorem chunkDispatch : Statement .chunkDispatch := of_none rfl
theorem chunkComplete : Statement .chunkComplete := of_none rfl
theorem deliverAtHome : Statement .deliverAtHome := of_none rfl
theorem weightLoadComplete : Statement .weightLoadComplete := of_none rfl
theorem wswpTakesEffect : Statement .wswpTakesEffect := of_none rfl
theorem arrayOperationStart : Statement .arrayOperationStart := of_none rfl
theorem arrayOperationRetire : Statement .arrayOperationRetire := of_none rfl
theorem tileUnitComplete : Statement .tileUnitComplete := of_none rfl
theorem accsAddOnStore : Statement .accsAddOnStore := of_none rfl
theorem pressOperation : Statement .pressOperation := of_none rfl
theorem ringStepSend : Statement .ringStepSend := of_none rfl
theorem ringStepArrival : Statement .ringStepArrival := of_none rfl
theorem ringStepAck : Statement .ringStepAck := of_none rfl
theorem stepResendNotice : Statement .stepResendNotice := of_none rfl
theorem bridgeFlit : Statement .bridgeFlit := of_none rfl
theorem bridgeCrcFailure : Statement .bridgeCrcFailure := of_none rfl
theorem errcntWindowExpiry : Statement .errcntWindowExpiry := of_none rfl
theorem bridgeDeclaredFailed : Statement .bridgeDeclaredFailed := of_none rfl
theorem ringWrapComplete : Statement .ringWrapComplete := of_none rfl
theorem directionIdle : Statement .directionIdle := of_none rfl
theorem directionSleep : Statement .directionSleep := of_none rfl
theorem data : Statement .data := of_none rfl
theorem idle : Statement .idle := of_none rfl
theorem replay : Statement .replay := of_none rfl
theorem restripe : Statement .restripe := of_none rfl
theorem drainReq : Statement .drainReq := of_none rfl
theorem drainDone : Statement .drainDone := of_none rfl
theorem relock : Statement .relock := of_none rfl
theorem idleFlitTimer : Statement .idleFlitTimer := of_none rfl
theorem replayRepeatTimer : Statement .replayRepeatTimer := of_none rfl
theorem lossOfLight : Statement .lossOfLight := of_none rfl
theorem laserSourceFailure : Statement .laserSourceFailure := of_none rfl
theorem slotLightRegained : Statement .slotLightRegained := of_none rfl
theorem linkDown : Statement .linkDown := of_none rfl
theorem linkUp : Statement .linkUp := of_none rfl
theorem replanGo : Statement .replanGo := of_none rfl
theorem replanDrainComplete : Statement .replanDrainComplete := of_none rfl
theorem drainMaxExpiry : Statement .drainMaxExpiry := of_none rfl
theorem selectorsLocked : Statement .selectorsLocked := of_none rfl
theorem replanResume : Statement .replanResume := of_none rfl
theorem remoteAccessFailure : Statement .remoteAccessFailure := of_none rfl
theorem putnFlagIncrement : Statement .putnFlagIncrement := of_none rfl
theorem pageWalk : Statement .pageWalk := of_none rfl
theorem translationCacheLookup : Statement .translationCacheLookup := of_none rfl
theorem preemptionRequest : Statement .preemptionRequest := of_none rfl
theorem prewaitTimeout : Statement .prewaitTimeout := of_none rfl
theorem saveAreaWrite : Statement .saveAreaWrite := of_none rfl
theorem remoteReply : Statement .remoteReply := of_none rfl
theorem lqDoor : Statement .lqDoor := of_none rfl
theorem tailPoll : Statement .tailPoll := of_none rfl
theorem launchAppend : Statement .launchAppend := of_none rfl
theorem cohortIndexRequest : Statement .cohortIndexRequest := of_none rfl
theorem mirrorRecord : Statement .mirrorRecord := of_none rfl
theorem mirrorAck : Statement .mirrorAck := of_none rfl
theorem cohortGrant : Statement .cohortGrant := of_none rfl
theorem powerHeadroomReport : Statement .powerHeadroomReport := of_none rfl
theorem class3Starvation : Statement .class3Starvation := of_none rfl
theorem cohortEnd : Statement .cohortEnd := of_none rfl
theorem launchCompletion : Statement .launchCompletion := of_none rfl
theorem hostMemoryWrite : Statement .hostMemoryWrite := of_none rfl
theorem hostMemoryRead : Statement .hostMemoryRead := of_none rfl
theorem registerWrite : Statement .registerWrite := of_none rfl
theorem powerOn : Statement .powerOn := of_none rfl
theorem powerPhaseDone : Statement .powerPhaseDone := of_none rfl
theorem calibrationDone : Statement .calibrationDone := of_none rfl
theorem initialisationDone : Statement .initialisationDone := of_none rfl
theorem hostCtlReset : Statement .hostCtlReset := of_none rfl
theorem linkReset : Statement .linkReset := of_none rfl
theorem eventRecordWrite : Statement .eventRecordWrite := of_none rfl
theorem scrubStep : Statement .scrubStep := of_none rfl
theorem errorWindowExpiry : Statement .errorWindowExpiry := of_none rfl
theorem lineDiagAddr : Statement .lineDiagAddr := of_none rfl
theorem lineDiagComplete : Statement .lineDiagComplete := of_none rfl
theorem thermal : Statement .thermal := of_none rfl
theorem thermalPowerOff : Statement .thermalPowerOff := of_none rfl
theorem chunkSourceReadLanding : Statement .chunkSourceReadLanding := of_none rfl
theorem homeAgentEviction : Statement .homeAgentEviction := of_none rfl
theorem weightLoadStart : Statement .weightLoadStart := of_none rfl
theorem atciRemoval : Statement .atciRemoval := of_none rfl

end Sys2Proof.Laws.Layout
end

