-- ==== Sys2Proof/Machine/SmiatText.lean ====
section
/-! DEFINITION. The text of a smiat source (spec/03 R51 to R58): lines, names, literals, registers and operands as
they are written. What the assembler does with them stands in Machine/SmiatForms.lean and Machine/SmiatObject.lean. -/

namespace Sys2Proof.Smiat

open Sys2Proof.Machine

/-- Why the assembler rejects a line, by the rule it breaks. -/
inductive Why where
  /-- The line is no statement, label or directive (R51). -/
  | text
  /-- A name is malformed or spelled like a register or a type (R51). -/
  | name
  /-- A name is defined twice (R51), or a directive or key given twice (R62, R69). -/
  | twice
  /-- The guard is `(!p7)`, or stands on a uniform statement (R52). -/
  | guard
  /-- No such register (R53). -/
  | register
  /-- `.te` on an operand that cannot carry it (R54). -/
  | te
  /-- A register of the wrong kind for its operand (R33, R55). -/
  | kind
  /-- A modifier or type that the instruction does not accept, out of order or missing (R56). -/
  | modifier
  /-- A memory operand that the instruction does not take (R57). -/
  | memory
  /-- A literal that does not fit its operand (R58). -/
  | literal
  /-- The operands do not match, or no form expresses the statement (R59). -/
  | form
  /-- A target is no label of the kernel or out of reach (R60, R65). -/
  | target
  /-- A symbol is not defined, or no address may stand here (R51, R66). -/
  | symbol
  /-- The kernel breaks R61 to R64. -/
  | kernel
  /-- `.targets` is missing or misplaced (R65). -/
  | targets
  /-- A data directive is misplaced or malformed (R66, R67). -/
  | data
  /-- `.global` or `.extern` does not fit the names of the object (R68). -/
  | link
  /-- The launch breaks R69. -/
  | launch
  deriving DecidableEq, Repr

/-! ### Characters and names -/

/-- The opening brace of a mask list. -/
def braceL : Char := Char.ofNat 123
/-- The closing brace of a mask list. -/
def braceR : Char := Char.ofNat 125

/-- Text without white space at its ends. -/
def trim (l : List Char) : List Char :=
  ((l.dropWhile Char.isWhitespace).reverse.dropWhile Char.isWhitespace).reverse

/-- Text in lower case. -/
def lower (l : List Char) : String := String.ofList (l.map Char.toLower)

/-- A line without its comment (R51). -/
def uncomment : List Char → List Char
  | [] => []
  | ';' :: _ => []
  | '/' :: '/' :: _ => []
  | c :: r => c :: uncomment r

/-- A character that begins a name. -/
def nameHead (c : Char) : Bool := c.isAlpha || c = '_'
/-- A character of a name. -/
def nameChar (c : Char) : Bool := c.isAlphanum || c = '_'

/-- The text has the shape of a name. -/
def nameShape : List Char → Bool
  | [] => false
  | c :: r => nameHead c && r.all nameChar

/-- The comma-separated parts of a text, none for an empty one; a comma inside brackets or braces separates nothing. -/
def parts : List Char → Nat → List Char → List (List Char)
  | [], _, acc => [trim acc.reverse]
  | c :: r, d, acc =>
    if c = ',' ∧ d = 0 then trim acc.reverse :: parts r 0 []
    else parts r (if c = '[' ∨ c = braceL then d + 1 else if c = ']' ∨ c = braceR then d - 1 else d) (c :: acc)

/-- The operands of a text. -/
def commaParts (l : List Char) : List (List Char) := if trim l = [] then [] else parts l 0 []

/-- The parts of a text between dots. -/
def dotParts : List Char → List Char → List (List Char)
  | [], acc => [acc.reverse]
  | '.' :: r, acc => acc.reverse :: dotParts r []
  | c :: r, acc => dotParts r (c :: acc)

/-! ### Integers and decimal numbers (R58) -/

/-- The value of a digit. -/
def digit (base : Nat) (c : Char) : Option Nat :=
  let v := if c.isDigit then c.toNat - 48 else if 'a' ≤ c.toLower ∧ c.toLower ≤ 'f' then c.toLower.toNat - 87 else 99
  if v < base then some v else none

/-- Digits with underscores between them, after the value `acc`; `seen` says that the last character was a digit and
`some` that a digit stands before. -/
def digits (base : Nat) : List Char → Bool → Bool → Nat → Option Nat
  | [], seen, _, acc => if seen then some acc else none
  | '_' :: r, _, any, acc => if any then digits base r false true acc else none
  | c :: r, _, _, acc => match digit base c with
    | some v => digits base r true true (base * acc + v)
    | none => none

/-- A hexadecimal or binary number. -/
def basedNat : List Char → Option Nat
  | '0' :: 'x' :: r => digits 16 r false false 0
  | '0' :: 'b' :: r => digits 2 r false false 0
  | _ => none

/-- A decimal, hexadecimal or binary number without a sign. -/
def natOf (l : List Char) : Option Nat := match basedNat l with
  | some v => some v
  | none => digits 10 l false false 0

/-- An integer literal: a minus sign stands before decimal digits only. -/
def intOf : List Char → Option Int
  | '-' :: r => (digits 10 r false false 0).map fun v => -(v : Int)
  | l => (natOf l).map fun v => (v : Int)

/-- Decimal digits, at least one. -/
def plain (l : List Char) : Option Nat := if l ≠ [] ∧ l.all Char.isDigit then digits 10 l false false 0 else none

/-- The exponent of a decimal number. DEDUCED (log 77): R58 gives examples only, and a plus sign is taken as well. -/
def expOf : List Char → Option Int
  | '-' :: r => (plain r).map fun v => -(v : Int)
  | '+' :: r => (plain r).map fun v => (v : Int)
  | l => (plain l).map fun v => (v : Int)

/-- A decimal number with a point or an exponent: its digits as a whole number and the power of ten that scales it.
DEDUCED (log 77): digits stand on one side of the point at least, not on both. -/
def decOf (l : List Char) : Option (Nat × Int) :=
  let isE (c : Char) : Bool := c = 'e' || c = 'E'
  let mant := l.takeWhile (!isE ·)
  let tail := l.drop mant.length
  let exp : Option Int := match tail with
    | [] => some 0
    | _ :: r => expOf r
  let whole := mant.takeWhile (· ≠ '.')
  let frac := (mant.drop whole.length).drop 1
  if tail = [] ∧ whole.length = mant.length then none
  else match exp, plain (whole ++ frac) with
    | some e, some v => some (v, e - frac.length)
    | _, _ => none

/-! ### Literals (R58) -/

/-- A literal as it is written: an integer, a decimal number `num * 10 ^ exp`, an infinity, the NaN, or a bit pattern
with the width of its type. -/
inductive Lit where
  | int (v : Int)
  | dec (neg : Bool) (num : Nat) (exp : Int)
  | inf (neg : Bool)
  | nan
  | pat (v w : Nat)
  deriving DecidableEq, Repr

/-- The widths of the types of bit patterns. -/
def patWidth (s : String) : Option Nat :=
  if s = "f32" ∨ s = "b32" then some 32 else if s = "f16" ∨ s = "bf16" then some 16
  else if s = "f64" then some 64 else if s = "e4m3" ∨ s = "e5m2" then some 8 else none

/-- The literal that a text writes, if it writes one. -/
def litOf (l : List Char) : Option Lit :=
  let head := l.takeWhile (· ≠ ':')
  if head.length < l.length then
    match basedNat head, patWidth (lower (l.drop (head.length + 1))) with
    | some v, some w => some (.pat v w)
    | _, _ => none
  else match intOf l with
    | some v => some (.int v)
    | none =>
      let neg := l.head? = some '-'
      let m := if neg then l.drop 1 else l
      if m = "inf".toList then some (.inf neg)
      else if l = "nan".toList then some .nan
      else (decOf m).map fun d => .dec neg d.1 d.2

/-- A decimal number rounded to a format with .rn; none where it rounds to an infinity. -/
def roundDec (f : Fmt) (neg : Bool) (num : Nat) (exp : Int) : Option Nat :=
  let (v, fl) :=
    if 0 ≤ exp then fround f 0 false neg (num * 10 ^ exp.toNat) 0
    else
      let d := 10 ^ (-exp).toNat
      let k := Nat.log2 d + 80
      if num = 0 then (f.sign neg, 0)
      else fround f 0 false neg (num * 2 ^ k / d) (-(k : Int)) (num * 2 ^ k % d ≠ 0)
  if fl &&& flagOF = 0 then some v else none

/-- An element's bits in every element of `w` bits. -/
def fillTo (w ew v : Nat) : Nat := (List.range (w / ew)).foldl (fun a i => a + v * 2 ^ (ew * i)) 0

/-- The bits of a literal for an operand of `w` bits with elements of `ew` bits in the format `f`, if it has one.
DEDUCED (log 77): a decimal number for an operand that has no format is rejected. -/
def Lit.bits (x : Lit) (w ew : Nat) (f : Option Fmt) : Except Why Nat :=
  match x, f with
  | .int v, _ => if -(2 ^ (w - 1) : Int) ≤ v ∧ v < 2 ^ w then .ok (v % 2 ^ w).toNat else .error .literal
  | .pat v pw, _ =>
    if 2 ^ pw ≤ v then .error .literal else if pw = w then .ok v else if pw = ew then .ok (fillTo w ew v) else .error .literal
  | .dec n m e, some f => match roundDec f n m e with
    | some v => .ok (fillTo w ew v)
    | none => .error .literal
  | .inf n, some f => .ok (fillTo w ew (f.inf n))
  | .nan, some f => .ok (fillTo w ew f.nan)
  | _, none => .error .literal

/-! ### Registers and operands (Table 3-1, R54, R57) -/

/-- The kinds of registers and objects of Table 3-1. -/
inductive RK where
  | g | w | q | p | m | cv | a | b
  deriving DecidableEq, Repr

/-- How many of a kind can be named. -/
def RK.count : RK → Nat
  | .g => 240
  | .w => 64
  | .q => 12
  | .p => 8
  | .m => 12
  | .cv => 8
  | .a => 16
  | .b => 64

/-- A register as it is written, with its `.te` (R54). -/
structure Reg where
  k : RK
  n : Nat
  te : Bool := false
  deriving DecidableEq, Repr

/-- The kind that a register's letters name, with what follows them. -/
def regHead : List Char → Option (RK × List Char)
  | 'c' :: 'v' :: r => some (.cv, r)
  | 'g' :: r => some (.g, r)
  | 'w' :: r => some (.w, r)
  | 'q' :: r => some (.q, r)
  | 'p' :: r => some (.p, r)
  | 'm' :: r => some (.m, r)
  | 'a' :: r => some (.a, r)
  | 'b' :: r => some (.b, r)
  | _ => none

/-- The register that a text is spelled like, whether or not it exists. -/
def regShape (l : List Char) : Option Reg :=
  let l := l.map Char.toLower
  let body := l.takeWhile (· ≠ '.')
  let tail := l.drop body.length
  if tail ≠ [] ∧ tail ≠ ".te".toList then none
  else match regHead body with
    | some (k, r) => (plain r).map fun n => { k := k, n := n, te := tail ≠ [] }
    | none => none

/-- The type names of Table 2-7 with their codes. -/
def typeNames : List (String × Nat) :=
  [("i32", 0), ("n32", 1), ("i64", 2), ("n64", 3), ("f32", 4), ("f16x2", 5), ("bf16x2", 6), ("f64", 7),
   ("i16x2", 8), ("n16x2", 9), ("i8x4", 10), ("n8x4", 11), ("e4m3x4", 12), ("e5m2x4", 13), ("lq2", 14), ("b32", 15)]

/-- A legal name of the source (R51). -/
def checkName (l : List Char) : Except Why String :=
  let s := lower l
  if !nameShape l ∨ 63 < l.length ∨ (regShape l).isSome ∨ typeNames.any (·.1 = s) ∨ (patWidth s).isSome then .error .name
  else .ok (String.ofList l)

/-- What is added to the base of a memory operand (R57). -/
inductive Off where
  | none
  | imm (v : Int)
  | sym (s : String) (neg : Bool)
  | reg (r : Reg)
  deriving DecidableEq, Repr

/-- An operand as it is written. -/
inductive Opd where
  | reg (r : Reg)
  | special (s : String)
  | masks (l : List Nat)
  | mem (base : Reg) (off : Off)
  | lit (x : Lit)
  | sym (s : String)
  deriving DecidableEq, Repr

/-- The name that the word of a literal spells, where no such literal may stand (R51, log 78). -/
def Lit.word : Lit → Option String
  | .inf false => some "inf"
  | .nan => some "nan"
  | _ => none

/-- An operand that takes no infinity and no NaN: their words are names (R51, log 78). -/
def Opd.asName : Opd → Opd
  | .lit x => match x.word with
    | some s => .sym s
    | none => .lit x
  | o => o

/-- A register that exists (R53). -/
def regOf (l : List Char) : Except Why Reg := match regShape l with
  | some r => if r.n < r.k.count then .ok r else .error .register
  | none => .error .register

/-- The operand in brackets (R57): base, sign and what follows it. -/
def memOf (l : List Char) : Except Why Opd :=
  let b := l.takeWhile fun c => c ≠ '+' ∧ c ≠ '-'
  match regOf (trim b) with
  | .error e => .error e
  | .ok base =>
    match l.drop b.length with
    | [] => .ok (.mem base .none)
    | s :: r =>
      let neg := s = '-'
      let r := trim r
      if (regShape r).isSome then
        match regOf r with
        | .ok x => if neg then .error .memory else .ok (.mem base (.reg x))
        | .error e => .error e
      else match intOf r with
        | some v => .ok (.mem base (.imm (if neg then -v else v)))
        | none => if nameShape r then .ok (.mem base (.sym (String.ofList r) neg)) else .error .memory

/-- The mask registers of a list (Table 3-1). -/
def masksOf : List (List Char) → Except Why (List Nat)
  | [] => .ok []
  | x :: r => match regOf x, masksOf r with
    | .ok { k := .m, n := n, te := false }, .ok l => .ok (n :: l)
    | _, _ => .error .register

/-- The operand that a text writes. -/
def opdOf (l : List Char) : Except Why Opd :=
  match l with
  | '$' :: r => .ok (.special (lower r))
  | c :: r =>
    if c = '[' then (if r.getLast? = some ']' then memOf r.dropLast else .error .memory)
    else if c = braceL then
      (if r.getLast? = some braceR then (masksOf (parts r.dropLast 0 [])).map .masks else .error .text)
    else if (regShape l).isSome then (regOf l).map .reg
    else match litOf l with
      | some x => .ok (.lit x)
      | none => if nameShape l then .ok (.sym (String.ofList l)) else .error .literal
  | [] => .error .text

/-- The operands of a statement. -/
def opdsOf : List (List Char) → Except Why (List Opd)
  | [] => .ok []
  | x :: r => match opdOf x, opdsOf r with
    | .ok o, .ok l => .ok (o :: l)
    | .error e, _ => .error e
    | _, .error e => .error e

end Sys2Proof.Smiat
end

