-- ==== Sys2Proof/Machine/SmiatForms.lean ====
section
/-! DEFINITION. How the assembler encodes one statement (spec/03 R52 to R60, R65): the modifiers and operands that the
chapters' assembly columns give each instruction, the immediates, and the choice of the form. What it accepts is checked
by the field rules of the decoder (`Body.ok`). -/

namespace Sys2Proof.Smiat

open Sys2Proof.Machine

/-! ### Mnemonics -/

/-- The instruction of a mnemonic, in lower case (Tables 2-9 and 2-10). -/
def opcOf (s : String) : Option Opc :=
  ((["nop", "bra", "brx", "call", "callx", "ret", "exit", "trap", "bkpt", "idem", "yield", "sleep", "join", "leave", "waitm",
     "mset", "mget", "sysc", "rtt"].zipIdx 0x00) ++
   (["mov", "movi", "movx", "movxw", "sel", "movs", "sets", "fetest", "feset", "plop", "slotr", "slotw"].zipIdx 0x18) ++
   (["add", "sub", "addc", "subc", "mul", "mulh", "mulw", "mad", "madw", "div", "rem", "min", "max", "abs", "neg", "lea",
     "and", "or", "xor", "andn", "not", "shl", "shr", "sra", "rotl", "popc", "clz", "ctz", "brev", "bfx", "bfi", "cmp",
     "sext", "permb", "dp4"].zipIdx 0x28) ++
   (["fadd", "fsub", "fmul", "ffma", "fmin", "fmax", "fabs", "fneg", "fcmp", "fclass", "fdiv", "fsqrt", "frcp", "frsq",
     "fexp2", "flog2", "fsin", "fcos", "frnd", "fcvt", "fcvti", "icvtf", "fsgn", "fscl", "pack8", "unpk8", "lqd",
     "fdot2"].zipIdx 0x50) ++
   (["xch", "xidx", "scan", "redw", "redwx", "match", "vote", "bcst", "xlane"].zipIdx 0x70) ++
   (["ld", "st", "ldc", "pref", "atom", "red", "cas", "fence", "acc", "ldb", "rack", "bufd", "bufs", "buff", "putn", "getn",
     "mapq", "flsh"].zipIdx 0x80) ++
   (["balloc", "bfree", "barv", "bexp", "bwait", "btest", "csign", "waitc", "cntr"].zipIdx 0xA0) ++
   (["cpy", "gath", "scat", "cpyq"].zipIdx 0xB0) ++
   (["wld", "wswp", "mma", "mms", "mmg", "accz", "accr", "accw", "accs", "mvb", "accm"].zipIdx 0xC0) ++
   (["rgset", "rrs", "rag", "rar", "rbc", "rho", "rstat"].zipIdx 0xD0) ++
   (["launch", "evnt", "pmc", "atci", "ctxs", "ctxr", "halt", "ppt"].zipIdx 0xE0)).find? (·.1 = s) |>.bind fun e => Opc.ofCode e.2

/-! ### Modifiers (R56) -/

/-- Where a modifier goes: bits of M, of IMM or of C, the type, a source format, or the failure order of CAS. -/
inductive Pl where
  | m | i | c | t | src | ford
  deriving DecidableEq, Repr

/-- A modifier: its name, where it goes and with which value. -/
structure MName where
  name : String
  pl : Pl
  lo : Nat := 0
  v : Nat := 1
  deriving DecidableEq, Repr

/-- One place of the order of R56: the modifiers that may stand there, and whether one must. -/
structure Grp where
  ms : List MName
  req : Bool := false
  deriving Repr

/-- A modifier of one bit. -/
def flag (name : String) (pl : Pl) (lo : Nat) : Grp := { ms := [{ name := name, pl := pl, lo := lo }] }

/-- Names that stand for the codes 0, 1, 2 and so on. -/
def codes (names : List String) (pl : Pl) (lo : Nat) (req : Bool := false) : Grp :=
  { ms := names.zipIdx.map fun e => { name := e.1, pl := pl, lo := lo, v := e.2 }, req := req }

/-- The rounding names (Table 2-8). -/
def roundings : Grp := codes ["rn", "rz", "rm", "rp", "ra"] .m 0
/-- The orders (Table 2-8). -/
def orders : Grp := codes ["rlx", "acq", "rel", "ar", "sc"] .m 0
/-- The scopes (Table 2-8). -/
def scopes : Grp := codes ["warp", "core", "die", "pkg", "dom", "sys"] .m 3
/-- The widths (Table 2-8). -/
def widths : List MName := (codes ["x1", "x2", "x4"] .m 6).ms
/-- The types (Table 2-7). -/
def types (req : Bool) : Grp := { ms := typeNames.map fun e => { name := e.1, pl := .t, v := e.2 }, req := req }
/-- The Anvil formats (Table 15-2) at a place of IMM or M. -/
def formats (pl : Pl) (lo : Nat) : Grp := codes ["e4m3", "e5m2", "i8", "i4", "lq2", "bf16", "f16"] pl lo true
/-- The operations of ATOM and RED (Table 9-8). -/
def atomOps : Grp := codes ["add", "min", "max", "and", "or", "xor", "exch", "inc", "dec"] .c 0 true
/-- The source formats of the conversions (R152 to R158), always written (R141); their codes depend on the type. -/
def sources : Grp :=
  { ms := ["f32", "f64", "f16lo", "f16hi", "bf16lo", "bf16hi", "f16x2", "bf16x2", "i32", "n32", "i64", "n64", "e4m3", "e5m2"].zipIdx.map
      fun e => { name := e.1, pl := .src, v := e.2 }, req := true }

/-- The code of a source format (the index in `sources`) for a conversion to type `t` (R152 to R155, R158). -/
def srcCode (o : Opc) (t v : Nat) : Option Nat :=
  let at_ (l : List Nat) : Option Nat := l.findIdx? (· = v)
  match o with
  | .fcvt => if t = 4 then at_ [1, 2, 3, 4, 5] else if t = 7 then at_ [0] else if t = 5 then at_ [0, 7] else at_ [0, 6]
  | .fcvti => at_ [0, 1, 2, 4]
  | .icvtf => at_ [8, 9, 10, 11]
  | .pack8 => at_ [0, 6, 7]
  | .unpk8 => at_ [12, 13]
  | _ => none

/-- The operation selects of an instruction, in the order of its assembly column. -/
def selects : Opc → List Grp
  | .idem => [codes ["open", "close"] .m 0 true]
  | .mset => [flag "or" .m 0]
  | .feset => [codes ["full", "empty"] .m 0 true]
  | .dp4 => [flag "mix" .m 5]
  | .sext => [flag "lo" .m 5]
  | .cmp => [codes ["eq", "ne", "lt", "le", "gt", "ge"] .m 0 true]
  | .fcmp => [codes ["eq", "ne", "lt", "le", "gt", "ge", "un", "ord"] .m 0 true, flag "ftz" .m 3]
  | .fsgn => [codes ["copy", "ncopy", "xor"] .m 5 true]
  | .xch => [flag "nw" .m 5]
  | .scan => [codes ["add", "min", "max", "and", "or", "xor"] .m 0, flag "excl" .m 3]
  | .redw => [codes ["add", "min", "max", "and", "or", "xor"] .m 0]
  | .redwx => [codes ["min", "max"] .m 0 true, flag "slot" .m 7]
  | .vote => [codes ["any", "all", "ballot"] .m 0 true]
  | .xlane => [flag "rot" .m 1, flag "w" .m 0]
  | .atom | .red => [atomOps]
  | .bufs => [flag "q" .m 0]
  | .balloc => [flag "nb" .m 0]
  | .bexp => [flag "arv" .m 0]
  | .waitc => [flag "k" .m 0, flag "g" .m 1, flag "x" .m 2, flag "n" .m 3, flag "v" .m 4, flag "f" .m 5]
  | .cpy => [flag "dense" .m 7, { ms := [{ name := "bin", pl := .i, lo := 2, v := 1 }, { name := "bout", pl := .i, lo := 2, v := 3 }] }]
  | .gath => [{ ms := [{ name := "bin", pl := .i, lo := 2, v := 1 }, { name := "bout", pl := .i, lo := 2, v := 3 }] }]
  | .scat => [flag "add" .m 7, { ms := [{ name := "bin", pl := .i, lo := 2, v := 1 }, { name := "bout", pl := .i, lo := 2, v := 3 }] }]
  | .cpyq => [flag "st" .m 0]
  | .wld => [flag "bx" .i 4]
  | .mma => [flag "z" .i 21, flag "bx" .i 20]
  | .mms => [flag "z" .i 21, flag "drain" .i 22, flag "bx" .i 20]
  | .mmg => [flag "z" .i 21, flag "drain" .i 22, flag "bx" .i 20, flag "wbx" .i 28]
  | .accr => [flag "st" .m 0]
  | .accs => [flag "add" .i 20, flag "sat" .i 21]
  | .mvb => [flag "bx" .m 5, flag "vbx" .m 4]
  | .rgset => [flag "hand" .m 0]
  | .rrs | .rar => [codes ["add", "min", "max"] .i 4 true]
  | .rho => [flag "recv" .i 7, flag "prev" .i 6]
  | .rstat => [flag "grp" .m 0]
  | .mapq => [flag "ix" .m 0]
  | .atci => [codes ["page", "asid", "all"] .m 0 true, flag "home" .m 2]
  | _ => []

/-- Instructions of the arithmetic layout (R114, R140). -/
def arithmetic (o : Opc) : Bool :=
  let n := o.code
  (0x28 ≤ n && n ≤ 0x4A && o ≠ .addc && o ≠ .subc && o ≠ .cmp && o ≠ .lea) || (0x50 ≤ n && n ≤ 0x6B && o ≠ .fcmp)

/-- Instructions of the memory layout (R40, R197, R228, R261, R294, R297, R314, R340, R371). -/
def memLayout : Opc → Bool
  | .ld | .st | .ldc | .pref | .atom | .red | .cas | .fence | .acc | .ldb | .rack | .flsh | .cpy | .gath | .scat
  | .wld | .mms | .mmg | .accs | .rrs | .rag | .rar | .rbc | .rho | .putn | .getn => true
  | _ => false

/-- An instruction with every field zero, as the modifiers find it. -/
def blank (o : Opc) : Ins := { o := o, f := Long.zero 7, size := 12 }

/-- The type must be written: its chapter gives no default type, and it stands outside the brackets of the assembly
column (Tables 9-6 and 16-4). -/
def typeWritten : Opc → Bool
  | .atom | .red | .cas | .rrs | .rar => true
  | _ => false

/-- The modifiers of an instruction in the order of R56. -/
def groups (o : Opc) : List Grp :=
  let sh := (blank o).shape
  let ar := arithmetic o
  selects o
    ++ (if ar && sh.m &&& 7 = 7 then [roundings] else [])
    ++ (if ar && sh.m.getLsbD 3 then [flag "ftz" .m 3] else [])
    ++ (if ar && sh.m.getLsbD 4 then [flag "sat" .m 4] else [])
    ++ (if memLayout o then [orders] else [])
    ++ (if o = .cas then [codes ["frlx", "facq"] .ford 0] else [])
    ++ (if memLayout o || o = .atci then [scopes] else [])
    ++ (match o with
        | .ld | .st | .ldc => [{ ms := widths ++ [{ name := "byte", pl := .c, lo := 1, v := 1 }, { name := "half", pl := .c, lo := 1, v := 2 }] }]
        | .accr | .accw => [{ ms := widths }]
        | _ => [])
    ++ (match o with
        | .scat => [{ ms := [{ name := "f32", pl := .t, v := 4 }, { name := "n32", pl := .t, v := 1 }] }]
        | .wld => [formats .i 0]
        | .mma | .mms => [formats .i 16]
        | .mmg => [formats .i 16, formats .i 24]
        | .accs => [codes ["f32", "bf16", "f16", "e4m3", "e5m2"] .i 17 true]
        | .mvb => [formats .m 0]
        | .fcvt | .fcvti | .icvtf | .pack8 | .unpk8 => [types true, sources]
        | _ => if sh.ts = [0] then [] else [types (typeWritten o)])

/-- What the modifiers of a statement say. -/
structure Mods where
  m : Nat := 0
  i : Nat := 0
  c : Nat := 0
  t : Option Nat := none
  src : Option Nat := none
  ford : Option Nat := none
  deriving DecidableEq, Repr

/-- The effect of one modifier. -/
def Mods.put (x : Mods) (n : MName) : Mods :=
  match n.pl with
  | .m => { x with m := x.m ||| n.v * 2 ^ n.lo }
  | .i => { x with i := x.i ||| n.v * 2 ^ n.lo }
  | .c => { x with c := x.c ||| n.v * 2 ^ n.lo }
  | .t => { x with t := some n.v }
  | .src => { x with src := some n.v }
  | .ford => { x with ford := some n.v }

/-- The modifiers of a statement, each of a later place than the one before it (R56). -/
def readMods : List Grp → List String → Mods → Except Why Mods
  | [], [], x => .ok x
  | [], _ :: _, _ => .error .modifier
  | g :: gs, [], x => if g.req then .error .modifier else readMods gs [] x
  | g :: gs, n :: r, x => match g.ms.find? (·.name = n) with
    | some y => readMods gs r (x.put y)
    | none => if g.req then .error .modifier else readMods gs (n :: r) x

/-! ### Operand forms -/

/-- The operand fields. -/
inductive Fld where
  | d | a | b | c
  deriving DecidableEq, Repr

/-- How a memory operand encodes an index: not at all, in the access mode of C (R198), or by M bit 0 (Table 16-4). -/
inductive Ix where
  | no | mode | bit
  deriving DecidableEq, Repr

/-- What stands at one place of an assembly form. -/
inductive Arg where
  /-- A register in a field. -/
  | r (f : Fld)
  /-- A register, or an immediate of `n` bits that stands for it under M bit `bit`. -/
  | ri (f : Fld) (bit : Nat) (n : Nat := 32)
  /-- A register in B, or a literal that stands for it (MOVXW). -/
  | rl
  /-- An immediate in IMM bits `lo + n - 1` to `lo`. -/
  | im (lo n : Nat)
  /-- A count from 1 to 64, less 1, in IMM from bit `lo` on. -/
  | cnt (lo : Nat)
  /-- The scale of LEA in M 2:0. -/
  | scale
  /-- The carry-out predicate in M 2:0 (R120). -/
  | pOut
  /-- The carry-in predicate in C, or 0 (R120). -/
  | carry
  /-- A memory operand. -/
  | mem (ix : Ix)
  /-- A special register (R103). -/
  | sr
  /-- A label of the kernel (R24, R60). -/
  | label
  /-- The value moved by MOVI (R106). -/
  | value
  /-- A 64-bit literal (R294, R297, R326). -/
  | shape
  /-- An identity (R178). -/
  | ident
  /-- A list of mask registers (R171). -/
  | masks
  /-- A barrier register in a field, named by a bit of M, or of IMM for ACCS. -/
  | bar (f : Fld)
  /-- A buffer handle in IMM 13:8 (Table 14-3). -/
  | buf
  deriving DecidableEq, Repr

/-- One assembly form: bits of M and IMM that it sets, whether C is D without being written (a short form, R27), and what
stands at its places. -/
structure Form where
  m : Nat := 0
  i : Nat := 0
  acc : Bool := false
  args : List Arg
  deriving Repr

/-- The assembly forms of an instruction whose modifiers set M to `m` (the assembly columns of Tables 5-3, 6-1, 7-4, 8-1,
8-3, 9-6, 12-4, 13-2, 15-8, 16-4, 17-9, 18-7 and 19-4, and R106 to R112, R294, R297 and R298). -/
def forms (o : Opc) (m : Nat) : List Form :=
  let da : List Arg := [.r .d, .r .a]
  let dab : List Arg := [.r .d, .r .a, .r .b]
  let dabc : List Arg := [.r .d, .r .a, .r .b, .r .c]
  let dac : List Arg := [.r .d, .r .a, .r .c]
  let tails (bar : Fld) (l : List Arg) : List Form :=
    [{ args := l }, { args := l ++ [.bar bar] }, { args := l ++ [.buf] }, { args := l ++ [.bar bar, .buf] },
     { args := l ++ [.buf, .bar bar] }]
  let barred (l : List Arg) : List Form := [{ args := l }, { args := l ++ [.bar .b] }]
  match o with
  | .nop | .ret | .exit | .yield | .rtt | .ppt | .wswp | .fence | .flsh => [{ args := [] }]
  | .bra | .call => [{ args := [.label] }]
  | .brx | .callx | .waitm => [{ args := [.r .a] }]
  | .trap | .sysc | .halt => [{ args := [.im 0 16] }]
  | .bkpt => [{ args := [.im 0 16] }, { args := [] }]
  | .idem => if m % 2 = 1 then [{ args := [] }] else [{ args := [.label] }]
  | .sleep => [{ args := [.ri .b 7] }]
  | .join | .cntr | .accz | .feset | .cpyq => [{ args := [.r .d] }]
  | .leave => [{ args := [.masks] }]
  | .mset | .mget | .mov | .movx | .fetest | .abs | .neg | .not | .popc | .clz | .ctz | .brev | .fabs | .fneg | .fclass
  | .fsqrt | .frcp | .frsq | .fexp2 | .flog2 | .fsin | .fcos | .frnd | .fcvti | .icvtf | .scan | .redw | .matchEq | .vote
  | .bufs | .buff | .accm | .ctxs | .ctxr => [{ args := da }]
  | .movi => [{ args := [.r .d, .value] }]
  | .movxw => [{ args := [.r .a, .rl] }]
  | .sel | .bufd => [{ args := dabc }]
  | .movs => [{ args := [.r .d, .sr] }]
  | .sets => [{ args := [.sr, .r .a] }]
  | .plop => [{ args := dabc ++ [.im 0 8] }]
  | .slotr | .slotw => [{ m := 1, args := dab }, { args := da ++ [.im 0 5] }]
  | .add | .sub | .mul | .mulh | .mulw | .div | .rem | .min | .max | .and | .or | .xor | .andn | .shl | .shr | .sra
  | .rotl | .cmp | .fadd | .fsub | .fmul | .fmin | .fmax | .fcmp | .fdiv | .fsgn | .fscl | .bexp | .bwait | .btest
  | .csign => [{ args := (if o = .bwait then [.r .a] else da) ++ [.ri .b 7] }]
  | .mad | .madw | .ffma | .dp4 => [{ args := da ++ [.ri .b 7, .ri .c 6] }, { acc := true, args := da ++ [.ri .b 7] }]
  | .fdot2 => [{ args := da ++ [.ri .b 7, .ri .c 6] }]
  | .addc | .subc => [{ args := [.r .d, .pOut, .r .a, .ri .b 7, .carry] }]
  | .lea => [{ args := dab ++ [.scale, .im 0 32] }]
  | .bfx => [{ m := 0x80, args := da ++ [.im 0 8, .im 8 8] }, { args := da ++ [.ri .b 7] }]
  | .bfi => [{ m := 0x40, args := dab ++ [.im 0 8, .im 8 8] }, { args := dab ++ [.ri .c 6] }]
  | .sext => [{ args := da ++ [.im 0 7] }]
  | .permb => [{ args := dab ++ [.ri .c 6] }]
  | .fcvt | .redwx => [{ args := da }, { args := dab }]
  | .pack8 => [{ args := dabc ++ [.im 0 1] }, { m := if m / 32 % 4 = 0 then 0x80 else 0, args := dab ++ [.im 0 1] }]
  | .unpk8 => [{ args := da ++ [.im 0 2] }]
  | .lqd => [{ args := da ++ [.im 0 1] }]
  | .xch | .bcst | .xlane => [{ args := da ++ [.im 0 5] }, { args := da ++ [.im 0 5, .ident] }]
  | .xidx => [{ args := da ++ [.ri .b 5] }, { args := da ++ [.ri .b 5, .ident] }]
  | .ld | .ldc => [{ args := [.r .d, .mem .mode] }]
  | .st => [{ args := [.mem .mode, .r .d] }]
  | .pref => [{ args := [.mem .mode] }]
  | .atom | .ldb => [{ args := [.r .d, .mem .no, .r .b] }]
  | .red | .acc => [{ args := [.mem .no, .r .b] }]
  | .cas => [{ args := [.r .d, .mem .no, .r .b, .r .c] }]
  | .rack => [{ args := [.mem .no] }]
  | .mapq => [{ args := [.r .d, .mem .bit] }]
  | .putn => [{ args := dabc ++ [.im 0 16, .im 16 2] }]
  | .getn => barred (dac ++ [.im 16 2])
  | .balloc => [{ args := da ++ [.ri .b 7 15, .im 16 16] }]
  | .bfree => [{ args := [.r .a, .im 0 16] }, { i := 1, args := [.r .a] }]
  | .barv => [{ args := da ++ [.im 0 15] }, { i := 1, args := da }]
  | .waitc => [{ args := [.im 0 6] }]
  | .cpy => tails .b (da ++ (if m / 128 % 2 = 1 then [.shape, .im 0 2] else [.shape, .r .c, .im 0 2]))
  | .gath | .scat => tails .c (dab ++ [.shape, .im 0 2])
  | .wld => [{ args := [.r .a] }, { args := [.r .a, .r .b] }]
  | .mma => [{ args := dab ++ [.im 0 6, .cnt 8] }, { args := dabc ++ [.im 0 6, .cnt 8] }]
  | .mms => [{ args := dab ++ [.im 0 6, .cnt 8] }]
  | .mmg => [{ args := dabc ++ [.im 0 6, .cnt 8] }]
  | .accr => if m % 2 = 1 then [{ args := [.r .d] }] else [{ args := dab }, { m := 2, args := da ++ [.im 8 6, .im 0 6] }]
  | .accw => [{ args := dab }, { m := 2, args := [.r .d, .im 8 6, .im 0 6, .r .b] }]
  | .accs => [{ args := dab ++ [.im 0 6, .cnt 8] }, { args := dab ++ [.im 0 6, .cnt 8, .bar .c] }]
  | .mvb => [{ args := dab ++ [.im 0 32, .shape] }, { args := dabc ++ [.im 0 32, .shape] }]
  | .rgset => [{ args := [.r .d, .im 0 4, .r .a] }]
  | .rrs | .rar | .rag => barred (dac ++ [.im 0 4, .im 16 16])
  | .rbc => barred (dac ++ [.im 0 4, .im 16 16, .im 6 10])
  | .rho => barred [.r .d, .r .c, .im 0 4, .im 16 16] ++ [{ args := [.r .a, .r .c, .im 0 4, .im 16 16] }]
  | .rstat => if m % 2 = 1 then [{ args := [.r .d, .im 0 4] }] else [{ args := [.r .d, .im 0 4, .im 16 16] }]
  | .launch => [{ args := da ++ [.im 0 6] }]
  | .evnt => [{ args := [.r .a, .im 0 16] }]
  | .pmc => [{ args := [.r .d, .im 0 8] }]
  | .atci => [{ args := [.r .a, .r .b] }, { args := [.r .a, .r .b, .im 0 2] }, { args := [.r .a, .r .b, .r .c] },
              { args := [.r .a, .r .b, .r .c, .im 0 2] }]

/-! ### Operands into fields -/

/-- What a symbol stands for inside a kernel: a byte offset (R63, R64), a label of the kernel with its place, or an address
that the loader fills in (R66). -/
inductive Sym where
  | off (v : Nat)
  | label (pos : Nat)
  | addr
  deriving DecidableEq, Repr

/-- Where a statement stands: its symbols, its own place, its target list's place, and whether a branch is long (R60). -/
structure Env where
  sym : String → Option Sym
  pc : Nat := 0
  list : Option Nat := none
  long : Bool := false

/-- A statement while its operands are read: fields, register kinds, the immediate that stands for B with its M bit, the
literal that stands for B, the second immediate with the symbol that fills it, a branch offset, a named buffer, C as D
unwritten. -/
structure Stm where
  f : Long
  kd : Option RK := none
  ka : Option RK := none
  kb : Option RK := none
  kc : Option RK := none
  bImm : Option Nat := none
  bLit : Option Word := none
  lit : Option Dword := none
  rel : Option String := none
  off : Option Int := none
  buf : Bool := false
  acc : Bool := false
  deriving Repr

/-- The number that stands for a register in an operand field (Table 2-6). -/
def Reg.field (r : Reg) : BitVec 8 := BitVec.ofNat 8 (if r.k = .q then 240 + r.n else r.n)

/-- Puts a register into a field; `.te` sets the FE bit of a source field (R54). -/
def Stm.reg (x : Stm) (f : Fld) (r : Reg) : Except Why Stm :=
  let fe (b : BitVec 3) : BitVec 3 := if r.te then x.f.fe ||| b else x.f.fe
  match f with
  | .d => if r.te then .error .te else .ok { x with f := { x.f with d := r.field }, kd := some r.k }
  | .a => .ok { x with f := { x.f with a := r.field, fe := fe 1 }, ka := some r.k }
  | .b => .ok { x with f := { x.f with b := r.field, fe := fe 2 }, kb := some r.k }
  | .c => .ok { x with f := { x.f with c := r.field, fe := fe 4 }, kc := some r.k }

/-- Adds bits to M. -/
def Stm.orM (x : Stm) (v : Nat) : Stm := { x with f := { x.f with m := x.f.m ||| BitVec.ofNat 8 v } }
/-- Adds bits to IMM. -/
def Stm.orI (x : Stm) (v : Nat) : Stm := { x with f := { x.f with imm := x.f.imm ||| BitVec.ofNat 32 v } }

/-- The offset that a name stands for as an operand (R63, R64). -/
def Env.offset (e : Env) (s : String) : Except Why Nat := match e.sym s with
  | some (.off v) => .ok v
  | _ => .error .symbol

/-- An integer operand of `n` bits: a literal that fits it as signed or as unsigned, a pattern of its width, or a symbol's
offset (R58, R63, R64). -/
def intArg (e : Env) (n : Nat) (v : Opd) : Except Why Nat := match v.asName with
  | .lit x => x.bits n n none
  | .sym s => (e.offset s).bind fun v => Lit.bits (.int v) n n none
  | _ => .error .form

/-- A number from `lo` to `hi`: an integer or a symbol's offset (R63, R64). -/
def numArg (e : Env) (lo hi : Nat) (v : Opd) : Except Why Nat :=
  let within (k : Int) : Except Why Nat := if lo ≤ k ∧ k ≤ hi then .ok k.toNat else .error .literal
  match v.asName with
  | .lit (.int k) => within k
  | .lit _ => .error .literal
  | .sym s => (e.offset s).bind fun k => within k
  | _ => .error .form

/-- The element width and the format of an operand of a type (Table 2-7): those that a literal of the operand fills. -/
def elemOf (t : Nat) : Nat × Option Fmt :=
  match t with
  | 4 => (32, some fmtF32)
  | 5 => (16, some fmtF16)
  | 6 => (16, some fmtBF16)
  | 7 => (64, some fmtF64)
  | 8 | 9 => (16, none)
  | 10 | 11 | 12 | 13 => (8, none)
  | 2 | 3 => (64, none)
  | _ => (32, none)

/-- An operand of 64 bits takes an immediate that the extension of R115 makes from 32 bits: signed for .i32 and .i64. -/
def extends64 (signed : Bool) (v : Nat) : Except Why Nat :=
  if v < 2 ^ 32 ∧ (!signed ∨ v < 2 ^ 31) ∨ signed ∧ 2 ^ 64 - 2 ^ 31 ≤ v then .ok (v % 2 ^ 32) else .error .literal

/-- The immediate that stands for an operand (R58, R115, R140): `fld` with type `t`, of `n` bits where fewer than 32. -/
def immFor (o : Opc) (t n : Nat) (fld : Fld) (e : Env) (v : Opd) : Except Why Nat :=
  let isF : Bool := 0x50 ≤ o.code && o.code ≤ 0x6B && !(decide (o = .fscl) && decide (fld = .b))
  match if isF then v else v.asName with
  | .sym s => intArg e (min n 32) (.sym s)
  | .lit x =>
    if n < 32 then intArg e n (.lit x)
    else if isF then
      let t := if o = .fdot2 ∧ fld = .c then 4 else t
      let ef := elemOf t
      if t = 7 then
        match x.bits 64 64 ef.2 with
        | .ok v => match narrow64 v with
          | some r => .ok r
          | none => .error .literal
        | .error w => .error w
      else x.bits 32 ef.1 ef.2
    else
      let pair : Bool := decide (o = .madw) && decide (fld = .c)
      let byType : Bool := match o with
        | .add | .sub | .mul | .mad | .div | .rem | .min | .max | .and | .or | .xor | .andn | .cmp => true
        | _ => false
      if pair ∨ byType ∧ (t = 2 ∨ t = 3) then (x.bits 64 64 none).bind (extends64 (decide (t = 0) || decide (t = 2)))
      else if byType then x.bits 32 (elemOf t).1 none
      else if o = .dp4 ∧ fld = .b then x.bits 32 8 none
      else x.bits 32 32 none
  | _ => .error .form

/-- The special registers of Table 5-2 with their numbers. -/
def specialNames : List (String × Nat) :=
  (["slot", "warp", "lane", "core", "die", "pkg", "cohort", "ncohort", "span", "nspan", "strip", "rank", "clk", "fstat", "remstat",
    "prio", "cellarbase", "ctx", "xcause", "xpc", "xaddr", "xdone"].zipIdx 0)
  ++ (["xm0", "xm1", "xm2", "xm3", "xm4", "xm5", "xm6", "xm7", "xm8", "xm9", "xm10", "xm11"].zipIdx 0x20)

/-- A symbol where a 64-bit literal stands: its offset (R63, R64), or an address that the loader fills in (R66). -/
def symLit (e : Env) (s : String) : Except Why (Dword × Option String) := match e.sym s with
  | some (.off v) => .ok (BitVec.ofNat 64 v, none)
  | some _ => .ok (0, some s)
  | none => .error .symbol

/-- The value moved by MOVI (R106, R66): in IMM, or in the literal where IMM cannot extend to it. -/
def moviVal (x : Stm) (e : Env) (o : Opd) : Except Why Stm :=
  let t := x.f.t.toNat
  let wide (v : Nat) : Stm :=
    if (match extends64 (decide (t = 2)) v with
      | .ok _ => true
      | .error _ => false) then x.orI (v % 2 ^ 32) else { x with lit := some (BitVec.ofNat 64 v) }
  match o.asName with
  | .lit l => if t = 15 then (l.bits 32 32 none).map x.orI else (l.bits 64 64 none).map wide
  | .sym s => match e.sym s with
    | some (.off v) => if t = 15 then (Lit.bits (.int v) 32 32 none).map x.orI else .ok (wide v)
    | _ => if t = 15 then .error .symbol else (symLit e s).map fun l => { x with lit := some l.1, rel := l.2 }
  | _ => .error .form

/-- A memory operand (R57, R198): base, offset in IMM, or index in B. -/
def memArg (o : Opc) (x : Stm) (e : Env) (ix : Ix) (base : Reg) (off : Off) : Except Why Stm :=
  if !(base.k = .g ∨ (base.k = .w ∧ o = .ldc)) then .error .memory
  else if base.te ∧ base.k = .w then .error .te
  else
    let wb (x : Stm) : Stm := if base.k = .w then { x with f := { x.f with c := x.f.c ||| 8 } } else x
    let imm (x : Stm) (v : Int) : Except Why Stm :=
      if -(2 ^ 31 : Int) ≤ v ∧ v < 2 ^ 31 then .ok (x.orI (v % 2 ^ 32).toNat) else .error .memory
    match x.reg .a base with
    | .error w => .error w
    | .ok x =>
      let x := wb x
      match off with
      | .none => if ix = .bit ∧ x.f.m.getLsbD 0 then .error .memory else .ok x
      | .imm v => if ix = .bit ∧ x.f.m.getLsbD 0 then .error .memory else imm x v
      | .sym s neg => match e.sym s with
        | some (.off v) => if ix = .bit ∧ x.f.m.getLsbD 0 then .error .memory else imm x (if neg then -(v : Int) else v)
        | _ => .error .symbol
      | .reg r => match ix with
        | .no => .error .memory
        | .mode => ({ x with f := { x.f with c := x.f.c ||| 1 } }).reg .b r
        | .bit => (x.orM 1).reg .b r

/-- An offset in 4-byte units from the statement to a place (R24). -/
def unitsTo (e : Env) (pos : Nat) : Int := ((pos : Int) - e.pc) / 4

/-- Reads one operand at a place of a form. -/
def readArg (o : Opc) (e : Env) (x : Stm) (a : Arg) (v : Opd) : Except Why Stm :=
  match a, v with
  | .r f, .reg r => x.reg f r
  | .ri f _ _, .reg r => x.reg f r
  | .ri f bit n, v => match immFor o x.f.t.toNat n f e v with
    | .ok w => .ok { (x.orM (2 ^ bit)).orI w with bImm := if f = .b then some bit else x.bImm }
    | .error w => .error w
  | .rl, .reg r => x.reg .b r
  | .rl, v => (intArg e 32 v).map fun w => { x with bLit := some (BitVec.ofNat 32 w) }
  | .im lo n, v => (intArg e n v).map fun w => x.orI (w * 2 ^ lo)
  | .cnt lo, v => (numArg e 1 64 v).map fun k => x.orI ((k - 1) * 2 ^ lo)
  | .scale, v => (numArg e 0 7 v).map x.orM
  | .pOut, .reg { k := .p, n := n, te := false } => .ok (x.orM n)
  | .carry, .reg r => x.reg .c r
  | .carry, .lit (.int 0) => .ok (x.orM 8)
  | .mem ix, .mem base off => memArg o x e ix base off
  | .sr, .special s => match specialNames.find? (·.1 = s) with
    | some y => .ok (x.orI y.2)
    | none => .error .register
  | .label, v => match v.asName with
    | .sym s => match e.sym s with
      | some (.label pos) => .ok { x with off := some (unitsTo e pos) }
      | _ => .error .target
    | _ => .error .form
  | .value, v => moviVal x e v
  | .shape, v => match v.asName with
    | .lit l => (l.bits 64 64 none).map fun w => { x with lit := some (BitVec.ofNat 64 w) }
    | .sym s => (symLit e s).map fun l => { x with lit := some l.1, rel := l.2 }
    | _ => .error .form
  | .ident, .reg r => (x.orM 0x40).reg .c r
  | .ident, v => match intArg e 32 v with
    | .ok 0 => .ok x
    | .ok w => .ok { x.orM 0x80 with lit := some (BitVec.ofNat 64 w) }
    | .error w => .error w
  | .masks, .masks l => .ok (x.orI (l.foldl (fun a n => a ||| 2 ^ n) 0))
  | .bar f, .reg r => (if o = .accs then x.orI 0x10000 else x.orM 0x40).reg f r
  | .buf, .reg { k := .b, n := n, te := false } => .ok { x.orI (n * 256) with buf := true }
  | _, _ => .error .form

/-- Reads the operands of a form. -/
def readArgs (o : Opc) (e : Env) : List Arg → List Opd → Stm → Except Why Stm
  | [], [], x => .ok x
  | a :: as, v :: vs, x => (readArg o e x a v).bind (readArgs o e as vs)
  | _, _, _ => .error .form

/-! ### The choice of the form (R59, R60) -/

/-- An operand field holds a register of the right kind exactly where the instruction names one there (R33, R34, R55). -/
def kindOk (k : FK) (u : Bool) : Option RK → Bool
  | none => match k with
    | .z | .code => true
    | _ => false
  | some r => match k with
    | .src _ | .dst _ => if u then r = .w else r = .g || r = .q
    | .gx => r = .g
    | .pr => r = .p
    | .mk => r = .m
    | .wr | .wev => r = .w
    | .cv => r = .cv
    | .tile => r = .a
    | .buf => r = .b
    | .z | .code => false

/-- The place of B in the column of WLD, which writes g0 there without .bx (Table 15-8). -/
def wldZero (o : Opc) (x : Stm) : Bool := decide (o = .wld) && x.kb == some .g && x.f.b == 0

/-- The layouts that can express a statement, in the order of R59 and R60. -/
def layouts (o : Opc) (x : Stm) (e : Env) : List Body :=
  let f := x.f
  match x.off with
  | some k =>
    let long := if -(2 ^ 31 : Int) ≤ k ∧ k < 2 ^ 31 then [Body.long { f with imm := BitVec.ofInt 32 k }] else []
    if (o = .bra ∨ o = .call) ∧ !e.long ∧ -131072 ≤ k ∧ k ≤ 131071 then Body.branch f.g (BitVec.ofInt 18 k) :: long else long
  | none =>
    let base := o.shortOk && f.g = 7 && f.fe = 0 && f.t = o.shortT && x.lit.isNone && f.d < 128 && f.a < 128 && f.b < 128
      && f.c = (if o.shortAcc then f.d else 0)
    let w : Short := { u := f.u, b := f.b.setWidth 7, a := f.a.setWidth 7, d := f.d.setWidth 7 }
    let short : List Body :=
      if !base ∨ x.bLit.isSome ∨ f.m ≠ 0 then []
      else if o = .movi then
        let v := f.imm.setWidth 14
        if v.signExtend 32 = f.imm then [.short { w with b := v.extractLsb' 7 7, a := v.extractLsb' 0 7 }] else []
      else if o = .xch ∨ o = .bcst then [.short { w with b := f.imm.setWidth 7 }]
      else if f.imm = 0 then [.short w] else []
    let lit : List Body :=
      if !base ∨ !o.litOk then []
      else match x.bLit, x.bImm with
        | some v, _ => if f.m = 0 ∧ f.imm = 0 then [.lit w (v.setWidth 64)] else []
        | none, some bit => if f.m = BitVec.ofNat 8 (2 ^ bit) then [.lit w (f.imm.setWidth 64)] else []
        | none, none => if o = .movi ∧ f.m = 0 then [.lit w (f.imm.setWidth 64)] else []
    let long : List Body := if x.bLit.isSome ∨ x.acc then [] else match x.lit with
      | none => [.long f]
      | some l => [.longLit f l]
    short ++ lit ++ long

/-- A layout encodes a statement of a kernel with `regs` registers and `tiles` tiles (R47, R53, R55, Table 3-2). -/
def layoutOk (o : Opc) (x : Stm) (regs tiles : Nat) (b : Body) : Bool :=
  let y := Ins.ofBody o b
  let s := y.shape
  Body.ok o b && kindOk s.d y.f.u x.kd && kindOk s.a y.f.u x.ka && (kindOk s.b y.f.u x.kb || wldZero o x) && kindOk s.c y.f.u x.kc
    && decide (insTopG y ≤ regs) && (s.d ≠ .tile || decide (y.f.d.toNat < tiles)) && (s.a ≠ .tile || decide (y.f.a.toNat < tiles))

/-- A statement: guard, instruction, modifiers, operands (R51, R52). -/
structure Stmt where
  guard : BitVec 4
  o : Opc
  mods : List String
  args : List Opd
  deriving Repr

/-- The encoding of a statement: its layout and the symbol whose address its literal takes. -/
structure Enc where
  body : Body
  rel : Option String
  deriving Repr

/-- What stands in the fields without an operand of its own: the place of the target list (R65), C as D (R27), and U (R55). -/
def Stm.finish (x : Stm) (o : Opc) (e : Env) : Stm :=
  let x := match e.list with
    | some pos => x.orI (unitsTo e pos % 2 ^ 32).toNat
    | none => x
  let x := if x.acc then { x with f := { x.f with c := x.f.d }, kc := x.kd } else x
  if o.uni ∧ x.kd = some .w then { x with f := { x.f with u := true } } else x

/-- The first layout that encodes a statement (R52, R59). A copy names a buffer exactly where .bin or .bout says so. -/
def pickLayout (o : Opc) (e : Env) (regs tiles : Nat) (x : Stm) : Except Why Enc :=
  if x.f.u ∧ x.f.g ≠ 7 then .error .guard
  else if (o = .cpy ∨ o = .gath ∨ o = .scat) ∧ x.buf ≠ x.f.imm.getLsbD 2 then .error .form
  else match (layouts o x e).find? (layoutOk o x regs tiles) with
    | some b => .ok { body := b, rel := x.rel }
    | none => .error .form

/-- Encodes a statement by one of its forms. -/
def encodeBy (st : Stmt) (e : Env) (regs tiles : Nat) (y : Mods) (form : Form) : Except Why Enc :=
  let m := y.m ||| form.m
  let i := y.i ||| form.i
  let f0 : Long := { Long.zero st.guard with m := BitVec.ofNat 8 m, imm := BitVec.ofNat 32 i, c := BitVec.ofNat 8 y.c }
  let t := y.t.getD (({ blank st.o with f := f0 } : Ins).shape.ts.headD 0).toNat
  match readArgs st.o e form.args st.args { f := { f0 with t := BitVec.ofNat 4 t }, acc := form.acc } with
  | .error w => .error w
  | .ok x => pickLayout st.o e regs tiles (x.finish st.o e)

/-- The first result that is none of an error, else the last error. -/
def firstOk (l : List (Except Why Enc)) : Except Why Enc :=
  l.foldl (fun a b => match a with
    | .ok v => .ok v
    | .error _ => b) (.error .form)

/-- The modifiers of a statement with the source format of a conversion and the failure order of CAS put in place (R197,
R228); the type of a scatter goes with .add, and `ACCR.st` stands alone. -/
def modsOf (st : Stmt) : Except Why Mods :=
  match readMods (groups st.o) st.mods {} with
  | .error w => .error w
  | .ok y => match (match y.src with
      | none => some 0
      | some v => srcCode st.o (y.t.getD 0) v) with
    | none => .error .modifier
    | some c =>
      let ord := y.m % 8
      let acq : Bool := match y.ford with
        | some v => v == 1
        | none => decide (st.o = .cas) && (ord == 1 || ord == 3 || ord == 4)
      if decide (st.o = .scat) && (y.m.testBit 7 != y.t.isSome) then .error .modifier
      else if decide (st.o = .accr) && y.m.testBit 0 && st.mods != ["st"] then .error .modifier
      else .ok { y with m := y.m ||| c * 32 ||| (if acq then 0x40 else 0) }

/-- Encodes a statement (R52 to R60, R65). -/
def encodeStmt (st : Stmt) (e : Env) (regs tiles : Nat) : Except Why Enc :=
  if st.guard = 15 then .error .guard
  else match modsOf st with
    | .error w => .error w
    | .ok y => firstOk ((forms st.o y.m).map (encodeBy st e regs tiles y))

end Sys2Proof.Smiat
end

