-- ==== Sys2Proof/Machine/SmiatObject.lean ====
section
/-! DEFINITION. A smiat source as a whole (spec/03 R51, R60 to R71): lines into kernels, sections and launches, the
object that they make, and what the loader and the runtime do with it. Offsets and sizes are plain numbers. -/

namespace Sys2Proof.Smiat

open Sys2Proof.Machine

/-- The next multiple of `n`. -/
def alignUp (v n : Nat) : Nat := (v + n - 1) / n * n

/-- The bytes of a number from an offset on, those that are not zero. -/
def cellsOf (off v : Nat) : Nat → List (Nat × Nat)
  | 0 => []
  | n + 1 => if v = 0 then [] else if v % 256 = 0 then cellsOf (off + 1) (v / 256) n
    else (off, v % 256) :: cellsOf (off + 1) (v / 256) n

/-! ### Sections (R66, R67) -/

/-- The page classes of a class run. -/
inductive DClass where
  | t | g | n | b
  deriving DecidableEq, Repr

/-- A class run of the data section: where it begins and ends, its class and its limit, an f32. -/
structure ClassRun where
  start : Nat
  stop : Nat
  cls : DClass
  limit : Option Nat := none
  deriving DecidableEq, Repr

/-- A section as it is filled: its bytes (those not zero, latest first), the labels that wait for data, the labels
defined, and the largest alignment asked of it. -/
structure Sec where
  size : Nat := 0
  cells : List (Nat × Nat) := []
  waiting : List String := []
  labels : List (String × Nat) := []
  al : Nat := 64
  deriving Repr

/-- Zero bytes up to a multiple of `n`. -/
def Sec.pad (x : Sec) (n : Nat) : Sec := { x with size := alignUp x.size n }

/-- `n` bytes that make the number `v`; the waiting labels name the first of them. -/
def Sec.emit (x : Sec) (n v : Nat) : Sec :=
  if n = 0 then x
  else { x with size := x.size + n, cells := (cellsOf x.size v n).reverse ++ x.cells, waiting := [],
                labels := x.waiting.map (·, x.size) ++ x.labels }

/-- The labels that no data follows name the end of the section. -/
def Sec.close (x : Sec) : Sec := { x with waiting := [], labels := x.waiting.map (·, x.size) ++ x.labels }

/-! ### Kernels and launches while they are read -/

/-- The types of parameters (Table 3-2). -/
inductive PType where
  | i32 | n32 | i64 | n64 | f32 | f64 | b32
  deriving DecidableEq, Repr

/-- A parameter's size in bytes. -/
def PType.size : PType → Nat
  | .i64 | .n64 | .f64 => 8
  | _ => 4

/-- The type of a parameter. -/
def ptypeOf (s : String) : Option PType :=
  if s = "i32" then some .i32 else if s = "n32" then some .n32 else if s = "i64" then some .i64
  else if s = "n64" then some .n64 else if s = "f32" then some .f32 else if s = "f64" then some .f64
  else if s = "b32" then some .b32 else none

/-- What stands in a kernel: labels, instructions with their targets, alignments. -/
inductive Item where
  | label (name : String)
  | ins (line : Nat) (st : Stmt) (targets : List String)
  | align (n : Nat)
  deriving Repr

/-- A kernel as it is read; its items stand latest first. -/
structure Ker where
  name : String
  line : Nat
  regs : Option Nat := none
  warps : Option Nat := none
  cellar : Option Nat := none
  tiles : Option Nat := none
  params : List (String × PType × Nat) := []
  paramEnd : Nat := 0
  bufs : List (String × Nat) := []
  bufEnd : Nat := 0
  labels : List String := []
  items : List Item := []
  last : Option Stmt := none
  deriving Repr

/-- The names of a kernel's own namespace (R51). -/
def Ker.names (k : Ker) : List String := k.labels ++ k.params.map (·.1) ++ k.bufs.map (·.1)

/-- A launch as it is read: its line, kernel and keys. -/
structure LaunchLine where
  line : Nat
  kernel : String
  keys : List (String × List (List Char))
  deriving Repr

/-- The source as far as it is read. -/
structure Src where
  ker : Option Ker := none
  inData : Option Bool := none
  kers : List Ker := []
  const : Sec := {}
  data : Sec := {}
  cls : DClass := .t
  limit : Option Nat := none
  fresh : Bool := true
  runs : List ClassRun := []
  names : List String := []
  globals : List (Nat × String) := []
  externs : List String := []
  launches : List LaunchLine := []
  wait : Option Nat := none
  deriving Repr

/-- A name of the object's namespace, defined once (R51). -/
def Src.define (x : Src) (n : String) : Except Why Src :=
  if x.names.contains n then .error .twice else .ok { x with names := n :: x.names }

/-- The current section. -/
def Src.sec (x : Src) : Sec := if x.inData = some true then x.data else x.const

/-- Changes the current section. -/
def Src.setSec (x : Src) (y : Sec) : Src := if x.inData = some true then { x with data := y } else { x with const := y }

/-- Before the first byte of a class run the data section is padded to 64 KiB (R67); class B needs its limit first. -/
def Src.beginRun (x : Src) : Except Why Src :=
  if x.inData ≠ some true ∨ !x.fresh then .ok x
  else if x.cls = .b ∧ x.limit = none then .error .data
  else
    let d := x.data.pad 65536
    .ok { x with data := d, fresh := false,
                 runs := { start := d.size, stop := d.size, cls := x.cls, limit := x.limit } :: x.runs }

/-- `n` bytes of elements of `el` bytes that make the number `v` (R66). -/
def Src.emit (x : Src) (el n v : Nat) : Except Why Src :=
  if x.inData = none then .error .data
  else if n = 0 then .ok x
  else match x.beginRun with
    | .ok x =>
      let s := (x.sec.pad el).emit n v
      let x := x.setSec s
      .ok (if x.inData = some true then match x.runs with
        | r :: l => { x with runs := { r with stop := s.size } :: l }
        | [] => x else x)
    | .error w => .error w

/-! ### Lines (R51, R52) -/

/-- A text cut at its first white space. -/
def cutSpace (l : List Char) : List Char × List Char :=
  let h := l.takeWhile fun c => !c.isWhitespace
  (h, trim (l.drop h.length))

/-- A number without a sign between bounds. -/
def natIn (lo hi : Nat) (w : Why) (l : List Char) : Except Why Nat := match natOf l with
  | some v => if lo ≤ v ∧ v ≤ hi then .ok v else .error w
  | none => .error w

/-- The guard of a statement with what follows it (R32, R52). -/
def guardOf (l : List Char) : Except Why (BitVec 4 × List Char) := match l with
  | '(' :: r =>
    let b := r.takeWhile (· ≠ ')')
    let p := trim b
    let neg := p.head? = some '!'
    match regOf (trim (if neg then p.drop 1 else p)) with
    | .ok { k := .p, n := n, te := false } =>
      if r.length = b.length then .error .text
      else .ok (BitVec.ofNat 4 (n + if neg then 8 else 0), trim (r.drop (b.length + 1)))
    | .ok _ => .error .guard
    | .error w => .error w
  | _ => .ok (7, l)

/-- A statement without its label (R51). -/
def stmtOf (l : List Char) : Except Why Stmt := match guardOf l with
  | .error w => .error w
  | .ok (g, l) =>
    let (h, r) := cutSpace l
    match (dotParts h []).map lower with
    | [] => .error .text
    | mn :: mods => match opcOf mn, opdsOf (commaParts r) with
      | some o, .ok a => .ok { guard := g, o := o, mods := mods, args := a }
      | none, _ => .error .text
      | _, .error w => .error w

/-- The statement takes a list of targets (R65). -/
def takesTargets (o : Opc) : Bool := decide (o = .brx) || decide (o = .callx)

/-- A label (R51). -/
def Src.label (x : Src) (l : List Char) : Except Why Src := match checkName l with
  | .error w => .error w
  | .ok n => match x.ker, x.inData with
    | some k, _ =>
      if k.names.contains n then .error .twice
      else .ok { x with ker := some { k with labels := n :: k.labels, items := .label n :: k.items } }
    | none, none => .error .text
    | none, some _ => (x.define n).map fun x => x.setSec { x.sec with waiting := n :: x.sec.waiting }

/-- The directives of a kernel that hold one number (Table 3-2). -/
def Ker.number (k : Ker) (d : String) (l : List Char) : Except Why Ker :=
  if d = ".regs" then
    if k.regs.isSome then .error .twice else (natIn 8 240 .kernel l).map fun v => { k with regs := some (alignUp v 8) }
  else if d = ".warps" then
    if k.warps.isSome then .error .twice else (natIn 1 512 .kernel l).map fun v => { k with warps := some v }
  else if d = ".cellar" then
    if k.cellar.isSome then .error .twice
    else (natIn 0 (2 ^ 27) .kernel l).map fun v => { k with cellar := some (alignUp v (2 ^ 23)) }
  else
    if k.tiles.isSome then .error .twice else (natIn 0 16 .kernel l).map fun v => { k with tiles := some v }

/-- `.param` and `.buffer` (R63, R64). -/
def Ker.field (k : Ker) (d : String) (l : List Char) : Except Why Ker := match commaParts l with
  | [n, v] => match checkName n with
    | .error w => .error w
    | .ok n =>
      if k.names.contains n then .error .twice
      else if d = ".param" then match ptypeOf (lower v) with
        | some t =>
          let off := alignUp k.paramEnd t.size
          .ok { k with params := k.params ++ [(n, t, off)], paramEnd := off + t.size }
        | none => .error .kernel
      else match natIn 32 (2 ^ 27) .kernel v with
        | .ok b =>
          let off := alignUp k.bufEnd 32
          .ok { k with bufs := k.bufs ++ [(n, off)], bufEnd := off + b }
        | .error w => .error w
  | _ => .error .kernel

/-- The conditions on a kernel as it closes (R61 to R64). -/
def Ker.ok (k : Ker) : Bool := match k.regs, k.warps, k.last with
  | some r, some w, some st =>
    decide ((w + 31) / 32 * r ≤ 256) && decide (k.bufEnd ≤ k.cellar.getD 0) && decide (alignUp k.paramEnd 8 ≤ 4096)
      && (decide (st.o = .bra) || decide (st.o = .brx) || decide (st.o = .exit)) && st.guard == 7
  | _, _, _ => false

/-- `.targets` (R65): names for the statement before it. -/
def Src.targets (x : Src) (l : List Char) : Except Why Src := match x.wait, x.ker with
  | some _, some k => match k.items with
    | .ins line st _ :: r =>
      let t := (commaParts l).map String.ofList
      if 1 ≤ t.length ∧ t.length ≤ 4096 then
        .ok { x with wait := none, ker := some { k with items := .ins line st t :: r } }
      else .error .targets
    | _ => .error .targets
  | _, _ => .error .targets

/-- `.align` (R66). -/
def Src.align (x : Src) (l : List Char) : Except Why Src := match natOf l with
  | some n =>
    if !(4 ≤ n ∧ n ≤ 65536 ∧ 2 ^ Nat.log2 n = n) then .error .data
    else match x.ker, x.inData with
      | some k, _ => .ok { x with ker := some { k with items := .align n :: k.items } }
      | none, some _ => .ok (x.setSec { x.sec.pad n with al := max x.sec.al n })
      | none, none => .error .data
  | none => .error .data

/-- The literals of a data directive, as one number (R66). -/
def dataOf (bytes : Nat) (f : Option Fmt) : List (List Char) → Except Why Nat
  | [] => .ok 0
  | x :: r => match litOf x with
    | none => .error .literal
    | some v => match v.bits (8 * bytes) (8 * bytes) f, dataOf bytes f r with
      | .ok a, .ok b => .ok (a + 2 ^ (8 * bytes) * b)
      | .error w, _ => .error w
      | _, .error w => .error w

/-- The data directives with their element's size and format. -/
def dataNames (d : String) : Option (Nat × Option Fmt) :=
  if d = ".b8" then some (1, none) else if d = ".b16" then some (2, none) else if d = ".b32" then some (4, none)
  else if d = ".b64" then some (8, none) else if d = ".f16" then some (2, some fmtF16)
  else if d = ".bf16" then some (2, some fmtBF16) else if d = ".f32" then some (4, some fmtF32)
  else if d = ".f64" then some (8, some fmtF64) else none

/-- `.class` (R67). -/
def Src.setClass (x : Src) (l : List Char) : Except Why Src :=
  let go (c : DClass) : Except Why Src :=
    if x.inData ≠ some true then .error .data
    else if c = x.cls ∧ c ≠ .b then .ok x else .ok { x with cls := c, limit := none, fresh := true }
  let s := lower l
  if s = "t" then go .t else if s = "g" then go .g else if s = "n" then go .n else if s = "b" then go .b else .error .data

/-- `.limit` (R67): a positive finite f32. -/
def Src.setLimit (x : Src) (l : List Char) : Except Why Src :=
  if x.inData ≠ some true ∨ x.cls ≠ .b ∨ !x.fresh ∨ x.limit.isSome then .error .data
  else match litOf l with
    | none => .error .literal
    | some v => match v.bits 32 32 (some fmtF32) with
      | .ok b => if 0 < b ∧ b < 0x7F800000 then .ok { x with limit := some b } else .error .data
      | .error w => .error w

/-- The keys of a launch (R69); a part without `=` goes on with the list before it. -/
def keysOf : List (List Char) → List (String × List (List Char)) → Except Why (List (String × List (List Char)))
  | [], acc => .ok acc.reverse
  | p :: r, acc =>
    let k := p.takeWhile (· ≠ '=')
    if k.length < p.length then
      let n := String.ofList (trim k)
      if acc.any (·.1 = n) then .error .twice else keysOf r ((n, [trim (p.drop (k.length + 1))]) :: acc)
    else match acc with
      | (n, v) :: l => if n = "dies" ∨ n = "pkgs" then keysOf r ((n, v ++ [p]) :: l) else .error .launch
      | [] => .error .launch

/-- `.kernel`, `.endk`, and the directives between them (R61, R62). -/
def Src.kernelDir (x : Src) (d : String) (l : List Char) (k : Ker) : Except Why Src :=
  if d = ".endk" then
    if l ≠ [] then .error .text else if k.ok then .ok { x with ker := none, kers := x.kers ++ [k] } else .error .kernel
  else if k.last.isSome then .error .kernel
  else
    let put (r : Except Why Ker) : Except Why Src := r.map fun k => { x with ker := some k }
    if d = ".regs" ∨ d = ".warps" ∨ d = ".cellar" ∨ d = ".tiles" then put (k.number d l)
    else if d = ".param" ∨ d = ".buffer" then put (k.field d l)
    else .error .kernel

/-- The directives outside kernels. -/
def Src.objectDir (x : Src) (no : Nat) (d : String) (l : List Char) : Except Why Src :=
  if d = ".kernel" then match checkName l with
    | .error w => .error w
    | .ok n => (x.define n).map fun x => { x with inData := none, ker := some { name := n, line := no } }
  else if d = ".const" ∨ d = ".data" then
    if l = [] then .ok { x with inData := some (d = ".data") } else .error .text
  else if d = ".global" then (checkName l).map fun n => { x with globals := x.globals ++ [(no, n)] }
  else if d = ".extern" then match checkName l with
    | .error w => .error w
    | .ok n => (x.define n).map fun x => { x with externs := n :: x.externs }
  else if d = ".launch" then match commaParts l with
    | [] => .error .launch
    | k :: r => (keysOf r []).map fun v =>
        { x with launches := x.launches ++ [{ line := no, kernel := String.ofList k, keys := v }] }
  else if d = ".class" then x.setClass l
  else if d = ".limit" then x.setLimit l
  else if d = ".zero" then match natOf l with
    | some n => x.emit 1 n 0
    | none => .error .data
  else match dataNames d with
    | none => .error .text
    | some (b, f) =>
      let v := commaParts l
      if v = [] then .error .data
      else match dataOf b f v with
        | .ok n => x.emit b (b * v.length) n
        | .error w => .error w

/-- A line after its labels. -/
def Src.rest (x : Src) (no : Nat) (l : List Char) : Except Why Src :=
  if l = [] then .ok x
  else if l.head? = some '.' then
    let (h, r) := cutSpace l
    let d := lower h
    if d = ".targets" then x.targets r
    else if d = ".align" then x.align r
    else match x.ker with
      | some k => x.kernelDir d r k
      | none => x.objectDir no d r
  else match x.ker with
    | none => .error .text
    | some k => match stmtOf l with
      | .error w => .error w
      | .ok st => .ok { x with ker := some { k with items := .ins no st [] :: k.items, last := some st },
                               wait := if takesTargets st.o then some no else none }

/-- The labels of a line, at most as many as it has characters, and what follows them. -/
def Src.labels (x : Src) (no : Nat) : Nat → List Char → Except Why Src
  | 0, l => x.rest no l
  | n + 1, l =>
    let h := l.takeWhile nameChar
    let r := (l.drop h.length).dropWhile Char.isWhitespace
    if h ≠ [] ∧ r.head? = some ':' then match x.label h with
      | .ok x => x.labels no n (trim (r.drop 1))
      | .error w => .error w
    else x.rest no l

/-- A rejected source: the line and the rule it breaks. -/
structure Diag where
  line : Nat
  why : Why
  deriving DecidableEq, Repr

/-- One line of the source. -/
def Src.line (x : Src) (no : Nat) (text : String) : Except Diag Src :=
  let l := trim (uncomment text.toList)
  match x.wait with
  | some w =>
    if l = [] then .ok x
    else if lower (cutSpace l).1 = ".targets" then (x.rest no l).mapError (Diag.mk no)
    else .error { line := w, why := .targets }
  | none => (x.labels no l.length l).mapError (Diag.mk no)

/-- The lines of the source, counted from 1. -/
def readLines : Src → Nat → List String → Except Diag Src
  | x, _, [] => .ok x
  | x, no, t :: r => match x.line no t with
    | .ok x => readLines x (no + 1) r
    | .error d => .error d

/-! ### The code of a kernel (R60, R61, R65) -/

/-- The symbols inside a kernel (R51, R63, R64, R66). -/
def symbols (k : Ker) (objNames : List String) (pos : List (String × Nat)) (s : String) : Option Sym :=
  match k.params.find? (·.1 = s), k.bufs.find? (·.1 = s) with
  | some p, _ => some (.off p.2.2)
  | _, some b => some (.off b.2)
  | none, none => match pos.find? (·.1 = s) with
    | some p => some (.label p.2)
    | none => if objNames.contains s then some .addr else none

/-- The label that a short branch form could reach (R60). -/
def Stmt.branch (st : Stmt) : Option String := match st.args.map Opd.asName with
  | [.sym s] => if decide (st.o = .bra) || decide (st.o = .call) then some s else none
  | _ => none

/-- The bytes of an instruction's words. -/
def Enc.bytes (o : Opc) (e : Enc) : Nat := 4 * (e.body.words o).length

/-- Sizes of the items of a kernel, with every branch short (R60). -/
def itemSizes (k : Ker) (objNames : List String) : List Item → Except Diag (List (Item × Nat))
  | [] => .ok []
  | .ins no st t :: r =>
    let e : Env := { sym := symbols k objNames (k.labels.map (·, 0)), list := if takesTargets st.o then some 0 else none }
    match encodeStmt st e (k.regs.getD 0) (k.tiles.getD 0), itemSizes k objNames r with
    | .error w, _ => .error { line := no, why := w }
    | _, .error d => .error d
    | .ok x, .ok l => .ok ((.ins no st t, x.bytes st.o) :: l)
  | i :: r => match itemSizes k objNames r with
    | .error d => .error d
    | .ok l => .ok ((i, 0) :: l)

/-- The places of the items from `pc` on. -/
def places : List (Item × Nat) → Nat → List (Item × Nat × Nat)
  | [], _ => []
  | (.align n, _) :: r, pc => (.align n, pc, alignUp pc n - pc) :: places r (alignUp pc n)
  | (i, b) :: r, pc => (i, pc, b) :: places r (pc + b)

/-- The places of the labels. -/
def labelPlaces (l : List (Item × Nat × Nat)) : List (String × Nat) := l.filterMap fun
  | (.label n, pc, _) => some (n, pc)
  | _ => none

/-- The size of an item after one pass of R60: a short branch out of reach becomes long. -/
def lengthen (pos : List (String × Nat)) : Item × Nat × Nat → Item × Nat
  | (.ins no st t, pc, b) => match st.branch with
    | some s => match pos.find? (·.1 = s) with
      | some p =>
        let k := ((p.2 : Int) - pc) / 4
        (.ins no st t, if b = 4 ∧ !(-131072 ≤ k ∧ k ≤ 131071) then 12 else b)
      | none => (.ins no st t, b)
    | none => (.ins no st t, b)
  | (i, _, b) => (i, b)

/-- Places items from `pc` on, lengthening branches until none needs it (R60). -/
def settle (pc : Nat) : Nat → List (Item × Nat) → List (Item × Nat × Nat)
  | 0, l => places l pc
  | n + 1, l =>
    let p := places l pc
    let l' := p.map (lengthen (labelPlaces p))
    if l'.map (·.2) = p.map (·.2.2) then p else settle pc n l'

/-- A kernel with its code placed. -/
structure Placed where
  k : Ker
  start : Nat
  stop : Nat
  items : List (Item × Nat × Nat)
  deriving Repr

/-- The alignment of the start of a kernel: 64, or more for an `.align` before its first instruction. -/
def leadAlign : List Item → Nat
  | .align n :: r => max n (leadAlign r)
  | .label _ :: r => leadAlign r
  | _ => 64

/-- The kernels' code, one after another (R70). -/
def placeAll (objNames : List String) : List Ker → Nat → Except Diag (List Placed)
  | [], _ => .ok []
  | k :: r, pc =>
    let its := k.items.reverse
    let start := alignUp pc (leadAlign its)
    match itemSizes k objNames its with
    | .error d => .error d
    | .ok l =>
      let p := settle start (l.length + 1) l
      let stop := match p.getLast? with
        | some (_, a, b) => a + b
        | none => start
      match placeAll objNames r stop with
      | .ok q => .ok ({ k := k, start := start, stop := stop, items := p } :: q)
      | .error d => .error d

/-! ### The object (R65, R66, R70, R71) -/

/-- What an address in the object stands for: a byte of the descriptors, the code and the constants; a byte of the data
section; a symbol of another object. -/
inductive Place where
  | obj (off : Nat)
  | data (off : Nat)
  | ext (name : String)
  deriving DecidableEq, Repr

/-- The descriptor of a kernel (Table 3-4). -/
structure KDesc where
  name : String
  regs : Nat
  warps : Nat
  cellar : Nat
  tiles : Nat
  paramSize : Nat
  code : Nat
  codeSize : Nat
  bufBytes : Nat
  deriving DecidableEq, Repr

/-- A launch entry (Table 3-5). -/
structure Entry where
  kidx : Nat
  param : Nat
  window : Nat
  done : Option Place
  cohorts : Nat
  dieMask : Nat
  spans : Nat
  strips : Nat
  prio : Nat
  pkgMask : Nat
  queue : Nat
  deriving DecidableEq, Repr

/-- An object. `cells` holds its bytes that are not zero; a place of `rels` takes 8 bytes of address. -/
structure Object where
  kernels : List KDesc
  const : Nat
  constSize : Nat
  data : Nat
  dataSize : Nat
  launch : Nat
  cells : List (Nat × Nat)
  dataCells : List (Nat × Nat)
  rels : List (Nat × Place)
  globals : List (String × Place)
  externs : List String
  runs : List ClassRun
  entries : List Entry
  lines : List (Nat × List Word)
  deriving Repr

/-- The target lists of the kernels, from `off` on: each with the place of its BRX or CALLX (R65). -/
def targetLists : List (Item × Nat × Nat) → List (String × Nat) → Nat → Except Diag (List (Nat × Nat × List Nat) × Nat)
  | [], _, off => .ok ([], off)
  | (.ins no st t, pc, _) :: r, pos, off =>
    if takesTargets st.o then
      let ws := t.map fun s => (pos.find? (·.1 = s)).map fun p => (((p.2 : Int) - pc) / 4 % 2 ^ 32).toNat
      if ws.all Option.isSome then
        let off := alignUp off 4
        match targetLists r pos (off + 4 + 4 * t.length) with
        | .ok (l, e) => .ok ((pc, off, t.length :: ws.filterMap id) :: l, e)
        | .error d => .error d
      else .error { line := no, why := .target }
    else targetLists r pos off
  | _ :: r, pos, off => targetLists r pos off

/-- The target lists of all kernels. -/
def allLists : List Placed → Nat → Except Diag (List (Nat × Nat × List Nat) × Nat)
  | [], off => .ok ([], off)
  | p :: r, off => match targetLists p.items (labelPlaces p.items) off with
    | .error d => .error d
    | .ok (l, e) => match allLists r e with
      | .ok (m, f) => .ok (l ++ m, f)
      | .error d => .error d

/-- The words of a list one after another. -/
def wordCells : Nat → List Nat → List (Nat × Nat)
  | _, [] => []
  | off, w :: r => cellsOf off w 4 ++ wordCells (off + 4) r

/-- What a symbol's address is inside a kernel with the labels `pos` (R66). -/
def codeAddr (pos : List (String × Nat)) (addr : String → Option Place) (s : String) : Option Place :=
  match pos.find? (·.1 = s) with
  | some q => some (.obj q.2)
  | none => addr s

/-- The code of a kernel: words, and the addresses that the loader fills in (R66). -/
def codeOf (p : Placed) (objNames : List String) (addr : String → Option Place) (lists : List (Nat × Nat × List Nat)) :
    List (Item × Nat × Nat) → Except Diag (List (Nat × Nat × List Word × Option (Nat × Place)))
  | [] => .ok []
  | (.ins no st _, pc, b) :: r =>
    let pos := labelPlaces p.items
    let e : Env := { sym := symbols p.k objNames pos, pc := pc,
                     list := (lists.find? (·.1 = pc)).map (·.2.1), long := st.branch.isSome && b == 12 }
    match encodeStmt st e (p.k.regs.getD 0) (p.k.tiles.getD 0), codeOf p objNames addr lists r with
    | .error w, _ => .error { line := no, why := w }
    | _, .error d => .error d
    | .ok x, .ok l =>
      let ws := x.body.words st.o
      .ok ((no, pc, ws, (x.rel.bind (codeAddr pos addr)).map fun t => (pc + 4 * (ws.length - 2), t)) :: l)
  | _ :: r => codeOf p objNames addr lists r

/-- The code of all kernels. -/
def allCode (objNames : List String) (addr : String → Option Place) (lists : List (Nat × Nat × List Nat)) :
    List Placed → Except Diag (List (Nat × Nat × List Word × Option (Nat × Place)))
  | [] => .ok []
  | p :: r => match codeOf p objNames addr lists p.items, allCode objNames addr lists r with
    | .ok a, .ok b => .ok (a ++ b)
    | .error d, _ => .error d
    | _, .error d => .error d

/-! ### Launches (R69, R71) -/

/-- The value of a key, or its default. -/
def keyNat (keys : List (String × List (List Char))) (n : String) (lo hi : Nat) (dflt : Option Nat) : Except Why Nat :=
  match keys.find? (·.1 = n), dflt with
  | some (_, [v]), _ => natIn lo hi .launch v
  | some _, _ => .error .launch
  | none, some v => .ok v
  | none, none => .error .launch

/-- One part of a list of numbers: a number or a range. -/
def rangeOf (l : List Char) : Option (List Nat) :=
  let a := l.takeWhile (· ≠ '.')
  match l.drop a.length with
  | [] => (natOf a).map ([·])
  | '.' :: '.' :: b => match natOf (trim a), natOf (trim b) with
    | some i, some j => some ((List.range (j + 1 - i)).map (i + ·))
    | _, _ => none
  | _ => none

/-- The mask of a list of `count` distinct numbers below `lim`, 0 where the key is absent. -/
def keyMask (keys : List (String × List (List Char))) (n : String) (count lim : Nat) : Except Why Nat :=
  match keys.find? (·.1 = n) with
  | none => .ok 0
  | some (_, v) =>
    let l := v.map rangeOf
    let ns := (l.filterMap id).flatten
    if l.all Option.isSome ∧ ns.length = count ∧ ns.eraseDups.length = count ∧ ns.all (· < lim) then
      .ok (ns.foldl (fun a i => a + 2 ^ i) 0)
    else .error .launch

/-- The keys of Table 3-3 that are not parameters. -/
def launchKeys : List String := ["cohorts", "spans", "strips", "dies", "pkgs", "prio", "queue", "window", "done"]

/-- The parameter block of a launch: its bytes as one number and the addresses in it. -/
def paramBlock (keys : List (String × List (List Char))) (addr : String → Option Place) :
    List (String × PType × Nat) → Except Why (Nat × List (Nat × Place))
  | [] => .ok (0, [])
  | (n, t, off) :: r => match (if launchKeys.contains n then none else keys.find? (·.1 = n)), paramBlock keys addr r with
    | some (_, [v]), .ok (b, rels) =>
      let f := if t = .f32 then some fmtF32 else if t = .f64 then some fmtF64 else none
      match (litOf v).filter fun x => f.isSome || x.word.isNone with
      | some x =>
        (x.bits (8 * t.size) (8 * t.size) f).map fun y => (b + y * 2 ^ (8 * off), rels)
      | none => match addr (String.ofList v) with
        | some p => if t = .i64 ∨ t = .n64 then .ok (b, (off, p) :: rels) else .error .launch
        | none => .error .launch
    | _, .error w => .error w
    | _, _ => .error .launch

/-- A launch entry with its parameter block, which lies at `off` in the constant section. -/
def entryOf (kers : List Ker) (addr : String → Option Place) (x : LaunchLine) (off : Nat) :
    Except Why (Entry × Nat × Nat × List (Nat × Place)) :=
  match kers.findIdx? (·.name = x.kernel) with
  | none => .error .launch
  | some i =>
    let k := kers.getD i { name := "", line := 0 }
    let keys := x.keys
    let strange := keys.any fun e => !(launchKeys.contains e.1 || k.params.any (·.1 = e.1))
    let done : Option (Option Place) := match keys.find? (·.1 = "done") with
      | none => some none
      | some (_, [v]) => match addr (String.ofList v) with
        | some (.obj _) | none => none
        | some p => some (some p)
      | some _ => none
    match keyNat keys "cohorts" 1 65536 none, keyNat keys "spans" 1 16 (some 1), keyNat keys "strips" 1 32 (some 1),
        keyNat keys "prio" 0 3 (some 0), keyNat keys "queue" 0 63 (some 0), keyNat keys "window" 0 (2 ^ 64 - 1) (some 0) with
    | .ok c, .ok s, .ok t, .ok p, .ok q, .ok w => match keyMask keys "dies" s 16, keyMask keys "pkgs" t 32, done with
      | .ok dm, .ok pm, some dn =>
        if strange ∨ w % 2 ^ 27 ≠ 0 then .error .launch
        else match paramBlock keys addr k.params with
          | .ok (b, rels) =>
            .ok ({ kidx := i, param := off, window := w, done := dn, cohorts := c, dieMask := dm, spans := s, strips := t,
                   prio := p, pkgMask := pm, queue := q }, alignUp k.paramEnd 8, b, rels)
          | .error w => .error w
      | _, _, _ => .error .launch
    | _, _, _, _, _, _ => .error .launch

/-- The launches with their parameter blocks, from `off` in the object on, in a constant section that begins at `base`. -/
def allEntries (kers : List Ker) (addr : String → Option Place) (base : Nat) :
    List LaunchLine → Nat → Except Diag (List Entry × List (Nat × Nat) × List (Nat × Place) × Nat)
  | [], off => .ok ([], [], [], off)
  | x :: r, off =>
    let off := alignUp off 8
    match entryOf kers addr x (off - base) with
    | .error w => .error { line := x.line, why := w }
    | .ok (e, n, b, rels) => match allEntries kers addr base r (off + n) with
      | .ok (es, cs, rs, stop) => .ok (e :: es, cellsOf off b n ++ cs, rels.map (fun p => (off + p.1, p.2)) ++ rs, stop)
      | .error d => .error d

/-- The bytes of a descriptor at `off`, with the constant section at `const` (Table 3-4). -/
def KDesc.cells (k : KDesc) (off const constSize : Nat) : List (Nat × Nat) :=
  let signed (v : Nat) : Nat := (((v : Int) - off) % 2 ^ 64).toNat
  cellsOf off 0x00010000 4 ++ cellsOf (off + 4) k.regs 2 ++ cellsOf (off + 6) k.warps 2 ++ cellsOf (off + 8) k.cellar 1
    ++ cellsOf (off + 9) k.tiles 1 ++ cellsOf (off + 0xC) k.paramSize 4 ++ cellsOf (off + 0x10) (signed k.code) 8
    ++ cellsOf (off + 0x18) k.codeSize 4 ++ cellsOf (off + 0x1C) constSize 4 ++ cellsOf (off + 0x20) (signed const) 8
    ++ cellsOf (off + 0x28) k.bufBytes 4

/-- The bytes of a launch entry at `off` (Table 3-5), with the addresses that stand in it. -/
def Entry.cells (e : Entry) (off kdesc param done : Nat) : List (Nat × Nat) :=
  cellsOf off kdesc 8 ++ cellsOf (off + 8) param 8 ++ cellsOf (off + 0x10) e.window 8 ++ cellsOf (off + 0x18) done 8
    ++ cellsOf (off + 0x20) e.cohorts 4 ++ cellsOf (off + 0x24) e.dieMask 2 ++ cellsOf (off + 0x26) e.spans 1
    ++ cellsOf (off + 0x27) (e.strips + 64 * e.prio) 1 ++ cellsOf (off + 0x28) e.pkgMask 4
    ++ cellsOf (off + 0x40) e.queue 1 ++ cellsOf (off + 0x44) e.kidx 4

/-- The launch section as it stands in the object. -/
def entryCells : List Entry → Nat → List (Nat × Nat)
  | [], _ => []
  | e :: r, off => e.cells off 0 e.param 0 ++ entryCells r (off + 128)

/-- The checks of names that need the whole source (R51, R68). -/
def nameChecks (x : Src) : Option Diag :=
  match x.globals.find? (fun g => !(x.const.labels.any (·.1 = g.2) || x.data.labels.any (·.1 = g.2))),
      x.kers.find? (fun k => k.names.any x.names.contains) with
  | some g, _ => some { line := g.1, why := .link }
  | none, some k => some { line := k.line, why := .twice }
  | none, none => none

/-- The end of the parameter blocks that begin at `off` (R71). -/
def blocksEnd (kers : List Ker) : List LaunchLine → Nat → Nat
  | [], off => off
  | x :: r, off => blocksEnd kers r (alignUp off 8 + match kers.find? (·.name = x.kernel) with
    | some k => alignUp k.paramEnd 8
    | none => 0)

/-- What a name of the object's namespace stands for, with the constant section from `const` to `stop`: a label of the
constant section that no data follows names its end. -/
def Src.addr (x : Src) (ps : List Placed) (const stop : Nat) (s : String) : Option Place :=
  match x.const.labels.find? (·.1 = s), x.data.close.labels.find? (·.1 = s) with
  | some l, _ => some (.obj (const + l.2))
  | none, some l => some (.data l.2)
  | none, none =>
    if x.const.waiting.contains s then some (.obj stop)
    else if x.externs.contains s then some (.ext s)
    else match ps.findIdx? (fun p => p.k.name = s), ps.find? (fun p => p.k.name = s) with
      | some i, some p => some (.obj (Config.kernelName (64 * i) p.start))
      | _, _ => none

/-- The descriptor of a placed kernel (Table 3-4). DEDUCED (log 80): BUFBYTES is the end of the last buffer, the gaps before
32-byte boundaries counted as reserved. -/
def Placed.desc (p : Placed) : KDesc :=
  { name := p.k.name, regs := p.k.regs.getD 0, warps := p.k.warps.getD 0, cellar := p.k.cellar.getD 0 / 2 ^ 23,
    tiles := p.k.tiles.getD 0, paramSize := alignUp p.k.paramEnd 8, code := p.start, codeSize := p.stop - p.start,
    bufBytes := p.k.bufEnd }

/-- The object with its kernels placed, the constant section at `const` (R70). -/
def layout (x : Src) (ps : List Placed) (const : Nat) : Except Diag Object :=
  match allLists ps (const + x.const.size) with
  | .error d => .error d
  | .ok (lists, blocks) =>
    let stop := blocksEnd x.kers x.launches blocks
    let addr := x.addr ps const stop
    match allEntries x.kers addr const x.launches blocks, allCode x.names addr lists ps with
    | .error d, _ => .error d
    | _, .error d => .error d
    | .ok (es, pcells, prels, _), .ok code =>
      let ks := ps.map Placed.desc
      let data := alignUp stop 64
      let launch := alignUp (data + x.data.size) 64
      .ok { kernels := ks, const := const, constSize := stop - const, data := data, dataSize := x.data.size,
            launch := launch,
            cells := (ks.zipIdx.flatMap fun k => k.1.cells (64 * k.2) const (stop - const))
              ++ (code.flatMap fun c => wordCells c.2.1 (c.2.2.1.map BitVec.toNat))
              ++ (x.const.cells.reverse.map fun c => (const + c.1, c.2))
              ++ (lists.flatMap fun l => wordCells l.2.1 l.2.2) ++ pcells ++ entryCells es launch,
            dataCells := x.data.cells.reverse, rels := code.filterMap (·.2.2.2) ++ prels,
            globals := (ks.map KDesc.name ++ x.globals.map Prod.snd).filterMap fun s => (addr s).map (s, ·),
            externs := x.externs.reverse, runs := x.runs.reverse, entries := es,
            lines := code.map fun c => (c.1, c.2.2.1) }

/-- The object of a source that has been read. -/
def build (x : Src) : Except Diag Object :=
  match x.wait, x.ker with
  | some w, _ => .error { line := w, why := .targets }
  | none, some k => .error { line := k.line, why := .kernel }
  | none, none => match nameChecks { x with const := x.const.close, data := x.data.close } with
    | some d => .error d
    | none => match placeAll x.names x.kers (64 * x.kers.length) with
      | .error d => .error d
      | .ok ps => layout x ps (alignUp (match ps.getLast? with
          | some p => p.stop
          | none => 64 * x.kers.length) x.const.al)

/-- The assembler: the object of a source, or the line that is rejected. -/
def assemble (lines : List String) : Except Diag Object :=
  match readLines {} 1 lines with
  | .ok x => build x
  | .error d => .error d

/-! ### The loader and the runtime (R66 to R68, R71) -/

/-- An object in memory: its bytes by virtual address, the class runs of its data with the addresses they take, and its
launch entries with the addresses of descriptor, parameters and completion word. -/
structure Loaded where
  cells : List (Nat × Nat)
  runs : List (Nat × ClassRun)
  entries : List (Entry × Nat × Nat × Nat)
  deriving Repr

/-- The address of a place, with the object at `base` and its data section at `data`. -/
def Place.addr (base data : Nat) (ext : String → Option Nat) : Place → Option Nat
  | .obj o => some (base + o)
  | .data o => some (data + o)
  | .ext s => ext s

/-- The loader (R66 to R68, R71) puts an object at `base` and its data section at the page `data`, with the symbols of other
objects at `ext`. It refuses an object whose externs do not all resolve. -/
def load (x : Object) (base data : Nat) (ext : String → Option Nat) : Option Loaded :=
  if x.externs.all (fun s => (ext s).isSome) ∧ data % 65536 = 0 then
    let place := Place.addr base data ext
    some { cells := (x.cells.filter (·.1 < x.data)).map (fun c => (base + c.1, c.2))
             ++ x.dataCells.map (fun c => (data + c.1, c.2))
             ++ x.rels.flatMap fun r => cellsOf (base + r.1) ((place r.2).getD 0) 8,
           runs := x.runs.map fun r => (data + r.start, r),
           entries := x.entries.map fun e =>
             (e, base + 64 * e.kidx, base + x.const + e.param, ((e.done.bind place).getD 0)) }
  else none

/-- 64 GiB from `w` on, in which no page of `mapped` (address and bytes) lies. -/
def windowFree (mapped : List (Nat × Nat)) (w : Nat) : Bool :=
  mapped.all fun p => p.1 + p.2 ≤ w || w + 2 ^ 36 ≤ p.1

/-- The runtime (R71): the launch record of an entry, with the window `choice` where the entry names none; none where a page
of the context lies in the window, or the choice is no window. -/
def launchRecord (mapped : List (Nat × Nat)) (choice : Nat) (e : Entry × Nat × Nat × Nat) : Option (List (Nat × Nat)) :=
  let w := if e.1.window = 0 then choice else e.1.window
  if w ≠ 0 ∧ w % 2 ^ 27 = 0 ∧ windowFree mapped w then
    some (({ e.1 with window := w } : Entry).cells 0 e.2.1 e.2.2.1 e.2.2.2 |>.filter (·.1 < 64))
  else none

end Sys2Proof.Smiat
end

