-- ==== Sys2Proof/Laws/Smiat.lean ====
section
/-! SUPPORT. What the assembler emits passes the field rules of the decoder. -/

namespace Sys2Proof.Smiat

open Sys2Proof.Machine

theorem layoutOk_ok {o : Opc} {x : Stm} {regs tiles : Nat} {b : Body} (h : layoutOk o x regs tiles b = true) :
    Body.ok o b = true := by
  simp only [layoutOk, Bool.and_eq_true] at h
  exact h.1.1.1.1.1.1.1

theorem pickLayout_ok {o : Opc} {e : Env} {regs tiles : Nat} {y : Stm} {x : Enc}
    (h : pickLayout o e regs tiles y = .ok x) : Body.ok o x.body = true := by
  unfold pickLayout at h
  split at h
  · cases h
  · split at h
    · cases h
    · split at h
      · rename_i b hb
        cases h
        exact layoutOk_ok (List.find?_some hb)
      · cases h

theorem encodeBy_ok {st : Stmt} {e : Env} {regs tiles : Nat} {y : Mods} {form : Form} {x : Enc}
    (h : encodeBy st e regs tiles y form = .ok x) : Body.ok st.o x.body = true := by
  simp only [encodeBy] at h
  split at h
  · cases h
  · exact pickLayout_ok h

theorem firstOk_mem {l : List (Except Why Enc)} {x : Enc} (h : firstOk l = .ok x) : .ok x ∈ l := by
  have key : ∀ (l : List (Except Why Enc)) (a : Except Why Enc), l.foldl (fun a b => match a with
      | .ok v => .ok v
      | .error _ => b) a = .ok x → a = .ok x ∨ .ok x ∈ l := by
    intro l
    induction l with
    | nil => intro a h; exact .inl h
    | cons b l ih =>
      intro a h
      rcases ih _ h with h' | h'
      · cases a with
        | ok v => exact .inl h'
        | error w => exact .inr (by simp only at h'; simp [h'])
      · exact .inr (List.mem_cons_of_mem _ h')
  rcases key l _ h with h' | h'
  · cases h'
  · exact h'

/-- A statement that assembles is an instruction that the decoder accepts. -/
theorem encodeStmt_ok {st : Stmt} {e : Env} {regs tiles : Nat} {x : Enc} (h : encodeStmt st e regs tiles = .ok x) :
    Body.ok st.o x.body = true := by
  unfold encodeStmt at h
  split at h
  · cases h
  · split at h
    · cases h
    · obtain ⟨f, -, hf⟩ := List.mem_map.mp (firstOk_mem h)
      exact encodeBy_ok hf

end Sys2Proof.Smiat
end

