-- ==== Sys2Proof/Tests/Slice0.lean ====
section
/-! SUPPORT. Tests: words written out from the encoding tables of the spec, an ill-formed term for every check of
well-formedness, single steps with results worked out from the rules, and for every obligation with hypotheses a state and
operands that meet them. -/

open Sys2Proof Sys2Proof.Machine

namespace Sys2Proof.Tests

set_option maxRecDepth 100000
set_option Elab.async false

/-! ### Words -/

/-- A short form with the registers D, A and B. -/
def sf (d a b : Nat) : Short := { u := false, b := BitVec.ofNat 7 b, a := BitVec.ofNat 7 a, d := BitVec.ofNat 7 d }

/-- A long form that every thread performs: D, A, B, C, M, T, FE and IMM. -/
def lf (d a b c m t fe imm : Nat) : Long :=
  { u := false, g := 7, a := BitVec.ofNat 8 a, d := BitVec.ofNat 8 d, m := BitVec.ofNat 8 m, t := BitVec.ofNat 4 t,
    fe := BitVec.ofNat 3 fe, c := BitVec.ofNat 8 c, b := BitVec.ofNat 8 b, imm := BitVec.ofNat 32 imm }

/-- The words decode to the instruction and nothing is left. -/
def reads (p : List Word × Instr) : Bool :=
  match decode (p.1.flatMap wordBytes) with
  | .ok (i, []) => i == p.2
  | _ => false

/-- Control: words of the encoding tables. -/
def wordsControl1 : List (List Word × Instr) := [
  ([0x00000000], .nop),
  ([0x1C000001, 0x00000000, 0x00000000], .nopLong (lf 0 0 0 0 0x0 0 0 0x0)),
  ([0xFFFE8404], .bra 1 0x3FFFA),
  ([0x1C000005, 0x00000000, 0xFFFFFFFA], .braLong (lf 0 0 0 0 0x0 0 0 0xfffffffa)),
  ([0x1C140009, 0x00000000, 0x00000040], .brx (lf 0 5 0 0 0x0 0 0 0x40)),
  ([0x0000DC0C], .call 7 3),
  ([0x1C00000D, 0x00000000, 0x00000040], .callLong (lf 0 0 0 0 0x0 0 0 0x40)),
  ([0x1C140011, 0x00010000, 0x00000040], .callx (lf 0 5 0 0 0x0 0 1 0x40)),
  ([0x1C000015, 0x00000000, 0x00000000], .ret (lf 0 0 0 0 0x0 0 0 0x0)),
  ([0x1C000019, 0x00000000, 0x00000000], .exit (lf 0 0 0 0 0x0 0 0 0x0)),
  ([0x1C00001D, 0x00000000, 0x00000042], .trap (lf 0 0 0 0 0 0 0 0x42)),
  ([0x1C000021, 0x00000000, 0x0000FFFF], .bkpt (lf 0 0 0 0 0x0 0 0 0xffff))]

/-- Control, continued. -/
def wordsControl2 : List (List Word × Instr) := [
  ([0x1C000025, 0x00000000, 0x00000010], .idemOpen (lf 0 0 0 0 0x0 0 0 0x10)),
  ([0x1C000025, 0x01000000, 0x00000000], .idemClose (lf 0 0 0 0 1 0 0 0)),
  ([0x1C000029, 0x00000000, 0x00000000], .yield (lf 0 0 0 0 0 0 0 0)),
  ([0x1C00002D, 0x80000000, 0x000004B0], .sleep (lf 0 0 0 0 0x80 0 0 1200)),
  ([0x1C002C31, 0x00000000, 0x00000000], .join (lf 11 0 0 0 0x0 0 0 0x0)),
  ([0x1C000035, 0x00000000, 0x00000801], .leave (lf 0 0 0 0 0x0 0 0 0x801)),
  ([0x1C000039, 0x00000000, 0x00000000], .waitm (lf 0 0 0 0 0 0 0 0)),
  ([0x1C1C003D, 0x00000000, 0x00000000], .mset (lf 0 7 0 0 0 0 0 0)),
  ([0x1C081441, 0x00000000, 0x00000000], .mget (lf 5 2 0 0 0x0 0 0 0x0)),
  ([0x1C000045, 0x00000000, 0x00000007], .sysc (lf 0 0 0 0 0 0 0 7)),
  ([0x1C000049, 0x00000000, 0x00000000], .rtt (lf 0 0 0 0 0x0 0 0 0x0))]

theorem test_decodeControl : (wordsControl1.all reads && wordsControl2.all reads) = true := by decide +kernel

/-- Moves: words of the encoding tables. -/
def wordsMoves1 : List (List Word × Instr) := [
  ([0x00061860], .mov (sf 6 3 0)),
  ([0x1C13CC61, 0x00F00000, 0x00000000], .movLong (lf 243 4 0 0 0 15 0 0)),
  ([0x7FFA1C64], .movi (sf 7 0x7D 0x7F)),
  ([0x00001C66, 0x12345678, 0x00000000], .moviLit (sf 7 0 0) 0x12345678),
  ([0x1C002465, 0x00F00000, 0x80000000], .moviLong (lf 9 0 0 0 0x0 15 0 0x80000000)),
  ([0x1C002067, 0x00300000, 0x00000000, 0x76543210, 0xFEDCBA98], .moviLongLit (lf 8 0 0 0 0x0 3 0 0x0) 0xFEDCBA9876543210),
  ([0x00061868], .movx (sf 6 3 0)),
  ([0x1C0C1869, 0x00F00000, 0x00000000], .movxLong (lf 6 3 0 0 0x0 15 0 0x0)),
  ([0x0406006C], .movxw (sf 0 3 4)),
  ([0x0006006E, 0x12345678, 0x00000000], .movxwLit (sf 0 3 0) 0x12345678),
  ([0x1C0C006D, 0x00F300C8, 0x00000000], .movxwLong (lf 0 3 200 0 0x0 15 3 0x0)),
  ([0x1C100871, 0x00300506, 0x00000000], .sel (lf 2 4 6 5 0x0 3 0 0x0))]

/-- Moves, continued. -/
def wordsMoves2 : List (List Word × Instr) := [
  ([0x1C002075, 0x00F00000, 0x00000004], .movs (lf 8 0 0 0 0 15 0 4)),
  ([0x1C140079, 0x00F00000, 0x0000000D], .sets (lf 0 5 0 0 0x0 15 0 0xd)),
  ([0x1FBC087D, 0x00000000, 0x00000000], .fetest (lf 2 239 0 0 0x0 0 0 0x0)),
  ([0x1C019081, 0x01000000, 0x00000000], .feset (lf 100 0 0 0 0x1 0 0 0x0)),
  ([0x1C080485, 0x00000703, 0x00000080], .plop (lf 1 2 3 7 0 0 0 0x80)),
  ([0x1C280C89, 0x00F00000, 0x00000011], .slotr (lf 3 10 0 0 0 15 0 17)),
  ([0x1C28308D, 0x00F00000, 0x00000000], .slotw (lf 12 10 0 0 0 15 0 0))]

theorem test_decodeMoves : (wordsMoves1.all reads && wordsMoves2.all reads) = true := by decide +kernel

/-- Integer: words of the encoding tables. -/
def wordsInteger1 : List (List Word × Instr) := [
  ([0x040618A0], .add (sf 6 3 4)),
  ([0x000618A2, 0x12345678, 0x00000000], .addLit (sf 6 3 0) 0x12345678),
  ([0x1E0B20A1, 0x00130083, 0x00000000], .addLong (lf 200 130 131 0 0x0 1 3 0x0)),
  ([0x040618A4], .sub (sf 6 3 4)),
  ([0x000618A6, 0x12345678, 0x00000000], .subLit (sf 6 3 0) 0x12345678),
  ([0x1E0B20A5, 0x00130083, 0x00000000], .subLong (lf 200 130 131 0 0x0 1 3 0x0)),
  ([0x040618B0], .mul (sf 6 3 4)),
  ([0x000618B2, 0x12345678, 0x00000000], .mulLit (sf 6 3 0) 0x12345678),
  ([0x1E0B20B1, 0x00130083, 0x00000000], .mulLong (lf 200 130 131 0 0x0 1 3 0x0)),
  ([0x040618B4], .mulh (sf 6 3 4)),
  ([0x000618B6, 0x12345678, 0x00000000], .mulhLit (sf 6 3 0) 0x12345678),
  ([0x1E0B20B5, 0x00130083, 0x00000000], .mulhLong (lf 200 130 131 0 0x0 1 3 0x0))]

/-- Integer, continued. -/
def wordsInteger2 : List (List Word × Instr) := [
  ([0x040618B8], .mulw (sf 6 3 4)),
  ([0x000618BA, 0x12345678, 0x00000000], .mulwLit (sf 6 3 0) 0x12345678),
  ([0x1E0B20B9, 0x00130083, 0x00000000], .mulwLong (lf 200 130 131 0 0x0 1 3 0x0)),
  ([0x040618BC], .mad (sf 6 3 4)),
  ([0x000618BE, 0x12345678, 0x00000000], .madLit (sf 6 3 0) 0x12345678),
  ([0x1E0B20BD, 0x00130883, 0x00000000], .madLong (lf 200 130 131 8 0x0 1 3 0x0)),
  ([0x040618C0], .madw (sf 6 3 4)),
  ([0x000618C2, 0x12345678, 0x00000000], .madwLit (sf 6 3 0) 0x12345678),
  ([0x1E0B20C1, 0x00130883, 0x00000000], .madwLong (lf 200 130 131 8 0x0 1 3 0x0)),
  ([0x040618C4], .div (sf 6 3 4)),
  ([0x000618C6, 0x12345678, 0x00000000], .divLit (sf 6 3 0) 0x12345678),
  ([0x1E0B20C5, 0x00130083, 0x00000000], .divLong (lf 200 130 131 0 0x0 1 3 0x0))]

/-- Integer, continued. -/
def wordsInteger3 : List (List Word × Instr) := [
  ([0x040618C8], .rem (sf 6 3 4)),
  ([0x000618CA, 0x12345678, 0x00000000], .remLit (sf 6 3 0) 0x12345678),
  ([0x1E0B20C9, 0x00130083, 0x00000000], .remLong (lf 200 130 131 0 0x0 1 3 0x0)),
  ([0x040618CC], .min (sf 6 3 4)),
  ([0x000618CE, 0x12345678, 0x00000000], .minLit (sf 6 3 0) 0x12345678),
  ([0x1E0B20CD, 0x00130083, 0x00000000], .minLong (lf 200 130 131 0 0x0 1 3 0x0)),
  ([0x040618D0], .max (sf 6 3 4)),
  ([0x000618D2, 0x12345678, 0x00000000], .maxLit (sf 6 3 0) 0x12345678),
  ([0x1E0B20D1, 0x00130083, 0x00000000], .maxLong (lf 200 130 131 0 0x0 1 3 0x0)),
  ([0x1C0010A9, 0x09100002, 0x00000000], .addc (lf 4 0 2 0 9 1 0 0)),
  ([0x1C0414A9, 0x01100103, 0x00000000], .addc (lf 5 1 3 1 1 1 0 0)),
  ([0x1C0414AD, 0x01100203, 0x00000000], .subc (lf 5 1 3 2 0x1 1 0 0x0))]

/-- Integer, continued. -/
def wordsInteger4 : List (List Word × Instr) := [
  ([0x1C1828BD, 0x80000700, 0x00000040], .madLong (lf 10 6 0 7 0x80 0 0 0x40)),
  ([0x000618D4], .abs (sf 6 3 0)),
  ([0x1C0C18D5, 0x10A00000, 0x00000000], .absLong (lf 6 3 0 0 0x10 10 0 0x0)),
  ([0x000618D8], .neg (sf 6 3 0)),
  ([0x1C0C18D9, 0x10A00000, 0x00000000], .negLong (lf 6 3 0 0 0x10 10 0 0x0)),
  ([0x1C2030DD, 0x0210000A, 0x00000000], .lea (lf 12 8 10 0 2 1 0 0))]

theorem test_decodeInteger : (wordsInteger1.all reads && wordsInteger2.all reads && wordsInteger3.all reads && wordsInteger4.all reads) = true := by decide +kernel

/-- Logic: words of the encoding tables. -/
def wordsLogic1 : List (List Word × Instr) := [
  ([0x040618E0], .and (sf 6 3 4)),
  ([0x000618E2, 0x12345678, 0x00000000], .andLit (sf 6 3 0) 0x12345678),
  ([0x1C1018E1, 0x00320008, 0x00000000], .andLong (lf 6 4 8 0 0x0 3 2 0x0)),
  ([0x040618E4], .or (sf 6 3 4)),
  ([0x000618E6, 0x12345678, 0x00000000], .orLit (sf 6 3 0) 0x12345678),
  ([0x1C1018E5, 0x00320008, 0x00000000], .orLong (lf 6 4 8 0 0x0 3 2 0x0)),
  ([0x040618E8], .xor (sf 6 3 4)),
  ([0x000618EA, 0x12345678, 0x00000000], .xorLit (sf 6 3 0) 0x12345678),
  ([0x1C1018E9, 0x00320008, 0x00000000], .xorLong (lf 6 4 8 0 0x0 3 2 0x0)),
  ([0x040618EC], .andn (sf 6 3 4)),
  ([0x000618EE, 0x12345678, 0x00000000], .andnLit (sf 6 3 0) 0x12345678),
  ([0x1C1018ED, 0x00320008, 0x00000000], .andnLong (lf 6 4 8 0 0x0 3 2 0x0))]

/-- Logic, continued. -/
def wordsLogic2 : List (List Word × Instr) := [
  ([0x040618F4], .shl (sf 6 3 4)),
  ([0x000618F6, 0x12345678, 0x00000000], .shlLit (sf 6 3 0) 0x12345678),
  ([0x1C1018F5, 0x00320008, 0x00000000], .shlLong (lf 6 4 8 0 0x0 3 2 0x0)),
  ([0x040618F8], .shr (sf 6 3 4)),
  ([0x000618FA, 0x12345678, 0x00000000], .shrLit (sf 6 3 0) 0x12345678),
  ([0x1C1018F9, 0x00320008, 0x00000000], .shrLong (lf 6 4 8 0 0x0 3 2 0x0)),
  ([0x040618FC], .sra (sf 6 3 4)),
  ([0x000618FE, 0x12345678, 0x00000000], .sraLit (sf 6 3 0) 0x12345678),
  ([0x1C1018FD, 0x00220008, 0x00000000], .sraLong (lf 6 4 8 0 0x0 2 2 0x0)),
  ([0x04061900], .rotl (sf 6 3 4)),
  ([0x00061902, 0x12345678, 0x00000000], .rotlLit (sf 6 3 0) 0x12345678),
  ([0x1C101901, 0x00320008, 0x00000000], .rotlLong (lf 6 4 8 0 0x0 3 2 0x0))]

/-- Logic, continued. -/
def wordsLogic3 : List (List Word × Instr) := [
  ([0x05080CF4], .shl (sf 3 4 5)),
  ([0x000618F0], .not (sf 6 3 0)),
  ([0x1C1018F1, 0x00300000, 0x00000000], .notLong (lf 6 4 0 0 0x0 3 0 0x0)),
  ([0x00061904], .popc (sf 6 3 0)),
  ([0x1C101905, 0x00300000, 0x00000000], .popcLong (lf 6 4 0 0 0x0 3 0 0x0)),
  ([0x00061908], .clz (sf 6 3 0)),
  ([0x1C101909, 0x00300000, 0x00000000], .clzLong (lf 6 4 0 0 0x0 3 0 0x0)),
  ([0x0006190C], .ctz (sf 6 3 0)),
  ([0x1C10190D, 0x00300000, 0x00000000], .ctzLong (lf 6 4 0 0 0x0 3 0 0x0)),
  ([0x00061910], .brev (sf 6 3 0)),
  ([0x1C101911, 0x00300000, 0x00000000], .brevLong (lf 6 4 0 0 0x0 3 0 0x0)),
  ([0x1C0C1915, 0x80000000, 0x00000408], .bfx (lf 6 3 0 0 0x80 0 0 0x408))]

/-- Logic, continued. -/
def wordsLogic4 : List (List Word × Instr) := [
  ([0x1C0C1919, 0x40F00004, 0x00000304], .bfi (lf 6 3 4 0 0x40 15 0 0x304)),
  ([0x1C18091D, 0x82000000, 0x00000064], .cmp (lf 2 6 0 0 0x82 0 0 100)),
  ([0x1C0C1921, 0x00000000, 0x00000008], .sext (lf 6 3 0 0 0x0 0 0 0x8)),
  ([0x1C0C1925, 0x40F00004, 0x00008F10], .permb (lf 6 3 4 0 0x40 15 0 0x8f10)),
  ([0x04061928], .dp4 (sf 6 3 4)),
  ([0x0006192A, 0x12345678, 0x00000000], .dp4Lit (sf 6 3 0) 0x12345678),
  ([0x1C0C1929, 0x20B00504, 0x00000000], .dp4Long (lf 6 3 4 5 0x20 11 0 0x0))]

theorem test_decodeLogic : (wordsLogic1.all reads && wordsLogic2.all reads && wordsLogic3.all reads && wordsLogic4.all reads) = true := by decide +kernel

/-- Float: words of the encoding tables. -/
def wordsFloat1 : List (List Word × Instr) := [
  ([0x04061940], .fadd (sf 6 3 4)),
  ([0x00061942, 0x3F800000, 0x00000000], .faddLit (sf 6 3 0) 0x3F800000),
  ([0x1C081941, 0x00710004, 0x00000000], .faddLong (lf 6 2 4 0 0x0 7 1 0x0)),
  ([0x04061944], .fsub (sf 6 3 4)),
  ([0x00061946, 0x3F800000, 0x00000000], .fsubLit (sf 6 3 0) 0x3F800000),
  ([0x1C081945, 0x00710004, 0x00000000], .fsubLong (lf 6 2 4 0 0x0 7 1 0x0)),
  ([0x04061948], .fmul (sf 6 3 4)),
  ([0x0006194A, 0x3F800000, 0x00000000], .fmulLit (sf 6 3 0) 0x3F800000),
  ([0x1C081949, 0x00710004, 0x00000000], .fmulLong (lf 6 2 4 0 0x0 7 1 0x0)),
  ([0x0406194C], .ffma (sf 6 3 4)),
  ([0x0006194E, 0x3F800000, 0x00000000], .ffmaLit (sf 6 3 0) 0x3F800000),
  ([0x1C08194D, 0x00710804, 0x00000000], .ffmaLong (lf 6 2 4 8 0x0 7 1 0x0))]

/-- Float, continued. -/
def wordsFloat2 : List (List Word × Instr) := [
  ([0x04061950], .fmin (sf 6 3 4)),
  ([0x00061952, 0x3F800000, 0x00000000], .fminLit (sf 6 3 0) 0x3F800000),
  ([0x1C081951, 0x00710004, 0x00000000], .fminLong (lf 6 2 4 0 0x0 7 1 0x0)),
  ([0x04061954], .fmax (sf 6 3 4)),
  ([0x00061956, 0x3F800000, 0x00000000], .fmaxLit (sf 6 3 0) 0x3F800000),
  ([0x1C081955, 0x00710004, 0x00000000], .fmaxLong (lf 6 2 4 0 0x0 7 1 0x0)),
  ([0x1C54514D, 0x09501716, 0x00000000], .ffmaLong (lf 20 21 22 23 9 5 0 0)),
  ([0x1C0C1959, 0x00400000, 0x00000000], .fabs (lf 6 3 0 0 0x0 4 0 0x0)),
  ([0x1C0C195D, 0x00400000, 0x00000000], .fneg (lf 6 3 0 0 0x0 4 0 0x0)),
  ([0x1C0C1965, 0x00400000, 0x00000000], .fclass (lf 6 3 0 0 0x0 4 0 0x0)),
  ([0x1C0C196D, 0x00400000, 0x00000000], .fsqrt (lf 6 3 0 0 0x0 4 0 0x0)),
  ([0x1C0C1971, 0x00400000, 0x00000000], .frcp (lf 6 3 0 0 0x0 4 0 0x0))]

/-- Float, continued. -/
def wordsFloat3 : List (List Word × Instr) := [
  ([0x1C0C1975, 0x00400000, 0x00000000], .frsq (lf 6 3 0 0 0x0 4 0 0x0)),
  ([0x1C0C1979, 0x00400000, 0x00000000], .fexp2 (lf 6 3 0 0 0x0 4 0 0x0)),
  ([0x1C0C197D, 0x00400000, 0x00000000], .flog2 (lf 6 3 0 0 0x0 4 0 0x0)),
  ([0x1C0C1981, 0x00400000, 0x00000000], .fsin (lf 6 3 0 0 0x0 4 0 0x0)),
  ([0x1C0C1985, 0x00400000, 0x00000000], .fcos (lf 6 3 0 0 0x0 4 0 0x0)),
  ([0x1C0C1989, 0x00400000, 0x00000000], .frnd (lf 6 3 0 0 0x0 4 0 0x0)),
  ([0x1C180961, 0x82400000, 0x3FC00000], .fcmp (lf 2 6 0 0 0x82 4 0 0x3FC00000)),
  ([0x1C0C1969, 0x01400004, 0x00000000], .fdiv (lf 6 3 4 0 0x1 4 0 0x0)),
  ([0x1C14118D, 0x00600006, 0x00000000], .fcvt (lf 4 5 6 0 0 6 0 0)),
  ([0x1C0C1991, 0x01000000, 0x00000000], .fcvti (lf 6 3 0 0 0x1 0 0 0x0)),
  ([0x1C0C1995, 0x00400000, 0x00000000], .icvtf (lf 6 3 0 0 0x0 4 0 0x0)),
  ([0x1C0C1999, 0x40400004, 0x00000000], .fsgn (lf 6 3 4 0 0x40 4 0 0x0))]

/-- Float, continued. -/
def wordsFloat4 : List (List Word × Instr) := [
  ([0x1C0C199D, 0x00400004, 0x00000000], .fscl (lf 6 3 4 0 0x0 4 0 0x0)),
  ([0x1C0C19A1, 0x00C00504, 0x00000001], .pack8 (lf 6 3 4 5 0x0 12 0 0x1)),
  ([0x1C0C19A5, 0x00400000, 0x00000003], .unpk8 (lf 6 3 0 0 0x0 4 0 0x3)),
  ([0x1C2025A9, 0x00E00000, 0x00000001], .lqd (lf 9 8 0 0 0 14 0 1)),
  ([0x1C0C19AD, 0x00600504, 0x00000000], .fdot2 (lf 6 3 4 5 0x0 6 0 0x0))]

theorem test_decodeFloat : (wordsFloat1.all reads && wordsFloat2.all reads && wordsFloat3.all reads && wordsFloat4.all reads) = true := by decide +kernel

/-- Exchange: words of the encoding tables. -/
def wordsExchange1 : List (List Word × Instr) := [
  ([0x010C1DC0], .xch (sf 7 6 1)),
  ([0x1C181DC1, 0x40F00900, 0x0000001F], .xchLong (lf 7 6 0 9 0x40 15 0 0x1f)),
  ([0x1C181DC3, 0xA0F00000, 0x00000001, 0x00000063, 0x00000000], .xchLongLit (lf 7 6 0 0 0xA0 15 0 1) 99),
  ([0x040619C4], .xidx (sf 6 3 4)),
  ([0x000619C6, 0x00000005, 0x00000000], .xidxLit (sf 6 3 0) 0x5),
  ([0x1C0C19C5, 0x20F00000, 0x00000005], .xidxLong (lf 6 3 0 0 0x20 15 0 0x5)),
  ([0x1C0C19C7, 0x80F00004, 0x00000000, 0x80000000, 0x00000000], .xidxLongLit (lf 6 3 4 0 0x80 15 0 0x0) 0x80000000),
  ([0x000C1DC8], .scan (sf 7 6 0)),
  ([0x1C181DC9, 0x08000000, 0x00000000], .scanLong (lf 7 6 0 0 8 0 0 0)),
  ([0x000C1DCC], .redw (sf 7 6 0)),
  ([0x1C18FDCD, 0x02400000, 0x00000000], .redwLong (lf 63 6 0 0 0x2 4 0 0x0)),
  ([0x1C2411D1, 0x80100000, 0x00000000], .redwx (lf 4 9 0 0 0x80 1 0 0))]

/-- Exchange, continued. -/
def wordsExchange2 : List (List Word × Instr) := [
  ([0x000C1DD4], .matchEq (sf 7 6 0)),
  ([0x1C1019D5, 0x00300000, 0x00000000], .matchEqLong (lf 6 4 0 0 0x0 3 0 0x0)),
  ([0x1C1409D9, 0x01000000, 0x00000000], .vote (lf 2 5 0 0 0x1 0 0 0x0)),
  ([0x001C39DC], .bcst (sf 14 14 0)),
  ([0x1C0C19DD, 0x00F00000, 0x0000001F], .bcstLong (lf 6 3 0 0 0x0 15 0 0x1f)),
  ([0x1C0C19DF, 0x80F00000, 0x00000002, 0x00000007, 0x00000000], .bcstLongLit (lf 6 3 0 0 0x80 15 0 0x2) 0x7),
  ([0x1C1019E1, 0x01F00000, 0x00000001], .xlane (lf 6 4 0 0 1 15 0 1)),
  ([0x1C0C19E3, 0x82F00000, 0x00000001, 0x00000007, 0x00000000], .xlaneLit (lf 6 3 0 0 0x82 15 0 0x1) 0x7)]

theorem test_decodeExchange : (wordsExchange1.all reads && wordsExchange2.all reads) = true := by decide +kernel

/-- Memory: words of the encoding tables. -/
def wordsMemory1 : List (List Word × Instr) := [
  ([0x1C102201, 0x91F00000, 0x00000040], .ld (lf 8 4 0 0 0x91 15 0 0x40)),
  ([0x1C102605, 0x00F00506, 0x00000000], .st (lf 9 4 6 5 0 15 0 0)),
  ([0x1C001209, 0x40F00800, 0x00000000], .ldc (lf 4 0 0 8 0x40 15 0 0)),
  ([0x1C10020D, 0x10000000, 0x00000040], .pref (lf 0 4 0 0 0x10 0 0 0x40)),
  ([0x1C103211, 0x1110000D, 0x00000008], .atom (lf 12 4 13 0 0x11 1 0 8)),
  ([0x1C400215, 0x00100012, 0x00000000], .red (lf 0 16 18 0 0 1 0 0)),
  ([0x1C103A19, 0x5B10100F, 0x00000000], .cas (lf 14 4 15 16 0x5B 1 0 0)),
  ([0x1C00021D, 0x1C000000, 0x00000000], .fence (lf 0 0 0 0 0x1C 0 0 0)),
  ([0x1C100221, 0x00400006, 0x00000008], .acc (lf 0 4 6 0 0 4 0 8)),
  ([0x1C102A25, 0x11400007, 0x00000008], .ldb (lf 10 4 7 0 0x11 4 0 0x8)),
  ([0x1C100229, 0x18000000, 0x00000000], .rack (lf 0 4 0 0 0x18 0 0 0)),
  ([0x1C28122D, 0x00002525, 0x00000000], .bufd (lf 4 10 37 37 0x0 0 0 0x0))]

/-- Memory, continued. -/
def wordsMemory2 : List (List Word × Instr) := [
  ([0x1CFC1A31, 0x00000000, 0x00000000], .bufs (lf 6 63 0 0 0x0 0 0 0x0)),
  ([0x1CFC1A31, 0x01000000, 0x00000000], .bufsQ (lf 6 63 0 0 0x1 0 0 0x0)),
  ([0x1C141A35, 0x00000000, 0x00000000], .buff (lf 6 5 0 0 0x0 0 0 0x0)),
  ([0x1C20A241, 0x00300000, 0x00000000], .mapq (lf 40 8 0 0 0 3 0 0)),
  ([0x1C000245, 0x20000000, 0x00000000], .flsh (lf 0 0 0 0 0x20 0 0 0x0))]

theorem test_decodeMemory : (wordsMemory1.all reads && wordsMemory2.all reads) = true := by decide +kernel

/-- Barriers: words of the encoding tables. -/
def wordsBarriers : List (List Word × Instr) := [
  ([0x1C041281, 0x80000000, 0x00040040], .balloc (lf 4 1 0 0 0x80 0 0 0x40040)),
  ([0x1C100285, 0x00000000, 0x00000004], .bfree (lf 0 4 0 0 0x0 0 0 0x4)),
  ([0x1C101A89, 0x00000000, 0x00000001], .barv (lf 6 4 0 0 0 0 0 1)),
  ([0x1C282E8D, 0x81000000, 0x00080000], .bexp (lf 11 10 0 0 0x81 0 0 524288)),
  ([0x1C100291, 0x00000006, 0x00000000], .bwait (lf 0 4 6 0 0 0 0 0)),
  ([0x1C100A95, 0x80000000, 0x00000001], .btest (lf 2 4 0 0 0x80 0 0 0x1)),
  ([0x1C002A99, 0x80000000, 0x00000002], .csign (lf 10 0 0 0 0x80 0 0 2)),
  ([0x1C00029D, 0x01000000, 0x00000000], .waitc (lf 0 0 0 0 1 0 0 0)),
  ([0x1C0022A1, 0x00300000, 0x00000000], .cntr (lf 8 0 0 0 0 3 0 0))]

theorem test_decodeBarriers : wordsBarriers.all reads = true := by decide +kernel

/-- Engines: words of the encoding tables. -/
def wordsEngines : List (List Word × Instr) := [
  ([0x1C101AC3, 0xE000000A, 0x00000003, 0x0007FFFF, 0x00000000], .cpy (lf 6 4 10 0 0xE0 0 0 3) 0x7FFFF),
  ([0x1C101AC7, 0x18000008, 0x00000001, 0x40010003, 0x00000000], .gath (lf 6 4 8 0 0x18 0 0 0x1) 0x40010003),
  ([0x1C101ACB, 0xD8400908, 0x00000001, 0x40010003, 0x00000000], .scat (lf 6 4 8 9 0xd8 4 0 0x1) 0x40010003),
  ([0x1C001ACD, 0x01300000, 0x00000000], .cpyq (lf 6 0 0 0 0x1 3 0 0x0)),
  ([0x1C282239, 0x20000E0C, 0x00000001], .putn (lf 8 10 12 14 0x20 0 0 1)),
  ([0x1C58523D, 0x5800181A, 0x00020000], .getn (lf 20 22 26 24 0x58 0 0 0x20000))]

theorem test_decodeEngines : wordsEngines.all reads = true := by decide +kernel

/-- Anvil: words of the encoding tables. -/
def wordsAnvil : List (List Word × Instr) := [
  ([0x1C200301, 0x1800000A, 0x00000014], .wld (lf 0 8 10 0 0x18 0 0 0x14)),
  ([0x1C000305, 0x00000000, 0x00000000], .wswp (lf 0 0 0 0 0x0 0 0 0x0)),
  ([0x1C000309, 0x00000010, 0x00023F00], .mma (lf 0 0 16 0 0 0 0 0x23F00)),
  ([0x1C14070D, 0x08000014, 0x00403F00], .mms (lf 1 5 20 0 8 0 0 0x403F00)),
  ([0x1C140711, 0x18001614, 0x02023F00], .mmg (lf 1 5 20 22 0x18 0 0 0x2023f00)),
  ([0x1C003F15, 0x00000000, 0x00000000], .accz (lf 15 0 0 0 0x0 0 0 0x0)),
  ([0x1C0CA319, 0x82400000, 0x00000508], .accr (lf 40 3 0 0 0x82 4 0 0x508)),
  ([0x1C001B19, 0x01F00000, 0x00000000], .accrSt (lf 6 0 0 0 0x1 15 0 0x0)),
  ([0x1C140F1D, 0x40400008, 0x00000000], .accw (lf 3 5 8 0 0x40 4 0 0x0)),
  ([0x1C200B21, 0x1800000C, 0x00103F00], .accs (lf 2 8 12 0 0x18 0 0 0x103F00)),
  ([0x1C200F27, 0x34000C0A, 0x00000000, 0x007F0FFF, 0x00000002], .mvb (lf 3 8 10 12 0x34 0 0 0) 0x2007F0FFF),
  ([0x1CFC0F29, 0x00000000, 0x00000000], .accm (lf 3 63 0 0 0x0 0 0 0x0))]

theorem test_decodeAnvil : wordsAnvil.all reads = true := by decide +kernel

/-- Rings: words of the encoding tables. -/
def wordsRings : List (List Word × Instr) := [
  ([0x1C201341, 0x00000000, 0x00000002], .rgset (lf 4 8 0 0 0 0 0 2)),
  ([0x1C585345, 0x5840181A, 0x00070002], .rrs (lf 20 22 26 24 0x58 4 0 0x70002)),
  ([0x1C807B49, 0x10F01800, 0x01000000], .rag (lf 30 32 0 24 0x10 15 0 0x1000000)),
  ([0x1C807B4D, 0x10101800, 0x00070022], .rar (lf 30 32 0 24 0x10 1 0 0x70022)),
  ([0x1C807B51, 0x18F01800, 0x0007FFC2], .rbc (lf 30 32 0 24 0x18 15 0 0x7ffc2)),
  ([0x1C800355, 0x18F01800, 0x00090001], .rho (lf 0 32 0 24 0x18 15 0 0x90001)),
  ([0x1C007B55, 0x50F0181A, 0x00090081], .rhoRecv (lf 30 0 26 24 0x50 15 0 0x90081)),
  ([0x1C00AB59, 0x00300000, 0x00070002], .rstat (lf 42 0 0 0 0 3 0 0x70002)),
  ([0x1C00AB59, 0x01300000, 0x00000002], .rstatGrp (lf 42 0 0 0 0x1 3 0 0x2))]

theorem test_decodeRings : wordsRings.all reads = true := by decide +kernel

/-- System: words of the encoding tables. -/
def wordsSystem : List (List Word × Instr) := [
  ([0x1C201381, 0x00000000, 0x00000003], .launch (lf 4 8 0 0 0 0 0 3)),
  ([0x1C180385, 0x00000000, 0x00000012], .evnt (lf 0 6 0 0 0 0 0 0x12)),
  ([0x1C002B89, 0x00300000, 0x00000003], .pmc (lf 10 0 0 0 0x0 3 0 0x3)),
  ([0x1C20038D, 0x1C000C0A, 0x00000001], .atci (lf 0 8 10 12 0x1C 0 0 1)),
  ([0x1C201391, 0x00000000, 0x00000000], .ctxs (lf 4 8 0 0 0 0 0 0)),
  ([0x1C201395, 0x00000000, 0x00000000], .ctxr (lf 4 8 0 0 0x0 0 0 0x0)),
  ([0x1C000399, 0x00000000, 0x00000009], .halt (lf 0 0 0 0 0x0 0 0 0x9)),
  ([0x1C00039D, 0x00000000, 0x00000000], .ppt (lf 0 0 0 0 0 0 0 0))]

theorem test_decodeSystem : wordsSystem.all reads = true := by decide +kernel
/-! ### Well-formedness: an ill-formed term for every check -/

/-- Well formed, and its neighbours are not. -/
def onlyFirst : List Instr → Bool
  | i :: l => i.wf && l.all fun j => !j.wf
  | [] => false

/-- G = 15; U = 1 on a guarded instruction and on one that is not uniform; a type, an M bit and an IMM bit that the instruction does not
have (R29 to R32, R38, R39). -/
theorem test_wfHeader : onlyFirst [
    .addLong (lf 4 6 8 0 0 0 0 0), .addLong { lf 4 6 8 0 0 0 0 0 with g := 15 }, .addLong { lf 4 6 8 0 0 0 0 0 with u := true, g := 3 },
    .cmp { lf 2 6 8 0 0 0 0 0 with u := true }, .addLong (lf 4 6 8 0 0 4 0 0), .addLong (lf 4 6 8 0 1 0 0 0),
    .addLong (lf 4 6 8 0 0 0 0 1), .bra 15 0, .call 15 0, .waitm (lf 0 1 0 0 0 0 0 1), .sleep (lf 0 0 4 0 0 0 0 1),
    .nopLong (lf 0 0 0 0 0 0 0 1)] = true := by decide +kernel

/-- A register beyond g239 that is no queue port, a queue port where none may stand, an odd pair, a misaligned group, a w register beyond
w63, a field that the instruction does not use (R33 to R35, R198). -/
theorem test_wfRegisters : onlyFirst [
    .movLong (lf 251 239 0 0 0 15 0 0), .movLong (lf 252 4 0 0 0 15 0 0), .movLong (lf 4 4 1 0 0 15 0 0), .movLong (lf 5 4 0 0 0 3 0 0),
    .movLong (lf 4 240 0 0 0 3 0 0), .addLong { lf 64 6 8 0 0 0 0 0 with u := true }, .ld (lf 240 4 0 0 0 15 0 0),
    .ld (lf 6 4 0 0 0x80 15 0 0), .ld (lf 6 5 0 0 0 15 0 0), .mulw (sf 3 4 5), .xchLong (lf 240 4 0 0 0 15 0 0)] = true := by
  decide +kernel

/-- A predicate beyond p7, a mask beyond 11, a w register beyond w63 or odd for a pair, a convergence register beyond 7, a tile beyond 15, a
buffer beyond 63, a special register that does not exist or of another width (Tables 2-6, 5-2). -/
theorem test_wfNames : onlyFirst [
    .plop (lf 7 7 7 7 0 0 0 0xFF), .plop (lf 8 0 0 0 0 0 0 0), .plop (lf 0 0 0 8 0 0 0 0), .join (lf 12 0 0 0 0 0 0 0),
    .waitm (lf 0 12 0 0 0 0 0 0), .mget (lf 64 0 0 0 0 0 0 0), .redwx (lf 5 9 0 0 0x80 1 0 0), .csign (lf 0 8 0 0 0x80 0 0 1),
    .accz (lf 16 0 0 0 0 0 0 0), .buff (lf 0 64 0 0 0 0 0 0), .feset (lf 240 0 0 0 0 0 0 0), .movs (lf 4 0 0 0 0 15 0 0x16),
    .movs (lf 4 0 0 0 0 15 0 0x0C)] = true := by decide +kernel

/-- An FE bit on an operand that is no source register (R37). -/
theorem test_wfFullEmpty : onlyFirst [
    .addLong (lf 4 6 8 0 0 0 3 0), .addLong (lf 4 6 8 0 0 0 4 0), .movLong (lf 4 240 0 0 0 15 1 0),
    .addLong { lf 4 6 8 0 0 0 1 0 with u := true }, .ld (lf 8 4 0 0 0 15 4 0), .scanLong (lf 7 6 0 0 0 0 1 0)] = true := by decide +kernel

/-- The further conditions of the encoding tables: an immediate for both B and C, a rounding mode of 5, an order or a scope that the access does not
have, an access mode, a type of an atomic, a SEXT of no bit, an empty LEAVE, a WAITC of no counter, a PUTN of nothing, a literal without its identity
code, a partner that is the lane itself, rows of MMA beyond 64, a block format without exponents, a collective of operation 3. -/
theorem test_wfConditions : onlyFirst [
    .madLong (lf 4 6 0 8 0x80 0 0 5), .madLong (lf 4 6 0 0 0xC0 0 0 5), .faddLong (lf 4 6 8 0 5 4 0 0), .ld (lf 8 4 0 0 2 15 0 0),
    .ld (lf 8 4 0 0 0x30 15 0 0), .ld (lf 8 4 0 6 0 15 0 0), .ld (lf 8 4 0 2 0x40 15 0 0), .ld (lf 8 4 0 0 0 0 0 0), .atom (lf 8 4 6 7 0 0 0 0),
    .atom (lf 8 4 6 9 0 1 0 0), .cas (lf 8 4 6 7 0x40 1 0 0), .fence (lf 0 0 0 0 0x10 0 0 0), .sext (lf 4 6 0 0 0 0 0 0), .sext (lf 4 6 0 0 0 0 0 33),
    .leave (lf 0 0 0 0 0 0 0 0), .waitc (lf 0 0 0 0 0 0 0 0), .putn (lf 8 10 12 14 0x20 0 0 0), .putn (lf 8 10 12 14 0x18 0 0 1), .xchLong (lf 7 6 0 0 0x80 15 0 1),
    .xchLongLit (lf 7 6 0 0 0 15 0 1) 5, .xlane (lf 6 4 0 0 1 15 0 0), .mma (lf 0 0 16 0 0 0 0 0x23F01), .wld (lf 0 8 0 0 0 0 0 4),
    .mma (lf 0 0 16 0 0 0 0 0x30000), .flsh (lf 0 0 0 0 0 0 0 0), .pref (lf 0 4 0 0 0x18 0 0 0), .vote (lf 2 5 0 0 3 0 0 0), .rrs (lf 20 22 0 24 0 4 0 0x30),
    .rho (lf 0 32 4 24 0x40 15 0 0), .accs (lf 2 8 12 0 0 0 0 0xA0000), .pmc (lf 10 0 0 0 0 3 0 10), .atci (lf 0 8 10 0 0x13 0 0 0),
    .atci (lf 0 8 10 0 8 0 0 0)] = true := by decide +kernel

/-- Forms that an opcode does not have, literal fields, and rows of one opcode that stand for one another's words (R41, R42, R45). -/
theorem test_wfForms : onlyFirst [
    .moviLit (sf 7 0 0) 0xFFFFFFFF, .moviLit (sf 7 0 1) 0, .moviLit (sf 7 1 0) 0, .moviLit (sf 7 0 0) 0x100000000, .addLit (sf 4 6 1) 5,
    .moviLongLit (lf 8 0 0 0 0 15 0 0) 0, .cpy (lf 6 4 0 0 0x80 0 0 0) 0x40000000000000, .mvb (lf 3 8 10 0 1 0 0 0) 0,
    .idemOpen (lf 0 0 0 0 1 0 0 0), .idemClose (lf 0 0 0 0 0 0 0 0), .bufs (lf 6 5 0 0 1 0 0 0), .bufsQ (lf 6 5 0 0 0 0 0 0),
    .accr (lf 6 0 0 0 1 15 0 0), .accrSt (lf 8 3 4 0 0 4 0 0), .rho (lf 30 0 0 24 0 15 0 0x80), .rhoRecv (lf 0 32 0 24 0 15 0 0),
    .rstat (lf 42 0 0 0 1 3 0 0), .rstatGrp (lf 42 0 0 0 0 3 0 0)] = true := by decide +kernel

/-! ### Single steps -/

/-- The translations of the base machine's TLB and translation cache: 1 GiB of class T at 0, a page of class N at 2^48 and one of class B
after it. -/
def basePages : List Trans := [
  { asid := 1, vbase := 0, size := 0x40000000, pbase := 0, cls := 0, r := true, w := true, x := true },
  { asid := 1, vbase := 0x1000000000000, size := 65536, pbase := 0x40000000, cls := 2, r := true, w := true },
  { asid := 1, vbase := 0x1000000010000, size := 65536, pbase := 0x40010000, cls := 3, r := true, w := true }]

/-- A machine at clk 10: on core 0 of die 0 a cohort of 4 warps with 240 registers and 16 tiles, of a context with ASID 1 and a
handler at 0x8000; lane 0 has begun a run of the threads `ts` at 0x1000. Its window is at 2^40, with 64 KiB of the die's cellar. -/
def base (ts : List Nat) (g : Nat → List (Nat × Nat)) : State :=
  { State.reset with
    clk := 10
    pkgs := [(0, { powered := true, ready := true, phase := 4, lqEn := true, lqBase := 0x4000 })]
    dies := [(0, { ok := true, tc := basePages, spans := [{ launch := 1, base := 0x10000, bytes := 0x10000, asid := 1 }],
                   region := [(0, { valid := true, asid := 1, limit := 0x3F800000, share := 0x3F800000, bshare := 0x3F800000 })] })]
    cores := [(0, { cohort := some { launch := 1, warps := 4, r := 240, tiles := 16, window := 0x10000000000,
                                     ctx := { asid := 1, root := 0x1000, handler := 0x8000, hdata := 0x1122334455667788 } },
                    tlb := basePages })]
    lanes := [(0, { run := some { pc := 0x1000, threads := ts, clk := 10, begun := 10, warp := ts.headD 0 / 32 } })]
    threads := ts.map fun t => (t, { pc := 0x1000, g := (g t).map fun e => (e.1, { v := BitVec.ofNat 32 e.2 }) })
    mem := memWrite (onePage []) 0x4008 [1] }

/-- The machine of one thread in slot 0 with the registers `g`. -/
def one (g : List (Nat × Nat)) : State := base [0] fun _ => g

/-- What a property of the next state is. -/
def after (i : Instr) (s : State) (f : State → Bool) : Bool :=
  match exec i s with
  | .next s' => f s'
  | _ => false

/-- Slot 0 executes the instruction on the registers `g`; register `r` then holds `v`, the flags are `fl`, and the program counter has
advanced by `n`. -/
def gives (i : Instr) (n : Nat) (g : List (Nat × Nat)) (r v fl : Nat) : Bool :=
  after i (one g) fun s => (s.greg 0 r).v.toNat == v && (s.greg 0 r).full && (s.thread 0).fstat.toNat == fl && (s.thread 0).pc.toNat == 0x1000 + n

/-- The results at the edges of spec/06. -/
theorem test_integerEdges :
    (gives (.div (sf 5 3 4)) 4 [(3, 7), (4, 0)] 5 0xFFFFFFFF 0 && gives (.rem (sf 5 3 4)) 4 [(3, 7), (4, 0)] 5 7 0 &&
     gives (.div (sf 5 3 4)) 4 [(3, 0x80000000), (4, 0xFFFFFFFF)] 5 0x80000000 0 && gives (.rem (sf 5 3 4)) 4 [(3, 0x80000000), (4, 0xFFFFFFFF)] 5 0 0 &&
     gives (.div (sf 5 3 4)) 4 [(3, 0xFFFFFFF9), (4, 2)] 5 0xFFFFFFFD 0 && gives (.rem (sf 5 3 4)) 4 [(3, 0xFFFFFFF9), (4, 2)] 5 0xFFFFFFFF 0 &&
     gives (.abs (sf 5 3 0)) 4 [(3, 0x80000000)] 5 0x80000000 0 && gives (.absLong (lf 5 3 0 0 0x10 0 0 0)) 12 [(3, 0x80000000)] 5 0x7FFFFFFF 0 &&
     gives (.addLong (lf 5 3 4 0 0x10 0 0 0)) 12 [(3, 0x7FFFFFF0), (4, 0x100)] 5 0x7FFFFFFF 0 &&
     gives (.addLong (lf 5 3 4 0 0x10 11 0 0)) 12 [(3, 0xFF018010), (4, 0x01018010)] 5 0xFF02FF20 0 &&
     gives (.mulh (sf 5 3 4)) 4 [(3, 0xFFFFFFFF), (4, 2)] 5 0xFFFFFFFF 0 && gives (.mulhLong (lf 5 3 4 0 0 1 0 0)) 12 [(3, 0xFFFFFFFF), (4, 2)] 5 1 0) = true := by
  decide +kernel

theorem test_bitEdges :
    (gives (.shl (sf 5 3 4)) 4 [(3, 1), (4, 33)] 5 2 0 && gives (.sra (sf 5 3 4)) 4 [(3, 0x80000000), (4, 31)] 5 0xFFFFFFFF 0 &&
     gives (.clz (sf 5 3 0)) 4 [(3, 0)] 5 32 0 && gives (.ctz (sf 5 3 0)) 4 [(3, 0)] 5 32 0 &&
     gives (.bfx (lf 5 3 0 0 0x80 0 0 0x0408)) 12 [(3, 0xF00)] 5 0xFFFFFFFF 0 && gives (.bfx (lf 5 3 0 0 0x80 1 0 0x0408)) 12 [(3, 0xF00)] 5 0xF 0 &&
     gives (.bfx (lf 5 3 0 0 0x80 1 0 0x2814)) 12 [(3, 0xABCD1234)] 5 0xABC 0 &&
     gives (.bfi (lf 5 3 4 0 0x40 15 0 0x0304)) 12 [(3, 0xFFFFFFFF), (4, 5)] 5 0xFFFFFFDF 0 &&
     gives (.sext (lf 5 3 0 0 0 0 0 8)) 12 [(3, 0x80)] 5 0xFFFFFF80 0 &&
     gives (.permb (lf 5 3 4 0 0x40 15 0 0x8F10)) 12 [(3, 0x44332211), (4, 0x88776655)] 5 0xFF2211 0 &&
     gives (.dp4Long (lf 5 3 4 6 0 10 0 0)) 12 [(3, 0x80FF0102), (4, 0x80020304), (6, 10)] 5 0x4013 0) = true := by decide +kernel

/-- The carry chain and the element address of spec/06. -/
theorem test_carryAndAddress :
    (after (.addc (lf 4 0 2 0 9 1 0 0)) (one [(0, 0xFFFFFFF0), (2, 0x20)]) (fun s => (s.greg 0 4).v == 0x10 && s.pred 0 1) &&
     gives (.madLong (lf 10 6 0 7 0x80 0 0 64)) 12 [(6, 5), (7, 7)] 10 327 0 &&
     gives (.lea (lf 12 8 10 0 2 1 0 0)) 12 [(8, 0x10000000), (9, 0x40), (10, 327)] 12 0x1000051C 0 &&
     gives (.lea (lf 12 8 10 0 2 1 0 0)) 12 [(8, 0x10000000), (9, 0x40), (10, 327)] 13 0x40 0) = true := by decide +kernel

/-- The results at the edges of spec/07; the flags are NV 1, DZ 2, OF 4, UF 8, NX 16. -/
theorem test_floatEdges :
    (gives (.fadd (sf 5 3 4)) 4 [(3, 0x3F800000), (4, 0x33800000)] 5 0x3F800000 16 &&
     gives (.faddLong (lf 5 3 4 0 4 4 0 0)) 12 [(3, 0x3F800000), (4, 0x33800000)] 5 0x3F800001 16 &&
     gives (.fmul (sf 5 3 4)) 4 [(3, 0x7F7FFFFF), (4, 0x40000000)] 5 0x7F800000 20 &&
     gives (.fmulLong (lf 5 3 4 0 1 4 0 0)) 12 [(3, 0x7F7FFFFF), (4, 0x40000000)] 5 0x7F7FFFFF 20 &&
     gives (.fsub (sf 5 3 4)) 4 [(3, 0x00800001), (4, 0x00800000)] 5 1 0 && gives (.fsubLong (lf 5 3 4 0 8 4 0 0)) 12 [(3, 0x00800001), (4, 0x00800000)] 5 0 24 &&
     gives (.faddLong (lf 5 3 4 0 2 4 0 0)) 12 [(3, 0x3F800000), (4, 0xBF800000)] 5 0x80000000 0 &&
     gives (.fdiv (lf 5 3 4 0 0 4 0 0)) 12 [(3, 0xBF800000), (4, 0)] 5 0xFF800000 2 && gives (.fdiv (lf 5 3 4 0 0 4 0 0)) 12 [(3, 0), (4, 0)] 5 0x7FC00000 1 &&
     gives (.ffmaLong (lf 5 3 4 6 0 4 0 0)) 12 [(3, 0), (4, 0x7F800000), (6, 0x7FC00000)] 5 0x7FC00000 1 &&
     gives (.fadd (sf 5 3 4)) 4 [(3, 0xFFC12345), (4, 0x3F800000)] 5 0x7FC00000 0 &&
     gives (.fmin (sf 5 3 4)) 4 [(3, 0x80000000), (4, 0)] 5 0x80000000 0 && gives (.fmin (sf 5 3 4)) 4 [(3, 0x3F800000), (4, 0x7F800001)] 5 0x3F800000 1) = true := by
  decide +kernel

theorem test_conversionEdges :
    (gives (.fsgn (lf 5 3 4 0 0 4 0 0)) 12 [(3, 0x7FC12345), (4, 0x80000000)] 5 0xFFC12345 0 &&
     gives (.frnd (lf 5 3 0 0 0 4 0 0)) 12 [(3, 0x40200000)] 5 0x40000000 0 && gives (.frnd (lf 5 3 0 0 4 4 0 0)) 12 [(3, 0x40200000)] 5 0x40400000 0 &&
     gives (.fscl (lf 5 3 4 0 0 4 0 0)) 12 [(3, 0x3F800000), (4, 128)] 5 0x7F800000 20 &&
     gives (.fcvt (lf 5 3 4 0 0 5 0 0)) 12 [(3, 0x477FF000), (4, 0x3F800000)] 5 0x3C007C00 20 &&
     gives (.fcvti (lf 5 3 0 0 1 0 0 0)) 12 [(3, 0x4F32D05E)] 5 0x7FFFFFFF 1 && gives (.fcvti (lf 5 3 0 0 0 0 0 0)) 12 [(3, 0xC0200000)] 5 0xFFFFFFFE 16 &&
     gives (.fcvti (lf 5 3 0 0 0 0 0 0)) 12 [(3, 0x7FC00000)] 5 0 1 && gives (.icvtf (lf 5 3 0 0 0 4 0 0)) 12 [(3, 16777217)] 5 0x4B800000 16 &&
     gives (.pack8 (lf 4 5 6 7 0 12 0 0)) 12 [(5, 0x43960000), (6, 0xBA83126F), (7, 0)] 4 0x8179 24 &&
     gives (.pack8 (lf 4 5 6 7 0 12 0 0)) 12 [(5, 0x43FA0000), (6, 0xBA83126F), (7, 0)] 4 0x817F 28 &&
     gives (.pack8 (lf 4 5 6 7 0x10 12 0 0)) 12 [(5, 0x43FA0000), (6, 0xBA83126F), (7, 0)] 4 0x817E 28) = true := by decide +kernel

/-- The pass of spec/08: slots 0, 1, 3 and 4 with g6 = 10, 20, 30, 40 and g9 = 7, 3, 3, 1. -/
def worked : State := base [0, 1, 3, 4] fun t =>
  if t = 0 then [(6, 10), (9, 7)] else if t = 1 then [(6, 20), (9, 3)] else if t = 3 then [(6, 30), (9, 3)] else [(6, 40), (9, 1)]

/-- What the four slots of the pass receive. -/
def passGives (i : Instr) (r : Nat) (v : List Nat) : Bool :=
  after i worked fun s => [0, 1, 3, 4].map (fun t => (s.greg t r).v.toNat) == v

theorem test_workedPass :
    (passGives (.xch (sf 7 6 1)) 7 [0, 10, 0, 30] && passGives (.xchLongLit (lf 7 6 0 0 0xA0 15 0 1) 99) 7 [99, 10, 99, 30] &&
     passGives (.bcst (sf 7 6 4)) 7 [40, 40, 40, 40] && passGives (.scan (sf 7 6 0)) 7 [10, 30, 60, 100] &&
     passGives (.scanLong (lf 7 6 0 0 8 0 0 0)) 7 [0, 10, 30, 60] && passGives (.matchEq (sf 7 9 0)) 7 [1, 0xA, 0xA, 0x10] &&
     passGives (.vote (lf 7 7 0 0 2 0 0 0)) 7 [0x1B, 0x1B, 0x1B, 0x1B] &&
     after (.redwx (lf 4 9 0 0 0x80 1 0 0)) worked (fun s => s.wreg 0 4 == 1 && s.wreg 0 5 == 4)) = true := by decide +kernel

/-! ### A state and operands for every statement with hypotheses -/

/-- `Turn`, to compute with. -/
def turnB (s : State) (x : Ins) (t : Nat) : Bool :=
  (match (s.lane s.cur).run with
   | some r => (match r.threads with
     | u :: rest => u == t && r.ports.isEmpty && !rest.contains t
     | [] => false)
   | none => false) && s.alive t && guardTrue s x t

theorem turn_of {s : State} {x : Ins} {t : Nat} (h : turnB s x t = true) : Turn s x t := by
  simp only [turnB, Bool.and_eq_true] at h
  obtain ⟨⟨h, ha⟩, hg⟩ := h
  refine ⟨?_, ha, hg⟩
  split at h
  · next r hr =>
    split at h
    · next u rest hl =>
      simp only [Bool.and_eq_true, beq_iff_eq, Bool.not_eq_true', List.isEmpty_iff] at h
      exact ⟨r, rest, hr, by rw [hl, h.1.1], h.1.2, by simpa using h.2⟩
    · cases h
  · cases h

/-- `Alone`, to compute with. -/
def aloneB (s : State) (x : Ins) (t : Nat) : Bool :=
  (match (s.lane s.cur).run with
   | some r => r.threads == [t] && r.ports.isEmpty && r.warp == t / 32 && r.done == 0 && r.count == 0 && r.ends.isEmpty
   | none => false) && s.alive t && guardTrue s x t && decide ((s.thread t).hold = .none)

theorem alone_of {s : State} {x : Ins} {t : Nat} (h : aloneB s x t = true) : Alone s x t := by
  simp only [aloneB, Bool.and_eq_true, decide_eq_true_eq] at h
  obtain ⟨⟨⟨h, ha⟩, hg⟩, hf⟩ := h
  refine ⟨?_, ha, hg, hf⟩
  split at h
  · next r hr =>
    simp only [Bool.and_eq_true, beq_iff_eq, List.isEmpty_iff] at h
    exact ⟨r, hr, h.1.1.1.1.1, h.1.1.1.1.2, h.1.1.1.2, h.1.1.2, h.1.2, h.2⟩
  · cases h

/-- `Whole`, to compute with. -/
def wholeB (s : State) (x : Ins) (ps : List Nat) : Bool :=
  (match (s.lane s.cur).run with
   | some r => r.threads == ps
   | none => false) && !ps.isEmpty && decide ps.Nodup &&
    ps.all fun u => decide (u / 32 = ps.headD 0 / 32) && s.alive u && guardTrue s x u

theorem whole_of {s : State} {x : Ins} {ps : List Nat} (h : wholeB s x ps = true) : Whole s x ps := by
  simp only [wholeB, Bool.and_eq_true, decide_eq_true_eq, List.all_eq_true] at h
  obtain ⟨⟨⟨h, he⟩, hn⟩, hu⟩ := h
  refine ⟨?_, by simpa using he, hn, fun u m => (hu u m).1.1, fun u m => (hu u m).1.2, fun u m => (hu u m).2⟩
  split at h
  · next r hr => exact ⟨r, hr, by simpa using h⟩
  · cases h

/-- The operands are read and have a property. -/
def reading (s : State) (x : Ins) (t : Nat) (p : Vals → Bool) : Bool :=
  match gather s x t with
  | .vals v => p v
  | _ => false

theorem reading_of {s : State} {x : Ins} {t : Nat} {p : Vals → Bool} (h : reading s x t p = true) :
    ∃ v, gather s x t = .vals v ∧ p v = true := by
  simp only [reading] at h
  split at h
  · next v hv => exact ⟨v, hv, h⟩
  · cases h

/-- A thread's turn and its operands, of which `p` holds. -/
abbrev Ready (s : State) (x : Ins) (t : Nat) (p : Vals → Bool) : Prop := Turn s x t ∧ ∃ v, gather s x t = .vals v ∧ p v = true

theorem ready_of {s : State} {x : Ins} {t : Nat} {p : Vals → Bool} (h : (turnB s x t && reading s x t p) = true) : Ready s x t p :=
  ⟨turn_of (Bool.and_eq_true _ _ ▸ h).1, reading_of (Bool.and_eq_true _ _ ▸ h).2⟩

/-- A lone thread and its operands. -/
abbrev ReadyAlone (s : State) (x : Ins) (t : Nat) (p : Vals → Bool) : Prop := Alone s x t ∧ ∃ v, gather s x t = .vals v ∧ p v = true

theorem readyAlone_of {s : State} {x : Ins} {t : Nat} {p : Vals → Bool} (h : (aloneB s x t && reading s x t p) = true) :
    ReadyAlone s x t p := ⟨alone_of (Bool.and_eq_true _ _ ▸ h).1, reading_of (Bool.and_eq_true _ _ ▸ h).2⟩

/-- A sub-run and the operands of its first thread. -/
abbrev ReadyWhole (s : State) (x : Ins) (ps : List Nat) (p : Vals → Bool) : Prop :=
  Whole s x ps ∧ ∃ v, gather s x (ps.headD 0) = .vals v ∧ p v = true

theorem readyWhole_of {s : State} {x : Ins} {ps : List Nat} {p : Vals → Bool}
    (h : (wholeB s x ps && reading s x (ps.headD 0) p) = true) : ReadyWhole s x ps p :=
  ⟨whole_of (Bool.and_eq_true _ _ ▸ h).1, reading_of (Bool.and_eq_true _ _ ▸ h).2⟩

/-- The long form of an opcode. -/
abbrev xl (o : Opc) (f : Long) : Ins := Ins.ofBody o (.long f)

/-! #### Encoding and steps -/

theorem witness_decodeOfEncode : (Instr.mvb (lf 3 8 10 12 0x34 0 0 0) 0x2007F0FFF).parts.isSome = true ∧
    (Instr.mvb (lf 3 8 10 12 0x34 0 0 0) 0x2007F0FFF).wf = true ∧ (Instr.bra 14 0x3FFFA).parts.isSome = true ∧ (Instr.bra 14 0x3FFFA).wf = true := by
  decide +kernel

theorem witness_encodeOfDecode : decode [0xA0, 0x14, 0x06, 0x04, 0x55] = .ok (.add (sf 5 3 4), [0x55]) := by decide +kernel

theorem witness_undefinedWords : Opc.ofCode ((0x3FC : Word).extractLsb' 2 8).toNat = none ∧
    Opc.ofCode ((0x06 : Word).extractLsb' 2 8).toNat = some .bra ∧ Opc.lenOk .bra ((0x06 : Word).extractLsb' 0 2) = false := by decide +kernel

/-- The machine about to run ADD g5, g3, g4 as the first instruction. -/
def placed : State := State.reset.withFetchWord 32 0x040614A0

theorem witness_stepRuns : placed.ev = none ∧ pick (wake placed) = .slice 0 ∧
    (((wake placed).lane 0).run.map fun r => r.pc) = some 0x3000 ∧
    (fetchInstr { wake placed with cur := 0 } (coreOfLane 0) 0x3000 ((wake placed).inHandler 0)).1 = .ok (.add (sf 5 3 4)) ∧
    pick (wake { State.reset with agenda := [(0, .heartbeat 0)] }) = .happen (.heartbeat 0) := by decide +kernel

theorem test_stepRunsThePlacedInstruction : (match step placed with
    | .next s => (s.thread 0).pc == 0x3004 && (s.greg 0 5).full
    | _ => false) = true := by decide +kernel

/-! #### Computing -/

theorem witness_shortForms : (sf 6 3 4).u = false ∧ (∀ o ∈ [Opc.add, .mulw, .dp4, .and, .ctz], turnB (one [(3, 7), (4, 9)]) (Ins.ofBody o (.short (sf 6 3 4))) 0 = true) := by
  decide +kernel

theorem witness_computing :
    (computes (.addLong (lf 5 3 4 0 0 0 0 0))).isSome = true ∧ pushOf (xl .add (lf 5 3 4 0 0 0 0 0)) = none ∧
    Ready (one [(3, 7), (4, 9)]) (xl .add (lf 5 3 4 0 0 0 0 0)) 0 (fun v => !v.popped && v.a == 7 && v.b == 9) ∧
    pushOf (xl .add (lf 247 3 4 0 0 0 0 0)) = some 7 ∧
    Ready (one []) (xl .add (lf 247 3 4 0 0 0 0 0)) 0 (fun v => pushRoom v.st 0 7) :=
  ⟨rfl, by decide +kernel, ready_of (by decide +kernel), by decide +kernel, ready_of (by decide +kernel)⟩

theorem witness_uniform : (computes (.add { sf 5 3 4 with u := true })).isSome = true ∧
    ReadyWhole (base [0, 31] fun _ => []) (Ins.ofBody .add (.short { sf 5 3 4 with u := true })) [0, 31] (fun _ => true) :=
  ⟨rfl, readyWhole_of (by decide +kernel)⟩

theorem witness_memory : Memory.wf [(0x10, 1), (0x2000000000000, 0xFF)] = true ∧ (∀ a, memGet [] a = memGet [] a) ∧
    State.MemOk (base [0] fun _ => []) := ⟨by decide +kernel, fun _ => rfl, by decide +kernel, by decide +kernel, by decide +kernel⟩

theorem witness_fetch : (placed.core 0).icache = [] ∧
    (match xlateNow placed (dieOfCore 0) (placed.cohort 0).ctx.asid (placed.cohort 0).ctx.root (placed.cohort 0).launch
        (placed.cohort 0).window.toNat 0x3000 4 with
      | .ok p => !badLine placed (p.pa / 64) && (unreach placed 0 (homeDie p.pa)).isNone
      | _ => false) = true ∧
    (match fetchWords placed 0 0x3000 5 with
      | (.ok ws, _) => (match decode (ws.flatMap wordBytes) with
        | .ok (i, _) => (match i.ins? with
          | some x => !x.o.sv && decide (insTopG x ≤ (placed.cohort 0).r) && !badTile placed 0 x
          | none => false)
        | _ => false)
      | _ => false) = true := by decide +kernel

/-! #### Operands, control flow and exceptions -/

/-- One thread, whose register g3 is empty. -/
def emptyG3 : State := { one [] with threads := [(0, { pc := 0x1000, g := [(3, { full := false, tag := 9 })] })] }

theorem witness_emptyRegister : Turn emptyG3 (xl .add (lf 5 3 4 0 0 0 1 0)) 0 ∧ RegRef.g 3 true ∈ insReads (xl .add (lf 5 3 4 0 0 0 1 0)) ∧
    (∀ p, RegRef.q p ∉ insReads (xl .add (lf 5 3 4 0 0 0 1 0))) ∧ pushOf (xl .add (lf 5 3 4 0 0 0 1 0)) = none ∧ (emptyG3.greg 0 3).full = false :=
  ⟨turn_of (by decide +kernel), by decide +kernel, fun p => by simp [show insReads (xl .add (lf 5 3 4 0 0 0 1 0)) = [.g 3 true, .g 4 false] from rfl],
   by decide +kernel, by decide +kernel⟩

/-- One thread, on a core whose port `k` holds `n` entries that were pushed in clk 5. -/
def queued (k n : Nat) : State := (one []).modCore 0 fun c => { c with q := [(k, List.replicate n (7, 5))] }

theorem witness_queuePorts :
    Turn (queued 0 1) (xl .mov (lf 5 240 0 0 0 15 0 0)) 0 ∧ popable (queued 0 1) 0 0 = [(7, 5)] ∧ popable (queued 0 0) 0 0 = [] ∧
    Turn (queued 7 1) (xl .mov (lf 5 247 0 0 0 15 0 0)) 0 ∧ popable (queued 7 1) 0 7 = [(7, 5)] ∧
    Turn (queued 7 63) (xl .mov (lf 247 5 0 0 0 15 0 0)) 0 ∧ pushRoom (queued 7 63) 0 7 = true ∧ pushRoom (queued 7 64) 0 7 = false :=
  ⟨turn_of (by decide +kernel), by decide +kernel, by decide +kernel, turn_of (by decide +kernel), by decide +kernel,
   turn_of (by decide +kernel), by decide +kernel, by decide +kernel⟩

theorem witness_branch : Turn (one []) (Ins.ofBody .bra (.branch 7 0x3FFFA)) 0 ∧
    (let a : Dword := 0x1000 + 4 * (0x3FFFA : BitVec 18).signExtend 64
     a.extractLsb' 0 2 = 0 ∧ a.extractLsb' 56 8 = 0) ∧
    (let a : Dword := 0x1000 + 4 * (0x80000000 : Word).signExtend 64
     a.extractLsb' 56 8 ≠ 0) := ⟨turn_of (by decide +kernel), by decide, by decide⟩

/-- One thread whose return stack lies at 0x20000 and holds `d` entries, the list of targets at 0x1100. -/
def stacked (d : Nat) : State :=
  { one [(5, 1)] with
    warps := [(0, { w := [(60, 0x20000)] })]
    mem := memWrite (memWrite (onePage []) 0x20000 (leBytes 8 d ++ leBytes 8 0x2000)) 0x1100 (leBytes 4 2 ++ leBytes 4 8 ++ leBytes 4 16) }

/-- The check of the stack passes, nothing stands in its way, and what its depth and the entry at an offset hold have a property,
with what is wrong with the entry's line. -/
def stackReady (s : State) (off : Nat) (f : Nat → Nat → Option Nat → Bool) : Bool :=
  match stackCheck s 0 with
  | (.ok p, 0) =>
    let o := ownRead s 0 p (stackArea s 0) 8
    let q : Place := { p with pa := p.pa + off }
    !stackBusy s 0 p && f o.2 (ownRead o.1 0 q (stackArea s 0 + BitVec.ofNat 64 off) 8).2 (lineFault o.1 q.cls q.pa)
  | _ => false

/-- The entry and the depth of a call on a stack of `d` entries can be stored. -/
def stackStores (s : State) (d : Nat) : Bool :=
  match stackCheck s 0 with
  | (.ok p, 0) =>
    let a := stackArea s 0
    match stackStore (ownRead s 0 p a 8).1 0 p a (8 + 8 * d) 0x1004 with
    | some s1 => (stackStore s1 0 p a 0 (d + 1)).isSome
    | none => false
  | _ => false

theorem witness_callAndReturn : Turn (stacked 126) (Ins.ofBody .call (.branch 7 3)) 0 ∧ badTarget (0x1000 + 4 * 3) = false ∧
    badTarget (0x1000 + 4 * (0x80000000 : Word).signExtend 64) = true ∧
    (stackReady (stacked 126) 1016 (fun d _ c => d == 126 && c.isNone) && stackStores (stacked 126) 126 &&
      stackReady (stacked 127) 0 (fun d _ _ => d == 127) &&
      stackReady { stacked 7 with metaw := [(0x20040 / 64, poisonWord)] } 64 (fun d _ c => d == 7 && c == some 17)) = true ∧
    Turn (stacked 1) (xl .ret (lf 0 0 0 0 0 0 0 0)) 0 ∧
    (stackReady (stacked 1) 8 (fun d e c => d == 1 && !badTarget (BitVec.ofNat 64 e) && c.isNone) &&
      stackReady (stacked 0) 0 (fun d _ _ => d == 0) && stackReady (stacked 128) 0 (fun d _ _ => d == 128) &&
      stackReady { stacked 8 with metaw := [(0x20040 / 64, poisonWord)] } 64 (fun d _ c => d == 8 && c == some 17) &&
      stackReady { stacked 1 with mem := memWrite (stacked 1).mem 0x20008 [2] } 8 (fun d e _ => d == 1 && badTarget (BitVec.ofNat 64 e))) = true :=
  ⟨turn_of (by decide +kernel), by decide, by decide, by decide +kernel, turn_of (by decide +kernel), by decide +kernel⟩

/-- The list of targets of a BRX at 0x1100 has its length, and an entry of it, as given. -/
def listHolds (s : State) (n : Nat) (e : Nat × Nat) : Bool :=
  match checkAccess s .ld 0 0x1100 4 with
  | .ok p =>
    let l := ownRead s 0 p 0x1100 4
    let word : Dword := 0x1100 + BitVec.ofNat 64 (4 + 4 * e.1)
    (earlier s { thread := 0, cls := p.cls, pa := p.pa, size := 4 }).isEmpty && l.2 == n && match checkAccess l.1 .ld 0 word 4 with
    | .ok q => (earlier l.1 { thread := 0, cls := q.cls, pa := q.pa, size := 4 }).isEmpty && (ownRead l.1 0 q word 4).2 == e.2
    | _ => false
  | _ => false

/-- A store of thread 0 to its list of targets is under way. -/
def listStored : State := { stacked 0 with nextId := 6, reqs := [(5, { kind := .st, thread := 0, pa := 0x1100, size := 4, stage := 1, data := leBytes 4 3 })] }

theorem witness_indexedBranch : Ready (stacked 0) (xl .brx (lf 0 5 0 0 0 0 0 0x40)) 0 (fun v => v.a == 1 && !v.popped) ∧
    listHolds (stacked 0) 2 (1, 16) = true ∧ badTarget (0x1000 + 4 * (16 : Word).signExtend 64) = false ∧
    (earlier listStored { thread := 0, cls := 0, pa := 0x1100, size := 4 }).isEmpty = false ∧
    (match checkAccess listStored .ld 0 0x1100 4 with
     | .ok p => decide (p.cls = 0 ∧ p.pa = 0x1100)
     | _ => false) = true :=
  ⟨ready_of (by decide +kernel), by decide +kernel, by decide, by decide +kernel, by decide +kernel⟩

theorem witness_exit : Alone (one []) (xl .exit (lf 0 0 0 0 0 0 0 0)) 0 ∧ (one []).inHandler 0 = false :=
  ⟨alone_of (by decide +kernel), by decide +kernel⟩

/-- Thread 1 of a warp whose mask 3 has the members 0 and 1; slot 0 waits at it. -/
def masked (waits : Bool) : State :=
  { base [1] (fun _ => []) with
    warps := [(0, { m := [(3, 3)] })]
    threads := [(0, { pc := 0x1000, hold := if waits then .mask 3 else .none }), (1, { pc := 0x1000 })] }

theorem witness_masks : Alone (masked false) (xl .waitm (lf 0 3 0 0 0 0 0 0)) 1 ∧ Alone (masked true) (xl .join (lf 3 0 0 0 0 0 0 0)) 1 ∧
    ((masked true).mask 0 3).getLsbD 1 = true ∧ ((masked true).mask 0 4).getLsbD 1 = false ∧
    (∀ k < 32, k ≠ 1 → ((masked true).mask 0 3).getLsbD k = true → ((masked true).thread (threadOf 0 k)).hold = .mask 3) ∧
    ¬ (∀ k < 32, k ≠ 1 → ((masked false).mask 0 3).getLsbD k = true → ((masked false).thread (threadOf 0 k)).hold = .mask 3) ∧
    Whole (masked true) (xl .mget (lf 5 3 0 0 0 0 0 0)) [1] :=
  ⟨alone_of (by decide +kernel), alone_of (by decide +kernel), by decide +kernel, by decide +kernel, by decide +kernel, by decide +kernel, whole_of (by decide +kernel)⟩

theorem witness_sleepAndRegions : Ready (one []) (xl .sleep (lf 0 0 0 0 0x80 0 0 0)) 0 (fun v => v.b % 2 ^ 24 == 0) ∧
    Ready (one []) (xl .sleep (lf 0 0 0 0 0x80 0 0 0xFFFFFF)) 0 (fun v => v.b % 2 ^ 24 != 0) ∧
    firstOfRun (one []) = true ∧ Turn (one []) (xl .idem (lf 0 0 0 0 0 0 0 16)) 0 ∧ Alone (one []) (xl .ppt (lf 0 0 0 0 0 0 0 0)) 0 ∧
    ((one []).core 0).preempt = none ∧
    (let s := (one []).modCore 0 fun c => { c with preempt := some 3 }
     Alone s (xl .ppt (lf 0 0 0 0 0 0 0 0)) 0 ∧ (s.core 0).preempt.isSome = true ∧ s.inHandler 0 = false ∧ (s.cohort 0).ctx.handler ≠ 0) :=
  ⟨ready_of (by decide +kernel), ready_of (by decide +kernel), by decide +kernel, turn_of (by decide +kernel), alone_of (by decide +kernel),
   by decide +kernel, alone_of (by decide +kernel), by decide +kernel, by decide +kernel, by decide +kernel⟩

theorem witness_traps : ((one []).warp 0).handler = none ∧ ((one []).cohort (coreOfWarp 0)).ctx.handler ≠ 0 ∧ (one []).pkg 0 ≠ {} ∧
    Alone (one []) (xl .sysc (lf 0 0 0 0 0 0 0 7)) 0 := ⟨by decide +kernel, by decide +kernel, by decide +kernel, alone_of (by decide +kernel)⟩

/-- SYSC 7 enters the handler (R387, R388, R391): $xcause is 7, slot 0, cause SC, w56 and w57 are HDATA. -/
theorem test_sysc : after (.sysc (lf 0 0 0 0 0 0 0 7)) (one []) (fun s => (s.warp 0).xcause == 0x00070022 && (s.warp 0).xpc == 0x1000 &&
    (s.warp 0).xdone == 1 && (s.thread 0).pc == 0x8000 && s.wreg 0 56 == 0x55667788 && s.wreg 0 57 == 0x11223344) = true := by decide +kernel

/-- A warp in its handler, about to return to ADD at 0x3000, which slot 0 has not yet performed. -/
def handling : State :=
  { one [] with
    warps := [(0, { handler := some { cause := 4, pcs := [(0, 0x3000)], replay := 1 }, xpc := 0x3000, xdone := 0 })]
    mem := memWrite (onePage []) 0x3000 [0xA0, 0x14, 0x06, 0x04] }

/-- As `handling`, with the warp's state changed. -/
def handlingAt (f : Warp → Warp) : State := handling.modWarp 0 f

theorem witness_rtt : Turn handling (xl .rtt (lf 0 0 0 0 0 0 0 0)) 0 ∧ (handling.warp 0).handler.isSome = true ∧ badReturn handling 0 false 0x3000 = false ∧
    (match fetchInstr handling 0 (handling.warp 0).xpc true with
     | (.ok i, s2) => i == .add (sf 5 3 4) && !badReturn s2 0 true 0x3004
     | _ => false) = true ∧ (Instr.add (sf 5 3 4)).ins?.isSome = true ∧
    Turn (one []) (xl .rtt (lf 0 0 0 0 0 0 0 0)) 0 ∧ ((one []).warp 0).handler = none ∧
    badReturn (handlingAt fun w => { w with xpc := 0x3002 }) 0 false 0x3002 = true ∧
    (match fetchInstr { handling with mem := memWrite handling.mem 0x3000 [0xFF, 0xFF, 0xFF, 0xFF] } 0 0x3000 true with
     | (.error e, _) => e.cause == 1
     | _ => false) = true ∧
    (let s := (handlingAt fun w => { w with xdone := 1, xpc := 0xFFFFFFFFFFFFFC }).modCore 0 fun c => { c with icache := [(2 ^ 50 - 1, List.replicate 64 0)] }
     badReturn s 0 false 0xFFFFFFFFFFFFFC = false ∧ (match fetchInstr s 0 0xFFFFFFFFFFFFFC true with
       | (.ok .nop, s2) => badReturn s2 0 true 0x100000000000000
       | _ => false) = true) ∧ handling.pkg 0 ≠ {} :=
  ⟨turn_of (by decide +kernel), by decide +kernel, by decide +kernel, by decide +kernel, rfl, turn_of (by decide +kernel), by decide +kernel,
   by decide +kernel, by decide +kernel, by decide +kernel, by decide +kernel⟩

theorem test_rtt : after (.rtt (lf 0 0 0 0 0 0 0 0)) handling (fun s => (s.thread 0).pc == 0x3000 && (s.warp 0).handler.isNone) = true := by
  decide +kernel

/-! #### Moves, special registers and exchanges -/

theorem witness_indexedMoves :
    Ready (one [(3, 239)]) (xl .movx (lf 6 3 0 0 0 15 0 0)) 0 (fun v => v.a == 239) ∧ ((one [(3, 239)]).cohort 0).r = 240 ∧
    Ready (one [(3, 240)]) (xl .movx (lf 6 3 0 0 0 15 0 0)) 0 (fun v => v.a == 240) ∧
    (((one [(3, 239)]).greg 0 239).full = true ∧ ((one [(3, 239)]).greg 0 239).rdy ≤ (one [(3, 239)]).clk) ∧
    (let s := one [(7, 3)]
     let s := s.modThread 0 fun h => { h with g := [(3, { full := false }), (7, { v := 3 })] }
     Ready s (xl .movx (lf 6 7 0 0 0 15 0 0)) 0 (fun v => (s.greg 0 v.a).full == false)) ∧
    Ready (one [(3, 0), (4, 8)]) (xl .movxw (lf 0 3 4 0 0 15 0 0)) 0 (fun v => v.a == 0 && !v.popped) :=
  ⟨ready_of (by decide +kernel), by decide +kernel, ready_of (by decide +kernel), by decide +kernel, ready_of (by decide +kernel), ready_of (by decide +kernel)⟩

theorem witness_specialRegisters :
    Turn (one []) (xl .movs (lf 4 0 0 0 0 15 0 0x20)) 0 ∧ (one []).inHandler 0 = false ∧
    Turn handling (xl .movs (lf 4 0 0 0 0 15 0 0x2B)) 0 ∧ handling.inHandler 0 = true ∧
    Turn (one []) (xl .movs (lf 4 0 0 0 0 3 0 0x10)) 0 ∧
    Ready (one [(5, 0x1F)]) (xl .sets (lf 0 5 0 0 0 15 0 0x0D)) 0 (fun _ => true) ∧
    Ready handling (xl .sets (lf 0 5 0 0 0 15 0 0x15)) 0 (fun _ => true) ∧ ((one []).core 0).cohort.isSome = true :=
  ⟨turn_of (by decide +kernel), by decide +kernel, turn_of (by decide +kernel), by decide +kernel, turn_of (by decide +kernel),
   ready_of (by decide +kernel), ready_of (by decide +kernel), by decide +kernel⟩

/-- $xpc is not to be read outside a handler (R104): cause PV. -/
theorem test_privilegedSpecialRegister : after (.movs (lf 4 0 0 0 0 3 0 0x13)) (one []) (fun s => (s.warp 0).xcause == 2 && (s.thread 0).pc == 0x8000) = true := by
  decide +kernel

theorem witness_fullEmptyAndSlots :
    Turn (one []) (xl .fetest (lf 0 239 0 0 0 0 0 0)) 0 ∧ Turn (one []) (xl .plop (lf 6 7 0 1 0 0 0 0x80)) 0 ∧
    Turn (one []) (xl .feset (lf 5 0 0 0 1 0 0 0)) 0 ∧ Whole (one []) (xl .slotr (lf 3 10 0 0 0 15 0 31)) [0] ∧
    Whole (one []) (xl .slotw (lf 12 10 0 0 0 15 0 0)) [0] ∧ ((one []).greg (threadOf 0 31) 10).rdy ≤ (one []).clk :=
  ⟨turn_of (by decide +kernel), turn_of (by decide +kernel), turn_of (by decide +kernel), whole_of (by decide +kernel),
   whole_of (by decide +kernel), by decide +kernel⟩

theorem test_fullEmpty : (after (.feset (lf 5 0 0 0 1 0 0 0)) (one [(5, 9)]) (fun s => !(s.greg 0 5).full && (s.greg 0 5).v == 9) &&
    after (.plop (lf 1 2 3 7 0 0 0 0x80)) (one []) (fun s => !s.pred 0 1) && after (.plop (lf 1 7 7 7 0 0 0 0x80)) (one []) (fun s => s.pred 0 1)) = true := by
  decide +kernel

theorem witness_exchanges : Whole worked (Ins.ofBody .xch (.short (sf 7 6 1))) [0, 1, 3, 4] ∧ (Instr.xch (sf 7 6 1)).ins?.isSome = true ∧
    Whole worked (xl .scan (lf 7 6 0 0 8 0 0 0)) [0, 1, 3, 4] ∧ Whole worked (xl .vote (lf 7 7 0 0 2 0 0 0)) [0, 1, 3, 4] ∧
    Whole (base (List.range 32) fun t => [(9, t)]) (xl .redwx (lf 4 9 0 0 0x80 1 0 0)) (List.range 32) ∧
    Turn worked (xl .xlane (lf 6 4 0 0 0 15 0 31)) 0 ∧ Whole worked (xl .xlane (lf 6 4 0 0 1 15 0 1)) [0, 1, 3, 4] ∧
    worked.warpCount 0 = 4 ∧ (worked.greg (threadOf 1 0) 4).rdy < worked.clk ∧ kvGet 0 (worked.warp 1).wrdy 4 < worked.clk :=
  ⟨whole_of (by decide +kernel), rfl, whole_of (by decide +kernel), whole_of (by decide +kernel), whole_of (by decide +kernel),
   turn_of (by decide +kernel), whole_of (by decide +kernel), by decide +kernel, by decide +kernel, by decide +kernel⟩

/-! #### Memory -/

/-- The checks of an access pass and entries are free. -/
def accessReady (s : State) (k : ReqKind) (x : Ins) : Bool :=
  turnB s x 0 && reading s x 0 (fun v => match checkAccess s k 0 (memAddr x v) (accessSize k x) with
    | .ok _ => decide (readEntries s 0 < 4096) && decide (writeEntries s 0 < 2048) && decide (ackCount s 0 < 4095)
    | _ => false)

/-- The pair g4, g5 holds the address of the page of class T, N or B. -/
def addrT : List (Nat × Nat) := [(4, 0x5000)]
def addrN : List (Nat × Nat) := [(4, 0), (5, 0x10000)]
def addrB : List (Nat × Nat) := [(4, 0x10000), (5, 0x10000)]

theorem witness_accesses : (accessReady (one addrT) .ld (xl .ld (lf 8 4 0 0 0x80 15 0 0x40)) && accessReady (one addrN) .st (xl .st (lf 9 4 0 0 0 15 0 0)) &&
    accessReady (one addrT) .ldc (xl .ldc (lf 8 4 0 0 0 15 0 0)) && accessReady (one addrN) .atom (xl .atom (lf 12 4 13 0 0x11 1 0 8)) &&
    accessReady (one addrT) .red (xl .red (lf 0 4 13 0 0 1 0 8)) && accessReady (one addrN) .cas (xl .cas (lf 14 4 15 16 0 1 0 0)) &&
    accessReady (one addrB) .ldb (xl .ldb (lf 10 4 7 0 0x11 4 0 8))) = true ∧
    Turn (one addrT) (xl .ld (lf 8 4 0 0 0x80 15 0 0x40)) 0 := ⟨by decide +kernel, turn_of (by decide +kernel)⟩

/-- LD empties its register until it lands (R194): the access is under way and the thread has gone on. -/
theorem test_loadIsIssued : after (.ld (lf 8 4 0 0 0 15 0 0x40)) (one addrN) (fun s => !(s.greg 0 8).full && s.reqs.length == 1 && (s.thread 0).pc == 0x100C) = true := by
  decide +kernel

/-- A read and a store of the page of class B at the same place differ only in the class check; ATOM on it raises CL (R199). -/
theorem test_atomicOnB : after (.atom (lf 12 4 13 0 0 1 0 0)) (one addrB) (fun s => (s.warp 0).xcause.toNat % 256 == 9) = true := by decide +kernel

/-- The check of LD or ATOM at the pair g4 gives the outcome. -/
def checks (s : State) (k : ReqKind) (x : Ins) (p : Dword → Bool) : Bool := turnB s x 0 && reading s x 0 (fun v => p (memAddr x v)) && decide (k ≠ .bar)

theorem witness_accessFaults :
    (checks (one [(4, 0), (5, 0x01000000)]) .ld (xl .ld (lf 8 4 0 0 0 15 0 0)) (fun a => a.extractLsb' 56 8 != 0) &&
     checks (one [(4, 2)]) .ld (xl .ld (lf 8 4 0 0 0 15 0 0)) (fun a => a.extractLsb' 56 8 == 0 && a.toNat % 4 != 0) &&
     checks (one [(4, 0xFFFFFFFC)]) .ld (xl .ld (lf 8 4 0 0 0 15 0 0)) (fun a =>
       (match xlate (one [(4, 0xFFFFFFFC)]) 0 a.toNat 1 with
        | .miss => (walkFault (one [(4, 0xFFFFFFFC)]) a.toNat).isNone
        | _ => false)) &&
     checks (one [(4, 0), (5, 0x100)]) .ld (xl .ld (lf 8 4 0 0 0 15 0 0x10000)) (fun a =>
       (match xlate (one []) 0 a.toNat 1 with
        | .fault c => c == 4
        | _ => false)) &&
     checks (one addrB) .atom (xl .atom (lf 12 4 13 0 0 1 0 0)) (fun a =>
       (match xlate (one []) 0 a.toNat 2 with
        | .ok p => classFault (one []) .atom p 1
        | _ => false)) &&
     checks (one addrN) .acc (xl .acc (lf 0 4 6 0 0 4 0 0)) (fun a =>
       (match xlate (one []) 0 a.toNat 2 with
        | .ok p => classFault (one []) .acc p 1
        | _ => false))) = true := by decide +kernel

/-- A buffer of die 0's cellar at offset 0, in state `n`. -/
def buffered (n : Nat) : State := (one [(4, 0), (5, 0x100), (6, 64), (7, 64), (10, 0x40), (11, 0x100)]).modDie 0 fun d =>
  { d with buf := [(63, { decl := true, owner := 1, state := n, base := 0x10000, size := 64 })] }

theorem witness_accessBufferAndLineFault : checks (buffered 1) .ld (xl .ld (lf 8 4 0 0 0 15 0 0)) (fun a =>
    (match xlate (buffered 1) 0 a.toNat 1 with
     | .ok p => !classFault (buffered 1) .ld p 1 && bufFault (buffered 1) .ld 0 p
     | _ => false)) = true ∧
    checks { one addrN with metaw := [(0x40000000 / 64, poisonWord)] } .ld (xl .ld (lf 8 4 0 0 0 15 0 0)) (fun a =>
    (let s := { one addrN with metaw := [(0x40000000 / 64, poisonWord)] }
     match xlate s 0 a.toNat 1 with
     | .ok p => !classFault s .ld p 1 && !bufFault s .ld 0 p && lineFault s p.cls p.pa == some 17
     | _ => false)) = true := by decide +kernel

/-- A store of thread 0 under way. -/
def storing : State := { one [] with nextId := 6, reqs := [(5, { kind := .st, thread := 0, cls := 2, pa := 0x40000000, data := [1, 2, 3, 4] })] }

theorem witness_fence : Turn (one []) (xl .fence (lf 0 0 0 0 0x0C 0 0 0)) 0 ∧ (∀ r ∈ (one []).reqs, r.2.thread ≠ 0) ∧ ackCount (one []) 0 = 0 ∧
    Turn storing (xl .fence (lf 0 0 0 0 0x12 0 0 0)) 0 ∧ fenceDone storing 0 2 2 = false ∧ Ready (one addrN) (xl .pref (lf 0 4 0 0 0x10 0 0 0)) 0 (fun _ => true) ∧
    Turn (one []) (xl .flsh (lf 0 0 0 0 0x10 0 0 0)) 0 ∧ (xl .flsh (lf 0 0 0 0 0x10 0 0 0)).scope = 2 ∧ (xl .flsh (lf 0 0 0 0 8 0 0 0)).scope = 1 ∧
    Turn emptyG3 (xl .pref (lf 0 2 0 0 0x10 0 1 0)) 0 ∧ (match gather emptyG3 (xl .pref (lf 0 2 0 0 0x10 0 1 0)) 0 with
      | .fault _ => true
      | _ => false) = true :=
  ⟨turn_of (by decide +kernel), by decide +kernel, by decide +kernel, turn_of (by decide +kernel), by decide +kernel, ready_of (by decide +kernel),
   turn_of (by decide +kernel), by decide, by decide, turn_of (by decide +kernel), by decide +kernel⟩

/-- The line of the page of class B has an open entry in the store of die 0. -/
def accumulating : State := (one (addrB ++ [(6, 0x3E800000)])).modDie 0 fun d => { d with cask := [(0x40010000 / 64, { share := 0x3F800000, opening := false })] }

theorem witness_accumulation : Ready accumulating (xl .acc (lf 0 4 6 0 0 4 0 8)) 0 (fun v =>
      (match checkAccess accumulating .acc 0 (memAddr (xl .acc (lf 0 4 6 0 0 4 0 8)) v) 4 with
       | .ok p => accStore 0 p.pa == 0 && homeDie p.pa == 0 && !storeStuck accumulating 0 (p.pa / 64) && (accumulating.die 0).cask.any (fun y => y.1 == p.pa / 64) &&
         (let e := kvGet {} (accumulating.die 0).cask (p.pa / 64)
          !e.opening && decide ((caskPlus e (p.pa % 64 / 4) (BitVec.ofNat 32 (bytesNat (leBytes 4 v.b))) 10).mu.toNat ≤ e.share.toNat))
       | _ => false)) ∧
    Ready (one addrB) (xl .rack (lf 0 4 0 0 0x18 0 0 0)) 0 (fun v =>
      match checkAccess (one addrB) .rack 0 (memAddr (xl .rack (lf 0 4 0 0 0x18 0 0 0)) v) 4 with
      | .ok _ => true
      | _ => false) := ⟨ready_of (by decide +kernel), ready_of (by decide +kernel)⟩

theorem witness_buffers :
    Ready (buffered 0) (xl .bufd (lf 62 10 6 7 0 0 0 0)) 0 (fun v => (bufdPlace (buffered 0) 0 62 (BitVec.ofNat 64 v.a) v.b v.c true true).isSome) ∧
    Ready (buffered 0) (xl .bufd (lf 62 4 6 7 0 0 0 0)) 0 (fun v => (bufdPlace (buffered 0) 0 62 (BitVec.ofNat 64 v.a) v.b v.c true true).isNone) ∧
    Ready (buffered 0) (xl .bufd (lf 63 4 6 7 0 0 0 0)) 0 (fun _ => true) ∧
    Turn (buffered 3) (xl .bufs (lf 6 63 0 0 1 0 0 0)) 0 ∧ (ownBuf (buffered 3) 0 63).isSome = true ∧ ownBuf (buffered 3) 0 0 = none ∧
    Turn (buffered 3) (xl .buff (lf 6 63 0 0 0 0 0 0)) 0 ∧ ((ownBuf (buffered 3) 0 63).map fun r => r.state) = some 3 ∧
    ((ownBuf (buffered 2) 0 63).map fun r => r.state) = some 2 ∧ (kvGet {} ((buffered 3).die 0).buf 0).decl = false :=
  ⟨ready_of (by decide +kernel), ready_of (by decide +kernel), ready_of (by decide +kernel), turn_of (by decide +kernel), by decide +kernel,
   by decide +kernel, turn_of (by decide +kernel), by decide +kernel, by decide +kernel, by decide +kernel⟩

/-- A request about to be performed at the page of class N, where memory holds 7. -/
def performing (r : Req) : State :=
  { one [] with nextId := 6, reqs := [(5, { r with cls := 2, pa := 0x40000000, size := 4 })], mem := memWrite [] 0x40000000 (leBytes 4 7) }

theorem witness_performing : Memory.wf (performing { kind := .cas, data := leBytes 4 7, data2 := leBytes 4 9 }).mem = true ∧
    ((performing { kind := .cas, data := leBytes 4 7, data2 := leBytes 4 9 }).req 5).kind = .cas := by decide +kernel

/-- CAS writes where the values agree and not where they differ; ATOM.inc wraps at its operand (R203, R204). -/
theorem test_performing :
    (bytesAt (performReq (performing { kind := .cas, data := leBytes 4 7, data2 := leBytes 4 9 }) 5) 2 0x40000000 4 == leBytes 4 9 &&
     bytesAt (performReq (performing { kind := .cas, data := leBytes 4 6, data2 := leBytes 4 9 }) 5) 2 0x40000000 4 == leBytes 4 7 &&
     bytesAt (performReq (performing { kind := .atom, op := 7, ty := 1, data := leBytes 4 7 }) 5) 2 0x40000000 4 == leBytes 4 0 &&
     bytesAt (performReq (performing { kind := .red, op := 0, ty := 1, data := leBytes 4 0xFFFFFFFF }) 5) 2 0x40000000 4 == leBytes 4 6 &&
     ((performReq (performing { kind := .ld }) 5).req 5).value == 7) = true := by decide +kernel

/-! #### Barriers, convergence and counters -/

/-- A core whose barrier objects below `n` are allocated. -/
def objects (n : Nat) : State := (one []).modCore 0 fun c => { c with bar := (List.range n).map fun i => (i, { alloc := true, gen := 1 }) }

theorem witness_balloc :
    ReadyWhole (objects 63) (xl .balloc (lf 4 1 0 0 0x80 0 0 0x00044000)) [0] (fun _ => true) ∧
    (barAt (objects 63) 0 63).alloc = false ∧ (∀ j < 63, (barAt (objects 63) 0 j).alloc = true) ∧
    ReadyWhole (objects 64) (xl .balloc (lf 4 1 0 0 0x80 0 0 0x00040001)) [0] (fun _ => true) ∧ (∀ i < 64, (barAt (objects 64) 0 i).alloc = true) ∧
    ReadyWhole (objects 0) (xl .balloc (lf 4 1 0 0 0x80 0 0 0x00044001)) [0] (fun _ => true) ∧ 0x4001 > 16384 ∧
    ReadyWhole (objects 0) (xl .balloc (lf 4 1 0 0 0x80 0 0 1)) [0] (fun _ => true) ∧ 1 / 2 ^ 16 % 2 ^ 16 = 0 :=
  ⟨readyWhole_of (by decide +kernel), by decide +kernel, by decide +kernel, readyWhole_of (by decide +kernel), by decide +kernel,
   readyWhole_of (by decide +kernel), by decide, readyWhole_of (by decide +kernel), by decide⟩

theorem test_balloc : after (.balloc (lf 4 1 0 0 0x80 0 0 0x00040040)) (objects 2) (fun s => (s.greg 0 4).v == 0x42 && s.pred 0 1 &&
    (barAt s 0 2).pendArr == 64 && (barAt s 0 2).refs == 4) = true := by decide +kernel

/-- A core with the object 5 of generation 3, whose handle is in g4; g6 is a parity. -/
def object (b : Barrier) (p : Nat) : State := (one [(4, (handleOf 0 5 3).toNat), (6, p)]).modCore 0 fun c => { c with bar := [(5, b)] }
/-- It expects two arrivals of which `n` are to come. -/
def live5 (n : Nat) : Barrier := { alloc := true, gen := 3, asid := 1, refs := 1, expected := 2, pendArr := n }

theorem witness_localBarriers :
    Ready (object (live5 2) 0) (xl .barv (lf 7 4 0 0 0 0 0 2)) 0 (fun v => live (object (live5 2) 0) (BitVec.ofNat 32 v.a) 1 &&
      handleCore (BitVec.ofNat 32 v.a) == 0 && (barUpdate (live5 2) 2 none).isRight) ∧
    released (object (live5 2) 0) 0 = true ∧ ((object (live5 2) 0).thread 0).due = 0 ∧
    (barUpdate (live5 1) 2 none).isLeft = true ∧
    Ready (object {} 0) (xl .barv (lf 7 4 0 0 0 0 0 1)) 0 (fun v => !live (object {} 0) (BitVec.ofNat 32 v.a) 1) ∧
    Ready (object (live5 2) 0) (xl .bexp (lf 7 4 6 0 1 0 0 0)) 0 (fun v => (barUpdate (live5 2) 1 (some v.b)).isRight) ∧
    Ready (object (live5 2) 0) (xl .bwait (lf 0 4 6 0 0 0 0 0)) 0 (fun v => (live5 2).phase == decide (v.b % 2 == 1)) ∧
    Ready (object (live5 2) 1) (xl .bwait (lf 0 4 6 0 0 0 0 0)) 0 (fun v => (live5 2).phase != decide (v.b % 2 == 1)) ∧
    Ready (object { live5 2 with ovf := true } 1) (xl .btest (lf 2 4 6 0 0 0 0 0)) 0 (fun _ => true) ∧
    ReadyWhole (object (live5 2) 0) (xl .bfree (lf 0 4 0 0 0 0 0 1)) [0] (fun _ => true) ∧ (live5 2).refs = 1 ∧
    ReadyWhole (object (live5 2) 0) (xl .bfree (lf 0 4 0 0 0 0 0 0)) [0] (fun v => live (object (live5 2) 0) (BitVec.ofNat 32 v.a) 1) ∧
    ReadyWhole (object {} 0) (xl .bfree (lf 0 4 0 0 0 0 0 0)) [0] (fun v => !live (object {} 0) (BitVec.ofNat 32 v.a) 1) ∧
    Turn storing (xl .barv (lf 7 4 0 0 0 0 0 2)) 0 ∧ released storing 0 = false :=
  ⟨ready_of (by decide +kernel), by decide +kernel, by decide +kernel, by decide +kernel, ready_of (by decide +kernel), ready_of (by decide +kernel),
   ready_of (by decide +kernel), ready_of (by decide +kernel), ready_of (by decide +kernel), readyWhole_of (by decide +kernel), rfl,
   readyWhole_of (by decide +kernel), readyWhole_of (by decide +kernel), turn_of (by decide +kernel), by decide +kernel⟩

theorem witness_remoteBarriers :
    (let s := one [(4, (handleOf 127 5 3).toNat), (6, 1)]
     Ready s (xl .barv (lf 7 4 0 0 0 0 0 0x4000)) 0 (fun v => natBits (BitVec.ofNat 32 v.a : Word).toNat 13 3 == 0 &&
       handleCore (BitVec.ofNat 32 v.a) == 127 && dieOfCore 127 == dieOfCore 0 && released s 0) ∧ (s.thread 0).due = 0 ∧
     Ready s (xl .bwait (lf 0 4 6 0 0 0 0 0)) 0 (fun v => v.b == 1)) :=
  ⟨ready_of (by decide +kernel), by decide +kernel, ready_of (by decide +kernel)⟩

/-- The phase of an object whose last arrival has come completes, and one that counts bytes waits for them (R273). -/
theorem test_phases : ((barTest { live5 0 with posted := true }).phase && (barTest { live5 0 with posted := true }).pendArr == 2 && (barTest { live5 0 with nb := true }).phase &&
    !(barTest (live5 0)).phase && !(barTest { live5 0 with posted := true, pendBytes := 1 }).phase) = true := by decide +kernel

/-- A core whose convergence register 7 has a round of size 2 with `n` signers. -/
def round (n : Nat) : State := { (one [(3, 2)]).modCore 0 fun c => { c with cv := [(7, { size := 2, signers := List.replicate n 3 })] } with
  warps := [(0, { cnt := [(0, 3), (5, 1)] })] }

theorem witness_convergence :
    Ready (round 1) (xl .csign (lf 10 7 0 0 0x80 0 0 2)) 0 (fun _ => true) ∧ (cvAt (round 1) 0 7).signers.length = 1 ∧
    Ready (round 2) (xl .csign (lf 10 7 3 0 0 0 0 0)) 0 (fun v => v.b == 2) ∧ (cvAt (round 2) 0 7).signers.length = (cvAt (round 2) 0 7).size ∧
    Ready (round 1) (xl .csign (lf 10 0 0 0 0x80 0 0 0x400)) 0 (fun _ => true) ∧ Ready (round 1) (xl .csign (lf 10 0 0 0 0x80 0 0 0x401)) 0 (fun _ => true) ∧
    Turn (round 1) (xl .waitc (lf 0 0 0 0 0x21 0 0 3)) 0 ∧ (∀ q < 6, (0x21 : BitVec 8).getLsbD q = true → counter (round 1) 0 q ≤ 3) ∧
    (∃ q < 6, (0x21 : BitVec 8).getLsbD q = true ∧ 2 < counter (round 1) 0 q) ∧ Turn (round 1) (xl .cntr (lf 8 0 0 0 0 3 0 0)) 0 :=
  ⟨ready_of (by decide +kernel), by decide +kernel, ready_of (by decide +kernel), by decide +kernel, ready_of (by decide +kernel),
   ready_of (by decide +kernel), turn_of (by decide +kernel), by decide +kernel, by decide +kernel, turn_of (by decide +kernel)⟩

/-- CNTR packs K in bits 7:0 and F in bits 47:40 (R282). -/
theorem test_cntr : after (.cntr (lf 8 0 0 0 0 3 0 0)) (round 1) (fun s => (s.greg 0 8).v == 3 && (s.greg 0 9).v == 0x100) = true := by decide +kernel

/-! #### Engines -/

/-- The machine of one thread whose warp has `n` operations of class `c` outstanding by its counter. -/
def counting (c n : Nat) (g : List (Nat × Nat)) : State := { one g with warps := [(0, { cnt := [(c, n)] })] }

/-- Destination g6, g7, source g8, g9 and list g10, g11 of an operation, the size in g12. -/
def operands (n : Nat) : List (Nat × Nat) := [(4, 0), (6, 0x20000), (8, 0x21000), (10, 0x22000), (12, n), (14, 0x23000)]

/-- The CPY of 128 bytes of the tests, dense. -/
def cpy128 : Ins := Ins.ofBody .cpy (.longLit (lf 6 8 0 0 0x80 0 0 0) 0x7F)

/-- The sub-run of thread 0 has not begun and has no slots. -/
theorem notBegun (c n : Nat) (g : List (Nat × Nat)) : ¬ Begun (counting c n g) 0 := by
  rintro ⟨r, hr, -, h⟩
  obtain rfl := Option.some.inj hr
  exact h.elim (absurd rfl) (absurd rfl)

theorem witness_copy : Turn (counting 0 62 (operands 0)) cpy128 0 ∧ subHold (counting 0 62 (operands 0)) cpy128 0 0 = none ∧
    Turn (counting 0 63 (operands 0)) cpy128 0 ∧ ¬ Begun (counting 0 63 (operands 0)) 0 ∧ (subHold (counting 0 63 (operands 0)) cpy128 0 0).isSome = true ∧
    Begun { one [] with lanes := [(0, { run := some { threads := [0], slots := 1 } })] } 0 ∧
    reading (counting 0 62 (operands 0)) cpy128 0 (fun v =>
      (nameBarBuf (counting 0 62 (operands 0)) cpy128 0 v.b true 0 0 (opOf (one []) 0 .cpy 0)).isRight) = true ∧
    (nameBarBuf (one []) (Ins.ofBody .cpy (.longLit (lf 6 8 0 0 0xC0 0 0 0) 0x7F)) 0 0 true 0 0 (opOf (one []) 0 .cpy 0)).isLeft = true ∧
    2 ^ 32 < (0x3FFFF + 1) * (0xFFF + 1) * (0xFFF + 1) * (0xFFF + 1) ∧ Turn (one []) (xl .cpyq (lf 6 0 0 0 1 3 0 0)) 0 :=
  ⟨turn_of (by decide +kernel), by decide +kernel, turn_of (by decide +kernel), notBegun 0 63 (operands 0), by decide +kernel, ⟨_, rfl, rfl, .inr (by decide)⟩,
   by decide +kernel, by decide +kernel, by decide, turn_of (by decide +kernel)⟩

theorem test_copyIsIssued : after (.cpy (lf 6 8 0 0 0x80 0 0 0) 0x7F) (one (operands 0)) (fun s => counter s 0 0 == 1 && s.ops.length == 1 &&
    s.ops.all (fun o => o.2.total == 128 && o.2.src == 0x21000 && o.2.dst == 0x20000)) = true := by decide +kernel

/-- The GATH of 4 rows of 64 bytes of the tests. -/
def gath4 : Ins := Ins.ofBody .gath (.longLit (lf 6 8 10 0 0x18 0 0 0) 0x4000010003)

theorem witness_gatherAndPut : Turn (one (operands 0)) gath4 0 ∧ subHold (one (operands 0)) gath4 0 1 = none ∧
    reading (one (operands 0)) gath4 0 (fun v => (nameBarBuf (one (operands 0)) gath4 0 v.c true 0 0 (opOf (one []) 0 .gath 1)).isRight) = true ∧
    ¬ Begun (counting 1 63 (operands 0)) 0 ∧ (subHold (counting 1 63 (operands 0)) gath4 0 1).isSome = true ∧
    Ready (one (operands 0x4000000)) (xl .putn (lf 6 8 14 12 0x20 0 0 1)) 0 (fun v => v.c == 0x4000000 &&
      (rangesFault (one (operands 0x100)) (opOf (one []) 0 .putn 5) [(v.a, 0x100, 1), (0x20000, 0x100, 2), (v.b, 4, 2)]).isNone &&
      (match engXlate (one []) (opOf (one []) 0 .putn 5) v.b 2 with
       | .ok q => q.cls != 3
       | _ => true)) ∧
    Ready (one (operands 0)) (xl .getn (lf 6 8 0 12 0x18 0 0 0)) 0 (fun v => v.c == 0) ∧
    subHold (one (operands 0)) (xl .getn (lf 6 8 0 12 0x18 0 0 0)) 0 5 = none ∧ (subHold (counting 5 63 (operands 0)) (xl .getn (lf 6 8 0 12 0x18 0 0 0)) 0 5).isSome = true :=
  ⟨turn_of (by decide +kernel), by decide +kernel, by decide +kernel, notBegun 1 63 (operands 0), by decide +kernel, ready_of (by decide +kernel),
   ready_of (by decide +kernel), by decide +kernel, by decide +kernel⟩

/-! #### The Anvil -/

/-- A FULL buffer 63 of 4 KiB in the cellar of die 0. -/
def full (g : List (Nat × Nat)) : State := (one g).modDie 0 fun d =>
  { d with buf := [(63, { decl := true, owner := 1, state := 2, base := 0x10000, size := 4096 })] }

/-- A sub-run has room, and the body of its instruction makes an operation, or a fault. -/
def issues (s : State) (x : Ins) (body : Ins → Nat → Vals → State → (Nat × Nat × Dword) ⊕ Op) (good : Bool) : Bool :=
  wholeB s x [0] && decide ((s.core 0).anvilQ.length < 64) && decide (counter s 0 2 < 63) && decide (counter s 0 4 < 63) &&
    reading s x 0 (fun v => (body x 0 v s).isRight == good)

theorem witness_anvil : (issues (counting 2 62 [(8, 0x20000)]) (xl .wld (lf 0 8 0 0 0x18 0 0 0)) wldBody true && issues (one [(8, 0x20020)]) (xl .wld (lf 0 8 0 0 0x18 0 0 0)) wldBody false &&
    issues (one []) (xl .wswp (lf 0 0 0 0 0 0 0 0)) wswpBody true && issues (full []) (xl .mms (lf 15 63 20 0 8 0 0 0x023F00)) mmsBody true &&
    issues (one []) (xl .mms (lf 15 63 20 0 8 0 0 0x023F00)) mmsBody false && issues (one []) (xl .accz (lf 15 0 0 0 0 0 0 0)) acczBody true &&
    issues (one []) (xl .accm (lf 3 63 0 0 0 0 0 0)) acczBody true && issues (one [(8, 0x20000), (12, 0x100)]) (xl .accs (lf 2 8 12 0 0x18 0 0 0x3F00)) accsBody true &&
    issues (full [(8, 0x20000), (10, 0), (11, 0x100)]) (Ins.ofBody .mvb (.longLit (lf 63 8 10 0 0 0 0 0) 0x2003F003F)) mvbBody false) = true := by decide +kernel

/-- A core with an operation 3 on tile 0; the next is number 5. -/
def tiled : State := { (one [(8, 0x105)]).modCore 0 fun c => { c with tiles := [(1, [(69, 7), (70, 8)])] } with
  nextId := 5, ops := [(3, { kind := .accz, cls := 2, tile := 0 })] }

theorem witness_tiles :
    Ready tiled (xl .accr (lf 40 1 8 0 0 4 0 0)) 0 (fun v => v.b == 0x105) ∧ tileOps tiled 0 1 = [] ∧ (∃ o ∈ tileOps tiled 0 0, o < tiled.nextId) ∧
    (tiled.thread 0).pass = none ∧ 0x105 % 64 % accWidth (xl .accr (lf 40 1 8 0 0 4 0 0)) = 0 ∧ 0x105 % 64 % accWidth (xl .accr (lf 40 1 8 0 0x40 4 0 0)) ≠ 0 ∧
    Ready tiled (xl .accw (lf 1 8 40 0 0 4 0 0)) 0 (fun v => v.a == 0x105) ∧ Whole tiled (xl .accr (lf 6 0 0 0 1 15 0 0)) [0] ∧
    Whole (one []) (xl .mma (lf 0 7 16 0 0 0 0 0x23F00)) [0] ∧ (cvAt (one []) 0 7).bound = none ∧ (cvAt (one []) 0 7).size = 0 ∧ (cvAt (round 1) 0 7).size = 2 ∧
    (kvGet [] (tiled.core 0).tiles 1).Pairwise (fun a b => a.1 < b.1) :=
  ⟨ready_of (by decide +kernel), by decide +kernel, by decide +kernel, by decide +kernel, by decide +kernel, by decide +kernel, ready_of (by decide +kernel),
   whole_of (by decide +kernel), whole_of (by decide +kernel), by decide +kernel, by decide +kernel, by decide +kernel, by decide +kernel⟩

/-- ACCW writes its element and no other (R322). -/
theorem test_accw : after (.accw (lf 1 8 40 0 0 4 0 0)) tiled (fun s => tileAt s 0 1 1 5 == 0 && tileAt s 0 1 1 6 == 8) = true := by decide +kernel

/-! #### Rings -/

/-- A rank table at 0x30000 with `p` dies from die `d` on. -/
def ranked (p d : Nat) : State := { one [(4, 0x20000), (8, 0x30000), (10, 0x31000), (12, 16)] with
  mem := memWrite (onePage []) 0x30000 (leBytes 2 p ++ leBytes 2 7 ++ leBytes 4 0 ++ (List.range p).flatMap fun i => leBytes 4 (d + i)) }

/-- What RGSET reads: the checks pass, every byte is read, and the table that it holds. -/
def tableRead (s : State) : Option (Option (Nat × List Nat)) :=
  let a : Dword := 0x30000
  match checkXlate s 0 a 8 1 with
  | .ok q =>
    let p := { opOf s 0 .rgset 3 with trans := [({ vbase := a.toNat, size := 8, pbase := q.pa, cls := q.cls } : Trans)] }
    let r1 := readBytes s p a 8
    let n := min 512 ((byteAt r1.2.1 0).getD 0 + 256 * (byteAt r1.2.1 1).getD 0)
    if (ownWrite s 0 p.trans).isSome then none else
    match rangePages r1.1 p [(a.toNat, 8 + 4 * n, 1)] with
    | .inr ts =>
      if (ownWrite r1.1 0 ts).isSome then none else
      let r2 := readBytes r1.1 { p with trans := ts } a (8 + 4 * n)
      if r2.2.1.all (·.isSome) then some (tableOf (freeBinds r2.1 0).domain (r2.2.1.map (·.getD 0))) else none
    | .inl _ => none
  | _ => none

theorem witness_rgset : ReadyWhole (ranked 16 0) (xl .rgset (lf 6 8 0 0 0 0 0 15)) [0] (fun v => v.a == 0x30000) ∧
    tableRead (ranked 16 0) = some (some (7, List.range 16)) ∧ tableRead (ranked 1 0) = some (some (7, [0])) ∧ tableRead (ranked 1 16) = some none ∧
    tableRead (ranked 2 1) = some (some (7, [1, 2])) ∧ tableRead (ranked 0 0) = some none ∧ bindOf (ranked 16 0) 0 1 15 = none :=
  ⟨readyWhole_of (by decide +kernel), by decide +kernel, by decide +kernel, by decide +kernel, by decide +kernel, by decide +kernel, by decide +kernel⟩

/-- Group 2 is bound to dies 0 and 1; `n` tags of it are outstanding. -/
def bound (n : Nat) : State := (ranked 2 0).modDie 0 (fun d => { d with binds := [{ asid := 1, group := 2, version := 7, ranks := [0, 1] }] }) |> fun s =>
  { s with ops := (List.range n).map fun i => (i + 1, { kind := .rrs, cls := 3, asid := 1, group := 2, tag := BitVec.ofNat 16 (i + 100) }), nextId := n + 1 }

theorem witness_collectives :
    ReadyWhole (bound 63) (xl .rrs (lf 4 10 0 12 0x18 4 0 0x70002)) [0] (fun v => v.c == 16) ∧ (bindOf (bound 63) 0 1 2).isSome = true ∧
    (outTags (bound 63) 0 1 2).length = 63 ∧ (∀ e ∈ outTags (bound 63) 0 1 2, e.2.tag ≠ 7) ∧ counter (bound 63) 0 3 < 63 ∧
    (rangePages (bound 63) (opOf (bound 63) 0 .rrs 3) [(0x31000, 4 * 32, 1), (0x20000, 4 * 16, 2)]).isRight = true ∧
    (outTags (bound 64) 0 1 2).length = 64 ∧ bindOf (bound 0) 0 1 3 = none ∧ (∃ e ∈ outTags (bound 63) 0 1 2, e.2.tag = 100) :=
  ⟨readyWhole_of (by decide +kernel), by decide +kernel, by decide +kernel, by decide +kernel, by decide +kernel, by decide +kernel, by decide +kernel,
   by decide +kernel, by decide +kernel⟩

theorem test_collectiveIsIssued : after (.rrs (lf 4 10 0 12 0x18 4 0 0x70002)) (bound 1) (fun s => counter s 0 3 == 1 && (s.die 0).recs.length == 1) = true := by
  decide +kernel

theorem witness_ringQueries : Whole (bound 1) (xl .rstat (lf 42 0 0 0 0 3 0 0x640002)) [0] ∧ (Instr.rstat (lf 42 0 0 0 0 3 0 0x640002)).ins?.isSome = true ∧
    Ready (one (operands 0)) (xl .mapq (lf 40 8 0 0 0 3 0 0)) 0 (fun v => match placeOf (one []) 0 v.a with
      | .ok _ => true
      | _ => false) ∧
    Ready (one [(8, 0), (9, 0x01000000)]) (xl .mapq (lf 40 8 0 0 0 3 0 0)) 0 (fun v => (BitVec.ofNat 64 v.a : Dword).extractLsb' 56 8 != 0) ∧
    Ready (one [(8, 0x20000), (9, 0x100)]) (xl .mapq (lf 40 8 0 0 0 3 0 0)) 0 (fun v => match placeOf (one []) 0 v.a with
      | .fault e => e == 4
      | _ => false) :=
  ⟨whole_of (by decide +kernel), rfl, ready_of (by decide +kernel), ready_of (by decide +kernel), ready_of (by decide +kernel)⟩

/-! #### System -/

/-- `n` event records await on die 0. -/
def awaiting (n : Nat) : State := (one [(6, 0x99)]).modDie 0 fun d => { d with awaiting := List.replicate n {} }

theorem witness_launchAndEvents :
    Ready (one (operands 0)) (xl .launch (lf 4 8 0 0 0 0 0 63)) 0 (fun v => match checkXlate (one []) 0 (BitVec.ofNat 64 v.a) 64 1 with
      | .ok p => (lineFault (one []) p.cls p.pa).isNone
      | _ => false) ∧
    Ready (one [(8, 4)]) (xl .launch (lf 4 8 0 0 0 0 0 63)) 0 (fun v => match checkXlate (one []) 0 (BitVec.ofNat 64 v.a) 64 1 with
      | .fault e => e == 8
      | _ => false) ∧
    Ready (awaiting 255) (xl .evnt (lf 0 6 0 0 0 0 0 0x12)) 0 (fun v => v.a == 0x99) ∧ ((awaiting 255).die 0).awaiting.length = 255 ∧
    Ready (awaiting 256) (xl .evnt (lf 0 6 0 0 0 0 0 0x12)) 0 (fun _ => true) ∧ ((awaiting 256).die 0).awaiting.length = 256 ∧
    Turn (one []) (xl .pmc (lf 10 0 0 0 0 3 0 9)) 0 :=
  ⟨ready_of (by decide +kernel), ready_of (by decide +kernel), ready_of (by decide +kernel), by decide +kernel, ready_of (by decide +kernel),
   by decide +kernel, turn_of (by decide +kernel)⟩

theorem test_pmc : after (.pmc (lf 10 0 0 0 0 3 0 0)) (one []) (fun s => (s.greg 0 10).v == 10 && (s.greg 0 11).v == 0) = true := by decide +kernel

/-- A handler of the base machine, with registers. -/
def inHandler (g : List (Nat × Nat)) : State := { one g with warps := [(0, { handler := some { cause := 35 } })] }

theorem witness_privileged : Whole (one []) (xl .atci (lf 0 8 10 0 0x10 0 0 0)) [0] ∧ (one []).inHandler 0 = false ∧
    Whole (inHandler []) (xl .halt (lf 0 0 0 0 0 0 0 9)) [0] ∧ (inHandler []).inHandler 0 = true ∧ (inHandler []).pkg 0 ≠ {} :=
  ⟨whole_of (by decide +kernel), by decide +kernel, whole_of (by decide +kernel), by decide +kernel, by decide +kernel⟩

theorem test_halt : after (.halt (lf 0 0 0 0 0 0 0 9)) (inHandler []) (fun s => (s.pkg 0).ended == [1]) = true := by decide +kernel

/-- A saved cohort of this core, number 7, whose area is at 0x40000. -/
def savedAt : State := { inHandler [(8, 0x40000)] with
  mem := memWrite (memWrite (memWrite (memWrite (onePage []) 0x4008 [1]) 0x40000 (leBytes 4 0x464C5331 ++ leBytes 4 0x10000)) 0x40018 (leBytes 8 0x1000)) 0x40100 (leBytes 8 7)
  saved := [(7, { core := 0, asid := 1 })] }

theorem witness_saveAndRestore :
    ReadyWhole (inHandler [(8, 0x200000), (12, 0x200000)]) (xl .atci (lf 0 8 10 12 0x1C 0 0 1)) [0] (fun v => v.a % atciBytes 1 == 0 && v.c % atciBytes 1 == 0) ∧
    (xl .atci (lf 0 8 10 12 0x1C 0 0 1)).scope ≤ 3 ∧
    ReadyWhole (inHandler [(8, 0x40000)]) (xl .ctxs (lf 4 8 0 0 0 0 0 0)) [0] (fun v => v.a % 4096 == 0 && areaOk (inHandler []) 0 v.a (areaSize 4 240 16) 2) ∧
    ReadyWhole (inHandler [(8, 0x40004)]) (xl .ctxs (lf 4 8 0 0 0 0 0 0)) [0] (fun v => v.a % 4096 != 0) ∧
    ReadyWhole (inHandler [(8, 0x40000000)]) (xl .ctxs (lf 4 8 0 0 0 0 0 0)) [0] (fun v => !areaOk (inHandler []) 0 v.a (areaSize 4 240 16) 2) ∧
    ((inHandler []).core 0).saving = none ∧
    ReadyWhole savedAt (xl .ctxr (lf 4 8 0 0 0 0 0 0)) [0] (fun v => areaOk savedAt 0 v.a 0x108 1 &&
      (let hd := areaGet savedAt 0 v.a 0x108
       fieldAt hd 0 4 == 0x464C5331 && fieldAt hd 4 4 == 0x10000 && fieldAt hd 0x100 8 == 7 && areaOk savedAt 0 v.a (fieldAt hd 0x18 8) 1)) ∧
    savedAt.saved.find? (fun e => e.1 = 7) = some (7, { core := 0, asid := 1 }) ∧ asidLive savedAt 0 1 = true ∧
    ReadyWhole (inHandler [(8, 0x50000)]) (xl .ctxr (lf 4 8 0 0 0 0 0 0)) [0] (fun v => areaOk (inHandler []) 0 v.a 0x108 1 &&
      fieldAt (areaGet (inHandler []) 0 v.a 0x108) 0 4 != 0x464C5331) ∧
    ReadyWhole (inHandler [(8, 0x40000000)]) (xl .ctxr (lf 4 8 0 0 0 0 0 0)) [0] (fun v => !areaOk (inHandler []) 0 v.a 0x108 1) :=
  ⟨readyWhole_of (by decide +kernel), by decide, readyWhole_of (by decide +kernel), readyWhole_of (by decide +kernel), readyWhole_of (by decide +kernel),
   by decide +kernel, readyWhole_of (by decide +kernel), by decide +kernel, by decide +kernel, readyWhole_of (by decide +kernel), readyWhole_of (by decide +kernel)⟩

/-! #### Events -/

/-- A happening that stands on the base machine, as changed. -/
def standing (e : Ev) (s : State := one []) : State := { s with ev := some e }

theorem witness_events : (standing (.heartbeat 0)).ev = some (.heartbeat 0) := rfl

theorem witness_coreEvents :
    (let s (till : Nat) := standing (.sleepExpiry 0) ((one []).modThread 0 fun h => { h with hold := .sleep till })
     ((s 10).thread 0).hold = .sleep 10 ∧ ((s 10).warp (0 / 32)).handler = none ∧ ((s 11).thread 0).hold = .sleep 11 ∧ (s 10).clk = 10) ∧
    (let g := (emptyG3).greg 0 3
     (emptyG3.core (coreOfThread 0)).epoch = 0 ∧ g.tag = 9 ∧ g.full = false) ∧
    (let s := (one []).modCore 0 fun c => { c with l1 := [(5, { fill := 0 })] }
     (s.core 0).l1 ≠ []) ∧
    (0 % 512 < (one []).warpCount (coreOfWarp 0) ∧ ((one []).warp 0).gone = false ∧ ((one []).lane (laneOfWarp 0)).run.isSome = true ∧
      ((one []).lane (laneOfWarp 1)).run = none ∧ ((one []).warp 1).handler = none ∧ 1 % 512 < (one []).warpCount (coreOfWarp 1)) := by decide +kernel

/-- A landing fills the empty register under its tag, and not another (R95). -/
theorem test_landing :
    (after .producerLanding (standing (.producerLanding ⟨0, 3, 1, 9, 5, 0, 0, none⟩) emptyG3) (fun s => (s.greg 0 3).full && (s.greg 0 3).v == 5) &&
     after .producerLanding (standing (.producerLanding ⟨0, 3, 1, 8, 5, 0, 0, none⟩) emptyG3) (fun s => !(s.greg 0 3).full)) = true := by decide +kernel

theorem witness_dieEvents :
    (let b := kvGet {} ((buffered 0).die 0).buf 63
     b.drop = false ∧ b.state = 0 ∧ b.setFull = false) ∧
    (let s := (one []).modDie 0 fun d => { d with copies := [(5, { level := 0 })] }
     copyOf s 0 5 = some { level := 0 }) ∧
    rdcOfGen (one []) 0 (nextGen ((one []).die 0).rdcGen) = [] ∧
    (let s := { (one []).modDie 0 fun d => { d with rdcSize := 1 } with metaw := [((2 ^ 37 - 64) / 64, 0x08000000)] }
     rdcOfGen s 0 (nextGen (s.die 0).rdcGen) ≠ []) ∧
    (let r := kvGet {} ((one []).die 0).region 0
     r.valid = true ∧ limitGood r.limit = true ∧ asidLive (one []) (pkgOfDie 0) r.asid = true) ∧
    (kvGet {} ((one []).die 0).region 1).valid = false ∧ limitGood (kvGet {} ((one []).die 0).region 1).limit = false := by decide +kernel

theorem witness_hostAccesses : ((one []).pkg 0).ready = true ∧ hostReaches (one []) 0 0x5000 4 = true ∧ (one []).errs = [] ∧
    (let s := { one [] with pkgs := [(0, { powered := true, ready := true })] }
     (s.pkg 0).lqEn = false ∧ (s.pkg 0).powered = true ∧ hostReaches s 0 0x5000 4 = true) ∧
    (∀ l ∈ linesIn (barPa 0 0x503C) 8, hostLost (one []) l = false) ∧ linesIn (barPa 0 0x503C) 8 = [0x140, 0x141] ∧
    (State.reset.pkg 0).ready = false ∧ (State.reset.pkg 0).powered = false := by decide +kernel

theorem test_hostWrite : after .hostMemoryWrite (standing (.hostMemoryWrite 0 0x5000 [1, 2]) { one [] with pkgs := [(0, { powered := true, ready := true })] })
    (fun s => memGet s.mem 0x5001 == 2) = true := by decide +kernel

theorem witness_startUp : (State.reset.pkg 0).powered = false ∧
    (let s (n : Nat) : State := { State.reset with pkgs := [(0, { powered := true, phase := n })] }
     ((s 1).pkg 0).phase = 1 ∧ ((s 2).pkg 0).phase = 2 ∧ ((s 3).pkg 0).phase = 3) ∧
    ((one []).die 0).temp < 110 ∧ ((one []).pkg (pkgOfDie 0)).thermal = false := by decide +kernel

theorem test_initialisation : after .initialisationDone (standing (.initialisationDone 0) { State.reset with pkgs := [(0, { powered := true, phase := 3 })], mem := [(5, 1)] })
    (fun s => (s.pkg 0).ready && s.mem == []) = true := by decide +kernel

/-- A direction of a bridge, number 1, in a state; link 1 of package 0 in another. -/
def linked (n : Nat) (l : Link) (go : Bool) : State := { (one []).modDie 0 fun d => { d with go := go } with
  clk := 1000000, dirs := [(1, { state := n })], links := [(1, l)] }

theorem witness_bridgesAndLinks :
    ((linked 0 {} false).dir 1).state = 0 ∧ ((linked 0 {} false).dir 1).pass = [] ∧ ((linked 0 {} false).dir 1).inj = [] ∧
    ((linked 0 {} false).dir 1).last + ((linked 0 {} false).die (1 / 2)).idleAfter * 1200 ≤ (linked 0 {} false).clk ∧
    ((linked 1 {} false).dir 1).state = 1 ∧ ((linked 1 {} false).die (1 / 2)).sleepEn = true ∧ ((linked 3 {} false).dir 1).state = 3 ∧
    ((one []).die 0).brgFailed = false ∧ (let s := linked 0 { txMask := 1 } false
      (s.link 1).up = false ∧ (s.link 1).active ≠ 0 ∧ peerOf 1 ≠ 1) ∧
    ((linked 0 {} false).die 0).go = false ∧ ((linked 0 {} true).die 0).go = true ∧ planBad [] = false ∧ planBad [(0, 0x80)] = true ∧
    bridgeOk (one []) 1 = true ∧ received [] = none ∧ (Flit.header { seq := 1, vc := 2 }) = 2 ^ 32 + 2 ^ 15 ∧ { seq := 5, body := List.replicate 54 7 : Flit }.body.length = 54 ∧
    (∀ b < 8, (0x8 : BitVec 16).getLsbD (beatFibre 0x5 (8 * 3 + b)) = false) ∧ (∃ b < 8, (0x4 : BitVec 16).getLsbD (beatFibre 0x5 (8 * 3 + b)) = true) := by
  decide +kernel

/-- A flit of sequence number 0 as it arrives over the slots 0 and 2: whole, and with slot 2 dark. -/
def arriving (lost : BitVec 16) : Wire := overSlots 0x5 lost 3 { seq := 0, kind := 0, body := dataBody 7 true : Flit }.bytes

/-- The check value of CRC-32, for the nine digits "123456789" (R356), and a DATA flit that arrives whole or without every second beat. -/
theorem test_flits : crc32 [0x31, 0x32, 0x33, 0x34, 0x35, 0x36, 0x37, 0x38, 0x39] = 0xCBF43926 ∧
    (received (arriving 0)).map (fun f => (f.seq, f.kind, f.msg)) = some (0, 0, (7, true)) ∧ received (arriving 0x4) = none ∧
    after .data (standing (.data 1 (arriving 0)) (linked 0 {} false)) (fun s => (s.link 1).taken == 0) = true ∧
    after .data (standing (.data 1 (arriving 4)) (linked 0 {} false)) (fun s => (s.link 1).taken == 0xFFFF) = true := by decide +kernel

/-- A bad plan is refused, and GO of a good one begins the drain (R363). -/
theorem test_plans : (after .replanGo (standing (.replanGo 0) ((one []).modDie 0 fun d => { d with plan := [(0, 0x80)] })) (fun s => (s.die 0).planRefused && !(s.die 0).go) &&
    after .replanGo (standing (.replanGo 0)) (fun s => (s.die 0).go && (s.die 0).planPhase == 1)) = true := by decide +kernel

theorem witness_stepKeepsMemory : State.reset.MemOk ∧ (match step State.reset with
    | .next _ => true
    | _ => false) = true := ⟨⟨by decide +kernel, by decide +kernel, by decide +kernel⟩, by decide +kernel⟩

/-! ### The assembler (spec/03) -/

/-- The words of the lines of a source, none where it is rejected. -/
def asmWords (l : List String) : List (List Word) := match Smiat.assemble l with
  | .ok x => x.lines.map (·.2)
  | .error _ => []

/-- The line that is rejected, 0 where the source assembles. -/
def asmBad (l : List String) : Nat := match Smiat.assemble l with
  | .ok _ => 0
  | .error d => d.line

/-- A part of the object, nothing where the source is rejected. -/
def asmPart (l : List String) (f : Smiat.Object → List Nat) : List Nat := match Smiat.assemble l with
  | .ok x => f x
  | .error _ => []

/-- The kernel of chapter 3 with the registers `r` and one statement in place of the first ADD. -/
def forms (r add : String) : List String :=
  [".launch forms, cohorts=1, spans=1, strips=1, prio=0, queue=0", ".kernel forms", ".regs  " ++ r, ".warps 32",
   "        MOVI  g4, -3              ; short, 14-bit immediate", "        MOVI  g5, 0x1234_5678     ; short with literal",
   "        " ++ add, "        ADD   g7, g6, 100000      ; short with literal in operand B",
   "        ADD   g130, g6, g4        ; long: D lies above g127", "        EXIT                      // long-only", ".endk"]

/-- The words of the table under "A kernel as assembled". -/
theorem test_smiat_words : asmWords (forms "136" "ADD   g6, g4, g5          ; short") =
    [[0x7FFA1064], [0x00001466, 0x12345678, 0], [0x050818A0], [0x000C1CA2, 0x000186A0, 0], [0x1C1A08A1, 4, 0],
     [0x1C000019, 0, 0]] := by decide +kernel

/-- Its descriptor by Table 3-4 (VERSION, REGS 136, WARPS 32, CODEOFF 64, CODESIZE 0x38, CONSTOFF 128) and its launch entry by
Table 3-5 (COHORTS, SPANS, STRIPS). -/
theorem test_smiat_descriptor : asmPart (forms "136" "ADD g6, g4, g5") (fun x =>
      ((x.cells.filter fun c => c.1 < 64 || 128 ≤ c.1).map fun c => [c.1, c.2]).flatten) =
    [2, 1, 4, 136, 6, 32, 16, 64, 24, 0x38, 32, 128, 160, 1, 166, 1, 167, 1] := by decide +kernel

/-- The table of changes: long with a guard, long with .te, uniform, and the two rejected statements; `.regs 128` is rejected at
g130. -/
theorem test_smiat_changes :
    (["(p1) ADD g6, g4, g5", "ADD g6, g4.te, g5", "ADD w2, w0, w1"].map fun t => (asmWords (forms "136" t)).getD 2 []) =
      [[0x041018A1, 5, 0], [0x1C1018A1, 0x00010005, 0], [0x810008A0]] ∧
    (["ADD w2, w0, g1", "(p1) ADD w2, w0, w1", "(!p7) ADD g6, g4, g5", "ADD g5.te, g4, g5"].map fun t => asmBad (forms "136" t)) =
      [7, 7, 7, 7] ∧
    asmBad (forms "128" "ADD g6, g4, g5") = 9 := by decide +kernel

/-- R65: the target list holds its count and the offsets from the BRX, 2 units back and 3 units on; IMM of the BRX holds the
offset of the count. R63, R64: parameters and buffers stand for their offsets. R51: labels are case-sensitive. -/
theorem test_smiat_targets :
    let l := [".kernel k", ".regs 8", ".warps 1", ".cellar 100", ".param n, i32", ".param x, f64", ".buffer b, 33", ".buffer c, 1",
      "a: NOP", "movi G1, x", "BRX g1", ".targets a, A", "A: EXIT", ".endk"]
    let m := l.set 7 ".buffer c, 32"
    asmBad l = 8 ∧ ((asmWords m).getD 2 []).getD 2 0 = 14 ∧ (asmWords m).getD 1 [] = [0x00100464] ∧
    asmPart m (fun x => (x.cells.filter fun c => 128 ≤ c.1).map (·.2)) = [2, 254, 255, 255, 255, 3] := by decide +kernel

/-- R66, R67: a label names the first byte after the padding; each class run begins on a page; `.class B` needs its limit; a name
like a type is rejected. -/
theorem test_smiat_data :
    let l := [".data", "x: .b8 1", ".class B", ".limit 1.5", "y:", ".align 8", ".b16 -2, 0x3C00:f16", ".global y", ".global x"]
    asmPart l (fun x => x.runs.map (·.start) ++ (x.dataCells.map (·.2)) ++ (x.globals.map fun g => match g.2 with
      | .data o => o
      | _ => 1)) = [0, 65536, 1, 254, 255, 0x3C, 65536, 0] ∧
    asmBad (l.set 3 "") = 7 ∧ asmBad (l.set 1 "BF16: .b8 1") = 2 ∧ asmBad (l.set 1 "x: .b8 256") = 2 := by decide +kernel

/-- The object loaded at 0x10000 with its data at 0x20000 and every extern at `v`. -/
def asmLoad (l : List String) (v : Option Nat) : Option Smiat.Loaded := match Smiat.assemble l with
  | .ok x => Smiat.load x 0x10000 0x20000 fun _ => v
  | .error _ => none

/-- R66, R68, R71: the loader fills in the address of an extern and of the parameter block, and refuses an extern that does not
resolve. R71: the record takes the window chosen where none is named, and is refused where a page lies in it. -/
theorem test_smiat_load :
    let l := [".extern e", ".kernel k", ".regs 8", ".warps 1", ".param p, n64", "MOVI.n64 g2, e", "EXIT", ".endk",
      ".launch k, cohorts=1, p=e"]
    (asmLoad l none).isNone = true ∧
    (asmLoad l (some 0x77)).map (fun y => ((y.cells.filter (·.2 = 0x77)).map (·.1), y.entries.map (·.2))) =
      some ([0x1004C, 0x10080], [(0x10000, 0x10080, 0)]) ∧
    [[(0, 0x20000)], [(0x1000010000, 65536)]].map (fun m => (asmLoad l (some 0x77)).bind fun y =>
      (y.entries.head?.bind (Smiat.launchRecord m 0x1000000000)).map fun c => c.map (·.1)) =
      [some [2, 8, 10, 20, 32, 38, 39], none] := by decide +kernel

end Sys2Proof.Tests
end

