-- ==== Sys2Proof/Proofs/Memory.lean ====
section
/-! PROOFS. A memory is its bytes: what a write of several bytes changes, and canonical form determines the cells (O13); the
memories of reset are canonical (O12). -/

namespace Sys2Proof.Machine

/-- A byte after a write of several bytes. -/
theorem memGet_memWrite {m : List Host.Cell} (a : Nat) (l : List Byte) (c : Nat) (hw : Memory.wf m = true) :
    memGet (memWrite m a l) c = if h : a ≤ c ∧ c < a + l.length then l[c - a]'(by omega) else memGet m c := by
  induction l generalizing m a with
  | nil => rw [dif_neg (by simp)]; rfl
  | cons b r ih =>
    rw [memWrite, ih (a + 1) (wf_memSet a b hw), memGet_memSet a b c hw]
    have hlen : (b :: r).length = r.length + 1 := rfl
    by_cases hc : c = a
    · subst hc
      rw [dif_neg (by omega), if_pos rfl, dif_pos (by omega)]
      simp
    · by_cases hr : a + 1 ≤ c ∧ c < a + 1 + r.length
      · rw [dif_pos hr, dif_pos (by omega)]
        simp only [show c - a = c - (a + 1) + 1 by omega, List.getElem_cons_succ]
      · rw [dif_neg hr, if_neg hc, dif_neg (by omega)]

/-- A read of several bytes is the reads of each. -/
theorem memRead_eq_map (m : List Host.Cell) (a n : Nat) : memRead m a n = (List.range n).map fun i => memGet m (a + i) := by
  induction n generalizing a with
  | zero => rfl
  | succ n ih =>
    rw [memRead, ih, List.range_succ_eq_map, List.map_cons, List.map_map]
    simp [Function.comp_def, Nat.add_assoc, Nat.add_comm 1]

theorem memRead_memWrite_same {m : List Host.Cell} (a : Nat) (l : List Byte) (hw : Memory.wf m = true) :
    memRead (memWrite m a l) a l.length = l := by
  refine List.ext_getElem (by simp [memRead_eq_map]) fun i _ hi => ?_
  simp [memRead_eq_map, memGet_memWrite a l (a + i) hw, hi]

theorem memGet_memWrite_outside {m : List Host.Cell} {a b : Nat} {l : List Byte} (hw : Memory.wf m = true)
    (h : b < a ∨ a + l.length ≤ b) : memGet (memWrite m a l) b = memGet m b := by
  rw [memGet_memWrite a l b hw, dif_neg (by omega)]

/-- In canonical form a memory that reads as 0 everywhere has no cell. -/
theorem nil_of_memGet_zero {m : List Host.Cell} {lo : Nat} (hw : memWfFrom lo m = true) (h : ∀ a, memGet m a = 0) : m = [] := by
  cases m with
  | nil => rfl
  | cons c r =>
    obtain ⟨x, y⟩ := c
    simp only [memWfFrom, Bool.and_eq_true, bne_iff_ne] at hw
    exact absurd (by simpa [memGet] using h x) hw.1.2

/-- Two canonical memories that read alike are the same: their first cells are the first address with a byte that is not 0. -/
theorem eq_of_memGet_eq {m n : List Host.Cell} {lo : Nat} (hm : memWfFrom lo m = true) (hn : memWfFrom lo n = true)
    (h : ∀ a, memGet m a = memGet n a) : m = n := by
  induction m generalizing n lo with
  | nil => exact (nil_of_memGet_zero hn fun a => (h a).symm).symm
  | cons c r ih =>
    cases n with
    | nil => exact nil_of_memGet_zero hm h
    | cons d q =>
      obtain ⟨x, y⟩ := c
      obtain ⟨u, v⟩ := d
      simp only [memWfFrom, Bool.and_eq_true, decide_eq_true_eq, bne_iff_ne] at hm hn
      obtain ⟨⟨-, hy⟩, hr⟩ := hm
      obtain ⟨⟨-, hv⟩, hq⟩ := hn
      have hx := h x
      have hu := h u
      simp only [memGet] at hx hu
      obtain rfl : x = u := by grind
      obtain rfl : y = v := by grind
      have htail : ∀ a, memGet r a = memGet q a := fun a => by
        by_cases ha : a ≤ x
        · rw [memGet_below r hr (by omega), memGet_below q hq (by omega)]
        · have hxa := h a
          simp only [memGet] at hxa
          grind
      rw [ih hr hq htail]

/-- Settles O13: a written byte reads back through `memGet_memWrite`, and canonical memories that read alike are equal. -/
theorem memoryIsItsBytes : Obligations.MemoryIsItsBytes :=
  ⟨fun _ a l hw => ⟨memRead_memWrite_same a l hw, fun _ hb => memGet_memWrite_outside hw hb⟩,
    fun _ _ hm hn h => eq_of_memGet_eq hm hn h⟩

/-- Settles O12: the memories of reset are empty. -/
theorem resetMemoryCanonical : Obligations.ResetMemoryCanonical := ⟨rfl, rfl, rfl⟩

end Sys2Proof.Machine
end

