-- ==== Sys2Proof/Proofs/Frames.lean ====
section
/-! PROOFS. The operations of the model that leave the three memories of a state alone, one rule each, in the order of the
model: `simp` carries `State.memories` through any of them. -/

namespace Sys2Proof.Machine

/-- The three memories of a state: physical memory, the cellars and host memory. -/
def State.memories (s : State) : List Host.Cell × List Host.Cell × List Host.Cell := (s.mem, s.cellar, s.host)

/-- Memories in canonical form. -/
def Canonical (m : List Host.Cell × List Host.Cell × List Host.Cell) : Prop :=
  Memory.wf m.1 = true ∧ Memory.wf m.2.1 = true ∧ Memory.wf m.2.2 = true

theorem memOk_iff (s : State) : s.MemOk ↔ Canonical s.memories := Iff.rfl

/-- A change of fields other than the memories. (The proof goes by the components: by `rfl` on the pairs the kernel unfolds the
states in which such changes are nested.) -/
@[simp] theorem memories_mk (s : State) (a b c d e f g h i j k l m n o p q r t u v w x) :
    State.memories ⟨a, b, c, d, e, f, g, h, i, j, k, l, m, n, o, s.mem, s.cellar, s.host, p, q, r, t, u, v, w, x⟩ = s.memories :=
  Prod.ext rfl rfl

@[simp] theorem memories_ite (p : Prop) [Decidable p] (s t : State) :
    (if p then s else t).memories = if p then s.memories else t.memories :=
  apply_ite State.memories p s t

@[simp] theorem memories_foldl {α : Type} (f : State → α → State) (l : List α) (s : State)
    (h : ∀ s a, (f s a).memories = s.memories) : (l.foldl f s).memories = s.memories := by
  induction l generalizing s with
  | nil => rfl
  | cons a l ih => exact (ih _).trans (h s a)

/-- The state that a thread's outcome leaves. -/
def TOut.state : TOut → State
  | .ok s | .jump s | .held s | .stay _ s | .wait s | .last s | .fault _ _ _ s => s

@[simp] theorem TOut.state_ok (s : State) : (TOut.ok s).state = s := rfl

@[simp] theorem TOut.state_jump (s : State) : (TOut.jump s).state = s := rfl

@[simp] theorem TOut.state_held (s : State) : (TOut.held s).state = s := rfl

@[simp] theorem TOut.state_stay (h : Hold) (s : State) : (TOut.stay h s).state = s := rfl

@[simp] theorem TOut.state_wait (s : State) : (TOut.wait s).state = s := rfl

@[simp] theorem TOut.state_last (s : State) : (TOut.last s).state = s := rfl

@[simp] theorem TOut.state_fault (c a : Nat) (d : Dword) (s : State) : (TOut.fault c a d s).state = s := rfl

@[simp] theorem TOut.state_ite (p : Prop) [Decidable p] (s t : TOut) :
    (if p then s else t).state = if p then s.state else t.state :=
  apply_ite TOut.state p s t

@[simp] theorem fst_ite {α β : Type} (p : Prop) [Decidable p] (s t : α × β) :
    (if p then s else t).1 = if p then s.1 else t.1 :=
  apply_ite Prod.fst p s t

@[simp] theorem snd_ite {α β : Type} (p : Prop) [Decidable p] (s t : α × β) :
    (if p then s else t).2 = if p then s.2 else t.2 :=
  apply_ite Prod.snd p s t

/-- The components of the pair that a `let` of the model takes apart. -/
theorem fst_eq {α β : Type} {p : α × β} {a : α} {b : β} (e : p = (a, b)) : a = p.1 := by rw [e]

theorem snd_eq {α β : Type} {p : α × β} {a : α} {b : β} (e : p = (a, b)) : b = p.2 := by rw [e]

/-! ### Machine/Base -/

@[simp] theorem memories_modThread (s : State) (t : Nat) (f : Thread → Thread) :
    (State.modThread s t f).memories = s.memories := by
  simp [State.modThread]

@[simp] theorem memories_modWarp (s : State) (w : Nat) (f : Warp → Warp) : (State.modWarp s w f).memories = s.memories := by
  simp [State.modWarp]

@[simp] theorem memories_modLane (s : State) (l : Nat) (f : Lane → Lane) : (State.modLane s l f).memories = s.memories := by
  simp [State.modLane]

@[simp] theorem memories_modCore (s : State) (c : Nat) (f : Core → Core) : (State.modCore s c f).memories = s.memories := by
  simp [State.modCore]

@[simp] theorem memories_modDie (s : State) (d : Nat) (f : Die → Die) : (State.modDie s d f).memories = s.memories := by
  simp [State.modDie]

@[simp] theorem memories_modDir (s : State) (d : Nat) (f : Dir → Dir) : (State.modDir s d f).memories = s.memories := by
  simp [State.modDir]

@[simp] theorem memories_modLink (s : State) (l : Nat) (f : Link → Link) : (State.modLink s l f).memories = s.memories := by
  simp [State.modLink]

@[simp] theorem memories_modPkg (s : State) (p : Nat) (f : Pkg → Pkg) : (State.modPkg s p f).memories = s.memories := by
  simp [State.modPkg]

@[simp] theorem memories_modLaunch (s : State) (l : Nat) (f : Launch → Launch) :
    (State.modLaunch s l f).memories = s.memories := by
  simp [State.modLaunch]

@[simp] theorem memories_modReq (s : State) (r : Nat) (f : Req → Req) : (State.modReq s r f).memories = s.memories := by
  simp [State.modReq]

@[simp] theorem memories_modOp (s : State) (o : Nat) (f : Op → Op) : (State.modOp s o f).memories = s.memories := by
  simp [State.modOp]

@[simp] theorem memories_fresh (s : State) : (State.fresh s).2.memories = s.memories := by simp [State.fresh]

@[simp] theorem memories_choose (s : State) : (State.choose s).2.memories = s.memories := by simp [State.choose]

@[simp] theorem memories_chooseBelow (s : State) (n : Nat) : (State.chooseBelow s n).2.memories = s.memories := by
  simp [State.chooseBelow]

@[simp] theorem memories_postFirst (s : State) (e : Ev) : (State.postFirst s e).memories = s.memories := by simp [State.postFirst]

@[simp] theorem memories_post (s : State) (d : Nat) (e : Ev) : (State.post s d e).memories = s.memories := by simp [State.post]

@[simp] theorem memories_unpost (s : State) (e : Ev) : (State.unpost s e).memories = s.memories := by simp [State.unpost]

@[simp] theorem memories_raise (s : State) (d : Nat) (r : EvRec) : (State.raise s d r).memories = s.memories := by
  simp [State.raise]

/-! ### Machine/Ops -/

@[simp] theorem memories_modG (s : State) (t r : Nat) (f : GReg → GReg) : (State.modG s t r f).memories = s.memories := by
  simp [State.modG]

@[simp] theorem memories_setG (s : State) (t r : Nat) (v : Word) (rdy : Nat) :
    (State.setG s t r v rdy).memories = s.memories := by
  simp [State.setG]

@[simp] theorem memories_setGs (s : State) (t r v rdy a : Nat) : (State.setGs s t r v rdy a).memories = s.memories := by
  fun_induction State.setGs s t r v rdy a <;> simp_all

@[simp] theorem memories_emptyG (s : State) (t r tag a : Nat) : (State.emptyG s t r tag a).memories = s.memories := by
  fun_induction State.emptyG s t r tag a <;> simp_all

@[simp] theorem memories_landG (s : State) (t r tag v n : Nat) : (s.landG t r tag v n).memories = s.memories := by
  induction n generalizing s r v with
  | zero => rfl
  | succ n ih => simp [State.landG, ih]

@[simp] theorem memories_setW (s : State) (w r : Nat) (v : Word) (rdy : Nat) :
    (State.setW s w r v rdy).memories = s.memories := by
  simp [State.setW]

@[simp] theorem memories_setWs (s : State) (w r v rdy a : Nat) : (State.setWs s w r v rdy a).memories = s.memories := by
  fun_induction State.setWs s w r v rdy a <;> simp_all

@[simp] theorem memories_setP (s : State) (t k : Nat) (v : Bool) (rdy : Nat) :
    (State.setP s t k v rdy).memories = s.memories := by
  simp [State.setP]

@[simp] theorem memories_orFlags (s : State) (t : Nat) (f : Word) (rdy : Nat) :
    (State.orFlags s t f rdy).memories = s.memories := by
  simp [State.orFlags]

@[simp] theorem memories_setMask (s : State) (w m : Nat) (v : Word) : (State.setMask s w m v).memories = s.memories := by
  simp [State.setMask]

@[simp] theorem memories_advance (s : State) (t n : Nat) : (State.advance s t n).memories = s.memories := by simp [State.advance]

@[simp] theorem memories_jump (s : State) (t : Nat) (pc : Dword) : (State.jump s t pc).memories = s.memories := by
  simp [State.jump]

@[simp] theorem memories_hold (s : State) (t : Nat) (h : Hold) : (State.hold s t h).memories = s.memories := by simp [State.hold]

@[simp] theorem memories_release (s : State) (t n : Nat) : (State.release s t n).memories = s.memories := by simp [State.release]

@[simp] theorem memories_releaseKept (s : State) (t n : Nat) : (State.releaseKept s t n).memories = s.memories := by
  simp [State.releaseKept]

@[simp] theorem memories_releaseWhere (s : State) (t n : Nat) (p : Hold → Bool) :
    (State.releaseWhere s t n p).memories = s.memories := by
  fun_cases State.releaseWhere s t n p <;> simp +zetaDelta

@[simp] theorem memories_setHeldP (s : State) (t id k : Nat) (v : Bool) : (State.setHeldP s t id k v).memories = s.memories := by
  simp [State.setHeldP]

@[simp] theorem memories_releaseCheck (s : State) (w m : Nat) : (releaseCheck s w m).memories = s.memories := by
  simp [releaseCheck]

@[simp] theorem memories_releaseChecks (s : State) (w : Nat) (ms : List Nat) : (releaseChecks s w ms).memories = s.memories := by
  simp [releaseChecks]

@[simp] theorem memories_freeBarrier (s : State) (c i : Nat) : (freeBarrier s c i).memories = s.memories := by simp [freeBarrier]

@[simp] theorem memories_dropBuf (s : State) (d b : Nat) : (dropBuf s d b).memories = s.memories := by simp [dropBuf]

@[simp] theorem memories_dropOps (s : State) (asid : Nat) : (dropOps s asid).memories = s.memories := by simp [dropOps]

@[simp] theorem memories_endContext (s : State) (asid : Nat) (record : Option (Nat × EvRec)) :
    (endContext s asid record).memories = s.memories := by
  fun_cases endContext s asid record
  · rfl
  · cases record <;> simp +zetaDelta

@[simp] theorem memories_takeTrap (s : State) (w : Nat) (i : TrapInfo) (until_ : Nat) :
    (takeTrap s w i until_).memories = s.memories := by
  fun_cases takeTrap s w i until_ <;> simp +zetaDelta

@[simp] theorem memories_returnFromTrap (s : State) (w n : Nat) : (returnFromTrap s w n).memories = s.memories := by
  fun_cases returnFromTrap s w n <;> simp +zetaDelta

/-! ### Machine/Network -/

@[simp] theorem memories_pumpDir (s : State) (dir : Nat) : (pumpDir s dir).memories = s.memories := by simp [pumpDir]

@[simp] theorem memories_pumpLink (s : State) (l : Nat) : (pumpLink s l).memories = s.memories := by simp [pumpLink]

@[simp] theorem memories_forward (s : State) (id : Nat) (passing : Bool) : (forward s id passing).memories = s.memories := by
  fun_cases forward s id passing <;> simp +zetaDelta

@[simp] theorem memories_sendOn (s : State) (src dst ring : Nat) (e : Ev) : (sendOn s src dst ring e).memories = s.memories := by
  simp [sendOn]

@[simp] theorem memories_send (s : State) (src dst vc base : Nat) (own : Bool) (e : Ev) :
    (send s src dst vc base own e).memories = s.memories := by
  simp [send]

@[simp] theorem memories_sendReq (s : State) (src dst : Nat) (e : Ev) : (sendReq s src dst e).memories = s.memories := by
  simp [sendReq]

@[simp] theorem memories_sendRep (s : State) (src dst : Nat) (e : Ev) : (sendRep s src dst e).memories = s.memories := by
  simp [sendRep]

@[simp] theorem memories_sendOwn (s : State) (src dst : Nat) (e : Ev) : (sendOwn s src dst e).memories = s.memories := by
  simp [sendOwn]

/-! ### Machine/Operands -/

@[simp] theorem memories_setPort (s : State) (w port : Nat) (l : List (Word × Nat)) :
    (setPort s w port l).memories = s.memories := by
  simp [setPort]

@[simp] theorem memories_popPort (s : State) (w port : Nat) : (popPort s w port).memories = s.memories := by simp [popPort]

@[simp] theorem memories_pushPort (s : State) (w port : Nat) (v : Word) : (pushPort s w port v).memories = s.memories := by
  fun_cases pushPort s w port v <;> simp +zetaDelta

@[simp] theorem memories_takeField (s st : State) (x : Ins) (th : Nat) (k : FK) (v : BitVec 8) (imm : Option Nat) :
    (takeField s st x th k v imm).2.memories = st.memories := by
  unfold takeField
  split
  · split
    · dsimp only
      split
      · simp only [memories_popPort]
      · rfl
    · rfl
  · rfl
  · rfl

@[simp] theorem memories_readOperands (s : State) (x : Ins) (th : Nat) (popped : Bool) :
    (readOperands s x th popped).st.memories = s.memories := by
  simp only [readOperands, memories_takeField]

/-- Reading the operands of a thread pops queue ports alone. -/
theorem gather_memories {s : State} {x : Ins} {th : Nat} {v : Vals} (h : gather s x th = .vals v) :
    v.st.memories = s.memories := by
  unfold gather at h
  simp only at h
  repeat' split at h
  all_goals first | contradiction | skip
  all_goals
    injection h with h
    subst h
    simp only [memories_readOperands]

/-- A thread that a queue port drops has popped nothing. -/
theorem gather_drop {s : State} {x : Ins} {th p : Nat} {v : Vals} (h : gather s x th = .drop p v) : v.st = s := by
  unfold gather at h
  simp only at h
  repeat' split at h
  all_goals first | contradiction | skip
  all_goals
    injection h with _ h
    subst h
    rfl

@[simp] theorem memories_putDest (s : State) (x : Ins) (th n v : Nat) (popped : Bool) (rdy : Nat) :
    (putDest s x th n v popped rdy).memories = s.memories := by
  simp [putDest]

/-! ### Machine/Run -/

@[simp] theorem memories_pmcAdd (s : State) (c sel n : Nat) : (pmcAdd s c sel n).memories = s.memories := by simp [pmcAdd]

@[simp] theorem memories_drain (x : Ins) (s : State) (a : List Nat) : (drain x s a).1.memories = s.memories := by
  fun_induction drain x s a <;> simp_all

@[simp] theorem memories_drainSub (x : Ins) (s : State) (w : Nat) (l : List Nat) :
    (drainSub x s w l).1.memories = s.memories := by
  simp [drainSub]

@[simp] theorem memories_setRun (s : State) (r : Option Run) : (setRun s r).memories = s.memories := by simp [setRun]

@[simp] theorem memories_noEnd (a : State) (a1 : Nat) (a2 : Word) (a3 : Nat) : (noEnd a a1 a2 a3).memories = a.memories := by
  simp [noEnd]

@[simp] theorem memories_closeRun (s : State) (r : Run) (till : Nat) : (closeRun s r till).memories = s.memories := by
  simp [closeRun]

@[simp] theorem memories_finish (endf : EndFn) (s : State) (r : Run) (till : Nat)
    (h : ∀ s w m t, (endf s w m t).memories = s.memories) : (finish endf s r till).memories = s.memories :=
  memories_foldl _ _ _ fun s e => h s e.1 e.2 till

@[simp] theorem memories_goOn (x : Ins) (endf : EndFn) (s : State) (r : Run) (rest : List Nat) (till : Nat)
    (h : ∀ s w m t, (endf s w m t).memories = s.memories) : (goOn x endf s r rest till).memories = s.memories := by
  have hd := memories_drainSub x s r.warp rest
  unfold goOn
  split
  rename_i s1 l e
  rw [e] at hd
  repeat' split
  all_goals simp [h, hd]

@[simp] theorem memories_drainRun (x : Ins) (s : State) (r : Run) : (drainRun x s r).1.memories = s.memories := by simp [drainRun]

@[simp] theorem memories_faultRun (s : State) (r : Run) (t cause acc : Nat) (addr : Dword) :
    (faultRun s r t cause acc addr).memories = s.memories := by
  simp [faultRun]

@[simp] theorem memories_stallAdd (s : State) (c : Nat) (r : Run) : (stallAdd s c r).memories = s.memories := by simp [stallAdd]

/-- A dropped thread leaves the state as it was, or as its checks left it. -/
theorem dropAt_state (s : State) (port : Nat) (known : Bool) (checks : TOut) :
    (dropAt s port known checks).state = s ∨ (dropAt s port known checks).state = checks.state := by
  unfold dropAt
  split
  · exact .inr rfl
  · exact .inr rfl
  · exact .inl rfl

@[simp] theorem memories_dropAt (s : State) (port : Nat) (known : Bool) (checks : TOut)
    (h : checks.state.memories = s.memories) : (dropAt s port known checks).state.memories = s.memories := by
  rcases dropAt_state s port known checks with e | e <;> rw [e]
  exact h

@[simp] theorem memories_passOver (x : Ins) (endf : EndFn) (s : State) (r : Run) (l : List Nat)
    (h : ∀ s w m t, (endf s w m t).memories = s.memories) : (passOver x endf s r l).memories = s.memories :=
  memories_goOn _ _ _ _ _ _ h

/-! ### Machine/Alu -/

@[simp] theorem memories_putFlags (s : State) (x : Ins) (t : Nat) (f : Word) (rdy : Nat) :
    (putFlags s x t f rdy).memories = s.memories := by
  simp [putFlags]

@[simp] theorem memories_putOut (s : State) (x : Ins) (cost t : Nat) (popped : Bool) (o : AluOut) :
    (putOut s x cost t popped o).memories = s.memories := by
  unfold putOut
  cases o.p <;> simp

@[simp] theorem memories_aluThread (fn : Ins → Nat → Nat → Nat → AluOut) (x : Ins) (t : Nat) (s : State) :
    (aluThread fn x t s).state.memories = s.memories := by
  fun_cases aluThread fn x t s
  case case4 v h _ => simp [gather_memories h]
  all_goals rfl

@[simp] theorem memories_aluUniform (fn : Ins → Nat → Nat → Nat → AluOut) (x : Ins) (ps : List Nat) (s : State) :
    (aluUniform fn x ps s).state.memories = s.memories := by
  fun_cases aluUniform fn x ps s <;> simp +zetaDelta

/-! ### Machine/Ecc -/

@[simp] theorem memories_countCorrected (s : State) (line : Nat) : (countCorrected s line).memories = s.memories := by
  simp [countCorrected]

@[simp] theorem memories_countUe (s : State) (line : Nat) : (countUe s line).memories = s.memories := by simp [countUe]

@[simp] theorem memories_countBad (s : State) (line : Nat) : (countBad s line).memories = s.memories := by simp [countBad]

@[simp] theorem memories_trimCache (s : State) (d : Nat) : (trimCache s d).memories = s.memories := by
  unfold trimCache
  simp
  split <;> simp

@[simp] theorem memories_trimWhole (s : State) (d : Nat) : (trimWhole s d).memories = s.memories := by simp [trimWhole]

@[simp] theorem memories_evHomeAgentEviction (s : State) (line : Nat) : (evHomeAgentEviction s line).memories = s.memories := by
  simp [evHomeAgentEviction]

/-! ### Machine/Translate -/

@[simp] theorem memories_tlbTouch (s : State) (core va : Nat) : (tlbTouch s core va).memories = s.memories := by
  fun_cases tlbTouch s core va <;> simp +zetaDelta

@[simp] theorem memories_clearWaits (s : State) (core : Nat) : (clearWaits s core).memories = s.memories := by simp [clearWaits]

@[simp] theorem memories_missSend (s : State) (core va : Nat) : (missSend s core va).memories = s.memories := by simp [missSend]

@[simp] theorem memories_setWalk (s : State) (core va code : Nat) : (setWalk s core va code).memories = s.memories := by
  simp [setWalk]

@[simp] theorem memories_missAnswer (s : State) (core asid va : Nat) (r : Nat ⊕ Trans) :
    (missAnswer s core asid va r).memories = s.memories := by
  cases r <;> simp [missAnswer]

@[simp] theorem memories_startWalks (s : State) (d : Nat) : (startWalks s d).memories = s.memories := by
  fun_cases startWalks s d <;> simp +zetaDelta

@[simp] theorem memories_evTranslationCacheLookup (s : State) (core : Nat) (va : Dword) :
    (evTranslationCacheLookup s core va).memories = s.memories := by
  fun_cases evTranslationCacheLookup s core va <;> simp +zetaDelta

@[simp] theorem memories_endWalk (s : State) (d : Nat) (w : Walk) (r : Nat ⊕ Trans) :
    (endWalk s d w r).memories = s.memories := by
  simp [endWalk]

@[simp] theorem memories_modWalk (s : State) (core : Nat) (va : Dword) (f : Walk → Walk) :
    (modWalk s core va f).memories = s.memories := by
  simp [modWalk]

/-! ### Machine/Engine -/

@[simp] theorem memories_modBar (s : State) (core idx : Nat) (f : Barrier → Barrier) :
    (modBar s core idx f).memories = s.memories := by
  simp [modBar]

@[simp] theorem memories_countOff (s : State) (h : Word) (asid n : Nat) : (countOff s h asid n).1.memories = s.memories := by
  simp [countOff]

@[simp] theorem memories_modSaved (s : State) (k : Nat) (f : Saved → Saved) : (modSaved s k f).memories = s.memories := by
  simp [modSaved]

@[simp] theorem memories_modWarpAt (s : State) (w : Nat) (epoch : BitVec 16) (f : Warp → Warp) :
    (modWarpAt s w epoch f).memories = s.memories := by
  fun_cases modWarpAt s w epoch f <;> simp +zetaDelta

@[simp] theorem memories_pmcAt (s : State) (core : Nat) (epoch : BitVec 16) (sel n : Nat) :
    (pmcAt s core epoch sel n).memories = s.memories := by
  fun_cases pmcAt s core epoch sel n <;> simp +zetaDelta

@[simp] theorem memories_remFail (s : State) (core : Nat) (epoch : BitVec 16) (slot bit cause home : Nat) (va : Dword) :
    (remFail s core epoch slot bit cause home va).memories = s.memories := by
  fun_cases remFail s core epoch slot bit cause home va <;> simp +zetaDelta

@[simp] theorem memories_bufNote (s : State) (d b : Nat) (f : Buf → Buf) : (bufNote s d b f).memories = s.memories := by
  simp [bufNote]

@[simp] theorem memories_bufCount (s : State) (d b n : Nat) : (bufCount s d b n).memories = s.memories := by simp [bufCount]

@[simp] theorem memories_evBufferStateChange (s : State) (d b : Nat) : (evBufferStateChange s d b).memories = s.memories := by
  simp [evBufferStateChange]

@[simp] theorem memories_applyBind (s : State) (r : Req) : (applyBind s r).memories = s.memories := by
  fun_cases applyBind s r <;> simp +zetaDelta

@[simp] theorem memories_issueOp (s : State) (ts : List Nat) (p : Op) : (issueOp s ts p).2.memories = s.memories := by
  simp [issueOp]

@[simp] theorem memories_pollOps (s : State) : (pollOps s).memories = s.memories := by simp [pollOps]

@[simp] theorem memories_sweepOp (s : State) (o : Nat) : (sweepOp s o).memories = s.memories := by simp [sweepOp]

@[simp] theorem memories_completeOp (s : State) (o : Nat) : (completeOp s o).memories = s.memories := by simp [completeOp]

@[simp] theorem memories_evEngineRetirement (s : State) (w c : Nat) : (evEngineRetirement s w c).memories = s.memories := by
  simp [evEngineRetirement]

@[simp] theorem memories_recordFail (s : State) (p : Op) (code : Nat) : (recordFail s p code).memories = s.memories := by
  simp [recordFail]

@[simp] theorem memories_opRemFail (s : State) (p : Op) (code cause home : Nat) (va : Dword) :
    (opRemFail s p code cause home va).memories = s.memories := by
  simp [opRemFail]

@[simp] theorem memories_copyOutTest (s : State) (o : Nat) : (copyOutTest s o).memories = s.memories := by
  fun_cases copyOutTest s o <;> simp +zetaDelta

@[simp] theorem memories_failOp (s : State) (o code cause home : Nat) (va : Dword) (lost : Nat) :
    (failOp s o code cause home va lost).memories = s.memories := by
  fun_cases failOp s o code cause home va lost
  · rfl
  all_goals
    simp +zetaDelta
    split <;> simp

@[simp] theorem memories_landed (s : State) (o n : Nat) : (landed s o n).memories = s.memories := by
  fun_cases landed s o n
  case case2 e => simp [fst_eq e]
  case case3 e _ => simp [fst_eq e]
  case case4 e _ => simp [fst_eq e]
  all_goals rfl

@[simp] theorem memories_modChunk (s : State) (o k : Nat) (f : Chunk → Chunk) : (modChunk s o k f).memories = s.memories := by
  simp [modChunk]

@[simp] theorem memories_chunkTest (s : State) (o k : Nat) : (chunkTest s o k).memories = s.memories := by simp [chunkTest]

@[simp] theorem memories_engReadEnd (s : State) (id : Nat) (r : Req) : (engReadEnd s id r).memories = s.memories := by
  simp [engReadEnd]

@[simp] theorem memories_engWriteEnd (s : State) (id : Nat) (r : Req) : (engWriteEnd s id r).memories = s.memories := by
  simp [engWriteEnd]

@[simp] theorem memories_engEnd (s : State) (id : Nat) (r : Req) : (engEnd s id r).memories = s.memories := by
  fun_cases engEnd s id r <;> simp +zetaDelta

@[simp] theorem memories_modSet (s : State) (p : Op) (f : AnvilSet → AnvilSet) : (modSet s p f).memories = s.memories := by
  simp [modSet]

@[simp] theorem memories_noteRetired (s : State) (p : Op) : (noteRetired s p).memories = s.memories := by simp [noteRetired]

@[simp] theorem memories_sweepLeft (s : State) (core : Nat) : (sweepLeft s core).memories = s.memories := by simp [sweepLeft]

@[simp] theorem memories_noteFail (s : State) (o code cause home : Nat) (va : Dword) :
    (noteFail s o code cause home va).memories = s.memories := by
  simp [noteFail]

@[simp] theorem memories_engFail (s : State) (id code cause : Nat) : (engFail s id code cause).memories = s.memories := by
  simp [engFail]

/-! ### Machine/Perform -/

@[simp] theorem memories_l1Fill (s : State) (core cls pa : Nat) (ldc : Bool) :
    (l1Fill s core cls pa ldc).memories = s.memories := by
  simp [l1Fill]

@[simp] theorem memories_l1Store (s : State) (core pa : Nat) (b : List Byte) : (l1Store s core pa b).memories = s.memories := by
  simp [l1Store]

@[simp] theorem memories_l1Drop (s : State) (core pa : Nat) : (l1Drop s core pa).memories = s.memories := by simp [l1Drop]

@[simp] theorem memories_l1Acquire (s : State) (core : Nat) : (l1Acquire s core).memories = s.memories := by simp [l1Acquire]

@[simp] theorem memories_evL1SectorExpiry (s : State) (core k : Nat) : (evL1SectorExpiry s core k).memories = s.memories := by
  simp [evL1SectorExpiry]

@[simp] theorem memories_rdcDrop (s : State) (line : Nat) : (rdcDrop s line).memories = s.memories := by simp [rdcDrop]

@[simp] theorem memories_rdcClear (s : State) (d : Nat) : (rdcClear s d).memories = s.memories := by simp [rdcClear]

@[simp] theorem memories_landRegs (s : State) (l : Landing) : (landRegs s l).memories = s.memories := by simp [landRegs]

@[simp] theorem memories_walkRead (s : State) (r : Req) : (walkRead s r).memories = s.memories := by simp [walkRead]

@[simp] theorem memories_performMate (s : State) (lead : Req) (id : Nat) : (performMate s lead id).memories = s.memories := by
  simp [performMate]

@[simp] theorem memories_pollMate (s : State) (id : Nat) : (pollMate s id).memories = s.memories := by simp [pollMate]

@[simp] theorem memories_freeMates (s : State) (a : List Nat) : (freeMates s a).memories = s.memories := by
  fun_cases freeMates s a <;> simp +zetaDelta

@[simp] theorem memories_atciHome (s : State) (id : Nat) : (atciHome s id).memories = s.memories := by simp [atciHome]

@[simp] theorem memories_takeCopy (s : State) (d pa level : Nat) : (takeCopy s d pa level).memories = s.memories := by
  simp [takeCopy]

@[simp] theorem memories_answerReq (s : State) (id d : Nat) : (answerReq s id d).memories = s.memories := by simp [answerReq]

@[simp] theorem memories_toAgent (s : State) (id : Nat) : (toAgent s id).memories = s.memories := by simp [toAgent]

@[simp] theorem memories_takeNow (s : State) (id v n : Nat) : (takeNow s id v n).memories = s.memories :=
  (memories_post ..).trans (memories_modReq ..)

/-! ### Machine/Lines -/

@[simp] theorem memories_setMeta (s : State) (agent line : Nat) (m : Meta) : (setMeta s agent line m).memories = s.memories := by
  simp [setMeta]

@[simp] theorem memories_modTxn (s : State) (agent key : Nat) (f : Txn → Txn) : (modTxn s agent key f).memories = s.memories := by
  simp [modTxn]

@[simp] theorem memories_sendHolder (s : State) (a b : Nat) (e : Ev) : (sendHolder s a b e).memories = s.memories := by
  simp [sendHolder]

@[simp] theorem memories_sendPlan (s : State) (agent key line : Nat) (wb : Bool) (p : List (Nat × Nat)) :
    (sendPlan s agent key line wb p).memories = s.memories := by
  simp [sendPlan]

@[simp] theorem memories_poisonLine (s : State) (line : Nat) : (poisonLine s line).memories = s.memories := by simp [poisonLine]

@[simp] theorem memories_caskLost (s : State) (d line holder : Nat) : (caskLost s d line holder).memories = s.memories := by
  simp [caskLost]

@[simp] theorem memories_startPlan (s : State) (agent key line r : Nat) (e : Ev) :
    (startPlan s agent key line r e).memories = s.memories := by
  fun_cases startPlan s agent key line r e <;> simp +zetaDelta

@[simp] theorem memories_markDirty (s : State) (d pa : Nat) : (markDirty s d pa).memories = s.memories := by simp [markDirty]

/-! ### Machine/Cask -/

@[simp] theorem memories_modRegion (s : State) (home idx : Nat) (f : Region → Region) :
    (modRegion s home idx f).memories = s.memories := by
  simp [modRegion]

@[simp] theorem memories_sendCask (s : State) (a b : Nat) (e : Ev) : (sendCask s a b e).memories = s.memories := by
  simp [sendCask]

@[simp] theorem memories_resplit (s : State) (home idx : Nat) (joiner : Option Nat) :
    (resplit s home idx joiner).memories = s.memories := by
  simp [resplit]

@[simp] theorem memories_evResplitAck (s : State) (home idx : Nat) : (evResplitAck s home idx).memories = s.memories := by
  simp [evResplitAck]

@[simp] theorem memories_drainEntry (s : State) (d line closes : Nat) : (drainEntry s d line closes).memories = s.memories := by
  simp [drainEntry]

@[simp] theorem memories_evResplitShare (s : State) (home idx d : Nat) (share : Word) (ack : Bool) :
    (evResplitShare s home idx d share ack).memories = s.memories := by
  simp [evResplitShare]

@[simp] theorem memories_openAt (s : State) (line d : Nat) : (openAt s line d).memories = s.memories := by
  fun_cases openAt s line d <;> simp +zetaDelta

@[simp] theorem memories_evRacking (s : State) (line d : Nat) : (evRacking s line d).memories = s.memories := by
  fun_cases evRacking s line d <;> simp +zetaDelta

@[simp] theorem memories_sendRacking (s : State) (line : Nat) (codes : List Nat) (all : Bool) :
    (sendRacking s line codes all).memories = s.memories := by
  simp [sendRacking]

@[simp] theorem memories_endRacking (s : State) (line : Nat) (racked : List Nat) :
    (endRacking s line racked).memories = s.memories := by
  simp [endRacking]

/-! ### Machine/Agents -/

@[simp] theorem memories_goUp (s : State) (agent key line q : Nat) (own : Bool) :
    (goUp s agent key line q own).memories = s.memories := by
  fun_cases goUp s agent key line q own <;> simp +zetaDelta

@[simp] theorem memories_poisonPlan (s : State) (agent key line cause : Nat) :
    (poisonPlan s agent key line cause).memories = s.memories := by
  simp [poisonPlan]

@[simp] theorem memories_lostOwner (s : State) (agent line : Nat) : (lostOwner s agent line).memories = s.memories := by
  simp [lostOwner]

@[simp] theorem memories_proxyVisit (s : State) (agent line : Nat) : (proxyVisit s agent line).memories = s.memories := by
  simp [proxyVisit]

@[simp] theorem memories_countDown (s : State) (id : Nat) : (countDown s id).memories = s.memories := by simp [countDown]

@[simp] theorem memories_proxyDirty (s : State) (agent line : Nat) (d : BitVec 2) :
    (proxyDirty s agent line d).memories = s.memories := by
  simp [proxyDirty]

@[simp] theorem memories_clearTxn (s : State) (agent key : Nat) : (clearTxn s agent key).memories = s.memories := by
  simp [clearTxn]

@[simp] theorem memories_evDieCacheEviction (s : State) (d line : Nat) : (evDieCacheEviction s d line).memories = s.memories := by
  fun_cases evDieCacheEviction s d line <;> simp +zetaDelta

@[simp] theorem memories_evGenerationAdvance (s : State) (d id : Nat) : (evGenerationAdvance s d id).memories = s.memories := by
  fun_cases evGenerationAdvance s d id <;> simp +zetaDelta

/-! ### Machine/Moves -/

@[simp] theorem memories_movxThread (x : Ins) (t : Nat) (s : State) : (movxThread x t s).state.memories = s.memories := by
  fun_cases movxThread x t s
  case case6 v h _ _ _ _ => simp [gather_memories h]
  all_goals rfl

@[simp] theorem memories_movxwThread (x : Ins) (t : Nat) (s : State) : (movxwThread x t s).state.memories = s.memories := by
  unfold movxwThread
  split
  · rfl
  · rename_i v h
    exact memories_dropAt _ _ _ _ (by simp [gather_drop h])
  · rename_i v h
    simp [gather_memories h]

@[simp] theorem memories_writeSr (s : State) (t n v : Nat) : (writeSr s t n v).memories = s.memories := by
  fun_cases writeSr s t n v <;> simp +zetaDelta

@[simp] theorem memories_movsThread (x : Ins) (t : Nat) (s : State) : (movsThread x t s).state.memories = s.memories := by
  fun_cases movsThread x t s <;> simp +zetaDelta

@[simp] theorem memories_setsThread (x : Ins) (t : Nat) (s : State) : (setsThread x t s).state.memories = s.memories := by
  fun_cases setsThread x t s <;> simp +zetaDelta

/-! ### Machine/Memory -/

@[simp] theorem memories_missWait (s : State) (core : Nat) (addr : Dword) : (missWait s core addr).memories = s.memories := by
  simp [missWait]

@[simp] theorem memories_fenceEnd (s : State) (t order scope : Nat) : (fenceEnd s t order scope).memories = s.memories := by
  simp [fenceEnd]

@[simp] theorem memories_bufdThread (x : Ins) (t : Nat) (s : State) : (bufdThread x t s).state.memories = s.memories := by
  fun_cases bufdThread x t s
  case case2 =>
    refine memories_dropAt _ _ _ _ ?_
    split <;> rfl
  case case5 e _ => simp [snd_eq e]
  all_goals rfl

@[simp] theorem memories_bufsThread (x : Ins) (t : Nat) (s : State) : (bufsThread x t s).state.memories = s.memories := by
  fun_cases bufsThread x t s <;> simp +zetaDelta

@[simp] theorem memories_buffThread (x : Ins) (t : Nat) (s : State) : (buffThread x t s).state.memories = s.memories := by
  fun_cases buffThread x t s <;> simp +zetaDelta

@[simp] theorem memories_flshThread (x : Ins) (t : Nat) (s : State) : (flshThread x t s).state.memories = s.memories := by
  simp [flshThread]

/-! ### Machine/Fetch -/

@[simp] theorem memories_decodeFault (s : State) (r : Run) (f : DecodeFault) : (decodeFault s r f).memories = s.memories := by
  simp [decodeFault]

/-! ### Machine/Control -/

@[simp] theorem memories_braThread (x : Ins) (t : Nat) (s : State) : (braThread x t s).state.memories = s.memories := by
  fun_cases braThread x t s <;> simp +zetaDelta

@[simp] theorem memories_settle (s : State) (t from_ clks : Nat) : (settle s t from_ clks).memories = s.memories := by
  simp [settle]

@[simp] theorem memories_exitThread (s : State) (t later : Nat) : (exitThread s t later).memories = s.memories := by
  simp [exitThread]

@[simp] theorem memories_sleepThread (x : Ins) (t : Nat) (s : State) : (sleepThread x t s).state.memories = s.memories := by
  fun_cases sleepThread x t s <;> simp +zetaDelta

@[simp] theorem memories_evSleepExpiry (s : State) (t : Nat) : (evSleepExpiry s t).memories = s.memories := by
  simp [evSleepExpiry]

/-! ### Machine/Sync -/

@[simp] theorem memories_sendBarRep (s : State) (core : Nat) (r : BarrierRep) : (sendBarRep s core r).memories = s.memories := by
  simp [sendBarRep]

@[simp] theorem memories_wakePhase (s : State) (core idx : Nat) : (wakePhase s core idx).memories = s.memories := by
  simp [wakePhase]

@[simp] theorem memories_settleBars (s : State) : (settleBars s).memories = s.memories := by simp [settleBars]

@[simp] theorem memories_sendBar (s : State) (core : Nat) (m : BarrierMsg) : (sendBar s core m).memories = s.memories := by
  fun_cases sendBar s core m <;> simp +zetaDelta

@[simp] theorem memories_barFree (s : State) (h : Word) (asid n : Nat) : (barFree s h asid n).1.memories = s.memories := by
  simp [barFree]

@[simp] theorem memories_evBarrierMessage (s : State) (m : BarrierMsg) : (evBarrierMessage s m).memories = s.memories := by
  fun_cases evBarrierMessage s m
  case case12 e _ _ _ _ _ => simp [fst_eq e]
  all_goals simp

@[simp] theorem memories_issueBar (s : State) (x : Ins) (t op : Nat) (h arg : Word) :
    (issueBar s x t op h arg).2.memories = s.memories := by
  simp [issueBar]

theorem memories_dueFault (t : Nat) (s : State) (k : State → TOut) (h : (k s).state.memories = s.memories) :
    (dueFault t s k).state.memories = s.memories := by
  simp [dueFault, h]

theorem memories_withHandle (s : State) (t : Nat) (v : Vals) (here far : Vals → Word → State → TOut)
    (h : ∀ v h s, (here v h s).state.memories = s.memories) (f : ∀ v h s, (far v h s).state.memories = s.memories) :
    (withHandle s t v here far).state.memories = s.memories := by
  simp [withHandle, h, f]

/-- An instruction on a barrier handle keeps the memories where its two ways of going on do. -/
theorem memories_onHandle (x : Ins) (t : Nat) (s : State) (here far : Vals → Word → State → TOut)
    (h : ∀ v h s, (here v h s).state.memories = s.memories) (f : ∀ v h s, (far v h s).state.memories = s.memories) :
    (onHandle x t s here far).state.memories = s.memories := by
  unfold onHandle
  refine memories_dueFault _ _ _ ?_
  split
  · rfl
  · exact memories_dropAt _ _ _ _ (memories_withHandle _ _ _ _ _ (fun _ _ _ => rfl) fun _ _ _ => rfl)
  · exact memories_withHandle _ _ _ _ _ h f

@[simp] theorem memories_barvThread (x : Ins) (t : Nat) (s : State) : (barvThread x t s).state.memories = s.memories := by
  refine memories_onHandle _ _ _ _ _ (fun v h s => ?_) (fun v h s => ?_)
  · simp only [TOut.state_ite, memories_ite]
    split
    all_goals
      simp
      intro _
      split <;> simp
  · simp

@[simp] theorem memories_bwaitThread (x : Ins) (t : Nat) (s : State) : (bwaitThread x t s).state.memories = s.memories := by
  refine memories_onHandle _ _ _ _ _ (fun v h s => ?_) (fun v h s => ?_) <;> simp

@[simp] theorem memories_btestThread (x : Ins) (t : Nat) (s : State) : (btestThread x t s).state.memories = s.memories := by
  refine memories_onHandle _ _ _ _ _ (fun v h s => ?_) (fun v h s => ?_) <;> simp

@[simp] theorem memories_ballocSub (x : Ins) (ps : List Nat) (s : State) : (ballocSub x ps s).state.memories = s.memories := by
  fun_cases ballocSub x ps s <;> simp +zetaDelta

@[simp] theorem memories_bfreeSub (x : Ins) (ps : List Nat) (s : State) : (bfreeSub x ps s).state.memories = s.memories := by
  refine memories_onHandle _ _ _ _ _ (fun v h s => ?_) (fun v h s => ?_)
  · split
    · rfl
    · split <;> (rename_i e; simp [fst_eq e])
  · simp

@[simp] theorem memories_modCv (s : State) (core i : Nat) (f : Cv → Cv) : (modCv s core i f).memories = s.memories := by
  simp [modCv]

@[simp] theorem memories_cvTest (s : State) (core i : Nat) : (cvTest s core i).memories = s.memories := by simp [cvTest]

@[simp] theorem memories_csignThread (x : Ins) (t : Nat) (s : State) : (csignThread x t s).state.memories = s.memories := by
  fun_cases csignThread x t s
  case case2 => exact memories_dropAt _ _ _ _ rfl
  all_goals simp +zetaDelta

/-! ### Machine/Copy -/

@[simp] theorem memories_engReq (s : State) (o key : Nat) (k : ReqKind) (q : Piece) (data : List Byte) :
    (engReq s o key k q data).2.memories = s.memories := by
  simp [engReq]

@[simp] theorem memories_pumpCopy (s : State) (d : Nat) : (pumpCopy s d).memories = s.memories := by simp [pumpCopy]

@[simp] theorem memories_endChunk (s : State) (o k : Nat) : (endChunk s o k).memories = s.memories := by simp [endChunk]

@[simp] theorem memories_chunkFails (s : State) (o k code : Nat) (va : Dword) :
    (chunkFails s o k code va).memories = s.memories := by
  simp [chunkFails]

@[simp] theorem memories_bufStart (s : State) (o : Nat) : (bufStart s o).1.memories = s.memories := by
  fun_cases bufStart s o <;> simp +zetaDelta

@[simp] theorem memories_wakeRows (s : State) (o k : Nat) : (wakeRows s o k).memories = s.memories := by simp [wakeRows]

@[simp] theorem memories_finishOp (s : State) (o : Nat) : (finishOp s o).memories = s.memories := by simp [finishOp]

@[simp] theorem memories_cpyBody (x : Ins) (t : Nat) (v : Vals) (s : State) : (cpyBody x t v s).state.memories = s.memories := by
  fun_cases cpyBody x t v s <;> simp +zetaDelta

@[simp] theorem memories_cpyThread (x : Ins) (t : Nat) (s : State) : (cpyThread x t s).state.memories = s.memories := by
  fun_cases cpyThread x t s <;> simp

@[simp] theorem memories_gathBody (x : Ins) (t : Nat) (v : Vals) (s : State) :
    (gathBody x t v s).state.memories = s.memories := by
  fun_cases gathBody x t v s <;> simp +zetaDelta

@[simp] theorem memories_gathThread (x : Ins) (t : Nat) (s : State) : (gathThread x t s).state.memories = s.memories := by
  fun_cases gathThread x t s <;> simp

@[simp] theorem memories_putnBody (x : Ins) (t : Nat) (v : Vals) (s : State) :
    (putnBody x t v s).state.memories = s.memories := by
  fun_cases putnBody x t v s <;> simp +zetaDelta

@[simp] theorem memories_putnThread (x : Ins) (t : Nat) (s : State) : (putnThread x t s).state.memories = s.memories := by
  fun_cases putnThread x t s <;> simp

@[simp] theorem memories_cpyqThread (x : Ins) (t : Nat) (s : State) : (cpyqThread x t s).state.memories = s.memories := by
  simp [cpyqThread]

/-! ### Machine/Anvil -/

@[simp] theorem memories_modTile (s : State) (core tile : Nat) (f : KV Word → KV Word) :
    (modTile s core tile f).memories = s.memories := by
  simp [modTile]

@[simp] theorem memories_modOpTile (s : State) (p : Op) (f : KV Word → KV Word) : (modOpTile s p f).memories = s.memories := by
  simp [modOpTile]

@[simp] theorem memories_noteRead (s : State) (o : Nat) (va : Dword) (f : ReadFail) :
    (noteRead s o va f).memories = s.memories := by
  fun_cases noteRead s o va f <;> simp +zetaDelta

@[simp] theorem memories_pollAnvil (s : State) (core : Nat) : (pollAnvil s core).memories = s.memories := by
  refine memories_foldl _ _ _ fun s o => ?_
  split <;> simp

@[simp] theorem memories_pollAnvils (s : State) : (pollAnvils s).memories = s.memories := by simp [pollAnvils]

@[simp] theorem memories_evWeightLoadStart (s : State) (o : Nat) : (evWeightLoadStart s o).memories = s.memories := by
  simp [evWeightLoadStart]

@[simp] theorem memories_evWswpTakesEffect (s : State) (o : Nat) : (evWswpTakesEffect s o).memories = s.memories := by
  simp [evWswpTakesEffect]

@[simp] theorem memories_drainNote (s : State) (p : Op) (f : Buf → Buf) : (drainNote s p f).memories = s.memories := by
  fun_cases drainNote s p f <;> simp +zetaDelta

@[simp] theorem memories_anvilEnd (s : State) (o code : Nat) : (anvilEnd s o code).memories = s.memories := by simp [anvilEnd]

@[simp] theorem memories_addRows (s : State) (p : Op) (w : Weights) (at_ : Nat) (rows : List Row) :
    (addRows s p w at_ rows).memories = s.memories := by
  simp [addRows]

@[simp] theorem memories_runArray (s : State) (o rows occ last : Nat) : (runArray s o rows occ last).memories = s.memories := by
  simp [runArray]

@[simp] theorem memories_evArrayOperationRetire (s : State) (o : Nat) : (evArrayOperationRetire s o).memories = s.memories := by
  simp [evArrayOperationRetire]

@[simp] theorem memories_sendAdd (s : State) (o : Nat) : (sendAdd s o).memories = s.memories := by
  fun_cases sendAdd s o <;> simp +zetaDelta

@[simp] theorem memories_evRoundFire (s : State) (core i : Nat) : (evRoundFire s core i).memories = s.memories := by
  unfold evRoundFire
  simp
  split
  · rfl
  · simp
    intros
    refine (memories_foldl _ _ _ fun s e => ?_).trans (memories_modCv ..)
    split <;> simp

@[simp] theorem memories_anvilSub (x : Ins) (body : Nat → Vals → State → (Nat × Nat × Dword) ⊕ Op) (ps : List Nat) (s : State) :
    (anvilSub x body ps s).state.memories = s.memories := by
  fun_cases anvilSub x body ps s
  case case3 =>
    refine memories_dropAt _ _ _ _ ?_
    split <;> rfl
  case case5 e => simp [snd_eq e]
  all_goals rfl

@[simp] theorem memories_mmaSub (x : Ins) (ps : List Nat) (s : State) : (mmaSub x ps s).state.memories = s.memories := by
  unfold mmaSub
  simp
  split <;> simp

theorem memories_atTile (s : State) (t tile : Nat) (k : State → TOut) (h : ∀ s, (k s).state.memories = s.memories) :
    (atTile s t tile k).state.memories = s.memories := by
  simp [atTile, h]

@[simp] theorem memories_accrThread (x : Ins) (t : Nat) (s : State) : (accrThread x t s).state.memories = s.memories := by
  fun_cases accrThread x t s
  case case4 => exact memories_atTile _ _ _ _ fun s => by simp
  all_goals rfl

@[simp] theorem memories_accwBody (x : Ins) (t : Nat) (v : Vals) (s : State) : (accwBody x t v s).state.memories = s.memories := by
  fun_cases accwBody x t v s
  · rfl
  · exact memories_atTile _ _ _ _ fun s => by simp

@[simp] theorem memories_accwThread (x : Ins) (t : Nat) (s : State) : (accwThread x t s).state.memories = s.memories := by
  fun_cases accwThread x t s <;> simp

@[simp] theorem memories_startPress (s : State) (o : Nat) : (startPress s o).memories = s.memories := by simp [startPress]

/-! ### Machine/Rings -/

@[simp] theorem memories_freeBinds (s : State) (d : Nat) : (freeBinds s d).memories = s.memories := by simp [freeBinds]

@[simp] theorem memories_evHandoffEntryArrival (s : State) (w port src : Nat) (v : Word) (we se : BitVec 16) (seq : Nat) :
    (evHandoffEntryArrival s w port src v we se seq).memories = s.memories := by
  simp [evHandoffEntryArrival]

@[simp] theorem memories_modRec (s : State) (o : Nat) (f : RingRec → RingRec) : (modRec s o f).memories = s.memories := by
  simp [modRec]

@[simp] theorem memories_ringTest (s : State) (o : Nat) : (ringTest s o).memories = s.memories := by simp [ringTest]

@[simp] theorem memories_pumpRing (s : State) (d : Nat) : (pumpRing s d).memories = s.memories := by simp [pumpRing]

@[simp] theorem memories_joinInst (s : State) (d : Nat) (p : Op) : (joinInst s d p).2.memories = s.memories := by
  unfold joinInst
  simp
  split <;> simp

@[simp] theorem memories_failPart (s : State) (o code cause home : Nat) (va : Dword) :
    (failPart s o code cause home va).memories = s.memories := by
  simp [failPart]

@[simp] theorem memories_failInstance (s : State) (p : Op) (code cause home : Nat) (va : Dword) :
    (failInstance s p code cause home va).memories = s.memories := by
  refine (memories_foldl _ _ _ fun s d => ?_).trans (memories_mk ..)
  split <;> simp

@[simp] theorem memories_queueStep (s : State) (o kind chunk tile dst : Nat) (data : List Word) (nan : Nat) :
    (queueStep s o kind chunk tile dst data nan).memories = s.memories := by
  simp [queueStep]

@[simp] theorem memories_sendStep (s : State) (o : Nat) (st : RingStep) : (sendStep s o st).memories = s.memories := by
  fun_cases sendStep s o st <;> simp +zetaDelta

@[simp] theorem memories_evRingStepAck (s : State) (id : Nat) : (evRingStepAck s id).memories = s.memories := by
  fun_cases evRingStepAck s id <;> simp +zetaDelta

@[simp] theorem memories_evStepResendNotice (s : State) (id : Nat) : (evStepResendNotice s id).memories = s.memories := by
  fun_cases evStepResendNotice s id <;> simp +zetaDelta

@[simp] theorem memories_ringTileDone (s : State) (o : Nat) : (ringTileDone s o).memories = s.memories := by simp [ringTileDone]

@[simp] theorem memories_ringEnqueue (s : State) (o : Nat) : (ringEnqueue s o).memories = s.memories := by
  fun_cases ringEnqueue s o <;> simp +zetaDelta

@[simp] theorem memories_newRec (s : State) (d : Nat) (r : RingRec) : (newRec s d r).memories = s.memories := by simp [newRec]

@[simp] theorem memories_collBody (x : Ins) (ps : List Nat) (v : Vals) (s : State) :
    (collBody x ps v s).state.memories = s.memories := by
  unfold collBody
  simp
  repeat' split
  all_goals simp

@[simp] theorem memories_collSub (x : Ins) (ps : List Nat) (s : State) : (collSub x ps s).state.memories = s.memories := by
  fun_cases collSub x ps s <;> simp

@[simp] theorem memories_mapqLand (s : State) (l : Landing) : (mapqLand s l).memories = s.memories := by simp [mapqLand]

@[simp] theorem memories_mapqThread (x : Ins) (t : Nat) (s : State) : (mapqThread x t s).state.memories = s.memories := by
  fun_cases mapqThread x t s
  case case7 e => simp +zetaDelta [snd_eq e]
  all_goals simp

/-! ### Machine/Dispatcher -/

@[simp] theorem memories_modStrip (s : State) (l x : Nat) (f : Strip → Strip) : (modStrip s l x f).memories = s.memories := by
  simp [modStrip]

@[simp] theorem memories_dispSend (s : State) (src dst : Nat) (e : Ev) : (dispSend s src dst e).memories = s.memories := by
  simp [dispSend]

@[simp] theorem memories_setCoreRegs (s : State) (c : Nat) (lanes : KV Lane) (warps : KV Warp) (threads : KV Thread) :
    (setCoreRegs s c lanes warps threads).memories = s.memories := by
  simp [setCoreRegs]

@[simp] theorem memories_startCohort (s : State) (c : Nat) (h : Cohort) (entry : Dword) :
    (startCohort s c h entry).memories = s.memories := by
  simp [startCohort]

@[simp] theorem memories_grantNext (s : State) (l x : Nat) : (grantNext s l x).memories = s.memories := by
  fun_cases grantNext s l x <;> simp +zetaDelta

@[simp] theorem memories_evCohortIndexRequest (s : State) (l x d : Nat) :
    (evCohortIndexRequest s l x d).memories = s.memories := by
  simp [evCohortIndexRequest]

@[simp] theorem memories_evMirrorRecord (s : State) (l x c d : Nat) : (evMirrorRecord s l x c d).memories = s.memories := by
  fun_cases evMirrorRecord s l x c d <;> simp +zetaDelta

@[simp] theorem memories_evPowerHeadroomReport (s : State) (d : Nat) : (evPowerHeadroomReport s d).memories = s.memories := by
  simp [evPowerHeadroomReport]

@[simp] theorem memories_closeSpan (s : State) (l x d : Nat) : (closeSpan s l x d).memories = s.memories := by simp [closeSpan]

@[simp] theorem memories_closeStrip (s : State) (l x : Nat) : (closeStrip s l x).memories = s.memories := by simp [closeStrip]

@[simp] theorem memories_pollLaunches (s : State) : (pollLaunches s).memories = s.memories := by simp [pollLaunches]

@[simp] theorem memories_freeObjects (s : State) (c : Nat) : (freeObjects s c).memories = s.memories := by simp [freeObjects]

@[simp] theorem memories_dropUnfired (s : State) (c : Nat) : (dropUnfired s c).memories = s.memories := by simp [dropUnfired]

@[simp] theorem memories_reclaimCore (s : State) (c : Nat) : (reclaimCore s c).memories = s.memories := by simp [reclaimCore]

@[simp] theorem memories_leaveLaunch (s : State) (h : Cohort) (d : Nat) : (leaveLaunch s h d).memories = s.memories := by
  simp [leaveLaunch]

@[simp] theorem memories_evClass3Starvation (s : State) (l : Nat) : (evClass3Starvation s l).memories = s.memories := by
  fun_cases evClass3Starvation s l <;> simp +zetaDelta

@[simp] theorem memories_dirWritten (s : State) (p a : Nat) : (dirWritten s p a).memories = s.memories := by simp [dirWritten]

/-! ### Machine/Fabric -/

@[simp] theorem memories_lostEv (s : State) (m : Msg) : (lostEv s m).memories = s.memories := by
  fun_cases lostEv s m <;> simp +zetaDelta

@[simp] theorem memories_dropMsg (s : State) (id : Nat) : (dropMsg s id).memories = s.memories := by simp [dropMsg]

@[simp] theorem memories_answerFor (s : State) (a key h : Nat) : (answerFor s a key h).memories = s.memories := by
  simp [answerFor]

@[simp] theorem memories_closeCasks (s : State) : (closeCasks s).memories = s.memories := by simp [closeCasks]

@[simp] theorem memories_failLost (s : State) : (failLost s).memories = s.memories := by
  unfold failLost
  refine (memories_foldl _ _ _ fun s o => ?_).trans ?_
  · simp
    split <;> simp
  refine (memories_foldl _ _ _ fun s o => ?_).trans ?_
  · split
    · split
      · simp
        split <;> simp
      · rfl
    · rfl
  refine (memories_foldl _ _ _ fun s d => ?_).trans ?_
  · simp
  refine (memories_foldl _ _ _ fun s r => ?_).trans ?_
  · simp
    intros
    split <;> simp
  simp

@[simp] theorem memories_grantFlits (n : Nat) (s : State) (dir : Nat) : (grantFlits n s dir).memories = s.memories := by
  induction n generalizing s with
  | zero => rfl
  | succ n ih =>
    unfold grantFlits
    repeat' split
    all_goals simp [ih]

@[simp] theorem memories_armIdle (s : State) (dir : Nat) : (armIdle s dir).memories = s.memories := by simp [armIdle]

@[simp] theorem memories_evBridgeFlit (s : State) (dir id : Nat) : (evBridgeFlit s dir id).memories = s.memories := by
  fun_cases evBridgeFlit s dir id <;> simp +zetaDelta

@[simp] theorem memories_evDirectionIdle (s : State) (dir : Nat) : (evDirectionIdle s dir).memories = s.memories := by
  simp [evDirectionIdle]

@[simp] theorem memories_evDirectionSleep (s : State) (dir : Nat) : (evDirectionSleep s dir).memories = s.memories := by
  simp [evDirectionSleep]

@[simp] theorem memories_evLinkWakeComplete (s : State) (dir : Nat) : (evLinkWakeComplete s dir).memories = s.memories := by
  simp [evLinkWakeComplete]

@[simp] theorem memories_bridgeErrors (s : State) (b n : Nat) : (bridgeErrors s b n).memories = s.memories := by
  simp [bridgeErrors]

@[simp] theorem memories_evLinkWakeError (s : State) (dir : Nat) : (evLinkWakeError s dir).memories = s.memories := by
  simp [evLinkWakeError]

@[simp] theorem memories_evBridgeCrcFailure (s : State) (b : Nat) (retrained : Bool) :
    (evBridgeCrcFailure s b retrained).memories = s.memories := by
  simp [evBridgeCrcFailure]

@[simp] theorem memories_evErrcntWindowExpiry (s : State) (b : Nat) : (evErrcntWindowExpiry s b).memories = s.memories := by
  simp [evErrcntWindowExpiry]

@[simp] theorem memories_evBridgeDeclaredFailed (s : State) (b : Nat) : (evBridgeDeclaredFailed s b).memories = s.memories := by
  simp [evBridgeDeclaredFailed]

@[simp] theorem memories_sendHeld (s : State) (b : Nat) : (sendHeld s b).memories = s.memories := by simp [sendHeld]

@[simp] theorem memories_evRingWrapComplete (s : State) (b : Nat) : (evRingWrapComplete s b).memories = s.memories := by
  simp [evRingWrapComplete]

@[simp] theorem memories_evHeartbeat (s : State) (d : Nat) : (evHeartbeat s d).memories = s.memories := by simp [evHeartbeat]

@[simp] theorem memories_queueLoss (s : State) (d : Nat) : (queueLoss s d).memories = s.memories := by simp [queueLoss]

@[simp] theorem memories_emptyDie (s : State) (d : Nat) : (emptyDie s d).memories = s.memories := by simp [emptyDie]

@[simp] theorem memories_linkRec (s : State) (l kind : Nat) : (linkRec s l kind).memories = s.memories := by simp [linkRec]

@[simp] theorem memories_grantFlit (s : State) (l : Nat) (f : Flit) : (grantFlit s l f).2.memories = s.memories := by
  simp [grantFlit]

@[simp] theorem memories_putFlit (s : State) (l : Nat) (f : Flit) : (putFlit s l f).memories = s.memories := by simp [putFlit]

@[simp] theorem memories_putSequenced (s : State) (l : Nat) (f : Flit) : (putSequenced s l f).memories = s.memories := by
  simp [putSequenced]

@[simp] theorem memories_sendParts (n : Nat) (s : State) (l vc id : Nat) : (sendParts n s l vc id).memories = s.memories := by
  induction n generalizing s with
  | zero => rfl
  | succ n ih =>
    unfold sendParts
    simp only
    repeat' split
    all_goals simp [ih]

@[simp] theorem memories_sendWaiting (s : State) (l : Nat) (es : List (Nat × Nat)) : (sendWaiting s l es).memories = s.memories := by
  induction es generalizing s with
  | nil => rfl
  | cons e es ih => simp [sendWaiting, ih]

@[simp] theorem memories_sendMarkers (s : State) (l : Nat) : (sendMarkers s l).memories = s.memories := by simp [sendMarkers]

@[simp] theorem memories_drainTest (s : State) (d : Nat) : (drainTest s d).memories = s.memories := by simp [drainTest]

@[simp] theorem memories_armTimer (s : State) (l : Nat) : (armTimer s l).memories = s.memories := by simp [armTimer]

@[simp] theorem memories_sendRestripe (s : State) (l : Nat) : (sendRestripe s l).memories = s.memories := by simp [sendRestripe]

@[simp] theorem memories_sendRelock (s : State) (l : Nat) : (sendRelock s l).memories = s.memories := by simp [sendRelock]

@[simp] theorem memories_evIdleFlitTimer (s : State) (l : Nat) : (evIdleFlitTimer s l).memories = s.memories := by
  simp [evIdleFlitTimer]

@[simp] theorem memories_takeHeader (s : State) (l : Nat) (f : Flit) : (takeHeader s l f).memories = s.memories := by
  simp [takeHeader]

@[simp] theorem memories_askReplay (s : State) (l : Nat) : (askReplay s l).memories = s.memories := by simp [askReplay]

theorem memories_takeFlit (s : State) (l kind : Nat) (w : Wire) (k : State → Flit → State)
    (h : ∀ s f, (k s f).memories = s.memories) : (takeFlit s l kind w k).memories = s.memories := by
  unfold takeFlit
  split <;> simp [h]

theorem memories_takeSequenced (s : State) (l kind : Nat) (w : Wire) (k : State → Flit → State)
    (h : ∀ s f, (k s f).memories = s.memories) : (takeSequenced s l kind w k).memories = s.memories :=
  memories_takeFlit _ _ _ _ _ fun s f => by simp [h]

theorem memories_takeUnsequenced (s : State) (l kind : Nat) (w : Wire) (k : State → Flit → State)
    (h : ∀ s f, (k s f).memories = s.memories) : (takeUnsequenced s l kind w k).memories = s.memories :=
  memories_takeFlit _ _ _ _ _ fun s f => by simp [h]

@[simp] theorem memories_evData (s : State) (l : Nat) (w : Wire) : (evData s l w).memories = s.memories :=
  memories_takeSequenced _ _ _ _ _ fun s f => by
    simp only
    split <;> simp

@[simp] theorem memories_evIdle (s : State) (l : Nat) (w : Wire) : (evIdle s l w).memories = s.memories :=
  memories_takeUnsequenced _ _ _ _ _ fun s f => by simp

@[simp] theorem memories_resendFrom (s : State) (l : Nat) (seq : BitVec 16) : (resendFrom s l seq).memories = s.memories := by
  simp [resendFrom]

@[simp] theorem memories_evReplay (s : State) (l : Nat) (w : Wire) : (evReplay s l w).memories = s.memories :=
  memories_takeUnsequenced _ _ _ _ _ fun s f => by simp

@[simp] theorem memories_evReplayRepeatTimer (s : State) (l : Nat) : (evReplayRepeatTimer s l).memories = s.memories := by
  simp [evReplayRepeatTimer]

@[simp] theorem memories_slotsChanged (s : State) (l : Nat) : (slotsChanged s l).memories = s.memories := by
  unfold slotsChanged
  simp
  split <;> simp

@[simp] theorem memories_restripe (s : State) (l : Nat) (dark : BitVec 16) : (restripe s l dark).memories = s.memories := by
  simp [restripe]

@[simp] theorem memories_beginRelock (s : State) (l : Nat) : (beginRelock s l).memories = s.memories := by simp [beginRelock]

@[simp] theorem memories_evRestripe (s : State) (l : Nat) (w : Wire) : (evRestripe s l w).memories = s.memories :=
  memories_takeUnsequenced _ _ _ _ _ fun s f => by simp

@[simp] theorem memories_announce (s : State) (l : Nat) : (announce s l).memories = s.memories := by simp [announce]

@[simp] theorem memories_evLossOfLight (s : State) (l f : Nat) : (evLossOfLight s l f).memories = s.memories := by
  simp [evLossOfLight]

@[simp] theorem memories_evLaserSourceFailure (s : State) (d quad source : Nat) :
    (evLaserSourceFailure s d quad source).memories = s.memories := by
  simp [evLaserSourceFailure]

@[simp] theorem memories_evSlotLightRegained (s : State) (l f : Nat) : (evSlotLightRegained s l f).memories = s.memories := by
  simp [evSlotLightRegained]

@[simp] theorem memories_loseLink (s : State) (l : Nat) : (loseLink s l).memories = s.memories := by
  refine (memories_foldl _ _ _ fun s id => ?_).trans (memories_modLink ..)
  split <;> simp

@[simp] theorem memories_evLinkDown (s : State) (l : Nat) : (evLinkDown s l).memories = s.memories := by simp [evLinkDown]

@[simp] theorem memories_freshLink (s : State) (l : Nat) : (freshLink s l).memories = s.memories := by simp [freshLink]

@[simp] theorem memories_evLinkUp (s : State) (l : Nat) : (evLinkUp s l).memories = s.memories := by simp [evLinkUp]

@[simp] theorem memories_applyPlan (s : State) (d : Nat) : (applyPlan s d).memories = s.memories := by simp [applyPlan]

@[simp] theorem memories_evReplanGo (s : State) (d : Nat) : (evReplanGo s d).memories = s.memories := by simp [evReplanGo]

@[simp] theorem memories_evDrainReq (s : State) (l : Nat) (w : Wire) : (evDrainReq s l w).memories = s.memories :=
  memories_takeSequenced _ _ _ _ _ fun s f => by simp

@[simp] theorem memories_evDrainDone (s : State) (l : Nat) (w : Wire) : (evDrainDone s l w).memories = s.memories :=
  memories_takeSequenced _ _ _ _ _ fun s f => by simp

@[simp] theorem memories_evReplanDrainComplete (s : State) (d : Nat) : (evReplanDrainComplete s d).memories = s.memories := by
  simp [evReplanDrainComplete]

@[simp] theorem memories_evDrainMaxExpiry (s : State) (d : Nat) : (evDrainMaxExpiry s d).memories = s.memories := by
  simp [evDrainMaxExpiry]

@[simp] theorem memories_evSelectorsLocked (s : State) (d : Nat) : (evSelectorsLocked s d).memories = s.memories := by
  simp [evSelectorsLocked]

@[simp] theorem memories_relockTest (s : State) (d : Nat) : (relockTest s d).memories = s.memories := by simp [relockTest]

@[simp] theorem memories_evRelock (s : State) (l : Nat) (w : Wire) : (evRelock s l w).memories = s.memories :=
  memories_takeUnsequenced _ _ _ _ _ fun s f => by simp

@[simp] theorem memories_evReplanResume (s : State) (d : Nat) : (evReplanResume s d).memories = s.memories := by
  simp [evReplanResume]

/-! ### Machine/System -/

@[simp] theorem memories_evntThread (x : Ins) (t : Nat) (s : State) : (evntThread x t s).state.memories = s.memories := by
  fun_cases evntThread x t s <;> simp +zetaDelta

@[simp] theorem memories_atciFault (x : Ins) (v : Vals) (s : State) : (atciFault x v s).state.memories = s.memories := by
  fun_cases atciFault x v s <;> simp +zetaDelta

@[simp] theorem memories_atciSub (x : Ins) (ps : List Nat) (s : State) : (atciSub x ps s).state.memories = s.memories := by
  have hf (v : Vals) := memories_atciFault x v s
  fun_cases atciSub x ps s
  case case3 v _ _ _ _ _ s1 h _ _ _ e _ _ _ _ =>
    rw [← memories_atciFault x v s, h]
    simp +zetaDelta [snd_eq e]
  all_goals simp

@[simp] theorem memories_evTrapEntry (s : State) (w : Nat) (i : TrapInfo) : (evTrapEntry s w i).memories = s.memories := by
  simp [evTrapEntry]

@[simp] theorem memories_discardOp (s : State) (o : Nat) : (discardOp s o).memories = s.memories := by simp [discardOp]

@[simp] theorem memories_evPrewaitTimeout (s : State) (c : Nat) : (evPrewaitTimeout s c).memories = s.memories := by
  fun_cases evPrewaitTimeout s c <;> simp +zetaDelta

@[simp] theorem memories_pollSaves (s : State) : (pollSaves s).memories = s.memories := by simp [pollSaves]

@[simp] theorem memories_ctxsSub (x : Ins) (ps : List Nat) (s : State) : (ctxsSub x ps s).state.memories = s.memories := by
  fun_cases ctxsSub x ps s <;> simp +zetaDelta

/-! ### Machine/Host -/

@[simp] theorem memories_emptyPkg (s : State) (p : Nat) : (emptyPkg s p).memories = s.memories := by simp [emptyPkg]

@[simp] theorem memories_restart (s : State) (p : Nat) : (restart s p).memories = s.memories := by simp [restart]

@[simp] theorem memories_evPowerOn (s : State) (p : Nat) : (evPowerOn s p).memories = s.memories := by simp [evPowerOn]

@[simp] theorem memories_evHostCtlReset (s : State) (p : Nat) : (evHostCtlReset s p).memories = s.memories := by
  simp [evHostCtlReset]

@[simp] theorem memories_someCalibration (s : State) (p : Nat) : (someCalibration s p).2.memories = s.memories := by
  simp [someCalibration]

@[simp] theorem memories_evPowerPhaseDone (s : State) (p : Nat) : (evPowerPhaseDone s p).memories = s.memories := by
  simp [evPowerPhaseDone]

@[simp] theorem memories_evCalibrationDone (s : State) (p : Nat) (c : Calibration) :
    (evCalibrationDone s p c).memories = s.memories := by
  simp [evCalibrationDone]

@[simp] theorem memories_startDie (s : State) (d : Nat) : (startDie s d).memories = s.memories := by simp [startDie]

@[simp] theorem memories_startLinks (s : State) (d : Nat) : (startLinks s d).memories = s.memories := by simp [startLinks]

@[simp] theorem memories_openBytes (n : Nat) (s : State) : (openBytes n s).2.memories = s.memories := by
  induction n generalizing s with
  | zero => rfl
  | succ n ih => simp [openBytes, ih]

@[simp] theorem memories_pumpRecords (s : State) (p : Nat) : (pumpRecords s p).memories = s.memories := by simp [pumpRecords]

@[simp] theorem memories_evRegionRecordWrite (s : State) (d rec_ word : Nat) (v : Word) :
    (evRegionRecordWrite s d rec_ word v).memories = s.memories := by
  simp [evRegionRecordWrite]

@[simp] theorem memories_rearm (s : State) (d : Nat) : (rearm s d).memories = s.memories := by simp [rearm]

@[simp] theorem memories_writeDieReg (s : State) (d o : Nat) (n v m : Dword) :
    (writeDieReg s d o n v m).memories = s.memories := by
  simp [writeDieReg]

@[simp] theorem memories_writePkgReg (s : State) (p o : Nat) (n v m : Dword) :
    (writePkgReg s p o n v m).memories = s.memories := by
  fun_cases writePkgReg s p o n v m <;> simp +zetaDelta

@[simp] theorem memories_writeTableWord (s : State) (d o : Nat) (v : Word) : (writeTableWord s d o v).memories = s.memories := by
  simp [writeTableWord]

@[simp] theorem memories_writePriv (s : State) (p off size : Nat) (v : Dword) :
    (writePriv s p off size v).memories = s.memories := by
  fun_cases writePriv s p off size v <;> simp +zetaDelta

@[simp] theorem memories_evRegisterWrite (s : State) (p : Nat) (priv : Bool) (off size : Nat) (v : Dword) :
    (evRegisterWrite s p priv off size v).memories = s.memories := by
  simp [evRegisterWrite]

@[simp] theorem memories_evErrorWindowExpiry (s : State) (p : Nat) : (evErrorWindowExpiry s p).memories = s.memories := by
  simp [evErrorWindowExpiry]

@[simp] theorem memories_evThermal (s : State) (d : Nat) (temp : Byte) : (evThermal s d temp).memories = s.memories := by
  simp [evThermal]

@[simp] theorem memories_evThermalPowerOff (s : State) (p : Nat) : (evThermalPowerOff s p).memories = s.memories := by
  simp [evThermalPowerOff]

/-! ### Machine/Sched -/

@[simp] theorem memories_noteReady (s : State) : (noteReady s).memories = s.memories := by simp [noteReady]

@[simp] theorem memories_passTo (s : State) (n : Nat) : (passTo s n).memories = s.memories := by simp [passTo]

theorem memories_frontEnd {s s1 : State} {c : Nat} {pc : Dword} (h : frontEnd s c pc = some s1) :
    s1.memories = s.memories := by
  unfold frontEnd at h
  simp only at h
  repeat' split at h
  all_goals first | contradiction | (cases h; rfl)

@[simp] theorem memories_countRun (s : State) (l : Nat) (ws : List Nat) : (countRun s l ws).memories = s.memories := by
  simp [countRun]

@[simp] theorem memories_runMisses (s : State) (c : Nat) (x : Option Ins) (ts : List Nat) :
    (runMisses s c x ts).memories = s.memories := by
  fun_cases runMisses s c x ts
  case case3 =>
    refine memories_foldl _ _ _ fun s t => ?_
    repeat' split
    all_goals simp
  all_goals rfl

@[simp] theorem memories_evRunFormation (s : State) (l : Nat) : (evRunFormation s l).memories = s.memories := by
  fun_cases evRunFormation s l
  case case3 h _ _ _ _ => simp +zetaDelta [memories_frontEnd h]
  all_goals rfl

@[simp] theorem memories_putActive (s : State) (l out inn : Nat) : (putActive s l out inn).memories = s.memories := by
  simp [putActive]

@[simp] theorem memories_evWarpSwap (s : State) (l : Nat) : (evWarpSwap s l).memories = s.memories := by
  fun_cases evWarpSwap s l <;> simp +zetaDelta

@[simp] theorem memories_evPendingWarpPromotion (s : State) (l : Nat) : (evPendingWarpPromotion s l).memories = s.memories := by
  fun_cases evPendingWarpPromotion s l <;> simp +zetaDelta

@[simp] theorem memories_evWarpLeavesActiveSet (s : State) (w : Nat) : (evWarpLeavesActiveSet s w).memories = s.memories := by
  fun_cases evWarpLeavesActiveSet s w <;> simp +zetaDelta

@[simp] theorem memories_retry (s : State) (t : Nat) : (retry s t).memories = s.memories := by simp [retry]

@[simp] theorem memories_pollHold (s : State) (t : Nat) (h : Hold) : (pollHold s t h).memories = s.memories := by
  fun_cases pollHold s t h <;> simp +zetaDelta

@[simp] theorem memories_pollReply (s : State) (t id : Nat) : (pollReply s t id).memories = s.memories := by simp [pollReply]

@[simp] theorem memories_giveSlots (a : KV (Nat × Nat × List Nat)) (a1 : List Nat) (a2 : State) :
    (giveSlots a a1 a2).memories = a2.memories := by
  fun_induction giveSlots a a1 a2 <;> simp_all

@[simp] theorem memories_pollSlots (s : State) : (pollSlots s).memories = s.memories := by simp [pollSlots]

@[simp] theorem memories_pollHolds (s : State) : (pollHolds s).memories = s.memories := by
  refine (memories_foldl _ _ _ fun s w => ?_).trans ?_
  · split <;> simp
  · simp

/-! ### Machine/Events -/

@[simp] theorem memories_evOperationEnqueue (s : State) (o : Nat) : (evOperationEnqueue s o).memories = s.memories := by
  simp [evOperationEnqueue]

/-! ### Machine/Exchange -/

@[simp] theorem memories_putPass (x : Ins) (n : Nat) (f : Nat → Nat) (ps : List Nat) (s : State) :
    (putPass x n f ps s).memories = s.memories := by
  simp [putPass]

/-! ### Machine/Step -/

@[simp] theorem memories_takeEvent (s : State) (e : Ev) : (takeEvent s e).memories = s.memories := by simp [takeEvent]

end Sys2Proof.Machine
end

