-- ==== Sys2Proof/Proofs/Canonical.lean ====
section
/-! PROOFS. The operations of the model that write memory keep its canonical form, one rule each, in the order of the
model. -/

namespace Sys2Proof.Machine

@[simp] theorem canonical_ite (p : Prop) [Decidable p] (m n : List Host.Cell × List Host.Cell × List Host.Cell) :
    Canonical (if p then m else n) ↔ if p then Canonical m else Canonical n := by
  split <;> rfl

theorem canonical_foldl {α : Type} (f : State → α → State) (l : List α) {s : State} (h : Canonical s.memories)
    (hf : ∀ s a, Canonical s.memories → Canonical (f s a).memories) : Canonical (l.foldl f s).memories := by
  induction l generalizing s with
  | nil => exact h
  | cons a l ih => exact ih (hf s a h)

/-- A change of one of the three memories. -/
theorem canonical_mem {s : State} (h : Canonical s.memories) {m : List Host.Cell}
    (hm : Memory.wf s.mem = true → Memory.wf m = true) : Canonical ({ s with mem := m } : State).memories :=
  ⟨hm h.1, h.2⟩

theorem canonical_cellar {s : State} (h : Canonical s.memories) {m : List Host.Cell}
    (hm : Memory.wf s.cellar = true → Memory.wf m = true) : Canonical ({ s with cellar := m } : State).memories :=
  ⟨h.1, hm h.2.1, h.2.2⟩

theorem canonical_host {s : State} (h : Canonical s.memories) {m : List Host.Cell}
    (hm : Memory.wf s.host = true → Memory.wf m = true) : Canonical ({ s with host := m } : State).memories :=
  ⟨h.1, h.2.1, hm h.2.2⟩

/-! ### Machine/Ecc -/

@[simp] theorem canonical_applyResidue {s : State} (h : Canonical s.memories) (line : Nat) (es : List (Nat × Byte)) :
    Canonical (applyResidue s line es).memories :=
  canonical_foldl _ _ h fun s e h => by
    split
    · exact canonical_mem h (wf_memSet _ _)
    · simp [h]

@[simp] theorem canonical_takeFix {s : State} (h : Canonical s.memories) (line : Nat) (es fix : List (Nat × Byte)) :
    Canonical (takeFix s line es fix).memories := by
  simp [takeFix, h]

@[simp] theorem canonical_homeRead {s : State} (h : Canonical s.memories) (line : Nat) :
    Canonical (homeRead s line).1.memories := by
  fun_cases homeRead s line <;> simp [h]

/-! ### Machine/Engine -/

@[simp] theorem canonical_putBytes {s : State} (h : Canonical s.memories) (cls pa : Nat) (l : List Byte) :
    Canonical (putBytes s cls pa l).memories := by
  unfold putBytes
  split
  · exact canonical_cellar h (wf_memWrite _ _)
  · exact canonical_mem h (wf_memWrite _ _)

/-! ### Machine/Perform -/

@[simp] theorem canonical_rdcDecode {s : State} (h : Canonical s.memories) (line : Nat) :
    Canonical (rdcDecode s line).memories := by
  fun_cases rdcDecode s line <;> simp [h]

@[simp] theorem canonical_rdcGet {s : State} (h : Canonical s.memories) (d pa : Nat) :
    Canonical (rdcGet s d pa).1.memories := by
  unfold rdcGet
  split
  · exact h
  · dsimp only
    exact canonical_foldl _ _ h fun s l h => canonical_rdcDecode h l

@[simp] theorem canonical_rdcFill {s : State} (h : Canonical s.memories) (d pa : Nat) :
    Canonical (rdcFill s d pa).memories := by
  unfold rdcFill
  split
  · exact h
  · split
    rename_i l w s1 e
    have h1 : Canonical s1.memories := by
      split at e
      all_goals
        cases e
        exact h
    exact canonical_mem (s := { s1 with metaw := _, errs := _ }) h1 (wf_memWrite _ _)

@[simp] theorem canonical_rdcStore {s : State} (h : Canonical s.memories) (d pa : Nat) :
    Canonical (rdcStore s d pa).memories := by
  fun_cases rdcStore s d pa
  case case1 e => simp [fst_eq e, h]
  case case2 e => simp [fst_eq e, h]

@[simp] theorem canonical_reqDone {s : State} (h : Canonical s.memories) (id : Nat) : Canonical (reqDone s id).memories := by
  fun_cases reqDone s id <;> simp +zetaDelta [h]

@[simp] theorem canonical_landReq {s : State} (h : Canonical s.memories) (id : Nat) : Canonical (landReq s id).memories := by
  fun_cases landReq s id
  · simp [h]
  · simp [h]
  · refine canonical_foldl _ _ ?_ fun s m h => ?_
    · simp +zetaDelta [h]
    · simp [h]

@[simp] theorem canonical_evProducerLanding {s : State} (h : Canonical s.memories) (l : Landing) :
    Canonical (evProducerLanding s l).memories := by
  simp [evProducerLanding, h]

@[simp] theorem canonical_evRemoteReply {s : State} (h : Canonical s.memories) (l : Landing) :
    Canonical (evRemoteReply s l).memories := by
  refine canonical_evProducerLanding ?_ l
  split
  · exact h
  · split <;> simp [h]

@[simp] theorem canonical_lateFault {s : State} (h : Canonical s.memories) (id cause : Nat) :
    Canonical (lateFault s id cause).memories := by
  simp [lateFault, h]

@[simp] theorem canonical_afterWrite {s : State} (h : Canonical s.memories) (core cls pa : Nat) (store : Bool) (b : List Byte) :
    Canonical (afterWrite s core cls pa store b).memories := by
  simp [afterWrite, h]

@[simp] theorem canonical_performReq {s : State} (h : Canonical s.memories) (id : Nat) :
    Canonical (performReq s id).memories := by
  unfold performReq
  simp only [memories_modReq]
  split <;> simp [h]

@[simp] theorem canonical_performCellar {s : State} (h : Canonical s.memories) (id : Nat) :
    Canonical (performCellar s id).memories := by
  fun_cases performCellar s id <;> simp [h]

@[simp] theorem canonical_evCellarGroupService {s : State} (h : Canonical s.memories) (d b id : Nat) :
    Canonical (evCellarGroupService s d b id).memories := by
  have served (l : List Nat) {s : State} (h : Canonical s.memories) : Canonical (l.foldl (fun s j => let k := (s.req j).kind
      if k = .ewr ∨ k = .eadd ∨ k = .eflag then s.post 0 (applyEv s j) else answerReq (performCellar s j) j 24) s).memories :=
    canonical_foldl _ _ h fun s j h => by simp [h]
  fun_cases evCellarGroupService s d b id
  all_goals simp +zetaDelta [h, served]

@[simp] theorem canonical_launchReq {s : State} (h : Canonical s.memories) (id : Nat) : Canonical (launchReq s id).memories := by
  fun_cases launchReq s id
  case case8 e _ e' => simp +zetaDelta [snd_eq e', fst_eq e, h]
  case case9 e _ _ e' _ => simp +zetaDelta [snd_eq e', fst_eq e, h]
  case case10 e => simp +zetaDelta [fst_eq e, h]
  all_goals simp +zetaDelta [h]

@[simp] theorem canonical_pollReqs {s : State} (h : Canonical s.memories) : Canonical (pollReqs s).memories := by
  have : Canonical ((s.reqs.filter fun r => r.2.stage = 0 && r.2.follow = 0).foldl
      (fun s r => if mayGo s r.1 (s.req r.1) then launchReq s r.1 else s) s).memories :=
    canonical_foldl _ _ h fun s r h => by simp [h]
  simp [pollReqs, this]

@[simp] theorem canonical_evRemoteAccessFailure {s : State} (h : Canonical s.memories) (id cause : Nat) :
    Canonical (evRemoteAccessFailure s id cause).memories := by
  fun_cases evRemoteAccessFailure s id cause <;> simp +zetaDelta [h]

@[simp] theorem canonical_readFor {s : State} (h : Canonical s.memories) (t d cls pa : Nat) :
    Canonical (readFor s t d cls pa).memories := by
  simp [readFor, h]

@[simp] theorem canonical_postRead {s : State} (h : Canonical s.memories) (d cls pa : Nat) :
    Canonical (postRead s d cls pa).memories := by
  simp [postRead, h]

@[simp] theorem canonical_postReads {s : State} (h : Canonical s.memories) (d cls pa n : Nat) :
    Canonical (postReads s d cls pa n).memories :=
  canonical_foldl _ _ h fun _ _ h => canonical_postRead h ..

@[simp] theorem canonical_noteLine {s : State} (h : Canonical s.memories) (cause : Nat) (p : Place) :
    Canonical (noteLine s cause p).memories := by
  simp [noteLine, h]

@[simp] theorem canonical_evPageWalk {s : State} (h : Canonical s.memories) (core : Nat) (va : Dword) :
    Canonical (evPageWalk s core va).memories := by
  fun_cases evPageWalk s core va <;> simp +zetaDelta [h]

/-! ### Machine/Lines -/

@[simp] theorem canonical_visit {s : State} (h : Canonical s.memories) (line cls : Nat) :
    Canonical (visit s line cls).1.memories := by
  simp [visit, h]

@[simp] theorem canonical_replyTo {s : State} (h : Canonical s.memories) (agent id lv : Nat) (hit : Bool) :
    Canonical (replyTo s agent id lv hit).memories := by
  simp [replyTo, h]

/-! ### Machine/Cask -/

@[simp] theorem canonical_caskAdd {s : State} (h : Canonical s.memories) (d id : Nat) :
    Canonical (caskAdd s d id).memories := by
  unfold caskAdd
  extract_lets r line home isNew l s0 s1 s2 e1 e2 s3 s4
  have h2 : Canonical s2.memories := by
    simp only [s2, s1, s0]
    split
    · simp only [memories_sendCask, memories_modDie]
      split
      · split <;> simp [h]
      · exact h
    · exact h
  have h3 : Canonical s3.memories := by simp [s3, h2]
  have h4 : Canonical s4.memories := by simp [s4, h3]
  clear_value s2 s3 s4
  repeat' split
  all_goals simp [h, h3, h4]

@[simp] theorem canonical_evCaskGrant {s : State} (h : Canonical s.memories) (line d : Nat) (share : Word) :
    Canonical (evCaskGrant s line d share).memories := by
  unfold evCaskGrant
  split
  · exact h
  · rename_i e _
    have (s : State) (h : Canonical s.memories) : Canonical (e.wait.foldl (fun s id => reqDone s id) s).memories :=
      canonical_foldl _ _ h fun s id h => canonical_reqDone h id
    simp [h, this]

@[simp] theorem canonical_addSums {s : State} (h : Canonical s.memories) (line : Nat) (sums : List Word) :
    Canonical (addSums s line sums).memories :=
  canonical_mem h (wf_memWrite _ _)

@[simp] theorem canonical_drainApply {s : State} (h : Canonical s.memories) (line d idx : Nat) (sums : List Word)
    (closes : Nat) (leaves : Bool) :
    Canonical (drainApply s line d idx sums closes leaves).memories := by
  simp [drainApply, h]

/-! ### Machine/Agents -/

@[simp] theorem canonical_scrubLine {s : State} (h : Canonical s.memories) (line : Nat) :
    Canonical (scrubLine s line).1.memories := by
  fun_cases scrubLine s line <;> simp +zetaDelta [h]

@[simp] theorem canonical_scrubRdc {s : State} (h : Canonical s.memories) (line : Nat) :
    Canonical (scrubRdc s line).memories := by
  fun_cases scrubRdc s line <;> simp +zetaDelta [h]

@[simp] theorem canonical_clearPoison {s : State} (h : Canonical s.memories) (line : Nat) (e : Ev) :
    Canonical (clearPoison s line e).memories := by
  fun_cases clearPoison s line e <;> simp [h]

@[simp] theorem canonical_beginTxn {s : State} (h : Canonical s.memories) (agent key line : Nat) (e : Ev) :
    Canonical (beginTxn s agent key line e).memories := by
  unfold beginTxn
  extract_lets r hit s0 scrub s1 s2
  have h0 : Canonical s0.memories := by simp [s0, h]
  have h1 : Canonical s1.memories := by simp [s1, h0]
  have h2 : Canonical s2.memories := by simp [s2, h0]
  clear_value s0 s1 s2
  split
  · exact h0
  · split
    · split
      · simp [h0]
      · split
        · simp [h0]
        · split
          rename_i s3 _ e3
          have h3 : Canonical s3.memories := by
            rw [fst_eq e3]
            simp [h1]
          split
          rename_i s4 _ e4
          have h4 : Canonical s4.memories := by
            rw [fst_eq e4]
            simp [h3]
          repeat' split
          all_goals simp [h4]
    · repeat' split
      all_goals simp [h2]

@[simp] theorem canonical_servePoisoned {s : State} (h : Canonical s.memories) (agent line cause : Nat) (e : Ev) :
    Canonical (servePoisoned s agent line cause e).memories := by
  unfold servePoisoned
  split
  all_goals try (simp [h]; done)
  split <;> simp [h]

@[simp] theorem canonical_finishHome {s : State} (h : Canonical s.memories) (agent key line : Nat) (t : Txn) (e : Ev) :
    Canonical (finishHome s agent key line t e).memories := by
  fun_cases finishHome s agent key line t e <;> simp [h]

@[simp] theorem canonical_finishProxy {s : State} (h : Canonical s.memories) (agent line : Nat) (t : Txn) (e : Ev) :
    Canonical (finishProxy s agent line t e).memories := by
  fun_cases finishProxy s agent line t e <;> simp +zetaDelta [h]

@[simp] theorem canonical_finishTxn {s : State} (h : Canonical s.memories) (agent key line : Nat) :
    Canonical (finishTxn s agent key line).memories := by
  fun_cases finishTxn s agent key line <;> simp +zetaDelta [h]

@[simp] theorem canonical_runTxn {s : State} (h : Canonical s.memories) (n agent key line : Nat) :
    Canonical (runTxn n s agent key line).memories := by
  induction n generalizing s with
  | zero => exact h
  | succ n ih =>
    unfold runTxn
    dsimp only
    split
    · split
      · exact ih (by simp [h])
      · exact h
    · split
      · exact h
      · exact ih (by simp [h])

@[simp] theorem canonical_goLine {s : State} (h : Canonical s.memories) (agent key line : Nat) :
    Canonical (goLine s agent key line).memories := by
  simp [goLine, h]

@[simp] theorem canonical_lineArrive {s : State} (h : Canonical s.memories) (agent key line : Nat) (e : Ev) :
    Canonical (lineArrive s agent key line e).memories := by
  simp [lineArrive, h]

@[simp] theorem canonical_evArrive {s : State} (h : Canonical s.memories) (e : Ev) : Canonical (evArrive s e).memories := by
  fun_cases evArrive s e <;> simp +zetaDelta [h]

@[simp] theorem canonical_evHolder {s : State} (h : Canonical s.memories) (e : Ev) (agent line holder : Nat) :
    Canonical (evHolder s e agent line holder).memories := by
  fun_cases evHolder s e agent line holder <;> simp +zetaDelta [h]

@[simp] theorem canonical_evHolderAnswer {s : State} (h : Canonical s.memories) (agent line holder : Nat) (dirty : BitVec 2) :
    Canonical (evHolderAnswer s agent line holder dirty).memories := by
  fun_cases evHolderAnswer s agent line holder dirty
  case case1 s1 s2 =>
    have h1 : Canonical s1.memories := by
      simp only [s1]
      split <;> simp +zetaDelta [h]
    have h2 : Canonical s2.memories := by
      simp only [s2]
      split <;> simp [h1]
    exact canonical_goLine h2 ..
  all_goals simp +zetaDelta [h]

@[simp] theorem canonical_evOwnershipGrant {s : State} (h : Canonical s.memories) (id : Nat) :
    Canonical (evOwnershipGrant s id).memories := by
  unfold evOwnershipGrant
  split
  · exact h
  · extract_lets d s1
    have h1 : Canonical s1.memories := by
      simp only [s1]
      split <;> simp [h]
    split
    · split <;> simp [h1]
    · simp [h1]

@[simp] theorem canonical_evAtomicUnitApply {s : State} (h : Canonical s.memories) (id : Nat) :
    Canonical (evAtomicUnitApply s id).memories := by
  fun_cases evAtomicUnitApply s id <;> simp +zetaDelta [h]

@[simp] theorem canonical_evDrainArrival {s : State} (h : Canonical s.memories) (line d idx : Nat) (sums : List Word)
    (closes : Nat) (leaves : Bool) :
    Canonical (evDrainArrival s line d idx sums closes leaves).memories := by
  simp [evDrainArrival, h]

@[simp] theorem canonical_evRackTransaction {s : State} (h : Canonical s.memories) (id : Nat) :
    Canonical (evRackTransaction s id).memories := by
  fun_cases evRackTransaction s id
  · exact h
  · simp [h]
  · exact canonical_foldl _ _ (by simp +zetaDelta [h]) fun s l h => canonical_lineArrive h ..

@[simp] theorem canonical_evProxyEviction {s : State} (h : Canonical s.memories) (p line : Nat) :
    Canonical (evProxyEviction s p line).memories := by
  simp [evProxyEviction, h]

@[simp] theorem canonical_evRdcSweeperStep {s : State} (h : Canonical s.memories) (d : Nat) :
    Canonical (evRdcSweeperStep s d).memories := by
  simp [evRdcSweeperStep, h]

@[simp] theorem canonical_evScrubStep {s : State} (h : Canonical s.memories) (d line : Nat) :
    Canonical (evScrubStep s d line).memories := by
  simp [evScrubStep, h]

@[simp] theorem canonical_evLineDiagComplete {s : State} (h : Canonical s.memories) (d : Nat) :
    Canonical (evLineDiagComplete s d).memories := by
  simp [evLineDiagComplete, h]

@[simp] theorem canonical_evLineDiagAddr {s : State} (h : Canonical s.memories) (d : Nat) (v : Dword) :
    Canonical (evLineDiagAddr s d v).memories := by
  simp [evLineDiagAddr, h]

/-! ### Machine/Memory -/

theorem canonical_issueReq {s s1 : State} {r : Req} (h : Canonical s.memories) (e : issueReq s r = some s1) :
    Canonical s1.memories := by
  unfold issueReq at e
  simp at e
  obtain ⟨-, -, -, rfl⟩ := e
  simp [h]

theorem canonical_accessChecks (k : ReqKind) (align t : Nat) (addr : Dword) {s : State} (h : Canonical s.memories)
    {go : Place → TOut} (hg : ∀ p, Canonical (go p).state.memories) :
    Canonical (accessChecks k align t addr s go).state.memories := by
  unfold accessChecks
  dsimp only
  split
  · simp
    split <;> simp [h]
  · simp [h]
  · exact hg _

/-! ### Machine/Run -/

theorem canonical_dropAt {s : State} (h : Canonical s.memories) (port : Nat) (known : Bool) {checks : TOut}
    (hc : Canonical checks.state.memories) : Canonical (dropAt s port known checks).state.memories := by
  rcases dropAt_state s port known checks with e | e <;> rw [e] <;> assumption

/-! ### Machine/Memory -/

@[simp] theorem canonical_access (k : ReqKind) (mk : Ins → Vals → Req → Req) (align : Ins → Nat) (x : Ins) (t : Nat)
    {s : State} (h : Canonical s.memories) : Canonical (access k mk align x t s).state.memories := by
  unfold access
  split
  · exact h
  · exact canonical_dropAt h _ _ (canonical_accessChecks _ _ _ _ h fun _ => h)
  · refine canonical_accessChecks _ _ _ _ h fun p => ?_
    dsimp only
    split
    · simp [h]
    · rename_i s1 e
      have h1 : Canonical s1.memories := canonical_issueReq (by simp [h]) e
      split <;> simp [h1]

@[simp] theorem canonical_prefThread (x : Ins) (t : Nat) {s : State} (h : Canonical s.memories) :
    Canonical (prefThread x t s).state.memories := by
  unfold prefThread
  split
  · exact h
  · exact h
  · dsimp only
    split
    · split
      · exact h
      · simp only [TOut.state_ok]
        cases e : issueReq s _ with
        | none => exact h
        | some s1 => exact canonical_issueReq h e
    · exact h

@[simp] theorem canonical_accThread (x : Ins) (t : Nat) {s : State} (h : Canonical s.memories) :
    Canonical (accThread x t s).state.memories := by
  unfold accThread
  split
  · exact h
  · exact canonical_dropAt h _ _ (canonical_accessChecks _ _ _ _ h fun _ => h)
  · refine canonical_accessChecks _ _ _ _ h fun p => ?_
    simp [h]
    intros
    split <;> simp [h]

@[simp] theorem canonical_rackThread (x : Ins) (t : Nat) {s : State} (h : Canonical s.memories) :
    Canonical (rackThread x t s).state.memories := by
  unfold rackThread
  split
  · exact h
  · exact canonical_dropAt h _ _ (canonical_accessChecks _ _ _ _ h fun _ => h)
  · refine canonical_accessChecks _ _ _ _ h fun p => ?_
    simp [h]

/-! ### Machine/Fetch -/

@[simp] theorem canonical_fetchLine {s : State} (h : Canonical s.memories) (core va : Nat) :
    Canonical (fetchLine s core va).2.memories := by
  fun_cases fetchLine s core va <;> simp +zetaDelta [h]

@[simp] theorem canonical_fetchWord {s : State} (h : Canonical s.memories) (core : Nat) (va : Dword) :
    Canonical (fetchWord s core va).2.memories := by
  fun_cases fetchWord s core va
  case case1 e => simp [snd_eq e, h]
  case case2 e => simp [snd_eq e, h]

@[simp] theorem canonical_fetchWords {s : State} (h : Canonical s.memories) (core : Nat) (va : Dword) (n : Nat) :
    Canonical (fetchWords s core va n).2.memories := by
  fun_induction fetchWords s core va n
  case case1 => exact h
  case case2 e => simp [snd_eq e, h]
  case case3 e1 _ _ e2 ih => rw [e2] at ih; exact ih (by simp [snd_eq e1, h])
  case case4 e1 _ _ e2 ih => rw [e2] at ih; exact ih (by simp [snd_eq e1, h])

@[simp] theorem canonical_fetchInstr {s0 : State} (h : Canonical s0.memories) (core : Nat) (pc : Dword) (sv : Bool) :
    Canonical (fetchInstr s0 core pc sv).2.memories := by
  unfold fetchInstr
  split
  · rename_i e
    simp [snd_eq e, h]
  · rename_i w s e
    have hs : Canonical s.memories := by simp [snd_eq e, h]
    split
    · exact hs
    · split
      · exact hs
      · split
        · rename_i e
          simp [snd_eq e, hs]
        · rename_i s1 e
          have h1 : Canonical s1.memories := by simp [snd_eq e, hs]
          split
          · exact h1
          · simp [h1]

/-! ### Machine/Control -/

@[simp] theorem canonical_ownRead {s : State} (h : Canonical s.memories) (t : Nat) (p : Place) (va : Dword) (n : Nat) :
    Canonical (ownRead s t p va n).1.memories := by
  fun_cases ownRead s t p va n <;> simp [h]

theorem canonical_stackStore {s s1 : State} {t : Nat} {p : Place} {a : Dword} {off v : Nat} (h : Canonical s.memories)
    (e : stackStore s t p a off v = some s1) : Canonical s1.memories := by
  unfold stackStore at e
  exact canonical_issueReq h e

@[simp] theorem canonical_stackFault {s : State} (h : Canonical s.memories) (t c acc : Nat) :
    Canonical (stackFault s t c acc).state.memories := by
  simp [stackFault]
  split <;> simp [h]

theorem canonical_stackEntry {s : State} (h : Canonical s.memories) (p : Place) (a : Dword) (off : Nat) {go : Place → TOut}
    (hg : ∀ q, Canonical (go q).state.memories) : Canonical (stackEntry s p a off go).state.memories := by
  fun_cases stackEntry s p a off go
  · simp [h]
  · exact hg _

@[simp] theorem canonical_pushCall (x : Ins) (t : Nat) (target : Dword) {s : State} (h : Canonical s.memories) :
    Canonical (pushCall x t target s).state.memories := by
  unfold pushCall
  dsimp only
  split
  · simp [h]
  · simp [h]
  · split
    · exact h
    · split
      · simp [h]
      · refine canonical_stackEntry (canonical_ownRead h ..) _ _ _ fun q => ?_
        split
        · exact h
        · rename_i e
          obtain ⟨s2, e1, e2⟩ := Option.bind_eq_some_iff.1 e
          simp [canonical_stackStore (canonical_stackStore (canonical_ownRead h ..) e1) e2]

@[simp] theorem canonical_callThread {s : State} (h : Canonical s.memories) (x : Ins) (t : Nat) :
    Canonical (callThread x t s).state.memories := by
  simp [callThread, h]

@[simp] theorem canonical_retThread (x : Ins) (t : Nat) {s : State} (h : Canonical s.memories) :
    Canonical (retThread x t s).state.memories := by
  unfold retThread
  dsimp only
  split
  · simp [h]
  · simp [h]
  · split
    · exact h
    · split
      · simp [h]
      · refine canonical_stackEntry (canonical_ownRead h ..) _ _ _ fun q => ?_
        split
        · simp [h]
        · split
          · exact h
          · rename_i e
            simp [canonical_stackStore (canonical_ownRead (canonical_ownRead h ..) ..) e]

theorem canonical_listWord {s : State} (h : Canonical s.memories) (t : Nat) (a : Dword) {go : Place → State → Nat → TOut}
    (hg : ∀ p s n, Canonical s.memories → Canonical (go p s n).state.memories) :
    Canonical (listWord s t a go).state.memories :=
  canonical_accessChecks _ _ _ _ h fun p => by
    split
    · exact hg _ _ _ (canonical_ownRead h ..)
    · exact h

theorem canonical_listTarget (x : Ins) (t : Nat) (i : Option Nat) {s : State} (h : Canonical s.memories)
    {go : Dword → Place → State → TOut} (hg : ∀ a p s, Canonical s.memories → Canonical (go a p s).state.memories) :
    Canonical (listTarget x t i s go).state.memories := by
  unfold listTarget
  refine canonical_listWord h _ _ fun _ s n h => ?_
  split
  · exact h
  · split
    · exact h
    · refine canonical_listWord h _ _ fun p s e h => ?_
      dsimp only
      split
      · exact h
      · exact hg _ _ _ h

@[simp] theorem canonical_brxThread (isCall : Bool) (x : Ins) (t : Nat) {s : State} (h : Canonical s.memories) :
    Canonical (brxThread isCall x t s).state.memories := by
  unfold brxThread
  split
  · exact h
  · exact canonical_dropAt h _ _ (canonical_listTarget _ _ _ h fun _ _ _ h => h)
  · rename_i v _
    have hl := canonical_listTarget x t (some v.a) h (go := fun target p s' =>
      if isCall then pushCall x t target s'
      else .jump (settle (s'.jump t target) t s.nextId (2 * placeClk s (coreOfThread t) p)))
      fun a p s h => by simp [h]
    split
    · rename_i e
      rw [e] at hl
      simpa using hl
    · exact hl

@[simp] theorem canonical_rttThread (t : Nat) {s : State} (h : Canonical s.memories) :
    Canonical (rttThread t s).state.memories := by
  fun_cases rttThread t s
  case case3 e => simp [snd_eq e, h]
  case case4 e _ _ => simp [snd_eq e, h]
  case case5 e _ _ _ _ => simp +zetaDelta [snd_eq e, h]
  all_goals exact h

/-! ### Machine/Sync -/

@[simp] theorem canonical_evBarrierReply {s : State} (h : Canonical s.memories) (r : BarrierRep) :
    Canonical (evBarrierReply s r).memories := by
  simp [evBarrierReply, h]

/-- As `canonical_foldl`, where the state is gathered together with a result. -/
theorem canonical_foldl_fst {α β : Type} (f : State × β → α → State × β) (l : List α) {a : State × β}
    (h : Canonical a.1.memories)
    (hf : ∀ a x, Canonical a.1.memories → Canonical (f a x).1.memories) : Canonical (l.foldl f a).1.memories := by
  induction l generalizing a with
  | nil => exact h
  | cons x l ih => exact ih (hf a x h)

/-! ### Machine/Copy -/

@[simp] theorem canonical_sendReads {s : State} (h : Canonical s.memories) (o k : Nat) (ps : List Piece) :
    Canonical (sendReads s o k ps).memories := by
  unfold sendReads
  split
  rename_i s1 _ e
  have h1 : Canonical s1.memories := by
    rw [fst_eq e]
    exact canonical_foldl_fst _ _ h fun a q h => by simp [h]
  exact canonical_foldl _ _ h1 fun s id h => canonical_launchReq h id

@[simp] theorem canonical_sendWrites {s : State} (h : Canonical s.memories) (o k : Nat) (kind : ReqKind) (ws : List (Piece × List Byte)) :
    Canonical (sendWrites s o k kind ws).memories := by
  unfold sendWrites
  split
  rename_i s1 _ e
  have h1 : Canonical s1.memories := by
    rw [fst_eq e]
    exact canonical_foldl_fst _ _ h fun a q h => by simp [h]
  exact canonical_foldl _ _ h1 fun s id h => canonical_launchReq h id

@[simp] theorem canonical_applyWrite {s : State} (h : Canonical s.memories) (id : Nat) :
    Canonical (applyWrite s id).1.memories := by
  fun_cases applyWrite s id <;> simp [h]

@[simp] theorem canonical_evDeliverAtHome {s : State} (h : Canonical s.memories) (id : Nat) :
    Canonical (evDeliverAtHome s id).memories := by
  unfold evDeliverAtHome
  split
  · exact h
  · split
    rename_i s1 _ e
    have h1 : Canonical s1.memories := by simp [fst_eq e, h]
    extract_lets home line s2
    have h2 : Canonical s2.memories := by
      simp only [s2]
      split <;> simp [h1]
    clear_value s2
    repeat' split
    all_goals simp [h2]

@[simp] theorem canonical_startReads {s : State} (h : Canonical s.memories) (o k : Nat) :
    Canonical (startReads s o k).memories := by
  fun_cases startReads s o k <;> simp [h]

@[simp] theorem canonical_dispatchChunk {s : State} (h : Canonical s.memories) (d o : Nat) :
    Canonical (dispatchChunk s d o).memories := by
  unfold dispatchChunk
  extract_lets p k n s0
  have h0 : Canonical s0.memories := by simp [s0, h]
  clear_value s0
  split
  rename_i s1 _ e
  have h1 : Canonical s1.memories := by
    rw [fst_eq e]
    simp [h0]
  split
  · simp [h1]
  · split
    · split
      · simp [h1]
      · dsimp only; split <;> simp [h1]
    · simp [h1]

@[simp] theorem canonical_drr (fuel : Nat) {s : State} (h : Canonical s.memories) (d n : Nat) :
    Canonical (drr fuel s d n).memories := by
  induction fuel generalizing s n with
  | zero => exact h
  | succ fuel ih =>
    unfold drr
    dsimp only
    split
    · exact h
    · split
      · exact ih (by simp [h]) _
      · split <;> split <;> exact ih (by simp [h]) _

@[simp] theorem canonical_evChunkDispatch {s : State} (h : Canonical s.memories) (d : Nat) :
    Canonical (evChunkDispatch s d).memories := by
  simp [evChunkDispatch, h]

@[simp] theorem canonical_evChunkSourceReadLanding {s : State} (h : Canonical s.memories) (o k : Nat) :
    Canonical (evChunkSourceReadLanding s o k).memories := by
  simp [evChunkSourceReadLanding, h]

@[simp] theorem canonical_sendFlag {s : State} (h : Canonical s.memories) (o : Nat) :
    Canonical (sendFlag s o).memories := by
  unfold sendFlag
  dsimp only
  split <;> simp [h]

@[simp] theorem canonical_evChunkComplete {s : State} (h : Canonical s.memories) (o k : Nat) :
    Canonical (evChunkComplete s o k).memories := by
  simp [evChunkComplete, h]

/-! ### Machine/Anvil -/

@[simp] theorem canonical_readSector {s : State} (h : Canonical s.memories) (d : Nat) (q : Place) (n : Nat) :
    Canonical (readSector s d q n).1.memories := by
  fun_cases readSector s d q n <;> simp +zetaDelta [h]

@[simp] theorem canonical_readRange {s : State} (h : Canonical s.memories) (p : Op) (fuel va n : Nat) :
    Canonical (readRange s p fuel va n).1.memories := by
  induction fuel generalizing s va n with
  | zero => exact h
  | succ fuel ih =>
    unfold readRange
    dsimp only
    split
    · exact h
    · refine ih ?_ _ _
      split <;> simp [h]

@[simp] theorem canonical_readBytes {s : State} (h : Canonical s.memories) (p : Op) (va : Dword) (n : Nat) :
    Canonical (readBytes s p va n).1.memories := by
  simp [readBytes, h]

@[simp] theorem canonical_evWeightLoadComplete {s : State} (h : Canonical s.memories) (o : Nat) :
    Canonical (evWeightLoadComplete s o).memories := by
  simp [evWeightLoadComplete, h]

@[simp] theorem canonical_runGroups {s : State} (h : Canonical s.memories) (o : Nat) (rows : List Row) (cs : List Nat) (g j clks : Nat) :
    Canonical (runGroups s o rows cs g j clks).1.memories := by
  induction cs generalizing s g j clks with
  | nil => exact h
  | cons c rest ih =>
    unfold runGroups
    dsimp only
    split
    · exact ih h ..
    · refine ih ?_ ..
      simp only [memories_addRows, memories_noteRead]
      split <;> simp [h]

@[simp] theorem canonical_evArrayOperationStart {s : State} (h : Canonical s.memories) (o : Nat) :
    Canonical (evArrayOperationStart s o).memories := by
  unfold evArrayOperationStart
  dsimp only
  repeat' split
  all_goals simp [h]

@[simp] theorem canonical_evTileUnitComplete {s : State} (h : Canonical s.memories) (o : Nat) :
    Canonical (evTileUnitComplete s o).memories := by
  fun_cases evTileUnitComplete s o <;> simp [h]

@[simp] theorem canonical_addPiece (home o : Nat) {a : State × Nat} (h : Canonical a.1.memories) (w : Piece × List Byte) :
    Canonical (addPiece home o a w).1.memories := by
  unfold addPiece
  dsimp only
  split
  · split
    · split <;> simp [h]
    · simp [h]
  · split <;> simp [h]

@[simp] theorem canonical_evAccsAddOnStore {s : State} (h : Canonical s.memories) (o : Nat) :
    Canonical (evAccsAddOnStore s o).memories := by
  unfold evAccsAddOnStore
  split
  · exact h
  · extract_lets p ps home ls s0
    split
    · rw [memories_post]
      exact canonical_foldl _ _ (by simp [s0, h]) fun s l h => canonical_lineArrive h ..
    · split
      · split <;> simp [h]
      · split
        rename_i s0 n e
        have h0 : Canonical s0.memories := by
          rw [fst_eq e]
          exact canonical_foldl_fst _ _ h fun a w h => canonical_addPiece _ _ h w
        extract_lets s1 s2
        have h2 : Canonical s2.memories := canonical_foldl _ _ (by simp [s1, h0]) fun s l h => by simp [h]
        clear_value s2
        split <;> simp [h2]
    · exact h

@[simp] theorem canonical_pressRows {s : State} (h : Canonical s.memories) (o : Nat) (p : Op) (vec : Row) (fuel i : Nat) :
    Canonical (pressRows s o p vec fuel i).1.memories := by
  induction fuel generalizing s i with
  | zero => exact h
  | succ fuel ih =>
    unfold pressRows
    dsimp only
    refine ih ?_ _
    rw [memories_noteRead]
    split <;> simp [h]

@[simp] theorem canonical_evPressOperation {s : State} (h : Canonical s.memories) (o : Nat) :
    Canonical (evPressOperation s o).memories := by
  simp [evPressOperation, h]

/-! ### Machine/Rings -/

@[simp] theorem canonical_rgsetSub (x : Ins) (ps : List Nat) {s : State} (h : Canonical s.memories) :
    Canonical (rgsetSub x ps s).state.memories := by
  unfold rgsetSub
  extract_lets t core d
  split
  · exact h
  · exact h
  · extract_lets a
    split
    · exact h
    · simp [h]
    · extract_lets p
      split
      · exact h
      · split
        rename_i s1 _ _ e1
        have h1 : Canonical s1.memories := by simp [fst_eq e1, h]
        extract_lets n
        split
        · exact h1
        · split
          · exact h1
          · split
            rename_i s2 _ _ e2
            have h2 : Canonical s2.memories := by simp [fst_eq e2, h1]
            extract_lets s3 b
            have h3 : Canonical s3.memories := by simp [s3, h2]
            clear_value s3
            split
            · exact h2
            · split
              · exact h3
              · extract_lets differs
                split
                · exact h3
                · split
                  · exact h3
                  · split
                    · exact h3
                    · split
                      rename_i s4 e4
                      have h4 : Canonical s4.memories := by simp [snd_eq e4, h3]
                      dsimp only
                      simp [h4]

@[simp] theorem canonical_ringRead {s : State} (h : Canonical s.memories) (p : Op) (chunk tile : Nat) :
    Canonical (ringRead s p chunk tile).1.memories := by
  unfold ringRead
  dsimp only
  split
  · exact h
  · split <;> simp [h]

@[simp] theorem canonical_ringDeliver {s : State} (h : Canonical s.memories) (o chunk tile : Nat) (data : List Word) (nan : Nat) :
    Canonical (ringDeliver s o chunk tile data nan).memories := by
  fun_cases ringDeliver s o chunk tile data nan <;> simp +zetaDelta [h]

@[simp] theorem canonical_ringFinal {s : State} (h : Canonical s.memories) (o chunk tile : Nat) (data : List Word) (nan : Nat) :
    Canonical (ringFinal s o chunk tile data nan).memories := by
  simp [ringFinal, h]

@[simp] theorem canonical_sendTile {s : State} (h : Canonical s.memories) (o : Nat) :
    Canonical (sendTile s o).memories := by
  unfold sendTile
  extract_lets p red
  split
  · simp [h]
  · split
    split
    · rename_i e
      simp [fst_eq e, h]
    · rename_i s1 _ e
      have h1 : Canonical s1.memories := by simp [fst_eq e, h]
      dsimp only
      repeat' split
      all_goals simp [h1]

@[simp] theorem canonical_evRingStepSend {s : State} (h : Canonical s.memories) (d : Nat) :
    Canonical (evRingStepSend s d).memories := by
  fun_cases evRingStepSend s d <;> simp +zetaDelta [h]

@[simp] theorem canonical_evRingStepArrival {s : State} (h : Canonical s.memories) (st : RingStep) :
    Canonical (evRingStepArrival s st).memories := by
  unfold evRingStepArrival
  extract_lets d ack s0
  have hack (s : State) (h : Canonical s.memories) : Canonical (ack s).memories := by
    simp only [ack]
    split <;> simp [h]
  have h0 : Canonical s0.memories := hack _ (by simp [h])
  clear_value ack s0
  split
  · exact hack s h
  · split
    · split <;> simp [h]
    · extract_lets p s1 s2 s3
      split
      · exact h
      · split
        · simp [h]
        · have h2 : Canonical s2.memories := by simp [s2, h0]
          have h3 : Canonical s3.memories := by
            simp only [s3]
            split
            · split
              · simp [h0]
              · have h1 : Canonical s1.memories := by simp [s1, h0]
                split
                · rename_i e
                  simp [fst_eq e, h1]
                · rename_i e
                  split <;> simp [fst_eq e, h1]
            · simp [h0]
            · split <;> simp [h2]
          simp [h3]

/-! ### Machine/Dispatcher -/

@[simp] theorem canonical_physPut {s : State} (h : Canonical s.memories) (pa n v : Nat) :
    Canonical (physPut s pa n v).memories := by
  unfold physPut
  split
  · exact h
  · exact canonical_mem h (wf_memWrite _ _)

@[simp] theorem canonical_dispTouch {s : State} (h : Canonical s.memories) (d : Nat) (c : CtxDesc) (va n : Nat) :
    Canonical (dispTouch s d c va n).memories := by
  unfold dispTouch
  dsimp only
  repeat' split
  all_goals simp [h]

@[simp] theorem canonical_dispWrite {s : State} (h : Canonical s.memories) (d : Nat) (c : CtxDesc) (va v : Nat) :
    Canonical (dispWrite s d c va v).memories := by
  fun_cases dispWrite s d c va v <;> simp [h]

@[simp] theorem canonical_openSpan {s : State} (h : Canonical s.memories) (l x d : Nat) :
    Canonical (openSpan s l x d).memories := by
  unfold openSpan
  extract_lets n t
  split
  · exact h
  · split
    · exact h
    · extract_lets s1 s2 s3
      have h1 : Canonical s1.memories := by simp [s1, h]
      have h2 : Canonical s2.memories := canonical_cellar h1 (wf_memClear _ _)
      simp [s3, h2]

@[simp] theorem canonical_placeCohort {s : State} (h : Canonical s.memories) (c l x : Nat) (w : Waiting) :
    Canonical (placeCohort s c l x w).memories := by
  simp [placeCohort, h]

theorem canonical_seekOne {s s1 : State} {d : Nat} (h : Canonical s.memories) (e : seekOne s d = some s1) :
    Canonical s1.memories := by
  unfold seekOne at e
  split at e
  · contradiction
  · split at e
    · contradiction
    · dsimp only at e
      split at e
      · cases e
        simp [h]
      · split at e
        · contradiction
        · cases e
          simp [h]

@[simp] theorem canonical_seekLoop (n : Nat) {s : State} (h : Canonical s.memories) (d : Nat) :
    Canonical (seekLoop n s d).memories := by
  induction n generalizing s with
  | zero => exact h
  | succ n ih =>
    unfold seekLoop
    split
    · rename_i e
      exact ih (canonical_seekOne h e)
    · exact h

@[simp] theorem canonical_seekWork {s : State} (h : Canonical s.memories) (d : Nat) : Canonical (seekWork s d).memories := by
  simp [seekWork, h]

@[simp] theorem canonical_seekAll {s : State} (h : Canonical s.memories) : Canonical (seekAll s).memories :=
  canonical_foldl _ _ h fun _ d h => canonical_seekWork h d

@[simp] theorem canonical_stripSpent {s : State} (h : Canonical s.memories) (l x : Nat) :
    Canonical (stripSpent s l x).memories := by
  simp [stripSpent, h]

@[simp] theorem canonical_evMirrorAck {s : State} (h : Canonical s.memories) (l x c d : Nat) :
    Canonical (evMirrorAck s l x c d).memories := by
  simp [evMirrorAck, h]

@[simp] theorem canonical_evCohortGrant {s : State} (h : Canonical s.memories) (l x c d : Nat) :
    Canonical (evCohortGrant s l x c d).memories := by
  simp [evCohortGrant, h]

@[simp] theorem canonical_examine {s : State} (h : Canonical s.memories) (d p a i : Nat) :
    Canonical (examine s d p a i).memories := by
  unfold examine
  extract_lets q c va pass got s0
  have hpass (s : State) (h : Canonical s.memories) : Canonical (pass s).memories := by simp [pass, h]
  have h0 : Canonical s0.memories := by simp [s0, h]
  clear_value pass s0 got
  split
  · exact hpass _ h0
  · extract_lets s1 s2
    have h1 : Canonical s1.memories := by simp [s1, h0]
    clear_value s1
    split
    · exact hpass _ (by simp [h1])
    · have h2 : Canonical s2.memories := hpass _ (by simp [h1])
      clear_value s2
      split
      rename_i s3 e
      have h3 : Canonical s3.memories := by simp [snd_eq e, h2]
      dsimp only
      split <;> simp [h3]

@[simp] theorem canonical_examineAll (n : Nat) {s : State} (h : Canonical s.memories) (d p a i : Nat) :
    Canonical (examineAll n s d p a i).memories := by
  induction n generalizing s with
  | zero => exact h
  | succ n ih =>
    unfold examineAll
    split
    · exact h
    · exact ih (canonical_examine h ..)

@[simp] theorem canonical_readTail {s : State} (h : Canonical s.memories) (d : Nat) (door : Bool) (p a i : Nat) :
    Canonical (readTail s d door p a i).memories := by
  simp [readTail, h]

@[simp] theorem canonical_readQueues {s : State} (h : Canonical s.memories) (d : Nat) (door : Bool) :
    Canonical (readQueues s d door).memories := by
  unfold readQueues
  dsimp only
  split
  · exact h
  · refine canonical_foldl _ _ h fun s a h => canonical_foldl _ _ h fun s i h => ?_
    split <;> simp [h]

@[simp] theorem canonical_evLqDoor {s : State} (h : Canonical s.memories) (d : Nat) : Canonical (evLqDoor s d).memories := by
  simp [evLqDoor, h]

@[simp] theorem canonical_evTailPoll {s : State} (h : Canonical s.memories) (d : Nat) : Canonical (evTailPoll s d).memories := by
  simp [evTailPoll, h]

@[simp] theorem canonical_evLaunchAppend {s : State} (h : Canonical s.memories) (id : Nat) :
    Canonical (evLaunchAppend s id).memories := by
  unfold evLaunchAppend
  split
  · exact h
  · extract_lets d src p a q
    split
    rename_i s1 _ e
    have h1 : Canonical s1.memories := by
      rw [fst_eq e]
      repeat' split
      all_goals simp [h]
    extract_lets s2 l s3
    have h3 : Canonical s3.memories := by
      simp only [s3]
      split <;> simp [s2, h1]
    simp [h3]

@[simp] theorem canonical_evCohortEnd {s : State} (h : Canonical s.memories) (c : Nat) :
    Canonical (evCohortEnd s c).memories := by
  fun_cases evCohortEnd s c <;> simp [h]

@[simp] theorem canonical_evLaunchCompletion {s : State} (h : Canonical s.memories) (l : Nat) :
    Canonical (evLaunchCompletion s l).memories := by
  unfold evLaunchCompletion
  extract_lets n there spans s1 st v c s2 s3 s4 ds s5
  have h1 : Canonical s1.memories := by simp [s1, h]
  have h2 : Canonical s2.memories := by simp [s2, h1]
  have h3 : Canonical s3.memories := by
    simp only [s3]
    split <;> simp [h2]
  have h4 : Canonical s4.memories := by simp [s4, h3]
  have h5 : Canonical s5.memories := by simp [s5, h4]
  clear_value s5
  split
  · exact h
  · split
    · exact h
    · split
      · simp [h]
      · simp [h5]

/-! ### Machine/Fabric -/

@[simp] theorem canonical_stripLoss {s : State} (h : Canonical s.memories) (l x d : Nat) :
    Canonical (stripLoss s l x d).memories := by
  unfold stripLoss
  dsimp only
  repeat' split
  all_goals simp [h]

@[simp] theorem canonical_evDieDead {s : State} (h : Canonical s.memories) (d : Nat) :
    Canonical (evDieDead s d).memories := by
  unfold evDieDead
  extract_lets s1 s2 s3 s4 s5 s6 s7
  split
  · exact h
  · have h6 : Canonical s6.memories := by simp +zetaDelta [h]
    have h7 : Canonical s7.memories :=
      canonical_foldl _ _ h6 fun s l h => canonical_foldl _ _ h fun s t h => canonical_stripLoss h ..
    simp [h7]

/-! ### Machine/System -/

@[simp] theorem canonical_launchThread (x : Ins) (t : Nat) {s : State} (h : Canonical s.memories) :
    Canonical (launchThread x t s).state.memories := by
  unfold launchThread
  dsimp only
  repeat' split
  all_goals simp [h]

@[simp] theorem canonical_evAtciRemoval {s : State} (h : Canonical s.memories) (a : AtciReq) (d : Nat) :
    Canonical (evAtciRemoval s a d).memories := by
  unfold evAtciRemoval
  dsimp only
  split
  · have hf : Canonical (List.foldl (fun s l => lineArrive s d l l (.atciRemoval a d))
        (s.modReq a.id fun r => { r with n := r.n + (linesOf s d a.pa (atciBytes a.size)).length })
        (linesOf s d a.pa (atciBytes a.size))).memories :=
      canonical_foldl _ _ (by simp [h]) fun s l h => canonical_lineArrive h ..
    split <;> simp [hf]
  · repeat' split
    all_goals simp [h]

@[simp] theorem canonical_restartRegion {s : State} (h : Canonical s.memories) (c : Nat) (ch : Cohort) :
    Canonical (restartRegion s c ch).memories := by
  unfold restartRegion
  simp [h]

@[simp] theorem canonical_evPreemptionRequest {s : State} (h : Canonical s.memories) (c : Nat) :
    Canonical (evPreemptionRequest s c).memories := by
  fun_cases evPreemptionRequest s c <;> simp +zetaDelta [h]

@[simp] theorem canonical_areaPut {s : State} (h : Canonical s.memories) (c va : Nat) (l : List Byte) :
    Canonical (areaPut s c va l).memories := by
  unfold areaPut
  dsimp only
  repeat' split
  all_goals simp [h]

@[simp] theorem canonical_areaTouch {s : State} (h : Canonical s.memories) (c va n : Nat) :
    Canonical (areaTouch s c va n).memories :=
  canonical_foldl _ _ h fun s a h => by split <;> simp [h]

@[simp] theorem canonical_evSaveAreaWrite {s : State} (h : Canonical s.memories) (c : Nat) :
    Canonical (evSaveAreaWrite s c).memories := by
  unfold evSaveAreaWrite
  split
  · extract_lets a recs
    split
    · exact h
    · split
      rename_i s1 e
      have h1 : Canonical s1.memories := by simp [snd_eq e, h]
      extract_lets sv s2 s3 s4 s5 mine s6 s7
      have h2 : Canonical s2.memories := by simp [s2, h1]
      have h3 : Canonical s3.memories := canonical_foldl _ _ h2 fun s i h => by simp [h]
      have h4 : Canonical s4.memories := canonical_foldl _ _ h3 fun s i h => by simp [h]
      have h5 : Canonical s5.memories := canonical_foldl _ _ h4 fun s i h => by simp [h]
      have h6 : Canonical s6.memories := by simp [s6, h5]
      have h7 : Canonical s7.memories := by simp [s7, h6]
      simp [h7]
  · exact h

@[simp] theorem canonical_reissue {s : State} (h : Canonical s.memories) (c : Nat) (reads : KV Req) :
    Canonical (reissue s c reads).memories := by
  simp [reissue, h]

@[simp] theorem canonical_rebind {s : State} (h : Canonical s.memories) (c : Nat) : Canonical (rebind s c).memories := by
  simp [rebind, h]

@[simp] theorem canonical_restore {s : State} (h : Canonical s.memories) (c key : Nat) (v : Saved) (area : Nat) :
    Canonical (restore s c key v area).memories := by
  unfold restore
  extract_lets k src h' s1 cleared s2 epoch at_ s3 threads s4 issued own s5 s6 s7 s8 s9 s10
  have h2 : Canonical s2.memories := by simp [s2, s1, h]
  have h3 : Canonical s3.memories := by simp [s3, h2]
  have h5 : Canonical s5.memories := by simp [s5, s4, h3]
  have h6 : Canonical s6.memories := by simp [s6, h5]
  have h8 : Canonical s8.memories := by simp [s8, s7, h6]
  have h10 : Canonical s10.memories := by simp [s10, s9, h8]
  simp [h10]

@[simp] theorem canonical_ctxrSub {s : State} (h : Canonical s.memories) (x : Ins) (ps : List Nat) :
    Canonical (ctxrSub x ps s).state.memories := by
  fun_cases ctxrSub x ps s <;> simp +zetaDelta [h]

/-! ### Machine/Host -/

@[simp] theorem canonical_evPatrol {s : State} (h : Canonical s.memories) (d line : Nat) :
    Canonical (evPatrol s d line).memories := by
  simp [evPatrol, h]

@[simp] theorem canonical_evInitialisationDone {s : State} (h : Canonical s.memories) (p : Nat) :
    Canonical (evInitialisationDone s p).memories := by
  unfold evInitialisationDone
  extract_lets s1 s2 s3
  split
  · exact h
  · have h1 : Canonical s1.memories := ⟨wf_memClear _ _ h.1, wf_memClear _ _ h.2.1, h.2.2⟩
    clear_value s1
    simp +zetaDelta [h1]

@[simp] theorem canonical_hostVisit {s : State} (h : Canonical s.memories) (line : Nat) :
    Canonical (hostVisit s line).memories := by
  simp [hostVisit, h]

@[simp] theorem canonical_evHostMemoryWrite {s : State} (h : Canonical s.memories) (p off : Nat) (b : List Byte) :
    Canonical (evHostMemoryWrite s p off b).memories := by
  unfold evHostMemoryWrite
  extract_lets pa s1 s2
  split
  · exact h
  · have h1 : Canonical s1.memories := canonical_foldl _ _ h fun s l h => canonical_hostVisit h l
    have h2 : Canonical s2.memories := canonical_mem h1 (wf_memWrite _ _)
    simp [h2]

@[simp] theorem canonical_evHostMemoryRead {s : State} (h : Canonical s.memories) (p off n : Nat) :
    Canonical (evHostMemoryRead s p off n).memories := by
  unfold evHostMemoryRead
  split
  rename_i s1 e
  have h1 : Canonical s1.memories := by
    rw [snd_eq e]
    split
    · exact h
    · split
      · simp [h]
      · have hf : Canonical (List.foldl hostVisit s (linesIn (barPa p off) n)).memories :=
          canonical_foldl _ _ h fun s l h => canonical_hostVisit h l
        simp [hf]
  simp [h1]

@[simp] theorem canonical_evEventRecordWrite {s : State} (h : Canonical s.memories) (d : Nat) :
    Canonical (evEventRecordWrite s d).memories := by
  unfold evEventRecordWrite
  extract_lets p g
  split
  · exact h
  · extract_lets s1 s2 s3
    have h1 : Canonical s1.memories := by simp [s1, h]
    have h2 : Canonical s2.memories := canonical_host h1 (wf_memWrite _ _)
    have h3 : Canonical s3.memories := by simp [s3, h2]
    repeat' split
    all_goals simp [h, h3]

/-! ### Machine/Sched -/

@[simp] theorem canonical_wake {s : State} (h : Canonical s.memories) : Canonical (wake s).memories := by simp [wake, h]

/-! ### Machine/Events -/

@[simp] theorem canonical_evChunkEnd {s : State} (h : Canonical s.memories) (o k : Nat) :
    Canonical (evChunkEnd s o k).memories := by
  simp [evChunkEnd, h]

end Sys2Proof.Machine
end

