-- ==== Sys2Proof/Proofs/Steps.lean ====
section
/-! PROOFS. Every instruction, every happening and so every step keeps the canonical form (O60): the runs of threads, then
the instructions, then the rows of events. -/

namespace Sys2Proof.Machine

/-- The outcome is a fault, a refusal, or a state whose memories are in canonical form. -/
def CanonicalOut (o : Out) : Prop := ∀ s', o = .next s' → Canonical s'.memories

@[simp] theorem canonicalOut_next (s : State) : CanonicalOut (.next s) ↔ Canonical s.memories :=
  ⟨fun h => h s rfl, fun h _ e => Host.Outcome.next.inj e ▸ h⟩

@[simp] theorem canonicalOut_fault (f : Fault) : CanonicalOut (.fault f) := fun _ e => nomatch e

@[simp] theorem canonicalOut_refused (r : Refusal) : CanonicalOut (.refused r) := fun _ e => nomatch e

/-- A thread of a run keeps the canonical form where its instruction does. -/
theorem canonicalOut_perThreadKeep {s : State} (h : Canonical s.memories) (keep : Nat) (x : Ins) (cost : Nat) {endf : EndFn}
    {body : Nat → State → TOut} (he : ∀ s w m t, (endf s w m t).memories = s.memories)
    (hb : ∀ t s, Canonical s.memories → Canonical (body t s).state.memories) :
    CanonicalOut (perThreadKeep keep x cost endf body s) := by
  unfold perThreadKeep
  split
  · simp
  · rename_i r0 _
    rw [canonicalOut_next]
    split
    · rename_i e
      simpa [fst_eq e, he] using h
    · rename_i s1 t rest e
      have h1 : Canonical s1.memories := by simp [fst_eq e, h]
      extract_lets r1 r2 r3 r4 r5 did
      have hdid (s : State) (h : Canonical s.memories) : Canonical (did s).memories := by simpa [did, he] using h
      have hbt := hb t s1 h1
      clear_value did
      split
      · simpa [he] using h1
      · split
        · simpa [he] using h1
        · split
          all_goals
            rename_i eb
            rw [eb] at hbt
          · exact hdid _ (by simpa using hbt)
          · exact hdid _ hbt
          · exact hdid _ hbt
          · simpa [he] using hbt
          · simpa using hbt
          · simpa using hbt
          · simpa using hbt

theorem canonicalOut_perThread {s : State} (h : Canonical s.memories) (x : Ins) (cost : Nat) {endf : EndFn}
    {body : Nat → State → TOut} (he : ∀ s w m t, (endf s w m t).memories = s.memories)
    (hb : ∀ t s, Canonical s.memories → Canonical (body t s).state.memories) : CanonicalOut (perThread x cost endf body s) :=
  canonicalOut_perThreadKeep h 0 x cost he hb

/-- A sub-run keeps the canonical form where its instruction does. -/
theorem canonicalOut_perSubrun {s : State} (h : Canonical s.memories) (x : Ins) (cost : Nat → Nat) {endf : EndFn}
    {body : List Nat → State → TOut} (he : ∀ s w m t, (endf s w m t).memories = s.memories)
    (hb : ∀ ps s, Canonical s.memories → Canonical (body ps s).state.memories) : CanonicalOut (perSubrun x cost endf body s) := by
  unfold perSubrun
  split
  · simp
  · rename_i r0 _
    rw [canonicalOut_next]
    split
    · rename_i e
      simpa [fst_eq e, he] using h
    · rename_i s1 t rest e
      have h1 : Canonical s1.memories := by simp [fst_eq e, h]
      extract_lets r1 r2 mine more ps s2 r3 r4 did
      have hdid (s : State) (h : Canonical s.memories) : Canonical (did s).memories := by simpa [did, he] using h
      have hbt := hb ps s2 (by simp [s2, h1])
      clear_value did
      split
      · simpa [he] using h1
      · split
        all_goals
          rename_i eb
          rw [eb] at hbt
        · exact hdid _ (by simpa using hbt)
        · exact hdid _ hbt
        · exact hdid _ hbt
        · simpa [he] using hbt
        · simpa using hbt
        · simpa using hbt
        · simpa using hbt

theorem canonicalOut_perThreadHeld {s : State} (h : Canonical s.memories) (x : Ins) {need : List Nat → State → Option Hold}
    {body : Nat → State → TOut} (hb : ∀ t s, Canonical s.memories → Canonical (body t s).state.memories) :
    CanonicalOut (perThreadHeld x need body s) := by
  unfold perThreadHeld
  split
  · simp
  · rename_i r0 _
    have hend (s : State) (w : Nat) (m : Word) (t : Nat) : (noEnd s w m t).memories = s.memories := rfl
    split
    · exact canonicalOut_perThread h _ _ hend hb
    · rename_i s1 t rest e
      have h1 : Canonical s1.memories := by simp [fst_eq e, h]
      extract_lets r1 r2 mine ps s2
      split
      · exact canonicalOut_perThread h _ _ hend hb
      · split
        · exact canonicalOut_perThreadKeep h _ _ _ hend hb
        · simpa [hend, s2] using h1

/-! ### Instructions -/

@[simp] theorem canonicalOut_movx {s : State} (h : Canonical s.memories) (x : Ins) : CanonicalOut (movx x s) :=
  canonicalOut_perThread h _ _ memories_noEnd fun _ _ h => by simp [h]

@[simp] theorem canonicalOut_movxw {s : State} (h : Canonical s.memories) (x : Ins) : CanonicalOut (movxw x s) :=
  canonicalOut_perThread h _ _ memories_noEnd fun _ _ h => by simp [h]

@[simp] theorem canonicalOut_movs {s : State} (h : Canonical s.memories) (x : Ins) : CanonicalOut (movs x s) :=
  canonicalOut_perThread h _ _ memories_noEnd fun _ _ h => by simp [h]

@[simp] theorem canonicalOut_sets {s : State} (h : Canonical s.memories) (x : Ins) : CanonicalOut (sets x s) :=
  canonicalOut_perThread h _ _ memories_noEnd fun _ _ h => by simp [h]

@[simp] theorem canonicalOut_fetest {s : State} (h : Canonical s.memories) (x : Ins) : CanonicalOut (fetest x s) :=
  canonicalOut_perThread h _ _ memories_noEnd fun _ _ h => by simp [h]

@[simp] theorem canonicalOut_feset {s : State} (h : Canonical s.memories) (x : Ins) : CanonicalOut (feset x s) :=
  canonicalOut_perThread h _ _ memories_noEnd fun _ _ h => by simp [h]

@[simp] theorem canonicalOut_pref {s : State} (h : Canonical s.memories) (x : Ins) : CanonicalOut (pref x s) :=
  canonicalOut_perThread h _ _ memories_noEnd fun _ _ h => by simp [h]

@[simp] theorem canonicalOut_acc {s : State} (h : Canonical s.memories) (x : Ins) : CanonicalOut (acc x s) :=
  canonicalOut_perThread h _ _ memories_noEnd fun _ _ h => by simp [h]

@[simp] theorem canonicalOut_rack {s : State} (h : Canonical s.memories) (x : Ins) : CanonicalOut (rack x s) :=
  canonicalOut_perThread h _ _ memories_noEnd fun _ _ h => by simp [h]

@[simp] theorem canonicalOut_bufd {s : State} (h : Canonical s.memories) (x : Ins) : CanonicalOut (bufd x s) :=
  canonicalOut_perThread h _ _ memories_noEnd fun _ _ h => by simp [h]

@[simp] theorem canonicalOut_bufs {s : State} (h : Canonical s.memories) (x : Ins) : CanonicalOut (bufs x s) :=
  canonicalOut_perThread h _ _ memories_noEnd fun _ _ h => by simp [h]

@[simp] theorem canonicalOut_buff {s : State} (h : Canonical s.memories) (x : Ins) : CanonicalOut (buff x s) :=
  canonicalOut_perThread h _ _ memories_noEnd fun _ _ h => by simp [h]

@[simp] theorem canonicalOut_flsh {s : State} (h : Canonical s.memories) (x : Ins) : CanonicalOut (flsh x s) :=
  canonicalOut_perThread h _ _ memories_noEnd fun _ _ h => by simp [h]

@[simp] theorem canonicalOut_nop {s : State} (h : Canonical s.memories) (x : Ins) : CanonicalOut (nop x s) :=
  canonicalOut_perThread h _ _ memories_noEnd fun _ _ h => by simp [h]

@[simp] theorem canonicalOut_bra {s : State} (h : Canonical s.memories) (x : Ins) : CanonicalOut (bra x s) :=
  canonicalOut_perThread h _ _ memories_noEnd fun _ _ h => by simp [h]

@[simp] theorem canonicalOut_call {s : State} (h : Canonical s.memories) (x : Ins) : CanonicalOut (call x s) :=
  canonicalOut_perThread h _ _ memories_noEnd fun _ _ h => by simp [h]

@[simp] theorem canonicalOut_ret {s : State} (h : Canonical s.memories) (x : Ins) : CanonicalOut (ret x s) :=
  canonicalOut_perThread h _ _ memories_noEnd fun _ _ h => by simp [h]

@[simp] theorem canonicalOut_yield {s : State} (h : Canonical s.memories) (x : Ins) : CanonicalOut (yield_ x s) :=
  canonicalOut_perThread h _ _ memories_noEnd fun _ _ h => by simp [h]

@[simp] theorem canonicalOut_sleep {s : State} (h : Canonical s.memories) (x : Ins) : CanonicalOut (sleep x s) :=
  canonicalOut_perThread h _ _ memories_noEnd fun _ _ h => by simp [h]

@[simp] theorem canonicalOut_idem {s : State} (h : Canonical s.memories) (x : Ins) : CanonicalOut (idem x s) :=
  canonicalOut_perThread h _ _ memories_noEnd fun _ _ h => by simp [h]

@[simp] theorem canonicalOut_rtt {s : State} (h : Canonical s.memories) (x : Ins) : CanonicalOut (rtt x s) :=
  canonicalOut_perThread h _ _ memories_noEnd fun _ _ h => by simp [h]

@[simp] theorem canonicalOut_barv {s : State} (h : Canonical s.memories) (x : Ins) : CanonicalOut (barv x s) :=
  canonicalOut_perThread h _ _ memories_noEnd fun _ _ h => by simp [h]

@[simp] theorem canonicalOut_bwait {s : State} (h : Canonical s.memories) (x : Ins) : CanonicalOut (bwait x s) :=
  canonicalOut_perThread h _ _ memories_noEnd fun _ _ h => by simp [h]

@[simp] theorem canonicalOut_btest {s : State} (h : Canonical s.memories) (x : Ins) : CanonicalOut (btest x s) :=
  canonicalOut_perThread h _ _ memories_noEnd fun _ _ h => by simp [h]

@[simp] theorem canonicalOut_csign {s : State} (h : Canonical s.memories) (x : Ins) : CanonicalOut (csign x s) :=
  canonicalOut_perThread h _ _ memories_noEnd fun _ _ h => by simp [h]

@[simp] theorem canonicalOut_waitc {s : State} (h : Canonical s.memories) (x : Ins) : CanonicalOut (waitc x s) :=
  canonicalOut_perThread h _ _ memories_noEnd fun _ _ h => by simp [h]

@[simp] theorem canonicalOut_cntr {s : State} (h : Canonical s.memories) (x : Ins) : CanonicalOut (cntr x s) :=
  canonicalOut_perThread h _ _ memories_noEnd fun _ _ h => by simp [h]

@[simp] theorem canonicalOut_cpyq {s : State} (h : Canonical s.memories) (x : Ins) : CanonicalOut (cpyq x s) :=
  canonicalOut_perThread h _ _ memories_noEnd fun _ _ h => by simp [h]

@[simp] theorem canonicalOut_accw {s : State} (h : Canonical s.memories) (x : Ins) : CanonicalOut (accw x s) :=
  canonicalOut_perThread h _ _ memories_noEnd fun _ _ h => by simp [h]

@[simp] theorem canonicalOut_mapq {s : State} (h : Canonical s.memories) (x : Ins) : CanonicalOut (mapq x s) :=
  canonicalOut_perThread h _ _ memories_noEnd fun _ _ h => by simp [h]

@[simp] theorem canonicalOut_launchIns {s : State} (h : Canonical s.memories) (x : Ins) : CanonicalOut (launchIns x s) :=
  canonicalOut_perThread h _ _ memories_noEnd fun _ _ h => by simp [h]

@[simp] theorem canonicalOut_evnt {s : State} (h : Canonical s.memories) (x : Ins) : CanonicalOut (evnt x s) :=
  canonicalOut_perThread h _ _ memories_noEnd fun _ _ h => by simp [h]

@[simp] theorem canonicalOut_pmc {s : State} (h : Canonical s.memories) (x : Ins) : CanonicalOut (pmc x s) :=
  canonicalOut_perThread h _ _ memories_noEnd fun _ _ h => by simp [h]

@[simp] theorem canonicalOut_stIns {s : State} (h : Canonical s.memories) (x : Ins) : CanonicalOut (stIns x s) :=
  canonicalOut_perThread h _ _ memories_noEnd fun _ _ h => by simp [h]

@[simp] theorem canonicalOut_fence {s : State} (h : Canonical s.memories) (x : Ins) : CanonicalOut (fence x s) :=
  canonicalOut_perThread h _ _ memories_noEnd fun _ _ h => by simp [h]

@[simp] theorem canonicalOut_exit {s : State} (h : Canonical s.memories) (x : Ins) : CanonicalOut (exit_ x s) :=
  canonicalOut_perThread h _ _ (fun _ _ _ _ => by simp) fun _ _ h => by simp [h]

@[simp] theorem canonicalOut_join {s : State} (h : Canonical s.memories) (x : Ins) : CanonicalOut (join x s) :=
  canonicalOut_perThread h _ _ (fun _ _ _ _ => by simp) fun _ _ h => by simp [h]

@[simp] theorem canonicalOut_leave {s : State} (h : Canonical s.memories) (x : Ins) : CanonicalOut (leave x s) :=
  canonicalOut_perThread h _ _ (fun _ _ _ _ => by simp) fun _ _ h => by simp [h]

@[simp] theorem canonicalOut_waitm {s : State} (h : Canonical s.memories) (x : Ins) : CanonicalOut (waitm x s) :=
  canonicalOut_perThread h _ _ (fun _ _ _ _ => by simp) fun _ _ h => by simp [h]

@[simp] theorem canonicalOut_mset {s : State} (h : Canonical s.memories) (x : Ins) : CanonicalOut (mset x s) :=
  canonicalOut_perThread h _ _ (fun _ _ _ _ => by simp) fun _ _ h => by simp [h]

@[simp] theorem canonicalOut_ppt {s : State} (h : Canonical s.memories) (x : Ins) : CanonicalOut (ppt x s) :=
  canonicalOut_perThread h _ _ (fun _ _ _ _ => by simp) fun _ _ h => by simp [h]

@[simp] theorem canonicalOut_slotr {s : State} (h : Canonical s.memories) (x : Ins) : CanonicalOut (slotr x s) :=
  canonicalOut_perSubrun h _ _ memories_noEnd fun _ _ h => by simp [h]

@[simp] theorem canonicalOut_slotw {s : State} (h : Canonical s.memories) (x : Ins) : CanonicalOut (slotw x s) :=
  canonicalOut_perSubrun h _ _ memories_noEnd fun _ _ h => by simp [h]

@[simp] theorem canonicalOut_mget {s : State} (h : Canonical s.memories) (x : Ins) : CanonicalOut (mget x s) :=
  canonicalOut_perSubrun h _ _ memories_noEnd fun _ _ h => by simp [h]

@[simp] theorem canonicalOut_balloc {s : State} (h : Canonical s.memories) (x : Ins) : CanonicalOut (balloc x s) :=
  canonicalOut_perSubrun h _ _ memories_noEnd fun _ _ h => by simp [h]

@[simp] theorem canonicalOut_bfree {s : State} (h : Canonical s.memories) (x : Ins) : CanonicalOut (bfree x s) :=
  canonicalOut_perSubrun h _ _ memories_noEnd fun _ _ h => by simp [h]

@[simp] theorem canonicalOut_mma {s : State} (h : Canonical s.memories) (x : Ins) : CanonicalOut (mma x s) :=
  canonicalOut_perSubrun h _ _ memories_noEnd fun _ _ h => by simp [h]

@[simp] theorem canonicalOut_accrSt {s : State} (h : Canonical s.memories) (x : Ins) : CanonicalOut (accrSt x s) :=
  canonicalOut_perSubrun h _ _ memories_noEnd fun _ _ h => by simp [h]

@[simp] theorem canonicalOut_rgset {s : State} (h : Canonical s.memories) (x : Ins) : CanonicalOut (rgset x s) :=
  canonicalOut_perSubrun h _ _ memories_noEnd fun _ _ h => by simp [h]

@[simp] theorem canonicalOut_coll {s : State} (h : Canonical s.memories) (x : Ins) : CanonicalOut (coll x s) :=
  canonicalOut_perSubrun h _ _ memories_noEnd fun _ _ h => by simp [h]

@[simp] theorem canonicalOut_rstat {s : State} (h : Canonical s.memories) (x : Ins) : CanonicalOut (rstat x s) :=
  canonicalOut_perSubrun h _ _ memories_noEnd fun _ _ h => by simp [h]

@[simp] theorem canonicalOut_matchEq {s : State} (h : Canonical s.memories) (x : Ins) : CanonicalOut (matchEq x s) :=
  canonicalOut_perSubrun h _ _ memories_noEnd fun _ _ h => by simp [h]

@[simp] theorem canonicalOut_redw {s : State} (h : Canonical s.memories) (x : Ins) : CanonicalOut (redw x s) :=
  canonicalOut_perSubrun h _ _ memories_noEnd fun _ _ h => by simp [h]

@[simp] theorem canonicalOut_redwx {s : State} (h : Canonical s.memories) (x : Ins) : CanonicalOut (redwx x s) :=
  canonicalOut_perSubrun h _ _ memories_noEnd fun _ _ h => by simp [h]

@[simp] theorem canonicalOut_scan {s : State} (h : Canonical s.memories) (x : Ins) : CanonicalOut (scan x s) :=
  canonicalOut_perSubrun h _ _ memories_noEnd fun _ _ h => by simp [h]

@[simp] theorem canonicalOut_mvb {s : State} (h : Canonical s.memories) (x : Ins) : CanonicalOut (mvb x s) :=
  canonicalOut_perSubrun h _ _ memories_noEnd fun _ _ h => by
    dsimp only
    split
    · exact h
    · split
      · exact h
      · exact h
      · split <;> simp [h]

@[simp] theorem canonicalOut_vote {s : State} (h : Canonical s.memories) (x : Ins) : CanonicalOut (vote x s) :=
  canonicalOut_perSubrun h _ _ memories_noEnd fun _ _ h => by
    dsimp only
    split <;> simp [h]

@[simp] theorem canonicalOut_cpy {s : State} (h : Canonical s.memories) (x : Ins) : CanonicalOut (cpy x s) :=
  canonicalOut_perThreadHeld h _ fun _ _ h => by simp [h]

@[simp] theorem canonicalOut_gath {s : State} (h : Canonical s.memories) (x : Ins) : CanonicalOut (gath x s) :=
  canonicalOut_perThreadHeld h _ fun _ _ h => by simp [h]

@[simp] theorem canonicalOut_putn {s : State} (h : Canonical s.memories) (x : Ins) : CanonicalOut (putn x s) :=
  canonicalOut_perThreadHeld h _ fun _ _ h => by simp [h]

@[simp] theorem canonicalOut_alu {s : State} (h : Canonical s.memories) (fn : Ins → Nat → Nat → Nat → AluOut) (x : Ins) :
    CanonicalOut (alu fn x s) := by
  unfold alu
  split
  · exact canonicalOut_perSubrun h _ _ memories_noEnd fun _ _ h => by simp [h]
  · exact canonicalOut_perThread h _ _ memories_noEnd fun _ _ h => by simp [h]

@[simp] theorem canonicalOut_memIns {s : State} (h : Canonical s.memories) (k : ReqKind) (mk : Ins → Vals → Req → Req)
    (align : Ins → Nat) (x : Ins) :
    CanonicalOut (memIns k mk align x s) :=
  canonicalOut_perThread h _ _ memories_noEnd fun _ _ h => by simp [h]

@[simp] theorem canonicalOut_brx {s : State} (h : Canonical s.memories) (isCall : Bool) (x : Ins) :
    CanonicalOut (brx isCall x s) :=
  canonicalOut_perThread h _ _ memories_noEnd fun _ _ h => by simp [h]

@[simp] theorem canonicalOut_trapWith {s : State} (h : Canonical s.memories) (cause : Nat) (x : Ins) :
    CanonicalOut (trapWith cause x s) :=
  canonicalOut_perThread h _ _ (fun _ _ _ _ => by simp) fun _ _ h => by simp [h]

@[simp] theorem canonicalOut_anvilIns {s : State} (h : Canonical s.memories)
    (body : Ins → Nat → Vals → State → (Nat × Nat × Dword) ⊕ Op) (x : Ins) :
    CanonicalOut (anvilIns body x s) :=
  canonicalOut_perSubrun h _ _ memories_noEnd fun _ _ h => by simp [h]

@[simp] theorem canonicalOut_accr {s : State} (h : Canonical s.memories) (x : Ins) : CanonicalOut (accr x s) := by
  unfold accr
  split
  · exact canonicalOut_accrSt h x
  · exact canonicalOut_perThread h _ _ memories_noEnd fun _ _ h => by simp [h]

@[simp] theorem canonicalOut_exchange {s : State} (h : Canonical s.memories) (src : Ins → Nat → Nat → Option Nat) (x : Ins) :
    CanonicalOut (exchange src x s) :=
  canonicalOut_perSubrun h _ _ memories_noEnd fun _ _ h => by simp [h]

@[simp] theorem canonicalOut_xlane {s : State} (h : Canonical s.memories) (x : Ins) : CanonicalOut (xlane x s) := by
  unfold xlane
  split
  · exact canonicalOut_perSubrun h _ _ memories_noEnd fun _ _ h => by simp [h]
  · exact canonicalOut_perThread h _ _ memories_noEnd fun _ _ h => by simp [h]

theorem canonicalOut_svSub {s : State} (h : Canonical s.memories) (x : Ins) {body : List Nat → State → TOut}
    (hb : ∀ ps s, Canonical s.memories → Canonical (body ps s).state.memories) : CanonicalOut (svSub x body s) :=
  canonicalOut_perSubrun h _ _ memories_noEnd fun ps s h => by
    split
    · exact h
    · exact hb ps s h

@[simp] theorem canonicalOut_halt {s : State} (h : Canonical s.memories) (x : Ins) : CanonicalOut (halt x s) :=
  canonicalOut_svSub h _ fun _ _ h => by simp [h]

@[simp] theorem canonicalOut_atci {s : State} (h : Canonical s.memories) (x : Ins) : CanonicalOut (atci x s) :=
  canonicalOut_svSub h _ fun _ _ h => by simp [h]

@[simp] theorem canonicalOut_ctxs {s : State} (h : Canonical s.memories) (x : Ins) : CanonicalOut (ctxs x s) :=
  canonicalOut_svSub h _ fun _ _ h => by simp [h]

@[simp] theorem canonicalOut_ctxr {s : State} (h : Canonical s.memories) (x : Ins) : CanonicalOut (ctxr x s) :=
  canonicalOut_svSub h _ fun _ _ h => by simp [h]

/-- Every instruction keeps the canonical form. -/
theorem canonicalOut_opMeaning {s : State} (h : Canonical s.memories) (x : Ins) : CanonicalOut (opMeaning x s) := by
  unfold opMeaning
  split <;> simp [h]

/-! ### Events and steps -/

/-- The happening that a row acts on, where the row answers a next state. -/
theorem onEvent_next {s s' : State} {f : Ev → State → Option State} (h : onEvent s f = .next s') :
    ∃ e, s.ev = some e ∧ f e { s with ev := none } = some s' := by
  unfold onEvent at h
  split at h
  · contradiction
  · rename_i e he
    split at h
    · rename_i hf
      cases h
      exact ⟨e, he, hf⟩
    · contradiction

/-- An event row that answers a next state has the effect of the happening that stands. -/
theorem exec_event {i : Instr} (hi : i.ins? = none) {s s' : State} (h : exec i s = .next s') :
    ∃ e, s.ev = some e ∧ s' = e.effect { s with ev := none } := by
  cases i
  all_goals first
    | cases hi; done
    | (unfold exec at h
       obtain ⟨e, he, hf⟩ := onEvent_next h
       refine ⟨e, he, ?_⟩
       split at hf
       · exact (Option.some.inj hf).symm
       · exact nomatch hf)

theorem canonical_effect {s : State} (h : Canonical s.memories) (e : Ev) : Canonical (e.effect s).memories := by
  cases e <;> simp [Ev.effect, h]

/-- Every row of the opcode table keeps the canonical form. -/
theorem canonicalOut_exec {s : State} (h : Canonical s.memories) (i : Instr) : CanonicalOut (exec i s) := by
  cases hi : i.ins? with
  | some x =>
    rw [exec_ins hi]
    exact canonicalOut_opMeaning h x
  | none =>
    intro s' e
    obtain ⟨v, -, rfl⟩ := exec_event hi e
    exact canonical_effect (by simpa using h) v

theorem canonicalOut_runSlice {s : State} (h : Canonical s.memories) (l : Nat) : CanonicalOut (runSlice s l) := by
  unfold runSlice
  extract_lets s1
  have h1 : Canonical s1.memories := by simpa [s1] using h
  split
  · exact (canonicalOut_next _).2 h1
  · split
    · rename_i e
      simp [snd_eq e, h1]
    · rename_i e
      exact canonicalOut_exec (by simp [snd_eq e, h1]) _

theorem canonicalOut_doPick {s : State} (h : Canonical s.memories) (a : Pick) : CanonicalOut (doPick s a) := by
  cases a with
  | happen e => exact canonicalOut_exec (by simpa [takeEvent] using h) _
  | slice l => exact canonicalOut_runSlice h l
  | settle => simpa [doPick] using h
  | pass n => simpa [doPick] using h

theorem canonicalOut_stepOn {s : State} (h : Canonical s.memories) : CanonicalOut (stepOn s) := by
  unfold stepOn
  exact canonicalOut_doPick (canonical_wake h) _

/-- Settles O60: the happening or the instruction that a step picks keeps the canonical form, and nothing else of a step
writes memory. -/
theorem stepKeepsMemoryCanonical : Obligations.StepKeepsMemoryCanonical := by
  intro s s' h e
  rw [memOk_iff] at h ⊢
  unfold step at e
  split at e
  · exact canonicalOut_stepOn h _ e
  · exact canonicalOut_stepOn (by simpa using h) _ e

end Sys2Proof.Machine
end

