-- ==== Sys2Proof/Proofs/Fetch.lean ====
section
/-! PROOFS. The fetch reads the bytes of memory, and gives the instruction to which its words decode (O14): first what the
decoder reads of a list of words, then the fetch of a line, of words and of an instruction. -/

namespace Sys2Proof

/-! ### The constructor of an opcode and a layout has them as its parts -/

/-- Of an opcode with two rows in a layout, a modifier bit takes one; the parts of both are the same. -/
theorem parts_ite {c : Prop} [Decidable c] {a b i : Instr} (h : (if c then some a else some b) = some i) {p : Opc × Body}
    (ha : a.parts = some p) (hb : b.parts = some p) : i.parts = some p := by
  split at h <;> cases h <;> assumption

theorem parts_ofShort {o : Opc} {f : Short} {i : Instr} (h : Instr.ofShort o f = some i) : i.parts = some (o, .short f) := by
  unfold Instr.ofShort at h
  split at h
  case h_44 =>
    split at h
    · subst_vars; cases h; rfl
    · contradiction
  all_goals cases h
  all_goals rfl

theorem parts_ofLit {o : Opc} {f : Short} {l : Dword} {i : Instr} (h : Instr.ofLit o f l = some i) :
    i.parts = some (o, .lit f l) := by
  unfold Instr.ofLit at h
  split at h <;> cases h
  all_goals rfl

theorem parts_ofLong {o : Opc} {f : Long} {i : Instr} (h : Instr.ofLong o f = some i) : i.parts = some (o, .long f) := by
  cases o
  all_goals first
    | exact parts_ite h rfl rfl
    | (obtain rfl := Option.some.inj h; rfl)
    | cases h

theorem parts_ofLongLit {o : Opc} {f : Long} {l : Dword} {i : Instr} (h : Instr.ofLongLit o f l = some i) :
    i.parts = some (o, .longLit f l) := by
  unfold Instr.ofLongLit at h
  split at h <;> cases h
  all_goals rfl

theorem parts_ofParts {o : Opc} {b : Body} {i : Instr} (h : Instr.ofParts o b = some i) : i.parts = some (o, b) := by
  cases b with
  | short f => exact parts_ofShort h
  | branch g off =>
    simp only [Instr.ofParts] at h
    split at h
    · subst_vars; cases h; rfl
    · split at h
      · subst_vars; cases h; rfl
      · contradiction
  | lit f l => exact parts_ofLit h
  | long f => exact parts_ofLong h
  | longLit f l => exact parts_ofLongLit h

@[simp] theorem ofBody_o (o : Opc) (b : Body) : (Ins.ofBody o b).o = o := by cases b <;> rfl

/-! ### Words and bytes -/

theorem wordBytes_bytesWord (a b c d : Byte) : wordBytes (bytesWord a b c d) = [a, b, c, d] := by
  simp only [wordBytes, bytesWord, List.cons.injEq, and_true]
  refine ⟨?_, ?_, ?_, ?_⟩
  all_goals
    ext i hi
    grind

theorem bytesWord_wordBytes (w : Word) :
    bytesWord (w.extractLsb' 0 8) (w.extractLsb' 8 8) (w.extractLsb' 16 8) (w.extractLsb' 24 8) = w := by
  unfold bytesWord
  ext i hi
  grind

theorem length_wordBytes (w : Word) : (wordBytes w).length = 4 := rfl

theorem toWords_flatMap (ws : List Word) : toWords (ws.flatMap wordBytes) = ws := by
  induction ws with
  | nil => rfl
  | cons w ws ih =>
    show bytesWord _ _ _ _ :: toWords (ws.flatMap wordBytes) = _
    rw [bytesWord_wordBytes, ih]

theorem take_flatMap_wordBytes (ws : List Word) (n : Nat) :
    (ws.flatMap wordBytes).take (4 * n) = (ws.take n).flatMap wordBytes := by
  induction n generalizing ws with
  | zero => simp
  | succ n ih =>
    cases ws with
    | nil => simp
    | cons w ws =>
      show (wordBytes w ++ ws.flatMap wordBytes).take _ = _
      rw [List.take_append, length_wordBytes, show 4 * (n + 1) - 4 = 4 * n by omega, ih,
        List.take_of_length_le (by simp [length_wordBytes])]
      rfl

/-- What the decoder has read where it answers an instruction: the opcode and the length of the first word, and the fields
of the words of that length. -/
theorem decode_words {w : Word} {ws : List Word} {i : Instr} {rest : List Byte}
    (h : decode ((w :: ws).flatMap wordBytes) = .ok (i, rest)) :
    ∃ o len, decodeHead w = .ok (o, len) ∧ decodeBody o len (w :: ws.take (lenBytes len / 4 - 1)) = .ok i := by
  change decode (_ :: _ :: _ :: _ :: ws.flatMap wordBytes) = _ at h
  simp only [decode, bytesWord_wordBytes] at h
  split at h
  · contradiction
  · rename_i o len hd
    split at h
    · contradiction
    · split at h
      · contradiction
      · rename_i hb
        refine ⟨o, len, hd, ?_⟩
        cases h
        have hlen : lenBytes len = 4 * (lenBytes len / 4 - 1 + 1) := by
          unfold lenBytes
          split
          · rfl
          · split <;> rfl
        rw [hlen] at hb
        rw [← hb, ← List.take_succ_cons, ← toWords_flatMap ((w :: ws).take _), ← take_flatMap_wordBytes]
        rfl

theorem parts_decodeBody {o : Opc} {len : BitVec 2} {ws : List Word} {i : Instr} (h : decodeBody o len ws = .ok i) :
    ∃ b, i.parts = some (o, b) := by
  unfold decodeBody at h
  split at h
  · contradiction
  · rename_i b _
    split at h
    · split at h
      · rename_i hp
        cases h
        exact ⟨b, parts_ofParts hp⟩
      · contradiction
    · contradiction

/-- The opcode of an instruction that the decoder answers is that of its first word. -/
theorem opcode_decodeBody {o : Opc} {len : BitVec 2} {ws : List Word} {i : Instr} {x : Ins} (h : decodeBody o len ws = .ok i)
    (hx : i.ins? = some x) : x.o = o := by
  obtain ⟨b, hb⟩ := parts_decodeBody h
  rw [Instr.ins?, hb] at hx
  cases hx
  simp

end Sys2Proof

namespace Sys2Proof.Machine

/-- Part of a read is a read of that part. -/
theorem sliceL_memRead (m : List Host.Cell) (a n i k : Nat) (h : i + k ≤ n) :
    sliceL (memRead m a n) i k = memRead m (a + i) k := by
  refine List.ext_getElem (by simp [sliceL, memRead_eq_map]; omega) fun j _ _ => ?_
  simp [sliceL, memRead_eq_map, Nat.add_assoc]

/-- A fetch that the core's cache does not hold takes the line from memory, where the page translates and the line gives data. -/
theorem fetchLine_of_xlate {s : State} {core va : Nat} {p : Place} (hva : va < 2 ^ 56) (hc : (s.core core).icache = [])
    (hx : xlateNow s (dieOfCore core) (s.cohort core).ctx.asid (s.cohort core).ctx.root (s.cohort core).launch
      (s.cohort core).window.toNat (64 * (va / 64)) 4 = .ok p) (hb : badLine s (p.pa / 64) = false)
    (hr : homeDie p.pa = dieOfCore core ∨ unreach s (dieOfCore core) (homeDie p.pa) = none) :
    (fetchLine s core va).1 = some (memRead s.mem (p.pa / 64 * 64) 64) := by
  have hreach : ¬((unreach s (dieOfCore core) (homeDie p.pa)).isSome ∧ homeDie p.pa ≠ dieOfCore core) := by
    rintro ⟨h1, h2⟩
    obtain h | h := hr
    · exact h2 h
    · simp [h] at h1
  simp only [fetchLine, hc, List.find?_nil, if_neg (Nat.not_le.2 hva), hx, if_neg hreach, hb, Bool.false_eq_true, if_false]

theorem fetchWord_of_line {s : State} {core : Nat} {va : Dword} {l : List Byte} (h : (fetchLine s core va.toNat).1 = some l) :
    (fetchWord s core va).1 = (bytesWords (sliceL l (va.toNat % 64) 4)).head? := by
  unfold fetchWord
  split
  · rename_i e
    rw [e] at h
    cases h
    rfl
  · rename_i e
    rw [e] at h
    contradiction

/-- A word of code is the four bytes of memory at its physical address. -/
theorem fetchWord_memRead {s : State} {core : Nat} {va : Dword} {a : Nat} (ha : va.toNat % 4 = 0)
    (h : (fetchLine s core va.toNat).1 = some (memRead s.mem a 64)) :
    ∃ w, (fetchWord s core va).1 = some w ∧ wordBytes w = memRead s.mem (a + va.toNat % 64) 4 := by
  rw [fetchWord_of_line h, sliceL_memRead _ _ _ _ _ (by omega)]
  exact ⟨_, rfl, wordBytes_bytesWord ..⟩

/-- The words fetched from an address on are the word there and the words from the next address on. -/
theorem fetchWords_succ {s s1 : State} {core n : Nat} {va : Dword} {ws : List Word}
    (h : fetchWords s core va (n + 1) = (.ok ws, s1)) :
    ∃ w ws' s', fetchWord s core va = (some w, s') ∧ fetchWords s' core (va + 4) n = (.ok ws', s1) ∧ ws = w :: ws' := by
  unfold fetchWords at h
  split at h
  · cases h
  · rename_i w s' e
    split at h
    · cases h
    · rename_i ws' s'' e'
      cases h
      exact ⟨w, ws', s', e, e', rfl⟩

/-- Of words that are fetched, fewer are fetched alike. -/
theorem fetchWords_take {s s1 : State} {core n m : Nat} {va : Dword} {ws : List Word}
    (h : fetchWords s core va n = (.ok ws, s1)) (hm : m ≤ n) : ∃ s2, fetchWords s core va m = (.ok (ws.take m), s2) := by
  induction m generalizing s va ws n with
  | zero => exact ⟨s, by rw [List.take_zero]; rfl⟩
  | succ m ih =>
    obtain ⟨n, rfl⟩ : ∃ k, n = k + 1 := ⟨n - 1, by omega⟩
    obtain ⟨w, ws', s', hw, hws, rfl⟩ := fetchWords_succ h
    obtain ⟨s2, h2⟩ := ih hws (by omega)
    exact ⟨s2, by simp only [fetchWords, hw, h2, List.take_succ_cons]⟩

/-- The fetch gives the instruction that its words decode to. -/
theorem fetchInstr_of_words {s s1 s2 : State} {core : Nat} {pc : Dword} {sv : Bool} {w : Word} {ws : List Word} {o : Opc}
    {len : BitVec 2} {i : Instr} {x : Ins} (hw : fetchWord s core pc = (some w, s1)) (hd : decodeHead w = .ok (o, len))
    (hws : fetchWords s1 core (pc + 4) (lenBytes len / 4 - 1) = (.ok ws, s2)) (hb : decodeBody o len (w :: ws) = .ok i)
    (hx : i.ins? = some x) (hsv : x.o.sv = true → sv = true) (hg : insTopG x ≤ (s.cohort core).r)
    (ht : badTile s core x = false) : (fetchInstr s core pc sv).1 = .ok i := by
  have hpriv : ¬((o.sv && !sv) = true) := by
    rw [← opcode_decodeBody hb hx]
    simpa using hsv
  have hregs : ¬((i.ins?.any fun x => decide ((s.cohort core).r < insTopG x) || badTile s core x) = true) := by
    simp [hx, ht, hg]
  simp only [fetchInstr, hw, hd, if_neg hpriv, hws, hb, if_neg hregs]

/-- The most words that an instruction has. -/
theorem lenBytes_le (len : BitVec 2) : lenBytes len / 4 - 1 ≤ 4 := by
  unfold lenBytes
  split
  · decide
  · split <;> decide

/-- Settles O14: the line that a fetch reads is memory's, and the decoder reads the words that the fetch takes. -/
theorem fetchReadsTheBytes : Obligations.FetchReadsTheBytes := by
  refine ⟨fun s core va p ha hva hc hx hb hr => fetchWord_memRead ha (fetchLine_of_xlate hva hc hx hb hr), ?_⟩
  intro s s1 core pc sv ws i x rest hws hdec hx hsv hg ht
  obtain ⟨w, ws', s', hw, hws', rfl⟩ := fetchWords_succ hws
  obtain ⟨o, len, hd, hb⟩ := decode_words hdec
  obtain ⟨s2, h2⟩ := fetchWords_take hws' (lenBytes_le len)
  exact fetchInstr_of_words hw hd h2 hb hx hsv hg ht

end Sys2Proof.Machine
end

