-- ==== Sys2Proof/Proofs/HostAccess.lean ====
section
/-! PROOFS. Host accesses reach memory and the management registers (O57). A visit of a line by the host changes nothing that
the access sees, where HBM4E has no error. -/

namespace Sys2Proof.Machine

/-! ### What a host access sees of the machine -/

/-- What a host access to package `p` reads and writes, and what it must leave alone: the memories that it reaches, the
threads, the errors of HBM4E, and the package's queues and list of reads. -/
def State.hostView (s : State) (p : Nat) :
    List Host.Cell × List Host.Cell × KV Thread × KV (List (Nat × Byte)) × Bool × List (Nat × List Byte) :=
  (s.mem, s.cellar, s.threads, s.errs, (s.pkg p).lqEn, (s.pkg p).hostReads)

theorem hostView_eq_iff (s s' : State) (p : Nat) : s'.hostView p = s.hostView p ↔
    s'.mem = s.mem ∧ s'.cellar = s.cellar ∧ s'.threads = s.threads ∧ s'.errs = s.errs ∧ (s'.pkg p).lqEn = (s.pkg p).lqEn ∧
      (s'.pkg p).hostReads = (s.pkg p).hostReads := by
  simp [State.hostView]

/-- A change of fields that a host access does not see (by the components, as `memories_mk`). -/
@[simp] theorem hostView_mk (s : State) (p : Nat) (a b c d e f g i j k l m n o q r t u v w x) :
    State.hostView ⟨a, b, c, d, e, f, g, s.threads, i, j, k, l, m, n, s.pkgs, s.mem, s.cellar, o, q, s.errs, r, t, u, v, w, x⟩ p =
      s.hostView p :=
  (hostView_eq_iff ..).2 ⟨rfl, rfl, rfl, rfl, rfl, rfl⟩

@[simp] theorem hostView_modDie (s : State) (d p : Nat) (f : Die → Die) : (s.modDie d f).hostView p = s.hostView p := by
  simp [State.modDie]

@[simp] theorem hostView_modReq (s : State) (i p : Nat) (f : Req → Req) : (s.modReq i f).hostView p = s.hostView p := by
  simp [State.modReq]

@[simp] theorem hostView_post (s : State) (n p : Nat) (e : Ev) : (s.post n e).hostView p = s.hostView p := by
  simp [State.post]

@[simp] theorem hostView_chooseBelow (s : State) (n p : Nat) : (s.chooseBelow n).2.hostView p = s.hostView p := by
  simp [State.chooseBelow, State.choose]

theorem hostView_modPkg {s : State} {k p : Nat} {f : Pkg → Pkg} (h1 : ∀ g, (f g).lqEn = g.lqEn)
    (h2 : ∀ g, (f g).hostReads = g.hostReads) : (s.modPkg k f).hostView p = s.hostView p := by
  simp only [State.hostView, State.pkg_modPkg, State.modPkg_mem, State.modPkg_cellar, State.modPkg_threads, State.modPkg_errs]
  split
  · subst_vars
    rw [h1, h2]
  · rfl

@[simp] theorem hostView_raise (s : State) (d p : Nat) (r : EvRec) : (s.raise d r).hostView p = s.hostView p := by
  unfold State.raise
  split
  · exact hostView_modPkg (fun _ => rfl) fun _ => rfl
  · simp

@[simp] theorem hostView_foldl {α : Type} (f : State → α → State) (l : List α) (s : State) (p : Nat)
    (h : ∀ s a, (f s a).hostView p = s.hostView p) : (l.foldl f s).hostView p = s.hostView p := by
  induction l generalizing s with
  | nil => rfl
  | cons a l ih => exact (ih _).trans (h s a)

@[simp] theorem hostView_caskLost (s : State) (d line c p : Nat) : (caskLost s d line c).hostView p = s.hostView p :=
  hostView_raise ..

@[simp] theorem hostView_setMeta (s : State) (a line p : Nat) (m : Meta) : (setMeta s a line m).hostView p = s.hostView p := by
  unfold setMeta
  dsimp only
  split <;> simp

@[simp] theorem hostView_trimCache (s : State) (d p : Nat) : (trimCache s d).hostView p = s.hostView p := by
  unfold trimCache
  dsimp only
  split
  · rfl
  · split <;> simp

/-! ### The visit of a line by the host, where HBM4E has no error -/

theorem correction_nil : correction [] = some [] := by decide

theorem residue_nil : residue [] [] = [] := by decide

theorem takeFix_nil (s : State) (line : Nat) : takeFix s line [] [] = s := by
  simp [takeFix, residue_nil]

/-- The home reads a line that has no error from HBM4E, unless its die cache holds it. -/
theorem homeRead_of_errs {s : State} (h : s.errs = []) (line : Nat) :
    homeRead s line = if heldAtHome s line then (s, true) else
      (trimCache (s.modDie (homeDie (64 * line)) fun x => { x with held := kvSet x.held line (hbmCheck s line).toNat })
        (homeDie (64 * line)), true) := by
  simp only [homeRead, h, kvGet, correction_nil, takeFix_nil]

theorem hostView_homeRead {s : State} (h : s.errs = []) (line p : Nat) : (homeRead s line).1.hostView p = s.hostView p := by
  rw [homeRead_of_errs h]
  split <;> simp

theorem hostView_visit {s : State} (h : s.errs = []) (line cls p : Nat) : (visit s line cls).1.hostView p = s.hostView p := by
  rw [← hostView_homeRead h line]
  unfold visit
  dsimp only
  repeat' split
  all_goals simp

/-- A read of an engine for a page outside the die caches, on the die that is its home, goes to the agent there. -/
theorem hostView_toAgent {s : State} {id : Nat} (hk : (s.req id).kind = .erd)
    (hd : dieOfCore (s.req id).core = homeDie (s.req id).pa) (hc : (s.req id).cls = 9) (p : Nat) :
    (toAgent s id).hostView p = s.hostView p := by
  simp [toAgent, hk, hd, hc]

theorem hostView_launchReq {s : State} {id : Nat} (hk : (s.req id).kind = .erd)
    (hd : dieOfCore (s.req id).core = homeDie (s.req id).pa) (hc : (s.req id).cls = 9) (p : Nat) :
    (launchReq s id).hostView p = s.hostView p := by
  simp only [launchReq, hd, hk, reduceCtorEq, ↓reduceIte, placeDie, hc, Nat.reduceEqDiff, or_self, Nat.one_lt_ofNat]
  rw [hostView_toAgent (by simp [hk]) (by simp [hd]) (by simp [hc]), hostView_modReq]

theorem hostView_postRead (s : State) (line p : Nat) :
    (postRead s (homeDie (64 * line)) 9 (64 * line)).hostView p = s.hostView p := by
  have hd : dieOfCore (128 * homeDie (64 * line)) = homeDie (64 * line) := by simp [dieOfCore]
  have hpa : 64 * line / 32 * 32 = 64 * line := by omega
  unfold postRead readFor
  rw [if_neg (by decide)]
  dsimp only
  rw [hostView_launchReq (by simp [State.req]) (by simp [State.req, hd, hpa]) (by simp [State.req])]
  simp [State.fresh]

/-! The happening that stands plays no part in a visit. -/

theorem trimCache_ev (s : State) (e : Option Ev) (d : Nat) :
    trimCache { s with ev := e } d = { trimCache s d with ev := e } := by
  have hv : (evictions { s with ev := e } d).filter (fun v => !State.posted { s with ev := e } v) =
      (evictions s d).filter fun v => !s.posted v := rfl
  have hc : cacheLines (State.die { s with ev := e } d) = cacheLines (s.die d) := rfl
  unfold trimCache
  simp only [hv, hc]
  split
  · rfl
  · simp only [State.chooseBelow, State.choose]
    split <;> rfl

theorem homeRead_ev {s : State} (h : s.errs = []) (e : Option Ev) (line : Nat) :
    homeRead { s with ev := e } line = ({ (homeRead s line).1 with ev := e }, (homeRead s line).2) := by
  rw [homeRead_of_errs h, homeRead_of_errs (s := { s with ev := e }) h]
  by_cases hh : heldAtHome s line = true
  · rw [if_pos hh, if_pos (show heldAtHome { s with ev := e } line = true from hh)]
  · rw [if_neg hh, if_neg (show ¬heldAtHome { s with ev := e } line = true from hh)]
    exact congrArg (·, true) (trimCache_ev (s.modDie (homeDie (64 * line)) fun x =>
      { x with held := kvSet x.held line (hbmCheck s line).toNat }) e _)

theorem visit_ev {s : State} (h : s.errs = []) (e : Option Ev) (line cls : Nat) :
    (visit { s with ev := e } line cls).2 = (visit s line cls).2 := by
  unfold visit
  rw [homeRead_ev h]
  simp only [snd_ite]
  rfl

theorem hostLost_ev {s : State} (h : s.errs = []) (e : Option Ev) (line : Nat) :
    hostLost { s with ev := e } line = hostLost s line := by
  unfold hostLost
  rw [visit_ev h]
  rfl

theorem hostView_hostVisit {s : State} (h : s.errs = []) (line p : Nat) : (hostVisit s line).hostView p = s.hostView p := by
  unfold hostVisit
  split
  · rfl
  · dsimp only
    split
    · exact hostView_visit h ..
    · exact hostView_postRead ..

theorem hostView_hostVisits {s : State} (h : s.errs = []) (ls : List Nat) (p : Nat) :
    (ls.foldl hostVisit s).hostView p = s.hostView p := by
  induction ls generalizing s with
  | nil => rfl
  | cons l ls ih =>
    have hv := hostView_hostVisit h l p
    obtain ⟨-, -, -, he, -⟩ := (hostView_eq_iff ..).1 hv
    exact (ih (he.trans h)).trans hv

/-! ### Accesses to memory -/

theorem evHostMemoryWrite_notReady {s : State} {p off : Nat} {b : List Byte} (h : (s.pkg p).ready = false) :
    evHostMemoryWrite s p off b = s := by
  simp [evHostMemoryWrite, h]

/-- A host write to a package that is ready changes memory alone of what programs see. -/
theorem evHostMemoryWrite_ready {s : State} {p off : Nat} {b : List Byte} (h : (s.pkg p).ready = true)
    (hr : hostReaches s p off b.length = true) (he : s.errs = []) (hq : (s.pkg p).lqEn = false) :
    (evHostMemoryWrite s p off b).mem = memWrite s.mem (barPa p off) b ∧
      (evHostMemoryWrite s p off b).cellar = s.cellar ∧ (evHostMemoryWrite s p off b).threads = s.threads := by
  obtain ⟨hm, hc, ht, -, hl, -⟩ := (hostView_eq_iff ..).1 (hostView_hostVisits he (linesIn (barPa p off) b.length) p)
  unfold evHostMemoryWrite
  rw [if_neg (by simp [h, hr])]
  extract_lets pa s1 s2
  have hdir : dirTouched s2 p pa b.length = [] := by
    have hl2 : (s2.pkg p).lqEn = false := hl.trans hq
    simp [dirTouched, hl2]
  rw [hdir, List.foldl_nil]
  exact ⟨congrArg (memWrite · pa b) hm, hc, ht⟩

theorem evHostMemoryRead_notReady {s : State} {p off n : Nat} (h : (s.pkg p).ready = false) :
    ((evHostMemoryRead s p off n).pkg p).hostReads = (s.pkg p).hostReads ++ [(off, List.replicate n 0xFF)] := by
  simp [evHostMemoryRead, h]

/-- A host read of lines that give data, from a package that is ready, returns the bytes of memory. -/
theorem evHostMemoryRead_ready {s : State} {p off n : Nat} (h : (s.pkg p).ready = true) (hr : hostReaches s p off n = true)
    (he : s.errs = []) (hl : ∀ l ∈ linesIn (barPa p off) n, hostLost s l = false) :
    ((evHostMemoryRead s p off n).pkg p).hostReads = (s.pkg p).hostReads ++ [(off, memRead s.mem (barPa p off) n)] := by
  obtain ⟨hm, -, -, -, -, hh⟩ := (hostView_eq_iff ..).1 (hostView_hostVisits he (linesIn (barPa p off) n) p)
  have hbad : (linesIn (barPa p off) n).filter (hostLost s) = [] := by simpa using hl
  simp [evHostMemoryRead, h, hr, hbad, openBytes, hm, hh]

/-! ### Accesses to the management registers -/

/-- What is posted without delay stands in the agenda with the present clk. -/
theorem mem_agendaInsert (due : Nat) (e : Ev) (l : List (Nat × Ev)) : (due, e) ∈ agendaInsert due e l := by
  induction l with
  | nil => simp [agendaInsert]
  | cons a r ih =>
    unfold agendaInsert
    split
    · simp
    · simp [ih]

theorem mem_agenda_post (s : State) (e : Ev) : (s.clk, e) ∈ (s.post 0 e).agenda := mem_agendaInsert ..

theorem evRegisterWrite_badSize {s : State} {p off size : Nat} {priv : Bool} {v : Dword}
    (h : (size ≠ 4 ∧ size ≠ 8) ∨ off % size ≠ 0) : evRegisterWrite s p priv off size v = s := by
  unfold evRegisterWrite
  rw [if_pos]
  simp only [Bool.not_eq_true', decide_eq_false_iff_not]
  omega

theorem evRegisterWrite_unpowered {s : State} {p off size : Nat} {priv : Bool} {v : Dword} (h : (s.pkg p).powered = false)
    (ha : priv = false ∨ off ≠ 0x1000010) : evRegisterWrite s p priv off size v = s := by
  unfold evRegisterWrite
  split
  · rfl
  · rw [if_pos]
    obtain rfl | ha := ha <;> simp [*]

/-- A privileged write of a size that its address is aligned to. -/
theorem evRegisterWrite_priv {s : State} {p off size : Nat} {v : Dword} (hs : size = 4 ∨ size = 8) (ha : off % size = 0)
    (hp : (s.pkg p).powered = true ∨ off = 0x1000010) : evRegisterWrite s p true off size v = writePriv s p off size v := by
  unfold evRegisterWrite
  rw [if_neg (by simp [hs, ha]), if_neg (by simpa using fun h => by simp_all), if_pos rfl]

theorem evRegisterWrite_hostCtl {s : State} {p size : Nat} {v : Dword} (hs : size = 4 ∨ size = 8) (hv : v.getLsbD 0 = true) :
    (s.clk, Ev.hostCtlReset p) ∈ (evRegisterWrite s p true 0x1000010 size v).agenda := by
  rw [evRegisterWrite_priv hs (by obtain rfl | rfl := hs <;> rfl) (.inr rfl)]
  obtain rfl | rfl := hs
  · simpa [writePriv, pkgReg, writePkgReg, hv] using mem_agenda_post ..
  · simpa [writePriv, pkgReg, writePkgReg, hv] using mem_agenda_post ..

/-- A field of a number of 64 bits. -/
theorem natBits_toNat (n : Dword) (lo w : Nat) : natBits n.toNat lo w = (n.extractLsb' lo w).toNat := by
  simp [natBits, BitVec.extractLsb'_toNat, Nat.shiftRight_eq_div_pow]

/-- A field of the lower half of a register after a write of that half is the field written. -/
theorem natBits_lowWrite (r v : Dword) {lo w : Nat} (h : lo + w ≤ 32) :
    natBits ((r &&& ~~~ 0xFFFFFFFF) ||| (v &&& 0xFFFFFFFF)).toNat lo w = natBits v.toNat lo w := by
  have hmask : (0xFFFFFFFF : Dword) = (BitVec.allOnes 32).setWidth 64 := by decide
  rw [natBits_toNat, natBits_toNat, hmask]
  congr 1
  ext i hi
  have h32 : lo + i < 32 := by omega
  have h64 : lo + i < 64 := by omega
  simp only [BitVec.getElem_extractLsb', BitVec.getLsbD_or, BitVec.getLsbD_and, BitVec.getLsbD_not, BitVec.getLsbD_setWidth,
    BitVec.getLsbD_allOnes, h32, h64, decide_true, Bool.and_true, Bool.not_true, Bool.and_false, Bool.false_or]

/-- The register of the error window takes a write of its lower half. -/
theorem writePriv_errThr (s : State) (p : Nat) (v : Dword) :
    let n : Dword := (BitVec.ofNat 64 ((s.pkg p).errThresh * 65536 + (s.pkg p).errWindow) &&& ~~~ 0xFFFFFFFF) ||| (v &&& 0xFFFFFFFF)
    writePriv s p 0x1000028 4 v = s.modPkg p fun g => { g with
      errWindow := ranged g.errWindow (natBits n.toNat 0 16)
      errThresh := ranged g.errThresh (natBits n.toNat 16 8) } := rfl

theorem evRegisterWrite_errThr {s : State} {p : Nat} {v : Dword} (hp : (s.pkg p).powered = true) :
    (evRegisterWrite s p true 0x1000028 4 v).pkg p = { s.pkg p with
      errWindow := ranged (s.pkg p).errWindow (natBits v.toNat 0 16)
      errThresh := ranged (s.pkg p).errThresh (natBits v.toNat 16 8) } := by
  rw [evRegisterWrite_priv (.inl rfl) rfl (.inl hp), writePriv_errThr, State.pkg_modPkg_same,
    natBits_lowWrite _ _ (by decide), natBits_lowWrite _ _ (by decide)]

theorem evRegisterWrite_lqDoor {s : State} {p k : Nat} {v : Dword} (hp : (s.pkg p).powered = true) (hk : k < 16) :
    (s.clk, Ev.lqDoor (16 * p + k)) ∈ (evRegisterWrite s p false (0x1000 + 8 * k) 8 v).agenda := by
  have hoff : (0x1000 + 8 * k - 0x1000) / 8 = k := by omega
  unfold evRegisterWrite
  rw [if_neg (by simp), if_neg (by simp [hp]), if_neg (by simp), if_pos (by omega), hoff]
  exact mem_agenda_post ..

/-! ### The rows -/

theorem happens_hostMemoryWrite {s : State} {p off : Nat} {b : List Byte} {post : State → Prop}
    (h : post (evHostMemoryWrite { s with ev := none } p off b)) : Happens .hostMemoryWrite (.hostMemoryWrite p off b) s post :=
  fun he => ⟨_, by simp only [exec, execHostMemoryWrite, onEvent, he], h⟩

theorem happens_hostMemoryRead {s : State} {p off n : Nat} {post : State → Prop}
    (h : post (evHostMemoryRead { s with ev := none } p off n)) : Happens .hostMemoryRead (.hostMemoryRead p off n) s post :=
  fun he => ⟨_, by simp only [exec, execHostMemoryRead, onEvent, he], h⟩

theorem happens_registerWrite {s : State} {p off size : Nat} {priv : Bool} {v : Dword} {post : State → Prop}
    (h : post (evRegisterWrite { s with ev := none } p priv off size v)) :
    Happens .registerWrite (.registerWrite p priv off size v) s post :=
  fun he => ⟨_, by simp only [exec, execRegisterWrite, onEvent, he], h⟩

/-- Settles O57: the effects of the three rows of host accesses. -/
theorem hostAccessesReachMemoryAndRegisters : Obligations.HostAccessesReachMemoryAndRegisters := by
  refine ⟨fun p off b s => ?_, fun p off n s => ?_, fun p off size priv v s => ?_⟩
  · exact happens_hostMemoryWrite ⟨evHostMemoryWrite_notReady (s := { s with ev := none }),
      evHostMemoryWrite_ready (s := { s with ev := none })⟩
  · exact happens_hostMemoryRead ⟨evHostMemoryRead_notReady (s := { s with ev := none }), fun h hr he hl =>
      evHostMemoryRead_ready (s := { s with ev := none }) h hr he fun l hm => (hostLost_ev he none l).trans (hl l hm)⟩
  · refine happens_registerWrite ⟨evRegisterWrite_badSize, evRegisterWrite_unpowered (s := { s with ev := none }), ?_, ?_, ?_⟩
    · rintro rfl rfl hs hv
      exact evRegisterWrite_hostCtl (s := { s with ev := none }) hs hv
    · rintro hp rfl rfl rfl g' rfl
      rw [evRegisterWrite_errThr (s := { s with ev := none }) hp]
      exact ⟨rfl, rfl⟩
    · rintro hp rfl rfl k hk rfl
      exact evRegisterWrite_lqDoor (s := { s with ev := none }) hp hk

end Sys2Proof.Machine
end

