-- ==== Sys2Proof/Proofs/Decoding.lean ====
section
/-! PROOFS. Decoding and encoding are inverse (O1, O2, O3, O10): the opcodes and their codes, the fields of the words of a
layout, a layout and its words, and a list of bytes and its words. -/

namespace Sys2Proof

/-! ### Opcodes, constructors and layouts -/

theorem Opc.ofCode_code (o : Opc) : Opc.ofCode o.code = some o := by cases o <;> rfl

theorem Opc.code_lt (o : Opc) : o.code < 256 := by cases o <;> decide

/-- A byte that is an opcode is the code of that opcode alone (Tables 2-9 and 2-10). -/
theorem Opc.code_of_byte : ∀ c : BitVec 8, ((Opc.ofCode c.toNat).all fun o => o.code == c.toNat) = true := by decide

theorem Opc.ofCode_bits (o : Opc) : Opc.ofCode o.bits.toNat = some o := by
  rw [Opc.bits, BitVec.toNat_ofNat, Nat.mod_eq_of_lt o.code_lt, Opc.ofCode_code]

theorem Opc.bits_of_ofCode {c : BitVec 8} {o : Opc} (h : Opc.ofCode c.toNat = some o) : o.bits = c := by
  have hc : o.code = c.toNat := by simpa [h] using Opc.code_of_byte c
  rw [Opc.bits, hc, BitVec.ofNat_toNat, BitVec.setWidth_eq]

/-- The opcode and the layout of an instruction stand for it, where the modifier bit of a shared row agrees. -/
theorem Instr.ofParts_parts (i : Instr) : Laws.Layout.Statement i := by
  cases i
  case idemOpen f => exact Laws.Layout.idemOpen f
  case idemClose f => exact Laws.Layout.idemClose f
  case bufs f => exact Laws.Layout.bufs f
  case bufsQ f => exact Laws.Layout.bufsQ f
  case accr f => exact Laws.Layout.accr f
  case accrSt f => exact Laws.Layout.accrSt f
  case rho f => exact Laws.Layout.rho f
  case rhoRecv f => exact Laws.Layout.rhoRecv f
  case rstat f => exact Laws.Layout.rstat f
  case rstatGrp f => exact Laws.Layout.rstatGrp f
  all_goals first
    | exact Laws.Layout.of_none rfl
    | exact Laws.Layout.of_parts rfl rfl

/-- Of two rows that share an opcode and a layout, the modifier bit takes one whose own bit agrees. -/
theorem rowOk_ite {c : Bool} {a b i : Instr} (h : (if c then some a else some b) = some i) (ha : c = true → a.rowOk = true)
    (hb : c = false → b.rowOk = true) : i.rowOk = true := by
  cases c with
  | true => cases h; exact ha rfl
  | false => cases h; exact hb rfl

/-- The constructor of an opcode and a layout agrees with the modifier bit of its row. -/
theorem rowOk_ofLong {o : Opc} {f : Long} {i : Instr} (h : Instr.ofLong o f = some i) : i.rowOk = true := by
  have hnot : ∀ {b : Bool}, b = false → (!b) = true := fun h => by rw [h]; rfl
  cases o
  case idem => exact rowOk_ite h id hnot
  case bufs => exact rowOk_ite h id hnot
  case accr => exact rowOk_ite h id hnot
  case rho => exact rowOk_ite h id hnot
  case rstat => exact rowOk_ite h id hnot
  all_goals cases h
  all_goals rfl

/-- Rows that share an opcode and a layout are long forms. -/
theorem rowOk_of_parts {i : Instr} {o : Opc} {b : Body} (h : i.parts = some (o, b)) (hb : ∀ f, b ≠ .long f) :
    i.rowOk = true := by
  cases i
  all_goals first
    | rfl
    | (cases h; exact absurd rfl (hb _))

theorem rowOk_ofParts {o : Opc} {b : Body} {i : Instr} (h : Instr.ofParts o b = some i) : i.rowOk = true := by
  cases b with
  | long f => exact rowOk_ofLong h
  | _ => exact rowOk_of_parts (parts_ofParts h) nofun

/-! ### Fields of words (Tables 2-2 to 2-5) -/

theorem opcode_field (hi : BitVec 22) (c : BitVec 8) (len : BitVec 2) : (hi ++ c ++ len).extractLsb' 2 8 = c := by
  ext i hi
  grind

theorem length_field (hi : BitVec 22) (c : BitVec 8) (len : BitVec 2) : (hi ++ c ++ len).extractLsb' 0 2 = len := by
  ext i hi
  grind

theorem shortOfWord_word (f : Short) (o : Opc) (len : BitVec 2) : shortOfWord (f.word o len) = f := by
  obtain ⟨u, b, a, d⟩ := f
  simp only [shortOfWord, Short.word, Short.mk.injEq]
  refine ⟨by cases u <;> grind, ?_, ?_, ?_⟩
  all_goals
    ext i hi
    grind

theorem word_shortOfWord {w : Word} {o : Opc} {len : BitVec 2} (ho : o.bits = w.extractLsb' 2 8)
    (hl : w.extractLsb' 0 2 = len) : (shortOfWord w).word o len = w := by
  subst hl
  simp only [shortOfWord, Short.word, ho]
  ext i hi
  grind

theorem word_branchFields {w : Word} {o : Opc} {len : BitVec 2} (ho : o.bits = w.extractLsb' 2 8)
    (hl : w.extractLsb' 0 2 = len) : w.extractLsb' 14 18 ++ w.extractLsb' 10 4 ++ o.bits ++ len = w := by
  subst hl
  rw [ho]
  ext i hi
  grind

theorem branchFields_word (g : BitVec 4) (off : BitVec 18) (c : BitVec 8) :
    (off ++ g ++ c ++ 0#2).extractLsb' 10 4 = g ∧ (off ++ g ++ c ++ 0#2).extractLsb' 14 18 = off := by
  refine ⟨?_, ?_⟩
  all_goals
    ext i hi
    grind

theorem longOfWords_words (f : Long) (o : Opc) (len : BitVec 2) : longOfWords (f.word0 o len) f.word1 f.imm = f := by
  obtain ⟨u, g, a, d, m, t, fe, c, b, imm⟩ := f
  simp only [longOfWords, Long.word0, Long.word1, Long.mk.injEq, and_true]
  refine ⟨by cases u <;> grind, ?_, ?_, ?_, ?_, ?_, ?_, ?_, ?_⟩
  all_goals
    ext i hi
    grind

theorem longReservedOk_words (f : Long) (o : Opc) (len : BitVec 2) : longReservedOk (f.word0 o len) f.word1 = true := by
  simp only [longReservedOk, Long.word0, Long.word1]
  grind

theorem word0_longOfWords {w0 w1 w2 : Word} {o : Opc} {len : BitVec 2} (ho : o.bits = w0.extractLsb' 2 8)
    (hl : w0.extractLsb' 0 2 = len) (hr : longReservedOk w0 w1 = true) : (longOfWords w0 w1 w2).word0 o len = w0 := by
  simp only [longReservedOk, Bool.and_eq_true, Bool.not_eq_true'] at hr
  subst hl
  simp only [longOfWords, Long.word0, ho]
  ext i hi
  grind

theorem word1_longOfWords {w0 w1 w2 : Word} (hr : longReservedOk w0 w1 = true) : (longOfWords w0 w1 w2).word1 = w1 := by
  simp only [longReservedOk, Bool.and_eq_true, Bool.not_eq_true'] at hr
  simp only [longOfWords, Long.word1]
  ext i hi
  grind

theorem append_litWords (l : Dword) : l.extractLsb' 32 32 ++ l.extractLsb' 0 32 = l := by
  ext i hi
  grind

theorem litWords_append (w1 w2 : Word) : litWords (w2 ++ w1) = [w1, w2] := by
  simp only [litWords, List.cons.injEq, and_true]
  refine ⟨?_, ?_⟩
  all_goals
    ext i hi
    grind

/-! ### A layout and its words -/

/-- The length field of a layout (Table 2-1). -/
def Body.len : Body → BitVec 2
  | .short _ => 0
  | .branch _ _ => 0
  | .lit _ _ => 2
  | .long _ => 1
  | .longLit _ _ => 3

theorem Body.length_words (o : Opc) (b : Body) : 4 * (b.words o).length = lenBytes b.len := by cases b <;> rfl

/-- A layout that is legal for an opcode has a length that is. -/
theorem Body.lenOk_of_ok {o : Opc} {b : Body} (h : b.ok o = true) : o.lenOk b.len = true := by
  cases b with
  | short f => simp only [Body.ok, Bool.and_eq_true] at h; exact h.1.1.1
  | branch g off =>
    simp only [Body.ok, Bool.and_eq_true, Bool.or_eq_true, decide_eq_true_eq] at h
    obtain rfl | rfl := h.1 <;> rfl
  | lit f l => simp only [Body.ok, Bool.and_eq_true] at h; exact h.1.1
  | long f => simp only [Body.ok, Bool.and_eq_true] at h; exact h.1
  | longLit f l => simp only [Body.ok, Bool.and_eq_true] at h; exact h.1

theorem decodeHead_fields (hi : BitVec 22) (o : Opc) (len : BitVec 2) (h : o.lenOk len = true) :
    decodeHead (hi ++ o.bits ++ len) = .ok (o, len) := by
  simp only [decodeHead, opcode_field, length_field, o.ofCode_bits, h, if_true]

/-- The first word of a layout names its opcode and its length. -/
theorem words_eq_cons {o : Opc} {b : Body} (h : b.ok o = true) :
    ∃ w ws, b.words o = w :: ws ∧ decodeHead w = .ok (o, b.len) := by
  have hl := Body.lenOk_of_ok h
  cases b <;> exact ⟨_, _, rfl, decodeHead_fields _ o _ hl⟩

/-- The words of a layout are read as that layout. -/
theorem bodyOfWords_words {o : Opc} {b : Body} (h : b.ok o = true) : bodyOfWords o b.len (b.words o) = some b := by
  cases b with
  | short f =>
    simp only [Body.ok, Bool.and_eq_true, decide_eq_true_eq] at h
    obtain ⟨⟨⟨-, hbra⟩, hcall⟩, -⟩ := h
    simp [bodyOfWords, Body.len, Body.words, hbra, hcall, shortOfWord_word]
  | branch g off =>
    simp only [Body.ok, Bool.and_eq_true] at h
    obtain ⟨hg, hoff⟩ := branchFields_word g off o.bits
    simp only [bodyOfWords, Body.len, Body.words, if_true, h.1, hg, hoff]
  | lit f l => simp [bodyOfWords, Body.len, Body.words, litWords, shortOfWord_word, append_litWords]
  | long f => simp [bodyOfWords, Body.len, Body.words, longReservedOk_words, longOfWords_words]
  | longLit f l =>
    simp [bodyOfWords, Body.len, Body.words, litWords, longReservedOk_words, longOfWords_words, append_litWords]

/-- What the first word of an instruction has told where its opcode and its length are legal. -/
theorem fields_of_decodeHead {w : Word} {o : Opc} {len : BitVec 2} (h : decodeHead w = .ok (o, len)) :
    o.bits = w.extractLsb' 2 8 ∧ w.extractLsb' 0 2 = len := by
  unfold decodeHead at h
  split at h
  · contradiction
  · rename_i hc
    dsimp only at h
    split at h
    · cases h
      exact ⟨Opc.bits_of_ofCode hc, rfl⟩
    · contradiction

theorem len_cases : ∀ len : BitVec 2, len = 0 ∨ len = 1 ∨ len = 2 ∨ len = 3 := by decide

/-- Every length is one of whole words, of which there is at least one. -/
theorem lenBytes_eq : ∀ len : BitVec 2, lenBytes len = 4 * (lenBytes len / 4 - 1 + 1) := by decide

/-- The words of each length field (Table 2-1). -/
theorem words_of_len {len : BitVec 2} {ws : List Word} (h : 4 * ws.length = lenBytes len) :
    (len = 0 ∧ ∃ w0, ws = [w0]) ∨ (len = 1 ∧ ∃ w0 w1 w2, ws = [w0, w1, w2]) ∨
    (len = 2 ∧ ∃ w0 w1 w2, ws = [w0, w1, w2]) ∨ (len = 3 ∧ ∃ w0 w1 w2 w3 w4, ws = [w0, w1, w2, w3, w4]) := by
  obtain rfl | rfl | rfl | rfl := len_cases len
  · exact .inl ⟨rfl, List.length_eq_one_iff.1 (by simpa [lenBytes] using h)⟩
  · exact .inr (.inl ⟨rfl, List.length_eq_three.1 (by simp [lenBytes] at h; omega)⟩)
  · exact .inr (.inr (.inl ⟨rfl, List.length_eq_three.1 (by simp [lenBytes] at h; omega)⟩))
  · obtain ⟨w0, r, rfl⟩ := List.exists_cons_of_length_eq_add_one (n := 4) (l := ws) (by simp [lenBytes] at h; omega)
    obtain ⟨w1, r, rfl⟩ := List.exists_cons_of_length_eq_add_one (n := 3) (l := r) (by simp [lenBytes] at h; omega)
    obtain ⟨w2, w3, w4, rfl⟩ := List.length_eq_three.1 (show r.length = 3 by simp [lenBytes] at h; omega)
    exact .inr (.inr (.inr ⟨rfl, w0, w1, w2, w3, w4, rfl⟩))

/-- Words that are read as a layout are the words of that layout, where they are as many as their length field says. -/
theorem words_of_bodyOfWords {w : Word} {ws : List Word} {o : Opc} {len : BitVec 2} {b : Body}
    (hd : decodeHead w = .ok (o, len)) (hn : 4 * (w :: ws).length = lenBytes len)
    (h : bodyOfWords o len (w :: ws) = some b) : b.words o = w :: ws := by
  obtain ⟨ho, hl⟩ := fields_of_decodeHead hd
  obtain ⟨rfl, w0, e⟩ | ⟨rfl, w0, w1, w2, e⟩ | ⟨rfl, w0, w1, w2, e⟩ | ⟨rfl, w0, w1, w2, w3, w4, e⟩ :=
    words_of_len hn
  all_goals
    cases e
    simp only [bodyOfWords, BitVec.reduceEq, if_true, if_false] at h
  case inl =>
    split at h <;> cases h
    · exact congrArg (· :: []) (word_branchFields ho hl)
    · exact congrArg (· :: []) (word_shortOfWord ho hl)
  case inr.inl =>
    split at h
    · rename_i hr
      cases h
      simp only [Body.words, word0_longOfWords ho hl hr, word1_longOfWords hr]
      rfl
    · contradiction
  case inr.inr.inl =>
    cases h
    simp only [Body.words, word_shortOfWord ho hl, litWords_append]
  case inr.inr.inr =>
    split at h
    · rename_i hr
      cases h
      simp only [Body.words, word0_longOfWords ho hl hr, word1_longOfWords hr, litWords_append]
      rfl
    · contradiction

/-! ### An instruction and its words -/

/-- The words of a layout that is legal for an opcode decode to its constructor. -/
theorem decodeBody_words {o : Opc} {b : Body} {i : Instr} (h : b.ok o = true) (hi : Instr.ofParts o b = some i) :
    decodeBody o b.len (b.words o) = .ok i := by
  simp only [decodeBody, bodyOfWords_words h, h, if_true, hi]

/-- What words decode to is well formed, and has those words. -/
theorem wf_encode_of_decodeBody {w : Word} {ws : List Word} {o : Opc} {len : BitVec 2} {i : Instr}
    (hd : decodeHead w = .ok (o, len)) (hn : 4 * (w :: ws).length = lenBytes len)
    (h : decodeBody o len (w :: ws) = .ok i) : i.wf = true ∧ encode i = w :: ws := by
  unfold decodeBody at h
  split at h
  · contradiction
  · rename_i b hb
    split at h
    case isFalse => contradiction
    rename_i hok
    split at h
    case h_2 => contradiction
    rename_i hi
    cases h
    simp only [Instr.wf, encode, parts_ofParts hi, hok, rowOk_ofParts hi, words_of_bodyOfWords hd hn hb, Bool.and_self, and_self]

/-! ### Words and bytes -/

theorem length_flatMap_wordBytes (ws : List Word) : (ws.flatMap wordBytes).length = 4 * ws.length := by
  induction ws with
  | nil => rfl
  | cons w ws ih => rw [List.flatMap_cons, List.length_append, length_wordBytes, ih, List.length_cons]; omega

/-- Bytes that fill whole words are those of their words. -/
theorem flatMap_toWords {k : Nat} {l : List Byte} (h : l.length = 4 * k) : (toWords l).flatMap wordBytes = l := by
  induction k generalizing l with
  | zero => rw [List.eq_nil_of_length_eq_zero h]; rfl
  | succ k ih =>
    match l, h with
    | b0 :: b1 :: b2 :: b3 :: r, h =>
      rw [toWords, List.flatMap_cons, wordBytes_bytesWord, ih (by simpa [Nat.mul_add] using h)]
      rfl

/-- An error of steps 2 and 3 of Table 2-13 is found on the first word. -/
theorem decode_of_head_error {w : Word} {e : DecodeError} (r : List Byte) (h : decodeHead w = .error e) :
    decode (wordBytes w ++ r) = .error e := by
  change decode (_ :: _ :: _ :: _ :: r) = _
  simp only [decode, bytesWord_wordBytes, h]

/-- What the decoder answers where the opcode and the length of the first word are legal. -/
theorem decode_eq_ok_iff {w : Word} {o : Opc} {len : BitVec 2} {i : Instr} {r rest : List Byte}
    (h : decodeHead w = .ok (o, len)) : decode (wordBytes w ++ r) = .ok (i, rest) ↔
      lenBytes len ≤ (wordBytes w ++ r).length ∧
      decodeBody o len (toWords ((wordBytes w ++ r).take (lenBytes len))) = .ok i ∧
      (wordBytes w ++ r).drop (lenBytes len) = rest := by
  generalize hbs : wordBytes w ++ r = bs
  have hhead : bs = w.extractLsb' 0 8 :: w.extractLsb' 8 8 :: w.extractLsb' 16 8 :: w.extractLsb' 24 8 :: r := hbs.symm
  unfold decode
  split
  · rename_i b0 b1 b2 b3 _
    obtain ⟨rfl, rfl, rfl, rfl, -⟩ : b0 = _ ∧ b1 = _ ∧ b2 = _ ∧ b3 = _ ∧ _ := by simpa using hhead
    simp only [bytesWord_wordBytes, h]
    split
    · rename_i hlt
      exact ⟨nofun, fun hle => absurd hlt (Nat.not_lt.2 hle.1)⟩
    · rename_i hge
      split
      · rename_i hb
        exact ⟨nofun, fun ⟨_, hi, _⟩ => nomatch hb.symm.trans hi⟩
      · rename_i hb
        simp only [hb, Except.ok.injEq, Prod.mk.injEq, Nat.not_lt.1 hge, true_and]
  · rename_i hno
    exact absurd hhead (hno _ _ _ _ _)

/-- Settles O1: the words of a layout are read as that layout, and the constructor of its opcode is the instruction. -/
theorem decodeOfEncodeIsTheInstruction : Obligations.DecodeOfEncodeIsTheInstruction := by
  intro i rest hp hw
  obtain ⟨⟨o, b⟩, hp⟩ := Option.isSome_iff_exists.1 hp
  obtain ⟨hok, hrow⟩ : b.ok o = true ∧ i.rowOk = true := by simpa [Instr.wf, hp] using hw
  obtain ⟨w, ws, hws, hd⟩ := words_eq_cons hok
  have hlen := length_flatMap_wordBytes (b.words o)
  rw [Body.length_words] at hlen
  have hbytes : encodeBytes i = (b.words o).flatMap wordBytes := by simp only [encodeBytes, encode, hp]
  have hsplit : encodeBytes i ++ rest = wordBytes w ++ (ws.flatMap wordBytes ++ rest) := by
    rw [hbytes, hws, List.flatMap_cons, List.append_assoc]
  rw [hsplit, decode_eq_ok_iff hd, ← hsplit, hbytes, List.take_left' hlen, List.drop_left' hlen, toWords_flatMap]
  exact ⟨by rw [List.length_append]; omega, decodeBody_words hok (i.ofParts_parts _ hp hrow), rfl⟩

/-- What the decoder answers was read from the bytes of some words. -/
theorem words_of_decode {bs rest : List Byte} {i : Instr} (h : decode bs = .ok (i, rest)) :
    ∃ o len w ws, decodeHead w = .ok (o, len) ∧ 4 * (w :: ws).length = lenBytes len ∧ decodeBody o len (w :: ws) = .ok i ∧
      bs = (w :: ws).flatMap wordBytes ++ rest := by
  obtain ⟨w, r, rfl⟩ : ∃ w r, bs = wordBytes w ++ r := by
    match bs, h with
    | b0 :: b1 :: b2 :: b3 :: r, _ => exact ⟨bytesWord b0 b1 b2 b3, r, by rw [wordBytes_bytesWord]; rfl⟩
  cases hd : decodeHead w with
  | error e => rw [decode_of_head_error r hd] at h; contradiction
  | ok p =>
    obtain ⟨o, len⟩ := p
    obtain ⟨hle, hb, hrest⟩ := (decode_eq_ok_iff hd).1 h
    obtain ⟨k, hk⟩ : ∃ k, lenBytes len = 4 * (k + 1) := ⟨_, lenBytes_eq len⟩
    have htake : ((wordBytes w ++ r).take (lenBytes len)).length = 4 * (k + 1) := by rw [List.length_take]; omega
    have hcons : toWords ((wordBytes w ++ r).take (lenBytes len)) = w :: toWords (r.take (4 * k)) := by
      rw [hk, List.take_append, length_wordBytes, show 4 * (k + 1) - 4 = 4 * k by omega,
        List.take_of_length_le (by rw [length_wordBytes]; omega)]
      exact congrArg (· :: _) (bytesWord_wordBytes w)
    have hflat := flatMap_toWords htake
    rw [hcons] at hb hflat
    refine ⟨o, len, w, _, hd, ?_, hb, ?_⟩
    · rw [← length_flatMap_wordBytes, hflat, htake, hk]
    · rw [hflat, ← hrest, List.take_append_drop]

/-- Settles O2: the decoder accepts the words of a legal layout alone. -/
theorem encodeOfDecodeIsTheBytes : Obligations.EncodeOfDecodeIsTheBytes := by
  intro bs i rest h
  obtain ⟨o, len, w, ws, hd, hn, hb, rfl⟩ := words_of_decode h
  obtain ⟨hw, he⟩ := wf_encode_of_decodeBody hd hn hb
  exact ⟨hw, by rw [encodeBytes, he]⟩

/-- Settles O3: the first word alone refuses an undefined opcode, and then a length that its opcode does not have. -/
theorem undefinedWordsAreRejected : Obligations.UndefinedWordsAreRejected := by
  refine fun w rest => ⟨fun h => decode_of_head_error rest ?_, fun o h hl => decode_of_head_error rest ?_⟩
  · simp only [decodeHead, h]
  · simp only [decodeHead, h, hl, Bool.false_eq_true, if_false]

/-- Settles O10: each of the worked words, as the decoder evaluates it. -/
theorem specWordsDecode : Obligations.SpecWordsDecode := by
  refine ⟨?_, ?_, ?_, ?_, ?_, ?_, ?_, ?_, ?_, ?_, ?_, ?_, ?_⟩
  all_goals decide

end Sys2Proof
end

