-- ==== Sys2Proof/Proofs/Uniform.lean ====
section
/-! PROOFS. The uniform form of an instruction that computes (O9): one write of w registers, and the flags of every thread. -/

namespace Sys2Proof.Machine

/-- An instruction that does not accumulate into $fstat computes no flags. -/
theorem computes_flags {i : Instr} {fn : Ins → Nat → Nat → Nat → AluOut} {x : Ins} (h : computes i = some fn)
    (hx : i.ins? = some x) (hr : raisesFlags x = false) (a b c : Nat) : (fn x a b c).flags = 0 := by
  cases i
  all_goals first
    | (cases h; done)
    | (cases hx; cases hr; done)
    | (cases h; cases hx; rfl)

/-! ### The flags of the threads of a sub-run (R161) -/

theorem kept_putFlags (s : State) (x : Ins) (t : Nat) (f : Word) (rdy : Nat) :
    Kept s (putFlags s x t f rdy) noReg noReg (fun u => u = t) noReg := by
  unfold putFlags
  split
  · exact kept_orFlags ..
  · exact Kept.refl ..

theorem fstat_putFlags_same (s : State) {x : Ins} (t : Nat) {f : Word} (rdy : Nat) (h : raisesFlags x = false → f = 0) :
    ((putFlags s x t f rdy).thread t).fstat = (s.thread t).fstat ||| f := by
  unfold putFlags
  split
  · simp [State.orFlags]
  · rename_i hr
    rw [h (Bool.eq_false_iff.2 hr)]
    simp

/-- The flags of one thread after another. -/
def putFlagsAll (x : Ins) (f : Word) (s : State) (ps : List Nat) : State :=
  ps.foldl (fun s u => putFlags s x u f (s.rdy (occupancy x))) s

theorem kept_putFlagsAll (x : Ins) (f : Word) (s : State) (ps : List Nat) :
    Kept s (putFlagsAll x f s ps) noReg noReg (fun u => u ∈ ps) noReg :=
  kept_foldl _ ps s fun s _ ha =>
    (kept_putFlags s x _ f _).mono (fun _ _ h => h) (fun _ _ h => h) (fun _ h => h ▸ ha) (fun _ _ h => h)

theorem fstat_putFlagsAll {x : Ins} {f : Word} (h : raisesFlags x = false → f = 0) (s : State) {ps : List Nat} (hn : ps.Nodup)
    {u : Nat} (hu : u ∈ ps) : ((putFlagsAll x f s ps).thread u).fstat = (s.thread u).fstat ||| f := by
  induction ps generalizing s with
  | nil => cases hu
  | cons t ps ih =>
    obtain ⟨hnot, hn⟩ := List.nodup_cons.1 hn
    rw [putFlagsAll, List.foldl_cons, ← putFlagsAll]
    by_cases e : u = t
    · subst e
      rw [(kept_putFlagsAll ..).fstat u hnot, fstat_putFlags_same s u _ h]
    · rw [ih _ hn ((List.mem_cons.1 hu).resolve_left e), (kept_putFlags ..).fstat u e]

/-! ### The uniform form -/

/-- A uniform result is written to the w registers of D. -/
theorem putDest_uniform {s : State} {x : Ins} {t v rdy : Nat} (hu : x.f.u = true) :
    (if destN x = 0 then s else putDest s x t (destN x) v false rdy) = s.setWs (t / 32) x.f.d.toNat v rdy (destN x) := by
  split
  · rename_i h
    rw [h]
    rfl
  · simp only [putDest, hu, if_true]

/-- A uniform instruction whose operands are read writes its result once, and then the flags. -/
theorem aluUniform_vals {fn : Ins → Nat → Nat → Nat → AluOut} {x : Ins} {s : State} {ps : List Nat} {v : Vals}
    (hu : x.f.u = true) (hv : gather s x (ps.headD 0) = .vals v) :
    aluUniform fn x ps s = .ok (putFlagsAll x (fn x v.a v.b v.c).flags
      (s.setWs (ps.headD 0 / 32) x.f.d.toNat (fn x v.a v.b v.c).v (s.rdy (occupancy x)) (destN x)) ps) := by
  simp only [aluUniform, hv, putDest_uniform hu, putFlagsAll]

/-- Settles O9: the uniform course is one write of w registers followed by the flags of each thread. -/
theorem uniformFormsComplete : Obligations.UniformFormsComplete := by
  intro i fn x s ps v hc hx hu hw hv
  have he : exec i s = perSubrun x (fun _ => occupancy x) noEnd (aluUniform fn x) s := by
    rw [exec_computes hc hx, alu, if_pos hu]
  have kw := kept_setWs s (ps.headD 0 / 32) x.f.d.toNat (fn x v.a v.b v.c).v (s.rdy (occupancy x)) (destN x)
  have kf := kept_putFlagsAll x (fn x v.a v.b v.c).flags
    (s.setWs (ps.headD 0 / 32) x.f.d.toNat (fn x v.a v.b v.c).v (s.rdy (occupancy x)) (destN x)) ps
  refine ⟨_, passesAll_of_ok hw he (aluUniform_vals hu hv), fun k hk => ?_, fun u hm => ?_, ?_⟩
  · rw [kf.wreg _ _ id, wreg_setWs _ _ _ _ _ _ _ hk]
  · rw [fstat_putFlagsAll (fun hr => computes_flags hc hx hr ..) _ hw.once hm, kw.fstat u id]
  · exact (kw.mono (fun _ _ h => h) (fun _ _ h => h) (fun _ h => h.elim) (fun _ _ h => h)).trans
      (kf.mono (fun _ _ h => h) (fun _ _ h => h) (fun _ h => h) (fun _ _ h => h.elim))

end Sys2Proof.Machine
end

