-- ==== Sys2Proof/Proofs/Branches.lean ====
section
/-! PROOFS. The faults of an operand that is empty and of a branch target (O15, O17). -/

namespace Sys2Proof.Machine

/-! ### An empty source register (R37, R97) -/

/-- Operands that name no queue port, one of them an empty register under FE, raise cause 13. -/
theorem gather_empty {s : State} {x : Ins} {t r : Nat} (hq : ∀ p, RegRef.q p ∉ insReads x) (hp : pushOf x = none)
    (hr : RegRef.g r true ∈ insReads x) (he : (s.greg t r).full = false) : gather s x t = .fault 13 := by
  unfold gather
  simp only [hp, Bool.or_false]
  rw [if_neg, if_pos]
  · exact List.any_eq_true.2 ⟨_, hr, by simp [he]⟩
  · intro h
    obtain ⟨p, hm, -⟩ := List.any_eq_true.1 h
    obtain ⟨a, ha, e⟩ := List.mem_filterMap.1 hm
    cases a <;> cases e
    exact hq _ ha

/-- Settles O15: the operands raise the fault before anything is written. -/
theorem emptyRegisterTraps : Obligations.EmptyRegisterTraps := by
  intro i fn x s t r hc hx hu ht hq hp hr he
  have hexec : exec i s = perThread x (occupancy x) noEnd (aluThread fn x) s := by
    rw [exec_computes hc hx, alu, if_neg (by simp [hu])]
  exact traps_of_fault ht hexec (by simp only [aluThread, gather_empty hq hp hr he])

/-! ### Branches (R24, R164) -/

/-- An offset counts 4-byte units (R24). -/
theorem relTarget_eq (pc : Dword) (off : Word) : relTarget pc off = pc + 4 * off.signExtend 64 := by
  unfold relTarget
  congr 1
  rw [BitVec.mul_comm, show (4 : Dword) = BitVec.twoPow 64 2 from rfl, BitVec.mul_twoPow_eq_shiftLeft]

theorem badTarget_eq_false_iff (a : Dword) : badTarget a = false ↔ a.extractLsb' 0 2 = 0 ∧ a.extractLsb' 56 8 = 0 := by
  simp [badTarget]

/-- The offset of the short form means the same in the long form (R28). -/
theorem signExtend_branch (o : BitVec 18) : (o.signExtend 32).signExtend 64 = o.signExtend 64 := by
  ext i hi
  grind

/-- A branch or call to an offset, in its short and its long form. -/
theorem offset_branch {i : Instr} {x : Ins} {off : Dword} {short : BitVec 4 → BitVec 18 → Instr} {long : Long → Instr}
    {o : Opc} (hs : ∀ g d, (short g d).parts = some (o, .branch g d)) (hl : ∀ f, (long f).parts = some (o, .long f))
    (h : (∃ g d, i = short g d ∧ off = d.signExtend 64) ∨ ∃ f, i = long f ∧ off = f.imm.signExtend 64)
    (hx : i.ins? = some x) : x.o = o ∧ x.f.imm.signExtend 64 = off := by
  obtain ⟨g, d, rfl, rfl⟩ | ⟨f, rfl, rfl⟩ := h
  · simp only [Instr.ins?, hs, Option.map_some, Option.some.injEq] at hx
    subst hx
    exact ⟨rfl, signExtend_branch d⟩
  · simp only [Instr.ins?, hl, Option.map_some, Option.some.injEq] at hx
    subst hx
    exact ⟨rfl, rfl⟩

/-- Settles O17: a branch of one thread jumps to its target, or raises the fault. -/
theorem branchGoesToItsTarget : Obligations.BranchGoesToItsTarget := by
  intro i x s t off hi hx ht a
  obtain ⟨ho, hoff⟩ := offset_branch (fun _ _ => rfl) (fun _ => rfl) hi hx
  have hexec : exec i s = perThread x 1 noEnd (braThread x) s := by
    rw [exec_ins hx, opMeaning, ho]
    rfl
  have htarget : relTarget (s.thread t).pc x.f.imm = a := by rw [relTarget_eq, hoff]
  split
  · rename_i hgood
    have hb : braThread x t s = .jump (s.jump t a) := by
      simp only [braThread, htarget, (badTarget_eq_false_iff a).2 hgood, Bool.false_eq_true, if_false]
    exact ⟨_, lands_of_jump ht hexec (.inl hb), kept_jump s t a, by simp [State.jump]⟩
  · rename_i hbad
    have hb : braThread x t s = .fault 10 0 a s := by
      have : badTarget a = true := by
        rw [← Bool.not_eq_false, badTarget_eq_false_iff]
        exact hbad
      simp only [braThread, htarget, this, if_true]
    exact traps_of_fault ht hexec hb

end Sys2Proof.Machine
end

