-- ==== Sys2Proof/Proofs/Seats.lean ====
section
/-! PROOFS. The operations of the model that leave the threads and the warps of a state alone, one rule each, in the order of
the model, up to the reads of a die's own and the fetch: `simp` carries `State.seats` through any of them. -/

namespace Sys2Proof.Machine

/-- The threads and the warps of a state. -/
def State.seats (s : State) : KV Thread × KV Warp := (s.threads, s.warps)

theorem seats_eq_iff {s s' : State} : s'.seats = s.seats ↔ s'.threads = s.threads ∧ s'.warps = s.warps := by
  simp [State.seats]

theorem thread_of_seats {s s' : State} (h : s'.seats = s.seats) (t : Nat) : s'.thread t = s.thread t := by
  rw [State.thread, State.thread, (seats_eq_iff.1 h).1]

theorem warp_of_seats {s s' : State} (h : s'.seats = s.seats) (w : Nat) : s'.warp w = s.warp w := by
  rw [State.warp, State.warp, (seats_eq_iff.1 h).2]

theorem greg_of_seats {s s' : State} (h : s'.seats = s.seats) (t r : Nat) : s'.greg t r = s.greg t r := by
  rw [State.greg, State.greg, thread_of_seats h]

theorem wreg_of_seats {s s' : State} (h : s'.seats = s.seats) (w r : Nat) : s'.wreg w r = s.wreg w r := by
  rw [State.wreg, State.wreg, warp_of_seats h]

/-- A change of other fields (by the components, as `memories_mk`). -/
@[simp] theorem seats_mk (s : State) (a b c d e f g h i j k l m n o p q r t u v w x y) :
    State.seats ⟨a, b, c, d, e, f, g, s.threads, s.warps, h, i, j, k, l, m, n, o, p, q, r, t, u, v, w, x, y⟩ = s.seats :=
  Prod.ext rfl rfl

@[simp] theorem seats_ite (p : Prop) [Decidable p] (s t : State) : (if p then s else t).seats = if p then s.seats else t.seats :=
  apply_ite State.seats p s t

@[simp] theorem seats_foldl {α : Type} (f : State → α → State) (l : List α) (s : State)
    (h : ∀ s a, (f s a).seats = s.seats) : (l.foldl f s).seats = s.seats := by
  induction l generalizing s with
  | nil => rfl
  | cons a l ih => exact (ih _).trans (h s a)

/-! ### Machine/Base -/

@[simp] theorem seats_modLane (s : State) (k : Nat) (f : Lane → Lane) : (s.modLane k f).seats = s.seats := by
  simp [State.modLane]

@[simp] theorem seats_modCore (s : State) (k : Nat) (f : Core → Core) : (s.modCore k f).seats = s.seats := by
  simp [State.modCore]

@[simp] theorem seats_modDie (s : State) (k : Nat) (f : Die → Die) : (s.modDie k f).seats = s.seats := by simp [State.modDie]

@[simp] theorem seats_modDir (s : State) (k : Nat) (f : Dir → Dir) : (s.modDir k f).seats = s.seats := by simp [State.modDir]

@[simp] theorem seats_modLink (s : State) (k : Nat) (f : Link → Link) : (s.modLink k f).seats = s.seats := by
  simp [State.modLink]

@[simp] theorem seats_modPkg (s : State) (k : Nat) (f : Pkg → Pkg) : (s.modPkg k f).seats = s.seats := by simp [State.modPkg]

@[simp] theorem seats_modLaunch (s : State) (k : Nat) (f : Launch → Launch) : (s.modLaunch k f).seats = s.seats := by
  simp [State.modLaunch]

@[simp] theorem seats_modReq (s : State) (k : Nat) (f : Req → Req) : (s.modReq k f).seats = s.seats := by simp [State.modReq]

@[simp] theorem seats_fresh (s : State)  : (s.fresh.2).seats = s.seats := by simp [State.fresh]

@[simp] theorem seats_chooseBelow (s : State) (n : Nat) : ((s.chooseBelow n).2).seats = s.seats := by
  simp [State.chooseBelow, State.choose]

@[simp] theorem seats_post (s : State) (d : Nat) (e : Ev) : (s.post d e).seats = s.seats := by simp [State.post]

@[simp] theorem seats_raise (s : State) (d : Nat) (r : EvRec) : (s.raise d r).seats = s.seats := by simp [State.raise]

/-! ### Machine/Ops -/

@[simp] theorem seats_freeBarrier (s : State) (c i : Nat) : (freeBarrier s c i).seats = s.seats := by simp [freeBarrier]

@[simp] theorem seats_dropBuf (s : State) (d b : Nat) : (dropBuf s d b).seats = s.seats := by simp [dropBuf]

@[simp] theorem seats_dropOps (s : State) (asid : Nat) : (dropOps s asid).seats = s.seats := by simp [dropOps]

@[simp] theorem seats_endContext (s : State) (asid : Nat) (record : Option (Nat × EvRec)) :
    (endContext s asid record).seats = s.seats := by
  fun_cases endContext s asid record
  · rfl
  · cases record <;> simp +zetaDelta

/-! ### Machine/Network -/

@[simp] theorem seats_pumpDir (s : State) (dir : Nat) : (pumpDir s dir).seats = s.seats := by simp [pumpDir]

@[simp] theorem seats_pumpLink (s : State) (l : Nat) : (pumpLink s l).seats = s.seats := by simp [pumpLink]

@[simp] theorem seats_forward (s : State) (id : Nat) (passing : Bool) : (forward s id passing).seats = s.seats := by
  fun_cases forward s id passing <;> simp +zetaDelta

@[simp] theorem seats_send (s : State) (src dst vc base : Nat) (own : Bool) (e : Ev) :
    (send s src dst vc base own e).seats = s.seats := by
  simp [send]

@[simp] theorem seats_sendReq (s : State) (src dst : Nat) (e : Ev) : (sendReq s src dst e).seats = s.seats := by simp [sendReq]

/-! ### Machine/Run, Machine/Ecc, Machine/Engine -/

@[simp] theorem seats_pmcAdd (s : State) (c sel n : Nat) : (pmcAdd s c sel n).seats = s.seats := by simp [pmcAdd]

@[simp] theorem seats_countCorrected (s : State) (line : Nat) : (countCorrected s line).seats = s.seats := by
  simp [countCorrected]

@[simp] theorem seats_countUe (s : State) (line : Nat) : (countUe s line).seats = s.seats := by simp [countUe]

@[simp] theorem seats_countBad (s : State) (line : Nat) : (countBad s line).seats = s.seats := by simp [countBad]

@[simp] theorem seats_applyResidue (s : State) (line : Nat) (es : List (Nat × Byte)) :
    (applyResidue s line es).seats = s.seats := by
  simp [applyResidue]

@[simp] theorem seats_takeFix (s : State) (line : Nat) (es fix : List (Nat × Byte)) :
    (takeFix s line es fix).seats = s.seats := by
  simp [takeFix]

@[simp] theorem seats_modSaved (s : State) (k : Nat) (f : Saved → Saved) : (modSaved s k f).seats = s.seats := by
  simp [modSaved]

@[simp] theorem seats_remFail (s : State) (core : Nat) (epoch : BitVec 16) (slot bit cause home : Nat) (va : Dword) :
    (remFail s core epoch slot bit cause home va).seats = s.seats := by
  fun_cases remFail s core epoch slot bit cause home va <;> simp +zetaDelta

/-! ### Machine/Perform -/

@[simp] theorem seats_l1Drop (s : State) (core pa : Nat) : (l1Drop s core pa).seats = s.seats := by simp [l1Drop]

@[simp] theorem seats_rdcDrop (s : State) (line : Nat) : (rdcDrop s line).seats = s.seats := by simp [rdcDrop]

@[simp] theorem seats_rdcDecode (s : State) (line : Nat) : (rdcDecode s line).seats = s.seats := by
  fun_cases rdcDecode s line <;> simp

@[simp] theorem seats_rdcGet (s : State) (d pa : Nat) : ((rdcGet s d pa).1).seats = s.seats := by simp [rdcGet]

@[simp] theorem seats_toAgent (s : State) (id : Nat) : (toAgent s id).seats = s.seats := by simp [toAgent]

@[simp] theorem seats_takeNow (s : State) (id v n : Nat) : (takeNow s id v n).seats = s.seats := by simp [takeNow]

@[simp] theorem seats_launchReq (s : State) (id : Nat) : (launchReq s id).seats = s.seats := by
  fun_cases launchReq s id
  case case8 e _ e' => simp +zetaDelta [snd_eq e', fst_eq e]
  case case9 e _ _ e' _ => simp +zetaDelta [snd_eq e', fst_eq e]
  case case10 e => simp +zetaDelta [fst_eq e]
  all_goals simp +zetaDelta

@[simp] theorem seats_readFor (s : State) (t d cls pa : Nat) : (readFor s t d cls pa).seats = s.seats := by simp [readFor]

@[simp] theorem seats_postRead (s : State) (d cls pa : Nat) : (postRead s d cls pa).seats = s.seats := by simp [postRead]

@[simp] theorem seats_postReads (s : State) (d cls pa n : Nat) : (postReads s d cls pa n).seats = s.seats := by simp [postReads]

/-! ### Machine/Fetch -/

@[simp] theorem seats_fetchLine (s : State) (core va : Nat) : ((fetchLine s core va).2).seats = s.seats := by
  fun_cases fetchLine s core va <;> simp +zetaDelta

@[simp] theorem seats_fetchWord (s : State) (core : Nat) (va : Dword) : ((fetchWord s core va).2).seats = s.seats := by
  fun_cases fetchWord s core va
  case case1 e => simp [snd_eq e]
  case case2 e => simp [snd_eq e]

@[simp] theorem seats_fetchWords (s : State) (core : Nat) (va : Dword) (n : Nat) :
    ((fetchWords s core va n).2).seats = s.seats := by
  fun_induction fetchWords s core va n
  case case1 => rfl
  case case2 e => simp [snd_eq e]
  case case3 e1 _ _ e2 ih => rw [e2] at ih; simpa [snd_eq e1] using ih
  case case4 e1 _ _ e2 ih => rw [e2] at ih; simpa [snd_eq e1] using ih

@[simp] theorem seats_fetchInstr (s : State) (core : Nat) (pc : Dword) (sv : Bool) :
    ((fetchInstr s core pc sv).2).seats = s.seats := by
  unfold fetchInstr
  split
  · rename_i e
    simp [snd_eq e]
  · rename_i s1 e
    have h1 : s1.seats = s.seats := by simp [snd_eq e]
    split
    · exact h1
    · split
      · exact h1
      · split
        · rename_i e
          simp [snd_eq e, h1]
        · rename_i s2 e
          have h2 : s2.seats = s.seats := by simp [snd_eq e, h1]
          split
          · exact h2
          · simp [h2]

/-! ### Machine/Control -/

@[simp] theorem seats_ownRead (s : State) (t : Nat) (p : Place) (va : Dword) (n : Nat) :
    ((ownRead s t p va n).1).seats = s.seats := by
  fun_cases ownRead s t p va n <;> simp

end Sys2Proof.Machine
end

