-- ==== Sys2Proof/Proofs/Calls.lean ====
section
/-! PROOFS. Calls and returns use the stack in memory (O18), and indexed branches the list in memory (O19): the read of a
place that is taken at once, the outcomes of a call and a return, the read of a word of a list. -/

namespace Sys2Proof.Machine

/-! ### A read taken at once -/

theorem memories_launchReq {s : State} {id : Nat} (h : (s.req id).cls ≠ 1) : (launchReq s id).memories = s.memories := by
  fun_cases launchReq s id
  all_goals first
    | contradiction
    | simp +zetaDelta

theorem memories_readFor (s : State) (t d : Nat) {cls : Nat} (pa : Nat) (h : cls ≠ 1) :
    (readFor s t d cls pa).memories = s.memories := by
  unfold readFor
  split
  · rfl
  · dsimp only
    rw [memories_launchReq (by simpa [State.req] using h)]
    simp

/-- A read at once of a page outside the remote-data cache leaves the memories alone. -/
theorem memories_ownRead (s : State) (t : Nat) {p : Place} (va : Dword) (n : Nat) (h : p.cls ≠ 1) :
    (ownRead s t p va n).1.memories = s.memories := by
  fun_cases ownRead s t p va n
  · simp
  · simp [memories_readFor _ _ _ _ h]

/-- A read at once gives the bytes of its place, where the home can be reached. -/
theorem ownRead_value {s : State} {t : Nat} {p : Place} (va : Dword) (n : Nat)
    (h : placeDie p.cls p.pa = dieOfCore (coreOfThread t) ∨
      unreach s (dieOfCore (coreOfThread t)) (placeDie p.cls p.pa) = none) :
    (ownRead s t p va n).2 = bytesNat (bytesAt s p.cls p.pa n) := by
  have hreach : (if placeDie p.cls p.pa = dieOfCore (coreOfThread t) then none
      else unreach s (dieOfCore (coreOfThread t)) (placeDie p.cls p.pa)) = none := by
    obtain h | h := h <;> simp [h]
  simp only [ownRead, hreach]

/-! ### Where a thread lands -/

/-- A thread whose body waits to try again is held. -/
theorem lands_of_stay {i : Instr} {s s1 : State} {x : Ins} {t cost : Nat} {body : Nat → State → TOut} {o : Hold}
    (h : Turn s x t) (e : exec i s = perThread x cost noEnd body s) (hb : body t s = .stay o s1) : Lands i t s (s1.hold t o) := by
  obtain ⟨-, r, rest, -, -, -, hn, -, -, -, -, -, stay⟩ := perThread_turn h cost noEnd body
  exact ⟨_, e.trans (stay o s1 hb), kept_goOn .., by rw [thread_goOn _ _ _ _ _ hn], by rw [thread_goOn _ _ _ _ _ hn]⟩

/-- The state in which a thread has jumped to a target and waits for its accesses. -/
theorem settle_jump (s : State) (t from_ clks : Nat) (target : Dword) :
    let s' := settle (s.jump t target) t from_ clks
    (s'.thread t).pc = target ∧ s'.reqs = s.reqs ∧ s'.mem = s.mem ∧ ∀ u r, s'.greg u r = s.greg u r := by
  refine ⟨by simp [settle, State.hold, State.jump], rfl, rfl, fun u r => ?_⟩
  unfold settle
  rw [(kept_hold ..).greg u r id, (kept_jump ..).greg u r id]

/-! ### The outcomes of a call and of a return (R165, R166) -/

section
variable {x : Ins} {t d : Nat} {s s1 : State} {p : Place} (hc : stackCheck s t = (.ok p, 0)) (hb : stackBusy s t p = false)
  (ho : ownRead s t p (stackArea s t) 8 = (s1, d))
include hc hb ho

theorem pushCall_full {target : Dword} (hd : 127 ≤ d) : pushCall x t target s = .fault 11 0 (stackArea s t) s1 := by
  simp only [pushCall, hc, hb, ho, hd, Bool.false_eq_true, if_false, if_true]

theorem pushCall_badLine {target : Dword} {c : Nat} (hd : d < 127) (hl : lineFault s1 p.cls (p.pa + (8 + 8 * d)) = some c) :
    pushCall x t target s = .fault c 3 (stackArea s t + BitVec.ofNat 64 (8 + 8 * d))
      (noteLine s1 c { p with pa := p.pa + (8 + 8 * d) }) := by
  simp only [pushCall, hc, hb, ho, Nat.not_le.2 hd, stackEntry, hl, Bool.false_eq_true, if_false]

theorem pushCall_push {target : Dword} {s2 s3 : State} (hd : d < 127) (hl : lineFault s1 p.cls (p.pa + (8 + 8 * d)) = none)
    (h2 : stackStore s1 t p (stackArea s t) (8 + 8 * d) ((s.thread t).pc + BitVec.ofNat 64 x.size).toNat = some s2)
    (h3 : stackStore s2 t p (stackArea s t) 0 (d + 1) = some s3) :
    pushCall x t target s = .jump (settle (s3.jump t target) t s.nextId (placeClk s (coreOfThread t) p)) := by
  simp only [pushCall, hc, hb, ho, Nat.not_le.2 hd, stackEntry, hl, h2, h3, Option.bind_some, Bool.false_eq_true, if_false]

theorem retThread_broken (hd : d = 0 ∨ 127 < d) : retThread x t s = .fault 11 0 (stackArea s t) s1 := by
  simp only [retThread, hc, hb, ho, hd, Bool.false_eq_true, if_false, if_true]

theorem retThread_badLine {c : Nat} (h0 : 0 < d) (hd : d ≤ 127) (hl : lineFault s1 p.cls (p.pa + 8 * d) = some c) :
    retThread x t s = .fault c 3 (stackArea s t + BitVec.ofNat 64 (8 * d)) (noteLine s1 c { p with pa := p.pa + 8 * d }) := by
  simp only [retThread, hc, hb, ho, show ¬(d = 0 ∨ 127 < d) by omega, stackEntry, hl, Bool.false_eq_true, if_false]

variable {s2 : State} {e : Nat} (h0 : 0 < d) (hd : d ≤ 127) (hl : lineFault s1 p.cls (p.pa + 8 * d) = none)
  (he : ownRead s1 t { p with pa := p.pa + 8 * d } (stackArea s t + BitVec.ofNat 64 (8 * d)) 8 = (s2, e))
include h0 hd hl he

theorem retThread_badTarget (ht : badTarget (BitVec.ofNat 64 e) = true) :
    retThread x t s = .fault 10 0 (BitVec.ofNat 64 e) s2 := by
  simp only [retThread, hc, hb, ho, show ¬(d = 0 ∨ 127 < d) by omega, stackEntry, hl, he, ht, Bool.false_eq_true, if_false,
    if_true]

theorem retThread_pop {s3 : State} (ht : badTarget (BitVec.ofNat 64 e) = false)
    (h3 : stackStore s2 t p (stackArea s t) 0 (d - 1) = some s3) :
    retThread x t s = .jump (settle (s3.jump t (BitVec.ofNat 64 e)) t s.nextId (2 * placeClk s (coreOfThread t) p)) := by
  simp only [retThread, hc, hb, ho, show ¬(d = 0 ∨ 127 < d) by omega, stackEntry, hl, he, ht, h3, Bool.false_eq_true, if_false]

end

/-- Settles O18: the read of the depth, then the outcomes of a call and of a return one by one. -/
theorem callAndReturnUseTheStack : Obligations.CallAndReturnUseTheStack := by
  refine ⟨fun s t p va n => ⟨?_, fun h => ?_, ownRead_value va n⟩, ?_, ?_⟩
  · exact greg_of_seats (seats_ownRead ..)
  · obtain ⟨hm, hc, -⟩ := by simpa [State.memories] using memories_ownRead s t va n h
    exact ⟨hm, hc⟩
  · intro i x s t off p hi hx ht target a o d q
    obtain ⟨hop, hoff⟩ := offset_branch (fun _ _ => rfl) (fun _ => rfl) hi hx
    have hexec : exec i s = perThread x 1 noEnd (callThread x) s := by
      rw [exec_ins hx, opMeaning, hop]
      rfl
    have htarget : relTarget (s.thread t).pc x.f.imm = target := by rw [relTarget_eq, hoff]
    refine ⟨fun hbad => traps_of_fault ht hexec (by simp only [callThread, htarget, hbad, if_true]), fun hgood hc hb => ?_⟩
    have hcall : callThread x t s = pushCall x t target s := by
      simp only [callThread, htarget, hgood, Bool.false_eq_true, if_false]
    refine ⟨fun hd => ?_, fun hd => ⟨fun c hl => ?_, fun s1 s2 hl h1 h2 => ?_⟩⟩
    · exact trapsOn_of_fault ht hexec (hcall.trans (pushCall_full hc hb rfl hd))
    · exact trapsOn_of_fault ht hexec (hcall.trans (pushCall_badLine hc hb rfl hd hl))
    · obtain ⟨hpc, hreqs, hmem, hg⟩ := settle_jump s2 t s.nextId (placeClk s (coreOfThread t) p) target
      exact ⟨_, lands_of_jump ht hexec (.inl (hcall.trans (pushCall_push hc hb rfl hd hl h1 h2))), hpc, hreqs, hmem, hg⟩
  · intro f s t p x a o d q e target ht hc hb
    have hexec : exec (.ret f) s = perThread x 1 noEnd (retThread x) s := rfl
    refine ⟨fun hd => trapsOn_of_fault ht hexec (retThread_broken hc hb rfl hd),
      fun h0 hd => ⟨fun c hl => ?_, fun hl => ?_⟩⟩
    · exact trapsOn_of_fault ht hexec (retThread_badLine hc hb rfl h0 hd hl)
    · refine ⟨fun hbad => trapsOn_of_fault ht hexec (retThread_badTarget hc hb rfl h0 hd hl rfl hbad), fun s1 hgood h1 => ?_⟩
      obtain ⟨hpc, hreqs, hmem, hg⟩ := settle_jump s1 t s.nextId (2 * placeClk s (coreOfThread t) p) target
      exact ⟨_, lands_of_jump ht hexec (.inl (retThread_pop hc hb rfl h0 hd hl rfl hgood h1)), hpc, hreqs, hmem, hg⟩

/-! ### A target of a list (R167) -/

section
variable {x : Ins} {t : Nat} {s : State} {a : Dword} {p : Place} (hp : checkAccess s .ld (coreOfThread t) a 4 = .ok p)
include hp

theorem listWord_busy {go : Place → State → Nat → TOut}
    (he : (earlier s { thread := t, cls := p.cls, pa := p.pa, size := 4 }).isEmpty = false) :
    listWord s t a go = .stay (.own p.cls p.pa 4) s := by
  simp only [listWord, accessChecks, hp, he, Bool.false_eq_true, if_false]

theorem listWord_ready {go : Place → State → Nat → TOut}
    (he : (earlier s { thread := t, cls := p.cls, pa := p.pa, size := 4 }).isEmpty = true) :
    listWord s t a go = go p (ownRead s t p a 4).1 (ownRead s t p a 4).2 := by
  simp only [listWord, accessChecks, hp, he, if_true]

end

section
variable {x : Ins} {t i : Nat} {s : State} {p : Place} {go : Dword → Place → State → TOut}
  (hp : checkAccess s .ld (coreOfThread t) (relTarget (s.thread t).pc x.f.imm) 4 = .ok p)
  (he : (earlier s { thread := t, cls := p.cls, pa := p.pa, size := 4 }).isEmpty = true)
  {s1 : State} {n : Nat} (hn : ownRead s t p (relTarget (s.thread t).pc x.f.imm) 4 = (s1, n))
include hp he hn

/-- A length or an index out of bounds. -/
theorem listTarget_badIndex (h : n = 0 ∨ 4096 < n ∨ n ≤ i) :
    listTarget x t (some i) s go = .fault 10 0 (relTarget (s.thread t).pc x.f.imm) s1 := by
  simp only [listTarget, listWord_ready hp he, hn, Option.any_some, decide_eq_true_eq, h, if_true]

/-- The entry of an index within bounds is looked at as a target. -/
theorem listTarget_entry {q : Place} {s2 : State} {e : Nat} (h : ¬(n = 0 ∨ 4096 < n ∨ n ≤ i))
    (hq : checkAccess s1 .ld (coreOfThread t) (relTarget (s.thread t).pc x.f.imm + BitVec.ofNat 64 (4 + 4 * i)) 4 = .ok q)
    (hf : (earlier s1 { thread := t, cls := q.cls, pa := q.pa, size := 4 }).isEmpty = true)
    (hr : ownRead s1 t q (relTarget (s.thread t).pc x.f.imm + BitVec.ofNat 64 (4 + 4 * i)) 4 = (s2, e)) :
    listTarget x t (some i) s go =
      if badTarget (relTarget (s.thread t).pc (BitVec.ofNat 32 e)) then
        .fault 10 0 (relTarget (s.thread t).pc (BitVec.ofNat 32 e)) s2
      else go (relTarget (s.thread t).pc (BitVec.ofNat 32 e)) q s2 := by
  simp only [listTarget, listWord_ready hp he, hn, Option.any_some, decide_eq_true_eq, h, if_false, listWord_ready hq hf, hr]

end

/-- What BRX and CALLX do at the target that their list gives. -/
def brxGo (isCall : Bool) (x : Ins) (t : Nat) (s : State) (target : Dword) (p : Place) (s' : State) : TOut :=
  if isCall then pushCall x t target s'
  else .jump (settle (s'.jump t target) t s.nextId (2 * placeClk s (coreOfThread t) p))

section
variable {isCall : Bool} {x : Ins} {t : Nat} {s : State} {v : Vals} (hv : gather s x t = .vals v)
include hv

/-- The outcome of an indexed branch that does not perform is that of its list. -/
theorem brxThread_of_not_jump {r : TOut} (h : listTarget x t (some v.a) s (brxGo isCall x t s) = r)
    (hr : ∀ s', r ≠ .jump s') : brxThread isCall x t s = r := by
  unfold brxThread
  simp only [hv]
  split
  · rename_i e
    exact absurd (h.symm.trans e) (hr _)
  · exact h

/-- An indexed branch that performs takes its operand from the port, if it names one. -/
theorem brxThread_of_jump {s' : State} (h : listTarget x t (some v.a) s (brxGo isCall x t s) = .jump s') :
    brxThread isCall x t s = .jump (if v.popped then popPort s' (t / 32) (x.f.a.toNat - 240) else s') := by
  unfold brxThread
  simp only [hv]
  split
  · rename_i e
    cases h.symm.trans e
    rfl
  · rename_i hno
    exact absurd h (hno _)

end

theorem popPort_frame (s : State) (w k : Nat) :
    (popPort s w k).threads = s.threads ∧ (popPort s w k).reqs = s.reqs ∧ (popPort s w k).mem = s.mem := by
  unfold popPort setPort
  split <;> exact ⟨rfl, rfl, rfl⟩

theorem stackEntry_jump {s s' : State} {p : Place} {a : Dword} {off : Nat} {go : Place → TOut}
    (h : stackEntry s p a off go = .jump s') : ∃ q, go q = .jump s' := by
  unfold stackEntry at h
  dsimp only at h
  split at h
  · cases h
  · exact ⟨_, h⟩

/-- A call that performs goes to its target. -/
theorem pushCall_pc {x : Ins} {t : Nat} {target : Dword} {s s' : State} (h : pushCall x t target s = .jump s') :
    (s'.thread t).pc = target := by
  unfold pushCall at h
  dsimp only at h
  split at h
  · cases h
  · cases h
  · split at h
    · cases h
    · split at h
      · cases h
      · obtain ⟨q, h⟩ := stackEntry_jump h
        split at h
        · cases h
        · cases h
          exact (settle_jump ..).1

/-- The state after an indexed branch of one thread, whose pop changes only its port. -/
theorem indexed_lands {isCall : Bool} {x : Ins} {t : Nat} {s s' : State} {v : Vals} {i : Instr} {target : Dword} (ht : Turn s x t)
    (hexec : exec i s = perThread x 1 noEnd (brxThread isCall x) s) (hv : gather s x t = .vals v)
    (h : listTarget x t (some v.a) s (brxGo isCall x t s) = .jump s') (hpc : (s'.thread t).pc = target) :
    ∃ s1, Lands i t s s1 ∧ (s1.thread t).pc = target ∧ (v.popped = false → s1 = s') ∧ s1.reqs = s'.reqs ∧
      s1.mem = s'.mem ∧ ∀ u r, s1.greg u r = s'.greg u r := by
  refine ⟨_, lands_of_jump ht hexec (.inl (brxThread_of_jump hv h)), ?_⟩
  split
  · rename_i hpop
    obtain ⟨hth, hreqs, hmem⟩ := popPort_frame s' (t / 32) (x.f.a.toNat - 240)
    have hthread (u : Nat) : (popPort s' (t / 32) (x.f.a.toNat - 240)).thread u = s'.thread u := by
      rw [State.thread, State.thread, hth]
    exact ⟨(congrArg Thread.pc (hthread t)).trans hpc, fun h => absurd (h.symm.trans hpop) nofun, hreqs, hmem, fun u r => by
      rw [State.greg, State.greg, hthread]⟩
  · exact ⟨hpc, fun _ => rfl, rfl, rfl, fun _ _ => rfl⟩

/-- Settles O19: the two words of the list, then the transfer. -/
theorem indexedBranchTakesTheListEntry : Obligations.IndexedBranchTakesTheListEntry := by
  intro f o i s t v p q hi x c list word l n e target ht hv hp
  obtain ⟨isCall, hexec, hbrx, hcallx⟩ : ∃ isCall, exec i s = perThread x 1 noEnd (brxThread isCall x) s ∧
      (o = .brx → isCall = false) ∧ (o = .callx → isCall = true) := by
    obtain ⟨rfl, rfl⟩ | ⟨rfl, rfl⟩ := hi
    · exact ⟨false, rfl, fun _ => rfl, nofun⟩
    · exact ⟨true, rfl, nofun, fun _ => rfl⟩
  have hlist : relTarget (s.thread t).pc x.f.imm = list := relTarget_eq ..
  have htarget : relTarget (s.thread t).pc (BitVec.ofNat 32 e.2) = target := relTarget_eq ..
  rw [← hlist] at hp
  refine ⟨fun he => ?_, fun he => ⟨fun hn => ?_, fun h0 hn ha hq hf => ?_⟩⟩
  · refine lands_of_stay ht hexec (brxThread_of_not_jump hv ?_ nofun)
    unfold listTarget
    exact listWord_busy hp he
  · have hfault := listTarget_badIndex (go := brxGo isCall x t s) hp he (s1 := l.1) (n := n) (by rw [hlist]) hn
    rw [hlist] at hfault
    exact trapsOn_of_fault ht hexec (brxThread_of_not_jump hv hfault nofun)
  · have hentry := listTarget_entry (i := v.a) (go := brxGo isCall x t s) hp he (s1 := l.1) (n := n) (by rw [hlist]) (by omega)
      (by rw [hlist]; exact hq) hf (by rw [hlist])
    rw [htarget] at hentry
    refine ⟨fun hbad => ?_, fun hgood ho => ?_, fun s1 hgood ho hpush => ?_⟩
    · rw [if_pos hbad] at hentry
      exact trapsOn_of_fault ht hexec (brxThread_of_not_jump hv hentry nofun)
    · obtain rfl := hbrx ho
      rw [if_neg (by simp [hgood])] at hentry
      obtain ⟨hpc, hreqs, hmem, hg⟩ := settle_jump e.1 t s.nextId (2 * placeClk s c q) target
      obtain ⟨s1, hl, hpc, -, hreqs', hmem', hg'⟩ := indexed_lands ht hexec hv hentry hpc
      refine ⟨s1, hl, hpc, hmem'.trans hmem, hreqs'.trans hreqs, fun u r => ?_⟩
      rw [hg', hg, greg_of_seats (seats_ownRead ..), greg_of_seats (seats_ownRead ..)]
    · obtain rfl := hcallx ho
      rw [if_neg (by simp [hgood])] at hentry
      exact indexed_lands ht hexec hv (hentry.trans hpush) (pushCall_pc hpush)

end Sys2Proof.Machine
end

