-- ==== Sys2Proof/Proofs/Regions.lean ====
section
/-! PROOFS. NOP, YIELD, SLEEP, IDEM and PPT (O23). -/

namespace Sys2Proof.Machine

theorem mem_agenda_posted (s : State) (d : Nat) (e : Ev) : (s.clk + d, e) ∈ (s.post d e).agenda := mem_agendaInsert ..

/-! ### A thread that waits (R415) -/

/-- The wait of SLEEP changes its thread alone, and puts its end on the agenda. -/
theorem sleeping (s : State) (t n : Nat) :
    let s1 := (s.hold t (.sleep (s.clk + n))).post n (.sleepExpiry t)
    (s1.thread t).hold = .sleep (s.clk + n) ∧ (s1.thread t).pc = (s.thread t).pc ∧ (s.clk + n, .sleepExpiry t) ∈ s1.agenda ∧
      Same s { s1 with agenda := s.agenda } := by
  refine ⟨?_, ?_, mem_agenda_posted (s.hold t _) n _, kept_hold s t (.sleep (s.clk + n))⟩
  · show ((s.hold t _).thread t).hold = _
    simp [State.hold]
  · show ((s.hold t _).thread t).pc = _
    simp [State.hold]

/-! ### The region entry of a cohort (R394) -/

/-- IDEM of the first thread of a run sets the region entry. -/
def setRegion (s : State) (c : Nat) (e : Option Dword) : State :=
  s.modCore c fun k => { k with cohort := k.cohort.map fun h => { h with regionEntry := e } }

theorem setRegion_cohort (s : State) (c : Nat) (e : Option Dword) :
    ((setRegion s c e).core c).cohort = (s.core c).cohort.map fun h => { h with regionEntry := e } := by
  rw [setRegion, State.core_modCore_same]

/-- IDEM of one thread. -/
theorem exec_idem {f : Long} {i : Instr} {e : Dword → Option Dword} (s : State)
    (hi : i = .idemOpen f ∧ f.m.getLsbD 0 = false ∧ (e = fun pc => some (pc + 4 * f.imm.signExtend 64)) ∨
      i = .idemClose f ∧ f.m.getLsbD 0 = true ∧ e = fun _ => none) :
    exec i s = perThread (Ins.ofBody .idem (.long f)) 1 noEnd
      (fun t s => .ok (if firstOfRun s then setRegion s (coreOfThread t) (e (s.thread t).pc) else s)) s := by
  have hidem : exec i s = idem (Ins.ofBody .idem (.long f)) s := by obtain ⟨rfl, -⟩ | ⟨rfl, -⟩ := hi <;> rfl
  rw [hidem, idem]
  congr 1
  funext t s
  cases firstOfRun s with
  | false => rfl
  | true =>
    obtain ⟨-, hm, rfl⟩ | ⟨-, hm, rfl⟩ := hi
    all_goals
      have hmb : (Ins.ofBody .idem (.long f)).mb 0 = _ := hm
      simp only [Bool.not_true, Bool.false_eq_true, if_false, if_true, hmb, setRegion, relTarget_eq] <;> rfl

/-! ### Pre-emption (R396) -/

theorem maskSlots_slotBit : ∀ k < 32, maskSlots (slotBit k) = [k] := by decide

/-- What PPT adds at the end of its run, for a warp. -/
def pptEnd (x : Ins) : EndFn := fun s w done _ =>
  let c := coreOfWarp w
  let slot := (maskSlots done).headD 0
  if (s.core c).preempt.isNone ∨ (s.warp w).handler.isSome ∨ (s.cohort c).ctx.handler = 0 then s
  else (s.modCore c fun k => { k with preempt := none }).post 1 (.trapEntry w
    { cause := 35, slot := slot, acc := 0, arg := 0, xpc := (s.thread (threadOf w slot)).pc - BitVec.ofNat 64 x.size, xaddr := 0, done := done })

theorem exec_ppt (f : Long) (s : State) : exec (.ppt f) s =
    perThread (Ins.ofBody .ppt (.long f)) 1 (pptEnd (Ins.ofBody .ppt (.long f))) (fun _ s => .ok s) s := rfl

/-- What PPT asks of a core and of a warp is as it was before its thread advanced. -/
theorem preempt_of_same {s s1 : State} (h : Same s s1) (w : Nat) :
    (s1.core (coreOfWarp w)).preempt = (s.core (coreOfWarp w)).preempt ∧ (s1.warp w).handler = (s.warp w).handler ∧
      (s1.cohort (coreOfWarp w)).ctx.handler = (s.cohort (coreOfWarp w)).ctx.handler := by
  have hw := congrArg Warp.handler (h.warp w)
  have hp := congrArg Core.preempt (h.core (coreOfWarp w))
  have hc := congrArg Core.cohort (h.core (coreOfWarp w))
  exact ⟨hp, hw, congrArg (fun k : Option Cohort => (k.getD {}).ctx.handler) hc⟩

/-- A pre-emption that is not pending, or not for this warp, leaves PPT without effect. -/
theorem ppt_passes {f : Long} {s : State} {t : Nat} (ht : Alone s (Ins.ofBody .ppt (.long f)) t)
    (h : (s.core (coreOfThread t)).preempt = none ∨ s.inHandler t = true ∨ (s.cohort (coreOfThread t)).ctx.handler = 0) :
    Passes (.ppt f) (Ins.ofBody .ppt (.long f)) t s s := by
  obtain ⟨r, -, -, -, -, -, ok, -⟩ := perThread_alone ht 1 (pptEnd (Ins.ofBody .ppt (.long f))) fun _ s => .ok s
  have hsame : Same s (afterAlone (s.advance t 12) r t) := (kept_advance ..).trans (kept_afterAlone ..)
  obtain ⟨hp, hw, hc⟩ := preempt_of_same hsame (t / 32)
  have hend : pptEnd (Ins.ofBody .ppt (.long f)) (afterAlone (s.advance t 12) r t) (t / 32) (slotBit (t % 32)) (s.clk + 1) =
      afterAlone (s.advance t 12) r t := by
    refine if_pos ?_
    rw [hp, hw, hc, Option.isNone_iff_eq_none]
    exact h
  have hrun := (exec_ppt f s).trans (ok s rfl)
  rw [show (Ins.ofBody .ppt (.long f)).size = 12 from rfl, hend] at hrun
  have hthread : (closeRun (afterAlone (s.advance t 12) r t) (r.after t) (s.clk + 1)).thread t = (s.advance t 12).thread t :=
    thread_afterAlone ..
  refine ⟨_, hrun, hsame.trans (kept_closeRun ..), ?_, ?_⟩
  · rw [hthread]
    exact thread_advance_pc ..
  · rw [hthread]
    exact thread_advance_hold ..

/-- A pre-emption that is pending makes the warp of PPT trap in the next clk, past the instruction. -/
theorem ppt_traps {f : Long} {s : State} {t : Nat} (ht : Alone s (Ins.ofBody .ppt (.long f)) t)
    (hpre : (s.core (coreOfThread t)).preempt.isSome = true) (hin : s.inHandler t = false)
    (hh : (s.cohort (coreOfThread t)).ctx.handler ≠ 0) : Runs (.ppt f) s fun s' =>
      (s'.core (coreOfThread t)).preempt = none ∧ (s'.thread t).pc = (s.thread t).pc + 12 ∧
      (s.clk + 1, .trapEntry (t / 32) ⟨35, t % 32, 0, 0, (s.thread t).pc, 0, slotBit (t % 32)⟩) ∈ s'.agenda ∧
      ∀ u r, s'.greg u r = s.greg u r := by
  obtain ⟨r, -, -, -, -, -, ok, -⟩ := perThread_alone ht 1 (pptEnd (Ins.ofBody .ppt (.long f))) fun _ s => .ok s
  have hsame : Same s (afterAlone (s.advance t 12) r t) := (kept_advance ..).trans (kept_afterAlone ..)
  obtain ⟨hp, hw, hc⟩ := preempt_of_same hsame (t / 32)
  have hpc : ((afterAlone (s.advance t 12) r t).thread t).pc = (s.thread t).pc + 12 := by
    rw [thread_afterAlone]
    exact thread_advance_pc ..
  have hself : threadOf (t / 32) (t % 32) = t := Nat.div_add_mod ..
  have hend : pptEnd (Ins.ofBody .ppt (.long f)) (afterAlone (s.advance t 12) r t) (t / 32) (slotBit (t % 32)) (s.clk + 1) =
      ((afterAlone (s.advance t 12) r t).modCore (coreOfThread t) fun k => { k with preempt := none }).post 1
        (.trapEntry (t / 32) ⟨35, t % 32, 0, 0, (s.thread t).pc, 0, slotBit (t % 32)⟩) := by
    have hback : (s.thread t).pc + 12 - BitVec.ofNat 64 (Ins.ofBody .ppt (.long f)).size = (s.thread t).pc :=
      BitVec.add_sub_cancel ..
    unfold pptEnd
    dsimp only
    rw [if_neg, maskSlots_slotBit _ (Nat.mod_lt _ (by decide)), List.headD_cons, hself, hpc, hback]
    · rfl
    · rw [hp, hw, hc]
      rintro (h | h | h)
      · rw [Option.isNone_iff_eq_none] at h
        exact absurd hpre (by rw [show coreOfThread t = coreOfWarp (t / 32) from rfl, h]; decide)
      · exact absurd (hin.symm.trans h) nofun
      · exact hh h
  have hrun := (exec_ppt f s).trans (ok s rfl)
  rw [show (Ins.ofBody .ppt (.long f)).size = 12 from rfl, hend] at hrun
  have hcore : (((afterAlone (s.advance t 12) r t).modCore (coreOfThread t) fun k => { k with preempt := none }).core
      (coreOfThread t)).preempt = none := by rw [State.core_modCore_same]
  refine ⟨_, hrun, hcore, hpc, ?_, fun u k => hsame.greg u k id⟩
  · rw [← hsame.clk]
    exact mem_agenda_posted ((afterAlone (s.advance t 12) r t).modCore _ _) 1 _

/-! ### The instructions -/

/-- NOP in both forms and YIELD. -/
theorem passes_plain {i : Instr} {x : Ins} {s : State} {t : Nat} (hi : i = .nop ∨ (∃ f, i = .nopLong f) ∨ ∃ f, i = .yield f)
    (hx : i.ins? = some x) (ht : Turn s x t) : Passes i x t s s := by
  refine passes_of_ok (cost := 1) (body := fun _ s => .ok s) ht ?_ rfl
  obtain rfl | ⟨f, rfl⟩ | ⟨f, rfl⟩ := hi
  all_goals
    cases hx
    rfl

/-- Settles O23: the five instructions one by one. -/
theorem threadsSleepYieldAndMarkRegions : Obligations.ThreadsSleepYieldAndMarkRegions := by
  refine ⟨fun i x s t => passes_plain, ?_, fun f i e s t hi ht => ?_, ?_⟩
  · intro f s t v ht hv n
    have hexec : exec (.sleep f) s = perThread (Ins.ofBody .sleep (.long f)) 1 noEnd (sleepThread (Ins.ofBody .sleep (.long f))) s := rfl
    refine ⟨fun h0 => passes_of_ok ht hexec ?_, fun h0 => ⟨_, lands_of_jump ht hexec (.inr ?_), sleeping s t n⟩⟩
    · simp only [sleepThread, hv]
      exact if_pos h0
    · simp only [sleepThread, hv]
      exact if_neg h0
  · refine ⟨_, passes_of_ok ht (exec_idem s hi) rfl, fun h => ?_, fun h => ?_⟩
    · rw [h]
      rfl
    · rw [h, if_pos rfl]
      exact ⟨setRegion_cohort .., fun _ _ => rfl⟩
  · intro f s t x c ht
    exact ⟨ppt_passes ht, ppt_traps ht⟩

end Sys2Proof.Machine
end

