-- ==== Sys2Proof/Proofs/Return.lean ====
section
/-! PROOFS. The return from a trap (O26): the end of a context, what a slot and its warp take back, the outcomes of RTT. -/

namespace Sys2Proof

/-! ### Keyed collections -/

theorem kvGet_map_of_ne {α : Type} {d : α} (f : α → α) {l : KV α} {k : Nat} (h : kvGet d l k ≠ d) :
    kvGet d (l.map fun e => (e.1, f e.2)) k = f (kvGet d l k) := by
  induction l with
  | nil => exact absurd rfl h
  | cons e r ih =>
    simp only [List.map_cons, kvGet] at h ⊢
    split
    · rfl
    · rename_i hk
      rw [if_neg hk] at h
      split
      · rename_i hlt
        exact absurd (if_pos hlt) h
      · rename_i hlt
        rw [if_neg hlt] at h
        exact ih h

theorem mem_of_kvGet_ne {α : Type} {d : α} {l : KV α} {k : Nat} (h : kvGet d l k ≠ d) : (k, kvGet d l k) ∈ l := by
  induction l with
  | nil => exact absurd rfl h
  | cons e r ih =>
    simp only [kvGet] at h ⊢
    split
    · rename_i hk
      rw [hk]
      exact List.mem_cons_self
    · rename_i hk
      rw [if_neg hk] at h
      split
      · rename_i hlt
        exact absurd (if_pos hlt) h
      · rename_i hlt
        rw [if_neg hlt] at h
        exact List.mem_cons_of_mem _ (ih h)

/-- The values for keys from `a` on, written one after another. -/
theorem kvGet_foldl_kvSet {α : Type} (d : α) (v : Nat → α) (a n : Nat) (l : KV α) (r : Nat) :
    kvGet d (((List.range n).map fun k => (a + k, v k)).foldl (fun l e => kvSet l e.1 e.2) l) r =
      if a ≤ r ∧ r < a + n then v (r - a) else kvGet d l r := by
  induction n with
  | zero => simp
  | succ n ih =>
    rw [List.range_succ, List.map_append, List.foldl_append, List.map_singleton, List.foldl_cons, List.foldl_nil, kvGet_kvSet, ih]
    by_cases h : r = a + n
    · subst h
      simp
    · simp only [h, if_false]
      exact if_congr (by omega) rfl rfl

namespace Machine

theorem mem_insertNat (n : Nat) (l : List Nat) : n ∈ insertNat n l := by
  induction l with
  | nil => simp [insertNat]
  | cons a r ih =>
    unfold insertNat
    split
    · simp
    · split <;> simp [*]

/-! ### The end of a context (R389) -/

/-- The contexts that have ended on a package. -/
def State.endedOn (s : State) (p : Nat) : List Nat := (s.pkg p).ended

/-- A change of fields other than the packages (as an equation of the packages, so that `simp` uses it under a binder). -/
@[simp] theorem endedOn_mk (s : State) (q : Nat) (a b c d e f g h i j k l m n o p r t u v w x y z a') :
    State.endedOn ⟨a, b, c, d, e, f, g, h, i, j, k, l, m, n, s.pkgs, o, p, r, t, u, v, w, x, y, z, a'⟩ q = s.endedOn q :=
  congrArg (fun l => (kvGet ({} : Pkg) l q).ended) rfl

@[simp] theorem endedOn_foldl {α : Type} (f : State → α → State) (l : List α) (s : State) (q : Nat)
    (h : ∀ s a, (f s a).endedOn q = s.endedOn q) : (l.foldl f s).endedOn q = s.endedOn q := by
  induction l generalizing s with
  | nil => rfl
  | cons a l ih => exact (ih _).trans (h s a)

@[simp] theorem endedOn_modCore (s : State) (c q : Nat) (f : Core → Core) : (s.modCore c f).endedOn q = s.endedOn q := by
  simp [State.modCore]

@[simp] theorem endedOn_modDie (s : State) (d q : Nat) (f : Die → Die) : (s.modDie d f).endedOn q = s.endedOn q := by
  simp [State.modDie]

@[simp] theorem endedOn_modLaunch (s : State) (l q : Nat) (f : Launch → Launch) : (s.modLaunch l f).endedOn q = s.endedOn q := by
  simp [State.modLaunch]

@[simp] theorem endedOn_post (s : State) (d q : Nat) (e : Ev) : (s.post d e).endedOn q = s.endedOn q := by simp [State.post]

@[simp] theorem endedOn_freeBarrier (s : State) (c i q : Nat) : (freeBarrier s c i).endedOn q = s.endedOn q := by
  simp [freeBarrier]

@[simp] theorem endedOn_dropBuf (s : State) (d b q : Nat) : (dropBuf s d b).endedOn q = s.endedOn q := by simp [dropBuf]

@[simp] theorem endedOn_dropOps (s : State) (asid q : Nat) : (dropOps s asid).endedOn q = s.endedOn q := by simp [dropOps]


@[simp] theorem endedOn_raise (s : State) (d q : Nat) (r : EvRec) : (s.raise d r).endedOn q = s.endedOn q := by
  unfold State.raise State.endedOn
  split
  · rw [State.pkg_modPkg]
    split
    · subst_vars
      rfl
    · rfl
  · exact (endedOn_post ..).trans (endedOn_modDie ..)

/-- A context that ends has ended on every package of the domain. -/
theorem endContext_ended (s : State) (asid : Nat) (record : Option (Nat × EvRec)) {q : Nat} (hq : s.pkg q ≠ {}) :
    ((endContext s asid record).endedOn q).contains asid = true := by
  fun_cases endContext s asid record
  case case1 h => exact List.all_eq_true.1 h _ (mem_of_kvGet_ne hq)
  case case2 =>
    have hmark : (State.endedOn { s with pkgs := s.pkgs.map fun p => (p.1, { p.2 with ended := insertNat asid p.2.ended }) } q).contains
        asid = true := by
      unfold State.endedOn State.pkg
      dsimp only
      rw [kvGet_map_of_ne (fun p : Pkg => { p with ended := insertNat asid p.ended }) hq]
      exact List.contains_iff_mem.2 (mem_insertNat ..)
    cases record <;> simpa +zetaDelta using hmark

/-- A fault in a handler ends the context of its core. -/
theorem takeTrap_ended {s : State} {w : Nat} {h : Handler} (hh : (s.warp w).handler = some h) (i : TrapInfo) (n : Nat) {q : Nat}
    (hq : s.pkg q ≠ {}) : (((takeTrap s w i n).pkg q).ended.contains (s.asidOf (coreOfWarp w))) = true := by
  simp only [takeTrap, hh]
  exact endContext_ended s _ _ hq

/-! ### What a warp and its slots take back (R392) -/

/-- The warp of a handler that returns. -/
def warpReturn (h : Handler) (x : Warp) : Warp :=
  { x with m := x.xm, w := h.w.foldl (fun a e => kvSet a e.1 e.2) x.w, handler := none }

/-- The thread in slot `k` of a warp `x` whose handler returns in clk `clk`. -/
def slotReturn (x : Warp) (h : Handler) (n clk k : Nat) (t : Thread) : Thread :=
  let t := { t with p := kvGet 0x80 h.preds k, prdy := [], hold := .none, since := clk + 1 }
  if t.exited then { t with pc := kvGet 0 h.pcs k }
  else if h.replay.getLsbD k then { t with pc := if x.xdone.getLsbD k then x.xpc + BitVec.ofNat 64 n else x.xpc }
  else { t with pc := kvGet 0 h.pcs k, hold := kvGet .none h.holds k }

/-- Changes of threads that read the clk read the clk of the state before them. -/
theorem foldl_modThread_clk (w : Nat) (f : Nat → Nat → Thread → Thread) (l : List Nat) (s : State) :
    l.foldl (fun s k => s.modThread (threadOf w k) (f s.clk k)) s =
      l.foldl (fun s' k => s'.modThread (threadOf w k) (f s.clk k)) s := by
  induction l generalizing s with
  | nil => rfl
  | cons k l ih =>
    rw [List.foldl_cons, List.foldl_cons, ih]
    rfl

theorem returnFromTrap_eq {s : State} {w n : Nat} {h : Handler} (hh : (s.warp w).handler = some h) :
    returnFromTrap s w n = (List.range 32).foldl
      (fun s' k => s'.modThread (threadOf w k) (slotReturn (s.warp w) h n s.clk k)) (s.modWarp w (warpReturn h)) := by
  simp only [returnFromTrap, hh]
  exact foldl_modThread_clk w (slotReturn (s.warp w) h n) (List.range 32) (s.modWarp w (warpReturn h))

@[simp] theorem slotReturn_g (x : Warp) (h : Handler) (n clk k : Nat) (t : Thread) : (slotReturn x h n clk k t).g = t.g := by
  unfold slotReturn
  dsimp only
  split
  · rfl
  · split <;> rfl

@[simp] theorem slotReturn_p (x : Warp) (h : Handler) (n clk k : Nat) (t : Thread) :
    (slotReturn x h n clk k t).p = kvGet 0x80 h.preds k := by
  unfold slotReturn
  dsimp only
  split
  · rfl
  · split <;> rfl

/-- A slot of the replay set starts at $xpc, or after its instruction. -/
theorem slotReturn_replays {x : Warp} {h : Handler} {n clk k : Nat} {t : Thread} (he : t.exited = false)
    (hr : h.replay.getLsbD k = true) :
    (slotReturn x h n clk k t).pc = if x.xdone.getLsbD k then x.xpc + BitVec.ofNat 64 n else x.xpc := by
  simp only [slotReturn, he, hr, Bool.false_eq_true, if_false, if_true]

/-- Every other slot starts where it stood. -/
theorem slotReturn_stays {x : Warp} {h : Handler} {n clk k : Nat} {t : Thread} (hr : t.exited = true ∨ h.replay.getLsbD k = false) :
    (slotReturn x h n clk k t).pc = kvGet 0 h.pcs k := by
  unfold slotReturn
  dsimp only
  split
  · rfl
  · rename_i he
    simp only [hr.resolve_left he, Bool.false_eq_true, if_false]

theorem returnFromTrap_mem (s : State) (w n : Nat) : (returnFromTrap s w n).mem = s.mem :=
  congrArg (·.1) (memories_returnFromTrap s w n)

section
variable {s : State} {w n : Nat} {h : Handler} (hh : (s.warp w).handler = some h)
include hh

theorem returnFromTrap_warp : (returnFromTrap s w n).warp w = warpReturn h (s.warp w) := by
  rw [returnFromTrap_eq hh, (parts_of_rest (rest_foldSlots w _ _ _)).1, State.warp_modWarp_same]

theorem returnFromTrap_thread {k : Nat} (hk : k < 32) :
    (returnFromTrap s w n).thread (threadOf w k) = slotReturn (s.warp w) h n s.clk k (s.thread (threadOf w k)) := by
  have hsub : threadOf w k - 32 * w = k := Nat.add_sub_cancel_left ..
  rw [returnFromTrap_eq hh, thread_foldSlots w _ _ _ _ List.nodup_range, hsub, if_pos ⟨rfl, List.mem_range.2 hk⟩]
  rfl

theorem returnFromTrap_greg (u r : Nat) : (returnFromTrap s w n).greg u r = s.greg u r := by
  rw [returnFromTrap_eq hh, State.greg, thread_foldSlots w _ _ _ _ List.nodup_range]
  split
  · rw [slotReturn_g]
    rfl
  · rfl

/-- The registers w56 to w63 are those that the handler kept; the others keep their contents. -/
theorem returnFromTrap_wreg {v : Nat → Word} (hv : h.w = (List.range 8).map fun k => (56 + k, v k)) :
    (∀ k < 8, (returnFromTrap s w n).wreg w (56 + k) = v k) ∧ ∀ r < 56, (returnFromTrap s w n).wreg w r = s.wreg w r := by
  have hw (r : Nat) : (returnFromTrap s w n).wreg w r = if 56 ≤ r ∧ r < 56 + 8 then v (r - 56) else s.wreg w r := by
    rw [State.wreg, returnFromTrap_warp hh, warpReturn, hv]
    exact kvGet_foldl_kvSet ..
  refine ⟨fun k hk => ?_, fun r hr => ?_⟩
  · rw [hw, if_pos (by omega), Nat.add_sub_cancel_left]
  · rw [hw, if_neg (by omega)]

end

/-! ### The outcomes of RTT -/

section
variable {t : Nat} {s : State}

theorem rttThread_outside (hh : (s.warp (t / 32)).handler = none) : rttThread t s = .fault 2 0 0 s := by
  simp only [rttThread, State.inHandler, hh, Option.isSome_none, Bool.not_false, if_true]

variable {h : Handler} (hh : (s.warp (t / 32)).handler = some h)
include hh

theorem rttThread_badStart (hb : badReturn s (t / 32) false (s.warp (t / 32)).xpc = true) :
    rttThread t s = .fault 10 0 (s.warp (t / 32)).xpc s := by
  simp only [rttThread, State.inHandler, hh, hb, Option.isSome_some, Bool.not_true, Bool.false_eq_true, if_false, if_true]

variable (hb : badReturn s (t / 32) false (s.warp (t / 32)).xpc = false)
include hb

/-- A fetch at $xpc that fails is a double fault. -/
theorem rttThread_badFetch {e : DecodeFault} {s2 : State}
    (hf : fetchInstr s (coreOfThread t) (s.warp (t / 32)).xpc true = (.error e, s2)) :
    ∃ i, rttThread t s = .last (takeTrap s2 (t / 32) i (s2.clk + 1)) := by
  simp only [rttThread, State.inHandler, hh, hb, hf, Option.isSome_some, Bool.not_true, Bool.false_eq_true, if_false]
  exact ⟨_, rfl⟩

variable {j : Instr} {x : Ins} {s2 : State} (hf : fetchInstr s (coreOfThread t) (s.warp (t / 32)).xpc true = (.ok j, s2))
  (hx : j.ins? = some x)
include hf hx

theorem rttThread_badNext (hn : badReturn s2 (t / 32) true ((s.warp (t / 32)).xpc + BitVec.ofNat 64 x.size) = true) :
    rttThread t s = .fault 10 0 ((s.warp (t / 32)).xpc + BitVec.ofNat 64 x.size) s2 := by
  simp only [rttThread, State.inHandler, hh, hb, hf, hx, hn, Option.isSome_some, Bool.not_true, Bool.false_eq_true, if_false, if_true]

/-- The warp leaves its handler; of a core that a pre-emption holds, more may run. -/
theorem rttThread_returns (hn : badReturn s2 (t / 32) true ((s.warp (t / 32)).xpc + BitVec.ofNat 64 x.size) = false) :
    ∃ s3, rttThread t s = .last s3 ∧ s3.seats = (returnFromTrap s2 (t / 32) x.size).seats ∧
      s3.mem = (returnFromTrap s2 (t / 32) x.size).mem := by
  simp only [rttThread, State.inHandler, hh, hb, hf, hx, hn, Option.isSome_some, Bool.not_true, Bool.false_eq_true, if_false]
  refine ⟨_, rfl, ?_⟩
  split <;> exact ⟨rfl, rfl⟩

end

/-- Settles O26: the faults of RTT end the context, and the return takes back what the handler kept. -/
theorem returnFromTrapRestoresTheWarp : Obligations.ReturnFromTrapRestoresTheWarp := by
  intro f s t w c a ht
  have hexec : exec (.rtt f) s = perThread (Ins.ofBody .rtt (.long f)) 1 noEnd rttThread s := rfl
  refine ⟨fun hh => traps_of_fault ht hexec (rttThread_outside hh), fun h hh => ?_⟩
  obtain ⟨-, r, rest, -, -, -, -, -, -, -, fault, last, -⟩ := perThread_turn ht 1 noEnd rttThread
  have ends {cause acc : Nat} {addr : Dword} {s2 : State} (hw : (s2.warp w).handler = some h)
      (hb : rttThread t s = .fault cause acc addr s2) : EndsContext (.rtt f) c s s2 :=
    ⟨_, hexec.trans (fault _ _ _ _ hb), fun q hq => takeTrap_ended (s := closeRun s2 r s2.clk) hw _ _ hq⟩
  refine ⟨fun hb => ends hh (rttThread_badStart hh hb), fun hb => ⟨fun e s2 hf => ?_, fun j x s2 hf hx => ?_⟩⟩
  · have hseats : s2.seats = s.seats := by rw [snd_eq hf, seats_fetchInstr]
    obtain ⟨i, hi⟩ := rttThread_badFetch hh hb hf
    exact ⟨_, hexec.trans (last _ hi), fun q hq => takeTrap_ended ((congrArg _ (warp_of_seats hseats w)).trans hh) _ _ hq⟩
  · have hseats : s2.seats = s.seats := by rw [snd_eq hf, seats_fetchInstr]
    have hwarp : s2.warp w = s.warp w := warp_of_seats hseats w
    have hh2 : (s2.warp w).handler = some h := (congrArg _ hwarp).trans hh
    refine ⟨fun hn => ends hh2 (rttThread_badNext hh hb hf hx hn), fun hn => ?_⟩
    obtain ⟨s3, h3, hseats3, hmem3⟩ := rttThread_returns hh hb hf hx hn
    have hw3 : s3.warp w = warpReturn h (s.warp w) := by rw [warp_of_seats hseats3, returnFromTrap_warp hh2, hwarp]
    refine ⟨_, hexec.trans (last _ h3), congrArg Warp.handler hw3, congrArg Warp.m hw3, fun u k => ?_, ?_, fun v hv => ?_, ?_⟩
    · exact (greg_of_seats hseats3 u k).trans ((returnFromTrap_greg hh2 u k).trans (greg_of_seats hseats u k))
    · exact hmem3.trans (returnFromTrap_mem ..)
    · obtain ⟨hkept, hrest⟩ := returnFromTrap_wreg (n := x.size) hh2 hv
      exact ⟨fun k hk => (wreg_of_seats hseats3 ..).trans (hkept k hk),
        fun k hk => (wreg_of_seats hseats3 ..).trans ((hrest k hk).trans (wreg_of_seats hseats ..))⟩
    · intro k hk
      have hthread : s3.thread (threadOf w k) = slotReturn (s.warp w) h x.size s2.clk k (s.thread (threadOf w k)) := by
        rw [thread_of_seats hseats3, returnFromTrap_thread hh2 hk, hwarp, thread_of_seats hseats]
      exact ⟨(congrArg Thread.p hthread).trans (slotReturn_p ..),
        fun he hr => (congrArg Thread.pc hthread).trans (slotReturn_replays he hr),
        fun hr => (congrArg Thread.pc hthread).trans (slotReturn_stays hr)⟩

end Machine

end Sys2Proof
end

