-- ==== Sys2Proof/Proofs/Issue.lean ====
section
/-! PROOFS. What a step comes to (O4, O5): what a fetch leaves alone, so that the run whose turn has come still stands on its
lane; the courses of instructions and of happenings, each of which answers a next state; then the step. -/

namespace Sys2Proof.Machine

/-! ### What a fetch leaves alone

A fetch posts reads, fills caches and counts errors; all of that stands outside the lanes. One rule for each operation on the way
of a read, in the order of the model. -/

/-- A state without the parts that a read on its way may change. -/
def State.apart (s : State) : State :=
  { s with agenda := [], free := 0, nextId := 0, cores := [], dies := [], dirs := [], links := [], pkgs := [], mem := [],
           metaw := [], errs := [], reqs := [], msgs := [] }

theorem cur_of_apart {s s' : State} (h : s'.apart = s.apart) : s'.cur = s.cur :=
  show s'.apart.cur = s.apart.cur by rw [h]

theorem lane_of_apart {s s' : State} (h : s'.apart = s.apart) (l : Nat) : s'.lane l = s.lane l :=
  show s'.apart.lane l = s.apart.lane l by rw [h]

@[simp] theorem apart_mk (s : State) (a b c d e f g h i j k l m) :
    State.apart ⟨s.clk, a, s.ev, s.cur, b, c, s.domain, s.threads, s.warps, s.lanes, d, e, f, g, h, i, s.cellar, s.host, j, k, l,
      s.ops, m, s.launches, s.saved, s.insts⟩ = s.apart := rfl

@[simp] theorem apart_ite (p : Prop) [Decidable p] (s t : State) : (if p then s else t).apart = if p then s.apart else t.apart :=
  apply_ite State.apart p s t

@[simp] theorem apart_foldl {α : Type} (f : State → α → State) (l : List α) (s : State) (h : ∀ s a, (f s a).apart = s.apart) :
    (l.foldl f s).apart = s.apart := by
  induction l generalizing s with
  | nil => rfl
  | cons a l ih => exact (ih _).trans (h s a)

@[simp] theorem apart_modCore (s : State) (k : Nat) (f : Core → Core) : (s.modCore k f).apart = s.apart := rfl
@[simp] theorem apart_modDie (s : State) (k : Nat) (f : Die → Die) : (s.modDie k f).apart = s.apart := rfl
@[simp] theorem apart_modDir (s : State) (k : Nat) (f : Dir → Dir) : (s.modDir k f).apart = s.apart := rfl
@[simp] theorem apart_modLink (s : State) (k : Nat) (f : Link → Link) : (s.modLink k f).apart = s.apart := rfl
@[simp] theorem apart_modPkg (s : State) (k : Nat) (f : Pkg → Pkg) : (s.modPkg k f).apart = s.apart := rfl
@[simp] theorem apart_modReq (s : State) (k : Nat) (f : Req → Req) : (s.modReq k f).apart = s.apart := rfl
@[simp] theorem apart_fresh (s : State) : s.fresh.2.apart = s.apart := rfl
@[simp] theorem apart_chooseBelow (s : State) (n : Nat) : (s.chooseBelow n).2.apart = s.apart := rfl
@[simp] theorem apart_post (s : State) (d : Nat) (e : Ev) : (s.post d e).apart = s.apart := rfl
@[simp] theorem apart_pmcAdd (s : State) (c sel n : Nat) : (pmcAdd s c sel n).apart = s.apart := rfl
@[simp] theorem apart_countUe (s : State) (line : Nat) : (countUe s line).apart = s.apart := rfl
@[simp] theorem apart_rdcDrop (s : State) (line : Nat) : (rdcDrop s line).apart = s.apart := rfl
@[simp] theorem apart_takeNow (s : State) (id v n : Nat) : (takeNow s id v n).apart = s.apart := rfl

@[simp] theorem apart_raise (s : State) (d : Nat) (r : EvRec) : (s.raise d r).apart = s.apart := by simp [State.raise]

@[simp] theorem apart_pumpDir (s : State) (dir : Nat) : (pumpDir s dir).apart = s.apart := by simp [pumpDir]

@[simp] theorem apart_pumpLink (s : State) (l : Nat) : (pumpLink s l).apart = s.apart := by simp [pumpLink]

@[simp] theorem apart_forward (s : State) (id : Nat) (passing : Bool) : (forward s id passing).apart = s.apart := by
  fun_cases forward s id passing <;> simp +zetaDelta

@[simp] theorem apart_send (s : State) (src dst vc base : Nat) (own : Bool) (e : Ev) :
    (send s src dst vc base own e).apart = s.apart := by
  simp [send]

@[simp] theorem apart_sendReq (s : State) (src dst : Nat) (e : Ev) : (sendReq s src dst e).apart = s.apart := by simp [sendReq]

@[simp] theorem apart_countCorrected (s : State) (line : Nat) : (countCorrected s line).apart = s.apart := by
  simp [countCorrected]

@[simp] theorem apart_countBad (s : State) (line : Nat) : (countBad s line).apart = s.apart := by simp [countBad]

@[simp] theorem apart_applyResidue (s : State) (line : Nat) (es : List (Nat × Byte)) :
    (applyResidue s line es).apart = s.apart := by
  simp [applyResidue]

@[simp] theorem apart_takeFix (s : State) (line : Nat) (es fix : List (Nat × Byte)) :
    (takeFix s line es fix).apart = s.apart := by
  simp [takeFix]

@[simp] theorem apart_rdcDecode (s : State) (line : Nat) : (rdcDecode s line).apart = s.apart := by
  fun_cases rdcDecode s line <;> simp

@[simp] theorem apart_rdcGet (s : State) (d pa : Nat) : (rdcGet s d pa).1.apart = s.apart := by simp [rdcGet]

@[simp] theorem apart_toAgent (s : State) (id : Nat) : (toAgent s id).apart = s.apart := by simp [toAgent]

@[simp] theorem apart_launchReq (s : State) (id : Nat) : (launchReq s id).apart = s.apart := by
  fun_cases launchReq s id
  case case8 e _ e' => simp +zetaDelta [snd_eq e', fst_eq e]
  case case9 e _ _ e' _ => simp +zetaDelta [snd_eq e', fst_eq e]
  case case10 e => simp +zetaDelta [fst_eq e]
  all_goals simp +zetaDelta

@[simp] theorem apart_readFor (s : State) (t d cls pa : Nat) : (readFor s t d cls pa).apart = s.apart := by simp [readFor]

@[simp] theorem apart_postReads (s : State) (d cls pa n : Nat) : (postReads s d cls pa n).apart = s.apart := by
  simp [postReads, postRead]

@[simp] theorem apart_fetchLine (s : State) (core va : Nat) : (fetchLine s core va).2.apart = s.apart := by
  fun_cases fetchLine s core va <;> simp +zetaDelta

/-- A word of code is taken from a line of code. -/
theorem fetchWord_state (s : State) (core : Nat) (va : Dword) : (fetchWord s core va).2 = (fetchLine s core va.toNat).2 := by
  unfold fetchWord
  split <;> rename_i e <;> rw [e]

@[simp] theorem apart_fetchWord (s : State) (core : Nat) (va : Dword) : (fetchWord s core va).2.apart = s.apart := by
  rw [fetchWord_state, apart_fetchLine]

@[simp] theorem apart_fetchWords (s : State) (core : Nat) (va : Dword) (n : Nat) :
    (fetchWords s core va n).2.apart = s.apart := by
  induction n generalizing s va with
  | zero => rfl
  | succ n ih =>
    have hw := apart_fetchWord s core va
    unfold fetchWords
    split
    · rename_i e
      rwa [e] at hw
    · rename_i w s1 e
      rw [e] at hw
      have hr := (ih s1 (va + 4)).trans hw
      split <;> rename_i e' <;> rwa [e'] at hr

/-! ### What a fetch answers -/

/-- Words decode to an instruction, never to an event. -/
theorem ins_of_decodeBody {o : Opc} {len : BitVec 2} {ws : List Word} {i : Instr} (h : decodeBody o len ws = .ok i) :
    ∃ x, i.ins? = some x := by
  unfold decodeBody at h
  split at h
  · contradiction
  · split at h
    · split at h
      · rename_i hi
        cases h
        exact ⟨_, by rw [Instr.ins?, parts_ofParts hi]; rfl⟩
      · contradiction
    · contradiction

/-- A fetch that answers an instruction has read its words, which decode to it. -/
theorem fetchInstr_ok {s s1 : State} {core : Nat} {pc : Dword} {sv : Bool} {i : Instr}
    (h : fetchInstr s core pc sv = (.ok i, s1)) :
    ∃ w s0 o len ws, fetchWord s core pc = (some w, s0) ∧ decodeHead w = .ok (o, len) ∧
      fetchWords s0 core (pc + 4) (lenBytes len / 4 - 1) = (.ok ws, s1) ∧ decodeBody o len (w :: ws) = .ok i := by
  unfold fetchInstr at h
  split at h
  · cases h
  · rename_i w s0 hw
    split at h
    · cases h
    · rename_i o len hd
      split at h
      · cases h
      · split at h
        · cases h
        · rename_i ws s2 hws
          split at h
          · cases h
          · rename_i j hb
            dsimp only at h
            split at h
            · cases h
            · cases h
              exact ⟨w, s0, o, len, ws, hw, hd, hws, hb⟩

/-- What is fetched is an instruction and no event, and the run whose turn has come still stands on its lane. -/
theorem fetchInstr_ins {s s1 : State} {core : Nat} {pc : Dword} {sv : Bool} {i : Instr}
    (h : fetchInstr s core pc sv = (.ok i, s1)) : (∃ x, i.ins? = some x) ∧ s1.apart = s.apart := by
  obtain ⟨w, s0, o, len, ws, hw, -, hws, hb⟩ := fetchInstr_ok h
  exact ⟨ins_of_decodeBody hb, by rw [snd_eq hws, apart_fetchWords, snd_eq hw, apart_fetchWord]⟩

/-! ### The courses of an instruction -/

/-- What an instruction answers is a course of its run: thread by thread, by whole sub-runs, or thread by thread once the
sub-run has its copy slots. -/
inductive Course (x : Ins) (s : State) : Out → Prop
  | thread (cost : Nat) (endf : EndFn) (body : Nat → State → TOut) : Course x s (perThread x cost endf body s)
  | subrun (cost : Nat → Nat) (endf : EndFn) (body : List Nat → State → TOut) : Course x s (perSubrun x cost endf body s)
  | held (need : List Nat → State → Option Hold) (body : Nat → State → TOut) : Course x s (perThreadHeld x need body s)

theorem Course.ite {x : Ins} {s : State} {p : Prop} [Decidable p] {a b : Out} (ha : Course x s a) (hb : Course x s b) :
    Course x s (if p then a else b) := by
  split
  · exact ha
  · exact hb

theorem course_alu (fn : Ins → Nat → Nat → Nat → AluOut) (x : Ins) (s : State) : Course x s (alu fn x s) :=
  .ite (.subrun ..) (.thread ..)

theorem course_accr (x : Ins) (s : State) : Course x s (accr x s) := .ite (.subrun ..) (.thread ..)

theorem course_xlane (x : Ins) (s : State) : Course x s (xlane x s) := .ite (.subrun ..) (.thread ..)

theorem course_svSub (x : Ins) (body : List Nat → State → TOut) (s : State) : Course x s (svSub x body s) := .subrun ..

/-- Every opcode takes one of the courses, whatever its operands and modifiers. -/
theorem course_opMeaning (x : Ins) (s : State) : Course x s (opMeaning x s) := by
  unfold opMeaning
  split
  all_goals first
    | exact course_alu _ x s
    | exact course_accr x s
    | exact course_xlane x s
    | exact .thread ..
    | exact .subrun ..
    | exact .held ..
    | exact course_svSub x _ s

section
variable {s : State} {r : Run} (hr : (s.lane s.cur).run = some r)
include hr

theorem perThreadKeep_answers (keep : Nat) (x : Ins) (cost : Nat) (endf : EndFn) (body : Nat → State → TOut) :
    ∃ s', perThreadKeep keep x cost endf body s = .next s' := by
  simp only [perThreadKeep, hr]
  exact ⟨_, rfl⟩

theorem perSubrun_answers (x : Ins) (cost : Nat → Nat) (endf : EndFn) (body : List Nat → State → TOut) :
    ∃ s', perSubrun x cost endf body s = .next s' := by
  simp only [perSubrun, hr]
  exact ⟨_, rfl⟩

theorem perThreadHeld_answers (x : Ins) (need : List Nat → State → Option Hold) (body : Nat → State → TOut) :
    ∃ s', perThreadHeld x need body s = .next s' := by
  simp only [perThreadHeld, hr]
  split
  · exact perThreadKeep_answers hr ..
  · split
    · exact perThreadKeep_answers hr ..
    · split
      · exact perThreadKeep_answers hr ..
      · exact ⟨_, rfl⟩

/-- A course answers a next state where the current lane has a run. -/
theorem Course.answers {x : Ins} {o : Out} (h : Course x s o) : ∃ s', o = .next s' := by
  cases h with
  | thread cost endf body => exact perThreadKeep_answers hr 0 x cost endf body
  | subrun cost endf body => exact perSubrun_answers hr x cost endf body
  | held need body => exact perThreadHeld_answers hr x need body

end

/-! ### The row of a happening -/

theorem onEvent_of_some {s s' : State} {e : Ev} {f : Ev → State → Option State} (he : s.ev = some e)
    (hf : f e { s with ev := none } = some s') : onEvent s f = .next s' := by
  simp only [onEvent, he, hf]

/-- The row of the happening that stands has its effect. -/
theorem exec_happening {s : State} {e : Ev} (he : s.ev = some e) : exec e.instr s = .next (e.effect { s with ev := none }) := by
  cases e
  all_goals
    unfold Ev.instr exec
    refine onEvent_of_some he ?_
    rfl

/-! ### The step -/

theorem stepOn_eq (s : State) : stepOn s = doPick (wake s) (pick (wake s)) := rfl

theorem step_of_ev_none {s : State} (h : s.ev = none) : step s = doPick (wake s) (pick (wake s)) := by
  rw [step, h]
  exact stepOn_eq s

/-- The slice of a lane whose run's instruction is fetched is the meaning of that instruction. -/
theorem runSlice_of_fetch {s s1 : State} {l : Nat} {r : Run} {i : Instr} (hr : (s.lane l).run = some r)
    (hf : fetchInstr { s with cur := l } (coreOfLane l) r.pc (s.inHandler (r.threads.headD 0)) = (.ok i, s1)) :
    runSlice s l = exec i s1 := by
  have hr' : (({ s with cur := l } : State).lane l).run = some r := hr
  have hf' : fetchInstr { s with cur := l } (coreOfLane l) r.pc
    (({ s with cur := l } : State).inHandler (r.threads.headD 0)) = (.ok i, s1) := hf
  simp only [runSlice, hr', hf']

/-- Settles O4: the slice of the lane whose turn has come, or the row of the happening that is due. -/
theorem stepRunsDecodedInstruction : Obligations.StepRunsDecodedInstruction := by
  refine fun s hev => ⟨fun l r i s1 hp hr hf => ?_, fun e hp => ?_⟩
  · rw [step_of_ev_none hev, hp, doPick]
    exact runSlice_of_fetch hr hf
  · rw [step_of_ev_none hev, hp, doPick]

/-- A slice answers a next state: the fetch raises its fault, or the instruction takes a course of the run. -/
theorem runSlice_answers (s : State) (l : Nat) : ∃ s', runSlice s l = .next s' := by
  unfold runSlice
  dsimp only
  split
  · exact ⟨_, rfl⟩
  · rename_i r hr
    split
    · exact ⟨_, rfl⟩
    · rename_i i s1 hf
      obtain ⟨⟨x, hx⟩, hs⟩ := fetchInstr_ins hf
      have hrun : (s1.lane s1.cur).run = some r := by rw [cur_of_apart hs, lane_of_apart hs]; exact hr
      rw [exec_ins hx]
      exact (course_opMeaning x s1).answers hrun

theorem doPick_answers (s : State) (p : Pick) : ∃ s', doPick s p = .next s' := by
  cases p with
  | happen e => exact ⟨_, exec_happening rfl⟩
  | slice l => exact runSlice_answers s l
  | settle => exact ⟨_, rfl⟩
  | pass n => exact ⟨_, rfl⟩

/-- Settles O5: the pick of a step is a happening that stands for its row, the slice of a lane, or what no fault belongs to. -/
theorem everyStepAnswersANextState : Obligations.EveryStepAnswersANextState := by
  intro s
  have hon (s : State) : ∃ s', stepOn s = .next s' := by
    rw [stepOn_eq]
    exact doPick_answers ..
  unfold step
  split
  · exact hon s
  · exact hon { s with ev := none }

end Sys2Proof.Machine
end

