-- ==== Sys2Proof/Proofs/Computing.lean ====
section
/-! PROOFS. The per-thread form of an instruction that computes (O8). -/

namespace Sys2Proof.Machine

/-- Where the port of D, if it names one, has room, no thread is dropped at it. -/
theorem noDrop_of_room {x : Ins} {s : State} {w : Nat} (h : ∀ p, pushOf x = some p → pushRoom s w p = true) :
    ((pushOf x).filter fun p => !pushRoom s w p) = none := by
  rw [Option.filter_eq_none_iff]
  intro p hp
  simp [h p hp]

/-- An instruction that computes completes where its operands are read and its port has room. -/
theorem passes_alu {i : Instr} {fn : Ins → Nat → Nat → Nat → AluOut} {x : Ins} {s : State} {t : Nat} {v : Vals}
    (he : exec i s = alu fn x s) (hu : x.f.u = false) (ht : Turn s x t) (hv : gather s x t = .vals v)
    (hroom : ∀ p, pushOf x = some p → pushRoom v.st (t / 32) p = true) :
    Passes i x t s (putOut v.st x (occupancy x) t v.popped (fn x v.a v.b v.c)) := by
  refine passes_of_ok (cost := occupancy x) (body := aluThread fn x) ht ?_ ?_
  · rw [he, alu, if_neg (by simp [hu])]
  · simp only [aluThread, hv, noDrop_of_room hroom]

/-- Settles O8: the result is written to the state after the pops, which is the state itself where there are none. -/
theorem computingFormsComplete : Obligations.ComputingFormsComplete := by
  intro i fn x s t v hc hx hu ht hv hroom
  refine ⟨_, passes_alu (exec_computes hc hx s) hu ht hv hroom, fun hp hpop => ?_⟩
  rw [gather_state hv hpop (computes_opc hc hx), hpop]
  obtain ⟨hd, hpred, hflags, hkept⟩ := putOut_plain s x (occupancy x) t (fn x v.a v.b v.c) hu hp
  refine ⟨hd, hpred, hflags.trans ?_, hkept⟩
  split
  · rfl
  · rename_i hr
    rw [computes_flags hc hx (Bool.eq_false_iff.2 hr)]

end Sys2Proof.Machine
end

