-- ==== Sys2Proof/Proofs/ShortForms.lean ====
section
/-! PROOFS. The arithmetic instructions in their short forms (O6): what a short form reads, what its thread writes, and the
functions of 32-bit elements as operations of bit vectors. -/

namespace Sys2Proof.Machine

/-! ### What a short form reads (R26, R27) -/

/-- References to registers of which none is a queue port and none has its FE bit set. -/
def PlainRefs (l : List RegRef) : Prop := (∀ p, RegRef.q p ∉ l) ∧ ∀ k, RegRef.g k true ∉ l

theorem PlainRefs.append {a b : List RegRef} (ha : PlainRefs a) (hb : PlainRefs b) : PlainRefs (a ++ b) :=
  ⟨fun p h => (List.mem_append.1 h).elim (ha.1 p) (hb.1 p), fun k h => (List.mem_append.1 h).elim (ha.2 k) (hb.2 k)⟩

theorem PlainRefs.ite {p : Prop} [Decidable p] {a b : List RegRef} (ha : PlainRefs a) (hb : PlainRefs b) :
    PlainRefs (if p then a else b) := by
  split
  · exact ha
  · exact hb

theorem plainRefs_nil : PlainRefs [] := ⟨fun _ => List.not_mem_nil, fun _ => List.not_mem_nil⟩

/-- A field that names a register and has no FE bit. -/
theorem plainRefs_field (u : Bool) (t : BitVec 4) (k : FK) {v : BitVec 8} (h : v.toNat < 240) :
    PlainRefs (fieldRefs u t k v false) := by
  have hq : ¬ 240 ≤ v.toNat := by omega
  cases k <;> cases u <;> simp [PlainRefs, fieldRefs, hq]

/-- The registers that an instruction without FE bits reads, where its fields name registers. -/
theorem plainRefs_insReads {x : Ins} (hfe : x.f.fe = 0) (ha : x.f.a.toNat < 240) (hb : x.f.b.toNat < 240)
    (hc : x.f.c.toNat < 240) (hd : x.f.d.toNat < 240) : PlainRefs (insReads x) := by
  have hbit (k : Nat) : x.f.fe.getLsbD k = false := by simp [hfe]
  unfold insReads
  simp only [hbit]
  refine ((((PlainRefs.ite plainRefs_nil (plainRefs_field _ _ _ ha)).append (plainRefs_field _ _ _ hb)).append
    (plainRefs_field _ _ _ hc)).append ((plainRefs_field _ _ _ hd).ite plainRefs_nil)).append ?_
  split
  all_goals try split
  all_goals simp [PlainRefs]

/-- A short form has fields of seven bits and no modifier. -/
theorem short_fields (o : Opc) (f : Short) : let x := (Ins.ofBody o (.short f)).f
    x.a.toNat < 240 ∧ x.b.toNat < 240 ∧ x.c.toNat < 240 ∧ x.d.toNat = f.d.toNat ∧ x.fe = 0 ∧ x.m = 0 ∧ x.u = f.u := by
  have ha := f.a.isLt
  have hb := f.b.isLt
  have hd := f.d.isLt
  simp only [Ins.ofBody]
  unfold Short.toLong
  cases o.shortAcc
  all_goals split <;> simp <;> omega

/-- The fields of a short form that carries no constant in them. -/
theorem short_registers {o : Opc} (ho : o ≠ .movi ∧ o ≠ .xch ∧ o ≠ .bcst) (f : Short) :
    let x := (Ins.ofBody o (.short f)).f
    x.a.toNat = f.a.toNat ∧ x.b.toNat = f.b.toNat ∧ (o.shortAcc = true → x.c.toNat = f.d.toNat) := by
  obtain ⟨h1, h2, h3⟩ := ho
  simp only [Ins.ofBody]
  unfold Short.toLong
  split
  · contradiction
  · contradiction
  · contradiction
  · have hw (v : BitVec 7) : (v.setWidth 8).toNat = v.toNat := BitVec.toNat_setWidth_of_le (by decide)
    refine ⟨hw _, hw _, fun h => ?_⟩
    simp only [h, if_true, hw]

/-- The D field of a short form names no queue port. -/
theorem short_pushOf (o : Opc) (f : Short) : pushOf (Ins.ofBody o (.short f)) = none := by
  have hd : ¬ 240 ≤ f.d.toNat := by have := f.d.isLt; omega
  obtain ⟨-, -, -, hx, -⟩ := short_fields o f
  unfold pushOf
  split
  · rw [hx, if_neg (by simp [hd])]
  · rfl

@[simp] theorem mb_short (o : Opc) (f : Short) (k : Nat) : (Ins.ofBody o (.short f)).mb k = false := by
  obtain ⟨-, -, -, -, -, hm, -⟩ := short_fields o f
  simp [Ins.mb, hm]

/-- The operands of a short form are the registers that its fields name. -/
theorem gather_short (s : State) {o : Opc} (ho : o ≠ .balloc ∧ o ≠ .xlane) (f : Short) (t : Nat) :
    let x := Ins.ofBody o (.short f)
    gather s x t = .vals
      { a := fieldNum s x.f.u x.f.t t x.shape.a x.f.a, b := fieldNum s x.f.u x.f.t t x.shape.b x.f.b,
        c := fieldNum s x.f.u x.f.t t x.shape.c x.f.c, popped := false, st := s } := by
  obtain ⟨ha, hb, hc, hd, hfe, -, -⟩ := short_fields o f
  obtain ⟨hq, hg⟩ := plainRefs_insReads (x := Ins.ofBody o (.short f)) hfe ha hb hc
    (hd ▸ f.d.isLt.trans (by decide))
  exact gather_plain hq (short_pushOf o f) hg rfl (mb_short ..) (mb_short ..) ho

/-! ### What a short form writes -/

/-- What an instruction without a predicate and without flags computes is written to D, and to nothing else. -/
theorem putOut_register (s : State) {x : Ins} (cost t : Nat) {o : AluOut} (hu : x.f.u = false) (hd : x.f.d.toNat < 240)
    (hp : o.p = none) (hf : raisesFlags x = false) :
    putOut s x cost t false o = s.setGs t x.f.d.toNat o.v (s.rdy cost) (destN x) := by
  have hq : ¬ 240 ≤ x.f.d.toNat := by omega
  unfold putOut putFlags putDest
  simp only [hp, hf, hu, hq, Bool.false_eq_true, if_false]
  split
  · rename_i h0
    rw [h0]
    rfl
  · rfl

/-- Writing registers moves no thread. -/
theorem pc_setGs (s : State) (t r v rdy n u : Nat) : ((s.setGs t r v rdy n).thread u).pc = (s.thread u).pc := by
  induction n generalizing s r v with
  | zero => rfl
  | succ n ih =>
    rw [State.setGs, ih, State.setG, State.modG, State.thread_modThread]
    split
    · subst_vars
      rfl
    · rfl

/-- A short form that computes a value: its registers D receive the words of the value, and nothing else changes. -/
theorem short_runs {i : Instr} {o : Opc} {f : Short} {fn : Ins → Nat → Nat → Nat → AluOut} {v : Nat} {s : State} {t : Nat}
    (hc : computes i = some fn) (hx : i.ins? = some (Ins.ofBody o (.short f)))
    (hf : raisesFlags (Ins.ofBody o (.short f)) = false) (hu : f.u = false) (ht : Turn s (Ins.ofBody o (.short f)) t)
    (hv : let x := Ins.ofBody o (.short f)
      fn x (fieldNum s false x.f.t t x.shape.a x.f.a) (fieldNum s false x.f.t t x.shape.b x.f.b)
        (fieldNum s false x.f.t t x.shape.c x.f.c) = { v := v }) :
    Runs i s fun s' =>
      (∀ k < destN (Ins.ofBody o (.short f)), (s'.greg t (f.d.toNat + k)).v = BitVec.ofNat 32 (v / 2 ^ (32 * k)) ∧
        (s'.greg t (f.d.toNat + k)).full = true) ∧
      (s'.thread t).pc = (s.thread t).pc + 4 ∧
      Kept s s' (regs t f.d.toNat (destN (Ins.ofBody o (.short f)))) noReg noThread noReg := by
  obtain ⟨-, -, -, hd, -, -, hxu⟩ := short_fields o f
  have hpass := passes_alu (exec_computes hc hx s) (hxu.trans hu) ht
    (gather_short s ((ofBody_o o (.short f)) ▸ computes_opc hc hx) f t) (fun p h => by rw [short_pushOf] at h; cases h)
  dsimp only at hpass
  rw [hxu.trans hu, hv, putOut_register s _ t (hxu.trans hu) (hd ▸ f.d.isLt.trans (by decide)) rfl hf, hd] at hpass
  refine hpass.runs fun s' same pc => ⟨fun k hk => ?_, ?_, ?_⟩
  · rw [same.greg _ _ id]
    exact greg_setGs _ _ _ _ _ _ _ hk
  · rw [pc, pc_setGs]
    rfl
  · exact (kept_setGs ..).trans (same.all ..)

/-! ### Operands of one word -/

theorem bImm_short (o : Opc) (f : Short) (w : Wd) : (Ins.ofBody o (.short f)).bImm w = .src w := by
  have hl : (Ins.ofBody o (.short f)).bLit = none := rfl
  simp [Ins.bImm, hl]

theorem cImm_short (o : Opc) (f : Short) (w : Wd) : (Ins.ofBody o (.short f)).cImm w = .src w := by simp [Ins.cImm]

/-- The number that an operand supplies whose field, if it has one, names a register that holds `v`. -/
def operandNum (k : FK) (v : Word) : Nat :=
  match k with
  | .src _ => v.toNat
  | _ => 0

/-- A field that supplies one word, or is unused. -/
def wordField (t : BitVec 4) : FK → Bool
  | .z => true
  | .src w => w.n t == 1
  | _ => false

theorem fieldNum_word (s : State) {t : BitVec 4} {k : FK} (hk : wordField t k = true) (th : Nat) {v : BitVec 8} {r : Nat}
    (hr : k = .z ∨ v.toNat = r) : fieldNum s false t th k v = operandNum k (s.greg th r).v := by
  cases k with
  | z => rfl
  | src w =>
    obtain rfl := hr.resolve_left nofun
    have hn : w.n t = 1 := by simpa [wordField] using hk
    simp [fieldNum, operandNum, hn, gNum]
  | _ => exact nomatch hk

/-- A short form whose fields have the kinds `A` to `C`, which supply one word each, and that writes one word and no flags. -/
structure WordShape (o : Opc) (f : Short) (A B C : FK) : Prop where
  a : (Ins.ofBody o (.short f)).shape.a = A
  b : (Ins.ofBody o (.short f)).shape.b = B
  c : (Ins.ofBody o (.short f)).shape.c = C
  dest : destN (Ins.ofBody o (.short f)) = 1
  flags : raisesFlags (Ins.ofBody o (.short f)) = false
  words : let t := (Ins.ofBody o (.short f)).f.t
    wordField t A = true ∧ wordField t B = true ∧ wordField t C = true
  third : C = .z ∨ o.shortAcc = true
  registers : o ≠ .movi ∧ o ≠ .xch ∧ o ≠ .bcst

/-- The word that such a form writes. -/
theorem shortWord_of_shape {i : Instr} {o : Opc} {f : Short} {fn : Ins → Nat → Nat → Nat → AluOut} {A B C : FK}
    {g : Word → Word → Word → Word} (hc : computes i = some fn) (hx : i.ins? = some (Ins.ofBody o (.short f)))
    (ho : WordShape o f A B C) (hfn : ∀ a b d : Word,
      ∃ v, fn (Ins.ofBody o (.short f)) (operandNum A a) (operandNum B b) (operandNum C d) = { v := v } ∧
        BitVec.ofNat 32 v = g a b d) : ShortWord i o f g := by
  intro hu s t ht
  obtain ⟨rfl, rfl, rfl, hd, hf, ⟨ha, hb, hcc⟩, hacc, hreg⟩ := ho
  obtain ⟨hra, hrb, hrc⟩ := short_registers hreg f
  obtain ⟨v, hv, hg⟩ := hfn (s.greg t f.a.toNat).v (s.greg t f.b.toNat).v (s.greg t f.d.toNat).v
  rw [← fieldNum_word s ha t (.inr hra), ← fieldNum_word s hb t (.inr hrb),
    ← fieldNum_word s hcc t (hacc.imp id hrc)] at hv
  obtain ⟨s', he, hw, hpc, hk⟩ := short_runs hc hx hf hu ht hv
  rw [hd] at hw hk
  obtain ⟨hv0, hf0⟩ := hw 0 Nat.one_pos
  refine ⟨s', he, ?_, hf0, hpc, hk⟩
  rw [← hg]
  simpa using hv0

/-- The forms of two operands. -/
theorem shape_binary {o : Opc} (ho : o ∈ [Opc.add, .sub, .mul, .mulh, .min, .max, .div, .rem]) (f : Short) :
    ∃ w w', WordShape o f (.src w) (.src w') .z := by
  simp only [List.mem_cons, List.not_mem_nil, or_false] at ho
  obtain rfl | rfl | rfl | rfl | rfl | rfl | rfl | rfl := ho
  all_goals exact ⟨_, _, rfl, bImm_short .., rfl, rfl, rfl, ⟨rfl, rfl, rfl⟩, .inl rfl, by decide⟩

/-- The forms of one operand. -/
theorem shape_unary {o : Opc} (ho : o ∈ [Opc.abs, .neg, .mov]) (f : Short) : ∃ w, WordShape o f (.src w) .z .z := by
  simp only [List.mem_cons, List.not_mem_nil, or_false] at ho
  obtain rfl | rfl | rfl := ho
  all_goals exact ⟨_, rfl, rfl, rfl, rfl, rfl, ⟨rfl, rfl, rfl⟩, .inl rfl, by decide⟩

/-- The forms that accumulate. -/
theorem shape_ternary {o : Opc} (ho : o ∈ [Opc.mad, .dp4]) (f : Short) :
    ∃ w w' w'', WordShape o f (.src w) (.src w') (.src w'') := by
  simp only [List.mem_cons, List.not_mem_nil, or_false] at ho
  obtain rfl | rfl := ho
  all_goals exact ⟨_, _, _, rfl, bImm_short .., cImm_short .., rfl, rfl, ⟨rfl, rfl, rfl⟩, .inr rfl, by decide⟩

/-! ### Functions of signed elements (R117) -/

/-- The signed reading of all bits of a vector. -/
theorem sx_toNat {w : Nat} (hw : 0 < w) (a : BitVec w) : sx w a.toNat = a.toInt := by
  obtain ⟨n, rfl⟩ : ∃ n, w = n + 1 := ⟨w - 1, by omega⟩
  have hp : 2 ^ (n + 1) = 2 * 2 ^ n := by rw [Nat.pow_succ, Nat.mul_comm]
  rw [BitVec.toInt_eq_toNat_cond]
  simp only [sx, Nat.mod_eq_of_lt a.isLt, Nat.add_sub_cancel]
  by_cases h : 2 ^ n ≤ a.toNat
  · rw [if_pos h, if_neg (by omega)]
    push_cast
    rfl
  · rw [if_neg h, if_pos (by omega)]

/-- An integer wrapped to a width. -/
theorem ofNat_emod (w : Nat) (v : Int) : BitVec.ofNat w (v % 2 ^ w).toNat = BitVec.ofInt w v := by
  have hlt : (v % 2 ^ w).toNat < 2 ^ w := by simpa [BitVec.toNat_ofInt] using (BitVec.ofInt w v).isLt
  apply BitVec.eq_of_toNat_eq
  rw [BitVec.toNat_ofInt, BitVec.toNat_ofNat, Nat.mod_eq_of_lt hlt]
  push_cast
  rfl

/-- A function of elements where the operands are one element of 32 bits. -/
theorem ofNat_elemFn {x : Ins} (ht : x.f.t = 0) (hm : x.mb 4 = false) (f : Int → Int → Int → Int) (a b c : Nat) :
    BitVec.ofNat 32 (elemFn f x a b c).v = BitVec.ofInt 32 (f (sx 32 a) (sx 32 b) (sx 32 c)) := by
  rw [← ofNat_emod]
  exact BitVec.eq_of_toNat_eq (by simp [elemFn, ht, hm, elemW, opW, wideT, signedT, onElems, wrapSat, elemInt])

theorem ofInt_natAbs (a : Word) : BitVec.ofInt 32 (a.toInt.natAbs : Int) = if a.slt 0 then -a else a := by
  rw [BitVec.slt, show (0 : Word).toInt = 0 from rfl]
  split
  · rename_i h
    simp only [decide_eq_true_eq] at h
    rw [Int.ofNat_natAbs_of_nonpos h.le, BitVec.ofInt_neg, BitVec.ofInt_toInt]
  · rename_i h
    simp only [decide_eq_true_eq] at h
    rw [Int.natAbs_of_nonneg (by omega), BitVec.ofInt_toInt]

theorem ofInt_min (a b : Word) : BitVec.ofInt 32 (min a.toInt b.toInt) = if a.slt b then a else b := by
  rw [BitVec.slt]
  simp only [decide_eq_true_eq]
  split
  · rw [min_eq_left (by omega), BitVec.ofInt_toInt]
  · rw [min_eq_right (by omega), BitVec.ofInt_toInt]

theorem ofInt_max (a b : Word) : BitVec.ofInt 32 (max a.toInt b.toInt) = if a.slt b then b else a := by
  rw [BitVec.slt]
  simp only [decide_eq_true_eq]
  split
  · rw [max_eq_right (by omega), BitVec.ofInt_toInt]
  · rw [max_eq_left (by omega), BitVec.ofInt_toInt]

theorem ofInt_tdiv (a b : Word) : BitVec.ofInt 32 (a.toInt.tdiv b.toInt) = a.sdiv b := by
  apply BitVec.eq_of_toInt_eq
  rw [BitVec.toInt_ofInt, BitVec.toInt_sdiv]

theorem ofInt_tmod (a b : Word) : BitVec.ofInt 32 (a.toInt.tmod b.toInt) = a.srem b := by
  rw [← BitVec.toInt_srem, BitVec.ofInt_toInt]

theorem signExtend_mul (a b : Word) : a.signExtend 64 * b.signExtend 64 = BitVec.ofInt 64 (a.toInt * b.toInt) := by
  rw [BitVec.ofInt_mul]
  rfl

theorem sx_byte (a : Word) (i : Nat) : sx 8 (a.toNat / 2 ^ (8 * i)) = (a.extractLsb' (8 * i) 8).toInt := by
  rw [← sx_toNat (by decide), BitVec.extractLsb'_toNat, Nat.shiftRight_eq_div_pow]
  simp [sx]

/-! ### The functions -/

/-- A function of elements on words, in a short form. -/
theorem elemFn_words {o : Opc} {f : Short} (ht : (Ins.ofBody o (.short f)).f.t = 0) (g : Int → Int → Int → Int) (a b c : Word) :
    BitVec.ofNat 32 (elemFn g (Ins.ofBody o (.short f)) a.toNat b.toNat c.toNat).v = BitVec.ofInt 32 (g a.toInt b.toInt c.toInt) := by
  rw [ofNat_elemFn ht (mb_short ..), sx_toNat (by decide), sx_toNat (by decide), sx_toNat (by decide)]

theorem shortWord_binary {i : Instr} {o : Opc} {f : Short} {fn : Ins → Nat → Nat → Nat → AluOut} {g : Word → Word → Word}
    (ho : o ∈ [Opc.add, .sub, .mul, .mulh, .min, .max, .div, .rem]) (hc : computes i = some fn)
    (hx : i.ins? = some (Ins.ofBody o (.short f)))
    (hfn : ∀ a b : Word, ∃ v, fn (Ins.ofBody o (.short f)) a.toNat b.toNat 0 = { v := v } ∧ BitVec.ofNat 32 v = g a b) :
    ShortWord i o f (fun a b _ => g a b) := by
  obtain ⟨w, w', hs⟩ := shape_binary ho f
  exact shortWord_of_shape hc hx hs fun a b _ => hfn a b

theorem shortWord_unary {i : Instr} {o : Opc} {f : Short} {fn : Ins → Nat → Nat → Nat → AluOut} {g : Word → Word}
    (ho : o ∈ [Opc.abs, .neg, .mov]) (hc : computes i = some fn) (hx : i.ins? = some (Ins.ofBody o (.short f)))
    (hfn : ∀ a : Word, ∃ v, fn (Ins.ofBody o (.short f)) a.toNat 0 0 = { v := v } ∧ BitVec.ofNat 32 v = g a) :
    ShortWord i o f (fun a _ _ => g a) := by
  obtain ⟨w, hs⟩ := shape_unary ho f
  exact shortWord_of_shape hc hx hs fun a _ _ => hfn a

theorem shortWord_ternary {i : Instr} {o : Opc} {f : Short} {fn : Ins → Nat → Nat → Nat → AluOut} {g : Word → Word → Word → Word}
    (ho : o ∈ [Opc.mad, .dp4]) (hc : computes i = some fn) (hx : i.ins? = some (Ins.ofBody o (.short f)))
    (hfn : ∀ a b d : Word, ∃ v, fn (Ins.ofBody o (.short f)) a.toNat b.toNat d.toNat = { v := v } ∧ BitVec.ofNat 32 v = g a b d) :
    ShortWord i o f g := by
  obtain ⟨w, w', w'', hs⟩ := shape_ternary ho f
  exact shortWord_of_shape hc hx hs hfn

theorem divRem_words (a b : Word) :
    (BitVec.ofNat 32 (divRem true 32 a.toNat b.toNat).1 = if b = 0 then 0xFFFFFFFF else a.sdiv b) ∧
    (BitVec.ofNat 32 (divRem true 32 a.toNat b.toNat).2 = if b = 0 then a else a.srem b) := by
  have hb : b.toInt = 0 ↔ b = 0 := by rw [← BitVec.toInt_inj]; rfl
  have he (v : Word) : elemInt true 32 v.toNat = v.toInt := sx_toNat (by decide) v
  simp only [divRem, he, hb]
  split
  · exact ⟨rfl, BitVec.eq_of_toNat_eq (by simp [a.isLt])⟩
  · split
    · rename_i h
      obtain ⟨-, h1, h2⟩ := h
      have ha : a = BitVec.intMin 32 := BitVec.eq_of_toInt_eq h1
      have hb : b = -1 := BitVec.eq_of_toInt_eq h2
      subst ha hb
      exact ⟨by decide, by decide⟩
    · exact ⟨(ofNat_emod ..).trans (ofInt_tdiv ..), (ofNat_emod ..).trans (ofInt_tmod ..)⟩

theorem prodInt_words {x : Ins} (ht : signedT x.f.t = true) (a b : Word) : prodInt x a.toNat b.toNat = a.toInt * b.toInt := by
  rw [prodInt, ht, ← sx_toNat (by decide), ← sx_toNat (by decide)]
  rfl

theorem mulh_words {x : Ins} (ht : signedT x.f.t = true) (a b : Word) :
    BitVec.ofNat 32 (mulhFn x a.toNat b.toNat 0).v = (a.signExtend 64 * b.signExtend 64).extractLsb' 32 32 := by
  have h : (prodInt x a.toNat b.toNat % 2 ^ 64).toNat = (a.signExtend 64 * b.signExtend 64).toNat := by
    rw [signExtend_mul, prodInt_words ht, BitVec.toNat_ofInt]
    rfl
  apply BitVec.eq_of_toNat_eq
  rw [mulhFn, h, BitVec.extractLsb'_toNat, Nat.shiftRight_eq_div_pow, BitVec.toNat_ofNat]

theorem mulw_words {x : Ins} (ht : signedT x.f.t = true) (a b : Word) :
    BitVec.ofNat 64 (mulwFn x a.toNat b.toNat 0).v = a.signExtend 64 * b.signExtend 64 := by
  rw [mulwFn, ofNat_emod, prodInt_words ht, signExtend_mul]

theorem madw_words {x : Ins} (ht : signedT x.f.t = true) (a b : Word) (d : Dword) :
    BitVec.ofNat 64 (madwFn x a.toNat b.toNat d.toNat).v = a.signExtend 64 * b.signExtend 64 + d := by
  have hd : elemInt (signedT x.f.t) 64 d.toNat = d.toInt := by
    rw [ht, ← sx_toNat (by decide)]
    rfl
  rw [madwFn, ofNat_emod, prodInt_words ht, hd, BitVec.ofInt_add, BitVec.ofInt_toInt, signExtend_mul]

theorem dp4_words (f : Short) (a b d : Word) :
    BitVec.ofNat 32 (dp4Fn (Ins.ofBody .dp4 (.short f)) a.toNat b.toNat d.toNat).v = d +
      (a.extractLsb' 0 8).signExtend 32 * (b.extractLsb' 0 8).signExtend 32 +
      (a.extractLsb' 8 8).signExtend 32 * (b.extractLsb' 8 8).signExtend 32 +
      (a.extractLsb' 16 8).signExtend 32 * (b.extractLsb' 16 8).signExtend 32 +
      (a.extractLsb' 24 8).signExtend 32 * (b.extractLsb' 24 8).signExtend 32 := by
  have ht : (Ins.ofBody .dp4 (.short f)).f.t = 10 := rfl
  have hw (v : Int) : wrapSat false true 32 v = (v % 2 ^ 32).toNat := rfl
  have hd : elemInt true 32 d.toNat = d.toInt := sx_toNat (by decide) d
  have hb (v : Word) (i : Nat) : elemInt true 8 (v.toNat / 2 ^ (8 * i)) = (v.extractLsb' (8 * i) 8).toInt := sx_byte v i
  have hs (v : BitVec 8) : v.signExtend 32 = BitVec.ofInt 32 v.toInt := rfl
  have h10 : ¬(10 : BitVec 4) = 11 := by decide
  simp only [dp4Fn, mb_short, ht, h10, decide_false, if_false, Bool.not_false, Bool.true_or, hw, ofNat_emod, hd, hb, hs,
    BitVec.ofInt_add, BitVec.ofInt_mul, BitVec.ofInt_toInt]

/-- Two words and the number that they hold. -/
theorem words_append (v : Nat) : BitVec.ofNat 32 (v / 2 ^ 32) ++ BitVec.ofNat 32 v = BitVec.ofNat 64 v := by
  apply BitVec.eq_of_toNat_eq
  rw [BitVec.toNat_append, ← Nat.shiftLeft_add_eq_or_of_lt (BitVec.isLt _), Nat.shiftLeft_eq]
  simp only [BitVec.toNat_ofNat]
  omega

theorem gNum_pair (s : State) (t r : Nat) : gNum s t r 2 = (s.gpair t r).toNat := by
  rw [State.gpair, BitVec.toNat_append, ← Nat.shiftLeft_add_eq_or_of_lt (BitVec.isLt _), Nat.shiftLeft_eq]
  simp only [gNum]
  omega

/-- A short form that computes a value of 64 bits. -/
theorem shortPair_of_value {i : Instr} {o : Opc} {f : Short} {fn : Ins → Nat → Nat → Nat → AluOut}
    {g : Word → Word → Dword → Dword} (hc : computes i = some fn) (hx : i.ins? = some (Ins.ofBody o (.short f)))
    (hf : raisesFlags (Ins.ofBody o (.short f)) = false) (hd : destN (Ins.ofBody o (.short f)) = 2)
    (hfn : ∀ s t, let x := Ins.ofBody o (.short f)
      ∃ v, fn x (fieldNum s false x.f.t t x.shape.a x.f.a) (fieldNum s false x.f.t t x.shape.b x.f.b)
          (fieldNum s false x.f.t t x.shape.c x.f.c) = { v := v } ∧
        BitVec.ofNat 64 v = g (s.greg t f.a.toNat).v (s.greg t f.b.toNat).v (s.gpair t f.d.toNat)) : ShortPair i o f g := by
  intro hu s t ht
  obtain ⟨v, hv, hg⟩ := hfn s t
  obtain ⟨s', he, hw, hpc, hk⟩ := short_runs hc hx hf hu ht hv
  rw [hd] at hw hk
  refine ⟨s', he, ?_, hpc, hk⟩
  have h0 : (s'.greg t f.d.toNat).v = BitVec.ofNat 32 v := by simpa using (hw 0 (by decide)).1
  rw [← hg, ← words_append, State.gpair, (hw 1 (by decide)).1, h0]

/-- The operands of the forms that multiply into a pair. -/
theorem pair_operands {o : Opc} (ho : o = .mulw ∨ o = .madw) (f : Short) (s : State) (t : Nat) :
    let x := Ins.ofBody o (.short f)
    fieldNum s false x.f.t t x.shape.a x.f.a = (s.greg t f.a.toNat).v.toNat ∧
    fieldNum s false x.f.t t x.shape.b x.f.b = (s.greg t f.b.toNat).v.toNat ∧
    (o = .madw → fieldNum s false x.f.t t x.shape.c x.f.c = (s.gpair t f.d.toNat).toNat) := by
  obtain ⟨ha, hb, hc⟩ := short_registers (o := o) (by obtain rfl | rfl := ho <;> decide) f
  have hsa : (Ins.ofBody o (.short f)).shape.a = .src .one := by obtain rfl | rfl := ho <;> rfl
  have hsb : (Ins.ofBody o (.short f)).shape.b = .src .one := by obtain rfl | rfl := ho <;> exact bImm_short ..
  refine ⟨?_, ?_, ?_⟩
  · rw [hsa, fieldNum_word s rfl t (.inr ha)]
    rfl
  · rw [hsb, fieldNum_word s rfl t (.inr hb)]
    rfl
  · rintro rfl
    have hsc : (Ins.ofBody .madw (.short f)).shape.c = .src .two := cImm_short ..
    rw [hsc, ← gNum_pair, ← hc rfl]
    rfl

theorem movi_short (f : Short) : ShortWord (.movi f) .movi f fun _ _ _ => (f.b ++ f.a).signExtend 32 := by
  intro hu s t ht
  obtain ⟨s', he, hw, hpc, hk⟩ := short_runs (i := .movi f) (v := ((f.b ++ f.a).signExtend 32).toNat) rfl rfl rfl hu ht rfl
  obtain ⟨hv, hfull⟩ := hw 0 Nat.one_pos
  exact ⟨s', he, by simpa using hv, hfull, hpc, hk⟩

/-- Settles O6: each instruction by its class of operands and by its function on words. -/
theorem shortArithmetic : Obligations.ShortArithmetic := by
  intro f
  refine ⟨?_, ?_, ?_, ?_, ?_, ?_, ?_, ?_, ?_, ?_, ?_, ?_, movi_short f, ?_, ?_, ?_⟩
  · refine shortWord_binary (by decide) rfl rfl fun a b => ⟨_, rfl, (elemFn_words rfl (fun a b _ => a + b) a b 0).trans ?_⟩
    rw [BitVec.ofInt_add, BitVec.ofInt_toInt, BitVec.ofInt_toInt]
  · refine shortWord_binary (by decide) rfl rfl fun a b => ⟨_, rfl, (elemFn_words rfl (fun a b _ => a - b) a b 0).trans ?_⟩
    rw [Int.sub_eq_add_neg, BitVec.ofInt_add, BitVec.ofInt_neg, BitVec.ofInt_toInt, BitVec.ofInt_toInt, BitVec.sub_eq_add_neg]
  · refine shortWord_binary (by decide) rfl rfl fun a b => ⟨_, rfl, (elemFn_words rfl (fun a b _ => a * b) a b 0).trans ?_⟩
    rw [BitVec.ofInt_mul, BitVec.ofInt_toInt, BitVec.ofInt_toInt]
  · exact shortWord_binary (by decide) rfl rfl fun a b => ⟨_, rfl, mulh_words rfl a b⟩
  · refine shortWord_ternary (by decide) rfl rfl fun a b d => ⟨_, rfl, (elemFn_words rfl (fun a b c => a * b + c) a b d).trans ?_⟩
    rw [BitVec.ofInt_add, BitVec.ofInt_mul, BitVec.ofInt_toInt, BitVec.ofInt_toInt, BitVec.ofInt_toInt]
  · exact shortWord_binary (by decide) rfl rfl fun a b =>
      ⟨_, rfl, (elemFn_words rfl (fun a b _ => min a b) a b 0).trans (ofInt_min a b)⟩
  · exact shortWord_binary (by decide) rfl rfl fun a b =>
      ⟨_, rfl, (elemFn_words rfl (fun a b _ => max a b) a b 0).trans (ofInt_max a b)⟩
  · exact shortWord_unary (by decide) rfl rfl fun a =>
      ⟨_, rfl, (elemFn_words rfl (fun a _ _ => (a.natAbs : Int)) a 0 0).trans (ofInt_natAbs a)⟩
  · refine shortWord_unary (by decide) rfl rfl fun a => ⟨_, rfl, (elemFn_words rfl (fun a _ _ => -a) a 0 0).trans ?_⟩
    rw [BitVec.ofInt_neg, BitVec.ofInt_toInt]
  · exact shortWord_binary (by decide) rfl rfl fun a b => ⟨_, rfl, (divRem_words a b).1⟩
  · exact shortWord_binary (by decide) rfl rfl fun a b => ⟨_, rfl, (divRem_words a b).2⟩
  · exact shortWord_unary (by decide) rfl rfl fun a => ⟨_, rfl, by simp⟩
  · refine shortPair_of_value rfl rfl rfl rfl fun s t => ⟨_, rfl, ?_⟩
    obtain ⟨ha, hb, -⟩ := pair_operands (.inl rfl) f s t
    rw [ha, hb]
    exact mulw_words rfl _ _
  · refine shortPair_of_value rfl rfl rfl rfl fun s t => ⟨_, rfl, ?_⟩
    obtain ⟨ha, hb, hc⟩ := pair_operands (.inr rfl) f s t
    rw [ha, hb, hc rfl]
    exact madw_words rfl _ _ _
  · exact shortWord_ternary (by decide) rfl rfl fun a b d => ⟨_, rfl, dp4_words f a b d⟩

end Sys2Proof.Machine
end

