-- ==== Sys2Proof/Proofs/QueuePorts.lean ====
section
/-! PROOFS. The queue ports of a core (O16): MOV from a port, and MOV to one (R98 to R101). -/

namespace Sys2Proof.Machine

/-! ### What MOV names -/

section
variable {f : Long} {k : Nat}

theorem mov_reads (f : Long) : insReads (Ins.ofBody .mov (.long f)) = fieldRefs f.u f.t (.src .byT) f.a (f.fe.getLsbD 0) := by
  have e : insReads (Ins.ofBody .mov (.long f)) = fieldRefs f.u f.t (.src .byT) f.a (f.fe.getLsbD 0) ++ [] ++ [] ++ [] ++ [] := rfl
  simpa using e

theorem mov_pushes (f : Long) :
    pushOf (Ins.ofBody .mov (.long f)) = if !f.u && 240 ≤ f.d.toNat then some (f.d.toNat - 240) else none := rfl

theorem mov_destN (ht : f.t = 15) : destN (Ins.ofBody .mov (.long f)) = 1 := by
  have e : destN (Ins.ofBody .mov (.long f)) = Wd.byT.n f.t := rfl
  rw [e, ht]
  rfl

theorem mov_reads_port (hu : f.u = false) (ha : f.a.toNat = 240 + k) : insReads (Ins.ofBody .mov (.long f)) = [.q k] := by
  simp [mov_reads, fieldRefs, hu, ha]

theorem mov_reads_register (hu : f.u = false) (ht : f.t = 15) (hfe : f.fe = 0) (ha : f.a.toNat < 240) :
    insReads (Ins.ofBody .mov (.long f)) = [.g f.a.toNat false] := by
  have hn : Wd.byT.n f.t = 1 := by rw [ht]; rfl
  have hq : ¬ 240 ≤ f.a.toNat := by omega
  simp [mov_reads, fieldRefs, hu, hq, hfe, hn]

theorem mov_pushes_port (hu : f.u = false) (hd : f.d.toNat = 240 + k) : pushOf (Ins.ofBody .mov (.long f)) = some k := by
  simp [mov_pushes, hu, hd]

theorem mov_pushes_none (hd : f.d.toNat < 240) : pushOf (Ins.ofBody .mov (.long f)) = none := by
  have hq : ¬ 240 ≤ f.d.toNat := by omega
  simp [mov_pushes, hq]

end

/-! ### The operand of MOV -/

/-- The ports of a core are bound to no partner. -/
theorem bindFault_core (s : State) (w : Nat) {k : Nat} (hk : k < 8) (push : Bool) : bindFault s w k push = false := by
  simp [bindFault, hk]

/-- MOV reads its operand A alone. -/
theorem readOperands_mov {f : Long} (hm : f.m = 0) (s : State) (t : Nat) (popped : Bool) :
    let x := Ins.ofBody .mov (.long f)
    let p := takeField s s x t (.src .byT) f.a none
    readOperands s x t popped = { a := p.1, b := 0, c := 0, popped := popped, st := p.2, lackA := lacks s x t (.src .byT) f.a } := by
  have hmb (j : Nat) : (Ins.ofBody .mov (.long f)).mb j = false := by simp [Ins.mb, Ins.ofBody, hm]
  simp only [readOperands, hmb]
  rfl

section
variable {f : Long} {s : State} {t k : Nat} (hu : f.u = false)
include hu

/-- MOV from a port whose head entry may be popped. -/
theorem gather_mov_pop (hm : f.m = 0) (hd : f.d.toNat < 240) (hk : k < 8) (ha : f.a.toNat = 240 + k)
    {e : Word × Nat} {l : List (Word × Nat)} (hp : popable s (t / 32) k = e :: l) :
    gather s (Ins.ofBody .mov (.long f)) t = .vals { a := e.1.toNat, b := 0, c := 0, popped := true, st := popPort s (t / 32) k } := by
  have hx : takeField s s (Ins.ofBody .mov (.long f)) t (.src .byT) f.a none = (e.1.toNat, popPort s (t / 32) k) := by
    have hux : (Ins.ofBody .mov (.long f)).f.u = false := hu
    simp [takeField, hux, ha, hp]
  simp [gather, mov_reads_port hu ha, mov_pushes_none hd, readOperands_mov hm, hx, bindFault_core _ _ hk, shortPort, hp]

/-- MOV from a port without an entry that may be popped. -/
theorem gather_mov_drop (hd : f.d.toNat < 240) (hk : k < 8) (ha : f.a.toNat = 240 + k)
    (hp : popable s (t / 32) k = []) : ∃ v, gather s (Ins.ofBody .mov (.long f)) t = .drop k v := by
  simp [gather, mov_reads_port hu ha, mov_pushes_none hd, bindFault_core _ _ hk, shortPort, hp]

/-- MOV of a register to a port. -/
theorem gather_mov_push (hm : f.m = 0) (ht : f.t = 15) (hfe : f.fe = 0) (ha : f.a.toNat < 240) (hk : k < 8) (hd : f.d.toNat = 240 + k) :
    gather s (Ins.ofBody .mov (.long f)) t =
      .vals { a := (s.greg t f.a.toNat).v.toNat, b := 0, c := 0, popped := false, st := s } := by
  have hx : takeField s s (Ins.ofBody .mov (.long f)) t (.src .byT) f.a none = ((s.greg t f.a.toNat).v.toNat, s) := by
    have hux : (Ins.ofBody .mov (.long f)).f.u = false := hu
    have hn : Wd.byT.n (Ins.ofBody .mov (.long f)).f.t = 1 := mov_destN ht
    have hq : ¬ 240 ≤ f.a.toNat := by omega
    simp [takeField, fieldNum, gNum, hux, hq, hn]
  simp [gather, mov_reads_register hu ht hfe ha, mov_pushes_port hu hd, readOperands_mov hm, hx, bindFault_core _ _ hk, shortPort]

end

/-! ### The entries of a port -/

theorem portEntries_of_cores {s s' : State} (h : s'.cores = s.cores) (w : Nat) {k : Nat} (hk : k < 8) :
    portEntries s' w k = portEntries s w k := by
  simp [portEntries, hk, State.core, h]

/-- A pop changes the ports of its core and nothing else of it. -/
theorem epoch_popPort (s : State) (w : Nat) {k : Nat} (hk : k < 8) (c : Nat) : ((popPort s w k).core c).epoch = (s.core c).epoch := by
  simp only [popPort, setPort, hk, if_true, State.core_modCore]
  split
  · subst_vars
    simp
  · rfl

theorem clk_popPort (s : State) (w k : Nat) : (popPort s w k).clk = s.clk := by
  unfold popPort setPort
  split <;> rfl

theorem portEntries_popPort (s : State) (w : Nat) {k : Nat} (hk : k < 8) :
    portEntries (popPort s w k) w k = (portEntries s w k).drop 1 := by
  simp [popPort, portEntries, setPort, hk]

theorem portEntries_pushPort (s : State) (w : Nat) {k : Nat} (hk : k < 8) (v : Word) :
    portEntries (pushPort s w k v) w k = portEntries s w k ++ [(v, s.clk)] := by
  simp [pushPort, portEntries, setPort, hk]

theorem threads_pushPort (s : State) (w : Nat) {k : Nat} (hk : k < 8) (v : Word) : (pushPort s w k v).threads = s.threads := by
  simp [pushPort, setPort, hk]

/-- What is computed goes to the port of D. -/
theorem putOut_push (s : State) {x : Ins} (cost t : Nat) {v k : Nat} (hu : x.f.u = false) (hd : x.f.d.toNat = 240 + k)
    (hn : destN x ≠ 0) (hf : raisesFlags x = false) :
    putOut s x cost t false { v := v } = pushPort s (t / 32) k (BitVec.ofNat 32 v) := by
  simp [putOut, putFlags, putDest, hf, hu, hd, hn]

/-- What is computed after a pop lands in D 8 clks later (R101): until then D is empty under a new tag. -/
theorem putOut_popped (s : State) {x : Ins} (cost t : Nat) {v : Nat} (hu : x.f.u = false) (hd : x.f.d.toNat < 240)
    (hn : destN x = 1) (hf : raisesFlags x = false) :
    putOut s x cost t true { v := v } = (s.fresh.2.emptyG t x.f.d.toNat s.nextId 1).post 8 (.producerLanding
      ⟨t, x.f.d.toNat, 1, s.nextId, BitVec.ofNat 128 v, (s.core (coreOfThread t)).epoch, 0, none⟩) := by
  have hq : ¬ 240 ≤ x.f.d.toNat := by omega
  unfold putOut putFlags putDest
  simp only [hf, hu, hq, hn, Bool.false_eq_true, if_false, if_true, one_ne_zero]
  rfl

/-- A register that is marked empty has the producer tag. -/
theorem greg_emptyG_one (s : State) (t r tag : Nat) : (s.emptyG t r tag 1).greg t r = { s.greg t r with full := false, tag := tag } := by
  rw [State.emptyG, State.emptyG, greg_modG, if_pos ⟨rfl, rfl⟩]

theorem cores_emptyG (s : State) (t r tag n : Nat) : (s.emptyG t r tag n).cores = s.cores := by
  induction n generalizing s r with
  | zero => rfl
  | succ n ih => exact ih ..

/-- Settles O16: the pop empties D until its entry lands, the push leaves every register, and a drop holds the thread. -/
theorem queuePortsMoveEntries : Obligations.QueuePortsMoveEntries := by
  intro f s t hu ht15 hfe hm x w ht
  have he (s : State) : exec (.movLong f) s = alu movFn x s := rfl
  have hn : destN x = 1 := mov_destN ht15
  have hux : x.f.u = false := hu
  have hthread : exec (.movLong f) s = perThread x (occupancy x) noEnd (aluThread movFn x) s := by
    rw [he, alu, if_neg (by simp [hux])]
  refine ⟨fun k hk ha hd => ⟨fun e l hp => ?_, fun hp => ?_⟩, fun k hk hd ha => ⟨fun hroom => ?_, fun hroom => ?_⟩⟩
  · have hv := gather_mov_pop (t := t) hu hm hd hk ha hp
    have hpass := passes_alu (he s) hux ht hv fun p hpush => by rw [mov_pushes_none hd] at hpush; cases hpush
    have hout : putOut (popPort s w k) x (occupancy x) t true (movFn x e.1.toNat 0 0) = _ :=
      putOut_popped (popPort s w k) (occupancy x) t (x := x) hux hd hn rfl
    dsimp only at hpass
    rw [hout] at hpass
    have hcores := cores_emptyG (popPort s w k).fresh.2 t x.f.d.toNat (popPort s w k).nextId 1
    have hg := greg_emptyG_one (popPort s w k).fresh.2 t x.f.d.toNat (popPort s w k).nextId
    refine ⟨_, hpass, ?_, congrArg GReg.full hg, _, mem_agenda_posted .., ?_, ?_⟩
    · exact (portEntries_of_cores hcores w hk).trans (portEntries_popPort s w hk)
    · exact congrArg (· + 8) (clk_popPort s w k)
    · rw [epoch_popPort s w hk]
      exact congrArg (fun g : GReg => Ev.producerLanding ⟨t, _, 1, g.tag, _, _, 0, none⟩) hg.symm
  · obtain ⟨v, hv⟩ := gather_mov_drop (t := t) hu hd hk ha hp
    exact ⟨_, lands_of_stay ht hthread (by simp only [aluThread, x, hv]), rfl⟩
  · have hv := gather_mov_push (s := s) (t := t) hu hm ht15 hfe ha hk hd
    have hpass := passes_alu (he s) hux ht hv fun p hpush => by rw [mov_pushes_port hu hd] at hpush; cases hpush; exact hroom
    have hout : putOut s x (occupancy x) t false (movFn x (s.greg t f.a.toNat).v.toNat 0 0) = _ :=
      putOut_push s (occupancy x) t (x := x) hux hd (by simp [hn]) rfl
    dsimp only at hpass
    rw [hout] at hpass
    refine ⟨_, hpass, ?_, fun u r => ?_⟩
    · rw [portEntries_pushPort _ _ hk]
      simp [w]
    · rw [State.greg, State.thread, threads_pushPort _ _ hk]
      rfl
  · have hv := gather_mov_push (s := s) (t := t) hu hm ht15 hfe ha hk hd
    refine ⟨_, lands_of_stay ht hthread ?_, rfl⟩
    have hdrop : ((some k).filter fun p => !pushRoom s (t / 32) p) = some k := by simpa [Option.filter] using hroom
    simp only [aluThread, x, hv, mov_pushes_port hu hd, hdrop]

end Sys2Proof.Machine
end

