-- ==== Sys2Proof/Proofs/IndexedMoves.lean ====
section
/-! PROOFS. The moves by index (O27). -/

namespace Sys2Proof.Machine

/-! ### MOVX and MOVXW (R107) -/

section
variable {s : State} {x : Ins} {t : Nat} {v : Vals} (hv : gather s x t = .vals v)
include hv

theorem movxThread_badIndex (h : regsOf s t ≤ v.a) : movxThread x t s = .fault 12 0 0 s := by
  simp only [movxThread, hv, h, if_true]

theorem movxwThread_badIndex (h : regsOf s t ≤ v.a) : movxwThread x t s = .fault 12 0 0 s := by
  simp only [movxwThread, hv, h, if_true]

variable (hi : v.a < regsOf s t)
include hi

theorem movxThread_waits (h : (s.greg t v.a).full = false ∨ s.clk < (s.greg t v.a).rdy) :
    movxThread x t s = .stay (.indexed v.a) s := by
  simp only [movxThread, hv, Nat.not_le.2 hi, if_false]
  rw [if_pos (by simpa using h)]

theorem movxThread_reads (hf : (s.greg t v.a).full = true) (hr : (s.greg t v.a).rdy ≤ s.clk)
    (hroom : ∀ p, pushOf x = some p → pushRoom v.st (t / 32) p = true) :
    movxThread x t s = .ok (putDest v.st x t 1 (s.greg t v.a).v.toNat v.popped (s.rdy 1)) := by
  simp only [movxThread, hv, Nat.not_le.2 hi, if_false, noDrop_of_room hroom]
  rw [if_neg (by simp [hf, hr])]

theorem movxwThread_writes : movxwThread x t s = .ok (v.st.setG t v.a (BitVec.ofNat 32 v.b) (s.rdy 1)) := by
  simp only [movxwThread, hv, Nat.not_le.2 hi, if_false]

end

/-- A result that goes to no port and follows no pop is written to the registers of D. -/
theorem putDest_registers {x : Ins} (s : State) (t n v rdy : Nat) (hu : x.f.u = false) (hd : x.f.d.toNat < 240) :
    putDest s x t n v false rdy = s.setGs t x.f.d.toNat v rdy n := by
  have hq : ¬ 240 ≤ x.f.d.toNat := by omega
  simp [putDest, hu, hq]

/-- Settles O27: the outcomes of the two instructions by their index. -/
theorem indexedMovesReachTheNamedRegister : Obligations.IndexedMovesReachTheNamedRegister := by
  intro i x s t v hx hu ht hv r d
  have hmovx (ho : x.o = .movx) : exec i s = perThread x 1 noEnd (movxThread x) s := by
    rw [exec_ins hx, opMeaning, ho]
    rfl
  have hmovxw (ho : x.o = .movxw) : exec i s = perThread x 1 noEnd (movxwThread x) s := by
    rw [exec_ins hx, opMeaning, ho]
    rfl
  refine ⟨fun ho hr => ?_, fun ho hi => ⟨fun hw => ?_, fun hf hr hroom => ?_⟩, fun ho hi => ?_⟩
  · obtain ho | ho := ho
    · exact traps_of_fault ht (hmovx ho) (movxThread_badIndex hv hr)
    · exact traps_of_fault ht (hmovxw ho) (movxwThread_badIndex hv hr)
  · exact lands_of_stay ht (hmovx ho) (movxThread_waits hv hi hw)
  · refine ⟨_, passes_of_ok ht (hmovx ho) (movxThread_reads hv hi hf hr hroom), fun hp hpop => ?_⟩
    have hn : destN x = 1 := by simp [destN, Ins.shape, ho, Wd.n]
    have hd : x.f.d.toNat < 240 := Nat.not_le.1 (plain_dest hu hp (by simp [hn]))
    rw [gather_state hv hpop (by simp [ho]), hpop, putDest_registers s t 1 _ _ hu hd]
    obtain ⟨hval, hfull⟩ := greg_setGs s t d (s.greg t v.a).v.toNat (s.rdy 1) 1 0 Nat.one_pos
    exact ⟨by simpa using hval, hfull, kept_setGs ..⟩
  · refine ⟨_, passes_of_ok ht (hmovxw ho) (movxwThread_writes hv hi), ?_, ?_, ?_, fun hpop => ?_⟩
    · simp
    · simp
    · rw [greg_setG_same]
      rfl
    · rw [gather_state hv hpop (by simp [ho])]
      exact kept_setG ..

end Sys2Proof.Machine
end

