-- ==== Sys2Proof/Proofs/SpecialRegisters.lean ====
section
/-! PROOFS. The special registers (O28): MOVS and SETS in the two views of Table 5-2. -/

namespace Sys2Proof.Machine

/-! ### The views of a special register (R104, Table 5-2) -/

theorem srPriv_iff (n : Nat) : srPriv n = true ↔ (0x11 ≤ n ∧ n ≤ 0x15) ∨ 0x20 ≤ n := by simp [srPriv]

theorem srReadOnly_iff (n : Nat) (h : Bool) : srReadOnly n h = true ↔ n ≤ 0x0C ∨ n = 0x0F ∧ h = false ∨ n = 0x10 := by
  simp [srReadOnly]
  tauto

/-- The registers that a thread may write in its view. -/
theorem writable {n : Nat} {h : Bool} (hn : n = 0x0D ∨ n = 0x0E ∨ h = true ∧ (n = 0x0F ∨ 0x11 ≤ n)) :
    ¬(srPriv n = true ∧ h = false) ∧ srReadOnly n h = false := by
  rw [← Bool.not_eq_true (srReadOnly n h), srPriv_iff, srReadOnly_iff]
  cases h <;> simp at hn ⊢ <;> omega

theorem readSr_saved (s : State) (t k : Nat) : readSr s t (0x20 + k) = (kvGet 0 (s.warp (t / 32)).xm k).toNat := by
  unfold readSr
  dsimp only
  split
  on_goal -1 => rw [Nat.add_sub_cancel_left]
  all_goals omega

theorem writeSr_saved (s : State) (t k v : Nat) :
    writeSr s t (0x20 + k) v = s.modWarp (t / 32) fun h => { h with xm := kvSet h.xm k (BitVec.ofNat 32 v) } := by
  unfold writeSr
  dsimp only
  split
  on_goal -1 => rw [if_pos (Nat.le_add_right ..), Nat.add_sub_cancel_left]
  all_goals omega

/-! ### The courses of MOVS and SETS -/

section
variable {x : Ins} {s : State} {t n : Nat} (hn : x.ifld 0 8 = n)
include hn

theorem movsThread_hidden (hp : srPriv n = true) (hh : s.inHandler t = false) : movsThread x t s = .fault 2 0 0 s := by
  simp [movsThread, hn, hp, hh]

theorem setsThread_hidden (hp : srPriv n = true) (hh : s.inHandler t = false) : setsThread x t s = .fault 2 0 0 s := by
  simp [setsThread, hn, hp, hh]

variable (hview : ¬(srPriv n = true ∧ s.inHandler t = false))
include hview

theorem movsThread_reads : movsThread x t s = .ok (putDest s x t (destN x) (readSr s t n) false (s.rdy 1)) := by
  simp only [movsThread, hn]
  rw [if_neg (by simpa using hview)]

theorem setsThread_readOnly (hr : srReadOnly n (s.inHandler t) = true) : setsThread x t s = .fault 1 0 0 s := by
  simp only [setsThread, hn]
  rw [if_neg (by simpa using hview), if_pos hr]

theorem setsThread_writes (hr : srReadOnly n (s.inHandler t) = false) {v : Vals} (hv : gather s x t = .vals v) :
    setsThread x t s = .ok (writeSr s t n v.a) := by
  simp only [setsThread, hn, hv]
  rw [if_neg (by simpa using hview), if_neg (by simp [hr])]

end

/-! ### What a write of a special register leaves -/

/-- A write of $fstat. -/
theorem kept_fstat (s : State) (t : Nat) (v : Word) (r : Nat → Nat) :
    Kept s (s.modThread t fun h => { h with fstat := v, frdy := r h.frdy }) noReg noReg (fun u => u = t) noReg := by
  refine ⟨fun u r _ => ?_, fun u k _ => ?_, fun u hu => ?_, fun u => ?_, fun _ _ _ => rfl, fun _ => rfl, fun _ => rfl, rfl⟩
  · unfold State.greg
    rw [State.thread_modThread]
    split
    · subst_vars
      rfl
    · rfl
  · unfold State.pred
    rw [State.thread_modThread]
    split
    · subst_vars
      rfl
    · rfl
  · rw [State.thread_modThread, if_neg hu]
  · rw [State.thread_modThread]
    split
    · subst_vars
      rfl
    · rfl

theorem wreg_modWarp (s : State) (k : Nat) (f : Warp → Warp) (h : (f (s.warp k)).w = (s.warp k).w) (w r : Nat) :
    (s.modWarp k f).wreg w r = s.wreg w r := by
  unfold State.wreg
  rw [State.warp_modWarp]
  split
  · subst_vars
    rw [h]
  · rfl

theorem writeSr_registers (s : State) (t n v : Nat) :
    (∀ u r, (writeSr s t n v).greg u r = s.greg u r) ∧ ∀ w r, (writeSr s t n v).wreg w r = s.wreg w r := by
  unfold writeSr
  dsimp only
  split
  · have hk := kept_fstat s t (fstatMask (BitVec.ofNat 32 v)) fun m => max m (s.rdy 1)
    exact ⟨fun u r => hk.greg u r id, fun w r => hk.wreg w r id⟩
  · exact ⟨fun _ _ => rfl, fun _ _ => rfl⟩
  · exact ⟨fun _ _ => rfl, fun _ _ => rfl⟩
  · exact ⟨fun _ _ => rfl, fun _ _ => rfl⟩
  · exact ⟨fun _ _ => rfl, wreg_modWarp _ _ _ rfl⟩
  · exact ⟨fun _ _ => rfl, wreg_modWarp _ _ _ rfl⟩
  · exact ⟨fun _ _ => rfl, wreg_modWarp _ _ _ rfl⟩
  · split
    · exact ⟨fun _ _ => rfl, wreg_modWarp _ _ _ rfl⟩
    · exact ⟨fun _ _ => rfl, fun _ _ => rfl⟩

/-- Settles O28: the view decides between the faults and the access; the access is a read or a write of one field. -/
theorem specialRegistersReadAndWrite : Obligations.SpecialRegistersReadAndWrite := by
  intro f s t hu n c h w
  have hmovs : (Ins.ofBody .movs (.long f)).ifld 0 8 = n := rfl
  have hsets : (Ins.ofBody .sets (.long f)).ifld 0 8 = n := rfl
  clear_value n
  simp only [← srPriv_iff]
  refine ⟨fun ht hd => ⟨fun hp hh => ?_, fun hview => ?_⟩, fun m val hm => ?_, fun k _ => readSr_saved s t k,
    fun ht => ⟨fun hp hh => ?_, fun hr => ?_, fun v hn hv => ?_⟩⟩
  · exact traps_of_fault ht rfl (movsThread_hidden hmovs hp hh)
  · have hput (m v : Nat) := putDest_registers (x := Ins.ofBody .movs (.long f)) s t m v (s.rdy 1) hu hd
    refine ⟨_, passes_of_ok ht rfl (movsThread_reads hmovs hview), fun k hk => ?_, ?_⟩
    · rw [hput]
      exact greg_setGs _ _ _ _ _ _ _ hk
    · rw [hput]
      exact kept_setGs ..
  · simp only [List.mem_cons, List.not_mem_nil, or_false, Prod.mk.injEq] at hm
    obtain ⟨rfl, rfl⟩ | ⟨rfl, rfl⟩ | ⟨rfl, rfl⟩ | ⟨rfl, rfl⟩ | ⟨rfl, rfl⟩ | ⟨rfl, rfl⟩ | ⟨rfl, rfl⟩ | ⟨rfl, rfl⟩ | ⟨rfl, rfl⟩ | ⟨rfl, rfl⟩ |
      ⟨rfl, rfl⟩ | ⟨rfl, rfl⟩ | ⟨rfl, rfl⟩ | ⟨rfl, rfl⟩ | ⟨rfl, rfl⟩ | ⟨rfl, rfl⟩ | ⟨rfl, rfl⟩ | ⟨rfl, rfl⟩ | ⟨rfl, rfl⟩ := hm
    all_goals rfl
  · exact traps_of_fault ht rfl (setsThread_hidden hsets hp hh)
  · refine traps_of_fault ht rfl (setsThread_readOnly hsets ?_ ((srReadOnly_iff n _).2 hr))
    rw [srPriv_iff]
    omega
  · obtain ⟨hview, hr⟩ := writable hn
    obtain ⟨hg, hw⟩ := writeSr_registers s t n v.a
    refine ⟨_, passes_of_ok ht rfl (setsThread_writes hsets hview hr hv), hg, hw, ?_, ?_, ?_, ?_, ?_, ?_, ?_⟩
    · rintro rfl
      exact ⟨congrArg Thread.fstat (State.thread_modThread_same ..), kept_fstat s t _ fun m => max m (s.rdy 1)⟩
    · rintro rfl
      exact congrArg Core.remstat (State.core_modCore_same ..)
    · rintro rfl h hc
      have hcore := State.core_modCore_same s c fun k => { k with cohort := k.cohort.map fun h => { h with prio := v.a % 4 } }
      rw [hc] at hcore
      exact congrArg (fun k : Core => (k.cohort.getD {}).prio) hcore
    · rintro rfl
      exact congrArg Warp.xpc (State.warp_modWarp_same ..)
    · rintro rfl
      exact congrArg Warp.xaddr (State.warp_modWarp_same ..)
    · rintro rfl
      exact congrArg Warp.xdone (State.warp_modWarp_same ..)
    · rintro k - rfl
      rw [writeSr_saved, State.warp_modWarp_same, kvGet_kvSet_same]

end Sys2Proof.Machine
end

