-- ==== Sys2Proof/Proofs/FullEmptyBits.lean ====
section
/-! PROOFS. The uniform form of PLOP writes no predicate (O29 fails): the statement asks the predicate of it that R111 gives to the form
of one thread, and does not leave out the bit U (R38), which R111 has no use for. -/

namespace Sys2Proof.Machine

theorem plop_reads (f : Long) : insReads (Ins.ofBody .plop (.long f)) = [.p f.a.toNat, .p f.b.toNat, .p f.c.toNat] := rfl

/-- PLOP with the bit U completes as every uniform form does (O9), which writes no predicate. -/
theorem plop_uniform_pred {f : Long} {s s' : State} {ps : List Nat} (hu : f.u = true) (hm : f.m = 0)
    (hw : Whole s (Ins.ofBody .plop (.long f)) ps) (h : exec (.plop f) s = .next s') (u k : Nat) : s'.pred u k = s.pred u k := by
  have hmb (j : Nat) : (Ins.ofBody .plop (.long f)).mb j = false := by simp [Ins.mb, Ins.ofBody, hm]
  have hv := gather_plain (s := s) (x := Ins.ofBody .plop (.long f)) (t := ps.headD 0) (by simp [plop_reads]) rfl (by simp [plop_reads])
    rfl (hmb 7) (hmb 6) ⟨nofun, nofun⟩
  obtain ⟨s1, ⟨s2, hrun, hsame, -⟩, -, -, hkept⟩ := uniformFormsComplete (.plop f) plopFn _ s ps _ rfl rfl hu hw hv
  obtain rfl : s2 = s' := Host.Outcome.next.inj (hrun.symm.trans h)
  rw [hsame.pred _ _ id, hkept.pred _ _ id]

/-- PLOP with the bit U, to p0, of a table that is true for every selection. -/
def plopUniform : Long := { Long.zero 7 with u := true, imm := 0xFF }

/-- A machine whose lane 0 has begun a run of thread 0 (Machine/Sched.lean). -/
def plopState : State := State.reset.withFetchWord 96 0

theorem plopState_whole : Whole plopState (Ins.ofBody .plop (.long plopUniform)) [0] where
  run := ⟨_, rfl, rfl⟩
  some := nofun
  once := by simp
  warp := by simp
  alive := by simp only [List.mem_singleton]; rintro u rfl; decide
  guard := by simp only [List.mem_singleton]; rintro u rfl; decide

theorem plopState_turn : Turn plopState (Ins.ofBody .plop (.long plopUniform)) 0 :=
  ⟨⟨_, [], rfl, rfl, rfl, List.not_mem_nil⟩, by decide, by decide⟩

/-- Refutes O29: PLOP with the bit U leaves p0 false where its table says true. -/
theorem not_fullEmptyBitsAndSlots : ¬ Obligations.FullEmptyBitsAndSlots := by
  intro h
  obtain ⟨-, -, hplop, -⟩ := h plopUniform plopState
  obtain ⟨s1, ⟨s', hrun, hsame, -⟩, hpred, -⟩ := hplop 0 plopState_turn
  have hs : s'.pred 0 0 = false := (plop_uniform_pred rfl rfl plopState_whole hrun 0 0).trans (by decide)
  have h1 : s1.pred 0 0 = true := (hpred (by decide)).trans (by decide)
  rw [hsame.pred 0 0 id, h1] at hs
  cases hs

end Sys2Proof.Machine
end

