-- ==== Sys2Proof/Proofs/HandlerInstructions.lean ====
section
/-! PROOFS. The instructions of a handler (O52). -/

namespace Sys2Proof.Machine

/-- What a sub-run whose threads all perform does where its instruction ends the run. -/
theorem perSubrun_last {s s1 : State} {x : Ins} {ps : List Nat} {cost : Nat → Nat} {endf : EndFn} {body : List Nat → State → TOut}
    (h : Whole s x ps) (hb : body ps s = .last s1) : ∃ r, perSubrun x cost endf body s = .next (closeRun s1 r (s1.clk + 1)) := by
  obtain ⟨r, hr, hps⟩ := h.run
  obtain ⟨t, more, rfl⟩ : ∃ t more, ps = t :: more := List.exists_cons_of_ne_nil h.some
  have ha := h.alive t List.mem_cons_self
  have hg := h.guard t List.mem_cons_self
  have hw : ∀ u ∈ t :: more, u / 32 = t / 32 := h.warp
  have hmine : ((t :: more).filter fun u => decide (u / 32 = t / 32)) = t :: more :=
    List.filter_eq_self.2 fun u hu => by simpa using hw u hu
  have hps' : ((t :: more).filter fun u => s.alive u && guardTrue s x u) = t :: more :=
    List.filter_eq_self.2 fun u hu => by simp [h.alive u hu, h.guard u hu]
  have hno : ((t :: more).filter fun u => s.alive u && !guardTrue s x u) = [] :=
    List.filter_eq_nil_iff.2 fun u hu => by simp [h.guard u hu]
  refine ⟨{ atWarp r t with walk := none }, ?_⟩
  unfold perSubrun
  simp only [hr, drainRun, hps, List.headD_cons, drainSub_turn more ha hg, ne_eq, not_true_eq_false, and_false, if_false,
    hmine, hps', hno, List.foldl_nil, hb]

/-- The threads of a sub-run are in their handler together. -/
theorem Whole.inHandler {s : State} {x : Ins} {ps : List Nat} (h : Whole s x ps) {u : Nat} (hu : u ∈ ps) :
    s.inHandler u = s.inHandler (ps.headD 0) := by
  rw [State.inHandler, State.inHandler, h.warp u hu]

/-- The body of an instruction of the privileged view. -/
def svBody (body : List Nat → State → TOut) (ps : List Nat) (s : State) : TOut :=
  if ps.any fun t => !s.inHandler t then .fault 2 0 0 s else body ps s

theorem svSub_eq (x : Ins) (body : List Nat → State → TOut) (s : State) :
    svSub x body s = perSubrun x id noEnd (svBody body) s := rfl

section
variable {s : State} {x : Ins} {ps : List Nat} (hw : Whole s x ps) (body : List Nat → State → TOut)
include hw

theorem svBody_outside (hh : s.inHandler (ps.headD 0) = false) : svBody body ps s = .fault 2 0 0 s := by
  obtain ⟨t, more, rfl⟩ : ∃ t more, ps = t :: more := List.exists_cons_of_ne_nil hw.some
  exact if_pos (List.any_eq_true.2 ⟨t, List.mem_cons_self, by simpa using hh⟩)

theorem svBody_inside (hh : s.inHandler (ps.headD 0) = true) : svBody body ps s = body ps s := by
  refine if_neg ?_
  simp only [List.any_eq_true, Bool.not_eq_true', not_exists, not_and, Bool.not_eq_false]
  exact fun u hu => (hw.inHandler hu).trans hh

end

/-- The body of HALT ends the context of its core, with a record. -/
theorem exec_halt (f : Long) : ∃ body : List Nat → State → TOut,
    (∀ s, exec (.halt f) s = svSub (Ins.ofBody .halt (.long f)) body s) ∧
    ∀ ps s, ∃ record, body ps s = .last (endContext s (s.asidOf (coreOfThread (ps.headD 0))) record) := by
  refine ⟨?_, fun s => ?_, fun ps s => ?_⟩
  rotate_left
  · unfold exec execHalt halt
    rfl
  · exact ⟨_, rfl⟩

theorem exec_handlerIns {f : Long} {o : Opc} {i : Instr}
    (hi : o = .atci ∧ i = .atci f ∨ o = .ctxs ∧ i = .ctxs f ∨ o = .ctxr ∧ i = .ctxr f ∨ o = .halt ∧ i = .halt f) :
    ∃ body, ∀ s, exec i s = svSub (Ins.ofBody o (.long f)) body s := by
  obtain ⟨rfl, rfl⟩ | ⟨rfl, rfl⟩ | ⟨rfl, rfl⟩ | ⟨rfl, rfl⟩ := hi
  · exact ⟨_, fun _ => rfl⟩
  · exact ⟨_, fun _ => rfl⟩
  · exact ⟨_, fun _ => rfl⟩
  · obtain ⟨body, he, -⟩ := exec_halt f
    exact ⟨body, he⟩

/-- Settles O52: the sub-run raises PV before its body, and the body of HALT ends the context. -/
theorem handlerInstructionsArePrivileged : Obligations.HandlerInstructionsArePrivileged := by
  intro f o i s ps hi t hw
  refine ⟨fun hh => ?_, fun hh ho => ?_⟩
  · obtain ⟨body, he⟩ := exec_handlerIns hi
    exact traps_of_subFault hw ((he s).trans (svSub_eq ..)) (svBody_outside hw body hh)
  · obtain rfl : i = .halt f := by simpa [ho] using hi
    subst ho
    obtain ⟨body, he, hbody⟩ := exec_halt f
    obtain ⟨record, hlast⟩ := hbody ps s
    obtain ⟨r, hr⟩ := perSubrun_last (cost := id) (endf := noEnd) hw ((svBody_inside hw body hh).trans hlast)
    exact ⟨_, (he s).trans hr, fun p hp => endContext_ended s _ _ hp, fun u k => greg_of_seats (seats_endContext ..) u k,
      congrArg (·.1) (memories_endContext ..)⟩

end Sys2Proof.Machine
end

