-- ==== Sys2Proof/Proofs/CoreEvents.lean ====
section
/-! PROOFS. The happenings of a core (O55): sleep expiry, landings, L1 expiry and trap entry; and the state after reset (O11). -/

namespace Sys2Proof.Machine

/-- A happening whose effect meets a condition. -/
theorem happens_of_effect {e : Ev} {s : State} {post : State → Prop} (h : post (e.effect { s with ev := none })) :
    Happens e.instr e s post := fun he => ⟨_, exec_happening he, h⟩

theorem happens_of_eq {e : Ev} {s s' : State} {post : State → Prop} (h : e.effect { s with ev := none } = s') (hp : post s') :
    Happens e.instr e s post := happens_of_effect (h ▸ hp)

/-! ### Sleep expiry (R415) -/

/-- The hold that a sleep expiry ends. -/
theorem evSleepExpiry_over {s : State} {t till : Nat} (hs : (s.thread t).hold = .sleep till) (h : till ≤ s.clk) :
    evSleepExpiry s t = s.release t 12 := by
  simp [evSleepExpiry, State.releaseWhere, hs, h]

theorem evSleepExpiry_early {s : State} {t till : Nat} (hs : (s.thread t).hold = .sleep till) (hh : (s.warp (t / 32)).handler = none)
    (h : s.clk < till) : evSleepExpiry s t = s := by
  simp [evSleepExpiry, State.releaseWhere, State.holdWhere, hs, hh, Nat.not_le.2 h]

theorem greg_release (s : State) (t n u r : Nat) : (s.release t n).greg u r = s.greg u r := by
  unfold State.greg State.release
  rw [State.thread_modThread]
  split
  · subst_vars; rfl
  · rfl

/-! ### Landings (R95, R400) -/

/-- The step of a landing at one register. -/
theorem landG_succ (s : State) (t r tag v n : Nat) : s.landG t r tag v (n + 1) =
    (if (s.greg t r).tag = tag && !(s.greg t r).full && tag ≠ 0
      then s.modG t r fun g => g.write s.clk (BitVec.ofNat 32 v) s.clk else s).landG t (r + 1) tag (v / 2 ^ 32) n := rfl

theorem greg_landG_outside {t r n u k : Nat} (h : ¬regs t r n u k) (s : State) (tag v : Nat) :
    (s.landG t r tag v n).greg u k = s.greg u k := by
  induction n generalizing s r v with
  | zero => rfl
  | succ n ih =>
    rw [landG_succ, ih fun hu => h ⟨hu.1, by have := hu.2.1; omega, by have := hu.2.2; omega⟩]
    split
    · exact (greg_modG ..).trans (if_neg fun hu => h ⟨hu.1, by omega, by omega⟩)
    · rfl

/-- A register of a landing takes its word where it is empty under the landing's tag. -/
theorem greg_landG {n k : Nat} (h : k < n) (s : State) (t r tag v : Nat) : (s.landG t r tag v n).greg t (r + k) =
    if (s.greg t (r + k)).tag = tag && !(s.greg t (r + k)).full && tag ≠ 0
    then (s.greg t (r + k)).write s.clk (BitVec.ofNat 32 (v / 2 ^ (32 * k))) s.clk else s.greg t (r + k) := by
  induction n generalizing s r v k with
  | zero => omega
  | succ n ih =>
    rw [landG_succ]
    cases k with
    | zero =>
      rw [greg_landG_outside fun hu => by have := hu.2.1; omega, Nat.add_zero, Nat.mul_zero, Nat.pow_zero, Nat.div_one]
      split
      · exact (greg_modG ..).trans (if_pos ⟨rfl, rfl⟩)
      · rfl
    | succ k =>
      have hs : ∀ c : Prop, [Decidable c] → ∀ f,
          (if c then s.modG t r f else s).greg t (r + 1 + k) = s.greg t (r + 1 + k) ∧ (if c then s.modG t r f else s).clk = s.clk := by
        intro c _ f
        split
        · exact ⟨(greg_modG ..).trans (if_neg fun hu => by have := hu.2; omega), rfl⟩
        · exact ⟨rfl, rfl⟩
      rw [Nat.add_comm k 1, ← Nat.add_assoc, ih (Nat.lt_of_succ_lt_succ h), (hs _ _).1, (hs _ _).2, Nat.div_div_eq_div_mul, ← Nat.pow_add,
        Nat.mul_add, Nat.mul_one]

section
variable {s : State} {l : Landing}

/-- The registers of a landing in the epoch of its core. -/
theorem greg_landRegs (he : (s.core (coreOfThread l.thread)).epoch = l.epoch) {k : Nat} (hk : k < l.n)
    (ht : (s.greg l.thread (l.reg + k)).tag = l.tag) (hf : (s.greg l.thread (l.reg + k)).full = false) (h0 : l.tag ≠ 0) :
    (landRegs s l).greg l.thread (l.reg + k) =
      (s.greg l.thread (l.reg + k)).write s.clk (BitVec.ofNat 32 (l.value.toNat / 2 ^ (32 * k))) s.clk := by
  rw [landRegs, if_pos he, greg_landG hk]
  simp [ht, hf, h0]

/-- A register that no longer waits for the landing keeps its contents. -/
theorem greg_landRegs_late {k : Nat} (hk : k < l.n) (h : (s.core (coreOfThread l.thread)).epoch ≠ l.epoch ∨
    (s.greg l.thread (l.reg + k)).tag ≠ l.tag ∨ (s.greg l.thread (l.reg + k)).full = true) :
    (landRegs s l).greg l.thread (l.reg + k) = s.greg l.thread (l.reg + k) := by
  rw [landRegs]
  split
  next he =>
    rw [greg_landG hk, if_neg]
    obtain h | h | h := h
    · exact absurd he h
    · simp [h]
    · simp [h]
  · rfl

theorem greg_landRegs_outside {u r : Nat} (h : ¬regs l.thread l.reg l.n u r) : (landRegs s l).greg u r = s.greg u r := by
  rw [landRegs]
  split
  · exact greg_landG_outside h ..
  · rfl

theorem mem_landRegs (s : State) (l : Landing) : (landRegs s l).mem = s.mem := by
  rw [landRegs]
  split
  · exact congrArg (·.1) (memories_landG ..)
  · rfl

theorem evProducerLanding_alone (h : l.req = 0) : evProducerLanding s l = landRegs s l := by
  rw [evProducerLanding, if_pos h]

end

/-! ### L1 expiry and trap entry (R214, R387) -/

/-- The sectors that an expiry leaves in the cache of its core. -/
theorem l1_evL1SectorExpiry (s : State) (c k : Nat) :
    ((evL1SectorExpiry s c k).core c).l1 = (s.core c).l1.filter fun e => e.1 ≠ k ∨ s.clk < e.2.fill + 4096 := by
  rw [evL1SectorExpiry, State.core_modCore_same]
  refine List.filter_congr fun e _ => ?_
  rw [Bool.eq_iff_iff]
  simp only [Bool.not_eq_true', Bool.and_eq_false_iff, decide_eq_false_iff_not, decide_eq_true_eq, not_le, ne_eq]

section
variable {s : State} {w : Nat} {i : TrapInfo} (hw : w % 512 < s.warpCount (coreOfWarp w)) (hg : (s.warp w).gone = false)
include hw hg

theorem evTrapEntry_free (hi : i.cause ≠ 35) (hr : (s.lane (laneOfWarp w)).run = none) (hh : (s.warp w).handler = none) :
    evTrapEntry s w i = takeTrap s w i s.clk := by
  simp [evTrapEntry, Nat.not_le.2 hw, hg, hi, hr, hh]

theorem evTrapEntry_busy (h : (s.lane (laneOfWarp w)).run.isSome = true ∨ (s.warp w).handler.isSome = true) :
    evTrapEntry s w i = s.post 1 (.trapEntry w i) := by
  rw [evTrapEntry, if_neg (by simp [Nat.not_le.2 hw, hg]), if_pos (or_assoc.1 (.inl h))]

end

/-- Settles O55: the effect of each happening on the state on which it stands no more. -/
theorem coreEventsActOnTheirThread : Obligations.CoreEventsActOnTheirThread := by
  refine ⟨fun t till s hs hh => ?_, fun l s hl => ?_, fun c k s => ?_, fun w i s hw hg hi => ?_⟩
  · obtain h | h := le_or_gt till s.clk
    · refine happens_of_eq (e := .sleepExpiry t) (evSleepExpiry_over (s := { s with ev := none }) hs h)
        ⟨fun _ => ⟨?_, ?_, fun u hu => ?_⟩, fun hc => absurd h (Nat.not_le.2 hc), greg_release _ t 12, rfl⟩
      · exact congrArg Thread.hold (State.thread_modThread_same ..)
      · exact congrArg Thread.pc (State.thread_modThread_same ..)
      · exact (State.thread_modThread ..).trans (if_neg hu)
    · exact happens_of_eq (e := .sleepExpiry t) (evSleepExpiry_early (s := { s with ev := none }) hs hh h)
        ⟨fun hc => absurd hc (Nat.not_le.2 h), fun _ => rfl, fun _ _ => rfl, rfl⟩
  · refine happens_of_eq (e := .producerLanding l) (evProducerLanding_alone (s := { s with ev := none }) hl)
      ⟨fun k hk => ⟨fun he ht hf h0 => ?_, greg_landRegs_late (s := { s with ev := none }) hk⟩,
        fun u r => greg_landRegs_outside, mem_landRegs ..⟩
    rw [greg_landRegs (s := { s with ev := none }) he hk ht hf h0]
    exact ⟨rfl, rfl⟩
  · exact happens_of_effect (e := .l1SectorExpiry c k)
      ⟨l1_evL1SectorExpiry .., fun d hd => (State.core_modCore ..).trans (if_neg hd), rfl, rfl⟩
  · refine happens_of_effect (e := .trapEntry w i) ⟨evTrapEntry_free (s := { s with ev := none }) hw hg hi, fun h => ?_⟩
    have hb : Ev.effect (.trapEntry w i) { s with ev := none } = _ := evTrapEntry_busy (s := { s with ev := none }) hw hg h
    rw [hb]
    exact ⟨rfl, mem_agenda_posted ..⟩

/-! ### Reset -/

/-- Settles O11: nothing is listed after reset, and every part reads as its default. -/
theorem resetLeavesTheStatedValues : Obligations.ResetLeavesTheStatedValues := by
  refine ⟨rfl, rfl, rfl, fun t r => ⟨rfl, rfl⟩, fun w r => rfl, fun t => rfl, fun w => ⟨rfl, rfl, rfl, rfl⟩, fun c => ⟨rfl, rfl⟩,
    fun d => ⟨rfl, rfl, rfl, rfl, rfl, rfl, rfl, rfl⟩, fun p => ⟨rfl, rfl, rfl, rfl, rfl, rfl⟩⟩

end Sys2Proof.Machine
end

