-- ==== Sys2Proof/Proofs/ShortLogic.lean ====
section
/-! PROOFS. The logical, shift and bit instructions in their short forms (O7): their fields, and their functions of numbers as
operations of bit vectors. -/

namespace Sys2Proof.Machine

/-! ### The forms -/

/-- The word that a logical instruction or a shift of two operands writes. -/
theorem shortWord_logic {i : Instr} {o : Opc} {f : Short} {fn : Ins → Nat → Nat → Nat → AluOut} {g : Word → Word → Word}
    (ho : o ∈ [Opc.and, .or, .xor, .andn, .shl, .shr, .sra, .rotl]) (hc : computes i = some fn)
    (hx : i.ins? = some (Ins.ofBody o (.short f)))
    (hfn : ∀ a b : Word, ∃ v, fn (Ins.ofBody o (.short f)) a.toNat b.toNat 0 = { v := v } ∧ BitVec.ofNat 32 v = g a b) :
    ShortWord i o f (fun a b _ => g a b) := by
  have hs : ∃ w w', WordShape o f (.src w) (.src w') .z := by
    simp only [List.mem_cons, List.not_mem_nil, or_false] at ho
    obtain rfl | rfl | rfl | rfl | rfl | rfl | rfl | rfl := ho
    all_goals exact ⟨_, _, rfl, bImm_short .., rfl, rfl, rfl, ⟨rfl, rfl, rfl⟩, .inl rfl, by decide⟩
  obtain ⟨w, w', hs⟩ := hs
  exact shortWord_of_shape hc hx hs fun a b _ => hfn a b

/-- The word that NOT or a bit instruction writes. -/
theorem shortWord_bits {i : Instr} {o : Opc} {f : Short} {fn : Ins → Nat → Nat → Nat → AluOut} {g : Word → Word}
    (ho : o ∈ [Opc.not, .popc, .clz, .ctz, .brev]) (hc : computes i = some fn)
    (hx : i.ins? = some (Ins.ofBody o (.short f)))
    (hfn : ∀ a : Word, ∃ v, fn (Ins.ofBody o (.short f)) a.toNat 0 0 = { v := v } ∧ BitVec.ofNat 32 v = g a) :
    ShortWord i o f (fun a _ _ => g a) := by
  have hs : ∃ w, WordShape o f (.src w) .z .z := by
    simp only [List.mem_cons, List.not_mem_nil, or_false] at ho
    obtain rfl | rfl | rfl | rfl | rfl := ho
    all_goals exact ⟨_, rfl, rfl, rfl, rfl, rfl, ⟨rfl, rfl, rfl⟩, .inl rfl, by decide⟩
  obtain ⟨w, hs⟩ := hs
  exact shortWord_of_shape hc hx hs fun a _ _ => hfn a

/-! ### Logic and shifts (R121, R122) -/

/-- A word from its value as a number. -/
theorem ofNat_of_toNat {w v : Nat} {r : BitVec w} (h : r.toNat = v) : BitVec.ofNat w v = r := by
  rw [← h, BitVec.ofNat_toNat, BitVec.setWidth_eq]

/-- The complement of R121 as a number. -/
theorem toNat_compl (b : Word) : (~~~ b).toNat = 2 ^ 32 - 1 - b.toNat % 2 ^ 32 := by
  rw [BitVec.toNat_not, Nat.mod_eq_of_lt b.isLt]

theorem toNat_andn (a b : Word) : (a &&& ~~~ b).toNat = a.toNat &&& (2 ^ 32 - 1 - b.toNat % 2 ^ 32) := by
  rw [BitVec.toNat_and, toNat_compl]

theorem toNat_shl (a : Word) (n : Nat) : (a <<< n).toNat = a.toNat * 2 ^ n % 2 ^ 32 := by
  rw [BitVec.toNat_shiftLeft, Nat.shiftLeft_eq]

theorem toNat_shr (a : Word) (n : Nat) : (a >>> n).toNat = a.toNat / 2 ^ n := by
  rw [BitVec.toNat_ushiftRight, Nat.shiftRight_eq_div_pow]

theorem ofNat_sra (a : Word) (n : Nat) : BitVec.ofNat 32 (sx 32 a.toNat / 2 ^ n % 2 ^ 32).toNat = a.sshiftRight n := by
  rw [ofNat_emod, sx_toNat (by decide), BitVec.sshiftRight, Int.shiftRight_eq_div_pow]
  norm_cast

/-- A rotation by a count below the width. -/
theorem toNat_rotl (a : Word) {n : Nat} (hn : n < 32) :
    (a.rotateLeft n).toNat = a.toNat * 2 ^ n % 2 ^ 32 ||| a.toNat / 2 ^ (32 - n) := by
  rw [BitVec.toNat_rotateLeft, Nat.mod_eq_of_lt hn, Nat.shiftLeft_eq, Nat.shiftRight_eq_div_pow]

/-! ### Counts and the reversal (R123) -/

/-- POPC counts the positions of the set bits. -/
theorem popN_eq_length (a n : Nat) : popN a n = ((List.range n).filter a.testBit).length := by
  induction n with
  | zero => rfl
  | succ n ih =>
    rw [popN, ih, List.range_succ, List.filter_append, List.length_append, Nat.add_comm]
    cases h : a.testBit n <;> simp [h]

/-- CLZ counts, from the highest bit on, the positions up to the first set bit. -/
theorem clzN_eq_length {a n : Nat} {p : Nat → Bool} (hp : ∀ k < n, p k = !a.testBit (n - 1 - k)) :
    clzN a n = ((List.range n).takeWhile p).length := by
  induction n generalizing p with
  | zero => rfl
  | succ n ih =>
    have hp0 : p 0 = !a.testBit n := hp 0 n.succ_pos
    have htail : clzN a n = ((List.range n).takeWhile (p ∘ Nat.succ)).length := ih fun k hk => by
      rw [Function.comp_apply, hp _ (Nat.succ_lt_succ hk)]
      congr 2
      omega
    rw [clzN, htail, List.range_succ_eq_map, List.takeWhile_cons, hp0]
    cases a.testBit n
    · simp [List.takeWhile_map, Nat.add_comm]
    · rfl

theorem revN_lt (a n : Nat) : revN a n < 2 ^ n := by
  induction n generalizing a with
  | zero => exact Nat.one_pos
  | succ n ih =>
    have hb : (a.testBit 0).toNat * 2 ^ n ≤ 1 * 2 ^ n := Nat.mul_le_mul_right _ (Bool.toNat_le _)
    have ht := ih (a / 2)
    rw [revN, Nat.pow_succ]
    omega

/-- Bit `i` of the reversal of `n` bits is bit `n - 1 - i`. -/
theorem testBit_revN {n i : Nat} (a : Nat) (hi : i < n) : (revN a n).testBit i = a.testBit (n - 1 - i) := by
  induction n generalizing a with
  | zero => exact absurd hi (Nat.not_lt_zero i)
  | succ n ih =>
    rw [revN, Nat.mul_comm, Nat.testBit_two_pow_mul_add _ (revN_lt _ n)]
    split
    · rename_i hlt
      have hpos : n + 1 - 1 - i = n - 1 - i + 1 := by omega
      rw [ih _ hlt, hpos, Nat.testBit_succ]
    · have hin : i = n := by omega
      subst hin
      rw [Nat.add_sub_cancel, Nat.sub_self]
      cases a.testBit 0 <;> rfl

theorem ofNat_revN (a : Word) : BitVec.ofNat 32 (revN a.toNat 32) = a.reverse := by
  refine BitVec.eq_of_getLsbD_eq fun i hi => ?_
  rw [BitVec.getLsbD_ofNat, testBit_revN _ hi, BitVec.getLsbD_reverse, BitVec.getMsbD_eq_getLsbD, BitVec.testBit_toNat]

/-- CTZ counts, from bit 0 on, the positions up to the first set bit. -/
theorem clzN_revN (a : Word) :
    clzN (revN a.toNat 32) 32 = ((List.range 32).takeWhile fun k => !a.getLsbD k).length :=
  clzN_eq_length fun k hk => by
    have hlt : 32 - 1 - k < 32 := by omega
    have hk' : 32 - 1 - (32 - 1 - k) = k := by omega
    rw [testBit_revN _ hlt, hk', BitVec.testBit_toNat]

/-! ### The obligation -/

/-- Settles O7: each instruction by its form, and its function on words as the operation of bit vectors. -/
theorem shortLogicAndBits : Obligations.ShortLogicAndBits := by
  have hcount (b : Word) : b.toNat % 32 < 32 := Nat.mod_lt _ (by decide)
  intro f
  refine ⟨?_, ?_, ?_, ?_, ?_, ?_, ?_, ?_, ?_, ?_, ?_, ?_, ?_⟩
  · exact shortWord_logic (by decide) rfl rfl fun a b => ⟨_, rfl, ofNat_of_toNat (BitVec.toNat_and a b)⟩
  · exact shortWord_logic (by decide) rfl rfl fun a b => ⟨_, rfl, ofNat_of_toNat (BitVec.toNat_or a b)⟩
  · exact shortWord_logic (by decide) rfl rfl fun a b => ⟨_, rfl, ofNat_of_toNat (BitVec.toNat_xor a b)⟩
  · exact shortWord_logic (by decide) rfl rfl fun a b => ⟨_, rfl, ofNat_of_toNat (toNat_andn a b)⟩
  · exact shortWord_bits (by decide) rfl rfl fun a => ⟨_, rfl, ofNat_of_toNat (toNat_compl a)⟩
  · exact shortWord_logic (by decide) rfl rfl fun a b => ⟨_, rfl, ofNat_of_toNat (toNat_shl a _)⟩
  · exact shortWord_logic (by decide) rfl rfl fun a b => ⟨_, rfl, ofNat_of_toNat (toNat_shr a _)⟩
  · exact shortWord_logic (by decide) rfl rfl fun a b => ⟨_, rfl, ofNat_sra a _⟩
  · exact shortWord_logic (by decide) rfl rfl fun a b => ⟨_, rfl, ofNat_of_toNat (toNat_rotl a (hcount b))⟩
  · exact shortWord_bits (by decide) rfl rfl fun a => ⟨_, rfl, congrArg _ (popN_eq_length a.toNat 32)⟩
  · exact shortWord_bits (by decide) rfl rfl fun a => ⟨_, rfl, congrArg _ (clzN_eq_length fun _ _ => rfl)⟩
  · exact shortWord_bits (by decide) rfl rfl fun a => ⟨_, rfl, congrArg _ (clzN_revN a)⟩
  · exact shortWord_bits (by decide) rfl rfl fun a => ⟨_, rfl, ofNat_revN a⟩

end Sys2Proof.Machine
end

