-- ==== Sys2Proof/Proofs/Masks.lean ====
section
/-! PROOFS. EXIT, the mask instructions and WAITM (O20, O21, O22): the effect of the one thread of a run, and then the release
checks at the end of the run on what it made of the masks and the waits. -/

namespace Sys2Proof.Machine

/-! ### What leaves all but masks -/

section
variable {s s1 s' : State} {w : Nat} {ms : List Nat}

theorem Kept.maskOnly {P : Nat → Nat → Prop} {F : Nat → Prop} (h : Kept s s' noReg P F noReg) (w : Nat) (ms : List Nat) :
    MaskOnly s s' w ms :=
  ⟨fun u r => h.greg u r id, fun v r => h.wreg v r id, fun v m _ => h.mask v m, h.mem, h.cellar⟩

theorem MaskOnly.trans (a : MaskOnly s s1 w ms) (b : MaskOnly s1 s' w ms) : MaskOnly s s' w ms :=
  ⟨fun u r => (b.greg u r).trans (a.greg u r), fun v r => (b.wreg v r).trans (a.wreg v r),
   fun v m h => (b.mask v m h).trans (a.mask v m h), b.mem.trans a.mem, b.cellar.trans a.cellar⟩

theorem maskOnly_setMask (s : State) (w : Nat) {m : Nat} (v : Word) (hm : m ∈ ms) : MaskOnly s (s.setMask w m v) w ms where
  greg _ _ := rfl
  wreg u r := by
    unfold State.setMask State.wreg
    rw [State.warp_modWarp]
    split
    next h => rw [h]
    next => rfl
  mask u k h := by
    rw [mask_setMask, if_neg]
    rintro ⟨rfl, rfl⟩
    exact h.elim (fun h => h rfl) (fun h => h hm)
  mem := rfl
  cellar := rfl

/-! ### The release checks at the end of a run (R173) -/

/-- `s'` is the end of the run after a thread has made `s1` of the state: the release checks on the masks `ms` of the warp `w`, and
nothing else but lanes and counters. -/
def ChecksOn (s1 s' : State) (w : Nat) (ms : List Nat) : Prop :=
  ∃ a, Same s1 a ∧ (∀ u, a.thread u = s1.thread u) ∧ Same (releaseChecks a w ms) s' ∧
    ∀ u, s'.thread u = (releaseChecks a w ms).thread u

/-- The only thread of a run performs, and the release checks follow. -/
theorem runs_checksOn {i : Instr} {x : Ins} {t : Nat} {body : Nat → State → TOut} (h : Alone s x t)
    (e : exec i s = perThread x 1 (fun s w _ _ => releaseChecks s w ms) body s)
    (hb : (∃ s0, body t s = .ok s0 ∧ s1 = s0.advance t x.size) ∨ body t s = .jump s1 ∨ body t s = .held s1) :
    Runs i s fun s' => ChecksOn s1 s' (t / 32) ms := by
  obtain ⟨r, -, -, -, -, -, ok, set⟩ := perThread_alone h 1 (fun s w _ _ => releaseChecks s w ms) body
  have hend : ∀ n, ChecksOn s1 (closeRun (releaseChecks (afterAlone s1 r t) (t / 32) ms) (r.after t) n) (t / 32) ms := fun n =>
    ⟨_, kept_afterAlone .., thread_afterAlone s1 r t, kept_closeRun .., fun _ => rfl⟩
  obtain ⟨s0, hb, rfl⟩ | hb := hb
  · exact ⟨_, e.trans (ok s0 hb), hend _⟩
  · exact ⟨_, e.trans (set s1 hb), hend _⟩

theorem ChecksOn.mask (h : ChecksOn s1 s' w ms) (hn : ms.Nodup) (v m : Nat) :
    s'.mask v m = if v = w ∧ m ∈ ms then checked s1 w m (s1.mask w m) else s1.mask v m := by
  obtain ⟨a, hsame, hthread, hend, -⟩ := h
  rw [hend.mask, releaseChecks, (releaseChecks_foldl w ms a hn).1, hsame.mask, hsame.mask,
    checked_congr s1 a w m _ fun k => by rw [hthread]]

/-- A thread that waits at none of the masks is left as it is. -/
theorem ChecksOn.thread (h : ChecksOn s1 s' w ms) (hn : ms.Nodup) {k : Nat}
    (hk : ∀ m ∈ ms, (s1.thread (threadOf w k)).hold ≠ .mask m) : s'.thread (threadOf w k) = s1.thread (threadOf w k) := by
  obtain ⟨a, -, hthread, -, hend⟩ := h
  rw [hend, releaseChecks, (releaseChecks_foldl w ms a hn).2.1 k fun m hm => by rw [hthread]; exact hk m hm, hthread]

theorem ChecksOn.exited (h : ChecksOn s1 s' w ms) (hn : ms.Nodup) (u : Nat) : (s'.thread u).exited = (s1.thread u).exited := by
  obtain ⟨a, -, hthread, -, hend⟩ := h
  rw [hend, releaseChecks, (releaseChecks_foldl w ms a hn).2.2.2.2.2.2 u, hthread]

theorem ChecksOn.maskOnly (h : ChecksOn s1 s' w ms) (hn : ms.Nodup) : MaskOnly s1 s' w ms := by
  have hmask := h.mask hn
  obtain ⟨a, hsame, -, hend, -⟩ := h
  obtain ⟨-, -, hg, hw, hm, hc, -⟩ := releaseChecks_foldl w ms a hn
  refine ⟨fun u r => ?_, fun v r => ?_, fun v m hvm => ?_, ?_, ?_⟩
  · rw [hend.greg u r id, releaseChecks, hg, hsame.greg u r id]
  · rw [hend.wreg v r id, releaseChecks, hw, hsame.wreg v r id]
  · rw [hmask, if_neg (by tauto)]
  · rw [hend.mem, releaseChecks, hm, hsame.mem]
  · rw [hend.cellar, releaseChecks, hc, hsame.cellar]

end

theorem threadOf_self (t : Nat) : threadOf (t / 32) (t % 32) = t := Nat.div_add_mod ..

/-- The only thread of a run changes masks of its warp and passes; each mask is then as its release check leaves it. -/
theorem runs_masks {i : Instr} {x : Ins} {s s0 : State} {t : Nat} {ms : List Nat} {body : Nat → State → TOut} (h : Alone s x t)
    (e : exec i s = perThread x 1 (fun s w _ _ => releaseChecks s w ms) body s) (hb : body t s = .ok s0) (hn : ms.Nodup)
    (hm : MaskOnly s s0 (t / 32) ms) (ht : ∀ u, s0.thread u = s.thread u) : Runs i s fun s' =>
      (∀ m ∈ ms, s'.mask (t / 32) m = checked s (t / 32) m (s0.mask (t / 32) m)) ∧ MaskOnly s s' (t / 32) ms ∧
      s'.thread t = (s0.advance t x.size).thread t := by
  obtain ⟨s', he, hc⟩ := runs_checksOn h e (.inl ⟨s0, hb, rfl⟩)
  have hold : ∀ u, ((s0.advance t x.size).thread u).hold = (s.thread u).hold := fun u => by
    by_cases hu : u = t
    · rw [hu, thread_advance_hold, ht]
    · rw [thread_advance_ne _ hu, ht]
  refine ⟨s', he, fun m hmem => ?_, hm.trans (((kept_advance ..).maskOnly ..).trans (hc.maskOnly hn)), ?_⟩
  · rw [hc.mask hn, if_pos ⟨rfl, hmem⟩, (kept_advance ..).mask, checked_congr s _ _ _ _ fun k => hold _]
  · have hfree := hc.thread hn (k := t % 32) fun m _ => by
      rw [threadOf_self, hold, h.free]
      exact Hold.noConfusion
    rwa [threadOf_self] at hfree

/-! ### EXIT (R168) -/

/-- A value of a keyed collection after a change of all values that leaves the default. -/
theorem kvGet_map_same {α : Type} {d : α} (f : α → α) (hd : f d = d) (l : KV α) (k : Nat) :
    kvGet d (l.map fun e => (e.1, f e.2)) k = f (kvGet d l k) := by
  induction l with
  | nil => exact hd.symm
  | cons e r ih =>
    simp only [List.map_cons, kvGet]
    split
    · rfl
    · split
      · exact hd.symm
      · exact ih

/-- The thread and the warp that an exit leaves, apart from what it puts on the agenda. -/
def exitSeats (s : State) (t : Nat) : State :=
  (s.modThread t fun h => { h with exited := true, hold := .none, acq := [], g := h.g.map fun e => (e.1, { e.2 with tag := 0 }) }).modWarp
    (t / 32) fun h => { h with m := h.m.map fun e => (e.1, e.2 &&& ~~~ slotBit (t % 32)) }

theorem seats_exitThread (s : State) (t later : Nat) : (exitThread s t later).seats = (exitSeats s t).seats := by
  simp [exitThread, exitSeats]

theorem mask_exitThread (s : State) (t later m : Nat) :
    (exitThread s t later).mask (t / 32) m = s.mask (t / 32) m &&& ~~~ slotBit (t % 32) := by
  rw [State.mask, warp_of_seats (seats_exitThread ..), exitSeats, State.warp_modWarp_same]
  exact kvGet_map_same (fun v => v &&& ~~~ slotBit (t % 32)) BitVec.zero_and _ m

theorem exited_exitThread (s : State) (t later : Nat) : ((exitThread s t later).thread t).exited = true := by
  rw [thread_of_seats (seats_exitThread ..), exitSeats, State.modWarp_thread, State.thread_modThread_same]

theorem greg_exitThread (s : State) (t later u r : Nat) : ((exitThread s t later).greg u r).v = (s.greg u r).v := by
  rw [State.greg, thread_of_seats (seats_exitThread ..), exitSeats, State.modWarp_thread, State.thread_modThread]
  split
  next h =>
    rw [h]
    exact (congrArg GReg.v (kvGet_map_same (fun g : GReg => { g with tag := 0 }) rfl _ r)).trans rfl
  next => rfl

theorem wreg_exitThread (s : State) (t later w r : Nat) : (exitThread s t later).wreg w r = s.wreg w r := by
  rw [wreg_of_seats (seats_exitThread ..), exitSeats]
  exact wreg_modWarp _ _ _ rfl w r

/-- Bit `j` of the mask of one slot. -/
theorem getLsbD_slotBit (k : Nat) {j : Nat} (hj : j < 32) : (slotBit k).getLsbD j = decide (k = j) := by
  rw [slotBit, BitVec.getLsbD_ofNat, Nat.testBit_two_pow, decide_eq_true hj, Bool.true_and]

/-- A release check adds no member. -/
theorem getLsbD_checked {s : State} {w m k : Nat} {v : Word} (h : v.getLsbD k = false) : (checked s w m v).getLsbD k = false := by
  unfold checked
  split
  · exact BitVec.getLsbD_zero
  · exact h

/-- Settles O20: the exit takes the thread out of its masks, and the release checks add no member. -/
theorem exitEndsTheThread : Obligations.ExitEndsTheThread := by
  intro f s t x h hh
  have hb : (if s.inHandler t then TOut.fault 1 0 0 s else .jump (exitThread s t (laterInRun x s t))) = .jump _ :=
    if_neg (Bool.eq_false_iff.1 hh)
  have he : exec (.exit f) s = perThread x 1 (fun s w _ _ => releaseChecks s w (List.range 12))
    (fun t s => if s.inHandler t then .fault 1 0 0 s else .jump (exitThread s t (laterInRun x s t))) s := rfl
  obtain ⟨s', hrun, hc⟩ := runs_checksOn h he (.inr (.inl hb))
  have hn : (List.range 12).Nodup := List.nodup_range
  have hkeep := hc.maskOnly hn
  have hmem : (exitThread s t (laterInRun x s t)).mem = s.mem := congrArg Prod.fst (memories_exitThread ..)
  refine ⟨s', hrun, (hc.exited hn t).trans (exited_exitThread ..), fun m hm => ?_, fun u r => ?_, fun w r => ?_, hkeep.mem.trans hmem⟩
  · have hbit : (slotBit (t % 32)).getLsbD (t % 32) = true := by
      rw [getLsbD_slotBit _ (Nat.mod_lt t (by decide)), decide_eq_true rfl]
    rw [hc.mask hn, if_pos ⟨rfl, List.mem_range.2 hm⟩, mask_exitThread]
    exact getLsbD_checked (by simp [hbit])
  · rw [hkeep.greg, greg_exitThread]
  · rw [hkeep.wreg, wreg_exitThread]

/-! ### JOIN, LEAVE, MSET and MGET (R171, R172) -/

/-- LEAVE's writes of several masks of a warp. -/
theorem mask_foldl_setMask (w : Nat) (c : Word) (l : List Nat) (s : State) (hn : l.Nodup) (v k : Nat) :
    (l.foldl (fun s m => s.setMask w m (s.mask w m &&& c)) s).mask v k = if v = w ∧ k ∈ l then s.mask w k &&& c else s.mask v k := by
  induction l generalizing s with
  | nil => simp
  | cons m l ih =>
    obtain ⟨hm, hn⟩ := List.nodup_cons.1 hn
    rw [List.foldl_cons, ih _ hn, mask_setMask, mask_setMask]
    by_cases hk : k = m
    · subst hk
      simp [hm]
    · simp [hk]

theorem maskOnly_foldl_setMask (w : Nat) (c : Word) {ms : List Nat} (l : List Nat) (s : State) (hl : l ⊆ ms) :
    MaskOnly s (l.foldl (fun s m => s.setMask w m (s.mask w m &&& c)) s) w ms := by
  induction l generalizing s with
  | nil => exact (Kept.refl s noReg noReg noThread noReg).maskOnly w ms
  | cons m l ih =>
    exact (maskOnly_setMask s w _ (hl List.mem_cons_self)).trans (ih _ fun _ h => hl (List.mem_cons_of_mem _ h))

theorem thread_foldl_setMask (w : Nat) (c : Word) (l : List Nat) (s : State) (u : Nat) :
    (l.foldl (fun s m => s.setMask w m (s.mask w m &&& c)) s).thread u = s.thread u := by
  induction l generalizing s with
  | nil => rfl
  | cons m l ih => exact ih _

/-- The only thread of a run is the first of its sub-run. -/
theorem Alone.firstOfSub {s : State} {x : Ins} {t : Nat} (h : Alone s x t) : firstOfSub s t = true := by
  obtain ⟨r, hr, -, -, -, hd, -⟩ := h.run
  simp [Machine.firstOfSub, hr, hd]

/-- The only thread of a run writes one mask of its warp and passes. -/
theorem runs_setMask {i : Instr} {x : Ins} {s : State} {t m : Nat} {v : Word} {body : Nat → State → TOut} (h : Alone s x t)
    (e : exec i s = perThread x 1 (fun s w _ _ => releaseCheck s w m) body s) (hb : body t s = .ok (s.setMask (t / 32) m v)) :
    Runs i s fun s' => s'.mask (t / 32) m = checked s (t / 32) m v ∧ MaskOnly s s' (t / 32) [m] ∧
      (s'.thread t).pc = (s.thread t).pc + BitVec.ofNat 64 x.size := by
  obtain ⟨s', hrun, hmask, honly, hself⟩ := runs_masks (ms := [m]) h e hb (List.nodup_singleton m)
    (maskOnly_setMask s _ v List.mem_cons_self) fun _ => rfl
  refine ⟨s', hrun, ?_, honly, ?_⟩
  · rw [hmask m List.mem_cons_self, mask_setMask, if_pos ⟨rfl, rfl⟩]
  · rw [hself]
    exact thread_advance_pc ..

theorem runs_leave {f : Long} {s : State} {t : Nat} (h : Alone s (Ins.ofBody .leave (.long f)) t) : Runs (.leave f) s fun s' =>
    (∀ m < 12, f.imm.getLsbD m = true → s'.mask (t / 32) m = checked s (t / 32) m (s.mask (t / 32) m &&& ~~~ slotBit (t % 32))) ∧
    MaskOnly s s' (t / 32) ((List.range 12).filter fun m => f.imm.getLsbD m) ∧ (s'.thread t).pc = (s.thread t).pc + 12 := by
  have hn : ((List.range 12).filter fun m => f.imm.getLsbD m).Nodup := List.nodup_range.filter _
  obtain ⟨s', hrun, hmask, honly, hself⟩ := runs_masks (i := .leave f) h rfl (by rfl) hn
    (maskOnly_foldl_setMask (t / 32) (~~~ slotBit (t % 32)) _ s (List.Subset.refl _)) fun u => thread_foldl_setMask _ _ _ s u
  refine ⟨s', hrun, fun m hm hi => ?_, honly, ?_⟩
  · have hmem : m ∈ (List.range 12).filter fun m => f.imm.getLsbD m := List.mem_filter.2 ⟨List.mem_range.2 hm, hi⟩
    rw [hmask m hmem, mask_foldl_setMask _ _ _ _ hn, if_pos ⟨rfl, hmem⟩]
  · rw [hself, thread_advance_pc, thread_foldl_setMask]
    rfl

/-- Settles O21: each instruction is one write of its masks, followed by their release checks. -/
theorem maskInstructionsChangeMembership : Obligations.MaskInstructionsChangeMembership := by
  intro f s t w bit
  refine ⟨fun h => ?_, runs_leave, fun h => ?_, fun ps h => ?_⟩
  · exact runs_setMask h (show join (Ins.ofBody .join (.long f)) s = _ from rfl) (by rfl)
  · refine runs_setMask h (show mset (Ins.ofBody .mset (.long f)) s = _ from rfl) ?_
    refine congrArg (fun o => TOut.ok (s.setMask w f.d.toNat (if s.pred t f.a.toNat then o ||| bit else o))) ?_
    have hm : (Ins.ofBody .mset (.long f)).mb 0 = f.m.getLsbD 0 := rfl
    rw [h.firstOfSub, hm]
    cases f.m.getLsbD 0 <;> rfl
  · refine ⟨_, passesAll_of_ok h (show mget (Ins.ofBody .mget (.long f)) s = _ from rfl) rfl, ?_, kept_setW ..⟩
    exact (wreg_setW ..).trans (if_pos ⟨rfl, rfl⟩)

/-! ### WAITM (R173) -/

/-- A member is left waiting where another member does not wait. -/
theorem thread_releaseCheck_member {s : State} {w m k : Nat} (hk : (s.mask w m).getLsbD k = true)
    (h : ¬ ∀ j ∈ maskSlots (s.mask w m), (s.thread (threadOf w j)).hold = .mask m) :
    (releaseCheck s w m).thread (threadOf w k) = s.thread (threadOf w k) := by
  have hn : ((heldAt s w m).filter fun k => !(s.mask w m).getLsbD k).Nodup := (List.nodup_range.filter _).filter _
  unfold releaseCheck
  simp only [allHeld_iff]
  rw [if_neg fun c => h c.2, thread_releases _ _ _ _ hn, if_neg]
  simp [hk]

/-- A thread that is no member passes. -/
theorem waitm_passes {f : Long} {s : State} {t : Nat} (h : Alone s (Ins.ofBody .waitm (.long f)) t)
    (hm : (s.mask (t / 32) f.a.toNat).getLsbD (t % 32) = false) : Runs (.waitm f) s fun s' =>
      MaskOnly s s' (t / 32) [f.a.toNat] ∧ (s'.thread t).pc = (s.thread t).pc + 12 ∧ (s'.thread t).hold = .none := by
  obtain ⟨s', hrun, -, honly, hself⟩ := runs_masks (i := .waitm f) (ms := [f.a.toNat]) h rfl (if_neg (Bool.eq_false_iff.1 hm))
    (List.nodup_singleton _) ((Kept.refl s noReg noReg noThread noReg).maskOnly ..) fun _ => rfl
  refine ⟨s', hrun, honly, ?_, ?_⟩
  · rw [hself]
    exact thread_advance_pc ..
  · rw [hself, thread_advance_hold, h.free]

/-- A member waits, and its mask is checked. -/
theorem waitm_holds {f : Long} {s : State} {t : Nat} (h : Alone s (Ins.ofBody .waitm (.long f)) t)
    (hm : (s.mask (t / 32) f.a.toNat).getLsbD (t % 32) = true) : Runs (.waitm f) s fun s' =>
      ChecksOn (s.hold t (.mask f.a.toNat)) s' (t / 32) [f.a.toNat] :=
  runs_checksOn h rfl (.inr (.inr (if_pos hm)))

section
variable {s : State} {t m : Nat}

/-- With the thread that now waits, all members wait where all others did. -/
theorem members_hold_iff (s : State) (t m : Nat) :
    (∀ j ∈ maskSlots (s.mask (t / 32) m), ((s.hold t (.mask m)).thread (threadOf (t / 32) j)).hold = .mask m) ↔
    ∀ k < 32, k ≠ t % 32 → (s.mask (t / 32) m).getLsbD k = true → (s.thread (threadOf (t / 32) k)).hold = .mask m := by
  have hother : ∀ k, k ≠ t % 32 → (s.hold t (.mask m)).thread (threadOf (t / 32) k) = s.thread (threadOf (t / 32) k) := fun k hk => by
    rw [State.hold, State.thread_modThread, if_neg]
    rw [threadOf]
    omega
  constructor
  · intro h k hk hne hmem
    rw [← hother k hne]
    exact h k ((mem_maskSlots ..).2 ⟨hk, hmem⟩)
  · intro h k hk
    obtain ⟨hlt, hmem⟩ := (mem_maskSlots ..).1 hk
    by_cases hne : k = t % 32
    · rw [hne, threadOf_self, State.hold, State.thread_modThread_same]
    · rw [hother k hne]
      exact h k hlt hne hmem

theorem pc_hold (s : State) (t u : Nat) (h : Hold) : ((s.hold t h).thread u).pc = (s.thread u).pc := by
  rw [State.hold, State.thread_modThread]
  split
  next hu => rw [hu]
  next => rfl

variable {s' : State} (hc : ChecksOn (s.hold t (.mask m)) s' (t / 32) [m])
include hc

/-- The last member to wait empties the mask, and all members go on. -/
theorem ChecksOn.released (hm : (s.mask (t / 32) m).getLsbD (t % 32) = true)
    (hall : ∀ j ∈ maskSlots (s.mask (t / 32) m), ((s.hold t (.mask m)).thread (threadOf (t / 32) j)).hold = .mask m) :
    s'.mask (t / 32) m = 0 ∧ ∀ k < 32, (s.mask (t / 32) m).getLsbD k = true → (s'.thread (threadOf (t / 32) k)).hold = .none ∧
      (s'.thread (threadOf (t / 32) k)).pc = (s.thread (threadOf (t / 32) k)).pc + 12 := by
  have h0 : s.mask (t / 32) m ≠ 0 := fun h => by simp [h] at hm
  constructor
  · rw [hc.mask (List.nodup_singleton m), if_pos ⟨rfl, List.mem_cons_self⟩, (kept_hold ..).mask]
    exact if_pos ⟨h0, hall⟩
  · obtain ⟨a, hsame, hthread, -, hend⟩ := hc
    have hmask : a.mask (t / 32) m = s.mask (t / 32) m := (hsame.mask ..).trans ((kept_hold ..).mask ..)
    intro k hk hmem
    rw [hend, ← pc_hold s t _ (.mask m), ← hthread]
    refine thread_releaseCheck_all a (t / 32) m k (by rwa [hmask]) (fun j hj => ?_) ?_
    · rw [hthread]
      exact hall j (by rwa [hmask] at hj)
    · rw [hmask]
      exact (mem_maskSlots ..).2 ⟨hk, hmem⟩

/-- Where another member does not wait, the mask stays and the thread waits. -/
theorem ChecksOn.waits (hm : (s.mask (t / 32) m).getLsbD (t % 32) = true)
    (hnot : ¬ ∀ j ∈ maskSlots (s.mask (t / 32) m), ((s.hold t (.mask m)).thread (threadOf (t / 32) j)).hold = .mask m) :
    s'.mask (t / 32) m = s.mask (t / 32) m ∧ s'.thread t = (s.hold t (.mask m)).thread t := by
  constructor
  · rw [hc.mask (List.nodup_singleton m), if_pos ⟨rfl, List.mem_cons_self⟩, (kept_hold ..).mask]
    exact if_neg fun h => hnot h.2
  · obtain ⟨a, hsame, hthread, -, hend⟩ := hc
    have hmask : a.mask (t / 32) m = s.mask (t / 32) m := (hsame.mask ..).trans ((kept_hold ..).mask ..)
    have hstay := thread_releaseCheck_member (s := a) (w := t / 32) (m := m) (k := t % 32) (by rwa [hmask])
      (by simpa only [hmask, hthread] using hnot)
    rw [threadOf_self] at hstay
    rw [hend, ← hthread]
    exact hstay

end

/-- Settles O22: the thread that is no member passes, the last member releases all, any other member waits. -/
theorem waitmHoldsUntilAllMembersWait : Obligations.WaitmHoldsUntilAllMembersWait := by
  intro f s t x w m h
  cases hm : (s.mask w m).getLsbD (t % 32) with
  | false =>
    obtain ⟨s', hrun, honly, hpass⟩ := waitm_passes h hm
    exact ⟨s', hrun, honly, fun _ => hpass, nofun⟩
  | true =>
    obtain ⟨s', hrun, hc⟩ := waitm_holds h hm
    refine ⟨s', hrun, ((kept_hold ..).maskOnly ..).trans (hc.maskOnly (List.nodup_singleton m)), nofun, fun _ => ?_⟩
    rw [← members_hold_iff s t m]
    refine ⟨hc.released hm, fun hnot => ?_⟩
    obtain ⟨hmask, hself⟩ := hc.waits hm hnot
    rw [hself, pc_hold, State.hold, State.thread_modThread_same]
    exact ⟨hmask, rfl, rfl⟩

end Sys2Proof.Machine
end

