-- ==== Sys2Proof/Proofs/Exchanges.lean ====
section
/-! PROOFS. The exchanges of values (O30), the scans and the reductions (O31) of a pass: what the threads of a pass write one
after another, where an exchange takes its value, and the sums and the extreme values of a list. -/

namespace Sys2Proof.Machine

/-! ### What the threads of a pass write -/

/-- What each step establishes for its own thread, and no step for another one breaks, holds after all steps for every thread of the
pass. -/
theorem foldl_zipIdx_each {f : State → Nat × Nat → State} {Q : State → Prop} {u : Nat} (hown : ∀ s n, Q (f s (u, n)))
    (hother : ∀ s p, p.1 ≠ u → Q s → Q (f s p)) {ps : List Nat} (hu : u ∈ ps) (n : Nat) (s : State) :
    Q ((ps.zipIdx n).foldl f s) := by
  have hkeep : ∀ (l : List Nat) (n : Nat) (s : State), Q s → Q ((l.zipIdx n).foldl f s) := by
    intro l
    induction l with
    | nil => exact fun _ _ h => h
    | cons a l ih =>
      intro n s h
      refine ih (n + 1) _ ?_
      by_cases e : a = u
      · rw [e]
        exact hown s n
      · exact hother s (a, n) e h
  induction ps generalizing n s with
  | nil => cases hu
  | cons a l ih =>
    by_cases e : a = u
    · rw [e]
      exact hkeep l (n + 1) _ (hown s n)
    · exact ih ((List.mem_cons.1 hu).resolve_left (Ne.symm e)) (n + 1) _

section
variable {x : Ins} {ps : List Nat} {s : State}

/-- One register of each thread of the pass. -/
theorem greg_putPass (f : Nat → Nat) {u : Nat} (hu : u ∈ ps) :
    ((putPass x 1 f ps s).greg u x.f.d.toNat).v = BitVec.ofNat 32 (f u) ∧ ((putPass x 1 f ps s).greg u x.f.d.toNat).full = true := by
  refine foldl_zipIdx_each (Q := fun s => (s.greg u x.f.d.toNat).v = BitVec.ofNat 32 (f u) ∧ (s.greg u x.f.d.toNat).full = true)
    (fun s n => ?_) (fun s p hp hq => ?_) hu 0 s
  · simpa using greg_setGs s u x.f.d.toNat (f u) (s.clk + n + 6) 1 0 (by decide)
  · rwa [(kept_setGs ..).greg u x.f.d.toNat fun h => hp h.1.symm]

theorem kept_putPass (x : Ins) (f : Nat → Nat) (ps : List Nat) (s : State) :
    Kept s (putPass x 1 f ps s) (fun u r => u ∈ ps ∧ r = x.f.d.toNat) noReg noThread noReg :=
  kept_foldl _ _ _ fun s p hp => (kept_setGs s p.1 x.f.d.toNat (f p.1) (s.clk + p.2 + 6) 1).mono
    (fun _ _ h => ⟨h.1 ▸ List.fst_mem_of_mem_zipIdx hp, Nat.le_antisymm (Nat.le_of_lt_succ h.2.2) h.2.1⟩)
    (fun _ _ h => h) (fun _ h => h) (fun _ _ h => h)

/-- The flags of threads of the pass. -/
theorem kept_foldl_putFlags {α : Type} (x : Ins) {t : α → Nat} (fl : α → Word) (rdy : α → Nat) {l : List α} (s : State)
    (h : ∀ a ∈ l, t a ∈ ps) :
    Kept s (l.foldl (fun s a => putFlags s x (t a) (fl a) (rdy a)) s) noReg noReg (fun u => u ∈ ps) noReg :=
  kept_foldl _ l s fun s a ha => (kept_putFlags s x (t a) (fl a) (rdy a)).mono (fun _ _ h => h) (fun _ _ h => h)
    (fun _ hu => hu ▸ h a ha) (fun _ _ h => h)

/-- A write of registers followed by flags of threads. -/
theorem Kept.andFlags {s s0 s1 : State} {G P W : Nat → Nat → Prop} {F : Nat → Prop} (a : Kept s s0 G P noThread W)
    (b : Kept s0 s1 noReg noReg F noReg) : Kept s s1 G P F W :=
  (a.mono (fun _ _ h => h) (fun _ _ h => h) (fun _ h => h.elim) (fun _ _ h => h)).trans
    (b.mono (fun _ _ h => h.elim) (fun _ _ h => h.elim) (fun _ h => h) (fun _ _ h => h.elim))

/-! ### XCH, XIDX and BCST (R178, R179) -/

theorem ifld_slot (x : Ins) : x.ifld 0 5 = x.f.imm.toNat % 32 := rfl

/-- The thread of a sub-run in the slot of one of its threads is that thread. -/
theorem find?_slot (h : Whole s x ps) {v : Nat} (hv : v ∈ ps) : (ps.find? fun u => u % 32 = v % 32) = some v := by
  cases hf : ps.find? fun u => u % 32 = v % 32 with
  | none => exact absurd (decide_eq_true rfl) (List.find?_eq_none.1 hf v hv)
  | some u =>
    have hslot : u % 32 = v % 32 := by simpa using List.find?_some hf
    have hwarp := (h.warp u (List.mem_of_find?_eq_some hf)).trans (h.warp v hv).symm
    exact congrArg some (by omega)

/-- What an exchange gives to a thread: A of the thread of the pass in its source slot, or its identity. -/
def exchanged (src : Ins → Nat → Nat → Option Nat) (x : Ins) (s : State) (ps : List Nat) (t : Nat) : Nat :=
  match src x (t % 32) (opnds s x t).2.1 with
  | some k => match ps.find? fun u => u % 32 = k with
    | some u => (opnds s x u).1
    | none => identity x (opnds s x t).2.2
  | none => identity x (opnds s x t).2.2

theorem exchange_eq (src : Ins → Nat → Nat → Option Nat) (x : Ins) (s : State) :
    exchange src x s = perSubrun x id noEnd (fun ps s => .ok (putPass x 1 (exchanged src x s ps) ps s)) s := rfl

section
variable {src : Ins → Nat → Nat → Option Nat} {u : Nat}

theorem exchanged_source (h : Whole s x ps) {v : Nat} (hv : v ∈ ps) (hs : src x (u % 32) (opnds s x u).2.1 = some (v % 32)) :
    exchanged src x s ps u = (opnds s x v).1 := by
  simp only [exchanged, hs, find?_slot h hv]

theorem exchanged_identity (hs : ∀ v ∈ ps, src x (u % 32) (opnds s x u).2.1 ≠ some (v % 32)) :
    exchanged src x s ps u = identity x (opnds s x u).2.2 := by
  cases hk : src x (u % 32) (opnds s x u).2.1 with
  | none => simp only [exchanged, hk]
  | some k =>
    have hnone : (ps.find? fun u => u % 32 = k) = none :=
      List.find?_eq_none.2 fun v hv hvk => hs v hv (hk.trans (congrArg some (of_decide_eq_true hvk).symm))
    simp only [exchanged, hk, hnone]

end

/-- An exchange gives each thread of its pass what its source slot names. -/
theorem passes_exchange {i : Instr} {src : Ins → Nat → Nat → Option Nat} (h : Whole s x ps) (he : exec i s = exchange src x s) :
    ∃ s1, PassesAll i x ps s s1 ∧ Kept s s1 (fun u r => u ∈ ps ∧ r = x.f.d.toNat) noReg noThread noReg ∧
      ∀ u ∈ ps, (s1.greg u x.f.d.toNat).full = true ∧
        (∀ v ∈ ps, src x (u % 32) (opnds s x u).2.1 = some (v % 32) →
          (s1.greg u x.f.d.toNat).v = BitVec.ofNat 32 (opnds s x v).1) ∧
        ((∀ v ∈ ps, src x (u % 32) (opnds s x u).2.1 ≠ some (v % 32)) →
          (s1.greg u x.f.d.toNat).v = BitVec.ofNat 32 (identity x (opnds s x u).2.2)) := by
  refine ⟨_, passesAll_of_ok h (he.trans (exchange_eq ..)) rfl, kept_putPass .., fun u hu => ?_⟩
  obtain ⟨hv, hfull⟩ := greg_putPass (x := x) (s := s) (exchanged src x s ps) hu
  refine ⟨hfull, fun v hm hs => ?_, fun hs => ?_⟩
  · rw [hv, exchanged_source h hm hs]
  · rw [hv, exchanged_identity hs]

end

/-- Settles O30: the three instructions are one exchange by their source slots. -/
theorem exchangesReadTheNamedSlot : Obligations.ExchangesReadTheNamedSlot := by
  intro i x s ps hx ho h
  have he := exec_ins hx s
  obtain ho | ho | ho := ho
  all_goals
    simp only [opMeaning, ho] at he
    simp only [ho, if_true, reduceCtorEq, if_false]
    exact passes_exchange h he

/-! ### SCAN and REDW (R180) -/

/-- The sum of a list by steps modulo 2^32. -/
theorem combineAll_add (l : List Nat) : BitVec.ofNat 32 (combineAll 0 0 l).1 = BitVec.ofNat 32 l.sum := by
  have hstep : ∀ a b, combine 0 0 a b = ((a + b) % 2 ^ 32, 0) := fun _ _ => rfl
  have hfold : ∀ (l : List Nat) (a : Nat × Word), BitVec.ofNat 32
      (l.foldl (fun acc u => let q := combine 0 0 acc.1 u; (q.1, acc.2 ||| q.2)) a).1 = BitVec.ofNat 32 (a.1 + l.sum) := by
    intro l
    induction l with
    | nil => exact fun _ => rfl
    | cons v l ih =>
      intro a
      rw [List.foldl_cons, ih, hstep, List.sum_cons, ← Nat.add_assoc]
      apply BitVec.eq_of_toNat_eq
      simp only [BitVec.toNat_ofNat]
      omega
  cases l with
  | nil => rfl
  | cons v l => exact hfold l (v, 0)

/-- The short forms of SCAN and REDW add. -/
theorem combineAll_short {x : Ins} (ho : x.order = 0) (ht : x.f.t = 0) (l : List Nat) :
    BitVec.ofNat 32 (canonF x.f.t (combineAll x.order x.f.t l).1) = BitVec.ofNat 32 l.sum := by
  rw [ho, ht, ← combineAll_add]
  rfl

theorem order_short (o : Opc) (f : Short) : (Ins.ofBody o (.short f)).order = 0 := by
  obtain ⟨-, -, -, -, -, hm, -⟩ := short_fields o f
  simp [Ins.order, hm]

theorem short_adds {i : Instr} {x : Ins} {f : Short} (hi : i = .scan f ∨ i = .redw f) (hx : i.ins? = some x) :
    x.order = 0 ∧ x.f.t = 0 ∧ x.mb 3 = false := by
  obtain rfl | rfl := hi
  all_goals
    obtain rfl := Option.some.inj hx
    exact ⟨order_short _ f, rfl, mb_short _ f 3⟩

/-- What SCAN combines for a thread, with the flags of the steps. -/
def scanned (x : Ins) (s : State) (ps : List Nat) (t : Nat) : Nat × Word :=
  combineAll x.order x.f.t ((ps.filter fun u => if x.mb 3 then u < t else u ≤ t).map fun u => (opnds s x u).1)

section
variable {i : Instr} {x : Ins} {s : State} {ps : List Nat}

/-- SCAN writes each thread's combination, and then the flags. -/
theorem passes_scan (hx : i.ins? = some x) (h : Whole s x ps) (ho : x.o = .scan) : PassesAll i x ps s
    (ps.zipIdx.foldl (fun a p => putFlags a x p.1 (scanned x s ps p.1).2 (s.clk + p.2 + 6))
      (putPass x 1 (fun t => canonF x.f.t (scanned x s ps t).1) ps s)) := by
  have he : exec i s = scan x s := (exec_ins hx s).trans (by simp only [opMeaning, ho])
  exact passesAll_of_ok h he rfl

/-- REDW writes the combination of the pass, and then the flags. -/
theorem passes_redw (hx : i.ins? = some x) (h : Whole s x ps) (ho : x.o = .redw) : ∃ fl rdy, PassesAll i x ps s
    (ps.foldl (fun s t => putFlags s x t fl rdy) (s.setW (ps.headD 0 / 32) x.f.d.toNat
      (BitVec.ofNat 32 (canonF x.f.t (combineAll x.order x.f.t (ps.map fun u => (opnds s x u).1)).1)) rdy)) := by
  have he : exec i s = redw x s := (exec_ins hx s).trans (by simp only [opMeaning, ho])
  exact ⟨_, _, passesAll_of_ok h he rfl⟩

/-! ### REDWX (R181) -/

/-- What a thread of the pass contributes to REDWX. -/
def redwxPair (x : Ins) (s : State) (t : Nat) : Nat × Nat := ((opnds s x t).1, if x.mb 7 then t % 32 else (opnds s x t).2.1)

/-- The winner of REDWX: the pairs of the pass, and the identity pair where a slot is not in it. -/
def redwxWinner (x : Ins) (s : State) (ps : List Nat) : Nat × Nat :=
  redwxBest x.f.t (x.mb 0) (ps.map (redwxPair x s) ++
    if ps.length < 32 then [(scanIdentity (if x.mb 0 then 2 else 1) x.f.t, 0xFFFFFFFF)] else [])

/-- REDWX writes the winner, and then the flags. -/
theorem passes_redwx (hx : i.ins? = some x) (h : Whole s x ps) (ho : x.o = .redwx) : ∃ fl rdy, PassesAll i x ps s
    (ps.foldl (fun s t => putFlags s x t fl rdy) (s.setWs (ps.headD 0 / 32) x.f.d.toNat
      (canonF x.f.t (redwxWinner x s ps).1 + (redwxWinner x s ps).2 * 2 ^ 32) rdy 2)) := by
  have he : exec i s = redwx x s := (exec_ins hx s).trans (by simp only [opMeaning, ho])
  exact ⟨_, _, passesAll_of_ok h he rfl⟩

end

/-- A choice between two that is never worse than either, made along a list, is of the list and no worse than any of it. -/
theorem foldl_choice {α : Type} {le : α → α → Prop} (hr : ∀ a, le a a) (ht : ∀ a b c, le a b → le b c → le a c)
    {f : α → α → α} (hf : ∀ a b, (f a b = a ∨ f a b = b) ∧ le a (f a b) ∧ le b (f a b)) (l : List α) (a : α) :
    l.foldl f a ∈ a :: l ∧ ∀ b ∈ a :: l, le b (l.foldl f a) := by
  induction l generalizing a with
  | nil => exact ⟨List.mem_cons_self, fun b hb => List.mem_singleton.1 hb ▸ hr a⟩
  | cons c l ih =>
    obtain ⟨hmem, hle⟩ := ih (f a c)
    obtain ⟨hch, hac, hcc⟩ := hf a c
    rw [List.foldl_cons]
    constructor
    · obtain h | h := List.mem_cons.1 hmem
      · rw [h]
        obtain h | h := hch <;> simp [h]
      · exact List.mem_cons_of_mem _ (List.mem_cons_of_mem _ h)
    · intro b hb
      have htop := hle (f a c) List.mem_cons_self
      obtain rfl | hb := List.mem_cons.1 hb
      · exact ht _ _ _ hac htop
      · obtain rfl | hb := List.mem_cons.1 hb
        · exact ht _ _ _ hcc htop
        · exact hle b (List.mem_cons_of_mem _ hb)

/-- The value of the pair `q` is as good for REDWX as that of `p`. -/
def redwxLe (t : BitVec 4) (isMax : Bool) (p q : Nat × Nat) : Prop :=
  if isMax then redwxKey t isMax p.1 ≤ redwxKey t isMax q.1 else redwxKey t isMax q.1 ≤ redwxKey t isMax p.1

/-- The winner of a list is one of it, and none of it is better. -/
theorem redwxBest_best (t : BitVec 4) (isMax : Bool) {l : List (Nat × Nat)} (h : l ≠ []) :
    redwxBest t isMax l ∈ l ∧ ∀ p ∈ l, redwxLe t isMax p (redwxBest t isMax l) := by
  cases l with
  | nil => exact absurd rfl h
  | cons p l =>
    refine foldl_choice (le := redwxLe t isMax) (fun a => ?_) (fun a b c hab hbc => ?_) (fun a b => ?_) l p
    · cases isMax <;> exact le_refl _
    · cases isMax
      · exact le_trans hbc hab
      · exact le_trans hab hbc
    · cases isMax
      all_goals
        simp only [redwxLe, Bool.false_eq_true, if_false, if_true]
        split
        · exact ⟨.inr rfl, le_of_lt ‹_›, le_refl _⟩
        · exact ⟨.inl rfl, le_refl _, not_lt.1 ‹_›⟩

theorem redwxKey_nat {v : Nat} (isMax : Bool) (h : v < 2 ^ 32) : redwxKey 1 isMax v = v := by
  change ((v % 2 ^ 32 : Nat) : Int) = v
  rw [Nat.mod_eq_of_lt h]

/-- Operand A of one word is below 2^32. -/
theorem takeField_word_lt (s st : State) (x : Ins) (t : Nat) (v : BitVec 8) : (takeField s st x t (.src .one) v none).1 < 2 ^ 32 := by
  have hg : gNum s t v.toNat 1 = (s.greg t v.toNat).v.toNat := rfl
  have hw : wNum s (t / 32) v.toNat 1 = (s.wreg (t / 32) v.toNat).toNat := rfl
  have hn : Wd.one.n x.f.t = 1 := rfl
  simp only [takeField, fieldNum, hn, hg, hw]
  split
  · split
    · exact BitVec.isLt _
    · exact Nat.two_pow_pos 32
  · split
    · exact BitVec.isLt _
    · exact BitVec.isLt _

theorem gather_a {s : State} {x : Ins} {t : Nat} {v : Vals} (h : gather s x t = .vals v) :
    v.a = (takeField s s x t x.shape.a x.f.a none).1 := by
  unfold gather at h
  dsimp only at h
  split_ifs at h
  split at h
  · cases h
  · obtain rfl := Gather.vals.inj h
    rfl

theorem opnds_word_lt {x : Ins} (hx : x.shape.a = .src .one) (s : State) (t : Nat) : (opnds s x t).1 < 2 ^ 32 := by
  unfold opnds
  split
  next v h =>
    rw [gather_a h, hx]
    exact takeField_word_lt ..
  next => decide

theorem redwx_shape {x : Ins} (ho : x.o = .redwx) : x.shape.a = .src .one := by simp only [Ins.shape, ho]

section
variable {x : Ins} {s : State} {ps : List Nat}

/-- In a full warp the winner of .n32 is the pair of a thread whose value is extreme. -/
theorem redwxWinner_full (ho : x.o = .redwx) (hl : ps.length = 32) (ht : x.f.t = 1) : ∃ u ∈ ps, redwxWinner x s ps = redwxPair x s u ∧
    ∀ v ∈ ps, if x.mb 0 then (opnds s x v).1 ≤ (opnds s x u).1 else (opnds s x u).1 ≤ (opnds s x v).1 := by
  have hne : ps.map (redwxPair x s) ≠ [] := fun h => by simp [List.map_eq_nil_iff.1 h] at hl
  have hwin : redwxWinner x s ps = redwxBest 1 (x.mb 0) (ps.map (redwxPair x s)) := by
    rw [redwxWinner, hl, ht, if_neg (Nat.lt_irrefl 32), List.append_nil]
  obtain ⟨hmem, hbest⟩ := redwxBest_best 1 (x.mb 0) hne
  obtain ⟨u, hu, hpair⟩ := List.mem_map.1 hmem
  refine ⟨u, hu, hwin.trans hpair.symm, fun v hv => ?_⟩
  have hle := hbest _ (List.mem_map_of_mem hv)
  rw [← hpair] at hle
  have hkey : ∀ v, redwxKey 1 (x.mb 0) (redwxPair x s v).1 = ((opnds s x v).1 : Int) := fun v =>
    redwxKey_nat _ (opnds_word_lt (redwx_shape ho) s v)
  simpa only [redwxLe, hkey, Nat.cast_le] using hle

/-- The pair that REDWX writes. -/
theorem wreg_redwx (s : State) (w d rdy i : Nat) {v : Nat} (hv : v < 2 ^ 32) :
    (s.setWs w d (v + i * 2 ^ 32) rdy 2).wreg w d = BitVec.ofNat 32 v ∧
    (s.setWs w d (v + i * 2 ^ 32) rdy 2).wreg w (d + 1) = BitVec.ofNat 32 i := by
  refine ⟨(wreg_setWs s w d _ rdy 2 0 (by decide)).trans ?_, (wreg_setWs s w d _ rdy 2 1 (by decide)).trans (congrArg _ ?_)⟩
  · apply BitVec.eq_of_toNat_eq
    simp
  · rw [Nat.mul_one, Nat.add_mul_div_right _ _ (Nat.two_pow_pos 32), Nat.div_eq_of_lt hv, Nat.zero_add]

end

/-- Settles O31: what each instruction writes, which its flags leave. -/
theorem scansAndReductionsCombineThePass : Obligations.ScansAndReductionsCombineThePass := by
  intro i x s ps hx h w val
  refine ⟨fun ho => ?_, fun ho => ?_, fun ho => ?_⟩
  · have kf := kept_foldl_putFlags x (fun p => (scanned x s ps p.1).2) (fun p : Nat × Nat => s.clk + p.2 + 6)
      (putPass x 1 (fun t => canonF x.f.t (scanned x s ps t).1) ps s) fun p (hp : p ∈ ps.zipIdx) => List.fst_mem_of_mem_zipIdx hp
    refine ⟨_, passes_scan hx h ho, (kept_putPass ..).andFlags kf, fun u hu => ?_⟩
    obtain ⟨hv, hfull⟩ := greg_putPass (x := x) (s := s) (fun t => canonF x.f.t (scanned x s ps t).1) hu
    rw [kf.greg _ _ id]
    refine ⟨hfull, hv, ?_⟩
    rintro ⟨f, rfl⟩
    obtain ⟨hop, ht, hm⟩ := short_adds (.inl rfl) hx
    rw [hv, scanned, combineAll_short hop ht]
    simp only [hm, Bool.false_eq_true, if_false, val]
  · obtain ⟨fl, rdy, hpass⟩ := passes_redw hx h ho
    have kf := kept_foldl_putFlags x (fun _ => fl) (fun _ => rdy) (s.setW w x.f.d.toNat
      (BitVec.ofNat 32 (canonF x.f.t (combineAll x.order x.f.t (ps.map val)).1)) rdy) fun u (hu : u ∈ ps) => hu
    have hv := (kf.wreg w x.f.d.toNat id).trans ((wreg_setW ..).trans (if_pos ⟨rfl, rfl⟩))
    refine ⟨_, hpass, (kept_setW ..).andFlags kf, hv, ?_⟩
    rintro ⟨f, rfl⟩
    obtain ⟨hop, ht, -⟩ := short_adds (.inr rfl) hx
    exact hv.trans (combineAll_short hop ht _)
  · obtain ⟨fl, rdy, hpass⟩ := passes_redwx hx h ho
    have kf := kept_foldl_putFlags x (fun _ => fl) (fun _ => rdy) (s.setWs w x.f.d.toNat
      (canonF x.f.t (redwxWinner x s ps).1 + (redwxWinner x s ps).2 * 2 ^ 32) rdy 2) fun u (hu : u ∈ ps) => hu
    refine ⟨_, hpass, (kept_setWs ..).andFlags kf, fun hl ht => ?_⟩
    obtain ⟨u, hu, hwin, hbest⟩ := redwxWinner_full (s := s) ho hl ht
    have hcanon : canonF x.f.t (redwxWinner x s ps).1 = val u := by
      rw [ht, hwin]
      rfl
    obtain ⟨hlo, hhi⟩ := wreg_redwx s w x.f.d.toNat rdy (redwxWinner x s ps).2 (hcanon.trans_lt (opnds_word_lt (redwx_shape ho) s u))
    refine ⟨u, hu, ?_, ?_, hbest⟩
    · exact (kf.wreg _ _ id).trans (hlo.trans (congrArg _ hcanon))
    · exact (kf.wreg _ _ id).trans (hhi.trans (congrArg (fun p => BitVec.ofNat 32 p.2) hwin))

end Sys2Proof.Machine
end

