-- ==== Sys2Proof/Proofs/Votes.lean ====
section
/-! PROOFS. MATCH, VOTE and XLANE (O32): masks of slots, the results that all threads of a pass receive, and the registers of a
partner warp. -/

namespace Sys2Proof.Machine

/-! ### Masks of slots -/

/-- A slot is in the mask of a list of slots as it is in the list. -/
theorem getLsbD_slotsMask {k : Nat} (hk : k < 32) (l : List Nat) : (slotsMask l).getLsbD k = true ↔ k ∈ l := by
  have hfold : ∀ (l : List Nat) (m : Word),
      (l.foldl (fun m s => m ||| slotBit s) m).getLsbD k = true ↔ m.getLsbD k = true ∨ k ∈ l := by
    intro l
    induction l with
    | nil => simp
    | cons j l ih =>
      intro m
      rw [List.foldl_cons, ih, BitVec.getLsbD_or, getLsbD_slotBit j hk, Bool.or_eq_true, decide_eq_true_iff, List.mem_cons, or_assoc,
        eq_comm (a := j)]
  rw [slotsMask, hfold]
  simp

/-- The mask of the threads of a pass that have a property. -/
theorem getLsbD_passMask (ps : List Nat) (p : Nat → Bool) {k : Nat} (hk : k < 32) :
    (slotsMask ((ps.filter p).map (· % 32))).getLsbD k = true ↔ ∃ v ∈ ps, v % 32 = k ∧ p v = true := by
  rw [getLsbD_slotsMask hk]
  simp only [List.mem_map, List.mem_filter]
  exact exists_congr fun v => ⟨fun ⟨⟨hv, hp⟩, hs⟩ => ⟨hv, hs, hp⟩, fun ⟨hv, hs, hp⟩ => ⟨⟨hv, hp⟩, hs⟩⟩

section
variable {i : Instr} {x : Ins} {s : State} {ps : List Nat}

/-- Where each thread of a pass receives a mask of its threads. -/
theorem greg_putPass_mask (p : Nat → Nat → Bool) {u : Nat} (hu : u ∈ ps) {k : Nat} (hk : k < 32) :
    ((putPass x 1 (fun t => (slotsMask ((ps.filter (p t)).map (· % 32))).toNat) ps s).greg u x.f.d.toNat).v.getLsbD k = true ↔
      ∃ v ∈ ps, v % 32 = k ∧ p u v = true := by
  rw [(greg_putPass _ hu).1, BitVec.ofNat_toNat, BitVec.setWidth_eq, getLsbD_passMask ps (p u) hk]

/-! ### MATCH and VOTE (R182) -/

theorem passes_matchEq (hx : i.ins? = some x) (h : Whole s x ps) (ho : x.o = .matchEq) : PassesAll i x ps s
    (putPass x 1 (fun t => (slotsMask ((ps.filter fun u => (opnds s x u).1 = (opnds s x t).1).map (· % 32))).toNat) ps s) := by
  have he : exec i s = matchEq x s := (exec_ins hx s).trans (by simp only [opMeaning, ho])
  exact passesAll_of_ok h he rfl

theorem passes_ballot (hx : i.ins? = some x) (h : Whole s x ps) (ho : x.o = .vote) (hm : x.f.m = 2) : PassesAll i x ps s
    (putPass x 1 (fun _ => (slotsMask ((ps.filter fun t => s.pred t x.f.a.toNat).map (· % 32))).toNat) ps s) := by
  have he : exec i s = vote x s := (exec_ins hx s).trans (by simp only [opMeaning, ho])
  refine passesAll_of_ok h he ?_
  simp only [hm]
  rfl

/-- The result of VOTE.any and VOTE.all. -/
def voteResult (x : Ins) (s : State) (ps : List Nat) : Bool :=
  let yes := ps.filter fun t => s.pred t x.f.a.toNat
  if x.f.m = 0 then !yes.isEmpty else decide (yes.length = ps.length)

theorem voteResult_iff : voteResult x s ps = true ↔
    if x.f.m = 0 then ∃ v ∈ ps, s.pred v x.f.a.toNat = true else ∀ v ∈ ps, s.pred v x.f.a.toNat = true := by
  unfold voteResult
  split
  · simp
  · simp

/-- A predicate of each thread of the pass. -/
def putPreds (x : Ins) (b : Bool) (ps : List Nat) (s : State) : State :=
  ps.zipIdx.foldl (fun s p => s.setP p.1 x.f.d.toNat b (s.clk + p.2 + 6)) s

theorem pred_putPreds (b : Bool) (hd : x.f.d.toNat < 7) {u : Nat} (hu : u ∈ ps) : (putPreds x b ps s).pred u x.f.d.toNat = b := by
  refine foldl_zipIdx_each (Q := fun s => s.pred u x.f.d.toNat = b) (fun s n => ?_) (fun s p hp hq => ?_) hu 0 s
  · rw [pred_setP _ _ _ _ _ hd]
  · rwa [(kept_setP ..).pred u x.f.d.toNat fun h => hp h.1.symm]

theorem kept_putPreds (x : Ins) (b : Bool) (ps : List Nat) (s : State) :
    Kept s (putPreds x b ps s) noReg (fun u k => u ∈ ps ∧ k = x.f.d.toNat) noThread noReg :=
  kept_foldl _ _ _ fun s p hp => (kept_setP s p.1 x.f.d.toNat b (s.clk + p.2 + 6)).mono (fun _ _ h => h)
    (fun _ _ h => ⟨h.1 ▸ List.fst_mem_of_mem_zipIdx hp, Nat.le_antisymm (Nat.le_of_lt_succ h.2.2) h.2.1⟩)
    (fun _ h => h) (fun _ _ h => h)

theorem passes_vote (hx : i.ins? = some x) (h : Whole s x ps) (ho : x.o = .vote) (hm : x.f.m = 0 ∨ x.f.m = 1) :
    PassesAll i x ps s (putPreds x (voteResult x s ps) ps s) := by
  have he : exec i s = vote x s := (exec_ins hx s).trans (by simp only [opMeaning, ho])
  refine passesAll_of_ok h he ?_
  obtain hm | hm := hm
  all_goals
    simp only [hm, voteResult]
    rfl

/-! ### XLANE (R183) -/

/-- A register that became readable earlier is seen as it is. -/
theorem seen_settled {g : GReg} {n : Nat} (h : g.rdy < n) : g.seen n = g.v := if_pos h

theorem wseen_settled {w r n : Nat} (h : kvGet 0 (s.warp w).wrdy r < n) : s.wseen w r n = s.wreg w r := if_pos h

/-- What XLANE gives to a thread. -/
def laneValue (x : Ins) (s : State) (t : Nat) : Nat :=
  match xlanePartner s x (t / 32) with
  | some p => ((s.greg (threadOf p (t % 32)) x.f.a.toNat).seen s.clk).toNat
  | none => identity x (opnds s x t).2.2

/-- What XLANE.w gives to the warp of a thread. -/
def laneValueW (x : Ins) (s : State) (t : Nat) : Nat :=
  match xlanePartner s x (t / 32) with
  | some p => (s.wseen p x.f.a.toNat s.clk).toNat
  | none => identity x (opnds s x t).2.2

section
variable (hx : i.ins? = some x) (ho : x.o = .xlane)
include hx ho

theorem passes_xlane {t : Nat} (hm : x.mb 0 = false) (h : Turn s x t) :
    Passes i x t s (s.setG t x.f.d.toNat (BitVec.ofNat 32 (laneValue x s t)) (s.rdy 1)) := by
  have he : exec i s = xlane x s := (exec_ins hx s).trans (by simp only [opMeaning, ho])
  exact passes_of_ok h (he.trans (if_neg (Bool.eq_false_iff.1 hm))) rfl

theorem passes_xlaneW (hm : x.mb 0 = true) (h : Whole s x ps) :
    PassesAll i x ps s (s.setW (ps.headD 0 / 32) x.f.d.toNat (BitVec.ofNat 32 (laneValueW x s (ps.headD 0))) (s.rdy 1)) := by
  have he : exec i s = xlane x s := (exec_ins hx s).trans (by simp only [opMeaning, ho])
  exact passesAll_of_ok h (he.trans (if_pos hm)) rfl

end

section
variable {t : Nat}

theorem laneValue_partner {v : Nat} (hv : xlanePartner s x (t / 32) = some v)
    (h : (s.greg (threadOf v (t % 32)) x.f.a.toNat).rdy < s.clk) :
    BitVec.ofNat 32 (laneValue x s t) = (s.greg (threadOf v (t % 32)) x.f.a.toNat).v := by
  simp only [laneValue, hv, seen_settled h, BitVec.ofNat_toNat, BitVec.setWidth_eq]

theorem laneValue_alone (hv : xlanePartner s x (t / 32) = none) : laneValue x s t = identity x (opnds s x t).2.2 := by
  simp only [laneValue, hv]

theorem laneValueW_partner {v : Nat} (hv : xlanePartner s x (t / 32) = some v) (h : kvGet 0 (s.warp v).wrdy x.f.a.toNat < s.clk) :
    BitVec.ofNat 32 (laneValueW x s t) = s.wreg v x.f.a.toNat := by
  simp only [laneValueW, hv, wseen_settled h, BitVec.ofNat_toNat, BitVec.setWidth_eq]

theorem laneValueW_alone (hv : xlanePartner s x (t / 32) = none) : laneValueW x s t = identity x (opnds s x t).2.2 := by
  simp only [laneValueW, hv]

end

end

/-- Settles O32: each instruction is one write of what its threads receive. -/
theorem matchVoteAndLaneExchange : Obligations.MatchVoteAndLaneExchange := by
  refine ⟨fun i x s ps hx h => ⟨fun ho => ?_, fun ho hm => ?_, fun ho hm => ?_⟩,
    fun i x s hx ho => ⟨fun t hm h => ?_, fun ps hm h => ?_⟩⟩
  · refine ⟨_, passes_matchEq hx h ho, kept_putPass .., fun u hu k hk => ?_⟩
    rw [greg_putPass_mask (fun t v => decide ((opnds s x v).1 = (opnds s x t).1)) hu hk]
    simp only [decide_eq_true_iff]
  · exact ⟨_, passes_ballot hx h ho hm, kept_putPass .., fun u hu k hk =>
      greg_putPass_mask (fun _ t => s.pred t x.f.a.toNat) hu hk⟩
  · refine ⟨_, passes_vote hx h ho hm, kept_putPreds .., fun u hu hd => ?_⟩
    rw [pred_putPreds _ hd hu, voteResult_iff]
  · refine ⟨_, passes_xlane hx ho hm h, kept_setG .., ?_⟩
    rw [greg_setG_same]
    exact ⟨rfl, fun v hv => laneValue_partner hv, fun hv => congrArg (BitVec.ofNat 32) (laneValue_alone hv)⟩
  · refine ⟨_, passes_xlaneW hx ho hm h, kept_setW .., ?_⟩
    rw [wreg_setW, if_pos ⟨rfl, rfl⟩]
    exact ⟨fun v hv => laneValueW_partner hv, fun hv => congrArg (BitVec.ofNat 32) (laneValueW_alone hv)⟩

end Sys2Proof.Machine
end

