-- ==== Sys2Proof/Proofs/DieEvents.lean ====
section
/-! PROOFS. The happenings on the records of a die (O56): declared buffers, copies, generations and region records. -/

namespace Sys2Proof.Machine

/-! ### Buffer states (R190 to R192) -/

section
variable {b : Buf}

/-- A BUFF undeclares the record, whatever else the clk brought. -/
theorem bufStep_drop (h : b.drop = true) : (bufStep b).decl = false := by simp [bufStep, h]

/-- The first bytes, or the start of a copy-in, that do not complete an empty buffer leave it FILLING. -/
theorem bufStep_fills (hd : b.drop = false) (h0 : b.state = 0) (hin : b.copyIn = true ∨ 0 < b.added) (hf : b.setFull = false)
    (he : b.expect = 0 ∨ b.landed + b.added < b.expect) :
    (bufStep b).state = 1 ∧ (bufStep b).landed = b.landed + b.added := by
  have hc : ¬(b.expect ≠ 0 ∧ b.expect ≤ b.landed + b.added) := by omega
  simp [bufStep, hd, h0, hin, hf]
  grind

/-- The bytes that complete the count leave the buffer FULL. -/
theorem bufStep_completes (hd : b.drop = false) (hs : b.state ≤ 1) (ha : 0 < b.added) (hx : b.expect ≠ 0)
    (hl : b.expect ≤ b.landed + b.added) (ho : b.outStart = 0) : (bufStep b).state = 2 := by
  obtain h | h : b.state = 0 ∨ b.state = 1 := by omega
  all_goals simp [bufStep, hd, h, ha, hx, hl, ho]

/-- A BUFS leaves a buffer that was EMPTY or FILLING FULL, unless a copy-out started from it in the same clk. -/
theorem bufStep_setFull (hd : b.drop = false) (hs : b.state ≤ 1) (hf : b.setFull = true) :
    (bufStep b).state = 2 ∨ 0 < b.outStart := by
  refine or_iff_not_imp_right.2 fun ho => ?_
  obtain h | h : b.state = 0 ∨ b.state = 1 := by omega
  all_goals
    simp [bufStep, hd, h, hf, ho]
    grind

/-- The first copy-out leaves a FULL buffer DRAINING. -/
theorem bufStep_drains (hd : b.drop = false) (hs : b.state = 2) (hf : b.setFull = false) (ho : 0 < b.outStart)
    (hn : b.outDone = 0) : (bufStep b).state = 3 ∧ (bufStep b).outs = b.outs + b.outStart := by
  simp [bufStep, hd, hs, hf, ho, hn]

/-- The end of the last copy-out empties the buffer. -/
theorem bufStep_empties (hd : b.drop = false) (hs : b.state = 3) (hf : b.setFull = false) (hn : 0 < b.outDone)
    (ho : b.outs + b.outStart = b.outDone) : (bufStep b).state = 0 ∧ (bufStep b).landed = 0 := by
  simp [bufStep, hd, hs, hf, hn, ho]

end

theorem buf_evBufferStateChange (s : State) (d k : Nat) :
    kvGet {} ((evBufferStateChange s d k).die d).buf k = bufStep (kvGet {} (s.die d).buf k) := by
  simp [evBufferStateChange]

/-! ### Copies and generations (R238, R246) -/

/-- A shared copy leaves its die without a message. -/
theorem evDieCacheEviction_shared {s : State} {d line : Nat} {c : Copy} (hc : copyOf s d line = some c) (h0 : c.level = 0) :
    evDieCacheEviction s d line = s.modDie d fun x => { x with copies := kvDel x.copies line } := by
  simp only [evDieCacheEviction, hc, h0, if_true]

theorem die_of_dies {s s' : State} (h : s'.dies = s.dies) (d : Nat) : s'.die d = s.die d := by
  rw [State.die, h, State.die]

/-- Happenings posted one after another change the agenda alone. -/
theorem foldl_post_keeps {α : Type} (due : State → α → Nat) (e : Ev) (l : List α) (s : State) :
    let s' := l.foldl (fun s i => s.post (due s i) e) s
    s'.dies = s.dies ∧ s'.metaw = s.metaw ∧ s'.mem = s.mem := by
  induction l generalizing s with
  | nil => exact ⟨rfl, rfl, rfl⟩
  | cons i l ih => exact ih (s.post (due s i) e)

/-- Without entries of the generation to come the die takes it up. -/
theorem evGenerationAdvance_free {s : State} {d : Nat} (h : rdcOfGen s d (nextGen (s.die d).rdcGen) = []) :
    let s' := evGenerationAdvance s d 0
    (s'.die d).rdcGen = nextGen (s.die d).rdcGen ∧ s'.metaw = s.metaw ∧ s'.mem = s.mem ∧ ∀ e, e ≠ d → s'.die e = s.die e := by
  simp only [evGenerationAdvance, h, if_true]
  obtain ⟨hd, hw, hm⟩ := foldl_post_keeps (fun s i => sweepIn s d i) (.rdcSweeperStep d) (rdcOfGen s d (s.die d).rdcGen)
    (s.modDie d fun x => { x with rdcGen := nextGen (s.die d).rdcGen })
  exact ⟨congrArg Die.rdcGen ((die_of_dies hd d).trans (State.die_modDie_same ..)), hw, hm,
    fun e he => (die_of_dies hd e).trans ((State.die_modDie ..).trans (if_neg he))⟩

/-- Where an entry carries the generation to come, the advance waits for the sweeper. -/
theorem evGenerationAdvance_waits {s : State} {d : Nat} (h : rdcOfGen s d (nextGen (s.die d).rdcGen) ≠ []) (id : Nat) :
    ∃ n, evGenerationAdvance s d id = s.post n (.generationAdvance d id) := by
  obtain ⟨i, l, hl⟩ := List.exists_cons_of_ne_nil h
  simp only [evGenerationAdvance, hl]
  exact ⟨_, rfl⟩

/-! ### Region records (R253, R260) -/

section
variable {s : State} {d k : Nat} {v : Word} {r : Region} (hr : kvGet {} (s.die d).region k = r)
include hr

/-- A write of word 0 sets VALID in a record that is ready for it, and clears it in one that nobody holds. -/
theorem evRegionRecordWrite_valid : evRegionRecordWrite s d k 0 v =
    if v.getLsbD 0 && !r.valid then
      if limitGood r.limit && asidLive s (pkgOfDie d) r.asid then
        modRegion s d k fun _ => { limit := r.limit, share := r.limit, bshare := r.limit, asid := r.asid, valid := true }
      else s
    else if !v.getLsbD 0 && r.valid && r.dies = 0 && r.pkgs = 0 && r.acks = 0 then modRegion s d k fun _ => { r with valid := false }
    else s := by
  subst hr
  rfl

/-- A record that becomes valid starts with its whole limit as the share. -/
theorem evRegionRecordWrite_starts (hv : v.getLsbD 0 = true) (hn : r.valid = false) (hl : limitGood r.limit = true)
    (ha : asidLive s (pkgOfDie d) r.asid = true) : kvGet {} ((evRegionRecordWrite s d k 0 v).die d).region k =
      { limit := r.limit, share := r.limit, bshare := r.limit, asid := r.asid, valid := true } := by
  simp only [evRegionRecordWrite_valid hr, hv, hn, hl, ha, Bool.not_false, Bool.and_self, if_true, modRegion, State.die_modDie_same,
    kvGet_kvSet_same]

theorem evRegionRecordWrite_badLimit (hv : v.getLsbD 0 = true) (hn : r.valid = false) (hl : limitGood r.limit = false) :
    evRegionRecordWrite s d k 0 v = s := by
  simp [evRegionRecordWrite_valid hr, hv, hn, hl]

/-- A valid record ends only where nothing holds a share of it. -/
theorem evRegionRecordWrite_ends (hv : v.getLsbD 0 = false) (hy : r.valid = true) :
    (kvGet {} ((evRegionRecordWrite s d k 0 v).die d).region k).valid = decide (r.dies ≠ 0 ∨ r.pkgs ≠ 0 ∨ r.acks ≠ 0) := by
  rw [evRegionRecordWrite_valid hr, if_neg (by simp [hy]), hv, hy]
  split
  next h =>
    simp only [modRegion, State.die_modDie_same, kvGet_kvSet_same]
    simpa [and_assoc] using h
  next h =>
    rw [hr, hy]
    simpa [imp_iff_not_or, or_assoc] using h

end

/-- The last acknowledgement of a re-split makes the new share the bound of the sums. -/
theorem evResplitAck_record (s : State) (d k : Nat) :
    let r := kvGet {} (s.die d).region k
    let r' := kvGet {} ((evResplitAck s d k).die d).region k
    r'.acks = r.acks - 1 ∧ (r.acks ≤ 1 → r'.bshare = r.share) ∧ (1 < r.acks → r'.bshare = r.bshare) := by
  intro r r'
  have hr : r' = if r.acks - 1 = 0 then { r with acks := r.acks - 1, bshare := r.share } else { r with acks := r.acks - 1 } := by
    simp only [r', evResplitAck, modRegion, State.die_modDie_same, kvGet_kvSet_same, r]
  rw [hr]
  split
  next h => exact ⟨rfl, fun _ => rfl, fun h1 => by omega⟩
  next h => exact ⟨rfl, fun h1 => by omega, fun _ => rfl⟩

/-- Settles O56: the effect of each happening on its record. -/
theorem dieEventsChangeTheirRecords : Obligations.DieEventsChangeTheirRecords := by
  refine ⟨fun d k s => ?_, fun d line c s hc h0 => ?_, fun d s => ⟨fun h => ?_, fun h => ?_⟩, fun d k v s => ?_, fun d k s => ?_⟩
  · refine happens_of_effect (e := .bufferStateChange d k) ?_
    simp only [Ev.effect, buf_evBufferStateChange]
    exact ⟨bufStep_drop, fun hd => ⟨bufStep_fills hd, bufStep_completes hd, bufStep_setFull hd, bufStep_drains hd, bufStep_empties hd⟩,
      rfl, rfl, rfl⟩
  · exact happens_of_eq (e := .dieCacheEviction d line) (evDieCacheEviction_shared (s := { s with ev := none }) hc h0)
      ⟨congrArg Die.copies (State.die_modDie_same ..), rfl, rfl⟩
  · exact happens_of_effect (e := .generationAdvance d 0) (evGenerationAdvance_free (s := { s with ev := none }) h)
  · obtain ⟨n, hn⟩ := evGenerationAdvance_waits (s := { s with ev := none }) h 0
    exact happens_of_eq (e := .generationAdvance d 0) hn ⟨rfl, s.clk + n, Nat.le_add_right .., mem_agenda_posted ..⟩
  · refine happens_of_effect (e := .regionRecordWrite d k 0 v) ⟨evRegionRecordWrite_starts (s := { s with ev := none }) rfl,
      fun hv hn hl => ?_, evRegionRecordWrite_ends (s := { s with ev := none }) rfl⟩
    exact congrArg (fun q : State => kvGet {} (q.die d).region k) (evRegionRecordWrite_badLimit (s := { s with ev := none }) rfl hv hn hl)
  · exact happens_of_effect (e := .resplitAck d k) (evResplitAck_record { s with ev := none } d k)

end Sys2Proof.Machine
end

