-- ==== Sys2Proof/Proofs/Requests.lean ====
section
/-! PROOFS. A request on its way (R193, R194, R245): what it asks for stays as it was issued, and of memory only the ways of its die's
remote-data cache may change, where an entry is decoded to something wrong (R233, R234). -/

namespace Sys2Proof.Machine

/-! ### Memory outside some lines -/

/-- The memory of `s'` is in canonical form where that of `s` is, and reads as it did outside the lines `ls`. -/
structure OnLines (ls : List Nat) (s s' : State) : Prop where
  wf : Memory.wf s.mem = true → Memory.wf s'.mem = true
  get : Memory.wf s.mem = true → ∀ a, a / 64 ∉ ls → memGet s'.mem a = memGet s.mem a

theorem OnLines.of_eq {ls : List Nat} {s s' : State} (h : s'.mem = s.mem) : OnLines ls s s' :=
  ⟨fun hw => by rwa [h], fun _ a _ => by rw [h]⟩

theorem OnLines.trans {ls : List Nat} {s t u : State} (a : OnLines ls s t) (b : OnLines ls t u) : OnLines ls s u :=
  ⟨fun hw => b.wf (a.wf hw), fun hw x hx => (b.get (a.wf hw) x hx).trans (a.get hw x hx)⟩

theorem OnLines.mono {l m : List Nat} {s s' : State} (a : OnLines l s s') (h : l ⊆ m) : OnLines m s s' :=
  ⟨a.wf, fun hw x hx => a.get hw x fun hl => hx (h hl)⟩

theorem onLines_foldl {α : Type} {ls : List Nat} (f : State → α → State) (l : List α) (s : State)
    (h : ∀ s, ∀ a ∈ l, OnLines ls s (f s a)) : OnLines ls s (l.foldl f s) := by
  induction l generalizing s with
  | nil => exact .of_eq rfl
  | cons a l ih =>
    exact (h s a List.mem_cons_self).trans (ih (f s a) fun s b hb => h s b (List.mem_cons_of_mem _ hb))

theorem mem_of_memories {s s' : State} (h : s'.memories = s.memories) : s'.mem = s.mem := congrArg (·.1) h

theorem onLines_memWrite {s s' : State} {line o : Nat} {b : List Byte} (ho : o + b.length ≤ 64)
    (h : s'.mem = memWrite s.mem (64 * line + o) b) : OnLines [line] s s' :=
  ⟨fun hw => h ▸ wf_memWrite _ _ hw, fun hw a ha => by
    rw [h]
    exact memGet_memWrite_outside hw (by rw [List.mem_singleton] at ha; omega)⟩

/-! ### The remote-data cache (R233, R234, R245) -/

/-- A wrong correction changes bytes of its own line. -/
theorem onLines_applyResidue (s : State) (line : Nat) (es : List (Nat × Byte)) : OnLines [line] s (applyResidue s line es) := by
  refine onLines_foldl _ _ _ fun s e _ => ?_
  split
  · exact onLines_memWrite (b := [_]) (show e.1 + 1 ≤ 64 by omega) rfl
  · split <;> exact .of_eq rfl

theorem onLines_takeFix (s : State) (line : Nat) (es fix : List (Nat × Byte)) : OnLines [line] s (takeFix s line es fix) := by
  have hc : OnLines [line] s (if fix.isEmpty then s else countCorrected s line) := .of_eq (mem_of_memories (by simp))
  unfold takeFix
  dsimp only
  split
  · exact hc
  · exact hc.trans (onLines_applyResidue ..)

theorem onLines_rdcDecode (s : State) (line : Nat) : OnLines [line] s (rdcDecode s line) := by
  fun_cases rdcDecode s line
  · exact .of_eq (mem_of_memories (by simp))
  · exact onLines_takeFix ..

theorem onLines_rdcGet (s : State) (d pa : Nat) : OnLines (rdcWays s d pa) s (rdcGet s d pa).1 := by
  unfold rdcGet
  split
  · exact .of_eq rfl
  · dsimp only
    exact onLines_foldl rdcDecode _ s fun s l hl => (onLines_rdcDecode s l).mono (by simpa using hl)

/-- An entry without errors decodes to what it is. -/
theorem rdcDecode_of_errs {s : State} (h : s.errs = []) (line : Nat) : rdcDecode s line = s := by
  have hk : kvGet [] s.errs line = [] := by rw [h]; rfl
  simp only [rdcDecode, hk, correction_nil]
  exact takeFix_nil s line

theorem rdcGet_of_errs {s : State} (h : s.errs = []) (d pa : Nat) : (rdcGet s d pa).1 = s := by
  unfold rdcGet
  split
  · rfl
  · dsimp only
    induction rdcWays s d pa with
    | nil => rfl
    | cons l r ih => rw [List.foldl_cons, rdcDecode_of_errs h, ih]

/-- The ways of an address depend on the size of the die's cache alone. -/
theorem rdcWays_congr {s s' : State} {d : Nat} (h : (s'.die d).rdcSize = (s.die d).rdcSize) (pa : Nat) :
    rdcWays s' d pa = rdcWays s d pa := by
  simp only [rdcWays, rdcLine, rdcEntries, h]

/-! ### What a request asks for -/

/-- A request without its course: what it waits for, where it has got to and what it has found. -/
def Req.asked (r : Req) : Req :=
  { r with after := [], all := false, follow := 0, tag := 0, stage := 0, issued := 0, gen := 0, hit := false, value := 0, agent := 0 }

/-- What the request with a number asks for. -/
def State.asked (s : State) (id : Nat) : Req := (s.req id).asked

@[simp] theorem asked_mk (s : State) (id : Nat) (a b c d e f g h i j k l m n o p q r t u v w x y z) :
    State.asked ⟨a, b, c, d, e, f, g, h, i, j, k, l, m, n, o, p, q, r, t, u, s.reqs, v, w, x, y, z⟩ id = s.asked id := rfl

@[simp] theorem asked_ite (p : Prop) [Decidable p] (s t : State) (id : Nat) :
    (if p then s else t).asked id = if p then s.asked id else t.asked id :=
  apply_ite (State.asked · id) p s t

@[simp] theorem asked_foldl {α : Type} (f : State → α → State) (l : List α) (s : State) (id : Nat)
    (h : ∀ s a, (f s a).asked id = s.asked id) : (l.foldl f s).asked id = s.asked id := by
  induction l generalizing s with
  | nil => rfl
  | cons a l ih => exact (ih _).trans (h s a)

section
variable (s : State) (id : Nat)

theorem asked_modReq (k : Nat) (f : Req → Req) (h : ∀ r, (f r).asked = r.asked) : (s.modReq k f).asked id = s.asked id := by
  rw [State.asked, State.req_modReq]
  split
  · subst_vars
    exact h _
  · rfl

/-- A change of the course of a request. -/
@[simp] theorem asked_course (k : Nat) (a : Req → List Nat) (b h : Req → Bool) (c d e f g i j : Req → Nat) :
    (s.modReq k fun r => { r with
      after := a r, all := b r, follow := c r, tag := d r, stage := e r, issued := f r, gen := g r, hit := h r, value := i r,
      agent := j r }).asked id = s.asked id :=
  asked_modReq s id k _ fun _ => rfl

@[simp] theorem asked_modCore (k : Nat) (f : Core → Core) : (s.modCore k f).asked id = s.asked id := rfl
@[simp] theorem asked_modDie (k : Nat) (f : Die → Die) : (s.modDie k f).asked id = s.asked id := rfl
@[simp] theorem asked_modDir (k : Nat) (f : Dir → Dir) : (s.modDir k f).asked id = s.asked id := rfl
@[simp] theorem asked_modLink (k : Nat) (f : Link → Link) : (s.modLink k f).asked id = s.asked id := rfl
@[simp] theorem asked_modPkg (k : Nat) (f : Pkg → Pkg) : (s.modPkg k f).asked id = s.asked id := rfl
@[simp] theorem asked_fresh : s.fresh.2.asked id = s.asked id := rfl
@[simp] theorem asked_chooseBelow (n : Nat) : (s.chooseBelow n).2.asked id = s.asked id := rfl
@[simp] theorem asked_post (n : Nat) (e : Ev) : (s.post n e).asked id = s.asked id := rfl
@[simp] theorem asked_postFirst (e : Ev) : (s.postFirst e).asked id = s.asked id := rfl
@[simp] theorem asked_pmcAdd (c k n : Nat) : (pmcAdd s c k n).asked id = s.asked id := rfl
@[simp] theorem asked_countUe (line : Nat) : (countUe s line).asked id = s.asked id := rfl
@[simp] theorem asked_rdcDrop (line : Nat) : (rdcDrop s line).asked id = s.asked id := rfl

@[simp] theorem asked_raise (d : Nat) (r : EvRec) : (s.raise d r).asked id = s.asked id := by simp [State.raise]

@[simp] theorem asked_pumpDir (dir : Nat) : (pumpDir s dir).asked id = s.asked id := by simp [pumpDir]

@[simp] theorem asked_pumpLink (l : Nat) : (pumpLink s l).asked id = s.asked id := by simp [pumpLink]

@[simp] theorem asked_forward (m : Nat) (passing : Bool) : (forward s m passing).asked id = s.asked id := by
  fun_cases forward s m passing <;> simp +zetaDelta

@[simp] theorem asked_send (src dst vc base : Nat) (own : Bool) (e : Ev) : (send s src dst vc base own e).asked id = s.asked id := by
  simp [send]

@[simp] theorem asked_sendReq (src dst : Nat) (e : Ev) : (sendReq s src dst e).asked id = s.asked id := by simp [sendReq]

@[simp] theorem asked_countCorrected (line : Nat) : (countCorrected s line).asked id = s.asked id := by simp [countCorrected]

@[simp] theorem asked_countBad (line : Nat) : (countBad s line).asked id = s.asked id := by simp [countBad]

@[simp] theorem asked_applyResidue (line : Nat) (es : List (Nat × Byte)) : (applyResidue s line es).asked id = s.asked id := by
  simp [applyResidue]

@[simp] theorem asked_takeFix (line : Nat) (es fix : List (Nat × Byte)) : (takeFix s line es fix).asked id = s.asked id := by
  simp [takeFix]

@[simp] theorem asked_rdcDecode (line : Nat) : (rdcDecode s line).asked id = s.asked id := by
  fun_cases rdcDecode s line <;> simp

@[simp] theorem asked_rdcGet (d pa : Nat) : (rdcGet s d pa).1.asked id = s.asked id := by simp [rdcGet]

@[simp] theorem asked_toAgent (k : Nat) : (toAgent s k).asked id = s.asked id := by simp [toAgent]

@[simp] theorem asked_takeNow (k v n : Nat) : (takeNow s k v n).asked id = s.asked id := by simp [takeNow]

/-- A request on its way asks for what it asked for. -/
@[simp] theorem asked_launchReq (k : Nat) : (launchReq s k).asked id = s.asked id := by
  fun_cases launchReq s k
  case case8 e _ e' => simp +zetaDelta [snd_eq e', fst_eq e]
  case case9 e _ _ e' _ => simp +zetaDelta [snd_eq e', fst_eq e]
  case case10 e => simp +zetaDelta [fst_eq e]
  all_goals simp +zetaDelta

@[simp] theorem asked_performMate (lead : Req) (k : Nat) : (performMate s lead k).asked id = s.asked id := by
  simp [performMate]

@[simp] theorem asked_pollMate (k : Nat) : (pollMate s k).asked id = s.asked id := by simp [pollMate]

@[simp] theorem asked_tlbTouch (core va : Nat) : (tlbTouch s core va).asked id = s.asked id := by
  unfold tlbTouch
  split <;> rfl

@[simp] theorem asked_bufCount (d b n : Nat) : (bufCount s d b n).asked id = s.asked id := by simp [bufCount, bufNote]

end

/-! ### Memory after a request has gone on its way -/

/-- `s'` has the memories of `s`, or those that a look into the remote-data cache of die `d` for address `pa` leaves of them. -/
def Looked (d pa : Nat) (s s' : State) : Prop :=
  s'.memories = s.memories ∨
    ∃ u : State, u.memories = s.memories ∧ u.errs = s.errs ∧ u.dies = s.dies ∧ s'.memories = (rdcGet u d pa).1.memories

/-- A look after the counter of a miss, where it counts. -/
theorem Looked.of_get {q : Prop} [Decidable q] {d pa c k n : Nat} {s u w s' : State} {o : Option (List Byte)}
    (e : rdcGet (if q then pmcAdd u c k n else u) d pa = (w, o)) (hm : u.memories = s.memories) (he : u.errs = s.errs)
    (hd : u.dies = s.dies) (hs : s'.memories = w.memories) : Looked d pa s s' := by
  refine .inr ⟨if q then pmcAdd u c k n else u, ?_, ?_, ?_, by rw [hs, e]⟩
  · simpa using hm
  · split <;> exact he
  · split <;> exact hd

theorem Looked.onLines {d pa : Nat} {s s' : State} (h : Looked d pa s s') : OnLines (rdcWays s d pa) s s' := by
  obtain h | ⟨u, hm, -, hd, h⟩ := h
  · exact .of_eq (mem_of_memories h)
  · rw [← rdcWays_congr (s := s) (s' := u) (by simp only [State.die, hd])]
    exact (OnLines.of_eq (mem_of_memories hm)).trans ((onLines_rdcGet u d pa).trans (.of_eq (mem_of_memories h)))

/-- A look after a step that leaves the memories, their errors and the dies. -/
theorem Looked.from {d pa : Nat} {s u s' : State} (h : Looked d pa u s') (hm : u.memories = s.memories) (he : u.errs = s.errs)
    (hd : u.dies = s.dies) : Looked d pa s s' := by
  obtain h | ⟨v, vm, ve, vd, h⟩ := h
  · exact .inl (h.trans hm)
  · exact .inr ⟨v, vm.trans hm, ve.trans he, vd.trans hd, h⟩

/-- Without errors in memory a look changes nothing. -/
theorem Looked.memories_of_errs {d pa : Nat} {s s' : State} (h : Looked d pa s s') (he : s.errs = []) :
    s'.memories = s.memories := by
  obtain h | ⟨u, hm, hu, -, h⟩ := h
  · exact h
  · rw [h, rdcGet_of_errs (hu.trans he), hm]

/-- The one step of a request's way that may change memory is its look into its die's remote-data cache. -/
theorem looked_launchReq (s : State) (id : Nat) :
    Looked (dieOfCore (s.req id).core) (s.req id).pa s (launchReq s id) := by
  fun_cases launchReq s id
  case case8 e _ e' => exact .of_get e (by simp +zetaDelta) rfl rfl (by simp [snd_eq e'])
  case case9 e _ _ e' _ => exact .of_get e (by simp +zetaDelta) rfl rfl (by simp [snd_eq e'])
  case case10 e => exact .of_get e (by simp +zetaDelta) rfl rfl (by simp)
  all_goals exact .inl (by simp +zetaDelta)

end Sys2Proof.Machine
end

