-- ==== Sys2Proof/Proofs/Issue.lean ====
section
/-! PROOFS. The issue of an access (R95, R194, R200): its registers are empty, its request is under way, everything else that a
thread can read stands as it stood. -/

namespace Sys2Proof.Machine

/-! ### Registers marked empty -/

/-- A state without its threads. -/
def State.noThreads (s : State) : State := { s with threads := [] }

@[simp] theorem noThreads_modThread (s : State) (k : Nat) (f : Thread → Thread) : (s.modThread k f).noThreads = s.noThreads := rfl

/-- Registers marked empty are a change of the threads alone. -/
@[simp] theorem noThreads_emptyG (s : State) (t r tag n : Nat) : (s.emptyG t r tag n).noThreads = s.noThreads := by
  induction n generalizing s r with
  | zero => rfl
  | succ n ih => exact ih ..

theorem greg_emptyG (s : State) (t r tag n u k : Nat) : (s.emptyG t r tag n).greg u k =
    if u = t ∧ r ≤ k ∧ k < r + n then { s.greg u k with full := false, tag := tag } else s.greg u k := by
  induction n generalizing s r with
  | zero =>
    rw [if_neg (by omega)]
    rfl
  | succ n ih =>
    rw [State.emptyG, ih, greg_modG]
    by_cases hk : u = t ∧ k = r
    · obtain ⟨rfl, rfl⟩ := hk
      rw [if_neg (by omega), if_pos ⟨rfl, rfl⟩, if_pos (by omega)]
    · have hiff : (u = t ∧ r + 1 ≤ k ∧ k < r + 1 + n) ↔ (u = t ∧ r ≤ k ∧ k < r + (n + 1)) := by omega
      rw [if_neg hk]
      simp only [hiff]

/-! ### The entry of a request -/

/-- The request under its number, its registers empty, and the thread's later accesses held behind it where its order says so. -/
def enterReq (s : State) (id : Nat) (r : Req) : State :=
  let s : State := { s with reqs := kvSet s.reqs id r }
  let s := if isRead r.kind then s.emptyG r.thread r.reg id r.n else s
  if holdsLater r then s.modThread r.thread fun t => { t with acq := id :: t.acq } else s

theorem enterReq_noThreads (s : State) (id : Nat) (r : Req) :
    (enterReq s id r).noThreads = { s with reqs := kvSet s.reqs id r, threads := [] } := by
  unfold enterReq
  dsimp only
  by_cases hl : holdsLater r = true <;> by_cases hr : isRead r.kind = true
  · rw [if_pos hl, if_pos hr, noThreads_modThread, noThreads_emptyG]
    rfl
  · rw [if_pos hl, if_neg hr, noThreads_modThread]
    rfl
  · rw [if_neg hl, if_pos hr, noThreads_emptyG]
    rfl
  · rw [if_neg hl, if_neg hr]
    rfl

theorem greg_holdLater (s : State) (p : Prop) [Decidable p] (t id u k : Nat) :
    (if p then s.modThread t fun h => { h with acq := id :: h.acq } else s).greg u k = s.greg u k := by
  split
  · unfold State.greg
    rw [State.thread_modThread]
    split
    · subst_vars
      rfl
    · rfl
  · rfl

theorem greg_enterReq (s : State) (id : Nat) (r : Req) (u k : Nat) : (enterReq s id r).greg u k =
    if isRead r.kind = true ∧ u = r.thread ∧ r.reg ≤ k ∧ k < r.reg + r.n then { s.greg u k with full := false, tag := id }
    else s.greg u k := by
  unfold enterReq
  rw [greg_holdLater]
  by_cases h : isRead r.kind = true
  · rw [if_pos h, greg_emptyG]
    simp only [h, true_and]
    rfl
  · rw [if_neg h, if_neg fun e => h e.1]
    rfl

/-! ### The issue -/

/-- The access whose read entry serves a request, where its kind shares one (R194). -/
def issueLead (s : State) (r : Req) : Nat :=
  if (match r.kind with
    | .ld | .ldc | .pref => true
    | _ => false) then leaderOf s r else 0

/-- A request as it is entered. -/
def entered (s : State) (r : Req) : Req :=
  { r with after := earlier s r, follow := issueLead s r, stage := if issueLead s r = 0 then 0 else 1, tag := s.nextId,
           gen := genOf s.fresh.2 r.core r.cls, all := isRel r.order }

/-- A request that is entered is served with the entry of another, goes on its way, or waits. -/
def sendOff (s : State) (id : Nat) (r : Req) : State :=
  if r.follow ≠ 0 then pollMate s id else if mayGo s id r then launchReq s id else s

theorem issueReq_eq (s : State) (r : Req) : issueReq s r =
    if takesRead r.kind && decide (issueLead s r = 0) && decide (4096 ≤ readEntries s r.core) then none
    else if takesWrite r.kind && decide (2048 ≤ writeEntries s r.core) then none
    else if countsAck r && decide (4095 ≤ ackCount s (r.thread / 32)) then none
    else some (sendOff (enterReq s.fresh.2 s.nextId (entered s r)) s.nextId (entered s r)) := rfl

/-- An access is issued where the entries of its core have room, and an acknowledgement of its warp (R194, R366). -/
theorem issueReq_of_room {s : State} {r : Req} (hr : readEntries s r.core < 4096) (hw : writeEntries s r.core < 2048)
    (ha : ackCount s (r.thread / 32) < 4095) :
    issueReq s r = some (sendOff (enterReq s.fresh.2 s.nextId (entered s r)) s.nextId (entered s r)) := by
  rw [issueReq_eq, if_neg (by simp [Nat.not_le.2 hr]), if_neg (by simp [Nat.not_le.2 hw]), if_neg (by simp [Nat.not_le.2 ha])]

theorem eq_sendOff_of_issueReq {s s1 : State} {r : Req} (h : issueReq s r = some s1) :
    s1 = sendOff (enterReq s.fresh.2 s.nextId (entered s r)) s.nextId (entered s r) := by
  rw [issueReq_eq] at h
  split at h
  · exact nomatch h
  split at h
  · exact nomatch h
  split at h
  · exact nomatch h
  exact (Option.some.inj h).symm

/-! ### What an issue changes -/

section
variable (s : State) (id : Nat)

@[simp] theorem seats_pollMate : (pollMate s id).seats = s.seats := by simp [pollMate, performMate]

@[simp] theorem apart_pollMate : (pollMate s id).apart = s.apart := by simp [pollMate, performMate]

variable (r : Req)

@[simp] theorem seats_sendOff : (sendOff s id r).seats = s.seats := by simp [sendOff]

@[simp] theorem apart_sendOff : (sendOff s id r).apart = s.apart := by simp [sendOff]

@[simp] theorem asked_sendOff (k : Nat) : (sendOff s id r).asked k = s.asked k := by simp [sendOff]

theorem looked_sendOff : Looked (dieOfCore (s.req id).core) (s.req id).pa s (sendOff s id r) := by
  unfold sendOff
  split
  · exact .inl (memories_pollMate ..)
  · split
    · exact looked_launchReq s id
    · exact .inl rfl

theorem memories_sendOff (h : (s.req id).cls ≠ 1) : (sendOff s id r).memories = s.memories := by
  unfold sendOff
  split
  · exact memories_pollMate ..
  · split
    · exact memories_launchReq h
    · rfl

end

/-- The state `s1` in which the request `r` is under way with number `id`, issued in `s`. -/
structure Requested (id : Nat) (r : Req) (s s1 : State) : Prop where
  asked : s1.asked id = r.asked
  greg : ∀ u k, s1.greg u k =
    if isRead r.kind = true ∧ u = r.thread ∧ r.reg ≤ k ∧ k < r.reg + r.n then { s.greg u k with full := false, tag := id }
    else s.greg u k
  cellar : s1.cellar = s.cellar
  looked : Looked (dieOfCore r.core) r.pa s s1
  plain : r.cls ≠ 1 → s1.memories = s.memories

theorem cellar_of_apart {s s' : State} (h : s'.apart = s.apart) : s'.cellar = s.cellar :=
  show s'.apart.cellar = s.apart.cellar by rw [h]

theorem requested_of_issueReq {s s1 : State} {r : Req} (h : issueReq s r = some s1) : Requested s.nextId r s s1 := by
  obtain rfl := eq_sendOff_of_issueReq h
  have hu := enterReq_noThreads s.fresh.2 s.nextId (entered s r)
  have hreq : (enterReq s.fresh.2 s.nextId (entered s r)).req s.nextId = entered s r := by
    show kvGet {} (enterReq s.fresh.2 s.nextId (entered s r)).noThreads.reqs s.nextId = _
    rw [hu, kvGet_kvSet_same]
  have hm : (enterReq s.fresh.2 s.nextId (entered s r)).memories = s.memories := by
    show (enterReq s.fresh.2 s.nextId (entered s r)).noThreads.memories = _
    rw [hu]
    rfl
  have he : (enterReq s.fresh.2 s.nextId (entered s r)).errs = s.errs := by
    show (enterReq s.fresh.2 s.nextId (entered s r)).noThreads.errs = _
    rw [hu]
    rfl
  have hd : (enterReq s.fresh.2 s.nextId (entered s r)).dies = s.dies := by
    show (enterReq s.fresh.2 s.nextId (entered s r)).noThreads.dies = _
    rw [hu]
    rfl
  generalize hx : enterReq s.fresh.2 s.nextId (entered s r) = u at *
  refine ⟨?_, ?_, ?_, ?_, ?_⟩
  · rw [asked_sendOff, State.asked, hreq]
    rfl
  · intro t k
    rw [greg_of_seats (seats_sendOff ..), ← hx, greg_enterReq]
    rfl
  · rw [cellar_of_apart (apart_sendOff ..)]
    exact congrArg (·.2.1) hm
  · have hl := looked_sendOff u s.nextId (entered s r)
    rw [hreq] at hl
    exact hl.from hm he hd
  · intro hc
    rw [memories_sendOff _ _ _ (by rw [hreq]; exact hc), hm]

end Sys2Proof.Machine
end

