-- ==== Sys2Proof/Proofs/Accesses.lean ====
section
/-! PROOFS. The accesses of LD, LDC, ST, ATOM, RED, CAS and LDB: the request that each issues once its checks pass (O33), and the
checks in their order (O34). -/

namespace Sys2Proof.Machine

/-! ### The request of an access -/

/-- The request of an access of kind `k` with operands `v`, made of what does not depend on its kind. -/
def accessReq (k : ReqKind) (x : Ins) (s : State) (t : Nat) (v : Vals) (r : Req) : Req :=
  match k with
  | .ld => ldReq x v r
  | .ldc => ldcReq x v r
  | .st => stReq x (gNum s t x.f.d.toNat (max 1 (memSize x / 4))) r
  | .atom | .red => atomReq x v r
  | .cas => casReq x v r
  | _ => ldbReq x v r

/-- The seven instructions are one function of the kind of their access. -/
theorem exec_access {i : Instr} {x : Ins} {k : ReqKind} (hk : accessKind i = some k) (hx : i.ins? = some x) (s : State) :
    exec i s = perThread x 1 noEnd
      (fun t s => access k (fun x v r => accessReq k x s t v r) (accessSize k) x t s) s := by
  rw [exec_ins hx]
  cases i
  all_goals first
    | (obtain rfl := Option.some.inj hk; obtain rfl := Option.some.inj hx; rfl)
    | exact nomatch hk

section
variable (k : ReqKind) (x : Ins) (s : State) (t : Nat) (v : Vals) (r : Req)

/-- The parts of a request that the kind leaves. -/
theorem accessReq_base : let q := accessReq k x s t v r
    q.kind = r.kind ∧ q.thread = r.thread ∧ q.core = r.core ∧ q.va = r.va ∧ q.cls = r.cls ∧ q.pa = r.pa ∧ q.reg = r.reg := by
  cases k <;> exact ⟨rfl, rfl, rfl, rfl, rfl, rfl, rfl⟩

theorem accessReq_size : (accessReq k x s t v r).size = accessSize k x := by cases k <;> rfl

theorem accessReq_order : (accessReq k x s t v r).order = if k = .ldc then 0 else r.order := by cases k <;> rfl

/-- A read lands in the registers of its bytes, one at least. -/
theorem accessReq_n (h : isRead k = true) : (accessReq k x s t v r).n = max 1 (accessSize k x / 4) := by
  have ha : atomSize x / 4 = max 1 (atomSize x / 4) := by
    unfold atomSize
    split <;> rfl
  cases k
  case ld | ldc => rfl
  case atom | cas => exact ha
  case ldb => exact (show 1 = max 1 (4 / 4) by decide)
  all_goals exact absurd h (by decide)

end

/-! ### The issue of an access -/

theorem tlbTouch_cores (s : State) (core va : Nat) : ∃ cs, tlbTouch s core va = { s with cores := cs } := by
  unfold tlbTouch
  split
  · exact ⟨_, rfl⟩
  · exact ⟨s.cores, rfl⟩

@[simp] theorem seats_postFirst (s : State) (e : Ev) : (s.postFirst e).seats = s.seats := rfl

@[simp] theorem seats_bufNote (s : State) (d b : Nat) (f : Buf → Buf) : (bufNote s d b f).seats = s.seats := by
  unfold bufNote
  dsimp only
  split <;> rfl

@[simp] theorem seats_bufCount (s : State) (d b n : Nat) : (bufCount s d b n).seats = s.seats := seats_bufNote ..

/-- A request under way stays so where a write of it is noted on a buffer's record. -/
theorem Requested.bufCount {id : Nat} {r : Req} {s s1 : State} (h : Requested id r s s1) (d b n : Nat) :
    Requested id r s (bufCount s1 d b n) := by
  have hm : (Machine.bufCount s1 d b n).memories = s1.memories := memories_bufCount ..
  refine ⟨(asked_bufCount ..).trans h.asked, fun u k => (greg_of_seats (seats_bufCount ..) u k).trans (h.greg u k),
    (congrArg (·.2.1) hm).trans h.cellar, ?_, fun hc => hm.trans (h.plain hc)⟩
  obtain hl | ⟨u, um, ue, ud, hl⟩ := h.looked
  · exact .inl (hm.trans hl)
  · exact .inr ⟨u, um, ue, ud, hm.trans hl⟩

/-- A request issued after a hit in the translation cache. -/
theorem Requested.of_tlbTouch {id : Nat} {r : Req} {s s1 : State} {core va : Nat} (h : Requested id r (tlbTouch s core va) s1) :
    Requested id r s s1 := by
  obtain ⟨cs, e⟩ := tlbTouch_cores s core va
  rw [e] at h
  exact ⟨h.asked, h.greg, h.cellar, h.looked.from rfl rfl rfl, h.plain⟩

/-- A thread's request at a place, before its kind has its say. -/
def placeReq (k : ReqKind) (x : Ins) (t : Nat) (v : Vals) (p : Place) (s : State) : Req :=
  { reqBase x s t k with va := memAddr x v, cls := p.cls, pa := p.pa, limit := p.limit }

/-- An access whose checks pass, and for which entries are free, is under way. -/
theorem access_issues {k : ReqKind} {mk : Ins → Vals → Req → Req} {al : Ins → Nat} {x : Ins} {t : Nat} {s : State} {v : Vals} {p : Place}
    (hg : gather s x t = .vals v) (hc : checkAccess s k (coreOfThread t) (memAddr x v) (al x) = .ok p)
    (hmk : ∀ r, (mk x v r).core = r.core ∧ (mk x v r).thread = r.thread)
    (hr : readEntries s (coreOfThread t) < 4096) (hw : writeEntries s (coreOfThread t) < 2048) (ha : ackCount s (t / 32) < 4095) :
    ∃ s1 u, access k mk al x t s = .ok s1 ∧ Requested s.nextId (mk x v (placeReq k x t v p u)) s s1 := by
  obtain ⟨cs, e⟩ := tlbTouch_cores s (coreOfThread t) (memAddr x v).toNat
  have hi := issueReq_of_room (s := tlbTouch s (coreOfThread t) (memAddr x v).toNat)
    (r := mk x v (placeReq k x t v p (tlbTouch s (coreOfThread t) (memAddr x v).toNat)))
    (by rw [(hmk _).1, e]; exact hr) (by rw [(hmk _).1, e]; exact hw) (by rw [(hmk _).2, e]; exact ha)
  have hq := requested_of_issueReq hi
  generalize sendOff _ _ _ = s2 at hi hq
  have hid : (tlbTouch s (coreOfThread t) (memAddr x v).toNat).nextId = s.nextId := by rw [e]
  rw [hid] at hq
  simp only [access, hg, accessChecks, hc]
  unfold placeReq at hi
  rw [hi]
  dsimp only
  split
  · split
    · exact ⟨_, _, rfl, hq.of_tlbTouch.bufCount ..⟩
    · exact ⟨_, _, rfl, hq.of_tlbTouch⟩
  · exact ⟨_, _, rfl, hq.of_tlbTouch⟩

/-- Settles O33: the access issues the request of its kind, with the entries that are free. -/
theorem accessesAreIssued : Obligations.AccessesAreIssued := by
  intro i x k s t v p hk hx core n regN ht hg hc hr hw ha
  obtain ⟨s1, u, hb, hq⟩ := access_issues (mk := fun x v r => accessReq k x s t v r) (al := accessSize k) hg hc
    (fun r => by obtain ⟨-, h2, h3, -⟩ := accessReq_base k x s t v r; exact ⟨h3, h2⟩) hr hw ha
  obtain ⟨hkind, hthread, hcore, hva, hcls, hpa, hreg⟩ := accessReq_base k x s t v (placeReq k x t v p u)
  have hask {α : Type} (f : Req → α) (hf : ∀ r, f r.asked = f r) :
      f (s1.req s.nextId) = f (accessReq k x s t v (placeReq k x t v p u)) := by
    rw [← hf, ← hf (accessReq ..)]
    exact congrArg f hq.asked
  refine ⟨s1, s.nextId, passes_of_ok ht (exec_access hk hx s) hb, fun hc => ?_, hq.cellar, fun hm a hl => ?_, ?_, ?_, ?_, ?_, ?_, ?_, ?_, ?_, ?_,
    ?_, ?_, ?_, ?_⟩
  · exact mem_of_memories (hq.plain (hcls ▸ hc))
  · refine hq.looked.onLines.get hm.1 a ?_
    rwa [hcore, hpa]
  · exact (hask Req.kind fun _ => rfl).trans hkind
  · exact (hask Req.thread fun _ => rfl).trans hthread
  · exact (hask Req.va fun _ => rfl).trans hva
  · exact (hask Req.cls fun _ => rfl).trans hcls
  · exact (hask Req.pa fun _ => rfl).trans hpa
  · exact (hask Req.size fun _ => rfl).trans (accessReq_size ..)
  · exact (hask Req.order fun _ => rfl).trans (accessReq_order ..)
  · rintro rfl
    exact hask Req.data fun _ => rfl
  · rintro (rfl | rfl) <;> exact ⟨hask Req.op fun _ => rfl, hask Req.data fun _ => rfl⟩
  · rintro rfl
    exact ⟨hask Req.data fun _ => rfl, hask Req.data2 fun _ => rfl⟩
  · rintro rfl
    exact hask Req.data fun _ => rfl
  · intro hread j hj
    have hn := accessReq_n k x s t v (placeReq k x t v p u) hread
    rw [hq.greg, if_pos ⟨hkind ▸ hread, hthread.symm, hreg ▸ Nat.le_add_right _ _, by rw [hreg, hn]; exact Nat.add_lt_add_left hj _⟩]
    exact ⟨rfl, rfl⟩
  · intro a r hout
    rw [hq.greg, if_neg]
    rintro ⟨h1, h2, h3, h4⟩
    replace h1 : isRead k = true := (congrArg isRead hkind).symm.trans h1
    rw [hreg] at h3 h4
    rw [accessReq_n k x s t v _ h1] at h4
    exact hout ⟨h1, h2.trans hthread, h3, h4⟩

/-! ### The checks in their order -/

section
variable {k : ReqKind} {n t : Nat} {addr : Dword} {s : State} {go : Place → TOut}

theorem checkXlate_top (acc : Nat) (h : addr.extractLsb' 56 8 ≠ 0) : checkXlate s (coreOfThread t) addr n acc = .fault 7 := if_pos h

theorem checkXlate_align (acc : Nat) (h : addr.extractLsb' 56 8 = 0) (ha : addr.toNat % n ≠ 0) :
    checkXlate s (coreOfThread t) addr n acc = .fault 8 := by
  rw [checkXlate, if_neg (not_not.2 h), if_pos ha]

/-- A fault of the checks of R199 notes a line only where the metadata of the line made it. -/
theorem accessChecks_fault {c : Nat} (h : checkAccess s k (coreOfThread t) addr n = .fault c) (hc : c ≠ 18) :
    accessChecks k n t addr s go = .fault c (accOf k) addr s := by
  simp only [accessChecks, h, noteLine, if_neg hc]
  split <;> rfl

theorem checkAccess_of_xlate_fault {c : Nat} (h : checkXlate s (coreOfThread t) addr n (accOf k) = .fault c) :
    checkAccess s k (coreOfThread t) addr n = .fault c := by
  rw [checkAccess, h]

section
variable (htop : addr.extractLsb' 56 8 = 0) (hal : addr.toNat % n = 0)
include htop hal

theorem accessChecks_xlate_fault {c : Nat} (h : xlate s (coreOfThread t) addr.toNat (accOf k) = .fault c) :
    accessChecks k n t addr s go = .fault c (accOf k) addr s := by
  simp [accessChecks, checkAccess, checkXlate, htop, hal, h]

theorem accessChecks_walk_fault {c : Nat} (h : xlate s (coreOfThread t) addr.toNat (accOf k) = .miss)
    (hw : walkFault s addr.toNat = some c) : accessChecks k n t addr s go = .fault c (accOf k) addr s := by
  simp [accessChecks, checkAccess, checkXlate, htop, hal, h, hw]

theorem accessChecks_miss (h : xlate s (coreOfThread t) addr.toNat (accOf k) = .miss) (hw : walkFault s addr.toNat = none) :
    accessChecks k n t addr s go = .wait (missWait s (coreOfThread t) addr) := by
  simp [accessChecks, checkAccess, checkXlate, htop, hal, h, hw]

variable {p : Place} (hp : xlate s (coreOfThread t) addr.toNat (accOf k) = .ok p)
include hp

theorem checkXlate_place : checkXlate s (coreOfThread t) addr n (accOf k) = .ok p := by
  simp [checkXlate, htop, hal, hp]

theorem accessChecks_class (hc : classFault s k p (s.asidOf (coreOfThread t)) = true) :
    accessChecks k n t addr s go = .fault 9 (accOf k) addr s :=
  accessChecks_fault (by simp [checkAccess, checkXlate_place htop hal hp, hc]) (by decide)

variable (hc : classFault s k p (s.asidOf (coreOfThread t)) = false)
include hc

theorem accessChecks_buffer (hb : bufFault s k (coreOfThread t) p = true) :
    accessChecks k n t addr s go = .fault 15 (accOf k) addr s :=
  accessChecks_fault (by simp [checkAccess, checkXlate_place htop hal hp, hc, hb]) (by decide)

/-- The line of a place is looked at last, and the look may have noted it. -/
theorem accessChecks_line {c : Nat} (hb : bufFault s k (coreOfThread t) p = false) (ha : k ≠ .acc) (hr : k ≠ .rack)
    (hl : lineFault s p.cls p.pa = some c) : accessChecks k n t addr s go = .fault c (accOf k) addr (noteLine s c p) := by
  simp [accessChecks, checkAccess, checkXlate_place htop hal hp, hp, hc, hb, ha, hr, hl]

end
end

/-- A thread that waits keeps its lane, and is tried again. -/
theorem perThread_wait {s s1 : State} {x : Ins} {t : Nat} (h : Turn s x t) (cost : Nat) (endf : EndFn) (body : Nat → State → TOut)
    (hb : body t s = .wait s1) : ∃ r : Run, perThread x cost endf body s = .next (setRun s1 (some r)) := by
  obtain ⟨r, rest, hr, ht, hp, -⟩ := h.run
  unfold perThread perThreadKeep
  simp only [hr, drainRun, ht, List.headD_cons, drainSub_turn rest h.alive h.guard, ne_eq, not_true_eq_false, and_false,
    if_false, atWarp_ports t hp, hb]
  exact ⟨_, rfl⟩

/-- Neither a thread nor a warp nor a byte of memory nor a request of `s'` is other than in `s`. -/
def Unmoved (s s' : State) : Prop := s'.threads = s.threads ∧ s'.warps = s.warps ∧ s'.mem = s.mem ∧ s'.reqs = s.reqs

theorem unmoved_missSend {s u : State} (h : Unmoved s u) (core va : Nat) : Unmoved s (missSend u core va) := by
  unfold missSend
  dsimp only
  split <;> exact h

/-- A miss asks for a translation and counts. -/
theorem unmoved_missWait (s : State) (core : Nat) (addr : Dword) : Unmoved s (missWait s core addr) := by
  refine unmoved_missSend ?_ core addr.toNat
  split
  · split <;> exact ⟨rfl, rfl, rfl, rfl⟩
  · split <;> exact ⟨rfl, rfl, rfl, rfl⟩

/-- The access of an instruction by its checks: what its body makes of operands that it has. -/
theorem exec_checked {i : Instr} {x : Ins} {k : ReqKind} {s : State} {t : Nat} {v : Vals}
    (hk : accessKind i = some k ∨ (∃ f, i = .acc f) ∧ k = .acc ∨ (∃ f, i = .rack f) ∧ k = .rack) (hx : i.ins? = some x)
    (hg : gather s x t = .vals v) :
    ∃ body go, exec i s = perThread x 1 noEnd body s ∧ body t s = accessChecks k (accessSize k x) t (memAddr x v) s go := by
  obtain hk | ⟨⟨f, rfl⟩, rfl⟩ | ⟨⟨f, rfl⟩, rfl⟩ := hk
  · exact ⟨_, _, exec_access hk hx s, by simp only [access, hg]; rfl⟩
  · obtain rfl := Option.some.inj hx
    exact ⟨_, _, rfl, by simp only [accThread, hg]; rfl⟩
  · obtain rfl := Option.some.inj hx
    exact ⟨_, _, rfl, by simp only [rackThread, hg]; rfl⟩

/-- Settles O34: every check that fails leaves the state as it was but for a line that is noted. -/
theorem accessFaultsComeInOrder : Obligations.AccessFaultsComeInOrder := by
  intro i x k s t v hk hx core n addr ht hg
  obtain ⟨body, go, he, hb⟩ := exec_checked hk hx hg
  have traps {c : Nat} (h : accessChecks k n t addr s go = .fault c (accOf k) addr s) : Traps i t c (accOf k) addr s :=
    traps_of_fault ht he (hb.trans h)
  refine ⟨fun htop => ?_, fun htop hal => ?_, fun htop hal => ⟨fun c hc => ?_, fun hm => ⟨fun c hw => ?_, fun hw => ?_⟩,
    fun p hp => ⟨fun hc => ?_, fun hc hbuf => ?_, fun c hc hbuf ha hr hl => ?_⟩⟩⟩
  · exact traps (accessChecks_fault (checkAccess_of_xlate_fault (checkXlate_top _ htop)) (by decide))
  · exact traps (accessChecks_fault (checkAccess_of_xlate_fault (checkXlate_align _ htop hal)) (by decide))
  · exact traps (accessChecks_xlate_fault htop hal hc)
  · exact traps (accessChecks_walk_fault htop hal hm hw)
  · obtain ⟨r, hrun⟩ := perThread_wait ht 1 noEnd body (hb.trans (accessChecks_miss htop hal hm hw))
    exact ⟨_, he.trans hrun, unmoved_missWait s core addr⟩
  · exact traps (accessChecks_class htop hal hp hc)
  · exact traps (accessChecks_buffer htop hal hp hc hbuf)
  · exact trapsOn_of_fault ht he (hb.trans (accessChecks_line htop hal hp hc hbuf ha hr hl))

end Sys2Proof.Machine
end

