-- ==== Sys2Proof/Proofs/Fences.lean ====
section
/-! PROOFS. PREF, FENCE and FLSH (R202, R207, R229; O35). -/

namespace Sys2Proof.Machine

/-! ### PREF (R202) -/

/-- A PREF with its operands either does nothing, or has a request under way for the sector of a place that passes its checks. -/
theorem prefThread_vals {s : State} {x : Ins} {t : Nat} {v : Vals} (hg : gather s x t = .vals v) :
    ∃ s1, prefThread x t s = .ok s1 ∧ (s1 = s ∨ ∃ p r, checkAccess s .pref (coreOfThread t) (memAddr x v) 4 = .ok p ∧
      r.kind = .pref ∧ r.cls = p.cls ∧ r.pa = p.pa / 32 * 32 ∧ r.core = coreOfThread t ∧ Requested s.nextId r s s1) := by
  simp only [prefThread, hg]
  split
  · rename_i p hp
    split
    · exact ⟨s, rfl, .inl rfl⟩
    · cases hi : issueReq s { reqBase x s t .pref with
          va := memAddr x v, cls := p.cls, pa := p.pa / 32 * 32, size := 32, order := 0 } with
      | none => exact ⟨s, rfl, .inl rfl⟩
      | some s1 => exact ⟨s1, rfl, .inr ⟨p, _, hp, rfl, rfl, rfl, rfl, requested_of_issueReq hi⟩⟩
  · exact ⟨s, rfl, .inl rfl⟩

/-- The ways of a sector are those of its line. -/
theorem rdcWays_sector (s : State) (d pa : Nat) : rdcWays s d (pa / 32 * 32) = rdcWays s d pa := by
  have h : pa / 32 * 32 / 64 = pa / 64 := by omega
  simp only [rdcWays, h]

/-- A request that brings no register its value leaves every register. -/
theorem Requested.greg_of_not_read {id : Nat} {r : Req} {s s1 : State} (h : Requested id r s s1) (hr : isRead r.kind = false)
    (u k : Nat) : s1.greg u k = s.greg u k := by
  rw [h.greg, if_neg fun e => by rw [hr] at e; exact absurd e.1 (by decide)]

/-! ### FENCE (R229) -/

/-- A thread without an access and a warp without an acknowledgement owed have nothing for a fence to wait for. -/
theorem fenceDone_of_none {s : State} {t : Nat} (order scope : Nat) (h : ∀ r ∈ s.reqs, r.2.thread ≠ t) (ha : ackCount s (t / 32) = 0) :
    fenceDone s t order scope = true := by
  have hn : (s.reqs.filter fun r => decide (r.2.thread = t) && !r.2.failed) = [] :=
    List.filter_eq_nil_iff.2 fun r hr => by simp [h r hr]
  simp [fenceDone, hn, ha]

theorem fenceEnd_l1 {s : State} {t order scope : Nat} (ho : isAcq order = true) (hs : 1 ≤ scope) :
    ((fenceEnd s t order scope).core (coreOfThread t)).l1 = (s.core (coreOfThread t)).l1.filter fun e => e.2.ldc := by
  simp [fenceEnd, ho, hs, l1Acquire]

theorem fenceEnd_eq {s : State} {t order scope : Nat} (h : isAcq order = false ∨ scope = 0) : fenceEnd s t order scope = s := by
  obtain h | rfl := h
  · simp [fenceEnd, h]
  · simp [fenceEnd]

/-! ### FLSH (R207) -/

/-- A core with its L1 empty. -/
def clearL1 (s : State) (core : Nat) : State := s.modCore core fun c => { c with l1 := [] }

@[simp] theorem clearL1_l1 (s : State) (core : Nat) : ((clearL1 s core).core core).l1 = [] := by simp [clearL1]

/-- At the scope of the core FLSH clears the L1 and completes. -/
theorem flshThread_core {x : Ins} (h : x.scope ≤ 1) (t : Nat) (s : State) :
    flshThread x t s = .ok (clearL1 s (coreOfThread t)) := if_pos h

/-- At the scope of the die FLSH asks its own die to advance its generation, and waits. -/
theorem flshThread_die {x : Ins} (h : x.scope = 2) (t : Nat) (s : State) :
    ∃ (s1 : State) (id : Nat), flshThread x t s = .held (s1.hold t (.reply id)) ∧ (s1.core (coreOfThread t)).l1 = [] ∧ s1.seats = s.seats ∧
      (s.clk, .generationAdvance (dieOfCore (coreOfThread t)) id) ∈ s1.agenda := by
  have hd (s : State) : ((scopeDies s (dieOfCore (coreOfThread t)) x.scope).filter fun e =>
      e = dieOfCore (coreOfThread t) || (unreach s (dieOfCore (coreOfThread t)) e).isNone) = [dieOfCore (coreOfThread t)] := by
    simp [h, scopeDies]
  unfold flshThread
  simp only [hd, if_neg (show ¬ x.scope ≤ 1 by omega), List.foldl_cons, List.foldl_nil, if_true]
  exact ⟨_, _, rfl, clearL1_l1 s (coreOfThread t), rfl, mem_agenda_post _ _⟩

/-- Settles O35: the request of PREF, the end of FENCE and the generation that FLSH waits for. -/
theorem prefetchFenceAndFlush : Obligations.PrefetchFenceAndFlush := by
  intro f s t c
  refine ⟨fun ht => ⟨fun e he => ?_, fun v hv => ?_⟩, fun ht => ⟨fun hn ha => ?_, fun hd => ?_⟩, fun ht => ⟨fun hs => ?_, fun hs => ?_⟩⟩
  · exact passes_of_ok ht rfl (show prefThread _ t s = .ok s by simp only [prefThread, he])
  · obtain ⟨s1, hb, h⟩ := prefThread_vals hv
    refine ⟨s1, passes_of_ok ht rfl hb, ?_⟩
    obtain rfl | ⟨p, r, hp, hkind, hcls, hpa, hcore, hq⟩ := h
    · exact ⟨fun _ _ => rfl, rfl, fun _ => rfl, fun _ _ _ => rfl⟩
    · refine ⟨hq.greg_of_not_read (by rw [hkind]; rfl), hq.cellar, fun he => mem_of_memories (hq.looked.memories_of_errs he),
        fun hm a ha => ?_⟩
      by_cases hc : p.cls = 1
      · have hw := ha p hp hc
        rw [← rdcWays_sector, ← hpa] at hw
        exact hq.looked.onLines.get hm.1 a (hcore ▸ hw)
      · rw [mem_of_memories (hq.plain (hcls ▸ hc))]
  · refine ⟨_, passes_of_ok ht rfl (if_pos (fenceDone_of_none _ _ hn ha)), fun ho hs => fenceEnd_l1 ho hs, fun h => fenceEnd_eq h⟩
  · exact lands_of_jump ht rfl (.inr (if_neg (by simp [hd])))
  · exact ⟨_, passes_of_ok ht rfl (flshThread_core hs t s), clearL1_l1 s c⟩
  · obtain ⟨s1, id, hb, hl, hseats, ha⟩ := flshThread_die hs t s
    refine ⟨_, id, lands_of_jump ht rfl (.inr hb), hl, by simp [State.hold], ?_, ha⟩
    rw [← thread_of_seats hseats]
    simp [State.hold]

end Sys2Proof.Machine
end

