-- ==== Sys2Proof/Proofs/Buffers.lean ====
section
/-! PROOFS. BUFD, BUFS and BUFF on the records of declared buffers (R205, R206; O37). -/

namespace Sys2Proof.Machine

/-! ### An event noted on a record (R192) -/

theorem bufNote_record (s : State) (d b : Nat) (f : Buf → Buf) :
    kvGet {} ((bufNote s d b f).die d).buf b = f (kvGet {} (s.die d).buf b) := by
  unfold bufNote
  have h : kvGet {} ((s.modDie d fun x => { x with buf := kvSet x.buf b (f (kvGet {} x.buf b)) }).die d).buf b =
      f (kvGet {} (s.die d).buf b) := by
    rw [State.die_modDie_same, kvGet_kvSet_same]
  dsimp only
  split <;> exact h

theorem mem_agendaFirst (due : Nat) (e : Ev) (l : List (Nat × Ev)) : (due, e) ∈ agendaFirst due e l := by
  induction l with
  | nil => exact List.mem_cons_self
  | cons a l ih =>
    unfold agendaFirst
    split
    · exact List.mem_cons_of_mem _ ih
    · exact List.mem_cons_self

theorem bufNote_posted (s : State) (d b : Nat) (f : Buf → Buf) :
    (bufNote s d b f).posted (.bufferStateChange d b) = true := by
  unfold bufNote
  dsimp only
  split
  · assumption
  · exact List.any_eq_true.2 ⟨_, mem_agendaFirst .., decide_eq_true rfl⟩

/-! ### A word in D -/

/-- A word of a result that is no uniform one lands in the register D, and nothing else changes. -/
theorem putDest_word {x : Ins} (s : State) (t : Nat) (w : Word) (rdy : Nat) (hu : x.f.u = false) (hd : x.f.d.toNat < 240) :
    let s1 := putDest s x t 1 w.toNat false rdy
    (s1.greg t x.f.d.toNat).v = w ∧ (s1.greg t x.f.d.toNat).full = true ∧
      Kept s s1 (regs t x.f.d.toNat 1) noReg noThread noReg := by
  rw [putDest_registers s t 1 _ rdy hu hd]
  obtain ⟨hv, hf⟩ := greg_setGs s t x.f.d.toNat w.toNat rdy 1 0 Nat.one_pos
  exact ⟨hv.trans (by simp), hf, kept_setGs ..⟩

/-! ### BUFD (R205) -/

/-- The record that a first declaration makes. -/
def newBuf (s : State) (t base : Nat) (v : Vals) : Buf :=
  { decl := true, base := base, size := v.b, expect := v.c, owner := s.asidOf (coreOfThread t), serial := s.nextId, from_ := s.clk + 1 }

/-- A die with one of its records other. -/
def setBuf (s : State) (d b : Nat) (r : Buf) : State := s.modDie d fun y => { y with buf := kvSet y.buf b r }

theorem setBuf_record (s : State) (d b : Nat) (r : Buf) : kvGet {} ((setBuf s d b r).die d).buf b = r := by
  rw [setBuf, State.die_modDie_same, kvGet_kvSet_same]

section
variable {x : Ins} {t : Nat} {s : State} {v : Vals} (hv : gather s x t = .vals v)
include hv

theorem bufdThread_refused (h : bufdPlace s t x.f.d.toNat (BitVec.ofNat 64 v.a) v.b v.c true true = none) :
    bufdThread x t s = .fault 16 0 (BitVec.ofNat 64 v.a) s := by
  simp only [bufdThread, hv, h]

variable {base : Nat} (h : bufdPlace s t x.f.d.toNat (BitVec.ofNat 64 v.a) v.b v.c true true = some base)
include h

theorem bufdThread_again (hr : (kvGet {} (s.die (dieOfCore (coreOfThread t))).buf x.f.d.toNat).decl = true) :
    bufdThread x t s = .ok s := by
  simp only [bufdThread, hv, h]
  rw [if_pos hr]

/-- A record of its own for a range that is declared for the first time. -/
theorem bufdThread_new (hr : (kvGet {} (s.die (dieOfCore (coreOfThread t))).buf x.f.d.toNat).decl = false) :
    bufdThread x t s = .ok (setBuf s.fresh.2 (dieOfCore (coreOfThread t)) x.f.d.toNat (newBuf s t base v)) := by
  simp only [bufdThread, hv, h]
  rw [if_neg (by rw [hr]; decide)]
  rfl

end

/-! ### BUFS and BUFF (R206) -/

section
variable {x : Ins} {t : Nat} {s : State} {r : Buf}

/-- A record of the context's own is declared, and its declaration is in force. -/
theorem ownBuf_some {b : Nat} (h : ownBuf s t b = some r) :
    let r := kvGet {} (s.die (dieOfCore (coreOfThread t))).buf b
    r.decl = true ∧ r.from_ ≤ s.clk := by
  unfold ownBuf at h
  dsimp only at h
  split at h
  · rename_i hc
    simp only [Bool.and_eq_true, decide_eq_true_eq] at hc
    exact ⟨hc.1.1, hc.1.2⟩
  · exact nomatch h

/-- BUFS of a record of the context's own; its event is noted but under .q. -/
theorem bufsThread_own (h : ownBuf s t x.f.a.toNat = some r) (hq : x.mb 0 = false) :
    bufsThread x t s = .ok (bufNote (putDest s x t 1 (bufWord r).toNat false (s.rdy 1)) (dieOfCore (coreOfThread t)) x.f.a.toNat
      fun y => { y with setFull := true }) := by
  simp only [bufsThread, h, hq]
  rfl

theorem bufsThread_query (h : ownBuf s t x.f.a.toNat = some r) (hq : x.mb 0 = true) :
    bufsThread x t s = .ok (putDest s x t 1 (bufWord r).toNat false (s.rdy 1)) := by
  obtain ⟨hd, hf⟩ := ownBuf_some h
  simp only [bufsThread, h, hq]
  rw [if_neg (by simp [hd, hf])]
  rfl

/-- BUFS of another's record, which under .q is one that is in force. -/
theorem bufsThread_other (h : ownBuf s t x.f.a.toNat = none)
    (hq : let r := kvGet {} (s.die (dieOfCore (coreOfThread t))).buf x.f.a.toNat
      x.mb 0 = false ∨ r.decl = true ∧ r.from_ ≤ s.clk) : bufsThread x t s = .fault 16 0 0 s := by
  simp only [bufsThread, h]
  rw [if_neg]
  obtain hq | ⟨hd, hf⟩ := hq
  · simp [hq]
  · simp [hd, hf]

/-- BUFS.q of no record. -/
theorem bufsThread_none (hq : x.mb 0 = true) (h : (kvGet {} (s.die (dieOfCore (coreOfThread t))).buf x.f.a.toNat).decl = false) :
    bufsThread x t s = .ok (putDest s x t 1 (0 : Word).toNat false (s.rdy 1)) := by
  unfold bufsThread
  exact if_pos (by rw [hq, h]; rfl)

theorem buffThread_other (h : ownBuf s t x.f.a.toNat = none) : buffThread x t s = .fault 16 0 0 s := by
  simp only [buffThread, h]

theorem buffThread_draining (h : ownBuf s t x.f.a.toNat = some r) (hs : r.state = 3) : buffThread x t s = .fault 15 0 0 s := by
  simp only [buffThread, h]
  rw [if_pos hs]

theorem buffThread_own (h : ownBuf s t x.f.a.toNat = some r) (hs : r.state ≠ 3) :
    buffThread x t s = .ok (bufNote (putDest s x t 1 (bufWord r).toNat false (s.rdy 1)) (dieOfCore (coreOfThread t)) x.f.a.toNat
      fun y => { y with drop := true }) := by
  simp only [buffThread, h]
  rw [if_neg hs]

end

/-- BUFS and BUFS.q are one function of their instruction word. -/
theorem exec_bufs {f : Long} {i : Instr} {q : Bool} {x : Ins} (hi : i = .bufs f ∧ q = false ∨ i = .bufsQ f ∧ q = true)
    (hx : i.ins? = some x) (s : State) : x.f = f ∧ exec i s = perThread x 1 noEnd (bufsThread x) s := by
  obtain ⟨rfl, -⟩ | ⟨rfl, -⟩ := hi
  · obtain rfl := Option.some.inj hx
    exact ⟨rfl, rfl⟩
  · obtain rfl := Option.some.inj hx
    exact ⟨rfl, rfl⟩

/-- Settles O37, by the outcomes of the three instructions. -/
theorem bufferInstructionsUseTheRecord : Obligations.BufferInstructionsUseTheRecord := by
  intro f s t d
  refine ⟨fun v ht hv => ⟨fun hbad => ?_, fun base hok => ?_⟩, fun i q x hi hx hq hu hd ht => ?_,
    fun hu hd ht => ⟨fun hr => ?_, fun r hr => ⟨fun hs => ?_, fun hs => ?_⟩⟩⟩
  · exact traps_of_fault ht rfl (bufdThread_refused hv hbad)
  · cases hr : (kvGet {} (s.die d).buf f.d.toNat).decl with
    | true => exact ⟨s, passes_of_ok ht rfl (bufdThread_again hv hok hr), fun _ => rfl, fun h => (nomatch h)⟩
    | false =>
      refine ⟨_, passes_of_ok ht rfl (bufdThread_new hv hok hr), fun h => (nomatch h), fun _ => ?_⟩
      have e := setBuf_record s.fresh.2 d f.d.toNat (newBuf s t base v)
      exact ⟨congrArg Buf.decl e, congrArg Buf.state e, congrArg Buf.landed e, congrArg Buf.base e, congrArg Buf.size e,
        congrArg Buf.expect e, congrArg Buf.owner e, fun _ _ => rfl⟩
  · obtain ⟨rfl, he⟩ := exec_bufs hi hx s
    refine ⟨fun r hr => ?_, fun hr ho => ?_, fun hq1 hr => ?_⟩
    · obtain ⟨hv, hf, hk⟩ := putDest_word s t (bufWord r) (s.rdy 1) hu hd
      cases q with
      | true => exact ⟨_, passes_of_ok ht he (bufsThread_query hr hq), hv, hf, fun _ => hk, fun h => (nomatch h)⟩
      | false =>
        refine ⟨_, passes_of_ok ht he (bufsThread_own hr hq), ?_, ?_, fun h => (nomatch h), fun _ => ⟨?_, bufNote_posted ..⟩⟩
        · exact (congrArg GReg.v (greg_of_seats (seats_bufNote ..) t _)).trans hv
        · exact (congrArg GReg.full (greg_of_seats (seats_bufNote ..) t _)).trans hf
        · exact congrArg Buf.setFull (bufNote_record ..)
    · exact traps_of_fault ht he (bufsThread_other hr (hq ▸ ho))
    · obtain ⟨hv, -, hk⟩ := putDest_word s t 0 (s.rdy 1) hu hd
      exact ⟨_, passes_of_ok ht he (bufsThread_none (hq.trans hq1) hr), hv, hk⟩
  · exact traps_of_fault ht rfl (buffThread_other hr)
  · exact traps_of_fault ht rfl (buffThread_draining hr hs)
  · obtain ⟨hv, -⟩ := putDest_word (x := Ins.ofBody .buff (.long f)) s t (bufWord r) (s.rdy 1) hu hd
    refine ⟨_, passes_of_ok ht rfl (buffThread_own hr hs), ?_, congrArg Buf.drop (bufNote_record ..), bufNote_posted ..⟩
    exact (congrArg GReg.v (greg_of_seats (seats_bufNote ..) t _)).trans hv

end Sys2Proof.Machine
end

