-- ==== Sys2Proof/Proofs/Performing.lean ====
section
/-! PROOFS. An access performed at its place (R195, R200, R203, R204; O38): the bytes it leaves there, and the entries of its own die's
remote-data cache that a write of another die's page may refresh (R245). -/

namespace Sys2Proof.Machine

/-! ### The size of a die's remote-data cache -/

/-- The size of a die's remote-data cache. -/
def State.rdcSizeOf (s : State) (d : Nat) : Nat := (s.die d).rdcSize

section
variable (s : State) (d : Nat)

@[simp] theorem rdcSizeOf_mk (a b c e f g h i j k l m n o p q r t u v w x y z z') :
    State.rdcSizeOf ⟨a, b, c, e, f, g, h, i, j, k, l, s.dies, m, n, o, p, q, r, t, u, v, w, x, y, z, z'⟩ d = s.rdcSizeOf d := rfl

@[simp] theorem rdcSizeOf_ite (p : Prop) [Decidable p] (t : State) :
    (if p then s else t).rdcSizeOf d = if p then s.rdcSizeOf d else t.rdcSizeOf d :=
  apply_ite (State.rdcSizeOf · d) p s t

@[simp] theorem rdcSizeOf_foldl {α : Type} (f : State → α → State) (l : List α)
    (h : ∀ s a, (f s a).rdcSizeOf d = s.rdcSizeOf d) : (l.foldl f s).rdcSizeOf d = s.rdcSizeOf d := by
  induction l generalizing s with
  | nil => rfl
  | cons a l ih => exact (ih _).trans (h s a)

@[simp] theorem rdcSizeOf_modPkg (k : Nat) (f : Pkg → Pkg) : (s.modPkg k f).rdcSizeOf d = s.rdcSizeOf d := rfl
@[simp] theorem rdcSizeOf_post (n : Nat) (e : Ev) : (s.post n e).rdcSizeOf d = s.rdcSizeOf d := rfl
@[simp] theorem rdcSizeOf_countUe (line : Nat) : (countUe s line).rdcSizeOf d = s.rdcSizeOf d := rfl
@[simp] theorem rdcSizeOf_rdcDrop (line : Nat) : (rdcDrop s line).rdcSizeOf d = s.rdcSizeOf d := rfl

@[simp] theorem rdcSizeOf_raise (k : Nat) (r : EvRec) : (s.raise k r).rdcSizeOf d = s.rdcSizeOf d := by
  unfold State.raise
  split
  · rfl
  · rw [rdcSizeOf_post, State.rdcSizeOf, State.die_modDie]
    split
    · subst_vars
      rfl
    · rfl

@[simp] theorem rdcSizeOf_countCorrected (line : Nat) : (countCorrected s line).rdcSizeOf d = s.rdcSizeOf d := by
  simp [countCorrected]

@[simp] theorem rdcSizeOf_countBad (line : Nat) : (countBad s line).rdcSizeOf d = s.rdcSizeOf d := by simp [countBad]

@[simp] theorem rdcSizeOf_applyResidue (line : Nat) (es : List (Nat × Byte)) :
    (applyResidue s line es).rdcSizeOf d = s.rdcSizeOf d := by
  simp [applyResidue]

@[simp] theorem rdcSizeOf_takeFix (line : Nat) (es fix : List (Nat × Byte)) : (takeFix s line es fix).rdcSizeOf d = s.rdcSizeOf d := by
  simp [takeFix]

@[simp] theorem rdcSizeOf_rdcDecode (line : Nat) : (rdcDecode s line).rdcSizeOf d = s.rdcSizeOf d := by
  fun_cases rdcDecode s line <;> simp

@[simp] theorem rdcSizeOf_rdcGet (k pa : Nat) : (rdcGet s k pa).1.rdcSizeOf d = s.rdcSizeOf d := by simp [rdcGet]

end

/-! ### The refresh of an entry (R245) -/

/-- The bytes of a place are as many as they are asked for. -/
@[simp] theorem length_bytesAt (s : State) (cls pa n : Nat) : (bytesAt s cls pa n).length = n := by
  simp [bytesAt, memRead_eq_map]

/-- A cache without entries is not written. -/
theorem rdcStore_none {s : State} {d : Nat} (h : (s.die d).rdcSize = 0) (pa : Nat) : rdcStore s d pa = s := by
  have hg : rdcGet s d pa = (s, none) := if_pos h
  rw [rdcStore, hg]

/-- The sector of an address written into the entry `l`, whose metadata were `w`. -/
def fillWay (s : State) (pa l : Nat) (w : Word) : State :=
  { s with
    mem := memWrite s.mem (64 * l + pa / 32 % 2 * 32) (bytesAt s 1 (pa / 32 * 32) 32)
    metaw := kvSet s.metaw l (w ||| BitVec.ofNat 32 (2 ^ sectBit pa))
    errs := kvDel s.errs l }

theorem onLines_fillWay (s : State) (pa l : Nat) (w : Word) : OnLines [l] s (fillWay s pa l w) := by
  have hm : (fillWay s pa l w).mem = memWrite s.mem (64 * l + pa / 32 % 2 * 32) (bytesAt s 1 (pa / 32 * 32) 32) := by
    rw [fillWay]
  generalize hb : bytesAt s 1 (pa / 32 * 32) 32 = b at hm
  have hl : b.length = 32 := hb ▸ length_bytesAt ..
  exact onLines_memWrite (by omega) hm

/-- A way of the cache's own choice is one of the eight. -/
theorem chosenWay_mem (s : State) (d pa : Nat) : (rdcWays s d pa).getD (s.chooseBelow 8).1 0 ∈ rdcWays s d pa := by
  have hv : (s.chooseBelow 8).1 < (rdcWays s d pa).length := by
    simp only [rdcWays, List.length_map, List.length_range]
    exact Nat.mod_lt _ (by decide)
  rw [List.getD_eq_getElem _ _ hv]
  exact List.getElem_mem hv

/-- A fill writes a way of the address, where the die has a cache: the one that holds its sector, or one of the cache's own choice. -/
theorem rdcFill_cases (s : State) (d pa : Nat) : rdcFill s d pa = s ∨
    ∃ u, (u = s ∨ u = (s.chooseBelow 8).2) ∧ ∃ l ∈ rdcWays s d pa, ∃ w, rdcFill s d pa = fillWay u pa l w := by
  by_cases h : (s.die d).rdcSize = 0
  · exact .inl (if_pos h)
  · refine .inr ?_
    rw [rdcFill, if_neg h]
    cases hf : rdcFind s d pa with
    | some l => exact ⟨s, .inl rfl, l, List.mem_of_find?_eq_some hf, _, rfl⟩
    | none => exact ⟨_, .inr rfl, _, chosenWay_mem s d pa, _, rfl⟩

theorem onLines_rdcFill (s : State) (d pa : Nat) : OnLines (rdcWays s d pa) s (rdcFill s d pa) := by
  obtain h | ⟨u, hu, l, hl, w, h⟩ := rdcFill_cases s d pa
  · rw [h]
    exact .of_eq rfl
  · have hs : u.mem = s.mem := by obtain rfl | rfl := hu <;> rfl
    rw [h]
    exact (OnLines.of_eq hs).trans ((onLines_fillWay u pa l w).mono (by simpa using hl))

@[simp] theorem apart_rdcFill (s : State) (d pa : Nat) : (rdcFill s d pa).apart = s.apart := by
  obtain h | ⟨u, hu, l, -, w, h⟩ := rdcFill_cases s d pa
  · rw [h]
  · rw [h, fillWay, apart_mk]
    obtain rfl | rfl := hu <;> rfl

theorem onLines_rdcStore (s : State) (d pa : Nat) : OnLines (rdcWays s d pa) s (rdcStore s d pa) := by
  have hw : rdcWays (rdcGet s d pa).1 d pa = rdcWays s d pa := rdcWays_congr (rdcSizeOf_rdcGet s d d pa) pa
  have hg := onLines_rdcGet s d pa
  unfold rdcStore
  split
  · rename_i s1 data e
    rw [e] at hw hg
    exact hg.trans (hw ▸ onLines_rdcFill s1 d pa)
  · rename_i s1 e
    rwa [e] at hg

/-! ### A write at a place -/

/-- The byte of an address stands in a way of the remote-data cache of a core's die which that core's write of another die's G page may
refresh. -/
def Cached (s : State) (core cls pa a : Nat) : Prop :=
  cls = 1 ∧ homeDie pa ≠ dieOfCore core ∧ (s.die (dieOfCore core)).rdcSize ≠ 0 ∧ a / 64 ∈ rdcWays s (dieOfCore core) pa

/-- What `s'` keeps of `s` beside a write: registers, the cellars and every byte but those of the ways that the write may refresh. -/
structure Refreshed (core cls pa : Nat) (s s' : State) : Prop where
  apart : s'.apart = s.apart
  mem : Memory.wf s.mem = true → ∀ a, ¬ Cached s core cls pa a → memGet s'.mem a = memGet s.mem a

theorem seats_of_apart {s s' : State} (h : s'.apart = s.apart) : s'.seats = s.seats :=
  show s'.apart.seats = s.apart.seats by rw [h]

theorem rdcStore_eq (s : State) (d pa : Nat) :
    rdcStore s d pa = rdcFill (rdcGet s d pa).1 d pa ∨ rdcStore s d pa = (rdcGet s d pa).1 := by
  unfold rdcStore
  split <;> rename_i e <;> rw [e]
  · exact .inl rfl
  · exact .inr rfl

/-- A store of a die changes memory in the ways of its address alone, and none where the die has no cache. -/
theorem refreshed_rdcStore {core pa : Nat} (s : State) (h : homeDie pa ≠ dieOfCore core) :
    Refreshed core 1 pa s (rdcStore s (dieOfCore core) pa) := by
  refine ⟨?_, fun hw a ha => ?_⟩
  · obtain e | e := rdcStore_eq s (dieOfCore core) pa <;> rw [e] <;> simp
  · by_cases hz : (s.die (dieOfCore core)).rdcSize = 0
    · rw [rdcStore_none hz]
    · exact (onLines_rdcStore ..).get hw a fun hl => ha ⟨rfl, h, hz, hl⟩

/-- A write's sectors in the L1 of its core are a change of that core alone. -/
theorem l1Write_cores (s : State) (core pa : Nat) (store : Bool) (b : List Byte) :
    ∃ cs, (if store then l1Store s core pa b else l1Drop (l1Drop s core pa) core (pa + b.length - 1)) = { s with cores := cs } := by
  split <;> exact ⟨_, rfl⟩

theorem refreshed_afterWrite (s : State) (core cls pa : Nat) (store : Bool) (b : List Byte) :
    Refreshed core cls pa s (afterWrite s core cls pa store b) := by
  unfold afterWrite
  split
  · exact ⟨rfl, fun _ _ _ => rfl⟩
  · obtain ⟨cs, hl⟩ := l1Write_cores s core pa store b
    dsimp only
    rw [hl]
    split
    · rename_i hc
      simp only [Bool.and_eq_true, decide_eq_true_eq] at hc
      obtain ⟨rfl, hd⟩ := hc
      obtain ⟨h1, h2⟩ := refreshed_rdcStore { s with cores := cs } hd
      exact ⟨h1, h2⟩
    · exact ⟨rfl, fun _ _ _ => rfl⟩

theorem memRead_congr {m m' : List Host.Cell} {a n : Nat} (h : ∀ k < n, memGet m' (a + k) = memGet m (a + k)) :
    memRead m' a n = memRead m a n := by
  rw [memRead_eq_map, memRead_eq_map]
  exact List.map_congr_left fun k hk => h k (List.mem_range.1 hk)

theorem Refreshed.bytesAt {core cls pa c a n : Nat} {s s' : State} (h : Refreshed core cls pa s s') (hw : Memory.wf s.mem = true)
    (hc : c = 4 ∨ ∀ k < n, ¬ Cached s core cls pa (a + k)) : Machine.bytesAt s' c a n = Machine.bytesAt s c a n := by
  unfold Machine.bytesAt
  by_cases h4 : c = 4
  · rw [if_pos h4, if_pos h4, cellar_of_apart h.apart]
  · rw [if_neg h4, if_neg h4]
    exact memRead_congr fun k hk => h.mem hw _ (hc.resolve_left h4 k hk)

section
variable {s : State} {cls pa : Nat} {l : List Byte} (hm : Memory.wf s.mem = true) (hc : Memory.wf s.cellar = true)
include hm

theorem wf_putBytes : Memory.wf (putBytes s cls pa l).mem = true := by
  unfold putBytes
  split
  · exact hm
  · exact wf_memWrite _ _ hm

include hc

theorem bytesAt_putBytes_same : bytesAt (putBytes s cls pa l) cls pa l.length = l := by
  unfold bytesAt putBytes
  split
  · exact memRead_memWrite_same pa l hc
  · exact memRead_memWrite_same pa l hm

theorem bytesAt_putBytes_outside {c a n : Nat} (h : (c = 4 ↔ cls ≠ 4) ∨ a + n ≤ pa ∨ pa + l.length ≤ a) :
    bytesAt (putBytes s cls pa l) c a n = bytesAt s c a n := by
  have outside {m : List Host.Cell} (hw : Memory.wf m = true) (h : a + n ≤ pa ∨ pa + l.length ≤ a) :
      memRead (memWrite m pa l) a n = memRead m a n :=
    memRead_congr fun k hk => memGet_memWrite_outside hw (by omega)
  unfold bytesAt putBytes
  by_cases h4 : cls = 4 <;> by_cases hc4 : c = 4
  · rw [if_pos h4, if_pos hc4, if_pos hc4]
    exact outside hc (h.resolve_left fun e => e.1 hc4 h4)
  · rw [if_pos h4, if_neg hc4, if_neg hc4]
  · rw [if_neg h4, if_pos hc4, if_pos hc4]
  · rw [if_neg h4, if_neg hc4, if_neg hc4]
    exact outside hm (h.resolve_left fun e => hc4 (e.2 h4))

end

/-- A die's cache is where it was once bytes are written at a place. -/
theorem cached_putBytes (s : State) (cls' pa' : Nat) (l : List Byte) (core cls pa a : Nat) :
    Cached (putBytes s cls' pa' l) core cls pa a ↔ Cached s core cls pa a := by
  unfold putBytes
  split <;> rfl

/-! ### A request performed -/

/-- A request writes bytes at its place. -/
def writeAt (s : State) (r : Req) (l : List Byte) : State :=
  afterWrite (putBytes s r.cls r.pa l) r.core r.cls r.pa (decide (r.kind = .st)) l

theorem greg_writeAt (s : State) (r : Req) (l : List Byte) (u k : Nat) : (writeAt s r l).greg u k = s.greg u k := by
  have h : (putBytes s r.cls r.pa l).seats = s.seats := by
    unfold putBytes
    split <;> rfl
  exact greg_of_seats ((seats_of_apart (refreshed_afterWrite ..).apart).trans h) u k

section
variable {s : State} (r : Req) (l : List Byte) (hm : Memory.wf s.mem = true) (hc : Memory.wf s.cellar = true)
include hm hc

/-- The bytes stand at their place, where no way of a cache does. -/
theorem bytesAt_writeAt_same (h : ∀ k < l.length, ¬ Cached s r.core r.cls r.pa (r.pa + k)) :
    bytesAt (writeAt s r l) r.cls r.pa l.length = l := by
  rw [writeAt, (refreshed_afterWrite ..).bytesAt (wf_putBytes hm) (.inr fun k hk => (cached_putBytes ..).not.2 (h k hk)),
    bytesAt_putBytes_same hm hc]

theorem bytesAt_writeAt_outside {c a n : Nat} (h : (c = 4 ↔ r.cls ≠ 4) ∨ a + n ≤ r.pa ∨ r.pa + l.length ≤ a)
    (hk : c = 4 ∨ ∀ k < n, ¬ Cached s r.core r.cls r.pa (a + k)) : bytesAt (writeAt s r l) c a n = bytesAt s c a n := by
  rw [writeAt, (refreshed_afterWrite ..).bytesAt (wf_putBytes hm) (hk.imp_right fun hk k hn => (cached_putBytes ..).not.2 (hk k hn)),
    bytesAt_putBytes_outside hm hc h]

end

/-- What the performance of a request makes of the state before the request notes it. -/
def effectAt (s : State) (r : Req) : State :=
  let old := bytesNat (bytesAt s r.cls r.pa r.size)
  match r.kind with
  | .st | .ewr => writeAt s r r.data
  | .eadd => writeAt s r (addElems r.ty old (bytesNat r.data) (r.size / 4))
  | .eflag => writeAt s r (leBytes 4 (old + bytesNat r.data))
  | .red | .atom => writeAt s r (leBytes r.size (atomNew r.op r.ty old (bytesNat r.data)))
  | .cas => if old = bytesNat r.data then writeAt s r r.data2 else if r.cls ≤ 1 then l1Drop s r.core r.pa else s
  | _ => s

theorem performReq_eq (s : State) (id : Nat) : performReq s id = (effectAt s (s.req id)).modReq id fun x =>
    { x with stage := 2, value := bytesNat (bytesAt s (s.req id).cls (s.req id).pa (s.req id).size) } := rfl

theorem greg_effectAt (s : State) (r : Req) (u k : Nat) : (effectAt s r).greg u k = s.greg u k := by
  unfold effectAt
  dsimp only
  split
  case h_7 =>
    split
    · exact greg_writeAt ..
    · split <;> rfl
  case h_8 => rfl
  all_goals exact greg_writeAt ..

/-! ### Numbers of bytes -/

theorem length_leBytes (n v : Nat) : (leBytes n v).length = n := by
  induction n generalizing v with
  | zero => rfl
  | succ n ih => exact congrArg (· + 1) (ih _)

/-- The number of the low bytes of a number. -/
theorem bytesNat_leBytes (n v : Nat) : bytesNat (leBytes n v) = v % 2 ^ (8 * n) := by
  induction n generalizing v with
  | zero => simp [leBytes, bytesNat, Nat.mod_one]
  | succ n ih =>
    rw [leBytes, bytesNat, ih, BitVec.toNat_ofNat, show 8 * (n + 1) = 8 + 8 * n by ring, pow_add, Nat.mod_mul]
    rfl

theorem bytesNat_lt (l : List Byte) : bytesNat l < 256 ^ l.length := by
  induction l with
  | nil => exact Nat.one_pos
  | cons b l ih =>
    have hb := b.isLt
    rw [bytesNat, List.length_cons, pow_succ]
    omega

/-- The atomics on unsigned words of 32 bits (Table 9-8). -/
theorem atomNew_u32 {old b : Nat} (ho : old < 2 ^ 32) (hb : b < 2 ^ 32) :
    atomNew 0 1 old b % 2 ^ 32 = (old + b) % 2 ^ 32 ∧ atomNew 1 1 old b % 2 ^ 32 = min old b ∧
    atomNew 2 1 old b % 2 ^ 32 = max old b ∧ atomNew 3 1 old b % 2 ^ 32 = old &&& b ∧
    atomNew 4 1 old b % 2 ^ 32 = old ||| b ∧ atomNew 5 1 old b % 2 ^ 32 = old ^^^ b ∧ atomNew 6 1 old b % 2 ^ 32 = b ∧
    atomNew 7 1 old b % 2 ^ 32 = (if b ≤ old then 0 else old + 1) ∧
    atomNew 8 1 old b % 2 ^ 32 = (if old = 0 ∨ b < old then b else old - 1) := by
  have hmin : atomNew 1 1 old b = min old b := by
    show (if ((b : Nat) : Int) < (old : Int) then b else old) = min old b
    split <;> omega
  have hmax : atomNew 2 1 old b = max old b := by
    show (if ((old : Nat) : Int) < (b : Int) then b else old) = max old b
    split <;> omega
  refine ⟨Nat.mod_mod .., ?_, ?_, Nat.mod_eq_of_lt (Nat.and_lt_two_pow _ hb), Nat.mod_eq_of_lt (Nat.or_lt_two_pow ho hb),
    Nat.mod_eq_of_lt (Nat.xor_lt_two_pow ho hb), Nat.mod_eq_of_lt hb, ?_, ?_⟩
  · rw [hmin]
    omega
  · rw [hmax]
    omega
  · show (if b ≤ old then 0 else old + 1) % 2 ^ 32 = _
    split <;> omega
  · show (if old = 0 ∨ b < old then b else old - 1) % 2 ^ 32 = _
    split <;> omega

/-- Settles O38: what a request writes at its place by its kind, and the numbers that an atomic's bytes are. -/
theorem accessesPerformAtTheirPlace : Obligations.AccessesPerformAtTheirPlace := by
  intro s id hm hc r old s' d cached clean outside
  have hbytes (c a n : Nat) : bytesAt s' c a n = bytesAt (effectAt s r) c a n := rfl
  have hsame {l : List Byte} (e : effectAt s r = writeAt s r l) (h : clean l.length) : bytesAt s' r.cls r.pa l.length = l := by
    rw [hbytes, e]
    exact bytesAt_writeAt_same r l hm hc h
  have hout {l l' : List Byte} (e : effectAt s r = writeAt s r l) (hl : l'.length = l.length) : outside l' := by
    intro c a n h hk
    rw [hbytes, e]
    exact bytesAt_writeAt_outside r l hm hc (hl ▸ h) hk
  have hnone (e : (effectAt s r).memories = s.memories) (c a n : Nat) : bytesAt s' c a n = bytesAt s c a n := by
    rw [hbytes, bytesAt, bytesAt, mem_of_memories e, show (effectAt s r).cellar = s.cellar from congrArg (·.2.1) e]
  have hreq : s'.req id = { (effectAt s r).req id with stage := 2, value := old } := by
    rw [show s' = _ from performReq_eq s id, State.req_modReq, if_pos rfl]
  refine ⟨by rw [hreq], by rw [hreq], fun u k => greg_effectAt s r u k, fun hk => ?_, fun hk => ?_, fun hk => ⟨fun he => ?_, fun he => ?_⟩,
    fun hk => ?_⟩
  · have e : effectAt s r = writeAt s r r.data := by simp only [effectAt, hk]
    exact ⟨hsame e, hout e rfl⟩
  · refine hnone ?_
    obtain hk | hk | hk := hk <;> simp only [effectAt, hk]
  · have e : effectAt s r = writeAt s r r.data2 := by
      simp only [effectAt, hk]
      exact if_pos he
    exact ⟨hsame e, hout e rfl⟩
  · refine hnone ?_
    simp only [effectAt, hk]
    rw [if_neg he]
    split <;> simp
  · have e : effectAt s r = writeAt s r (leBytes r.size (atomNew r.op r.ty old (bytesNat r.data))) := by
      obtain hk | hk := hk <;> simp only [effectAt, hk] <;> rfl
    have hnew (h : clean r.size) : bytesNat (bytesAt s' r.cls r.pa r.size) = atomNew r.op r.ty old (bytesNat r.data) % 2 ^ (8 * r.size) := by
      have hl := hsame e (by rwa [length_leBytes])
      rw [length_leBytes] at hl
      rw [hl, bytesNat_leBytes]
    refine ⟨hout e (by rw [length_leBytes, length_leBytes]), hnew, fun h ht hs hb => ?_⟩
    have ho : old < 2 ^ 32 := by
      have h : old < 256 ^ (bytesAt s r.cls r.pa r.size).length := bytesNat_lt _
      rw [length_bytesAt, hs] at h
      exact h.trans_eq (by norm_num)
    have hn := (hnew h).trans (show _ = atomNew r.op 1 old (bytesNat r.data) % 2 ^ 32 by rw [ht, hs])
    obtain ⟨h0, h1, h2, h3, h4, h5, h6, h7, h8⟩ := atomNew_u32 ho hb
    refine ⟨fun e => ?_, fun e => ?_, fun e => ?_, fun e => ?_, fun e => ?_, fun e => ?_, fun e => ?_, fun e => ?_, fun e => ?_⟩
    all_goals refine hn.trans ?_; rw [e]
    exacts [h0, h1, h2, h3, h4, h5, h6, h7, h8]

end Sys2Proof.Machine
end

