-- ==== Sys2Proof/Proofs/Flits.lean ====
section
/-! PROOFS. The flits of a link as bytes (R356), and the slots over which their beats go (R357). -/

namespace Sys2Proof.Machine

/-! ### The bytes of a flit (R356) -/

section
variable {f : Flit}

/-- Each field of Table 17-1 stands in its bits of the header. -/
theorem header_fields (f : Flit) :
    f.header < 2 ^ 48 ∧ natBits f.header 32 16 = f.seq.toNat ∧ natBits f.header 16 16 = f.ack.toNat ∧
    natBits f.header 14 2 = f.vc.toNat ∧ natBits f.header 10 4 = f.kind.toNat ∧ natBits f.header 8 2 = f.gvc.toNat ∧
    natBits f.header 0 8 = f.grant.toNat := by
  have hseq := f.seq.isLt
  have hack := f.ack.isLt
  have hvc := f.vc.isLt
  have hkind := f.kind.isLt
  have hgvc := f.gvc.isLt
  have hgrant := f.grant.isLt
  simp only [Flit.header, natBits]
  omega

variable (hb : f.body.length = 54)
include hb

theorem front_of_full : f.front = leBytes 6 f.header ++ f.body := by
  rw [Flit.front, List.take_of_length_le hb.le, hb, Nat.sub_self, List.replicate_zero, List.append_nil]

theorem length_front : f.front.length = 60 := by rw [front_of_full hb, List.length_append, length_leBytes, hb]

theorem length_bytes : f.bytes.length = 64 := by rw [Flit.bytes, List.length_append, length_front hb, length_leBytes]

/-- Bytes 0 to 59 give back their flit. -/
theorem flitOf_front : flitOf f.front = f := by
  obtain ⟨hlt, hseq, hack, hvc, hkind, hgvc, hgrant⟩ := header_fields f
  have hnum : bytesNat (f.front.take 6) = f.header := by
    rw [front_of_full hb, List.take_left' (length_leBytes ..), bytesNat_leBytes, Nat.mod_eq_of_lt hlt]
  have hbody : (f.front.drop 6).take 54 = f.body := by
    rw [front_of_full hb, List.drop_left' (length_leBytes ..), List.take_of_length_le hb.le]
  simp only [flitOf, hnum, hbody, hseq, hack, hvc, hkind, hgvc, hgrant, BitVec.ofNat_toNat, BitVec.setWidth_eq]

end

/-! ### What is received -/

theorem wireBytes_map_some (l : List Byte) : wireBytes (l.map some) = some l := by
  induction l with
  | nil => rfl
  | cons b l ih => rw [List.map_cons, wireBytes, ih, Option.map_some]

theorem wireBytes_missing {w : Wire} (h : none ∈ w) : wireBytes w = none := by
  induction w with
  | nil => cases h
  | cons b w ih =>
    cases b with
    | none => rfl
    | some b => rw [wireBytes, ih (by simpa using h), Option.map_none]

theorem received_missing {w : Wire} (h : none ∈ w) : received w = none := by rw [received, wireBytes_missing h]

/-- A flit of which every byte arrives passes its CRC, and is what was sent. -/
theorem received_bytes {f : Flit} (hb : f.body.length = 54) : received (f.bytes.map some) = some f := by
  have hcrc : bytesNat (f.bytes.drop 60) = (crc32 (f.bytes.take 60)).toNat := by
    rw [Flit.bytes, List.drop_left' (length_front hb), List.take_left' (length_front hb), bytesNat_leBytes,
      Nat.mod_eq_of_lt (crc32 f.front).isLt]
  have hfront : flitOf f.bytes = flitOf f.front := by
    simp only [flitOf, Flit.bytes, List.take_append_of_le_length, List.drop_append_of_le_length, length_front hb, List.length_drop,
      Nat.reduceLeDiff, Nat.reduceSub, Nat.le_refl]
  simp only [received, wireBytes_map_some]
  rw [if_pos ⟨length_bytes hb, hcrc⟩, hfront, flitOf_front hb]

/-! ### The slots of a stream (R357) -/

/-- The fibres below an active fibre come before it. -/
theorem fibresOf_split {m : BitVec 16} {k : Nat} (hk : k < 16) (hm : m.getLsbD k = true) :
    ∃ above, fibresOf m = (List.range k).filter m.getLsbD ++ k :: above := by
  refine ⟨(((List.range (15 - k)).map Nat.succ).map (k + ·)).filter m.getLsbD, ?_⟩
  have hr : List.range 16 = List.range (k + (15 - k + 1)) := congrArg List.range (by omega)
  rw [fibresOf, hr, List.range_add, List.filter_append, List.range_succ_eq_map, List.map_cons,
    Nat.add_zero, List.filter_cons_of_pos hm]

/-- The active slot of rank b mod a carries beat b. -/
theorem beatFibre_of_rank {m : BitVec 16} {b k : Nat} (hk : k < 16) (hm : m.getLsbD k = true)
    (h : ((List.range k).filter m.getLsbD).length = b % (fibresOf m).length) : beatFibre m b = k := by
  obtain ⟨above, hs⟩ := fibresOf_split hk hm
  rw [beatFibre, ← h, hs, List.getD_append_right _ _ _ _ le_rfl, Nat.sub_self, List.getD_cons_zero]

section
variable {m lost : BitVec 16} {i : Nat} {l : List Byte} (hl : l.length = 64)
include hl

/-- Where every beat has light, every byte arrives. -/
theorem overSlots_lit (h : ∀ b < 8, lost.getLsbD (beatFibre m (8 * i + b)) = false) : overSlots m lost i l = l.map some := by
  refine List.ext_getElem (by simp [overSlots]) fun j hj _ => ?_
  have hj : j < 64 := by simpa [overSlots, hl] using hj
  simp [overSlots, h (j / 8) (by omega)]

/-- A beat without light is missing from what arrives. -/
theorem overSlots_dark (h : ∃ b < 8, lost.getLsbD (beatFibre m (8 * i + b)) = true) : none ∈ overSlots m lost i l := by
  obtain ⟨b, hb, hd⟩ := h
  have hj : 8 * b < l.length := by omega
  refine List.mem_map.2 ⟨(l[8 * b], 8 * b), List.mk_mem_zipIdx_iff_getElem?.2 (List.getElem?_eq_getElem hj), if_pos ?_⟩
  rwa [Nat.mul_div_cancel_left b (by decide)]

end

end Sys2Proof.Machine
end

