-- ==== Sys2Proof/Proofs/BridgesAndLinks.lean ====
section
/-! PROOFS. The happenings on bridge directions, failed bridges, links and re-plans (O59). -/

namespace Sys2Proof.Machine

/-- What each step of a fold keeps, the fold keeps. -/
theorem foldl_keeps {α β : Type} (v : State → β) {f : State → α → State} (h : ∀ s a, v (f s a) = v s) (l : List α) (s : State) :
    v (l.foldl f s) = v s :=
  List.foldlRecOn (motive := fun q => v q = v s) l f rfl fun q hq a _ => (h q a).trans hq

theorem mem_agendaInsert_of_mem {due : Nat} {e : Ev} {l : List (Nat × Ev)} {x : Nat × Ev} (h : x ∈ l) : x ∈ agendaInsert due e l := by
  induction l with
  | nil => cases h
  | cons y l ih =>
    rw [agendaInsert]
    split
    · exact List.mem_cons_of_mem _ h
    · obtain rfl | h := List.mem_cons.1 h
      · exact List.mem_cons_self ..
      · exact List.mem_cons_of_mem _ (ih h)

theorem chooseBelow_lt (s : State) {n : Nat} (h : n ≠ 0) : (s.chooseBelow n).1 < n := by
  simp only [State.chooseBelow, State.choose, if_neg h]
  exact Nat.mod_lt _ (Nat.pos_of_ne_zero h)

/-! ### Bridge directions (R247, R344) -/

section
variable {s : State} {k : Nat}

/-- A direction that has carried no flit for its time becomes idle; it sleeps later. -/
theorem evDirectionIdle_quiet (h0 : (s.dir k).state = 0) (hq : bridgeOk s k = false ∨ (s.dir k).pass = [] ∧ (s.dir k).inj = [])
    (ht : (s.dir k).last + (s.die (k / 2)).idleAfter * 1200 ≤ s.clk) :
    evDirectionIdle s k = (s.modDir k fun x => { x with state := 1, last := s.clk }).post ((s.die (k / 2)).sleepAfter * 1200)
      (.directionSleep k) := by
  have hw : (bridgeOk s k && (!(s.dir k).pass.isEmpty || !(s.dir k).inj.isEmpty)) = false := by
    obtain h | ⟨hp, hi⟩ := hq
    · rw [h, Bool.false_and]
    · rw [hp, hi]
      exact Bool.and_false _
  exact if_neg (not_or.2 ⟨not_not.2 h0, not_or.2 ⟨ne_true_of_eq_false hw, Nat.not_lt.2 ht⟩⟩)

theorem evDirectionIdle_early (ht : s.clk < (s.dir k).last + (s.die (k / 2)).idleAfter * 1200) : evDirectionIdle s k = s :=
  if_pos (.inr (.inr ht))

theorem evDirectionSleep_enabled (h1 : (s.dir k).state = 1) (he : (s.die (k / 2)).sleepEn = true)
    (ht : (s.dir k).last + (s.die (k / 2)).sleepAfter * 1200 ≤ s.clk) :
    evDirectionSleep s k = s.modDir k fun x => { x with state := 2 } := if_pos ⟨h1, he, ht⟩

theorem evDirectionSleep_disabled (he : (s.die (k / 2)).sleepEn = false) : evDirectionSleep s k = s :=
  if_neg fun h => by simp [he] at h

/-- An active direction that is asked for a grant stays as it is. -/
theorem dir_pumpDir_active (h0 : (s.dir k).state = 0) : (pumpDir s k).dir k = s.dir k := by
  simp only [pumpDir, h0, if_true]
  repeat' split
  all_goals rfl

/-- A direction whose wake completes is active, without errors in a row. -/
theorem dir_evLinkWakeComplete (h3 : (s.dir k).state = 3) :
    (evLinkWakeComplete s k).dir k = { s.dir k with state := 0, errs := 0, last := s.clk } := by
  have hd : (armIdle (s.modDir k fun x => { x with state := 0, errs := 0, last := s.clk }) k).dir k =
      { s.dir k with state := 0, errs := 0, last := s.clk } := by simp [armIdle]
  rw [evLinkWakeComplete, if_neg (by simp [h3]), dir_pumpDir_active (by rw [hd]), hd]

end

/-! ### Errors and failure of a bridge (R345) -/

theorem die_bridgeErrors (s : State) (b n : Nat) :
    (bridgeErrors s b n).die b = { s.die b with brgErr := min 255 ((s.die b).brgErr + n) } := by
  simp only [bridgeErrors]
  split <;> simp

section
variable {s : State} {b n : Nat}

theorem bridgeErrors_fails (ht : (s.die b).brgThresh ≤ ((bridgeErrors s b n).die b).brgErr) (hf : (s.die b).brgFailed = false) :
    (s.clk, .bridgeDeclaredFailed b) ∈ (bridgeErrors s b n).agenda := by
  rw [die_bridgeErrors] at ht
  rw [bridgeErrors, if_pos (by rw [State.die_modDie_same, hf]; exact ⟨ht, rfl⟩)]
  exact mem_agenda_post ..

theorem bridgeErrors_below (ht : ((bridgeErrors s b n).die b).brgErr < (s.die b).brgThresh) :
    (bridgeErrors s b n).agenda = s.agenda := by
  rw [die_bridgeErrors] at ht
  rw [bridgeErrors, if_neg fun h => Nat.not_le.2 ht (by simpa using h.1)]
  rfl

end

/-- The clk, and whether bridge `b` has failed. -/
def State.failure (s : State) (b : Nat) : Nat × Bool := (s.clk, (s.die b).brgFailed)

section
variable (s : State) (b : Nat)

/-- A change of fields other than the clk and the dies. -/
@[simp] theorem failure_mk (a c d e f g h i j k l m n o p q r t u v w x y z) :
    State.failure ⟨s.clk, a, c, d, e, f, g, h, i, j, k, s.dies, l, m, n, o, p, q, r, t, u, v, w, x, y, z⟩ b = s.failure b := rfl

@[simp] theorem failure_chooseBelow (n : Nat) : (s.chooseBelow n).2.failure b = s.failure b := rfl

@[simp] theorem failure_modDir (d : Nat) (f : Dir → Dir) : (s.modDir d f).failure b = s.failure b := rfl

theorem failure_modDie {d : Nat} {f : Die → Die} (h : (f (s.die d)).brgFailed = (s.die d).brgFailed) :
    (s.modDie d f).failure b = s.failure b := by
  refine Prod.ext rfl ?_
  simp only [State.failure, State.die_modDie]
  split
  next hd => rw [h, hd]
  · rfl

@[simp] theorem failure_raise (d : Nat) (r : EvRec) : (s.raise d r).failure b = s.failure b := by
  rw [State.raise]
  split
  · rfl
  · exact failure_modDie (f := fun x => { x with awaiting := _ }) s b rfl

/-- A bridge that is declared failed stays so while the die before it takes back its flits, and the rings wrap within 2 µs. -/
theorem evBridgeDeclaredFailed_wraps (h : (s.die b).brgFailed = false) :
    ((evBridgeDeclaredFailed s b).die b).brgFailed = true ∧
    ∃ due ≤ s.clk + 2400, (due, .ringWrapComplete b) ∈ (evBridgeDeclaredFailed s b).agenda := by
  rw [evBridgeDeclaredFailed, if_neg (by simp [h])]
  extract_lets e other s1 s2 s3
  have h1 : s1.failure b = (s.clk, true) :=
    (failure_raise ..).trans (Prod.ext rfl (congrArg Die.brgFailed (State.die_modDie_same ..)))
  have h2 : s2.failure b = s1.failure b := foldl_keeps (State.failure · b) (fun s d => by split <;> rfl) ..
  have h3 : s3.failure b = s2.failure b := by
    refine foldl_keeps (State.failure · b) (fun s d => ?_) ..
    simp only [failure_mk, failure_modDir]
    refine foldl_keeps (State.failure · b) (fun s id => ?_) ..
    rfl
  have h4 : (s3.chooseBelow (2 * usClk)).2.failure b = (s.clk, true) :=
    (failure_chooseBelow ..).trans (h3.trans (h2.trans h1))
  have hv : (s3.chooseBelow (2 * usClk)).1 < 2400 := chooseBelow_lt s3 (by decide)
  generalize s3.chooseBelow (2 * usClk) = p at h4 hv
  obtain ⟨v, s4⟩ := p
  obtain ⟨hclk, hfail⟩ : s4.clk = s.clk ∧ (s4.die b).brgFailed = true := Prod.ext_iff.1 h4
  have hv : v < 2400 := hv
  exact ⟨hfail, s4.clk + (v + 1), by omega, mem_agenda_posted ..⟩

end

/-! ### Links (R359, R361, R362) -/

section
variable (s : State) (l : Nat)

@[simp] theorem link_pumpLink (k : Nat) : (pumpLink s l).link k = s.link k := by
  rw [pumpLink]
  split <;> rfl

@[simp] theorem link_raise (d k : Nat) (r : EvRec) : (s.raise d r).link k = s.link k := by
  rw [State.raise]
  split <;> rfl

/-- A flit that is put on a link is counted there, whether it goes out or not. -/
@[simp] theorem link_putFlit (f : Flit) :
    (putFlit s l f).link l = { s.link l with lastSent := s.clk, stream := (s.link l).stream + 1 } := by
  simp only [putFlit]
  split <;> simp

@[simp] theorem msgs_putFlit (f : Flit) : (putFlit s l f).msgs = s.msgs := by
  simp only [putFlit]
  split <;> rfl

/-- Asking for a replay takes no flit. -/
theorem askReplay_keeps : ((askReplay s l).link l).taken = (s.link l).taken ∧ (askReplay s l).msgs = s.msgs := by
  fun_cases askReplay s l
  · exact ⟨rfl, rfl⟩
  · exact ⟨rfl, rfl⟩
  · simp

/-- The ACK and the GRANT of a flit leave the number that this end has taken. -/
theorem taken_takeHeader (f : Flit) : ((takeHeader s l f).link l).taken = (s.link l).taken := by
  fun_cases takeHeader s l f
  · simp +zetaDelta only [State.link_modLink_same]
  · simp +zetaDelta only [link_pumpLink, State.link_modLink_same]

theorem taken_modLink {f : Link → Link} (k : Nat) (h : (f (s.link k)).taken = (s.link k).taken) :
    ((s.modLink k f).link l).taken = (s.link l).taken := by
  rw [State.link_modLink]
  split
  next e => rw [h, e]
  · rfl

@[simp] theorem link_pumpDir (d : Nat) : (pumpDir s d).link l = s.link l := by
  rw [pumpDir]
  extract_lets x
  split
  · rfl
  split
  · rfl
  split
  · split <;> rfl
  split
  · rfl
  dsimp only
  split <;> rfl

/-- A message that moves on takes no flit. -/
theorem taken_forward (id : Nat) (passing : Bool) : ((forward s id passing).link l).taken = (s.link l).taken := by
  fun_cases forward s id passing
  · rfl
  · rfl
  · rfl
  · rw [link_pumpLink]
    exact taken_modLink (f := fun x => { x with waiting := _ }) s l _ rfl
  · rfl
  · rw [link_pumpDir]
    simp +zetaDelta only [State.modDir_link]
    split <;> rfl

end

section
variable {s : State} {l : Nat} {w : Wire}

theorem evData_lost (h : received w = none) : evData s l w = askReplay s l := by simp only [evData, takeSequenced, takeFlit, h]

variable {f : Flit} (h : received w = some f)
include h

theorem evData_otherKind (hk : f.kind ≠ 0) : evData s l w = s := by
  have hk : ¬f.kind.toNat = 0 := fun h => hk (BitVec.eq_of_toNat_eq h)
  simp only [evData, takeSequenced, takeFlit, h, hk, if_false]

/-- The flit that the receiver expects is taken. -/
theorem taken_evData (hk : f.kind = 0) (hs : f.seq = (s.link l).taken + 1) : ((evData s l w).link l).taken = f.seq := by
  simp only [evData, takeSequenced, takeFlit, h, hk, ← hs, if_true, show (0 : BitVec 4).toNat = 0 from rfl]
  have hh : ∀ g, (((takeHeader (s.modLink l fun x => { x with taken := f.seq, lastReplay := 0 }) l f).modLink l fun x =>
      { x with freed := g }).link l).taken = f.seq := fun g => by
    rw [taken_modLink _ _ _ rfl, taken_takeHeader, State.link_modLink_same]
  split
  next =>
    split
    · exact (taken_forward ..).trans (hh _)
    · exact hh _
  · exact hh _

/-- A flit out of order is discarded: one that was taken before silently, another with a request for the one that is missing. -/
theorem evData_outOfOrder (hk : f.kind = 0) (hs : f.seq ≠ (s.link l).taken + 1) :
    evData s l w = if ((s.link l).taken - f.seq).toNat < 32768 then s else askReplay s l := by
  simp only [evData, takeSequenced, takeFlit, h, hk, if_true, if_neg hs, show (0 : BitVec 4).toNat = 0 from rfl]

end

/-- The loss of a slot's light leaves the slot dark at its receiver, which announces it. -/
theorem rxDark_evLossOfLight (s : State) (l f : Nat) :
    ((evLossOfLight s l f).link l).rxDark = (s.link l).rxDark ||| (fibreBit f &&& (s.link l).rxMask) := by
  have hsent (s : State) : ((sendRestripe s l).link l).rxDark = (s.link l).rxDark := by rw [sendRestripe, link_putFlit]
  have hann (s : State) : ((announce s l).link l).rxDark = (s.link l).rxDark := by
    rw [announce]
    split <;> exact hsent s
  rw [evLossOfLight, hann, State.link_modLink_same]

/-- A down link that has a slot again begins anew at both ends. -/
theorem evLinkUp_fresh {s : State} {l k : Nat} (hu : (s.link l).up = false) (ha : (s.link l).active ≠ 0) :
    (evLinkUp s l).link k = (freshLink s l).link k := by
  rw [evLinkUp, if_neg (not_or.2 ⟨by simp [hu], ha⟩), link_pumpLink, linkRec, link_raise]

theorem link_freshLink {s : State} {l : Nat} (hp : peerOf l ≠ l) :
    ((freshLink s l).link l).up = true ∧ ((freshLink s l).link l).nextSeq = 0 ∧ ((freshLink s l).link (peerOf l)).taken = 0xFFFF := by
  rw [freshLink]
  simp [State.link_modLink, hp.symm]

/-! ### Re-planning (R363) -/

section
variable {s : State} {d : Nat}

theorem evReplanGo_refused (hg : (s.die d).go = false) (hb : planBad (s.die d).plan = true) :
    evReplanGo s d = s.modDie d fun x => { x with planRefused := true } := by
  simp only [evReplanGo, hg, hb, if_true, Bool.false_eq_true, if_false]

/-- A test of the drain changes the agenda alone, to which it may add. -/
theorem drainTest_keeps (s : State) (d : Nat) : (drainTest s d).dies = s.dies ∧ ∀ x ∈ s.agenda, x ∈ (drainTest s d).agenda := by
  rw [drainTest]
  split
  · exact ⟨rfl, fun x => mem_agendaInsert_of_mem⟩
  · exact ⟨rfl, fun x => id⟩

theorem dies_clk_pumpLink (s : State) (l : Nat) : ((pumpLink s l).dies, (pumpLink s l).clk) = (s.dies, s.clk) := by
  rw [pumpLink]
  split <;> rfl

/-- A good plan begins the drain, which ends after its longest time. -/
theorem evReplanGo_drains (hg : (s.die d).go = false) (hb : planBad (s.die d).plan = false) :
    (evReplanGo s d).die d = { s.die d with go := true, planPhase := 1 } ∧
    (s.clk + (s.die d).drainMax * 1200, .drainMaxExpiry d) ∈ (evReplanGo s d).agenda := by
  rw [evReplanGo, if_neg (by simp [hg]), if_neg (by simp [hb])]
  extract_lets s1 s2
  have h2 : (s2.dies, s2.clk) = (s1.dies, s1.clk) := by
    refine foldl_keeps (fun s => (s.dies, s.clk)) (fun s l => ?_) ..
    exact dies_clk_pumpLink ..
  obtain ⟨hd, hc⟩ := Prod.ext_iff.1 h2
  obtain ⟨hk, ha⟩ := drainTest_keeps (s2.post ((s.die d).drainMax * usClk) (.drainMaxExpiry d)) d
  refine ⟨((die_of_dies hk d).trans (die_of_dies hd d)).trans (State.die_modDie_same ..), ha _ ?_⟩
  have hm := mem_agenda_posted s2 ((s.die d).drainMax * usClk) (.drainMaxExpiry d)
  rwa [show s2.clk = s.clk from hc] at hm

end

/-- Settles O59: the effect of each happening on its direction, bridge, link or die, and the beats of a flit. -/
theorem bridgeAndLinkEventsFollowTheirRules : Obligations.BridgeAndLinkEventsFollowTheirRules := by
  refine ⟨fun k s h0 => ?_, fun k s h1 => ?_, fun k s h3 => ?_, fun b re s => ?_, fun b s => ?_, fun b s hf => ?_, fun l w s => ?_,
    fun m b k hk hm hr => beatFibre_of_rank hk hm hr, fun f m lost i hb => ⟨fun h => ?_, fun h => ?_⟩, fun l f s _ => ?_,
    fun l s hu ha hp => ?_, fun d s => ?_⟩
  · refine happens_of_effect (e := .directionIdle k) ⟨fun hq ht => ?_, evDirectionIdle_early (s := { s with ev := none })⟩
    rw [show Ev.effect (.directionIdle k) _ = _ from evDirectionIdle_quiet (s := { s with ev := none }) h0 hq ht]
    exact ⟨by simp, mem_agenda_posted ..⟩
  · refine happens_of_effect (e := .directionSleep k) ⟨fun he ht => ?_, evDirectionSleep_disabled (s := { s with ev := none })⟩
    rw [show Ev.effect (.directionSleep k) _ = _ from evDirectionSleep_enabled (s := { s with ev := none }) h1 he ht]
    exact congrArg Dir.state (State.dir_modDir_same ..)
  · have hd := dir_evLinkWakeComplete (s := { s with ev := none }) h3
    exact happens_of_effect (e := .linkWakeComplete k) ⟨congrArg Dir.state hd, congrArg Dir.errs hd⟩
  · exact happens_of_effect (e := .bridgeCrcFailure b re) ⟨congrArg Die.brgErr (die_bridgeErrors ..),
      bridgeErrors_fails (s := { s with ev := none }), bridgeErrors_below (s := { s with ev := none })⟩
  · refine happens_of_effect (e := .errcntWindowExpiry b) ⟨by simp [Ev.effect, evErrcntWindowExpiry], ?_⟩
    rw [show (s.die b).brgWindow * 120000 = (s.die b).brgWindow * 100 * 1200 by omega]
    exact mem_agenda_posted ..
  · exact happens_of_effect (e := .bridgeDeclaredFailed b) (evBridgeDeclaredFailed_wraps { s with ev := none } b hf)
  · refine happens_of_effect (e := .data l w) ⟨fun h => ?_, fun f h => ⟨fun hk => evData_otherKind h hk,
      taken_evData (s := { s with ev := none }) h, fun hk hs => ?_⟩⟩
    · rw [show Ev.effect (.data l w) _ = _ from evData_lost h]
      exact askReplay_keeps { s with ev := none } l
    · rw [show Ev.effect (.data l w) _ = _ from evData_outOfOrder (s := { s with ev := none }) h hk hs]
      split
      next hold => exact ⟨rfl, rfl, fun _ => rfl⟩
      next hnew =>
        obtain ⟨ht, hm⟩ := askReplay_keeps { s with ev := none } l
        exact ⟨ht, hm, fun hold => absurd hold hnew⟩
  · rw [overSlots_lit (length_bytes hb) h, received_bytes hb]
  · exact received_missing (overSlots_dark (length_bytes hb) h)
  · exact happens_of_effect (e := .lossOfLight l f) (rxDark_evLossOfLight { s with ev := none } l f)
  · refine happens_of_effect (e := .linkUp l) ?_
    simp only [Ev.effect, evLinkUp_fresh (s := { s with ev := none }) hu ha]
    exact link_freshLink hp
  · refine happens_of_effect (e := .replanGo d) ⟨fun hg => if_pos hg, fun hg hb => ?_, fun hg hb => ?_⟩
    · rw [show Ev.effect (.replanGo d) _ = _ from evReplanGo_refused (s := { s with ev := none }) hg hb]
      exact ⟨congrArg Die.planRefused (State.die_modDie_same ..), (congrArg Die.go (State.die_modDie_same ..)).trans hg⟩
    · obtain ⟨hd, ha⟩ := evReplanGo_drains (s := { s with ev := none }) hg hb
      exact ⟨congrArg Die.go hd, congrArg Die.planPhase hd, ha⟩

end Sys2Proof.Machine
end

