-- ==== Sys2Proof/Proofs/Casks.lean ====
section
/-! PROOFS. Bounded accumulation (R262, R265; O36): what an ACC does at its cask store, and the request of a RACK. -/

namespace Sys2Proof.Machine

/-! ### Registers and memory left alone -/

/-- Every g register and every memory of `s'` is as in `s`. -/
structure Quiet (s s' : State) : Prop where
  greg : ∀ u k, s'.greg u k = s.greg u k
  memories : s'.memories = s.memories

theorem Quiet.refl (s : State) : Quiet s s := ⟨fun _ _ => rfl, rfl⟩

theorem Quiet.trans {s t u : State} (a : Quiet s t) (b : Quiet t u) : Quiet s u :=
  ⟨fun v k => (b.greg v k).trans (a.greg v k), b.memories.trans a.memories⟩

theorem quiet_of_seats {s s' : State} (hs : s'.seats = s.seats) (hm : s'.memories = s.memories) : Quiet s s' :=
  ⟨greg_of_seats hs, hm⟩

theorem Quiet.ite {s a b : State} {p : Prop} [Decidable p] (ha : Quiet s a) (hb : Quiet s b) : Quiet s (if p then a else b) := by
  split
  · exact ha
  · exact hb

/-! ### Messages leave the requests alone -/

section
variable (s : State)

theorem reqs_ite (p : Prop) [Decidable p] (s t : State) : (if p then s else t).reqs = if p then s.reqs else t.reqs :=
  apply_ite State.reqs p s t

@[simp] theorem reqs_pumpDir (dir : Nat) : (pumpDir s dir).reqs = s.reqs := by
  simp [pumpDir, reqs_ite, State.post, State.chooseBelow, State.choose]

@[simp] theorem reqs_pumpLink (l : Nat) : (pumpLink s l).reqs = s.reqs := by
  simp [pumpLink, reqs_ite, State.post]

@[simp] theorem reqs_forward (m : Nat) (passing : Bool) : (forward s m passing).reqs = s.reqs := by
  fun_cases forward s m passing <;> simp +zetaDelta [reqs_ite, State.post]

@[simp] theorem reqs_send (src dst vc base : Nat) (own : Bool) (e : Ev) : (send s src dst vc base own e).reqs = s.reqs := by
  simp [send, reqs_ite, State.post, State.fresh]

@[simp] theorem reqs_sendCask (a b : Nat) (e : Ev) : (sendCask s a b e).reqs = s.reqs := by
  simp [sendCask, sendOwn, reqs_ite, State.post]

@[simp] theorem seats_sendCask (a b : Nat) (e : Ev) : (sendCask s a b e).seats = s.seats := by simp [sendCask, sendOwn]

@[simp] theorem reqs_drainEntry (d line closes : Nat) : (drainEntry s d line closes).reqs = s.reqs := by simp [drainEntry]

@[simp] theorem seats_drainEntry (d line closes : Nat) : (drainEntry s d line closes).seats = s.seats := by simp [drainEntry]

theorem quiet_drainEntry (d line closes : Nat) : Quiet s (drainEntry s d line closes) := quiet_of_seats (by simp) (by simp)

end

/-- A die with one entry of its cask store other. -/
def setCask (s : State) (d line : Nat) (e : Cask) : State := s.modDie d fun x => { x with cask := kvSet x.cask line e }

theorem cask_setCask (s : State) (d line : Nat) (e : Cask) : kvGet {} ((setCask s d line e).die d).cask line = e := by
  rw [setCask, State.die_modDie_same, kvGet_kvSet_same]

/-! ### The end of an ACC (R262) -/

/-- A search by key finds what was put there. -/
theorem find?_kvSet {α : Type} (l : KV α) (k : Nat) (v : α) : ((kvSet l k v).find? fun e => decide (e.1 = k)) = some (k, v) := by
  induction l with
  | nil => simp [kvSet]
  | cons e l ih =>
    obtain ⟨k', v'⟩ := e
    simp only [kvSet]
    split
    · simp
    · split
      · simp
      next hlt hne => simpa [Ne.symm hne] using ih

/-- Stalled lanes that try again are a change of the lanes alone. -/
theorem quiet_clearWaits (s : State) (core : Nat) : Quiet s (clearWaits s core) := ⟨fun _ _ => rfl, memories_clearWaits ..⟩

section
variable {s : State} {id : Nat} {r : Req} (hf : (s.reqs.find? fun e => decide (e.1 = id)) = some (id, r)) (hk : r.kind = .acc)
include hf hk

/-- The end of an ACC takes its request away, and from its thread's acquires. -/
theorem reqDone_acc : reqDone s id = clearWaits
    (if (s.core r.core).epoch = r.epoch then
      State.modThread { s with reqs := kvDel s.reqs id } r.thread fun t => { t with acq := t.acq.filter (· ≠ id) }
    else { s with reqs := kvDel s.reqs id }) r.core := by
  simp only [reqDone, hf, hk]
  by_cases he : (s.core r.core).epoch = r.epoch <;> simp [he, isEng, acquires, hk]

theorem quiet_reqDone : Quiet s (reqDone s id) := by
  rw [reqDone_acc hf hk]
  refine .trans ?_ (quiet_clearWaits ..)
  refine .ite ⟨fun u k => ?_, rfl⟩ ⟨fun _ _ => rfl, rfl⟩
  exact (kept_modThread _ _ _ rfl rfl rfl rfl).greg u k not_false

theorem dies_reqDone : (reqDone s id).dies = s.dies := by
  rw [reqDone_acc hf hk]
  split <;> rfl

/-! ### An ACC at its cask store (R262) -/

/-- An ACC at a store changes cask entries, requests and messages. -/
theorem quiet_caskAdd (d : Nat) : Quiet s (caskAdd s d id) := by
  unfold caskAdd
  extract_lets r line home isNew l s0 s1 s2 e1 e2 s3 s4
  have h2 : Quiet s s2 ∧ s2.reqs = s.reqs := by
    have h0 : Quiet s s0 ∧ s0.reqs = s.reqs := by
      simp only [s0]
      split
      · split
        · exact ⟨quiet_drainEntry .., reqs_drainEntry ..⟩
        · exact ⟨.refl s, rfl⟩
      · exact ⟨.refl s, rfl⟩
    obtain ⟨q0, r0⟩ := h0
    simp only [s2]
    split
    · exact ⟨q0.trans (quiet_of_seats (by simp [s1]) (by simp [s1])), by simpa [s1] using r0⟩
    · exact ⟨.refl s, rfl⟩
  obtain ⟨q2, r2⟩ := h2
  have q3 : Quiet s s3 := q2.trans (quiet_of_seats (seats_modDie ..) (memories_modDie ..))
  have q4 : Quiet s s4 := q3.trans (quiet_reqDone (by rw [State.modDie_reqs, r2]; exact hf) hk)
  refine .ite (quiet_of_seats (seats_post ..) (memories_post ..)) (.ite ?_ (.ite ?_ q4))
  · exact q3.trans (quiet_of_seats (seats_modReq ..) (memories_modReq ..))
  · exact q4.trans (quiet_drainEntry ..)

/-- An ACC into an open entry that stays within its share adds its value there, and ends. -/
theorem cask_caskAdd {d : Nat} (hreq : s.req id = r) (hreach : d = homeDie r.pa ∨ unreach s d (homeDie r.pa) = none)
    (hany : ((s.die d).cask.any fun e => decide (e.1 = r.pa / 64)) = true) (ho : (kvGet {} (s.die d).cask (r.pa / 64)).opening = false)
    {e : Cask} (he : e = caskPlus (kvGet {} (s.die d).cask (r.pa / 64)) (r.pa % 64 / 4) (BitVec.ofNat 32 (bytesNat r.data)) s.clk)
    (hs : e.mu.toNat ≤ e.share.toNat) : kvGet {} ((caskAdd s d id).die d).cask (r.pa / 64) = e := by
  have hr : ((unreach s d (homeDie r.pa)).isSome && decide (d ≠ homeDie r.pa)) = false := by
    obtain h | h := hreach <;> simp [h]
  have hopen : e.opening = false := he ▸ ho
  have hadd : caskAdd s d id = reqDone (setCask s d (r.pa / 64) e) id := by
    simp only [caskAdd, hreq, hr, hany, Bool.not_true, Bool.false_eq_true, if_false, ← he, hopen, if_neg (Nat.not_lt.2 hs)]
    rfl
  rw [hadd, die_of_dies (dies_reqDone (s := setCask s d (r.pa / 64) e) hf hk), cask_setCask]

end

/-! ### The request of an ACC or a RACK -/

/-- A state in which a request is entered under the next number, after a hit in a translation cache. -/
def withReq (s : State) (cs : KV Core) (r : Req) : State :=
  { s with cores := cs, nextId := s.nextId + 1, reqs := kvSet s.reqs s.nextId r }

theorem quiet_withReq (s : State) (cs : KV Core) (r : Req) : Quiet s (withReq s cs r) := ⟨fun _ _ => rfl, rfl⟩

theorem req_withReq (s : State) (cs : KV Core) (r : Req) : (withReq s cs r).req s.nextId = r := kvGet_kvSet_same ..

theorem find?_withReq (s : State) (cs : KV Core) (r : Req) :
    ((withReq s cs r).reqs.find? fun e => decide (e.1 = s.nextId)) = some (s.nextId, r) := find?_kvSet ..

/-- The request of an ACC. -/
def accReq (x : Ins) (t : Nat) (v : Vals) (p : Place) (s : State) : Req :=
  { placeReq .acc x t v p s with stage := 1, data := leBytes 4 v.b }

/-- The request of a RACK. -/
def rackReq (x : Ins) (t : Nat) (v : Vals) (p : Place) (s : State) : Req := { placeReq .rack x t v p s with all := true }

/-- What becomes of an ACC that is entered on die `d`: it reaches its own die's store, goes to its package's proxy, or fails. -/
def accOut (s : State) (d id pa : Nat) : TOut :=
  if accStore d pa = d then .ok (caskAdd s d id)
  else match unreach s d (accStore d pa), unreach s d (homeDie pa) with
    | none, none => .ok (sendReq s d (accStore d pa) (.atomicUnitApply id))
    | some c, _ | none, some c => .ok (s.post 0 (.remoteAccessFailure id c))

theorem accOut_ok {s : State} {id : Nat} {r : Req} (hf : (s.reqs.find? fun e => decide (e.1 = id)) = some (id, r))
    (hk : r.kind = .acc) (d pa : Nat) :
    ∃ s1, accOut s d id pa = .ok s1 ∧ Quiet s s1 ∧ (accStore d pa = d → s1 = caskAdd s d id) := by
  unfold accOut
  split
  next => exact ⟨_, rfl, quiet_caskAdd hf hk d, fun _ => rfl⟩
  next hd =>
    split
    · exact ⟨_, rfl, quiet_of_seats (seats_sendReq ..) (memories_sendReq ..), fun h => absurd h hd⟩
    · exact ⟨_, rfl, quiet_of_seats (seats_post ..) (memories_post ..), fun h => absurd h hd⟩
    · exact ⟨_, rfl, quiet_of_seats (seats_post ..) (memories_post ..), fun h => absurd h hd⟩

section
variable {x : Ins} {t : Nat} {s : State} {v : Vals} {p : Place} (hg : gather s x t = .vals v)
include hg

/-- An ACC whose checks pass, and for whose line its store has a place, is entered. -/
theorem accThread_entered (hc : checkAccess s .acc (coreOfThread t) (memAddr x v) 4 = .ok p)
    (hs : storeStuck s (accStore (dieOfCore (coreOfThread t)) p.pa) (p.pa / 64) = false) :
    ∃ cs u, accThread x t s = accOut (withReq s cs (accReq x t v p u)) (dieOfCore (coreOfThread t)) s.nextId p.pa := by
  obtain ⟨cs, e⟩ := tlbTouch_cores s (coreOfThread t) (memAddr x v).toNat
  refine ⟨cs, State.fresh { s with cores := cs } |>.2, ?_⟩
  simp only [accThread, hg, accessChecks, hc, hs, e, Bool.false_eq_true, if_false]
  rfl

/-- A RACK whose checks pass is entered and sent off, and its thread waits for the answer. -/
theorem rackThread_held (hc : checkAccess s .rack (coreOfThread t) (memAddr x v) 4 = .ok p) :
    ∃ cs u, rackThread x t s = .held
      ((sendOff (withReq s cs (rackReq x t v p u)) s.nextId (rackReq x t v p u)).hold t (.reply s.nextId)) := by
  obtain ⟨cs, e⟩ := tlbTouch_cores s (coreOfThread t) (memAddr x v).toNat
  refine ⟨cs, State.fresh { s with cores := cs } |>.2, ?_⟩
  simp only [rackThread, hg, accessChecks, hc, e]
  rfl

end

/-- The checks let a RACK pass on a page of class B alone (R261). -/
theorem cls_of_checkAccess_rack {s : State} {core n : Nat} {a : Dword} {p : Place} (h : checkAccess s .rack core a n = .ok p) :
    p.cls = 3 := by
  unfold checkAccess at h
  split at h
  · split at h
    · exact nomatch h
    next hcls =>
      split at h
      · exact nomatch h
      · cases h
        by_contra hne
        exact hcls (if_neg hne)
  next hno => exact absurd h (hno p)

/-- Settles O36: the ACC at its store, and the request that a RACK is held for. -/
theorem boundedAccumulationIsIssued : Obligations.BoundedAccumulationIsIssued := by
  refine fun f s t v p => ⟨fun ht hg hc hs => ?_, fun ht hg hc => ?_⟩
  · obtain ⟨cs, u, he⟩ := accThread_entered hg hc hs
    have hf := find?_withReq s cs (accReq (Ins.ofBody .acc (.long f)) t v p u)
    obtain ⟨s1, hb, q1, hown⟩ := accOut_ok hf rfl (dieOfCore (coreOfThread t)) p.pa
    have q := (quiet_withReq ..).trans q1
    refine ⟨s1, passes_of_ok ht rfl (he.trans hb), q.greg, mem_of_memories q.memories, fun hd hr hany ho hmu => ?_⟩
    rw [hown hd]
    exact cask_caskAdd hf rfl (req_withReq ..) hr hany ho rfl hmu
  · obtain ⟨cs, u, hb⟩ := rackThread_held hg hc
    generalize hr : rackReq (Ins.ofBody .rack (.long f)) t v p u = r at hb
    have hcls : r.cls = 3 := by
      subst hr
      exact cls_of_checkAccess_rack hc
    have hseats : (sendOff (withReq s cs r) s.nextId r).seats = s.seats := seats_sendOff ..
    have hm : (sendOff (withReq s cs r) s.nextId r).memories = s.memories :=
      memories_sendOff _ _ _ (by rw [req_withReq, hcls]; decide)
    have hask : (sendOff (withReq s cs r) s.nextId r).asked s.nextId = r.asked := by
      rw [asked_sendOff, State.asked, req_withReq]
    refine ⟨_, s.nextId, lands_of_jump ht rfl (.inr hb), by simp [State.hold], ?_, ?_, ?_, fun a k => ?_, mem_of_memories hm⟩
    · rw [pc_hold, thread_of_seats hseats]
    · exact (congrArg Req.kind hask).trans (hr ▸ rfl)
    · exact (congrArg Req.pa hask).trans (hr ▸ rfl)
    · rw [(kept_hold ..).greg a k id, greg_of_seats hseats]

end Sys2Proof.Machine
end

