-- ==== Sys2Proof/Proofs/BarrierObjects.lean ====
section
/-! PROOFS. Barrier objects (R267 to R273): what an object is after a change of the state, the allocation of an object (O39), and the
completion of a phase (O42). -/

namespace Sys2Proof.Machine

/-! ### An object after a change of the state -/

theorem barAt_of_cores {s s' : State} (h : s'.cores = s.cores) (c i : Nat) : barAt s' c i = barAt s c i := by
  rw [barAt, barAt, State.core, State.core, h]

theorem Kept.barAt {s s' : State} {G P F W} (h : Kept s s' G P F W) (c i : Nat) : barAt s' c i = barAt s c i :=
  show kvGet {} ({ s'.core c with pmc := [] } : Core).bar i = _ by rw [h.core]; rfl

/-- A change of a core that leaves its objects. -/
theorem barAt_modCore (s : State) (k : Nat) {f : Core → Core} (h : (f (s.core k)).bar = (s.core k).bar) (c i : Nat) :
    barAt (s.modCore k f) c i = barAt s c i := by
  rw [barAt, State.core_modCore]
  split
  · subst_vars
    rw [h, barAt]
  · rfl

@[simp] theorem barAt_l1Acquire (s : State) (k c i : Nat) : barAt (l1Acquire s k) c i = barAt s c i := barAt_modCore s k rfl c i

/-- A read of an object after a change of one. -/
theorem barAt_modBar (s : State) (c i : Nat) (f : Barrier → Barrier) (d j : Nat) :
    barAt (modBar s c i f) d j = if d = c ∧ j = i then f (barAt s c i) else barAt s d j := by
  rw [barAt, modBar, State.core_modCore]
  by_cases hd : d = c
  · subst hd
    simp only [if_true, kvGet_kvSet, true_and]
    rfl
  · rw [if_neg hd, if_neg fun e => hd e.1, barAt]

@[simp] theorem barAt_modBar_same (s : State) (c i : Nat) (f : Barrier → Barrier) : barAt (modBar s c i f) c i = f (barAt s c i) := by
  rw [barAt_modBar, if_pos ⟨rfl, rfl⟩]

/-- The return of an object to its pool is a change of the object. -/
theorem freeBarrier_eq (s : State) (c i : Nat) :
    freeBarrier s c i = modBar s c i fun b => { b with alloc := false, dirty := none } := rfl

/-! ### BALLOC (R270) -/

/-- The arrivals that a BALLOC names. -/
def arrivalsOf (x : Ins) (v : Vals) : Nat := if x.mb 7 then x.ifld 0 15 else v.b % 2 ^ 15

/-- The free object of the lowest index of a core. -/
def firstFree (s : State) (c : Nat) : Option Nat := (List.range 64).find? fun i => !(barAt s c i).alloc

/-- A handle and a predicate for every thread of a sub-run. -/
def giveHandle (x : Ins) (ps : List Nat) (s : State) (h : Word) (ok : Bool) : State :=
  ps.zipIdx.foldl (fun s p => (s.setG p.1 x.f.d.toNat h (s.clk + p.2 + 6)).setP p.1 x.f.a.toNat ok (s.clk + p.2 + 6)) s

/-- The object with index `i` of core `c` as a BALLOC allocates it. -/
def newObject (x : Ins) (s : State) (c i n : Nat) : Barrier :=
  { asid := s.asidOf c, gen := (barAt s c i).gen % 127 + 1, alloc := true, nb := x.mb 0, refs := x.ifld 16 16, expected := n, pendArr := n }

/-- A BALLOC that takes the object with index `i` of core `c`. -/
def takeObject (x : Ins) (ps : List Nat) (s : State) (c n i : Nat) : State :=
  giveHandle x ps (modBar s c i fun _ => newObject x s c i n) (handleOf c i ((barAt s c i).gen % 127 + 1)) true

theorem firstFree_none {s : State} {c : Nat} (h : ∀ i < 64, (barAt s c i).alloc = true) : firstFree s c = none := by
  refine List.find?_eq_none.2 fun i hi => ?_
  simp [h i (List.mem_range.1 hi)]

theorem firstFree_some {s : State} {c i : Nat} (hi : i < 64) (h : (barAt s c i).alloc = false)
    (hlow : ∀ j < i, (barAt s c j).alloc = true) : firstFree s c = some i :=
  List.find?_range_eq_some.2 ⟨by simp [h], List.mem_range.2 hi, fun j hj => by simp [hlow j hj]⟩

/-- Handles change the registers and predicates that they are written to. -/
theorem kept_giveHandle (x : Ins) (ps : List Nat) (s : State) (h : Word) (ok : Bool) :
    Kept s (giveHandle x ps s h ok) (fun _ _ => True) (fun _ _ => True) noThread noReg :=
  kept_foldl _ _ _ fun _ _ _ =>
    .trans ((kept_setG ..).mono (fun _ _ _ => trivial) (fun _ _ h => h.elim) (fun _ h => h) fun _ _ h => h)
      ((kept_setP ..).mono (fun _ _ h => h.elim) (fun _ _ _ => trivial) (fun _ h => h) fun _ _ h => h)

theorem greg_setP (s : State) (t k : Nat) (v : Bool) (rdy u r : Nat) : (s.setP t k v rdy).greg u r = s.greg u r :=
  (kept_setP s t k v rdy).greg u r id

theorem pred_setG (s : State) (t r : Nat) (v : Word) (rdy u k : Nat) : (s.setG t r v rdy).pred u k = s.pred u k :=
  (kept_setG s t r v rdy).pred u k id

/-- Every thread of the sub-run has the handle in D and the predicate in A. -/
theorem giveHandle_each {x : Ins} {ps : List Nat} {u : Nat} (hu : u ∈ ps) (s : State) (h : Word) (ok : Bool) :
    ((giveHandle x ps s h ok).greg u x.f.d.toNat).v = h ∧
      (x.f.a.toNat < 7 → (giveHandle x ps s h ok).pred u x.f.a.toNat = ok) := by
  refine foldl_zipIdx_each (Q := fun s => (s.greg u x.f.d.toNat).v = h ∧ (x.f.a.toNat < 7 → s.pred u x.f.a.toNat = ok))
    (fun s n => ?_) (fun s p hp hq => ?_) hu 0 s
  · exact ⟨by rw [greg_setP, greg_setG_same, write_v], pred_setP _ u _ ok _⟩
  · rw [greg_setP, (kept_setG ..).greg u _ fun e => hp e.1.symm, (kept_setP ..).pred u _ fun e => hp e.1.symm, pred_setG]
    exact hq

section
variable {x : Ins} {ps : List Nat} {s : State} {v : Vals} (hg : gather s x (ps.headD 0) = .vals v)
include hg

theorem ballocSub_badCount (h : arrivalsOf x v = 0 ∨ 16384 < arrivalsOf x v ∨ x.ifld 16 16 = 0) :
    ballocSub x ps s = .fault 20 0 0 s := by
  unfold arrivalsOf at h
  simp only [ballocSub, hg, h, if_true]

/-- With its counts in their range BALLOC completes: it takes the first free object, or gives a zero. -/
theorem ballocSub_completes (h0 : 0 < arrivalsOf x v) (h1 : arrivalsOf x v ≤ 16384) (hr : 0 < x.ifld 16 16) :
    ballocSub x ps s = .ok (match firstFree s (coreOfThread (ps.headD 0)) with
      | none => giveHandle x ps s 0 false
      | some i => takeObject x ps s (coreOfThread (ps.headD 0)) (arrivalsOf x v) i) := by
  have hn : ¬(arrivalsOf x v = 0 ∨ 16384 < arrivalsOf x v ∨ x.ifld 16 16 = 0) := by omega
  unfold arrivalsOf at hn
  generalize hf : firstFree s (coreOfThread (ps.headD 0)) = o
  unfold firstFree at hf
  simp only [ballocSub, hg, hn, if_false, hf]
  cases o <;> rfl

end

theorem mem_takeObject (x : Ins) (ps : List Nat) (s : State) (c n i : Nat) : (takeObject x ps s c n i).mem = s.mem :=
  (kept_giveHandle ..).mem

theorem barAt_takeObject (x : Ins) (ps : List Nat) (s : State) (c n i d j : Nat) :
    barAt (takeObject x ps s c n i) d j = if d = c ∧ j = i then newObject x s c i n else barAt s d j := by
  rw [takeObject, (kept_giveHandle ..).barAt, barAt_modBar]

/-- Settles O39: the outcomes of BALLOC by its counts and by the first free object. -/
theorem ballocTakesTheLowestFreeObject : Obligations.BallocTakesTheLowestFreeObject := by
  intro f s ps v x t c n refs d hw hg
  have hrefs : x.ifld 16 16 = refs := by
    show f.imm.toNat >>> 16 % 2 ^ 16 = _
    rw [Nat.shiftRight_eq_div_pow]
  have hn : arrivalsOf x v = n := rfl
  refine ⟨fun h => traps_of_subFault hw rfl (ballocSub_badCount hg (hrefs ▸ h)), fun h0 h1 hr => ?_⟩
  have hpass := passesAll_of_ok (i := .balloc f) hw rfl (ballocSub_completes hg h0 h1 (hrefs ▸ hr))
  refine ⟨⟨_, hpass, ?_⟩, fun hall => ?_, fun i hi hfree hlow => ?_⟩
  · split
    · exact (kept_giveHandle ..).mem
    · exact mem_takeObject ..
  · rw [firstFree_none hall] at hpass
    exact ⟨_, hpass, fun u hu => giveHandle_each hu s 0 false⟩
  · rw [firstFree_some hi hfree hlow] at hpass
    refine ⟨_, hpass, ?_, fun j hj => ?_, fun u hu => giveHandle_each hu _ _ true⟩
    · rw [barAt_takeObject, if_pos ⟨rfl, rfl⟩, newObject, hrefs, hn]
    · rw [barAt_takeObject, if_neg fun e => hj e.2]

/-! ### The end of a phase (R273) and landings (R272) -/

/-- Arrivals and bytes are all in, on an object that is allocated and not overfilled. -/
def phaseDone (b : Barrier) : Bool :=
  b.alloc && !b.ovf && decide (b.pendArr = 0) && decide (b.pendBytes = 0) && (b.posted || b.nb)

theorem barTest_done {b : Barrier} (h : phaseDone b = true) :
    barTest b = { b with dirty := none, phase := !b.phase, pendArr := b.expected, posted := false } := if_pos h

theorem barTest_stands {b : Barrier} (h : ¬ phaseDone b = true) : barTest b = { b with dirty := none } := if_neg h

/-- The test leaves the allocation, the generation, the expected arrivals and the references. -/
theorem barTest_keeps (b : Barrier) :
    (barTest b).alloc = b.alloc ∧ (barTest b).gen = b.gen ∧ (barTest b).expected = b.expected ∧ (barTest b).refs = b.refs := by
  by_cases h : phaseDone b = true
  · rw [barTest_done h]
    exact ⟨rfl, rfl, rfl, rfl⟩
  · rw [barTest_stands h]
    exact ⟨rfl, rfl, rfl, rfl⟩

theorem barLand_nb {b : Barrier} (h : b.nb = true) (n : Nat) : barLand b n = b := if_pos h

theorem barLand_overfill {b : Barrier} {n : Nat} (h : b.nb = false) (hn : b.pendBytes - n < -byteLimit) :
    barLand b n = { b with ovf := true } := by
  rw [barLand, if_neg (by simp [h]), if_pos hn]

theorem barLand_counts {b : Barrier} {n : Nat} (h : b.nb = false) (hn : -byteLimit ≤ b.pendBytes - n) :
    barLand b n = { b with pendBytes := b.pendBytes - n } := by
  rw [barLand, if_neg (by simp [h]), if_neg (Int.not_lt.2 hn)]

/-- Settles O42: the test by whether the phase is done, and the landing by its three cases. -/
theorem barrierPhaseCompletes : Obligations.BarrierPhaseCompletes := by
  intro b
  obtain ⟨halloc, hgen, hexp, hrefs⟩ := barTest_keeps b
  refine ⟨halloc, hgen, hexp, hrefs, fun ha ho hp hb hn => ?_, fun h => barTest_stands ?_, fun n h hn => ?_, fun n h hn => ?_,
    fun n h => barLand_nb h n⟩
  · rw [barTest_done (by simpa [phaseDone, ha, ho, hp, hb] using hn)]
    exact ⟨rfl, rfl, rfl⟩
  · simp only [phaseDone, Bool.and_eq_true, Bool.not_eq_true', decide_eq_true_eq, Bool.or_eq_true]
    rintro ⟨⟨⟨⟨ha, ho⟩, hp⟩, hb⟩, hn⟩
    simp [ha, ho, hp, hb] at h
    simp [h] at hn
  · rw [barLand_counts h hn]
    exact ⟨rfl, rfl⟩
  · rw [barLand_overfill h hn]

end Sys2Proof.Machine
end

