-- ==== Sys2Proof/Proofs/BarrierInstructions.lean ====
section
/-! PROOFS. BARV, BEXP, BWAIT, BTEST and BFREE on an object of their own core (R269, R271, R272, R274; O40), and the check of a handle
that every one of them makes. -/

namespace Sys2Proof.Machine

/-! ### What messages and wakes leave of the objects -/

theorem cores_ite (p : Prop) [Decidable p] (s t : State) : (if p then s else t).cores = if p then s.cores else t.cores :=
  apply_ite State.cores p s t

@[simp] theorem cores_pumpDir (s : State) (dir : Nat) : (pumpDir s dir).cores = s.cores := by
  simp [pumpDir, cores_ite, State.post, State.chooseBelow, State.choose]

@[simp] theorem cores_pumpLink (s : State) (l : Nat) : (pumpLink s l).cores = s.cores := by
  simp [pumpLink, cores_ite, State.post]

@[simp] theorem cores_forward (s : State) (m : Nat) (passing : Bool) : (forward s m passing).cores = s.cores := by
  fun_cases forward s m passing <;> simp +zetaDelta [cores_ite, State.post]

@[simp] theorem cores_sendBarRep (s : State) (core : Nat) (r : BarrierRep) : (sendBarRep s core r).cores = s.cores := by
  simp [sendBarRep, sendRep, send, cores_ite, State.post, State.fresh]

/-- Waiting threads and messages go on; of the object, its list of waiting messages alone may change. -/
theorem barAt_wakePhase (s : State) (c i : Nat) :
    { barAt (wakePhase s c i) c i with waiters := [] } = { barAt s c i with waiters := [] } := by
  have hreplies (f : BarrierMsg → BarrierRep) (l : List BarrierMsg) (s : State) :
      barAt (l.foldl (fun s m => sendBarRep s c (f m)) s) c i = barAt s c i :=
    barAt_of_cores (foldl_keeps State.cores (fun s m => cores_sendBarRep s c (f m)) l s) c i
  unfold wakePhase
  rw [hreplies, barAt_modBar_same]
  refine congrArg (fun b : Barrier => { b with waiters := [] }) (foldl_keeps (fun s => barAt s c i) (fun s w => ?_) _ s)
  split
  · rfl
  · split
    · exact barAt_l1Acquire ..
    · rfl

theorem refs_wakePhase (s : State) (c i : Nat) : (barAt (wakePhase s c i) c i).refs = (barAt s c i).refs :=
  show ({ barAt (wakePhase s c i) c i with waiters := [] } : Barrier).refs = _ by rw [barAt_wakePhase]

theorem alloc_wakePhase (s : State) (c i : Nat) : (barAt (wakePhase s c i) c i).alloc = (barAt s c i).alloc :=
  show ({ barAt (wakePhase s c i) c i with waiters := [] } : Barrier).alloc = _ by rw [barAt_wakePhase]

/-! ### BFREE of an object (R271) -/

section
variable {s : State} {h : Word} {asid n : Nat} (hl : live s h asid = true)
include hl

theorem alloc_of_live : (barAt s (handleCore h) (handleIdx h)).alloc = true := by
  simp only [live, Bool.and_eq_true] at hl
  obtain ⟨⟨⟨-, halloc⟩, -⟩, -⟩ := hl
  exact halloc

theorem bits_of_live : natBits h.toNat 13 3 = 0 := by
  simp only [live, Bool.and_eq_true, decide_eq_true_eq] at hl
  obtain ⟨⟨⟨hbits, -⟩, -⟩, -⟩ := hl
  exact hbits

theorem barFree_tooMany (hn : (barAt s (handleCore h) (handleIdx h)).refs < n) : barFree s h asid n = (s, 20) := by
  simp [barFree, hl, hn]

/-- The references fall by the count, and an object without references is free. -/
theorem barFree_lowers (hn : n ≤ (barAt s (handleCore h) (handleIdx h)).refs) :
    ∃ s1, barFree s h asid n = (s1, 0) ∧
      (barAt s1 (handleCore h) (handleIdx h)).refs = (barAt s (handleCore h) (handleIdx h)).refs - n ∧
      ((barAt s1 (handleCore h) (handleIdx h)).alloc = true ↔ (barAt s (handleCore h) (handleIdx h)).refs ≠ n) := by
  have ha := alloc_of_live hl
  simp only [barFree, hl, Nat.not_lt.2 hn, Bool.not_true, Bool.false_eq_true, if_false, barAt_modBar_same]
  split
  next h0 =>
    refine ⟨_, rfl, ?_, ?_⟩
    · rw [refs_wakePhase, freeBarrier_eq, barAt_modBar_same, barAt_modBar_same]
    · rw [alloc_wakePhase, freeBarrier_eq, barAt_modBar_same]
      simp only [Bool.false_eq_true, false_iff, ne_eq, not_not]
      omega
  next h0 =>
    refine ⟨_, rfl, ?_, ?_⟩
    · rw [barAt_modBar_same]
    · rw [barAt_modBar_same]
      simp only [ha, true_iff, ne_eq]
      omega

end

/-! ### An update of an object (R272) -/

/-- An accepted update takes its arrivals and posts its bytes. -/
theorem barUpdate_accepts {b b' : Barrier} {n : Nat} {e : Option Nat} (h : barUpdate b n e = .inr b') :
    b'.pendArr + n = b.pendArr ∧ ∀ v, e = some v → b'.pendBytes = b.pendBytes + v ∧ b'.posted = true := by
  unfold barUpdate at h
  split at h
  · exact nomatch h
  · split at h
    · exact nomatch h
    next hn =>
      have hle : n ≤ b.pendArr := by
        simp only [Bool.or_eq_true, decide_eq_true_eq, not_or, Nat.not_lt] at hn
        exact hn.2
      split at h
      · split at h
        · exact nomatch h
        · cases h
          refine ⟨Nat.sub_add_cancel hle, fun v hv => ?_⟩
          cases hv
          exact ⟨rfl, rfl⟩
      · cases h
        exact ⟨Nat.sub_add_cancel hle, fun v hv => nomatch hv⟩

/-- The arrivals of BARV or BEXP. -/
def countOf (x : Ins) : Nat := if x.o = .bexp then x.f.m.toNat % 2 else x.f.imm.toNat % 2 ^ 15

/-- The bytes that BEXP posts. -/
def bytesOf (x : Ins) (v : Vals) : Option Nat := if x.o = .bexp then some v.b else none

/-- The object takes the update, and D the phase. -/
def putPhase (x : Ins) (t : Nat) (s : State) (c i : Nat) (b : Barrier) : State :=
  (modBar s c i fun _ => { b with dirty := some s.clk }).setG t x.f.d.toNat (BitVec.ofNat 32 (barAt s c i).phase.toNat) (s.rdy 1)

theorem barAt_putPhase (x : Ins) (t : Nat) (s : State) (c i : Nat) (b : Barrier) :
    barAt (putPhase x t s c i b) c i = { b with dirty := some s.clk } := by
  rw [putPhase, (kept_setG ..).barAt, barAt_modBar_same]

theorem toNat_mb_zero (x : Ins) : (x.mb 0).toNat = x.f.m.toNat % 2 := by
  rw [Ins.mb, BitVec.getLsbD, Nat.testBit_zero]
  obtain h | h := Nat.mod_two_eq_zero_or_one x.f.m.toNat <;> simp [h]

theorem countOf_eq (x : Ins) : (if x.o = .bexp then (x.mb 0).toNat else x.ifld 0 15) = countOf x := by
  rw [toNat_mb_zero]
  rfl

/-- A count in its range, or that of BEXP, raises no fault. -/
theorem noBadCount {x : Ins} (h : x.o = .bexp ∨ 0 < countOf x ∧ countOf x ≤ 16384) :
    (!decide (x.o = .bexp) && (decide (countOf x = 0) || decide (16384 < countOf x))) = false := by
  obtain h | ⟨h0, h1⟩ := h
  · simp [h]
  · simp [Nat.pos_iff_ne_zero.1 h0, Nat.not_lt.2 h1]

/-! ### The check of a handle (R269) -/

/-- The handle that an instruction reads. -/
def handleIn (v : Vals) : Word := BitVec.ofNat 32 v.a

/-- The object of the thread's own core at the index of its handle. -/
abbrev objectIn (s : State) (t : Nat) (v : Vals) : Barrier := barAt s (coreOfThread t) (handleIdx (handleIn v))

section
variable {x : Ins} {t : Nat} {s : State} {v : Vals} (hg : gather s x t = .vals v) (hd : (s.thread t).due = 0)
include hg hd

theorem onHandle_far {here far : Vals → Word → State → TOut} (hb : natBits (handleIn v).toNat 13 3 = 0)
    (hc : handleCore (handleIn v) ≠ coreOfThread t) : onHandle x t s here far = far v (handleIn v) s := by
  unfold handleIn at hb hc
  simp only [onHandle, dueFault, hd, if_true, hg, withHandle, hb, hc, ne_eq, not_true_eq_false, if_false, handleIn]

/-- BARV and BEXP of one thread on an object of another core, its earlier accesses performed. -/
theorem barvThread_far (hb : natBits (handleIn v).toNat 13 3 = 0) (hc : handleCore (handleIn v) ≠ coreOfThread t)
    (hrel : released s t = true) {op : Nat} {arg : Word}
    (h : x.o = .bexp ∧ op = 1 + (x.mb 0).toNat ∧ arg = BitVec.ofNat 32 v.b ∨
      x.o ≠ .bexp ∧ op = 0 ∧ arg = BitVec.ofNat 32 (x.ifld 0 15) ∧ 0 < x.ifld 0 15 ∧ x.ifld 0 15 ≤ 16384) :
    barvThread x t s = .ok (issueBar s x t op (handleIn v) arg).2 := by
  unfold barvThread
  rw [onHandle_far hg hd hb hc]
  obtain ⟨ho, rfl, rfl⟩ | ⟨ho, rfl, rfl, h0, h1⟩ := h
  · simp [ho, hrel]
  · simp [ho, hrel, Nat.pos_iff_ne_zero.1 h0, Nat.not_lt.2 h1]

variable (hc : handleCore (handleIn v) = coreOfThread t)
include hc

theorem onHandle_dead {here far : Vals → Word → State → TOut} (hl : live s (handleIn v) (s.asidOf (coreOfThread t)) = false) :
    onHandle x t s here far = .fault 19 0 0 s := by
  unfold handleIn at hc hl
  simp only [onHandle, dueFault, hd, if_true, hg, withHandle, hc, hl, Bool.false_eq_true, if_false]
  split <;> rfl

variable (hl : live s (handleIn v) (s.asidOf (coreOfThread t)) = true)
include hl

theorem onHandle_here {here far : Vals → Word → State → TOut} : onHandle x t s here far = here v (handleIn v) s := by
  have hb := bits_of_live hl
  unfold handleIn at hc hl hb
  simp only [onHandle, dueFault, hd, if_true, hg, withHandle, hb, hc, hl, ne_eq, not_true_eq_false, if_false, handleIn]

/-! ### BARV and BEXP (R272) -/

theorem barvThread_badCount (ho : x.o ≠ .bexp) (hn : countOf x = 0 ∨ 16384 < countOf x) : barvThread x t s = .fault 20 0 0 s := by
  unfold barvThread
  rw [onHandle_here hg hd hc hl, countOf_eq]
  simp [ho, hn]

section
variable (hr : x.o = .bexp ∨ 0 < countOf x ∧ countOf x ≤ 16384)
include hr

theorem barvThread_refused {y : Nat} (hu : barUpdate (objectIn s t v) (countOf x) (bytesOf x v) = .inl y) :
    barvThread x t s = .fault y 0 0 s := by
  unfold barvThread
  rw [onHandle_here hg hd hc hl, countOf_eq, noBadCount hr]
  unfold bytesOf at hu
  simp only [hc, hu, Bool.false_eq_true, if_false]

variable {b : Barrier} (hu : barUpdate (objectIn s t v) (countOf x) (bytesOf x v) = .inr b)
include hu

theorem barvThread_waits (hn : 0 < countOf x) (hrel : released s t = false) : barvThread x t s = .stay .order s := by
  unfold barvThread
  rw [onHandle_here hg hd hc hl, countOf_eq, noBadCount hr]
  unfold bytesOf at hu
  simp [hc, hu, hn, hrel]

theorem barvThread_updates (hn : countOf x = 0 ∨ released s t = true) :
    barvThread x t s = .ok (putPhase x t s (coreOfThread t) (handleIdx (handleIn v)) b) := by
  have hgo : ¬(0 < countOf x ∧ (!released s t) = true) := by
    obtain h | h := hn <;> simp [h]
  unfold barvThread
  rw [onHandle_here hg hd hc hl, countOf_eq, noBadCount hr]
  unfold bytesOf at hu
  simp only [hc, hu, hgo, Bool.false_eq_true, if_false]
  rfl

end

/-! ### BWAIT and BTEST (R274) -/

theorem bwaitThread_overfilled (hovf : (objectIn s t v).ovf = true) :
    bwaitThread x t s = .fault 21 0 0 s := by
  unfold bwaitThread
  rw [onHandle_here hg hd hc hl]
  simp only [hc, hovf, if_true]

theorem btestThread_overfilled (hovf : (objectIn s t v).ovf = true) :
    btestThread x t s = .fault 21 0 0 s := by
  unfold btestThread
  rw [onHandle_here hg hd hc hl]
  simp only [hc, hovf, if_true]

section
variable (hovf : (objectIn s t v).ovf = false)
include hovf

theorem bwaitThread_complete (hp : (objectIn s t v).phase ≠ decide (v.b % 2 = 1)) :
    bwaitThread x t s = .ok (l1Acquire s (coreOfThread t)) := by
  unfold bwaitThread
  rw [onHandle_here hg hd hc hl]
  simp only [hc, hovf, hp, ne_eq, not_false_eq_true, if_true, Bool.false_eq_true, if_false]

theorem bwaitThread_waits (hp : (objectIn s t v).phase = decide (v.b % 2 = 1)) :
    bwaitThread x t s = .held (s.hold t (.phase (coreOfThread t) (handleIdx (handleIn v)) (handleGen (handleIn v))
      (decide (v.b % 2 = 1)))) := by
  unfold bwaitThread
  rw [onHandle_here hg hd hc hl]
  simp only [hc, hovf, hp, ne_eq, not_true_eq_false, Bool.false_eq_true, if_false]

/-- BTEST writes whether the phase is complete; where it is, it is an acquire. -/
theorem btestThread_tests : ∃ s1, btestThread x t s = .ok s1 ∧
    (x.f.d.toNat < 7 → s1.pred t x.f.d.toNat =
      decide ((objectIn s t v).phase ≠ decide (v.b % 2 = 1))) ∧
    ∀ u r, s1.greg u r = s.greg u r := by
  unfold btestThread
  rw [onHandle_here hg hd hc hl]
  simp only [hc, hovf, Bool.false_eq_true, if_false]
  refine ⟨_, rfl, fun h7 => ?_, fun u r => ?_⟩
  · split <;> exact pred_setP _ _ _ _ _ h7
  · split <;> exact greg_setP ..

end

/-! ### BFREE (R271) -/

theorem bfreeSub_zero (h0 : x.ifld 0 16 = 0) : bfreeSub x [t] s = .fault 20 0 0 s :=
  (onHandle_here hg hd hc hl).trans (if_pos h0)

section
variable (h0 : x.ifld 0 16 ≠ 0)
include h0

theorem bfreeSub_tooMany (hn : (objectIn s t v).refs < x.ifld 0 16) :
    bfreeSub x [t] s = .fault 20 0 0 s := by
  refine (onHandle_here hg hd hc hl).trans ((if_neg h0).trans ?_)
  rw [List.headD_cons, barFree_tooMany hl (by rwa [hc])]
  rfl

theorem bfreeSub_lowers (hn : x.ifld 0 16 ≤ (objectIn s t v).refs) :
    ∃ s1, bfreeSub x [t] s = .ok s1 ∧
      (barAt s1 (coreOfThread t) (handleIdx (handleIn v))).refs =
        (objectIn s t v).refs - x.ifld 0 16 ∧
      ((barAt s1 (coreOfThread t) (handleIdx (handleIn v))).alloc = true ↔
        (objectIn s t v).refs ≠ x.ifld 0 16) := by
  obtain ⟨s1, he, hrefs, halloc⟩ := barFree_lowers (n := x.ifld 0 16) hl (by rwa [hc])
  rw [hc] at hrefs halloc
  refine ⟨s1, (onHandle_here hg hd hc hl).trans ((if_neg h0).trans ?_), hrefs, halloc⟩
  rw [List.headD_cons, he]
  rfl

end

end

/-! ### The instructions on an object of the own core -/

theorem exec_barv {f : Long} {o : Opc} {i : Instr} (h : o = .barv ∧ i = .barv f ∨ o = .bexp ∧ i = .bexp f) (s : State) :
    exec i s = perThread (Ins.ofBody o (.long f)) 1 noEnd (barvThread (Ins.ofBody o (.long f))) s := by
  obtain ⟨rfl, rfl⟩ | ⟨rfl, rfl⟩ := h <;> rfl

/-- Settles O40: the check of the handle, then the instructions one by one. -/
theorem localBarrierInstructions : Obligations.LocalBarrierInstructions := by
  intro f o i s t v hi x c h k b n e frees hturn hg hd hc
  have hone (ho : o ≠ .bfree) : Turn s x t := by rwa [if_neg ho] at hturn
  have hwhole (ho : o = .bfree) : Whole s x [t] := by rwa [if_pos ho] at hturn
  refine ⟨fun hl => ?_, fun hl => ⟨fun ho hr => ?_, fun ho hn => ?_, fun ho hovf => ?_, fun ho hovf => ?_, fun ho hovf => ?_,
    fun ho h0 => ?_, fun ho h0 => ?_⟩⟩
  · obtain ⟨rfl, rfl⟩ | ⟨rfl, rfl⟩ | ⟨rfl, rfl⟩ | ⟨rfl, rfl⟩ | ⟨rfl, rfl⟩ := hi
    · exact traps_of_fault (body := barvThread x) (hone (by decide)) rfl (onHandle_dead hg hd hc hl)
    · exact traps_of_fault (body := barvThread x) (hone (by decide)) rfl (onHandle_dead hg hd hc hl)
    · exact traps_of_fault (body := bwaitThread x) (hone (by decide)) rfl (onHandle_dead hg hd hc hl)
    · exact traps_of_fault (body := btestThread x) (hone (by decide)) rfl (onHandle_dead hg hd hc hl)
    · exact traps_of_subFault (body := bfreeSub x) (hwhole rfl) rfl (onHandle_dead hg hd hc hl)
  · have hi' : o = .barv ∧ i = .barv f ∨ o = .bexp ∧ i = .bexp f := by
      obtain rfl | rfl := ho <;> simpa using hi
    have ht := hone (by obtain rfl | rfl := ho <;> decide)
    have hr' : x.o = .bexp ∨ 0 < countOf x ∧ countOf x ≤ 16384 := ho.symm.imp id hr
    refine ⟨fun y hu => traps_of_fault ht (exec_barv hi' s) (barvThread_refused hg hd hc hl hr' hu), fun b' hu =>
      ⟨fun hn => ?_, fun hn hrel => lands_of_stay ht (exec_barv hi' s) (barvThread_waits hg hd hc hl hr' hu hn hrel)⟩⟩
    obtain ⟨harr, hbytes⟩ := barUpdate_accepts hu
    refine ⟨_, passes_of_ok ht (exec_barv hi' s) (barvThread_updates hg hd hc hl hr' hu hn), ?_, ?_, barAt_putPhase .., harr,
      fun hexp => hbytes _ (if_pos hexp)⟩
    · exact congrArg GReg.v (greg_setG_same ..)
    · exact congrArg GReg.full (greg_setG_same ..)
  · obtain rfl : i = .barv f := by simpa [ho] using hi
    subst ho
    exact traps_of_fault (hone (by decide)) rfl (barvThread_badCount hg hd hc hl (show Opc.barv ≠ .bexp by decide) hn)
  · obtain rfl | rfl := ho
    · obtain rfl : i = .bwait f := by simpa using hi
      exact traps_of_fault (hone (by decide)) rfl (bwaitThread_overfilled hg hd hc hl hovf)
    · obtain rfl : i = .btest f := by simpa using hi
      exact traps_of_fault (hone (by decide)) rfl (btestThread_overfilled hg hd hc hl hovf)
  · obtain rfl : i = .bwait f := by simpa [ho] using hi
    subst ho
    have ht := hone (by decide)
    refine ⟨fun hp => ⟨_, passes_of_ok ht rfl (bwaitThread_complete hg hd hc hl hovf hp), fun _ _ => rfl⟩, fun hp => ?_⟩
    rw [hp]
    exact lands_of_jump ht rfl (.inr (bwaitThread_waits hg hd hc hl hovf hp))
  · obtain rfl : i = .btest f := by simpa [ho] using hi
    subst ho
    obtain ⟨s1, hb, hpred, hgreg⟩ := btestThread_tests hg hd hc hl hovf
    exact ⟨s1, passes_of_ok (hone (by decide)) rfl hb, hpred, hgreg⟩
  · obtain rfl : i = .bfree f := by simpa [ho] using hi
    subst ho
    exact traps_of_subFault (hwhole rfl) rfl (bfreeSub_zero hg hd hc hl h0)
  · obtain rfl : i = .bfree f := by simpa [ho] using hi
    subst ho
    refine ⟨fun hn => traps_of_subFault (hwhole rfl) rfl (bfreeSub_tooMany hg hd hc hl h0 hn), fun hn => ?_⟩
    obtain ⟨s1, hb, hrefs, halloc⟩ := bfreeSub_lowers hg hd hc hl h0 hn
    exact ⟨s1, passesAll_of_ok (hwhole rfl) rfl hb, hrefs, halloc⟩

end Sys2Proof.Machine
end

