-- ==== Sys2Proof/Proofs/RemoteBarriers.lean ====
section
/-! PROOFS. Barrier instructions on an object of another core of the die (R275; O41): the message with its handle and
operand, and the record by which its reply finds the thread. -/

namespace Sys2Proof.Machine

/-- The state in which a message to an object is under way with the next number: its record is entered, and the register of BARV or BEXP is
empty. -/
def enterBar (x : Ins) (s : State) (t op : Nat) (h : Word) : State :=
  let r : Req := { reqBase x s.fresh.2 t .bar with stage := 1, op := op, n := if op ≤ 2 then 1 else 0, tag := s.nextId, cls := 4,
                                                   pa := 2 ^ 27 * dieOfCore (handleCore h), order := 0, scope := 0 }
  let s1 : State := { s.fresh.2 with reqs := kvSet s.reqs s.nextId r }
  if op ≤ 2 then s1.emptyG t x.f.d.toNat s.nextId 1 else s1

/-- The message of an instruction on an object. -/
def messageOf (x : Ins) (s : State) (t op : Nat) (h arg : Word) : BarrierMsg :=
  { op := op, thread := t, handle := h, arg := arg, reg := x.f.d.toNat, tag := s.nextId,
    asid := BitVec.ofNat 12 (s.asidOf (coreOfThread t)), epoch := (s.core (coreOfThread t)).epoch }

section
variable (x : Ins) (s : State) (t : Nat) {op : Nat} {h : Word} (arg : Word)

/-- On its own die a message comes to its object after the clks of R275. -/
theorem issueBar_sameDie (hd : dieOfCore (handleCore h) = dieOfCore (coreOfThread t)) :
    issueBar s x t op h arg = (s.nextId, (enterBar x s t op h).post dieClk (.barrierMessage (messageOf x s t op h arg))) := by
  unfold issueBar enterBar sendBar messageOf
  simp only [hd, if_true]
  split <;> rfl

theorem clk_enterBar : (enterBar x s t op h).clk = s.clk := by
  unfold enterBar
  split <;> rfl

/-- BARV and BEXP leave D empty under the number of their message. -/
theorem greg_enterBar_empties (ho : op ≤ 2) :
    (enterBar x s t op h).greg t x.f.d.toNat = { s.greg t x.f.d.toNat with full := false, tag := s.nextId } := by
  unfold enterBar
  rw [if_pos ho, greg_emptyG_one]
  rfl

theorem seats_enterBar (ho : 2 < op) : (enterBar x s t op h).seats = s.seats := by
  unfold enterBar
  rw [if_neg (Nat.not_le.2 ho)]
  rfl

theorem mem_agenda_issueBar (hd : dieOfCore (handleCore h) = dieOfCore (coreOfThread t)) :
    (s.clk + 48, .barrierMessage (messageOf x s t op h arg)) ∈ (issueBar s x t op h arg).2.agenda := by
  rw [issueBar_sameDie x s t arg hd, ← clk_enterBar x s t (op := op) (h := h)]
  exact mem_agenda_posted ..

end

section
variable {x : Ins} {t : Nat} {s : State} {v : Vals} (hg : gather s x t = .vals v) (hd : (s.thread t).due = 0)
  (hb : natBits (handleIn v).toNat 13 3 = 0) (hc : handleCore (handleIn v) ≠ coreOfThread t)
include hg hd hb hc

/-- BTEST and BWAIT of one thread on an object of another core are held for the reply. -/
theorem btestThread_far : btestThread x t s = .held ((issueBar s x t 3 (handleIn v) (BitVec.ofNat 32 (v.b % 2))).2.hold t
    (.reply (issueBar s x t 3 (handleIn v) (BitVec.ofNat 32 (v.b % 2))).1)) := onHandle_far hg hd hb hc

theorem bwaitThread_far : bwaitThread x t s = .held ((issueBar s x t 4 (handleIn v) (BitVec.ofNat 32 (v.b % 2))).2.hold t
    (.reply (issueBar s x t 4 (handleIn v) (BitVec.ofNat 32 (v.b % 2))).1)) := onHandle_far hg hd hb hc

end

/-- A thread that is held for the reply to its message. -/
theorem lands_message {i : Instr} {x : Ins} {s : State} {t op : Nat} {h arg : Word} {body : Nat → State → TOut} (ht : Turn s x t)
    (he : exec i s = perThread x 1 noEnd body s) (ho : 2 < op) (hd : dieOfCore (handleCore h) = dieOfCore (coreOfThread t))
    (hb : body t s = .held ((issueBar s x t op h arg).2.hold t (.reply (issueBar s x t op h arg).1))) :
    ∃ s1, Lands i t s s1 ∧ (s1.thread t).hold = .reply s.nextId ∧ (∀ u r, s1.greg u r = s.greg u r) ∧
      (s.clk + 48, .barrierMessage (messageOf x s t op h arg)) ∈ s1.agenda := by
  have hseats : (issueBar s x t op h arg).2.seats = s.seats := by
    rw [issueBar_sameDie x s t arg hd, seats_post, seats_enterBar x s t ho]
  refine ⟨_, lands_of_jump ht he (.inr hb), ?_, fun u r => ?_, mem_agenda_issueBar x s t arg hd⟩
  · rw [State.hold, State.thread_modThread_same]
    rfl
  · rw [(kept_hold ..).greg u r id, greg_of_seats hseats]

/-- Settles O41: BARV and BEXP go on with D empty, BTEST and BWAIT are held, each with its message on the agenda. -/
theorem remoteBarrierInstructionsSendAMessage : Obligations.RemoteBarrierInstructionsSendAMessage := by
  intro f o i op arg s t v hi x c h ht hg hd hb hc hdie hrel m
  refine ⟨fun hop => ?_, fun hop => ?_⟩
  · have hthread : exec i s = perThread x 1 noEnd (barvThread x) s ∧
        barvThread x t s = .ok (issueBar s x t op h (BitVec.ofNat 32 (arg v))).2 := by
      obtain ⟨rfl, rfl, rfl, rfl, h0, h1⟩ | ⟨rfl, rfl, rfl, rfl⟩ | ⟨-, -, rfl, -⟩ | ⟨-, -, rfl, -⟩ := hi
      · exact ⟨rfl, barvThread_far hg hd hb hc hrel (.inr ⟨show Opc.barv ≠ .bexp by decide, rfl, rfl, h0, h1⟩)⟩
      · exact ⟨rfl, barvThread_far hg hd hb hc hrel (.inl ⟨rfl, congrArg (1 + ·) (toNat_mb_zero x).symm, rfl⟩)⟩
      · omega
      · omega
    obtain ⟨he, hbody⟩ := hthread
    have hgreg : (issueBar s x t op h (BitVec.ofNat 32 (arg v))).2.greg t f.d.toNat =
        { s.greg t f.d.toNat with full := false, tag := s.nextId } := by
      rw [issueBar_sameDie x s t _ hdie]
      exact greg_enterBar_empties x s t hop
    exact ⟨_, s.nextId, passes_of_ok ht he hbody, congrArg GReg.full hgreg, congrArg GReg.tag hgreg, mem_agenda_issueBar x s t _ hdie⟩
  · obtain ⟨-, -, rfl, -⟩ | ⟨-, -, rfl, -⟩ | ⟨rfl, rfl, rfl, rfl⟩ | ⟨rfl, rfl, rfl, rfl⟩ := hi
    · omega
    · omega
    · obtain ⟨s1, h1⟩ := lands_message (i := .btest f) ht rfl hop hdie (btestThread_far hg hd hb hc)
      exact ⟨s1, s.nextId, h1⟩
    · obtain ⟨s1, h1⟩ := lands_message (i := .bwait f) ht rfl hop hdie (bwaitThread_far hg hd hb hc)
      exact ⟨s1, s.nextId, h1⟩

end Sys2Proof.Machine
end

