-- ==== Sys2Proof/Proofs/Convergence.lean ====
section
/-! PROOFS. Convergence registers and engine counters (R278, R281, R282; O43). -/

namespace Sys2Proof.Machine

/-! ### CSIGN (R278) -/

/-- The size that a CSIGN names. -/
def sizeOf (x : Ins) (v : Vals) : Nat := if x.mb 7 then x.ifld 0 11 else v.b % 2 ^ 11

/-- A round has no place for a signer of a size: the size is outside its range or another than the round's, or the round is full. -/
def noPlace (r : Cv) (size : Nat) : Prop :=
  size = 0 ∨ 1024 < size ∨ r.size ≠ 0 ∧ (size ≠ r.size ∨ r.signers.length = r.size)

/-- A size in its range has a place in a new round, and in one of its own size that is not full. -/
theorem not_noPlace {r : Cv} {size : Nat} (h0 : 0 < size) (h1 : size ≤ 1024)
    (hr : r.size = 0 ∨ r.size = size ∧ r.signers.length ≠ r.size) : ¬ noPlace r size := by
  unfold noPlace
  omega

/-- The round with one more signer. -/
def signed (r : Cv) (size t : Nat) : Cv := { r with size := size, signers := r.signers ++ [t] }

/-- The thread has signed the register of A, and is held for its round. -/
def signRound (x : Ins) (s : State) (t size : Nat) : State :=
  (modCv s (coreOfThread t) x.f.a.toNat fun r => signed r size t).hold t (.round x.f.a.toNat x.f.d.toNat)

theorem posted_post (s : State) (n : Nat) (e : Ev) : (s.post n e).posted e = true :=
  List.any_eq_true.2 ⟨_, mem_agenda_posted .., decide_eq_true rfl⟩

/-- The test of a round changes the agenda alone. -/
theorem cores_threads_cvTest (s : State) (c i : Nat) : (cvTest s c i).cores = s.cores ∧ (cvTest s c i).threads = s.threads := by
  unfold cvTest
  dsimp only
  split <;> exact ⟨rfl, rfl⟩

/-- A round that is bound and full fires. -/
theorem cvTest_fires {s : State} {c i : Nat} (hb : (cvAt s c i).bound.isSome = true) (h0 : (cvAt s c i).size ≠ 0)
    (hs : (cvAt s c i).signers.length = (cvAt s c i).size) : (cvTest s c i).posted (.roundFire c i) = true := by
  unfold cvTest
  simp only [hb, h0, hs, ne_eq, not_false_eq_true, decide_true, Bool.true_and]
  split
  · exact posted_post ..
  next h => simpa using h

/-- The round as it stands after the test of a round. -/
theorem cvAt_cvTest (s : State) (c i d j : Nat) : cvAt (cvTest s c i) d j = cvAt s d j := by
  rw [cvAt, State.core, (cores_threads_cvTest s c i).1, ← State.core, ← cvAt]

theorem thread_cvTest (s : State) (c i u : Nat) : (cvTest s c i).thread u = s.thread u := by
  rw [State.thread, (cores_threads_cvTest s c i).2, ← State.thread]

theorem cvAt_signRound (x : Ins) (s : State) (t size : Nat) :
    cvAt (signRound x s t size) (coreOfThread t) x.f.a.toNat = signed (cvAt s (coreOfThread t) x.f.a.toNat) size t := by
  unfold signRound modCv cvAt State.hold
  rw [State.modThread_core, State.core_modCore_same, kvGet_kvSet_same]

/-- CSIGN signs its round, and tests whether it fires. -/
def signAndTest (x : Ins) (s : State) (t size : Nat) : State := cvTest (signRound x s t size) (coreOfThread t) x.f.a.toNat

section
variable (x : Ins) (s : State) (t size : Nat)

theorem cvAt_signAndTest :
    cvAt (signAndTest x s t size) (coreOfThread t) x.f.a.toNat = signed (cvAt s (coreOfThread t) x.f.a.toNat) size t :=
  (cvAt_cvTest ..).trans (cvAt_signRound ..)

theorem thread_signAndTest : (signAndTest x s t size).thread t =
    { s.thread t with hold := .round x.f.a.toNat x.f.d.toNat, slot := false } :=
  (thread_cvTest ..).trans (State.thread_modThread_same ..)

theorem greg_signAndTest (u k : Nat) : (signAndTest x s t size).greg u k = s.greg u k := by
  rw [State.greg, signAndTest, thread_cvTest, ← State.greg]
  exact (kept_hold ..).greg u k id

/-- The last signature of a bound round lets it fire. -/
theorem signAndTest_fires (h0 : size ≠ 0) (hb : (cvAt s (coreOfThread t) x.f.a.toNat).bound.isSome = true)
    (hl : (cvAt s (coreOfThread t) x.f.a.toNat).signers.length + 1 = size) :
    (signAndTest x s t size).posted (.roundFire (coreOfThread t) x.f.a.toNat) = true := by
  have hcv := cvAt_signRound x s t size
  refine cvTest_fires ?_ ?_ ?_ <;> rw [hcv]
  · exact hb
  · exact h0
  · simpa [signed] using hl

end

section
variable {x : Ins} {t : Nat} {s : State} {v : Vals} (hg : gather s x t = .vals v)
include hg

theorem csignThread_refused (h : noPlace (cvAt s (coreOfThread t) x.f.a.toNat) (sizeOf x v)) : csignThread x t s = .fault 22 0 0 s := by
  simp only [csignThread, hg]
  exact if_pos h

theorem csignThread_signs (h : ¬ noPlace (cvAt s (coreOfThread t) x.f.a.toNat) (sizeOf x v)) :
    csignThread x t s = .held (signAndTest x s t (sizeOf x v)) := by
  simp only [csignThread, hg]
  exact if_neg h

end

/-! ### WAITC (R281) -/

/-- The counters of a mask are low where each that it names is. -/
theorem countersLow_iff {s : State} {w k : Nat} {m : BitVec 8} :
    countersLow s w m.toNat k = true ↔ ∀ q < 6, m.getLsbD q = true → counter s w q ≤ k := by
  simp only [countersLow, List.all_eq_true, List.mem_range, Bool.or_eq_true, Bool.not_eq_true', decide_eq_true_eq,
    BitVec.getLsbD, or_iff_not_imp_left, Bool.not_eq_false]

/-- WAITC of one thread. -/
def waitcThread (x : Ins) (t : Nat) (s : State) : TOut :=
  if countersLow s (t / 32) x.f.m.toNat (x.ifld 0 6) then .ok s else .held (s.hold t (.counters x.f.m.toNat (x.ifld 0 6)))

theorem waitc_eq (x : Ins) (s : State) : waitc x s = perThread x 1 noEnd (waitcThread x) s := rfl

/-! ### CNTR (R282) -/

/-- The word of the six counters of a warp. -/
def counterWord (s : State) (w : Nat) : Nat := (List.range 6).foldl (fun a c => a + counter s w c % 64 * 2 ^ (8 * c)) 0

/-- Numbers in a byte each can be read back byte by byte. -/
theorem bytes_foldl {a : Nat → Nat} (h : ∀ q, a q < 2 ^ 8) (n : Nat) :
    (List.range n).foldl (fun v c => v + a c * 2 ^ (8 * c)) 0 < 2 ^ (8 * n) ∧
      ∀ q < n, (List.range n).foldl (fun v c => v + a c * 2 ^ (8 * c)) 0 / 2 ^ (8 * q) % 2 ^ 8 = a q := by
  induction n with
  | zero => exact ⟨Nat.one_pos, fun q hq => absurd hq (Nat.not_lt_zero q)⟩
  | succ n ih =>
    rw [List.range_succ, List.foldl_append, List.foldl_cons, List.foldl_nil]
    generalize (List.range n).foldl (fun v c => v + a c * 2 ^ (8 * c)) 0 = v at ih
    obtain ⟨hlt, hbytes⟩ := ih
    refine ⟨?_, fun q hq => ?_⟩
    · have hmul := Nat.mul_le_mul_right (2 ^ (8 * n)) (Nat.le_of_lt_succ (h n))
      rw [Nat.mul_succ, Nat.pow_add]
      omega
    · obtain hq | rfl := Nat.lt_succ_iff_lt_or_eq.1 hq
      · have hpow : a n * 2 ^ (8 * n) = 2 ^ (8 * q) * (2 ^ 8 * (a n * 2 ^ (8 * (n - q - 1)))) := by
          rw [show 8 * n = 8 * q + (8 + 8 * (n - q - 1)) by omega, Nat.pow_add, Nat.pow_add]
          ac_rfl
        rw [hpow, Nat.add_mul_div_left _ _ (Nat.two_pow_pos _), Nat.add_mul_mod_self_left, hbytes q hq]
      · rw [Nat.add_mul_div_right _ _ (Nat.two_pow_pos _), Nat.div_eq_of_lt hlt, Nat.zero_add, Nat.mod_eq_of_lt (h q)]

/-- The word holds the six counters in a byte each, and nothing else. -/
theorem counterWord_bytes (s : State) (w : Nat) :
    counterWord s w < 2 ^ 48 ∧ ∀ q < 6, counterWord s w / 2 ^ (8 * q) % 2 ^ 8 = counter s w q % 64 :=
  bytes_foldl (a := fun c => counter s w c % 64) (fun _ => (Nat.mod_lt _ (by decide)).trans (by decide)) 6

/-- CNTR of one thread. -/
def cntrThread (x : Ins) (t : Nat) (s : State) : TOut := .ok (putDest s x t 2 (counterWord s (t / 32)) false (s.rdy 1))

theorem cntr_eq (x : Ins) (s : State) : cntr x s = perThread x 1 noEnd (cntrThread x) s := rfl

/-- A pair of registers reads as the number that is written to it. -/
theorem gpair_setGs (s : State) (t r v rdy : Nat) : (s.setGs t r v rdy 2).gpair t r = BitVec.ofNat 64 v := by
  have h0 : ((s.setGs t r v rdy 2).greg t r).v = BitVec.ofNat 32 v := by
    simpa using (greg_setGs s t r v rdy 2 0 (by decide)).1
  rw [State.gpair, h0, (greg_setGs s t r v rdy 2 1 (by decide)).1, ← words_append]

/-- Settles O43: the round that is signed, the wait by the counters of the mask, and the word of the six counters. -/
theorem convergenceAndCounters : Obligations.ConvergenceAndCounters := by
  intro f s t c w
  refine ⟨?_, fun ht => ⟨fun h => ?_, ?_⟩, fun ht hu hd => ?_⟩
  · intro v ht hg size r
    refine ⟨fun h => traps_of_fault ht rfl (csignThread_refused hg h), fun h0 h1 hr => ?_⟩
    have hs := csignThread_signs hg (not_noPlace h0 h1 hr)
    have hthread := thread_signAndTest (Ins.ofBody .csign (.long f)) s t size
    exact ⟨_, lands_of_jump ht rfl (.inr hs), congrArg Thread.hold hthread, (congrArg Thread.pc hthread).trans rfl, cvAt_signAndTest ..,
      greg_signAndTest _ s t size, fun hb hl => signAndTest_fires _ s t size (Nat.pos_iff_ne_zero.1 h0) hb hl⟩
  · exact passes_of_ok (i := .waitc f) ht (waitc_eq ..) (if_pos (countersLow_iff.2 h))
  · rintro ⟨q, hq, hm, hk⟩
    refine lands_of_jump (i := .waitc f) ht (waitc_eq ..) (.inr (if_neg fun h => ?_))
    exact absurd (countersLow_iff.1 h q hq hm) (Nat.not_le.2 hk)
  · obtain ⟨hlt, hbytes⟩ := counterWord_bytes s w
    have hput := putDest_registers (x := Ins.ofBody .cntr (.long f)) s t 2 (counterWord s w) (s.rdy 1) hu (Nat.lt_succ_of_lt hd)
    have hpair : ((s.setGs t f.d.toNat (counterWord s w) (s.rdy 1) 2).gpair t f.d.toNat).toNat = counterWord s w := by
      rw [gpair_setGs, BitVec.toNat_ofNat, Nat.mod_eq_of_lt (hlt.trans (by decide))]
    refine ⟨_, passes_of_ok (i := .cntr f) ht (cntr_eq ..) (congrArg TOut.ok hput), kept_setGs .., fun q hq => ?_, ?_⟩
    · exact (congrArg (fun n => n / 2 ^ (8 * q) % 2 ^ 8) hpair).trans (hbytes q hq)
    · exact hpair.trans_lt hlt

end Sys2Proof.Machine
end

