-- ==== Sys2Proof/Proofs/HeldSubruns.lean ====
section
/-! PROOFS. An instruction whose sub-run is held whole until it has its copy slots and the room in its counter (R285): which sub-runs
are held, and what the thread of one that is not held does. -/

namespace Sys2Proof.Machine

/-! ### The head of a run -/

theorem atWarp_slots (r : Run) (t : Nat) : (atWarp r t).slots = if r.warp = t / 32 then r.slots else 0 := by
  unfold atWarp
  split <;> rfl

/-- The sub-run of a thread has begun where the run stands at its warp with a slot that performed or a copy slot. -/
theorem begun_iff {s : State} {r : Run} {t : Nat} (hr : (s.lane s.cur).run = some r) :
    Begun s t ↔ ¬ ((atWarp r t).done = 0 ∧ (atWarp r t).slots = 0) := by
  rw [atWarp_done, atWarp_slots]
  constructor
  · rintro ⟨q, hq, hw, h⟩
    obtain rfl := Option.some.inj (hr.symm.trans hq)
    rwa [if_pos hw, if_pos hw, Decidable.not_and_iff_or_not]
  · intro h
    by_cases hw : r.warp = t / 32
    · rw [if_pos hw, if_pos hw, Decidable.not_and_iff_or_not] at h
      exact ⟨r, hr, hw, h⟩
    · exact absurd ⟨if_neg hw, if_neg hw⟩ h

theorem subRun_eq {s : State} {r : Run} (x : Ins) (t : Nat) (hr : (s.lane s.cur).run = some r) :
    subRun s x t = (r.threads.filter fun u => u / 32 = t / 32).filter fun u => s.alive u && guardTrue s x u := by
  simp only [subRun, hr]

/-! ### The hold of a sub-run -/

theorem kept_holds (l : List Nat) (h : Hold) (s : State) : Same s (l.foldl (fun s u => s.hold u h) s) :=
  kept_foldl _ l s fun s u _ => kept_hold s u h

theorem pc_holds (l : List Nat) (h : Hold) (s : State) (u : Nat) :
    ((l.foldl (fun s u => s.hold u h) s).thread u).pc = (s.thread u).pc := by
  induction l generalizing s with
  | nil => rfl
  | cons a l ih => exact (ih _).trans (pc_hold ..)

theorem hold_holds {l : List Nat} {h : Hold} {s : State} {u : Nat} (hu : u ∈ l ∨ (s.thread u).hold = h) :
    ((l.foldl (fun s u => s.hold u h) s).thread u).hold = h := by
  induction l generalizing s with
  | nil => simpa using hu
  | cons a l ih =>
    refine ih (s := s.hold a h) ?_
    rw [State.hold, State.thread_modThread]
    split
    · exact .inr rfl
    next ha => simpa [ha] using hu

/-- The sub-run at the head of the threads `l` of a run is held: those whose guard is false advance, and the run goes on with the threads of
other warps. -/
def holdSubrun (x : Ins) (s : State) (r : Run) (l : List Nat) (w : Nat) (h : Hold) : State :=
  let mine := l.filter fun u => u / 32 = w
  let s1 := (mine.filter fun u => s.alive u && !guardTrue s x u).foldl (fun s u => s.advance u x.size) s
  goOn x noEnd ((mine.filter fun u => s.alive u && guardTrue s x u).foldl (fun s u => s.hold u h) s1) r
    (l.filter fun u => u / 32 ≠ w) s.clk

section
variable (x : Ins) (s : State) (r : Run) (l : List Nat) (w : Nat) (h : Hold)

theorem kept_holdSubrun : Same s (holdSubrun x s r l w h) :=
  (kept_advances ..).trans ((kept_holds ..).trans (kept_goOn ..))

/-- A thread that performs is held where it stands. -/
theorem thread_holdSubrun {u : Nat} (hu : u ∈ (l.filter fun u => u / 32 = w).filter fun u => s.alive u && guardTrue s x u) :
    ((holdSubrun x s r l w h).thread u).pc = (s.thread u).pc ∧ ((holdSubrun x s r l w h).thread u).hold = h := by
  obtain ⟨hmine, hperforms⟩ := List.mem_filter.1 hu
  have hwarp : u / 32 = w := of_decide_eq_true (List.mem_filter.1 hmine).2
  have hguard : guardTrue s x u = true := (Bool.and_eq_true_iff.1 hperforms).2
  have hrest : u ∉ l.filter fun u => decide (u / 32 ≠ w) := by simp [hwarp]
  have hskip : u ∉ (l.filter fun u => decide (u / 32 = w)).filter fun u => s.alive u && !guardTrue s x u := by simp [hguard]
  unfold holdSubrun
  rw [thread_goOn _ _ _ _ _ hrest]
  refine ⟨?_, hold_holds (.inl hu)⟩
  rw [pc_holds, thread_advances_out _ _ _ hskip]

end

/-! ### The course of a held instruction -/

section
variable {s : State} {x : Ins} {t : Nat} (ht : Turn s x t) {need : List Nat → State → Option Hold} {body : Nat → State → TOut}
include ht

/-- A sub-run that has begun, or that needs nothing, executes its first thread as any other instruction. -/
theorem perThreadHeld_performs (h : Begun s t ∨ need (subRun s x t) s = none) :
    ∃ keep, perThreadHeld x need body s = perThreadKeep keep x 1 noEnd body s := by
  obtain ⟨r, rest, hr, hl, -, -⟩ := ht.run
  have hps := subRun_eq x t hr
  rw [hl] at hps
  have hneed : (if (atWarp r t).done = 0 ∧ (atWarp r t).slots = 0 then need (subRun s x t) s else none) = none := by
    split
    next h0 => exact h.resolve_left fun hb => (begun_iff hr).1 hb h0
    next => rfl
  unfold perThreadHeld
  simp only [hr, drainRun, hl, List.headD_cons, drainSub_turn rest ht.alive ht.guard, ne_eq, not_true_eq_false, and_false, if_false,
    ← hps, hneed]
  exact ⟨_, rfl⟩

/-- A sub-run that has not begun and needs a wait is held whole. -/
theorem perThreadHeld_holds {w : Hold} (hb : ¬ Begun s t) (h : need (subRun s x t) s = some w) :
    ∃ r r', (s.lane s.cur).run = some r ∧ perThreadHeld x need body s = .next (holdSubrun x s r' r.threads (t / 32) w) := by
  obtain ⟨r, rest, hr, hl, -, -⟩ := ht.run
  have hps := subRun_eq x t hr
  rw [hl] at hps
  have hrest : ((t :: rest).filter fun u => decide (u / 32 ≠ t / 32)) = rest.filter fun u => decide (u / 32 ≠ t / 32) :=
    List.filter_cons_of_neg (by simp)
  refine ⟨r, { atWarp r t with walk := none }, hr, ?_⟩
  unfold perThreadHeld holdSubrun
  simp only [hr, drainRun, hl, List.headD_cons, drainSub_turn rest ht.alive ht.guard, ne_eq, not_true_eq_false, and_false, if_false,
    ← hps, if_pos (Decidable.not_not.1 (mt (begun_iff hr).2 hb)), h]
  rw [← hrest]

/-- The wait of a sub-run for its copy slots and its counter. -/
theorem slotNeed_subRun (cls : Nat) : slotNeed cls (subRun s x t) s = subHold s x t cls := by
  obtain ⟨r, rest, hr, hl, -, -⟩ := ht.run
  have hhead : (subRun s x t).headD 0 = t := by
    simp [subRun_eq x t hr, hl, ht.alive, ht.guard]
  rw [slotNeed, subHold, hhead]

variable {i : Instr} {cls : Nat} (he : exec i s = perThreadHeld x (slotNeed cls) body s)
include he

/-- A sub-run that has not begun and lacks slots or counter room waits before any of its threads. -/
theorem holdsAll_of_subHold {w : Hold} (hb : ¬ Begun s t) (h : subHold s x t cls = some w) : HoldsAll i x t w s := by
  obtain ⟨r, r', hr, hrun⟩ := perThreadHeld_holds (body := body) ht hb ((slotNeed_subRun ht cls).trans h)
  refine ⟨_, he.trans hrun, kept_holdSubrun .., fun u hu => thread_holdSubrun _ _ _ _ _ _ ?_⟩
  rwa [subRun_eq x t hr] at hu

variable (h : Begun s t ∨ subHold s x t cls = none)
include h

/-- A sub-run that has its slots and its counter room executes its first thread. -/
theorem exec_of_slots : ∃ keep, exec i s = perThreadKeep keep x 1 noEnd body s := by
  obtain ⟨keep, hk⟩ := perThreadHeld_performs (body := body) ht (h.imp_right (slotNeed_subRun ht cls).trans)
  exact ⟨keep, he.trans hk⟩

/-- A thread with its slot whose body performs passes. -/
theorem passes_of_slots {s1 : State} (hb : body t s = .ok s1) : Passes i x t s s1 := by
  obtain ⟨keep, hk⟩ := exec_of_slots ht he h
  obtain ⟨-, r, rest, -, -, -, hn, ok, -⟩ := perThreadKeep_turn ht keep 1 noEnd body
  refine ⟨_, hk.trans (ok s1 hb), (kept_advance s1 t x.size).trans (kept_afterTurn ..), ?_, ?_⟩
  · rw [thread_afterTurn _ _ _ _ _ _ hn, thread_advance_pc]
  · rw [thread_afterTurn _ _ _ _ _ _ hn, thread_advance_hold]

/-- A thread with its slot whose body raises a fault without a change of the state traps. -/
theorem traps_of_slots {c a : Nat} {d : Dword} (hb : body t s = .fault c a d s) : Traps i t c a d s := by
  intro hh hc
  obtain ⟨keep, hk⟩ := exec_of_slots ht he h
  obtain ⟨r0, r, rest, hr, rfl, -, -, -, -, -, fault, -⟩ := perThreadKeep_turn ht keep 1 noEnd body
  exact ⟨_, hk.trans (fault c a d s hb), r0, hr,
    trapped_turn (faultRun_trapped _ _ _ _ _ _ hh hc) (atWarp_pc ..) (atWarp_warp ..) (atWarp_done ..)⟩

end

end Sys2Proof.Machine
end

