-- ==== Sys2Proof/Proofs/CopyEngines.lean ====
section
/-! PROOFS. The instructions of the copy engines: the issue of an operation (R223, R280), CPY and CPYQ (R295, R298; O44), and GATH, SCAT, PUTN
and GETN (R297, R372; O45). -/

namespace Sys2Proof.Machine

/-! ### The issue of an operation (R223, R280) -/

section
variable (s : State) (ts : List Nat) (p : Op)

theorem ops_issueOp : (issueOp s ts p).2.ops = kvSet s.ops s.nextId { p with after := opAfter s ts } := by
  unfold issueOp
  dsimp only
  split <;> rfl

/-- The operation stands under the next number, and waits for the earlier accesses of its issuers. -/
theorem op_issueOp : (issueOp s ts p).2.op s.nextId = { p with after := opAfter s ts } := by
  rw [State.op, ops_issueOp, kvGet_kvSet_same]

theorem cnt_issueOp : ((issueOp s ts p).2.warp p.warp).cnt =
    kvSet (s.warp p.warp).cnt p.cls (counter s p.warp p.cls + 1) := by
  unfold issueOp
  dsimp only
  split
  · exact congrArg Warp.cnt ((State.post_warp ..).trans (State.warp_modWarp_same ..))
  · exact congrArg Warp.cnt (State.warp_modWarp_same ..)

theorem counter_issueOp : counter (issueOp s ts p).2 p.warp p.cls = counter s p.warp p.cls + 1 := by
  rw [counter, cnt_issueOp, kvGet_kvSet_same]

/-- An issue changes no register and no memory. -/
theorem registers_memory_issueOp : (∀ u r, (issueOp s ts p).2.greg u r = s.greg u r) ∧ (issueOp s ts p).2.mem = s.mem ∧
    (issueOp s ts p).2.cellar = s.cellar := by
  unfold issueOp
  dsimp only
  split <;> exact ⟨fun _ _ => rfl, rfl, rfl⟩

/-- An operation that waits for no access enters its queue in this clk. -/
theorem mem_agenda_issueOp (h : opAfter s ts = []) : (s.clk, .operationEnqueue s.nextId) ∈ (issueOp s ts p).2.agenda := by
  unfold issueOp
  dsimp only
  have h' : opAfter s.fresh.2 ts = [] := h
  rw [h']
  exact mem_agenda_post ..

end

/-- An operation of a thread of its class, with nothing done yet. -/
structure Op.Of (p : Op) (s : State) (t cls : Nat) : Prop where
  warp : p.warp = t / 32
  thread : p.thread = t
  cls : p.cls = cls
  asid : p.asid = s.asidOf (coreOfThread t)
  stage : p.stage = 0

/-- The issue of an operation of a thread. -/
theorem Op.Of.issued {p : Op} {s : State} {t cls : Nat} (h : p.Of s t cls) (ts : List Nat) :
    Issued s (issueOp s ts p).2 t cls s.nextId := by
  have hop := op_issueOp s ts p
  have hcnt := counter_issueOp s ts p
  obtain ⟨hgreg, hmem, hcellar⟩ := registers_memory_issueOp s ts p
  rw [h.warp, h.cls] at hcnt
  refine ⟨?_, ?_, ?_, ?_, fun ha => mem_agenda_issueOp s ts p ?_, hcnt, hgreg, hmem, hcellar⟩
  · rw [hop]; exact h.thread
  · rw [hop]; exact h.cls
  · rw [hop]; exact h.asid
  · rw [hop]; exact h.stage
  · rwa [hop] at ha

/-- An operation with the barrier of a handle and the buffer that its instruction names. -/
def nameOp (s : State) (x : Ins) (t hdl : Nat) (p : Op) : Op :=
  { p with bar := if x.mb 6 then some (BitVec.ofNat 32 hdl) else none, buf := if x.ib 2 then some (x.ifld 8 6) else none,
           bout := x.ib 3, serial := (kvGet {} (s.die (dieOfCore (coreOfThread t))).buf (x.ifld 8 6)).serial }

/-- What the checks of a barrier and a buffer let pass is the operation that names them. -/
theorem eq_nameOp {s : State} {x : Ins} {t hdl : Nat} {known : Bool} {lo hi : Dword} {p q : Op}
    (h : nameBarBuf s x t hdl known lo hi p = .inr q) : q = nameOp s x t hdl p := by
  unfold nameBarBuf at h
  dsimp only at h
  split at h
  · nomatch h
  · split at h
    · nomatch h
    · split at h
      · nomatch h
      · exact (Sum.inr.inj h).symm

/-- In a list of addresses without bits in 63:56 the check finds none that has. -/
theorem find_high_none {l : List Dword} (h : ∀ a ∈ l, a.extractLsb' 56 8 = 0) :
    (l.find? fun a => a.extractLsb' 56 8 ≠ 0) = none :=
  List.find?_eq_none.2 fun a ha => by simpa using h a ha

/-- Of operands that have been read the number of B is known. -/
theorem lackB_of_vals {s : State} {x : Ins} {t : Nat} {v : Vals} (hg : gather s x t = .vals v) : v.lackB = false := by
  obtain ⟨-, h, -⟩ := gather_known hg
  exact h

/-- Of operands that have been read the number of C is known. -/
theorem lackC_of_vals {s : State} {x : Ins} {t : Nat} {v : Vals} (hg : gather s x t = .vals v) : v.lackC = false := by
  obtain ⟨-, -, h⟩ := gather_known hg
  exact h

/-! ### CPY (R295) -/

/-- A size that the literal of a copy holds less one. -/
def copySize (x : Ins) (lo n : Nat) : Nat := natBits x.lit.toNat lo n + 1

section
variable (x : Ins) (s : State) (t : Nat) (v : Vals)

/-- The sizes of a copy, from the elements of a row outwards. -/
def copyShape : List Nat := [copySize x 0 18, copySize x 18 12, copySize x 30 12, copySize x 42 12]

/-- The bytes of a copy. -/
def copyTotal : Nat := (copyShape x).foldl (· * ·) 1

/-- The strides of the source and then of the destination. -/
def copyStrides : List Int :=
  let dense : List Int := [(copySize x 0 18 : Int), (copySize x 0 18 * copySize x 18 12 : Nat),
    (copySize x 0 18 * copySize x 18 12 * copySize x 30 12 : Nat)]
  if x.mb 7 then dense ++ dense else (List.range 6).map fun i => (s.greg t (x.f.c.toNat + i)).v.toInt

/-- The lowest and the highest address of the source. -/
def copySource : Dword × Dword := sideSpan (BitVec.ofNat 64 v.a) ((copyStrides x s t).take 3) (copyShape x)

/-- The lowest and the highest address of the destination. -/
def copyDest : Dword × Dword := sideSpan (dPair s x t) ((copyStrides x s t).drop 3) (copyShape x)

/-- The four ends of the sides of a copy. -/
def copyEnds : List Dword := [(copySource x s t v).1, (copySource x s t v).2, (copyDest x s t).1, (copyDest x s t).2]

/-- The side of a copy that its buffer is for. -/
def copySide : Dword × Dword := if x.ib 3 then copySource x s t v else copyDest x s t

/-- The checks of a copy's barrier and buffer. -/
def copyNames : (Nat × Dword) ⊕ Op :=
  nameBarBuf s x t v.b (!v.lackB) (copySide x s t v).1 (copySide x s t v).2 (opOf s t .cpy 0)

/-- A copy with its sizes, strides and addresses. -/
def copyOp (p : Op) : Op :=
  { p with dst := dPair s x t, src := BitVec.ofNat 64 v.a, strides := copyStrides x s t, shape := copyShape x, total := copyTotal x,
           prio := x.ifld 0 2, scope := x.scope }

/-- The course of a CPY with its operands, check after check. -/
theorem cpyBody_eq : cpyBody x t v s =
    if 2 ^ 32 < copyTotal x then .fault 24 0 0 s
    else match (copyEnds x s t v).find? fun a => a.extractLsb' 56 8 ≠ 0 with
      | some a => .fault 7 0 a s
      | none => match copyNames x s t v with
        | .inl (c, a) => .fault c 0 a s
        | .inr p => .ok (issueOp s [t] (copyOp x s t v p)).2 := by
  rfl

end

section
variable {x : Ins} {s : State} {t : Nat} {v : Vals} (hg : gather s x t = .vals v)
include hg

theorem cpyThread_tooMuch (h : 2 ^ 32 < copyTotal x) : cpyThread x t s = .fault 24 0 0 s := by
  simp only [cpyThread, hg, cpyBody_eq, if_pos h]

variable (hn : ¬ 2 ^ 32 < copyTotal x)
include hn

theorem cpyThread_high {a : Dword} (h : ((copyEnds x s t v).find? fun a => a.extractLsb' 56 8 ≠ 0) = some a) :
    cpyThread x t s = .fault 7 0 a s := by
  simp only [cpyThread, hg, cpyBody_eq, if_neg hn, h]

variable (ha : ∀ a ∈ copyEnds x s t v, a.extractLsb' 56 8 = 0)
include ha

theorem cpyThread_misnamed {c : Nat} {a : Dword} (h : copyNames x s t v = .inl (c, a)) : cpyThread x t s = .fault c 0 a s := by
  simp only [cpyThread, hg, cpyBody_eq, if_neg hn, find_high_none ha, h]

theorem cpyThread_issues {p : Op} (h : copyNames x s t v = .inr p) :
    cpyThread x t s = .ok (issueOp s [t] (copyOp x s t v p)).2 := by
  simp only [cpyThread, hg, cpyBody_eq, if_neg hn, find_high_none ha, h]

end

/-! ### CPYQ (R298) -/

/-- The thread is the first of its warp in a run. -/
def Run.first (r : Run) (w : Nat) : Bool := decide (r.warp ≠ w ∨ r.done = 0)

/-- The four queue depths in a byte each. -/
def depthWord (s : State) (d : Nat) : Nat := (List.range 4).foldl (fun n q => n + waitingUnits s d q * 2 ^ (8 * q)) 0

theorem depthWord_bytes (s : State) (d : Nat) :
    depthWord s d < 2 ^ 32 ∧ ∀ q < 4, depthWord s d / 2 ^ (8 * q) % 2 ^ 8 = waitingUnits s d q :=
  bytes_foldl (a := waitingUnits s d) (fun _ => (Nat.min_le_left ..).trans_lt (by decide)) 4

theorem depthWord_high (s : State) (d : Nat) :
    (List.range 4).foldl (fun n q => n + waitingUnits s d q * 2 ^ (32 + 8 * q)) 0 = 2 ^ 32 * depthWord s d :=
  List.foldl_hom (2 ^ 32 * ·) (g₁ := fun n q => n + waitingUnits s d q * 2 ^ (8 * q))
    (g₂ := fun n q => n + waitingUnits s d q * 2 ^ (32 + 8 * q)) (init := 0) fun n q => by rw [Nat.pow_add]; ring

/-- The state in which the failure word of a warp is read and cleared. -/
def clearFail (s : State) (w : Nat) : State := s.modWarp w fun h => { h with cpyWord := h.engFail, engFail := 0 }

/-- The state after a CPYQ has read the failure word, if it does. -/
def afterFail (x : Ins) (s : State) (r : Run) (w : Nat) : State := if x.mb 0 && r.first w then clearFail s w else s

/-- The low word of a CPYQ, where the failure word has been read. -/
def cpyqLow (x : Ins) (s : State) (w : Nat) : Nat :=
  if x.mb 0 then (s.warp w).cpyWord.toNat else 1024 - slotsUsed s (coreOfWarp w)

theorem cpyqLow_lt (x : Ins) (s : State) (w : Nat) : cpyqLow x s w < 2 ^ 32 := by
  unfold cpyqLow
  split
  · exact (s.warp w).cpyWord.isLt
  · exact (Nat.sub_le ..).trans_lt (by decide)

/-- The first thread of a sub-run reads the failure word as it stands, every later one what the first read. -/
theorem cpyqLow_afterFail (x : Ins) (s : State) (r : Run) (w : Nat) :
    BitVec.ofNat 32 (cpyqLow x (afterFail x s r w) w) =
      if x.mb 0 then (if r.first w then (s.warp w).engFail else (s.warp w).cpyWord)
      else BitVec.ofNat 32 (1024 - slotsUsed s (coreOfWarp w)) := by
  unfold cpyqLow afterFail
  cases x.mb 0 with
  | false => rfl
  | true =>
    cases r.first w with
    | false => exact (BitVec.ofNat_toNat ..).trans (BitVec.setWidth_eq ..)
    | true =>
      simp only [Bool.and_self, if_true, clearFail, State.warp_modWarp_same]
      exact (BitVec.ofNat_toNat ..).trans (BitVec.setWidth_eq ..)

/-- CPYQ writes the depths above the low word. -/
theorem cpyqThread_writes {x : Ins} {s : State} {t : Nat} {r : Run} (hr : (s.lane s.cur).run = some r) :
    cpyqThread x t s = .ok ((afterFail x s r (t / 32)).setGs t x.f.d.toNat
      (2 ^ 32 * depthWord s (dieOfCore (coreOfWarp (t / 32))) + cpyqLow x (afterFail x s r (t / 32)) (t / 32))
      ((afterFail x s r (t / 32)).rdy 1) 2) := by
  simp only [cpyqThread, hr, depthWord_high]
  rfl

theorem warp_setGs (s : State) (t r v rdy n w : Nat) : (s.setGs t r v rdy n).warp w = s.warp w := by
  induction n generalizing s r v with
  | zero => rfl
  | succ n ih => exact ih ..

theorem engFail_afterFail (x : Ins) (s : State) (r : Run) (w : Nat) :
    ((afterFail x s r w).warp w).engFail = if x.mb 0 && r.first w then 0 else (s.warp w).engFail := by
  unfold afterFail
  split
  · rw [clearFail, State.warp_modWarp_same]
  · rfl

/-- Reading the failure word changes no register and no memory. -/
theorem registers_memory_afterFail (x : Ins) (s : State) (r : Run) (w : Nat) :
    (∀ u k, (afterFail x s r w).greg u k = s.greg u k) ∧ (afterFail x s r w).mem = s.mem ∧ (afterFail x s r w).cellar = s.cellar := by
  unfold afterFail
  split <;> exact ⟨fun _ _ => rfl, rfl, rfl⟩

/-- The two registers of a pair that is written with a word above another. -/
theorem greg_setGs_pair (s : State) (t d rdy : Nat) {hi lo : Nat} (hh : hi < 2 ^ 32) (hl : lo < 2 ^ 32) :
    ((s.setGs t d (2 ^ 32 * hi + lo) rdy 2).greg t d).v = BitVec.ofNat 32 lo ∧
      ((s.setGs t d (2 ^ 32 * hi + lo) rdy 2).greg t (d + 1)).v.toNat = hi := by
  constructor
  · refine (greg_setGs s t d _ rdy 2 0 (by decide)).1.trans (BitVec.eq_of_toNat_eq ?_)
    simp
  · rw [(greg_setGs s t d _ rdy 2 1 (by decide)).1, BitVec.toNat_ofNat, Nat.mul_one, Nat.mul_add_div (Nat.two_pow_pos 32),
      Nat.div_eq_of_lt hl, Nat.add_zero, Nat.mod_eq_of_lt hh]

/-- Settles O44: the hold of the sub-run, the checks of a CPY one after another with the copy that passes them all, and the pair that CPYQ
writes. -/
theorem copyIssuesAnOperation : Obligations.CopyIssuesAnOperation := by
  refine ⟨fun f l s t v => ?_, fun f s t r => ?_⟩
  · intro x sz shape total dense strides src dst sp dp side ht
    refine ⟨fun hb _ hh => holdsAll_of_subHold ht rfl hb hh, fun hb hg => ?_⟩
    have htotal : copyTotal x = total := by
      simp only [copyTotal, copyShape, List.foldl_cons, List.foldl_nil, Nat.one_mul]
      rfl
    refine ⟨fun h => traps_of_slots ht rfl hb (cpyThread_tooMuch hg (htotal ▸ h)), fun h => ?_⟩
    have hn : ¬ 2 ^ 32 < copyTotal x := by rw [htotal]; exact Nat.not_lt.2 h
    refine ⟨fun a ha => traps_of_slots ht rfl hb (cpyThread_high hg hn ha), fun ha => ?_⟩
    have hnames : copyNames x s t v = nameBarBuf s x t v.b true side.1 side.2 (opOf s t .cpy 0) := by
      rw [copyNames, lackB_of_vals hg]
      rfl
    refine ⟨fun c a hc => traps_of_slots ht rfl hb (cpyThread_misnamed hg hn ha (hnames.trans hc)), fun p hp => ?_⟩
    have hbody := cpyThread_issues hg hn ha (hnames.trans hp)
    obtain rfl := eq_nameOp hp
    have hop := op_issueOp s [t] (copyOp x s t v (nameOp s x t v.b (opOf s t .cpy 0)))
    refine ⟨_, s.nextId, passes_of_slots ht rfl hb hbody, Op.Of.issued ⟨rfl, rfl, rfl, rfl, rfl⟩ [t], ?_⟩
    rw [hop]
    exact ⟨rfl, rfl, rfl, rfl, rfl, htotal, rfl, rfl⟩
  · intro x w d first ht hr
    obtain ⟨hlt, hbytes⟩ := depthWord_bytes s d
    obtain ⟨hlow, hhigh⟩ := greg_setGs_pair (afterFail x s r w) t f.d.toNat ((afterFail x s r w).rdy 1) hlt (cpyqLow_lt x _ w)
    obtain ⟨hgreg, hmem, hcellar⟩ := registers_memory_afterFail x s r w
    have hk := kept_setGs (afterFail x s r w) t f.d.toNat (2 ^ 32 * depthWord s d + cpyqLow x (afterFail x s r w) w)
      ((afterFail x s r w).rdy 1) 2
    refine ⟨_, passes_of_ok ht rfl (cpyqThread_writes hr), hlow.trans (cpyqLow_afterFail ..), fun q hq => ?_, ?_,
      fun u k h => (hk.greg u k h).trans (hgreg u k), hk.mem.trans hmem, hk.cellar.trans hcellar⟩
    · exact (congrArg (fun n => n / 2 ^ (8 * q) % 2 ^ 8) hhigh).trans (hbytes q hq)
    · exact (congrArg Warp.engFail (warp_setGs ..)).trans (engFail_afterFail ..)

/-! ### GATH and SCAT (R297) -/

section
variable (x : Ins) (s : State) (t : Nat) (v : Vals)

/-- The rows of a gather or scatter. -/
def rowCount : Nat := natBits x.lit.toNat 0 16 + 1

/-- The bytes of a row. -/
def rowSize : Nat := (natBits x.lit.toNat 16 8 + 1) * 32

/-- The side of the consecutive rows. -/
def rowsBase : Dword := if x.o = .scat then BitVec.ofNat 64 v.a else dPair s x t

/-- The checks of a gather's or scatter's barrier and buffer. -/
def rowsNames : (Nat × Dword) ⊕ Op :=
  nameBarBuf s x t v.c (!v.lackC) (rowsBase x s t v) (rowsBase x s t v + BitVec.ofNat 64 (rowCount x * rowSize x - 1)) (opOf s t x.o 1)

/-- A gather or scatter with its sizes and addresses. -/
def rowsOp (p : Op) : Op :=
  { p with dst := dPair s x t, src := BitVec.ofNat 64 v.a, idx := BitVec.ofNat 64 v.b, total := rowCount x * rowSize x, prio := x.ifld 0 2,
           scope := x.scope, shape := [rowCount x, rowSize x, natBits x.lit.toNat 24 32], add := decide (x.o = .scat) && x.mb 7, ty := x.f.t }

/-- The course of a GATH or SCAT with its operands, check after check. -/
theorem gathBody_eq : gathBody x t v s =
    if 2 ^ 32 < rowCount x * rowSize x then .fault 24 0 0 s
    else match [BitVec.ofNat 64 v.a, dPair s x t, BitVec.ofNat 64 v.b].find? fun a => a.extractLsb' 56 8 ≠ 0 with
      | some a => .fault 7 0 a s
      | none =>
        if (BitVec.ofNat 64 v.b).toNat % 4 ≠ 0 then .fault 8 0 (BitVec.ofNat 64 v.b) s
        else if x.ib 2 && x.ib 3 != decide (x.o = .scat) then .fault 16 0 0 s
        else match rowsNames x s t v with
          | .inl (c, a) => .fault c 0 a s
          | .inr p => .ok (issueOp s [t] (rowsOp x s t v p)).2 := by
  rfl

end

section
variable {x : Ins} {s : State} {t : Nat} {v : Vals} (hg : gather s x t = .vals v)
include hg

theorem gathThread_tooMuch (h : 2 ^ 32 < rowCount x * rowSize x) : gathThread x t s = .fault 24 0 0 s := by
  simp only [gathThread, hg, gathBody_eq, if_pos h]

variable (hn : ¬ 2 ^ 32 < rowCount x * rowSize x)
  (ha : ∀ a ∈ [BitVec.ofNat 64 v.a, dPair s x t, BitVec.ofNat 64 v.b], a.extractLsb' 56 8 = 0)
include hn ha

theorem gathThread_misaligned (h : (BitVec.ofNat 64 v.b).toNat % 4 ≠ 0) :
    gathThread x t s = .fault 8 0 (BitVec.ofNat 64 v.b) s := by
  simp only [gathThread, hg, gathBody_eq, if_neg hn, find_high_none ha, if_pos h]

theorem gathThread_issues (hl : (BitVec.ofNat 64 v.b).toNat % 4 = 0) (hb : x.ib 2 = true → (x.ib 3 = true ↔ x.o = .scat)) {p : Op}
    (h : rowsNames x s t v = .inr p) : gathThread x t s = .ok (issueOp s [t] (rowsOp x s t v p)).2 := by
  have hside : (x.ib 2 && x.ib 3 != decide (x.o = .scat)) = false := by
    cases h2 : x.ib 2 with
    | false => rfl
    | true => exact bne_eq_false_iff_eq.2 (Bool.eq_iff_iff.2 ((hb h2).trans decide_eq_true_iff.symm))
  simp only [gathThread, hg, gathBody_eq, if_neg hn, find_high_none ha, if_neg (not_not.2 hl), hside, Bool.false_eq_true, if_false, h]

end

/-! ### PUTN and GETN (R372) -/

section
variable (x : Ins) (s : State) (t : Nat) (v : Vals)

/-- The place of the flag of a PUTN. -/
def putFlag : Dword := if x.o = .putn then BitVec.ofNat 64 v.b else 0

/-- The addresses of a PUTN or GETN. -/
def putEnds : List Dword := [dPair s x t, BitVec.ofNat 64 v.a, putFlag x v]

/-- The translation of the ranges of a PUTN or GETN of `n` bytes. -/
def putRanges (n : Nat) : Option (Nat × Nat × Nat) :=
  rangesFault s (opOf s t x.o 5) ([((BitVec.ofNat 64 v.a : Dword).toNat, n, 1), ((dPair s x t).toNat, n, 2)] ++
    if x.o = .putn then [((putFlag x v).toNat, 4, 2)] else [])

/-- The flag of a PUTN stands on a page of class B. -/
def flagOnB : Bool := decide (x.o = .putn) && (match engXlate s (opOf s t x.o 5) (putFlag x v).toNat 2 with
  | .ok q => decide (q.cls = 3)
  | _ => false)

/-- A PUTN or GETN with its length and addresses. -/
def putOp (n : Nat) : Op :=
  { opOf s t x.o 5 with
    dst := dPair s x t, src := BitVec.ofNat 64 v.a, total := n, flag := putFlag x v, inc := x.ifld 0 16, prio := x.ifld 16 2, scope := x.scope,
    bar := if !decide (x.o = .putn) && x.mb 6 then some (BitVec.ofNat 32 v.b) else none }

/-- The course of a PUTN or GETN whose length is known, check after check. -/
theorem putnBody_eq (hc : v.lackC = false) : putnBody x t v s =
    if v.c = 0 ∨ 2 ^ 26 < v.c then .fault 24 0 0 s
    else match (putEnds x s t v).find? fun a => a.extractLsb' 56 8 ≠ 0 with
      | some a => .fault 7 0 a s
      | none =>
        if decide (x.o = .putn) && decide ((putFlag x v).toNat % 4 ≠ 0) then .fault 8 0 (putFlag x v) s
        else match putRanges x s t v v.c with
          | some (c, acc, a) => .fault c acc (BitVec.ofNat 64 a) s
          | none =>
            if flagOnB x s t v then .fault 9 0 (putFlag x v) s
            else if !decide (x.o = .putn) && x.mb 6 && !v.lackB && !live s (BitVec.ofNat 32 v.b) (opOf s t x.o 5).asid then .fault 19 0 0 s
            else .ok (issueOp s [t] (putOp x s t v v.c)).2 := by
  unfold putnBody
  simp only [hc, Bool.false_eq_true, if_false, Bool.not_false, Bool.true_and, Bool.or_eq_true, decide_eq_true_eq]
  rfl

end

section
variable {x : Ins} {s : State} {t : Nat} {v : Vals} (hg : gather s x t = .vals v)
include hg

/-- PUTN or GETN of one thread whose operands have been read. -/
theorem putnThread_eq : putnThread x t s = putnBody x t v s := by
  simp only [putnThread, hg]

theorem putnThread_badLength (h : v.c = 0 ∨ 2 ^ 26 < v.c) : putnThread x t s = .fault 24 0 0 s := by
  rw [putnThread_eq hg, putnBody_eq x s t v (lackC_of_vals hg), if_pos h]

variable (hn : ¬ (v.c = 0 ∨ 2 ^ 26 < v.c)) (ha : ∀ a ∈ putEnds x s t v, a.extractLsb' 56 8 = 0)
include hn ha

theorem putnThread_misaligned (ho : x.o = .putn) (h : (putFlag x v).toNat % 4 ≠ 0) :
    putnThread x t s = .fault 8 0 (putFlag x v) s := by
  rw [putnThread_eq hg, putnBody_eq x s t v (lackC_of_vals hg), if_neg hn, find_high_none ha]
  exact if_pos (Bool.and_eq_true_iff.2 ⟨decide_eq_true ho, decide_eq_true h⟩)

theorem putnThread_issues (hf : (putFlag x v).toNat % 4 = 0) (hr : putRanges x s t v v.c = none)
    (hb : x.o = .putn → ∀ q, engXlate s (opOf s t x.o 5) (putFlag x v).toNat 2 = .ok q → q.cls ≠ 3)
    (hl : x.o ≠ .putn → x.mb 6 = true → live s (BitVec.ofNat 32 v.b) (opOf s t x.o 5).asid = true) :
    putnThread x t s = .ok (issueOp s [t] (putOp x s t v v.c)).2 := by
  have halign : (decide (x.o = .putn) && decide ((putFlag x v).toNat % 4 ≠ 0)) = false := by simp [hf]
  have hflag : flagOnB x s t v = false := by
    unfold flagOnB
    split
    next q hq => simpa using fun ho => hb ho q hq
    next => exact Bool.and_false _
  have hbar : (!decide (x.o = .putn) && x.mb 6 && !v.lackB && !live s (BitVec.ofNat 32 v.b) (opOf s t x.o 5).asid) = false := by
    by_cases ho : x.o = .putn
    · simp [ho]
    · simpa [ho, lackB_of_vals hg] using hl ho
  rw [putnThread_eq hg, putnBody_eq x s t v (lackC_of_vals hg), if_neg hn, find_high_none ha]
  simp only [halign, hr, hflag, hbar, Bool.false_eq_true, if_false]

end

/-- Settles O45: the hold of the sub-run, and the checks of GATH and SCAT and of PUTN and GETN one after another with the operation that
passes them all. -/
theorem gatherAndPutIssueAnOperation : Obligations.GatherAndPutIssueAnOperation := by
  refine ⟨fun f l i o s t v hi => ?_, fun f i o s t v hi => ?_⟩
  · intro x nrow rsz src dst list lo ht
    have he : exec i s = perThreadHeld x (slotNeed 1) (gathThread x) s := by
      obtain ⟨rfl, rfl⟩ | ⟨rfl, rfl⟩ := hi <;> rfl
    refine ⟨fun hb _ hh => holdsAll_of_subHold ht he hb hh, fun hb hg => ?_⟩
    refine ⟨fun h => traps_of_slots ht he hb (gathThread_tooMuch hg h), fun h hs hd hl => ?_⟩
    have hn : ¬ 2 ^ 32 < rowCount x * rowSize x := Nat.not_lt.2 h
    have ha : ∀ a ∈ [src, dPair s x t, list], a.extractLsb' 56 8 = 0 := by
      simpa only [List.forall_mem_cons, List.not_mem_nil, false_implies, implies_true, and_true] using ⟨hs, hd, hl⟩
    refine ⟨fun h4 => traps_of_slots ht he hb (gathThread_misaligned hg hn ha h4), fun h4 hbuf p hp => ?_⟩
    have hnames : rowsNames x s t v = .inr p := by
      rw [rowsNames, lackC_of_vals hg]
      exact hp
    have hbody := gathThread_issues hg hn ha h4 hbuf hnames
    obtain rfl := eq_nameOp hp
    have hop := op_issueOp s [t] (rowsOp x s t v (nameOp s x t v.c (opOf s t o 1)))
    refine ⟨_, s.nextId, passes_of_slots ht he hb hbody, Op.Of.issued ⟨rfl, rfl, rfl, rfl, rfl⟩ [t], ?_⟩
    rw [hop]
    exact ⟨rfl, rfl, rfl, rfl, rfl, rfl⟩
  · intro x src dst flag p ht
    have he : exec i s = perThreadHeld x (slotNeed 5) (putnThread x) s := by
      obtain ⟨rfl, rfl⟩ | ⟨rfl, rfl⟩ := hi <;> rfl
    refine ⟨fun hb _ hh => holdsAll_of_subHold ht he hb hh, fun hb hg => ?_⟩
    refine ⟨fun h => traps_of_slots ht he hb (putnThread_badLength hg h), fun h0 h1 hs hd hf => ?_⟩
    have hn : ¬ (v.c = 0 ∨ 2 ^ 26 < v.c) := by omega
    have ha : ∀ a ∈ [dst, src, flag], a.extractLsb' 56 8 = 0 := by
      simpa only [List.forall_mem_cons, List.not_mem_nil, false_implies, implies_true, and_true] using ⟨hd, hs, hf⟩
    refine ⟨fun ho h4 => traps_of_slots ht he hb (putnThread_misaligned hg hn ha ho h4), fun h4 hr hcls hl => ?_⟩
    have hlive : o ≠ .putn → x.mb 6 = true → live s (BitVec.ofNat 32 v.b) p.asid = true := fun ho => by
      obtain ⟨rfl, -⟩ | ⟨rfl, -⟩ := hi
      · exact absurd rfl ho
      · exact hl rfl
    have hop := op_issueOp s [t] (putOp x s t v v.c)
    refine ⟨_, s.nextId, passes_of_slots ht he hb (putnThread_issues hg hn ha h4 hr hcls hlive),
      Op.Of.issued ⟨rfl, rfl, rfl, rfl, rfl⟩ [t], ?_⟩
    rw [hop]
    exact ⟨rfl, rfl, rfl, rfl, rfl, rfl⟩

end Sys2Proof.Machine
end

