-- ==== Sys2Proof/Proofs/Subruns.lean ====
section
/-! PROOFS. The outcomes of an instruction that acts once for a sub-run whose threads all perform: it is held, it waits to try again,
it ends its run or it raises a fault. -/

namespace Sys2Proof.Machine

/-- The run of a sub-run of thread `t` that executes its instruction. -/
def subrunRun (r : Run) (t : Nat) : Run := { atWarp r t with walk := none }

/-- What a sub-run whose threads all perform does, by what its body answers. -/
theorem perSubrun_outcome {s : State} {x : Ins} {ps : List Nat} (h : Whole s x ps) (cost : Nat → Nat) (endf : EndFn)
    (body : List Nat → State → TOut) :
    ∃ r, (s.lane s.cur).run = some r ∧
      (∀ s1, body ps s = .held s1 → ∃ r' n, perSubrun x cost endf body s =
        .next (goOn x endf (pmcAdd (stallAdd s1 (coreOfThread (ps.headD 0)) (subrunRun r (ps.headD 0)))
          (coreOfThread (ps.headD 0)) 2 ps.length) r' [] n)) ∧
      (∀ o s1, body ps s = .stay o s1 → perSubrun x cost endf body s =
        .next (goOn x endf (ps.foldl (fun s u => s.hold u o) s1) (subrunRun r (ps.headD 0)) [] s1.clk)) ∧
      (∀ s1, body ps s = .last s1 → perSubrun x cost endf body s =
        .next (closeRun s1 (subrunRun r (ps.headD 0)) (s1.clk + 1))) ∧
      (∀ c a d s1, body ps s = .fault c a d s1 → perSubrun x cost endf body s =
        .next (faultRun s1 (subrunRun r (ps.headD 0)) (ps.headD 0) c a d)) := by
  obtain ⟨r, hr, hps⟩ := h.run
  obtain ⟨t, more, rfl⟩ : ∃ t more, ps = t :: more := List.exists_cons_of_ne_nil h.some
  have ha := h.alive t List.mem_cons_self
  have hg := h.guard t List.mem_cons_self
  have hw : ∀ u ∈ t :: more, u / 32 = t / 32 := h.warp
  have hmine : ((t :: more).filter fun u => decide (u / 32 = t / 32)) = t :: more :=
    List.filter_eq_self.2 fun u hu => by simpa using hw u hu
  have hrest : (more.filter fun u => decide (u / 32 ≠ t / 32)) = [] :=
    List.filter_eq_nil_iff.2 fun u hu => by simpa using hw u (List.mem_cons_of_mem _ hu)
  have hps' : ((t :: more).filter fun u => s.alive u && guardTrue s x u) = t :: more :=
    List.filter_eq_self.2 fun u hu => by simp [h.alive u hu, h.guard u hu]
  have hno : ((t :: more).filter fun u => s.alive u && !guardTrue s x u) = [] :=
    List.filter_eq_nil_iff.2 fun u hu => by simp [h.guard u hu]
  refine ⟨r, hr, fun s1 hb => ⟨{ subrunRun r t with count := (subrunRun r t).count + (t :: more).length, since := 0, done := slotsMask ((t :: more).map (· % 32)) },
    s1.clk + max (cost (t :: more).length) 1, ?_⟩, fun o s1 hb => ?_, fun s1 hb => ?_, fun c a d s1 hb => ?_⟩
  all_goals
    unfold perSubrun
    simp only [hr, drainRun, hps, List.headD_cons, drainSub_turn more ha hg, ne_eq, not_true_eq_false, and_false, if_false,
      hmine, hrest, hps', hno, List.foldl_nil, hb]
    rfl

section
variable {i : Instr} {s s1 : State} {x : Ins} {ps : List Nat} {cost : Nat → Nat} {body : List Nat → State → TOut}
  (h : Whole s x ps) (e : exec i s = perSubrun x cost noEnd body s)
include h e

/-- A sub-run whose body holds its threads goes on with them as the body left them. -/
theorem runs_of_held (hb : body ps s = .held s1) : Runs i s fun s' => Same s1 s' ∧ ∀ u, s'.thread u = s1.thread u := by
  obtain ⟨r, -, held, -⟩ := perSubrun_outcome h cost noEnd body
  obtain ⟨r', n, hn⟩ := held s1 hb
  refine ⟨_, e.trans hn, (kept_stallAdd ..).trans ((kept_pmcAdd ..).trans (kept_goOn ..)), fun u => ?_⟩
  rw [thread_goOn _ _ _ _ _ List.not_mem_nil]
  show (stallAdd _ _ _).thread u = _
  unfold stallAdd
  split <;> rfl

/-- A sub-run that waits to try again is held at its instruction. -/
theorem runs_of_stay {o : Hold} (hb : body ps s = .stay o s1) :
    Runs i s fun s' => Same s1 s' ∧ ∀ u ∈ ps, (s'.thread u).hold = o ∧ (s'.thread u).pc = (s1.thread u).pc := by
  obtain ⟨r, -, -, stay, -⟩ := perSubrun_outcome h cost noEnd body
  refine ⟨_, e.trans (stay o s1 hb), (kept_holds ..).trans (kept_goOn ..), fun u hu => ?_⟩
  rw [thread_goOn _ _ _ _ _ List.not_mem_nil]
  exact ⟨hold_holds (.inl hu), pc_holds ..⟩

/-- A sub-run whose instruction ends the run closes the run of its lane. -/
theorem runs_of_last (hb : body ps s = .last s1) :
    Runs i s fun s' => ∃ r, (s.lane s.cur).run = some r ∧ s' = closeRun s1 r (s1.clk + 1) := by
  obtain ⟨r, hr, -, -, last, -⟩ := perSubrun_outcome h cost noEnd body
  refine ⟨_, e.trans (last s1 hb), r, hr, ?_⟩
  have hbegun : (subrunRun r (ps.headD 0)).begun = r.begun := by
    unfold subrunRun atWarp
    split <;> rfl
  unfold closeRun
  rw [hbegun]

/-- A sub-run whose body raises a fault on the state `s1` that it made traps on that state. -/
theorem trapsOn_of_subFault {c a : Nat} {d : Dword} (hb : body ps s = .fault c a d s1) : TrapsOn i (ps.headD 0) c a d s s1 := by
  intro hh hc
  obtain ⟨r, hr, -, -, -, fault⟩ := perSubrun_outcome h cost noEnd body
  exact ⟨_, e.trans (fault c a d s1 hb), r, hr,
    trapped_turn (faultRun_trapped _ _ _ _ _ _ hh hc) (atWarp_pc ..) (atWarp_warp ..) (atWarp_done ..)⟩

end

end Sys2Proof.Machine
end

