-- ==== Sys2Proof/Proofs/AnvilInstructions.lean ====
section
/-! PROOFS. The instructions that issue one operation of the Anvil or of a press unit for their sub-run (R311, R315 to R320, R323,
R326; O46). -/

namespace Sys2Proof.Machine

/-! ### The operation that a body makes -/

/-- An operation of a thread of its class, on the thread's core, with nothing done yet. -/
structure Op.At (p : Op) (s : State) (t cls : Nat) : Prop extends p.Of s t cls where
  core : p.core = coreOfThread t

/-- What the check of the pages lets pass goes on with them. -/
theorem withPages_inr {s : State} {p q : Op} {l : List (Nat × Nat × Nat)} {k : List Trans → (Nat × Nat × Dword) ⊕ Op}
    (h : withPages s p l k = .inr q) : ∃ ts, k ts = .inr q := by
  unfold withPages at h
  split at h
  · nomatch h
  · exact ⟨_, h⟩

/-- A check that faults comes before what follows it. -/
theorem inr_of_ite {α β : Type} {c : Prop} [Decidable c] {a : α} {k : α ⊕ β} {q : β} (h : (if c then .inl a else k) = Sum.inr q) :
    k = .inr q := by
  split at h
  · nomatch h
  · exact h

section
variable {x : Ins} {t : Nat} {v : Vals} {s : State} {p : Op}

theorem at_wldBody (h : wldBody x t v s = .inr p) : p.At s t 2 := by
  unfold wldBody at h
  dsimp only at h
  split at h
  · nomatch h
  · obtain ⟨ts, hts⟩ := withPages_inr h
    obtain rfl := Sum.inr.inj hts
    exact ⟨⟨rfl, rfl, rfl, rfl, rfl⟩, rfl⟩

theorem at_wswpBody (h : wswpBody x t v s = .inr p) : p.At s t 2 := by
  obtain rfl := Sum.inr.inj h
  exact ⟨⟨rfl, rfl, rfl, rfl, rfl⟩, rfl⟩

theorem at_mmsBody (h : mmsBody x t v s = .inr p) : p.At s t 2 := by
  unfold mmsBody at h
  dsimp only at h
  split at h
  · nomatch h
  · obtain rfl := Sum.inr.inj h
    exact ⟨⟨rfl, rfl, rfl, rfl, rfl⟩, rfl⟩

theorem at_mmgBody (h : mmgBody x t v s = .inr p) : p.At s t 2 := by
  unfold mmgBody at h
  extract_lets n tab w q at h
  split at h
  · nomatch h
  · obtain ⟨ts, hts⟩ := withPages_inr h
    split at hts
    · nomatch hts
    · extract_lets q' at hts
      obtain rfl := Sum.inr.inj (inr_of_ite hts)
      exact ⟨⟨rfl, rfl, rfl, rfl, rfl⟩, rfl⟩

theorem at_acczBody (h : acczBody x t v s = .inr p) : p.At s t 2 := by
  obtain rfl := Sum.inr.inj h
  exact ⟨⟨rfl, rfl, rfl, rfl, rfl⟩, rfl⟩

theorem at_accsBody (h : accsBody x t v s = .inr p) : p.At s t 2 := by
  unfold accsBody at h
  extract_lets a fmt n c add q rows at h
  split at h
  · nomatch h
  · obtain ⟨ts, hts⟩ := withPages_inr h
    extract_lets homes at hts
    obtain rfl := Sum.inr.inj (inr_of_ite (inr_of_ite (inr_of_ite (inr_of_ite hts))))
    exact ⟨⟨rfl, rfl, rfl, rfl, rfl⟩, rfl⟩

theorem at_mvbBody (h : mvbBody x t v s = .inr p) : p.At s t 4 := by
  unfold mvbBody at h
  extract_lets a b c n k pitch wf bx core vn q r rows at h
  split at h
  · nomatch h
  split at h
  · nomatch h
  · obtain ⟨ts, hts⟩ := withPages_inr h
    extract_lets q' onS stack at hts
    obtain rfl := Sum.inr.inj (inr_of_ite (inr_of_ite (inr_of_ite (inr_of_ite (inr_of_ite hts)))))
    exact ⟨⟨rfl, rfl, rfl, rfl, rfl⟩, rfl⟩

end

/-! ### The issue to an Anvil queue -/

theorem core_issueOp (s : State) (ts : List Nat) (p : Op) (c : Nat) : (issueOp s ts p).2.core c = s.core c := by
  unfold issueOp
  dsimp only
  split <;> rfl

/-- A change of a core leaves an operation as it was issued. -/
theorem Issued.modCore {s s1 : State} {t cls o : Nat} (h : Issued s s1 t cls o) (c : Nat) (f : Core → Core) :
    Issued s (s1.modCore c f) t cls o :=
  ⟨h.thread, h.ofClass, h.asid, h.outstanding, h.enters, h.counter, h.greg, h.mem, h.cellar⟩

/-- The state in which an operation has been issued and stands at the end of its core's Anvil queue. -/
def queueAnvil (s : State) (ts : List Nat) (p : Op) : State :=
  (issueOp s ts p).2.modCore p.core fun k => { k with anvilQ := k.anvilQ ++ [(issueOp s ts p).1] }

theorem anvilQ_queueAnvil (s : State) (ts : List Nat) (p : Op) :
    ((queueAnvil s ts p).core p.core).anvilQ = (s.core p.core).anvilQ ++ [s.nextId] := by
  rw [queueAnvil, State.core_modCore_same, core_issueOp]
  rfl

/-- The queue and the counter have room (R280, R309). -/
theorem anvilNeed_none {s : State} {t : Nat} (hq : (s.core (coreOfThread t)).anvilQ.length < 64) (hc : counter s (t / 32) 2 < 63) :
    anvilNeed s (t / 32) = none := by
  refine if_neg ?_
  rintro (h | h)
  · exact absurd hq (Nat.not_lt.2 h)
  · have : 63 < counter s (t / 32) 2 + 1 := of_decide_eq_true h
    omega

section
variable {x : Ins} {body : Nat → Vals → State → (Nat × Nat × Dword) ⊕ Op} {ps : List Nat} {s : State} {v : Vals}
  (hn : anvilNeed s (ps.headD 0 / 32) = none) (hg : gather s x (ps.headD 0) = .vals v)
include hn hg

theorem anvilSub_fault {c acc : Nat} {a : Dword} (h : body (ps.headD 0) v s = .inl (c, acc, a)) :
    anvilSub x body ps s = .fault c acc a s := by
  simp only [anvilSub, hn, hg, h]

theorem anvilSub_issues {p : Op} (h : body (ps.headD 0) v s = .inr p) : anvilSub x body ps s = .ok (queueAnvil s ps p) := by
  simp only [anvilSub, hn, hg, h]
  rfl

end

/-- An instruction that issues an Anvil operation, where the queue and the counter have room: what its body answers. -/
theorem anvilIns_course {i : Instr} {x : Ins} {body : Ins → Nat → Vals → State → (Nat × Nat × Dword) ⊕ Op} {s : State} {ps : List Nat}
    {v : Vals} (he : exec i s = anvilIns body x s) (hw : Whole s x ps) (hg : gather s x (ps.headD 0) = .vals v)
    (hroom : (s.core (coreOfThread (ps.headD 0))).anvilQ.length < 64 ∧ counter s (ps.headD 0 / 32) 2 < 63)
    (hat : ∀ p, body x (ps.headD 0) v s = .inr p → p.At s (ps.headD 0) 2) :
    (∀ c acc a, body x (ps.headD 0) v s = .inl (c, acc, a) → Traps i (ps.headD 0) c acc a s) ∧
    (∀ p, body x (ps.headD 0) v s = .inr p → ∃ s1 o, PassesAll i x ps s s1 ∧ Issued s s1 (ps.headD 0) 2 o ∧
      (∃ l, s1.op o = { p with after := l }) ∧
      (s1.core (coreOfThread (ps.headD 0))).anvilQ = (s.core (coreOfThread (ps.headD 0))).anvilQ ++ [o]) := by
  have hn := anvilNeed_none hroom.1 hroom.2
  refine ⟨fun c acc a h => traps_of_subFault hw he (anvilSub_fault hn hg h), fun p h => ?_⟩
  obtain ⟨hof, hcore⟩ := hat p h
  refine ⟨queueAnvil s ps p, s.nextId, passesAll_of_ok hw he (anvilSub_issues hn hg h), (hof.issued ps).modCore _ _,
    ⟨_, op_issueOp s ps p⟩, ?_⟩
  rw [← hcore]
  exact anvilQ_queueAnvil s ps p

/-! ### MVB -/

/-- The body of MVB for a sub-run. -/
def mvbSub (x : Ins) (ps : List Nat) (s : State) : TOut :=
  if counterFull s (ps.headD 0 / 32) 4 1 then .stay (.anvilQueue 4) s else
  match gather s x (ps.headD 0) with
  | .fault c => .fault c 0 0 s
  | .drop p _ => .stay (.queue p true s.clk) s
  | .vals v =>
    match mvbBody x (ps.headD 0) v s with
    | .inl (c, acc, a) => .fault c acc a s
    | .inr p => .ok (issueOp s ps p).2

theorem mvb_eq (x : Ins) (s : State) : mvb x s = perSubrun x id noEnd (mvbSub x) s := rfl

section
variable {x : Ins} {ps : List Nat} {s : State} {v : Vals} (hc : counter s (ps.headD 0 / 32) 4 < 63)
  (hg : gather s x (ps.headD 0) = .vals v)
include hc hg

theorem mvbSub_checks : mvbSub x ps s = match mvbBody x (ps.headD 0) v s with
    | .inl (c, acc, a) => .fault c acc a s
    | .inr p => .ok (issueOp s ps p).2 := by
  have hfull : ¬ counterFull s (ps.headD 0 / 32) 4 1 = true := fun h => by
    have : 63 < counter s (ps.headD 0 / 32) 4 + 1 := of_decide_eq_true h
    omega
  simp only [mvbSub, if_neg hfull, hg]

theorem mvbSub_fault {c acc : Nat} {a : Dword} (h : mvbBody x (ps.headD 0) v s = .inl (c, acc, a)) :
    mvbSub x ps s = .fault c acc a s := by
  rw [mvbSub_checks hc hg, h]

theorem mvbSub_issues {p : Op} (h : mvbBody x (ps.headD 0) v s = .inr p) : mvbSub x ps s = .ok (issueOp s ps p).2 := by
  rw [mvbSub_checks hc hg, h]

end

/-- An instruction that issues a press operation, where the counter has room. -/
theorem mvb_course {i : Instr} {x : Ins} {s : State} {ps : List Nat} {v : Vals} (he : exec i s = mvb x s) (hw : Whole s x ps)
    (hg : gather s x (ps.headD 0) = .vals v) (hc : counter s (ps.headD 0 / 32) 4 < 63) :
    (∀ c acc a, mvbBody x (ps.headD 0) v s = .inl (c, acc, a) → Traps i (ps.headD 0) c acc a s) ∧
    (∀ p, mvbBody x (ps.headD 0) v s = .inr p → ∃ s1 o, PassesAll i x ps s s1 ∧ Issued s s1 (ps.headD 0) 4 o ∧
      ∃ l, s1.op o = { p with after := l }) := by
  have he' := he.trans (mvb_eq x s)
  refine ⟨fun c acc a h => traps_of_subFault hw he' (mvbSub_fault hc hg h), fun p h => ?_⟩
  exact ⟨_, s.nextId, passesAll_of_ok hw he' (mvbSub_issues hc hg h), (at_mvbBody h).issued ps, _, op_issueOp s ps p⟩

/-! ### What the bodies check (R311, R315, R316, R318, R320) -/

/-- An address without high bits that is no multiple of its alignment. -/
theorem addrFault_misaligned {a : Dword} {n : Nat} (htop : a.extractLsb' 56 8 = 0) (hal : a.toNat % n ≠ 0) :
    addrFault [(a, n)] = some (8, 0, a) := by
  simp [addrFault, htop, hal]

/-- A WLD without block scales whose address is no multiple of 64. -/
theorem wldBody_misaligned {x : Ins} {t : Nat} {v : Vals} {s : State} (htop : (BitVec.ofNat 64 v.a : Dword).extractLsb' 56 8 = 0)
    (hbx : x.ib 4 = false) (hal : v.a % 64 ≠ 0) : wldBody x t v s = .inl (8, 0, BitVec.ofNat 64 v.a) := by
  have hmod : (BitVec.ofNat 64 v.a).toNat % 64 ≠ 0 := by
    rw [BitVec.toNat_ofNat]
    omega
  simp only [wldBody, hbx, Bool.false_eq_true, if_false, addrFault_misaligned htop hmod]

theorem mmsBody_of_bufCheck {x : Ins} {t : Nat} {v : Vals} {s : State}
    (h : bufCheck s t x.f.a.toNat v.b ((x.ifld 8 6 + 1) * rowBytes (x.ifld 16 4) 64 + if x.ib 20 then 2 * (x.ifld 8 6 + 1) else 0)
      (!v.lackB) = none) :
    ∃ p, mmsBody x t v s = .inr p ∧ p.kind = .mms ∧ p.tile = x.f.d.toNat ∧ p.row0 = x.ifld 0 6 ∧ p.rows = x.ifld 8 6 + 1 ∧
      p.fmt = x.ifld 16 4 ∧ p.buf = some x.f.a.toNat := by
  simp only [mmsBody, h]
  exact ⟨_, rfl, rfl, rfl, rfl, rfl, rfl, rfl⟩

/-- Settles O46: the checks of the body and the issue by the class, Anvil or press, and the checks of WLD and MMS. -/
theorem anvilInstructionsIssueAnOperation : Obligations.AnvilInstructionsIssueAnOperation := by
  refine ⟨?_, fun x t v s => ?_⟩
  · intro i x body cls s ps v t hi hx hw hg hroom
    have anvil : cls = 2 → exec i s = anvilIns body x s → (∀ p, body x t v s = .inr p → p.At s t 2) →
        (∀ c acc a, body x t v s = .inl (c, acc, a) → Traps i t c acc a s) ∧
        (∀ p, body x t v s = .inr p → ∃ s1 o, PassesAll i x ps s s1 ∧ Issued s s1 t cls o ∧ (∃ l, s1.op o = { p with after := l }) ∧
          (cls = 2 → (s1.core (coreOfThread t)).anvilQ = (s.core (coreOfThread t)).anvilQ ++ [o])) := by
      rintro rfl he hat
      rw [if_pos rfl] at hroom
      obtain ⟨hf, hp⟩ := anvilIns_course he hw hg hroom hat
      refine ⟨hf, fun p h => ?_⟩
      obtain ⟨s1, o, hpass, hissued, hop, hq⟩ := hp p h
      exact ⟨s1, o, hpass, hissued, hop, fun _ => hq⟩
    obtain ⟨⟨f, rfl⟩, rfl, hc⟩ | ⟨⟨f, rfl⟩, rfl, hc⟩ | ⟨⟨f, rfl⟩, rfl, hc⟩ | ⟨⟨f, rfl⟩, rfl, hc⟩ | ⟨⟨f, rfl⟩, rfl, hc⟩ |
      ⟨⟨f, rfl⟩, rfl, hc⟩ | ⟨⟨f, rfl⟩, rfl, hc⟩ | ⟨⟨f, l, rfl⟩, rfl, rfl⟩ := hi
    case inr.inr.inr.inr.inr.inr.inr =>
      rw [if_neg (by decide)] at hroom
      obtain rfl := Option.some.inj hx
      obtain ⟨hf, hp⟩ := mvb_course (i := .mvb f l) rfl hw hg hroom
      refine ⟨hf, fun p h => ?_⟩
      obtain ⟨s1, o, hpass, hissued, hop⟩ := hp p h
      exact ⟨s1, o, hpass, hissued, hop, nofun⟩
    all_goals obtain rfl := Option.some.inj hx
    · exact anvil hc rfl fun _ => at_wldBody
    · exact anvil hc rfl fun _ => at_wswpBody
    · exact anvil hc rfl fun _ => at_mmsBody
    · exact anvil hc rfl fun _ => at_mmgBody
    · exact anvil hc rfl fun _ => at_acczBody
    · exact anvil hc rfl fun _ => at_acczBody
    · exact anvil hc rfl fun _ => at_accsBody
  · exact ⟨rfl, ⟨_, rfl, rfl, rfl, rfl⟩, wldBody_misaligned, mmsBody_of_bufCheck⟩

end Sys2Proof.Machine
end

