-- ==== Sys2Proof/Proofs/TileElements.lean ====
section
/-! PROOFS. A keyed collection in which a key need not stand in its place: what a read finds after entries were written and taken out. The
elements of a tile are such a collection, with those that are 0 not listed. -/

namespace Sys2Proof

/-- Where key `i` stands in a collection, a read finds it: no larger key comes before it. -/
def Found {α : Type} (i : Nat) : KV α → Prop
  | [] => True
  | (k, _) :: r => k < i ∧ Found i r ∨ k = i ∨ ∀ e ∈ r, e.1 ≠ i

section
variable {α : Type} {i j : Nat} {l : KV α}

theorem found_cons {k : Nat} {v : α} {r : KV α} :
    Found i ((k, v) :: r) ↔ k < i ∧ Found i r ∨ k = i ∨ ∀ e ∈ r, e.1 ≠ i := Iff.rfl

theorem found_of_absent (h : ∀ e ∈ l, e.1 ≠ i) : Found i l := by
  cases l with
  | nil => trivial
  | cons e r => exact .inr (.inr fun a ha => h a (List.mem_cons_of_mem _ ha))

theorem kvGet_of_absent (d : α) (h : ∀ e ∈ l, e.1 ≠ i) : kvGet d l i = d := by
  induction l with
  | nil => rfl
  | cons e r ih =>
    obtain ⟨k, v⟩ := e
    rw [kvGet, if_neg (Ne.symm (h _ List.mem_cons_self)), ih fun a ha => h a (List.mem_cons_of_mem _ ha), ite_self]

theorem found_of_sorted (h : l.Pairwise fun a b => a.1 < b.1) : Found i l := by
  induction l with
  | nil => trivial
  | cons e r ih =>
    obtain ⟨hlt, hr⟩ := List.pairwise_cons.1 h
    rcases Nat.lt_trichotomy e.1 i with hi | hi | hi
    · exact .inl ⟨hi, ih hr⟩
    · exact .inr (.inl hi)
    · exact .inr (.inr fun a ha => (hi.trans (hlt a ha)).ne')

/-! ### Taking an entry out -/

theorem mem_kvDel {e : Nat × α} : e ∈ kvDel l j ↔ e ∈ l ∧ e.1 ≠ j := by
  induction l with
  | nil => simp [kvDel]
  | cons a r ih =>
    obtain ⟨k, v⟩ := a
    rw [kvDel]
    split
    next hk =>
      rw [ih, List.mem_cons]
      exact ⟨fun h => ⟨.inr h.1, h.2⟩, fun h => ⟨h.1.resolve_left fun he => h.2 ((congrArg Prod.fst he).trans hk.symm), h.2⟩⟩
    next hk =>
      rw [List.mem_cons, List.mem_cons, ih, or_and_right]
      exact or_congr_left ⟨fun h => ⟨h, fun he => hk (he.symm.trans (congrArg Prod.fst h))⟩, fun h => h.1⟩

theorem kvDel_sublist (l : KV α) (j : Nat) : (kvDel l j).Sublist l := by
  induction l with
  | nil => exact .slnil
  | cons a r ih =>
    obtain ⟨k, v⟩ := a
    rw [kvDel]
    split
    · exact ih.cons _
    · exact ih.cons_cons _

theorem kvGet_kvDel_same (d : α) (l : KV α) (j : Nat) : kvGet d (kvDel l j) j = d :=
  kvGet_of_absent d fun _ h => (mem_kvDel.1 h).2

theorem found_kvDel_same (l : KV α) (j : Nat) : Found j (kvDel l j) := found_of_absent fun _ h => (mem_kvDel.1 h).2

theorem absent_kvDel (h : ∀ e ∈ l, e.1 ≠ i) : ∀ e ∈ kvDel l j, e.1 ≠ i := fun e he => h e (mem_kvDel.1 he).1

variable (hij : i ≠ j)
include hij

/-- Taking out another entry leaves what a read finds. -/
theorem kvGet_kvDel_ne (d : α) (h : Found i l) : kvGet d (kvDel l j) i = kvGet d l i := by
  induction l with
  | nil => rfl
  | cons a r ih =>
    obtain ⟨k, v⟩ := a
    have hr : k ≠ i → Found i r := fun hk => by
      rcases found_cons.1 h with ⟨-, hr⟩ | hki | habs
      · exact hr
      · exact absurd hki hk
      · exact found_of_absent habs
    rw [kvDel]
    split
    next hk =>
      subst hk
      rw [ih (hr hij.symm), kvGet, if_neg hij]
      split
      next hlt =>
        refine kvGet_of_absent d ?_
        rcases found_cons.1 h with ⟨hlt', -⟩ | hki | habs
        · exact absurd hlt (Nat.lt_asymm hlt')
        · exact absurd hki.symm hij
        · exact habs
      next => rfl
    next hk =>
      rw [kvGet, kvGet]
      split
      next => rfl
      next hik => rw [ih (hr (Ne.symm hik))]

theorem found_kvDel (h : Found i l) : Found i (kvDel l j) := by
  induction l with
  | nil => trivial
  | cons a r ih =>
    obtain ⟨k, v⟩ := a
    rw [kvDel]
    split
    next hk =>
      rcases found_cons.1 h with ⟨-, hr⟩ | hki | habs
      · exact ih hr
      · exact absurd (hki.symm.trans hk.symm) hij
      · exact found_of_absent (absent_kvDel habs)
    next =>
      rcases found_cons.1 h with ⟨hlt, hr⟩ | hki | habs
      · exact .inl ⟨hlt, ih hr⟩
      · exact .inr (.inl hki)
      · exact .inr (.inr (absent_kvDel habs))

end

/-! ### Writing an entry -/

section
variable {α : Type} {i j : Nat} {l : KV α} {v : α}

theorem mem_kvSet {e : Nat × α} (h : e ∈ kvSet l j v) : e = (j, v) ∨ e ∈ l := by
  induction l with
  | nil => exact .inl (List.mem_singleton.1 h)
  | cons a r ih =>
    obtain ⟨k, w⟩ := a
    rw [kvSet] at h
    split at h
    · exact List.mem_cons.1 h
    · split at h
      · exact (List.mem_cons.1 h).imp_right (List.mem_cons_of_mem _)
      · rcases List.mem_cons.1 h with he | hr
        · exact .inr (he ▸ List.mem_cons_self)
        · exact (ih hr).imp_right (List.mem_cons_of_mem _)

theorem found_kvSet_same (l : KV α) (j : Nat) (v : α) : Found j (kvSet l j v) := by
  induction l with
  | nil => exact .inr (.inl rfl)
  | cons a r ih =>
    obtain ⟨k, w⟩ := a
    rw [kvSet]
    split
    · exact .inr (.inl rfl)
    · split
      · exact .inr (.inl rfl)
      · exact .inl ⟨by omega, ih⟩

theorem found_kvSet (hij : i ≠ j) (h : Found i l) : Found i (kvSet l j v) := by
  induction l with
  | nil => exact .inr (.inr nofun)
  | cons a r ih =>
    obtain ⟨k, w⟩ := a
    rw [kvSet]
    split
    next hjk =>
      by_cases hji : j < i
      · exact .inl ⟨hji, h⟩
      · refine .inr (.inr fun e he => ?_)
        rcases found_cons.1 h with ⟨hlt, -⟩ | hki | habs
        · omega
        · omega
        · rcases List.mem_cons.1 he with rfl | hr
          · show k ≠ i
            omega
          · exact habs e hr
    next =>
      split
      next hjk => rcases found_cons.1 h with ⟨hlt, hr⟩ | hki | habs
                  · exact .inl ⟨hjk ▸ hlt, hr⟩
                  · exact absurd (hki.symm.trans hjk.symm) hij
                  · exact .inr (.inr habs)
      next =>
        rcases found_cons.1 h with ⟨hlt, hr⟩ | hki | habs
        · exact .inl ⟨hlt, ih hr⟩
        · exact .inr (.inl hki)
        · refine .inr (.inr fun e he => ?_)
          rcases mem_kvSet he with rfl | hr
          · exact hij.symm
          · exact habs e hr

theorem sorted_kvSet (h : l.Pairwise fun a b => a.1 < b.1) : (kvSet l j v).Pairwise fun a b => a.1 < b.1 := by
  induction l with
  | nil => exact List.pairwise_singleton _ _
  | cons a r ih =>
    obtain ⟨k, w⟩ := a
    obtain ⟨hlt, hr⟩ := List.pairwise_cons.1 h
    rw [kvSet]
    split
    next hjk =>
      refine List.pairwise_cons.2 ⟨fun e he => ?_, h⟩
      rcases List.mem_cons.1 he with rfl | he
      · exact hjk
      · exact hjk.trans (hlt e he)
    next hjk =>
      split
      next he => exact List.pairwise_cons.2 ⟨fun e h => he ▸ hlt e h, hr⟩
      next hne =>
        refine List.pairwise_cons.2 ⟨fun e he => ?_, ih hr⟩
        rcases mem_kvSet he with rfl | he
        · show k < j
          omega
        · exact hlt e he

end

end Sys2Proof

namespace Sys2Proof.Machine

/-! ### An element of a tile written (R321) -/

section
variable {i j : Nat} {k : KV Word}

theorem kvGet_putElem_same (k : KV Word) (i : Nat) (v : Word) : kvGet 0 (putElem k i v) i = v := by
  unfold putElem
  split
  next h => rw [kvGet_kvDel_same, h]
  next => exact kvGet_kvSet_same ..

theorem kvGet_putElem_ne (hij : i ≠ j) (v : Word) (h : Found i k) : kvGet 0 (putElem k j v) i = kvGet 0 k i := by
  unfold putElem
  split
  · exact kvGet_kvDel_ne hij 0 h
  · exact kvGet_kvSet_ne 0 v k hij

theorem found_putElem_same (k : KV Word) (i : Nat) (v : Word) : Found i (putElem k i v) := by
  unfold putElem
  split
  · exact found_kvDel_same k i
  · exact found_kvSet_same k i v

theorem found_putElem (hij : i ≠ j) (v : Word) (h : Found i k) : Found i (putElem k j v) := by
  unfold putElem
  split
  · exact found_kvDel hij h
  · exact found_kvSet hij h

theorem sorted_putElem (i : Nat) (v : Word) (h : k.Pairwise fun a b => a.1 < b.1) :
    (putElem k i v).Pairwise fun a b => a.1 < b.1 := by
  unfold putElem
  split
  · exact h.sublist (kvDel_sublist k i)
  · exact sorted_kvSet h

end

/-- `n` consecutive elements written from `b` on. -/
def putElems (k : KV Word) (b : Nat) (w : Nat → Word) (n : Nat) : KV Word := (List.range n).foldl (fun k m => putElem k (b + m) (w m)) k

section
variable {k : KV Word} {b : Nat} {w : Nat → Word} {n : Nat}

theorem putElems_succ (k : KV Word) (b : Nat) (w : Nat → Word) (n : Nat) :
    putElems k b w (n + 1) = putElem (putElems k b w n) (b + n) (w n) := by
  simp [putElems, List.range_succ]

/-- Each of the elements reads as written, whatever the elements before. -/
theorem kvGet_putElems {m : Nat} (hm : m < n) : kvGet 0 (putElems k b w n) (b + m) = w m ∧ Found (b + m) (putElems k b w n) := by
  induction n with
  | zero => omega
  | succ n ih =>
    rw [putElems_succ]
    by_cases h : m = n
    · subst h
      exact ⟨kvGet_putElem_same .., found_putElem_same ..⟩
    · obtain ⟨hget, hfound⟩ := ih (by omega)
      have hne : b + m ≠ b + n := by omega
      exact ⟨(kvGet_putElem_ne hne _ hfound).trans hget, found_putElem hne _ hfound⟩

/-- The other elements of a tile in order read as before. -/
theorem kvGet_putElems_outside {i : Nat} (hf : Found i k) (hi : ∀ m < n, i ≠ b + m) :
    kvGet 0 (putElems k b w n) i = kvGet 0 k i ∧ Found i (putElems k b w n) := by
  induction n with
  | zero => exact ⟨rfl, hf⟩
  | succ n ih =>
    rw [putElems_succ]
    obtain ⟨hget, hfound⟩ := ih fun m hm => hi m (by omega)
    have hne := hi n (by omega)
    exact ⟨(kvGet_putElem_ne hne _ hfound).trans hget, found_putElem hne _ hfound⟩

theorem sorted_putElems (h : k.Pairwise fun a b => a.1 < b.1) : (putElems k b w n).Pairwise fun a b => a.1 < b.1 := by
  induction n with
  | zero => exact h
  | succ n ih =>
    rw [putElems_succ]
    exact sorted_putElem _ _ ih

end

end Sys2Proof.Machine
end

