-- ==== Sys2Proof/Proofs/Tiles.lean ====
section
/-! PROOFS. MMA and its convergence register (R317), ACCR and ACCW (R321) and ACCR.st (R322) (O47). -/

namespace Sys2Proof.Machine

/-- A field of the immediate as a quotient and a remainder. -/
theorem ifld_eq (x : Ins) (lo n : Nat) : x.ifld lo n = x.f.imm.toNat / 2 ^ lo % 2 ^ n := by
  rw [Ins.ifld, Nat.shiftRight_eq_div_pow]

theorem natBits_zero (v n : Nat) : natBits v 0 n = v % 2 ^ n := by rw [natBits, Nat.pow_zero, Nat.div_one]

/-! ### MMA (R317) -/

theorem cvAt_modCv (s : State) (c i : Nat) (f : Cv → Cv) : cvAt (modCv s c i f) c i = f (cvAt s c i) := by
  unfold cvAt modCv
  rw [State.core_modCore_same, kvGet_kvSet_same]

theorem op_cvTest (s : State) (c i o : Nat) : (cvTest s c i).op o = s.op o := by
  unfold cvTest
  dsimp only
  split <;> rfl

/-- A happening that is due leaves an operation as it was issued. -/
theorem Issued.post {s s1 : State} {t cls o : Nat} (h : Issued s s1 t cls o) (d : Nat) (e : Ev) : Issued s (s1.post d e) t cls o :=
  ⟨h.thread, h.ofClass, h.asid, h.outstanding, fun ha => mem_agendaInsert_of_mem (h.enters ha), h.counter, h.greg, h.mem, h.cellar⟩

theorem Issued.cvTest {s s1 : State} {t cls o : Nat} (h : Issued s s1 t cls o) (c i : Nat) : Issued s (Machine.cvTest s1 c i) t cls o := by
  unfold Machine.cvTest
  dsimp only
  split
  · exact h.post _ _
  · exact h

/-- The operation of an MMA. -/
def mmaOp (x : Ins) (s : State) (t : Nat) : Op :=
  { opOf s t .mma 2 with
    tile := x.f.d.toNat, row0 := x.ifld 0 6, rows := x.ifld 8 6 + 1, fmt := x.ifld 16 4, bx := x.ib 20, z := x.ib 21
    base := x.f.b.toNat, n := x.f.c.toNat, bound := s.clk }

/-- The state in which an MMA is bound to the round of its convergence register. -/
def bindRound (x : Ins) (ps : List Nat) (s : State) : State :=
  cvTest (modCv (issueOp s ps (mmaOp x s (ps.headD 0))).2 (coreOfThread (ps.headD 0)) x.f.a.toNat fun c =>
    { c with size := x.ifld 8 6 + 1, bound := some s.nextId }) (coreOfThread (ps.headD 0)) x.f.a.toNat

section
variable {x : Ins} {ps : List Nat} {s : State} (hn : anvilNeed s (ps.headD 0 / 32) = none)
include hn

theorem mmaSub_taken (h : (cvAt s (coreOfThread (ps.headD 0)) x.f.a.toNat).bound.isSome = true ∨
    (cvAt s (coreOfThread (ps.headD 0)) x.f.a.toNat).size ≠ 0 ∧
      (cvAt s (coreOfThread (ps.headD 0)) x.f.a.toNat).size ≠ x.ifld 8 6 + 1) : mmaSub x ps s = .fault 22 0 0 s := by
  simp only [mmaSub, hn]
  exact if_pos h

theorem mmaSub_binds (hb : (cvAt s (coreOfThread (ps.headD 0)) x.f.a.toNat).bound = none)
    (hs : (cvAt s (coreOfThread (ps.headD 0)) x.f.a.toNat).size = 0 ∨
      (cvAt s (coreOfThread (ps.headD 0)) x.f.a.toNat).size = x.ifld 8 6 + 1) : mmaSub x ps s = .ok (bindRound x ps s) := by
  simp only [mmaSub, hn]
  refine if_neg ?_
  rintro (h | ⟨h0, hne⟩)
  · rw [hb] at h
    exact nomatch h
  · exact hs.elim h0 hne

end

theorem cvAt_bindRound (x : Ins) (ps : List Nat) (s : State) :
    cvAt (bindRound x ps s) (coreOfThread (ps.headD 0)) x.f.a.toNat =
      { cvAt s (coreOfThread (ps.headD 0)) x.f.a.toNat with size := x.ifld 8 6 + 1, bound := some s.nextId } := by
  rw [bindRound, cvAt_cvTest, cvAt_modCv]
  simp only [cvAt, core_issueOp]

theorem op_bindRound (x : Ins) (ps : List Nat) (s : State) :
    (bindRound x ps s).op s.nextId = { mmaOp x s (ps.headD 0) with after := opAfter s ps } := by
  rw [bindRound, op_cvTest]
  exact op_issueOp ..

theorem issued_bindRound (x : Ins) (ps : List Nat) (s : State) : Issued s (bindRound x ps s) (ps.headD 0) 2 s.nextId :=
  ((Op.Of.issued (p := mmaOp x s (ps.headD 0)) ⟨rfl, rfl, rfl, rfl, rfl⟩ ps).modCore _ _).cvTest _ _

/-! ### A thread at a tile (R309, R321) -/

/-- The thread comes past the tile at which it waited. -/
def passTile (s : State) (t : Nat) : State := s.modThread t fun h => { h with pass := none }

theorem kept_passTile (s : State) (t : Nat) : Same s (passTile s t) := kept_modThread s t _ rfl rfl rfl rfl

section
variable {s : State} {t tile : Nat} {k : State → TOut} (hp : (s.thread t).pass = none)
include hp

theorem atTile_waits (h : ∃ o ∈ tileOps s (coreOfThread t) tile, o < s.nextId) :
    atTile s t tile k = .stay (.tile tile s.nextId) s := by
  obtain ⟨o, ho, hlt⟩ := h
  simp only [atTile, hp]
  exact if_pos (List.any_eq_true.2 ⟨o, ho, decide_eq_true hlt⟩)

omit hp in
theorem atTile_free (h : tileOps s (coreOfThread t) tile = []) : atTile s t tile k = k (passTile s t) := by
  simp only [atTile, h, List.any_nil, Bool.false_eq_true, if_false]
  rfl

end

theorem accWidth_le (x : Ins) : accWidth x ≤ 4 := by
  unfold accWidth
  split
  · decide
  · split <;> decide

/-! ### ACCR (R321) -/

/-- The number of some words, lowest first. -/
def wordsNum (w : Nat → Word) (n : Nat) : Nat := (List.range n).foldl (fun a m => a + (w m).toNat * 2 ^ (32 * m)) 0

theorem wordsNum_succ (w : Nat → Word) (n : Nat) : wordsNum w (n + 1) = wordsNum w n + (w n).toNat * 2 ^ (32 * n) := by
  simp [wordsNum, List.range_succ]

theorem wordsNum_lt (w : Nat → Word) (n : Nat) : wordsNum w n < 2 ^ (32 * n) := by
  induction n with
  | zero => exact Nat.one_pos
  | succ n ih =>
    have hw : (w n).toNat * 2 ^ (32 * n) ≤ (2 ^ 32 - 1) * 2 ^ (32 * n) := Nat.mul_le_mul_right _ (by have := (w n).isLt; omega)
    rw [wordsNum_succ, Nat.mul_succ, Nat.add_comm (32 * n), Nat.pow_add]
    rw [Nat.sub_mul] at hw
    have := Nat.two_pow_pos (32 * n)
    omega

/-- Each of the words is a digit of their number. -/
theorem wordsNum_digit {w : Nat → Word} {n m : Nat} (hm : m < n) : wordsNum w n / 2 ^ (32 * m) % 2 ^ 32 = (w m).toNat := by
  induction n with
  | zero => omega
  | succ n ih =>
    rw [wordsNum_succ]
    by_cases h : m = n
    · subst h
      rw [Nat.add_mul_div_right _ _ (Nat.two_pow_pos _), Nat.div_eq_of_lt (wordsNum_lt w m), Nat.zero_add, Nat.mod_eq_of_lt (w m).isLt]
    · obtain ⟨d, hd⟩ : ∃ d, n = m + 1 + d := ⟨n - (m + 1), by omega⟩
      have hpow : 2 ^ (32 * n) = 2 ^ 32 * 2 ^ (32 * d) * 2 ^ (32 * m) := by
        rw [← Nat.pow_add, ← Nat.pow_add, hd]
        congr 1
        omega
      rw [hpow, ← Nat.mul_assoc, Nat.add_mul_div_right _ _ (Nat.two_pow_pos _), ← Nat.mul_assoc, Nat.mul_right_comm, Nat.add_mul_mod_self_right,
        ih (by omega)]

/-- The row, the column and the elements of an access. -/
def accPlace (x : Ins) (b : Nat) : Nat := if x.mb 1 then x.f.imm.toNat else b

/-- The elements that an ACCR reads. -/
def accrValue (x : Ins) (s : State) (t pos : Nat) : Nat :=
  wordsNum (fun m => tileAt s (coreOfThread t) x.f.a.toNat (natBits pos 8 6) (natBits pos 0 6 + m)) (accWidth x)

/-- The landing of an ACCR. -/
def accrLanding (x : Ins) (s : State) (t pos : Nat) : Landing :=
  { thread := t, reg := x.f.d.toNat, n := accWidth x, tag := s.nextId, value := BitVec.ofNat 128 (accrValue x s t pos),
    epoch := (s.core (coreOfThread t)).epoch, req := 0 }

/-- The state in which the registers of an ACCR are empty until its elements land. -/
def accrRead (x : Ins) (s : State) (t pos : Nat) : State :=
  ((passTile s t).fresh.2.emptyG t x.f.d.toNat s.nextId (accWidth x)).post 8 (.producerLanding (accrLanding x s t pos))

section
variable {x : Ins} {s : State} {t : Nat} {v : Vals} (hg : gather s x t = .vals v)
include hg

theorem accrThread_unaligned (h : natBits (accPlace x v.b) 0 6 % accWidth x ≠ 0) : accrThread x t s = .fault 23 0 0 s := by
  simp only [accrThread, hg]
  exact if_pos h

variable (h : natBits (accPlace x v.b) 0 6 % accWidth x = 0)
include h

theorem accrThread_waits (hp : (s.thread t).pass = none) (ho : ∃ o ∈ tileOps s (coreOfThread t) x.f.a.toNat, o < s.nextId) :
    accrThread x t s = .stay (.tile x.f.a.toNat s.nextId) s := by
  simp only [accrThread, hg]
  exact (if_neg (not_not_intro h)).trans (atTile_waits hp ho)

theorem accrThread_reads (ho : tileOps s (coreOfThread t) x.f.a.toNat = []) :
    accrThread x t s = .ok (accrRead x s t (accPlace x v.b)) := by
  simp only [accrThread, hg]
  exact (if_neg (not_not_intro h)).trans ((atTile_free ho).trans rfl)

end

theorem clk_emptyG (s : State) (t r tag n : Nat) : (s.emptyG t r tag n).clk = s.clk :=
  (congrArg State.clk (noThreads_emptyG s t r tag n) :)

/-- The landing of an ACCR is due in 8 clks. -/
theorem mem_agenda_accrRead (x : Ins) (s : State) (t pos : Nat) :
    (s.clk + 8, .producerLanding (accrLanding x s t pos)) ∈ (accrRead x s t pos).agenda := by
  have h := mem_agenda_posted ((passTile s t).fresh.2.emptyG t x.f.d.toNat s.nextId (accWidth x)) 8
    (.producerLanding (accrLanding x s t pos))
  rwa [clk_emptyG] at h

theorem greg_accrRead (x : Ins) (s : State) (t pos : Nat) {m : Nat} (hm : m < accWidth x) :
    ((accrRead x s t pos).greg t (x.f.d.toNat + m)).full = false ∧ ((accrRead x s t pos).greg t (x.f.d.toNat + m)).tag = s.nextId := by
  have h := greg_emptyG (passTile s t).fresh.2 t x.f.d.toNat s.nextId (accWidth x) t (x.f.d.toNat + m)
  rw [if_pos ⟨rfl, by omega, by omega⟩] at h
  exact ⟨congrArg GReg.full h, congrArg GReg.tag h⟩

/-- Each element of an ACCR is a word of its landing. -/
theorem accrLanding_word (x : Ins) (s : State) (t pos : Nat) {m : Nat} (hm : m < accWidth x) :
    (accrLanding x s t pos).value.toNat / 2 ^ (32 * m) % 2 ^ 32 =
      (tileAt s (coreOfThread t) x.f.a.toNat (natBits pos 8 6) (natBits pos 0 6 + m)).toNat := by
  have hlt : accrValue x s t pos < 2 ^ 128 :=
    (wordsNum_lt _ _).trans_le (Nat.pow_le_pow_right (by decide) (by have := accWidth_le x; omega))
  rw [accrLanding, BitVec.toNat_ofNat, Nat.mod_eq_of_lt hlt]
  exact wordsNum_digit hm

/-! ### ACCW (R321) -/

/-- The state in which an ACCW has written its elements. -/
def accwWrite (x : Ins) (s : State) (t pos b : Nat) : State :=
  modTile (passTile s t) (coreOfThread t) x.f.d.toNat fun k =>
    putElems k (64 * natBits pos 8 6 + natBits pos 0 6) (fun m => BitVec.ofNat 32 (b / 2 ^ (32 * m))) (accWidth x)

section
variable {x : Ins} {s : State} {t : Nat} {v : Vals} (hg : gather s x t = .vals v)
include hg

theorem accwThread_unaligned (h : natBits (accPlace x v.a) 0 6 % accWidth x ≠ 0) : accwThread x t s = .fault 23 0 0 s := by
  simp only [accwThread, hg]
  exact if_pos h

variable (h : natBits (accPlace x v.a) 0 6 % accWidth x = 0)
include h

theorem accwThread_waits (hp : (s.thread t).pass = none) (ho : ∃ o ∈ tileOps s (coreOfThread t) x.f.d.toNat, o < s.nextId) :
    accwThread x t s = .stay (.tile x.f.d.toNat s.nextId) s := by
  simp only [accwThread, hg]
  exact (if_neg (not_not_intro h)).trans (atTile_waits hp ho)

theorem accwThread_writes (ho : tileOps s (coreOfThread t) x.f.d.toNat = []) :
    accwThread x t s = .ok (accwWrite x s t (accPlace x v.a) v.b) := by
  simp only [accwThread, hg]
  exact (if_neg (not_not_intro h)).trans ((atTile_free ho).trans rfl)

end

theorem tiles_modTile (s : State) (c tile k : Nat) (f : KV Word → KV Word) :
    kvGet [] ((modTile s c tile f).core c).tiles k = if k = tile then f (kvGet [] (s.core c).tiles tile) else kvGet [] (s.core c).tiles k := by
  unfold modTile
  rw [State.core_modCore_same, kvGet_kvSet]

theorem greg_accwWrite (x : Ins) (s : State) (t pos b u r : Nat) : (accwWrite x s t pos b).greg u r = s.greg u r :=
  (kept_passTile s t).greg u r id

/-! ### ACCR.st (R322) -/

/-- One thread's register is empty until the word `v` of warp `w` lands, `8 + p.2` clks from now. -/
def landWord (x : Ins) (w : Nat) (v : Word) (s : State) (p : Nat × Nat) : State :=
  (s.fresh.2.emptyG p.1 x.f.d.toNat s.nextId 1).post (8 + p.2) (.producerLanding
    { thread := p.1, reg := x.f.d.toNat, n := 1, tag := s.nextId, value := v.setWidth 128, epoch := (s.core (coreOfWarp w)).epoch, req := 0 })

/-- The register of thread `u` is empty until the word `v` lands in it. -/
def AwaitsWord (x : Ins) (v : Word) (s : State) (u : Nat) : Prop :=
  (s.greg u x.f.d.toNat).full = false ∧ ∃ due l, (due, .producerLanding l) ∈ s.agenda ∧ l.thread = u ∧ l.reg = x.f.d.toNat ∧ l.n = 1 ∧
    l.value = v.setWidth 128 ∧ l.tag = (s.greg u x.f.d.toNat).tag

section
variable (x : Ins) (w : Nat) (v : Word)

theorem warp_landWord (s : State) (p : Nat × Nat) (n : Nat) : (landWord x w v s p).warp n = s.warp n :=
  (congrArg (fun s : State => s.warp n) (noThreads_emptyG s.fresh.2 p.1 x.f.d.toNat s.nextId 1) :)

theorem mem_agenda_landWord {s : State} {e : Nat × Ev} (h : e ∈ s.agenda) (p : Nat × Nat) : e ∈ (landWord x w v s p).agenda := by
  refine mem_agendaInsert_of_mem ?_
  rwa [show (s.fresh.2.emptyG p.1 x.f.d.toNat s.nextId 1).agenda = s.agenda from
    (congrArg State.agenda (noThreads_emptyG s.fresh.2 p.1 x.f.d.toNat s.nextId 1) :)]

theorem greg_landWord (s : State) (p : Nat × Nat) (u r : Nat) : (landWord x w v s p).greg u r =
    if u = p.1 ∧ x.f.d.toNat ≤ r ∧ r < x.f.d.toNat + 1 then { s.greg u r with full := false, tag := s.nextId } else s.greg u r :=
  greg_emptyG ..

theorem awaitsWord_landWord (s : State) (p : Nat × Nat) : AwaitsWord x v (landWord x w v s p) p.1 := by
  have h := greg_landWord x w v s p p.1 x.f.d.toNat
  rw [if_pos ⟨rfl, Nat.le_refl _, Nat.lt_succ_self _⟩] at h
  exact ⟨congrArg GReg.full h, _, _, mem_agenda_posted .., rfl, rfl, rfl, rfl, (congrArg GReg.tag h).symm⟩

theorem AwaitsWord.landWord {x : Ins} {v : Word} {s : State} {u : Nat} (h : AwaitsWord x v s u) (w : Nat) {p : Nat × Nat} (hu : u ≠ p.1) :
    AwaitsWord x v (Machine.landWord x w v s p) u := by
  obtain ⟨hfull, due, l, hmem, ht, hr, hn, hv, htag⟩ := h
  have hg : (Machine.landWord x w v s p).greg u x.f.d.toNat = s.greg u x.f.d.toNat :=
    (greg_landWord ..).trans (if_neg fun e => hu e.1)
  exact ⟨hg ▸ hfull, due, l, mem_agenda_landWord x w v hmem p, ht, hr, hn, hv, hg ▸ htag⟩

/-- Every thread of a list without repeats awaits the word. -/
theorem landWords (l : List (Nat × Nat)) (s : State) (hn : (l.map Prod.fst).Nodup) :
    (∀ n, (l.foldl (landWord x w v) s).warp n = s.warp n) ∧
    (∀ u, u ∉ l.map Prod.fst → AwaitsWord x v s u → AwaitsWord x v (l.foldl (landWord x w v) s) u) ∧
    ∀ u ∈ l.map Prod.fst, AwaitsWord x v (l.foldl (landWord x w v) s) u := by
  induction l generalizing s with
  | nil => exact ⟨fun _ => rfl, fun _ _ h => h, nofun⟩
  | cons p l ih =>
    obtain ⟨hp, hl⟩ := List.nodup_cons.1 hn
    obtain ⟨hwarp, hkeep, hall⟩ := ih (landWord x w v s p) hl
    refine ⟨fun n => (hwarp n).trans (warp_landWord ..), fun u hu h => ?_, fun u hu => ?_⟩
    · rw [List.map_cons, List.mem_cons, not_or] at hu
      exact hkeep u hu.2 (h.landWord w hu.1)
    · by_cases hin : u ∈ l.map Prod.fst
      · exact hall u hin
      · obtain rfl : u = p.1 := (List.mem_cons.1 hu).resolve_right hin
        exact hkeep _ hin (awaitsWord_landWord x w v s p)

end

/-- The state in which the status word of a warp has been read and cleared. -/
def clearStatus (s : State) (w : Nat) : State := s.modWarp w fun h => { h with anvil := 0 }

theorem accrSt_eq (x : Ins) (s : State) : accrSt x s = perSubrun x id noEnd (fun ps s =>
    .ok (ps.zipIdx.foldl (landWord x (ps.headD 0 / 32) (s.warp (ps.headD 0 / 32)).anvil) (clearStatus s (ps.headD 0 / 32)))) s := rfl

/-- Settles O47: the round of an MMA, the outcomes of ACCR and ACCW at their tile, and the word of ACCR.st. -/
theorem tilesAreReadAndWritten : Obligations.TilesAreReadAndWritten := by
  refine ⟨fun f s ps => ?_, fun f s t v => ?_, fun i x s ps hi hx hm hw => ?_⟩
  · intro x t c r n hw hq hc
    have hneed := anvilNeed_none hq hc
    have hn : x.ifld 8 6 + 1 = n := congrArg (· + 1) (ifld_eq x 8 6)
    refine ⟨fun h => traps_of_subFault hw rfl (mmaSub_taken hneed (hn ▸ h)), fun hb hs => ?_⟩
    refine ⟨bindRound x ps s, s.nextId, passesAll_of_ok hw rfl (mmaSub_binds hneed hb (hn ▸ hs)), issued_bindRound x ps s, ?_⟩
    have hrow : x.ifld 0 6 = f.imm.toNat % 2 ^ 6 := (ifld_eq x 0 6).trans (by rw [Nat.pow_zero, Nat.div_one]; rfl)
    rw [op_bindRound]
    exact ⟨rfl, rfl, hrow, hn, (cvAt_bindRound x ps s).trans (by rw [hn]; rfl)⟩
  · intro c
    refine ⟨fun x hx hm ht hg hp => ?_, fun x hx ht hg hp => ?_⟩
    · subst hx
      intro n pos
      have he : exec (.accr f) s = perThread (Ins.ofBody .accr (.long f)) 1 noEnd (accrThread (Ins.ofBody .accr (.long f))) s :=
        if_neg (by simp [hm])
      have hpos : natBits pos 0 6 = pos % 64 := natBits_zero pos 6
      refine ⟨fun h => traps_of_fault ht he (accrThread_unaligned hg (hpos.symm ▸ h)), fun h => ?_⟩
      have hal : natBits pos 0 6 % n = 0 := hpos.symm ▸ h
      refine ⟨fun ho => lands_of_stay ht he (accrThread_waits hg hal hp ho), fun ho => ?_⟩
      refine ⟨accrRead (Ins.ofBody .accr (.long f)) s t pos, _, passes_of_ok ht he (accrThread_reads hg hal ho), mem_agenda_accrRead ..,
        rfl, rfl, rfl, fun m hm => ?_⟩
      obtain ⟨hfull, htag⟩ := greg_accrRead (Ins.ofBody .accr (.long f)) s t pos hm
      refine ⟨hfull, htag, (accrLanding_word _ s t pos hm).trans ?_⟩
      rw [hpos]
      rfl
    · subst hx
      intro n pos row elems
      have hpos : natBits pos 0 6 = pos % 64 := natBits_zero pos 6
      refine ⟨fun h => traps_of_fault ht rfl (accwThread_unaligned hg (hpos.symm ▸ h)), fun h => ?_⟩
      have hal : natBits pos 0 6 % n = 0 := hpos.symm ▸ h
      refine ⟨fun ho => lands_of_stay ht rfl (accwThread_waits hg hal hp ho), fun ho => ?_⟩
      have htiles := fun k => tiles_modTile (passTile s t) c f.d.toNat k fun k =>
        putElems k (64 * row + pos % 64) (fun m => BitVec.ofNat 32 (v.b / 2 ^ (32 * m))) n
      have hstate : accwWrite (Ins.ofBody .accw (.long f)) s t pos v.b = modTile (passTile s t) c f.d.toNat fun k =>
          putElems k (64 * row + pos % 64) (fun m => BitVec.ofNat 32 (v.b / 2 ^ (32 * m))) n := by
        rw [accwWrite, hpos]
        rfl
      refine ⟨_, passes_of_ok ht rfl (accwThread_writes hg hal ho), greg_accwWrite _ s t pos v.b, ?_⟩
      have hsame := (htiles f.d.toNat).trans (if_pos rfl)
      rw [show accwWrite (Ins.ofBody .accw (.long f)) s t (accPlace (Ins.ofBody .accw (.long f)) v.a) v.b = _ from hstate]
      refine ⟨fun m hm => ?_, fun k i j hk => ?_, fun hsort => ?_⟩
      · rw [tileAt, hsame, ← Nat.add_assoc]
        exact (kvGet_putElems hm).1
      · rw [tileAt, htiles, if_neg hk]
        rfl
      · refine ⟨?_, fun i j hij => ?_⟩
        · show (kvGet [] (State.core _ c).tiles f.d.toNat).Pairwise _
          rw [hsame]
          exact sorted_putElems hsort
        · rw [tileAt, hsame]
          exact (kvGet_putElems_outside (found_of_sorted hsort) fun m hm => by
            have := hij m hm
            omega).1
  · obtain ⟨f, rfl⟩ := hi
    obtain rfl := Option.some.inj hx
    intro w
    obtain ⟨hwarp, -, hall⟩ := landWords (Ins.ofBody .accr (.long f)) w (s.warp w).anvil ps.zipIdx (clearStatus s w)
      (by rw [List.zipIdx_map_fst]; exact hw.once)
    refine ⟨_, passesAll_of_ok hw ((if_pos hm).trans (accrSt_eq ..)) rfl, ?_, fun u hu => ?_⟩
    · exact (congrArg Warp.anvil (hwarp w)).trans (congrArg Warp.anvil (State.warp_modWarp_same ..))
    · obtain ⟨hfull, hland⟩ := hall u (by rwa [List.zipIdx_map_fst])
      exact ⟨hfull, hland⟩

end Sys2Proof.Machine
end

