-- ==== Sys2Proof/Proofs/EventEffects.lean ====
section
/-! PROOFS. Every event has its effect where its happening stands (O54). -/

namespace Sys2Proof.Machine

/-- Settles O54: the step of a happening answers the effect of its event. -/
theorem eventsHaveTheirEffect : Obligations.EventsHaveTheirEffect := fun _ _ he => exec_happening he

end Sys2Proof.Machine
end

