-- ==== Sys2Proof/Proofs/TrapEntry.lean ====
section
/-! PROOFS. A warp that takes a trap (R387 to R389; O24), and the software traps (R391; O25). -/

namespace Sys2Proof

/-- A read of a collection that holds a value for each key of a range. -/
theorem kvGet_range' {α : Type} (d : α) (v : Nat → α) (a n k : Nat) :
    kvGet d ((List.range' a n).map fun j => (j, v j)) k = if a ≤ k ∧ k < a + n then v k else d := by
  induction n generalizing a with
  | zero => exact (if_neg (by omega)).symm
  | succ n ih =>
    rw [List.range'_succ, List.map_cons, kvGet, ih]
    rcases Nat.lt_trichotomy k a with h | rfl | h
    · rw [if_neg (by omega), if_pos h, if_neg (by omega)]
    · rw [if_pos rfl, if_pos (by omega)]
    · rw [if_neg (by omega), if_neg (by omega)]
      exact if_congr (by omega) rfl rfl

theorem kvGet_range {α : Type} (d : α) (v : Nat → α) {n k : Nat} (hk : k < n) :
    kvGet d ((List.range n).map fun j => (j, v j)) k = v k := by
  rw [List.range_eq_range', kvGet_range', if_pos (by omega)]

namespace Machine

/-! ### Taking a trap (R387, R388) -/

/-- What the handler keeps of the slots of warp `w`, which enters it for the reason `i`. -/
def enteredHandler (s : State) (w : Nat) (i : TrapInfo) : Handler :=
  { cause := i.cause
    pcs := (List.range 32).map fun k => (k, (s.thread (threadOf w k)).pc)
    holds := (List.range 32).filterMap fun k =>
      if holdKept (s.thread (threadOf w k)).hold then some (k, (s.thread (threadOf w k)).hold) else none
    preds := (List.range 32).map fun k => (k, (s.thread (threadOf w k)).p)
    replay := slotsMask ((List.range 32).filter fun k => (s.thread (threadOf w k)).pc = i.xpc && !i.done.getLsbD k)
    w := (List.range 8).map fun k => (56 + k, s.wreg w (56 + k)) }

/-- A warp that enters its handler, which keeps `saved`. -/
def enterWarp (i : TrapInfo) (hdata : Dword) (saved : Handler) (x : Warp) : Warp :=
  { x with
    xcause := xcauseWord i, xpc := i.xpc, xaddr := i.xaddr, xdone := i.done, xm := x.m, m := [], w := handlerW hdata x.w,
    handler := some saved }

/-- A thread that starts at `entry` in clk `n + 8`. -/
def enterThread (entry : Dword) (n : Nat) (t : Thread) : Thread :=
  { t with pc := entry, p := 0x80, prdy := [], hold := .none, slot := false, since := n + 8 }

/-- The registers of a handler: those from 56 on are HDATA and zeros, the others are as they were. -/
theorem kvGet_handlerW (hdata : Dword) (l : KV Word) (r : Nat) :
    kvGet 0 (handlerW hdata l) r =
      if 58 ≤ r ∧ r < 64 then 0 else if r = 57 then hdata.extractLsb' 32 32 else if r = 56 then hdata.extractLsb' 0 32 else kvGet 0 l r := by
  have hfold := kvGet_foldl_kvSet (0 : Word) (fun _ => 0) 58 6
    (kvSet (kvSet l 56 (hdata.extractLsb' 0 32)) 57 (hdata.extractLsb' 32 32)) r
  rw [List.foldl_map, kvGet_kvSet, kvGet_kvSet] at hfold
  exact hfold

section
variable {s : State} {w : Nat} (i : TrapInfo) (n : Nat) (hh : (s.warp w).handler = none)
  (hc : (s.cohort (coreOfWarp w)).ctx.handler ≠ 0)
include hh hc

/-- A warp outside a handler enters it, and its slots start there. -/
theorem takeTrap_eq : takeTrap s w i n = (List.range 32).foldl
    (fun s' k => s'.modThread (threadOf w k) (enterThread (s.cohort (coreOfWarp w)).ctx.handler n))
    (s.modWarp w (enterWarp i (s.cohort (coreOfWarp w)).ctx.hdata (enteredHandler s w i))) := by
  simp only [takeTrap, hh, hc, if_false]
  rfl

theorem takeTrap_rest : { takeTrap s w i n with threads := [] } =
    { s.modWarp w (enterWarp i (s.cohort (coreOfWarp w)).ctx.hdata (enteredHandler s w i)) with threads := [] } := by
  rw [takeTrap_eq i n hh hc]
  exact rest_foldSlots w (fun _ => enterThread _ n) _ _

theorem takeTrap_warp : (takeTrap s w i n).warp w = enterWarp i (s.cohort (coreOfWarp w)).ctx.hdata (enteredHandler s w i) (s.warp w) := by
  rw [(parts_of_rest (takeTrap_rest i n hh hc)).1, State.warp_modWarp_same]

theorem takeTrap_warp_ne {v : Nat} (hv : v ≠ w) : (takeTrap s w i n).warp v = s.warp v := by
  rw [(parts_of_rest (takeTrap_rest i n hh hc)).1, State.warp_modWarp, if_neg hv]

theorem takeTrap_memory : (takeTrap s w i n).mem = s.mem ∧ (takeTrap s w i n).cellar = s.cellar := by
  obtain ⟨-, -, -, hmem, hcellar, -⟩ := parts_of_rest (takeTrap_rest i n hh hc)
  exact ⟨hmem, hcellar⟩

theorem takeTrap_thread {k : Nat} (hk : k < 32) : (takeTrap s w i n).thread (threadOf w k) =
    enterThread (s.cohort (coreOfWarp w)).ctx.handler n (s.thread (threadOf w k)) := by
  have hsub : threadOf w k - 32 * w = k := Nat.add_sub_cancel_left ..
  rw [takeTrap_eq i n hh hc, thread_foldSlots w (fun _ => enterThread _ n) _ _ _ List.nodup_range, hsub,
    if_pos ⟨rfl, List.mem_range.2 hk⟩]
  rfl

theorem takeTrap_greg (u r : Nat) : (takeTrap s w i n).greg u r = s.greg u r := by
  rw [takeTrap_eq i n hh hc, State.greg, thread_foldSlots w (fun _ => enterThread _ n) _ _ _ List.nodup_range]
  split <;> rfl

theorem takeTrap_wreg (r : Nat) : (takeTrap s w i n).wreg w r =
    if 58 ≤ r ∧ r < 64 then 0 else if r = 57 then (s.cohort (coreOfWarp w)).ctx.hdata.extractLsb' 32 32
    else if r = 56 then (s.cohort (coreOfWarp w)).ctx.hdata.extractLsb' 0 32 else s.wreg w r := by
  rw [State.wreg, takeTrap_warp i n hh hc]
  exact kvGet_handlerW ..

end

/-- What the handler keeps of slot `k`. -/
theorem enteredHandler_slot (s : State) (w : Nat) (i : TrapInfo) {k : Nat} (hk : k < 32) :
    kvGet 0 (enteredHandler s w i).pcs k = (s.thread (threadOf w k)).pc ∧
      kvGet 0x80 (enteredHandler s w i).preds k = (s.thread (threadOf w k)).p ∧
      ((enteredHandler s w i).replay.getLsbD k = true ↔ (s.thread (threadOf w k)).pc = i.xpc ∧ i.done.getLsbD k = false) := by
  refine ⟨kvGet_range 0 (fun k => (s.thread (threadOf w k)).pc) hk, kvGet_range 0x80 (fun k => (s.thread (threadOf w k)).p) hk, ?_⟩
  rw [enteredHandler, getLsbD_slotsMask hk]
  simp [hk]

/-- A fault in a handler, or in a context that names none, ends the context on every package (R389). -/
theorem takeTrap_ends {s : State} {w : Nat} (i : TrapInfo) (n : Nat)
    (h : (s.warp w).handler.isSome = true ∨ (s.cohort (coreOfWarp w)).ctx.handler = 0) {p : Nat} (hp : s.pkg p ≠ {}) :
    ((takeTrap s w i n).pkg p).ended.contains (s.asidOf (coreOfWarp w)) = true := by
  cases hh : (s.warp w).handler with
  | some k => exact takeTrap_ended hh i n hp
  | none =>
    have hc : (s.cohort (coreOfWarp w)).ctx.handler = 0 := h.resolve_left (by rw [hh]; decide)
    simp only [takeTrap, hh, hc, if_true]
    exact endContext_ended s _ _ hp

/-- Settles O24: the handler that is entered, slot by slot, and the end of the context where there is none to enter. -/
theorem takingATrapSavesTheWarp : Obligations.TakingATrapSavesTheWarp := by
  refine ⟨?_, fun s w i n h p hp => takeTrap_ends i n h hp⟩
  intro s w i n hh ctx hc s'
  have hwarp : s'.warp w = _ := takeTrap_warp i n hh hc
  have hwreg : ∀ r, s'.wreg w r = _ := takeTrap_wreg i n hh hc
  obtain ⟨hmem, hcellar⟩ := takeTrap_memory i n hh hc
  refine ⟨congrArg Warp.xcause hwarp, congrArg Warp.xpc hwarp, congrArg Warp.xaddr hwarp, congrArg Warp.xdone hwarp,
    congrArg Warp.xm hwarp, fun m => ?_, hwreg 56, hwreg 57, fun r h58 h64 => ?_, fun r hr => ?_,
    ⟨_, congrArg Warp.handler hwarp, rfl, rfl, fun k hk => enteredHandler_slot s w i hk⟩, fun k hk => ?_,
    takeTrap_greg i n hh hc, fun v hv => takeTrap_warp_ne i n hh hc hv, hmem, hcellar⟩
  · rw [State.mask, hwarp]
    rfl
  · rw [hwreg, if_pos ⟨h58, h64⟩]
  · rw [hwreg, if_neg (by omega), if_neg (by omega), if_neg (by omega)]
  · rw [takeTrap_thread i n hh hc hk]
    exact ⟨rfl, rfl, rfl, rfl⟩

/-! ### The software traps (R391) -/

/-- The reason of a software trap whose performing slots are `done`. -/
def softReason (cause : Nat) (x : Ins) (s : State) (w : Nat) (done : Word) : TrapInfo :=
  { cause := cause, slot := (maskSlots done).headD 0, acc := 0, arg := x.f.imm.extractLsb' 0 16
    xpc := (s.thread (threadOf w ((maskSlots done).headD 0))).pc - BitVec.ofNat 64 x.size, xaddr := 0, done := done }

/-- The only thread of a run that traps by its instruction: it has passed, and its warp takes the trap of its slot. -/
theorem trapWith_alone {cause : Nat} {x : Ins} {s : State} {t : Nat} (h : Alone s x t) : ∃ r s1,
    trapWith cause x s = .next (closeRun (takeTrap s1 (t / 32)
      { cause := cause, slot := t % 32, acc := 0, arg := x.f.imm.extractLsb' 0 16, xpc := (s.thread t).pc, xaddr := 0
        done := slotBit (t % 32) } (s.clk + 1)) r (s.clk + 1)) ∧
    Same s s1 ∧ (s1.thread t).pc = (s.thread t).pc + BitVec.ofNat 64 x.size := by
  obtain ⟨r, -, -, -, -, -, ok, -⟩ := perThread_alone h 1 (fun s w done till => takeTrap s w (softReason cause x s w done) till)
    fun _ s => .ok s
  have hpc : ((afterAlone (s.advance t x.size) r t).thread t).pc = (s.thread t).pc + BitVec.ofNat 64 x.size := by
    rw [thread_afterAlone]
    exact thread_advance_pc ..
  have hreason : softReason cause x (afterAlone (s.advance t x.size) r t) (t / 32) (slotBit (t % 32)) =
      { cause := cause, slot := t % 32, acc := 0, arg := x.f.imm.extractLsb' 0 16, xpc := (s.thread t).pc, xaddr := 0
        done := slotBit (t % 32) } := by
    rw [softReason, maskSlots_slotBit _ (Nat.mod_lt _ (by decide)), List.headD_cons, threadOf_self, hpc, BitVec.add_sub_cancel]
  refine ⟨r.after t, _, (ok s rfl).trans ?_, (kept_advance ..).trans (kept_afterAlone ..), hpc⟩
  rw [hreason]

/-- A software trap of the only thread of a run. -/
theorem runs_trapWith {i : Instr} {cause : Nat} {x : Ins} {s : State} {t : Nat} (he : exec i s = trapWith cause x s) (h : Alone s x t)
    (hh : (s.warp (t / 32)).handler = none) (hc : (s.cohort (coreOfWarp (t / 32))).ctx.handler ≠ 0) : Runs i s fun s' =>
      (s'.warp (t / 32)).xcause = BitVec.ofNat 32 ((x.f.imm.extractLsb' 0 16).toNat * 2 ^ 16 + t % 32 * 2 ^ 8 + cause) ∧
      (s'.warp (t / 32)).xpc = (s.thread t).pc ∧ (s'.warp (t / 32)).xdone = slotBit (t % 32) ∧ (s'.warp (t / 32)).xaddr = 0 ∧
      (s'.warp (t / 32)).xm = (s.warp (t / 32)).m ∧ (s'.warp (t / 32)).m = [] ∧
      (∃ k, (s'.warp (t / 32)).handler = some k ∧ k.cause = cause ∧
        kvGet 0 k.pcs (t % 32) = (s.thread t).pc + BitVec.ofNat 64 x.size) ∧
      (∀ k < 32, (s'.thread (threadOf (t / 32) k)).pc = (s.cohort (coreOfWarp (t / 32))).ctx.handler) ∧
      (∀ u r, s'.greg u r = s.greg u r) ∧ s'.mem = s.mem := by
  obtain ⟨r, s1, hrun, hsame, hpc⟩ := trapWith_alone (cause := cause) h
  obtain ⟨-, hw, hcoh⟩ := preempt_of_same hsame (t / 32)
  have hh1 := hw.trans hh
  have hc1 := hcoh ▸ hc
  have hm : (s1.warp (t / 32)).m = (s.warp (t / 32)).m := (congrArg Warp.m (hsame.warp (t / 32)) :)
  have hwarp : ∀ i n, (closeRun (takeTrap s1 (t / 32) i n) r (s.clk + 1)).warp (t / 32) = _ := fun i n => takeTrap_warp i n hh1 hc1
  refine ⟨_, he.trans hrun, ?_⟩
  beta_reduce
  rw [hwarp]
  refine ⟨by simp [enterWarp, xcauseWord], rfl, rfl, rfl, hm, rfl, ⟨_, rfl, rfl, ?_⟩,
    fun k hk => ?_, fun u k => (takeTrap_greg _ _ hh1 hc1 u k).trans (hsame.greg u k id),
    (takeTrap_memory _ _ hh1 hc1).1.trans hsame.mem⟩
  · rw [(enteredHandler_slot s1 (t / 32) _ (Nat.mod_lt _ (by decide))).1, threadOf_self, hpc]
  · exact (congrArg Thread.pc (takeTrap_thread _ _ hh1 hc1 hk)).trans hcoh

/-- Settles O25: one course for the three instructions, each with its cause. -/
theorem softwareTrapsEnterTheHandler : Obligations.SoftwareTrapsEnterTheHandler := by
  intro f o i cause s t hi ha w hd hh hc
  refine runs_trapWith (x := Ins.ofBody o (.long f)) ?_ ha hh hc
  obtain ⟨rfl, rfl, rfl⟩ | ⟨rfl, rfl, rfl⟩ | ⟨rfl, rfl, rfl⟩ := hi
  all_goals rfl

end Machine

end Sys2Proof
end

