-- ==== Sys2Proof/Proofs/ClockFrames.lean ====
section
/-! PROOFS. The operations that a package's loss of power is made of leave the clk as it is, in the order of the model: `simp` carries
`State.clk` through any of them. -/

namespace Sys2Proof.Machine

@[simp] theorem clk_ite (p : Prop) [Decidable p] (s t : State) : (if p then s else t).clk = if p then s.clk else t.clk :=
  apply_ite State.clk p s t

section
variable (s : State)

@[simp] theorem clk_modSaved (k : Nat) (f : Saved → Saved) : (modSaved s k f).clk = s.clk := rfl
@[simp] theorem clk_chooseBelow (n : Nat) : (s.chooseBelow n).2.clk = s.clk := rfl
@[simp] theorem clk_raise (d : Nat) (r : EvRec) : (s.raise d r).clk = s.clk := by simp [State.raise]

/-! ### The end of a context -/

@[simp] theorem clk_freeBarrier (c i : Nat) : (freeBarrier s c i).clk = s.clk := rfl
@[simp] theorem clk_dropBuf (d b : Nat) : (dropBuf s d b).clk = s.clk := rfl
@[simp] theorem clk_dropOps (asid : Nat) : (dropOps s asid).clk = s.clk := rfl

@[simp] theorem clk_endContext (asid : Nat) (record : Option (Nat × EvRec)) : (endContext s asid record).clk = s.clk := by
  unfold endContext
  split
  · rfl
  extract_lets s1 s2 mine s3 objs s4 s5 s6 bufs s7 s8 ls
  have h3 : s3.clk = s2.clk := foldl_keeps State.clk (by intros; rfl) _ _
  have h4 : s4.clk = s3.clk := foldl_keeps State.clk (by intros; rfl) _ _
  have h7 : s7.clk = s4.clk := foldl_keeps State.clk (by intros; rfl) _ _
  have h2 : s2.clk = s.clk := by
    cases record with
    | none => rfl
    | some r => exact clk_raise ..
  refine (foldl_keeps State.clk ?_ _ _).trans (h7.trans (h4.trans (h3.trans h2)))
  exact fun _ _ => rfl

/-! ### The failure of an operation -/

@[simp] theorem clk_countOff (h : Word) (asid n : Nat) : (countOff s h asid n).1.clk = s.clk := by
  unfold countOff
  split <;> rfl

@[simp] theorem clk_modWarpAt (w : Nat) (epoch : BitVec 16) (f : Warp → Warp) : (modWarpAt s w epoch f).clk = s.clk := by
  fun_cases modWarpAt s w epoch f <;> simp

@[simp] theorem clk_remFail (core : Nat) (epoch : BitVec 16) (slot bit cause home : Nat) (va : Dword) :
    (remFail s core epoch slot bit cause home va).clk = s.clk := by
  fun_cases remFail s core epoch slot bit cause home va <;> simp +zetaDelta

@[simp] theorem clk_sweepOp (o : Nat) : (sweepOp s o).clk = s.clk := by simp [sweepOp]

@[simp] theorem clk_completeOp (o : Nat) : (completeOp s o).clk = s.clk := by simp [completeOp]

@[simp] theorem clk_recordFail (p : Op) (code : Nat) : (recordFail s p code).clk = s.clk := by simp [recordFail]

@[simp] theorem clk_opRemFail (p : Op) (code cause home : Nat) (va : Dword) : (opRemFail s p code cause home va).clk = s.clk := by
  simp [opRemFail]

@[simp] theorem clk_bufNote (d b : Nat) (f : Buf → Buf) : (bufNote s d b f).clk = s.clk := by
  unfold bufNote
  dsimp only
  split <;> rfl

@[simp] theorem clk_copyOutTest (o : Nat) : (copyOutTest s o).clk = s.clk := by
  fun_cases copyOutTest s o
  all_goals simp +zetaDelta

@[simp] theorem clk_failOp (o code cause home : Nat) (va : Dword) (lost : Nat) : (failOp s o code cause home va lost).clk = s.clk := by
  fun_cases failOp s o code cause home va lost
  · rfl
  all_goals
    simp +zetaDelta
    split <;> simp

@[simp] theorem clk_noteRetired (p : Op) : (noteRetired s p).clk = s.clk := by simp [noteRetired, modSet]

@[simp] theorem clk_sweepLeft (core : Nat) : (sweepLeft s core).clk = s.clk := rfl

@[simp] theorem clk_noteFail (o code cause home : Nat) (va : Dword) : (noteFail s o code cause home va).clk = s.clk := by
  simp [noteFail]

@[simp] theorem clk_finishOp (o : Nat) : (finishOp s o).clk = s.clk := by simp [finishOp]

@[simp] theorem clk_freeBinds (d : Nat) : (freeBinds s d).clk = s.clk := rfl

@[simp] theorem clk_ringTest (o : Nat) : (ringTest s o).clk = s.clk := by simp [ringTest, modRec]

@[simp] theorem clk_failPart (o code cause home : Nat) (va : Dword) : (failPart s o code cause home va).clk = s.clk := by
  simp [failPart]

@[simp] theorem clk_failInstance (p : Op) (code cause home : Nat) (va : Dword) : (failInstance s p code cause home va).clk = s.clk := by
  refine (foldl_keeps State.clk (fun s d => ?_) _ _).trans rfl
  split
  · exact clk_failPart ..
  · rfl

/-! ### What is lost with a path -/

@[simp] theorem clk_modTxn (agent key : Nat) (f : Txn → Txn) : (modTxn s agent key f).clk = s.clk := rfl
@[simp] theorem clk_caskLost (d line holder : Nat) : (caskLost s d line holder).clk = s.clk := by simp [caskLost]
@[simp] theorem clk_setMeta (agent line : Nat) (m : Meta) : (setMeta s agent line m).clk = s.clk := by simp [setMeta]
@[simp] theorem clk_lostOwner (agent line : Nat) : (lostOwner s agent line).clk = s.clk := by simp [lostOwner]
@[simp] theorem clk_dropMsg (id : Nat) : (dropMsg s id).clk = s.clk := rfl

@[simp] theorem clk_lostEv (m : Msg) : (lostEv s m).clk = s.clk := by
  fun_cases lostEv s m
  all_goals simp +zetaDelta

@[simp] theorem clk_answerFor (a key h : Nat) : (answerFor s a key h).clk = s.clk := by simp [answerFor]

@[simp] theorem clk_closeCasks : (closeCasks s).clk = s.clk := by
  refine foldl_keeps State.clk (fun s d => foldl_keeps State.clk (fun s e => ?_) _ _) _ _
  simp

@[simp] theorem clk_failLost : (failLost s).clk = s.clk := by
  unfold failLost
  refine (foldl_keeps State.clk (fun s o => ?_) _ _).trans ?_
  · simp only [clk_ite]
    split
    · rfl
    · split
      · simp
      · rfl
  refine (foldl_keeps State.clk (fun s o => ?_) _ _).trans ?_
  · split
    · split
      · dsimp only
        split
        · simp
        · rfl
      · rfl
    · rfl
  refine (foldl_keeps State.clk (fun s d => foldl_keeps State.clk (fun s t => foldl_keeps State.clk (fun s h => clk_answerFor ..) _ _) _ _) _ _).trans ?_
  refine (foldl_keeps State.clk (fun s r => ?_) _ _).trans ?_
  · extract_lets d home
    split
    · rfl
    · split
      · rfl
      · rfl
  rw [clk_closeCasks]
  exact foldl_keeps State.clk (fun s m => (clk_lostEv ..).trans (clk_dropMsg ..)) _ _

@[simp] theorem clk_emptyPkg (p : Nat) : (emptyPkg s p).clk = s.clk := by
  unfold emptyPkg
  rw [clk_failLost]
  exact foldl_keeps State.clk (fun s a => clk_endContext ..) _ _

end

end Sys2Proof.Machine
end

