-- ==== Sys2Proof/Proofs/StartUp.lean ====
section
/-! PROOFS. Power, calibration and initialisation of a package, its heat and its window of errors (O58). -/

namespace Sys2Proof.Machine

/-! ### Collections and memories in which something is not listed -/

theorem kvGet_eq_or_mem {α : Type} (d : α) (l : KV α) (k : Nat) : kvGet d l k = d ∨ (k, kvGet d l k) ∈ l :=
  or_iff_not_imp_left.2 mem_of_kvGet_ne

theorem memGet_of_absent {m : List Host.Cell} {a : Nat} (h : ∀ c ∈ m, c.1 ≠ a) : memGet m a = 0 := by
  induction m with
  | nil => rfl
  | cons c r ih =>
    obtain ⟨b, v⟩ := c
    rw [memGet, if_neg (Ne.symm (h _ List.mem_cons_self)), ih fun c hc => h c (List.mem_cons_of_mem _ hc), ite_self]

/-- A range that is cleared reads 0. -/
theorem memGet_memClear {m : List Host.Cell} {a n k : Nat} (hlo : a ≤ k) (hhi : k < a + n) : memGet (memClear m a n) k = 0 := by
  refine memGet_of_absent fun c hc => ?_
  have h := (List.mem_filter.1 hc).2
  rw [Bool.or_eq_true, decide_eq_true_iff, decide_eq_true_iff] at h
  omega

/-- A drawn bound holds of what is drawn. -/
theorem chooseBelow_le (s : State) (n : Nat) : (s.chooseBelow (n + 1)).1 ≤ n :=
  Nat.lt_succ_iff.1 (chooseBelow_lt s (Nat.succ_ne_zero n))

theorem chooseBelow_pkg (s : State) (n p : Nat) : (s.chooseBelow n).2.pkg p = s.pkg p := rfl

/-- A happening that is due after a drawn number of clks is due within the bound. -/
theorem mem_agenda_drawn (s : State) (n : Nat) (e : Ev) :
    ∃ due ≤ s.clk + n, (due, e) ∈ ((s.chooseBelow (n + 1)).2.post (s.chooseBelow (n + 1)).1 e).agenda :=
  ⟨_, Nat.add_le_add_left (chooseBelow_le s n) _, mem_agenda_posted ..⟩

/-! ### The dies of a package -/

/-- A die of a package after a change of each of them. -/
theorem die_foldDies (p : Nat) (f : Nat → Die → Die) (l : List Nat) (hl : l.Nodup) (s : State) (k : Nat) :
    (l.foldl (fun s k => s.modDie (16 * p + k) (f k)) s).die (16 * p + k) =
      if k ∈ l then f k (s.die (16 * p + k)) else s.die (16 * p + k) := by
  induction l generalizing s with
  | nil => rfl
  | cons j l ih =>
    obtain ⟨hj, hl⟩ := List.nodup_cons.1 hl
    rw [List.foldl_cons, ih hl, State.die_modDie]
    by_cases hk : k = j
    · subst hk
      rw [if_neg hj, if_pos rfl, if_pos List.mem_cons_self]
    · have hne : 16 * p + k ≠ 16 * p + j := by omega
      simp only [if_neg hne, List.mem_cons, hk, false_or]

/-! ### What leaves the packages and the clk alone -/

/-- The packages and the clk. -/
def State.packages (s : State) : KV Pkg × Nat := (s.pkgs, s.clk)

@[simp] theorem packages_mk (s : State) (a b c d e f g h i j k l m n o p q r t u v w x y) :
    State.packages ⟨s.clk, a, b, c, d, e, f, g, h, i, j, k, l, m, s.pkgs, n, o, p, q, r, t, u, v, w, x, y⟩ = s.packages :=
  Prod.ext rfl rfl

@[simp] theorem packages_ite (p : Prop) [Decidable p] (s t : State) :
    (if p then s else t).packages = if p then s.packages else t.packages :=
  apply_ite State.packages p s t

@[simp] theorem packages_foldl {α : Type} (f : State → α → State) (l : List α) (s : State)
    (h : ∀ s a, (f s a).packages = s.packages) : (l.foldl f s).packages = s.packages :=
  foldl_keeps State.packages h l s

section
variable (s : State)

@[simp] theorem packages_modDie (d : Nat) (f : Die → Die) : (s.modDie d f).packages = s.packages := by simp [State.modDie]
@[simp] theorem packages_modLink (l : Nat) (f : Link → Link) : (s.modLink l f).packages = s.packages := by simp [State.modLink]
@[simp] theorem packages_post (d : Nat) (e : Ev) : (s.post d e).packages = s.packages := by simp [State.post]
@[simp] theorem packages_unpost (e : Ev) : (s.unpost e).packages = s.packages := by simp [State.unpost]
@[simp] theorem packages_pumpLink (l : Nat) : (pumpLink s l).packages = s.packages := by simp [pumpLink]
@[simp] theorem packages_freshLink (l : Nat) : (freshLink s l).packages = s.packages := by simp [freshLink]
@[simp] theorem packages_armIdle (dir : Nat) : (armIdle s dir).packages = s.packages := by simp [armIdle]
@[simp] theorem packages_applyPlan (d : Nat) : (applyPlan s d).packages = s.packages := by simp [applyPlan]
@[simp] theorem packages_startDie (d : Nat) : (startDie s d).packages = s.packages := by simp [startDie]
@[simp] theorem packages_startLinks (d : Nat) : (startLinks s d).packages = s.packages := by simp [startLinks]

end

/-! ### What start-up sets of a package -/

/-- The phase of a package, whether it is ready, and its $clk. -/
def State.startOf (s : State) (p : Nat) : Nat × Bool × Nat := ((s.pkg p).phase, (s.pkg p).ready, s.pkgClk p)

theorem startOf_of_packages {s s' : State} (h : s'.packages = s.packages) (p : Nat) : s'.startOf p = s.startOf p := by
  obtain ⟨hp, hc⟩ := Prod.ext_iff.1 h
  have hp : s'.pkgs = s.pkgs := hp
  have hc : s'.clk = s.clk := hc
  rw [State.startOf, State.startOf, State.pkgClk, State.pkgClk, State.pkg, hp, hc]
  rfl

theorem startOf_raise (s : State) (p d : Nat) (r : EvRec) : (s.raise d r).startOf p = s.startOf p := by
  unfold State.raise
  split
  · simp only [State.startOf, State.pkgClk, State.pkg_modPkg, State.modPkg_clk]
    split
    · subst_vars
      rfl
    · rfl
  · exact startOf_of_packages (by simp) p

/-! ### Power and calibration (R421, R422) -/

/-- A package that has lost everything and has power again. -/
def poweredUp (s : State) (p : Nat) : State :=
  { emptyPkg s p with pkgs := kvSet (emptyPkg s p).pkgs p { powered := true, phase := 1 } }

theorem restart_eq (s : State) (p : Nat) : restart s p =
    ((poweredUp s p).chooseBelow (50000 * usClk + 1)).2.post ((poweredUp s p).chooseBelow (50000 * usClk + 1)).1 (.powerPhaseDone p) := rfl

/-- A package that gets power is in its power phase, which ends within 50 ms. -/
theorem restart_begins (s : State) (p : Nat) : (restart s p).pkg p = { powered := true, phase := 1 } ∧
    ∃ due ≤ s.clk + 50000 * 1200, (due, .powerPhaseDone p) ∈ (restart s p).agenda := by
  have hclk : (poweredUp s p).clk = s.clk := by simp [poweredUp]
  have h := mem_agenda_drawn (poweredUp s p) (50000 * usClk) (.powerPhaseDone p)
  rw [hclk, ← restart_eq, show 50000 * usClk = 50000 * 1200 from rfl] at h
  have hpkg : (poweredUp s p).pkg p = { powered := true, phase := 1 } := by
    rw [State.pkg, poweredUp, kvGet_kvSet_same]
  refine ⟨?_, h⟩
  rw [restart_eq, State.post_pkg, chooseBelow_pkg, hpkg]

theorem evPowerOn_begins {s : State} {p : Nat} (h : (s.pkg p).powered = false) :
    (evPowerOn s p).pkg p = { powered := true, phase := 1 } ∧
      ∃ due ≤ s.clk + 50000 * 1200, (due, .powerPhaseDone p) ∈ (evPowerOn s p).agenda := by
  rw [evPowerOn, if_neg (by rw [h]; decide)]
  exact restart_begins s p

/-- The end of the power phase begins calibration, which ends within 300 ms. -/
theorem evPowerPhaseDone_begins {s : State} {p : Nat} (h : (s.pkg p).phase = 1) : ((evPowerPhaseDone s p).pkg p).phase = 2 ∧
    ∃ due c, due ≤ s.clk + 300000 * 1200 ∧ (due, .calibrationDone p c) ∈ (evPowerPhaseDone s p).agenda := by
  obtain ⟨due, hdue, hmem⟩ := mem_agenda_drawn (someCalibration (s.modPkg p fun g => { g with phase := 2 }) p).2 (300000 * usClk)
    (.calibrationDone p (someCalibration (s.modPkg p fun g => { g with phase := 2 }) p).1)
  have hphase := congrArg Pkg.phase (State.pkg_modPkg_same s p fun g => { g with phase := 2 })
  rw [evPowerPhaseDone, if_neg (not_not_intro h)]
  exact ⟨hphase, due, _, hdue, hmem⟩

/-- A package of which every die failed. -/
theorem evCalibrationDone_none {s : State} {p : Nat} {c : Calibration} (h : (s.pkg p).phase = 2) (hc : c.dieOk = 0) :
    ((evCalibrationDone s p c).pkg p).phase = 7 ∧ ((evCalibrationDone s p c).pkg p).ready = (s.pkg p).ready := by
  rw [evCalibrationDone, if_neg (not_not_intro h), if_pos hc, State.pkg_modPkg_same]
  exact ⟨rfl, rfl⟩

/-- A die as its calibration finds it. -/
def calibrated (c : Calibration) (k : Nat) (x : Die) : Die :=
  { x with ok := c.dieOk.getLsbD k, dead := !c.dieOk.getLsbD k, brgFailed := !c.brgOk.getLsbD k, brgWrapped := !c.brgOk.getLsbD k }

/-- The dies of a package as calibration finds them. -/
def calibrateDies (s : State) (p : Nat) (c : Calibration) : State :=
  (List.range 16).foldl (fun s k => s.modDie (16 * p + k) (calibrated c k))
    (s.modPkg p fun g => { g with phase := 3, dieOk := c.dieOk, brgOk := c.brgOk })

/-- The slots that calibration finds dark. -/
def darken (s : State) (c : Calibration) : State :=
  c.dark.foldl (fun s e => s.modLink e.1 fun x => { x with rxDark := x.rxDark ||| fibreBit e.2 }) s

/-- The parts of links that calibration finds dark change neither package nor die. -/
theorem evCalibrationDone_parts {s : State} {p : Nat} {c : Calibration} (h : (s.pkg p).phase = 2) (hc : c.dieOk ≠ 0) :
    (evCalibrationDone s p c).pkg p = { s.pkg p with phase := 3, dieOk := c.dieOk, brgOk := c.brgOk } ∧
      ∀ k < 16, (evCalibrationDone s p c).die (16 * p + k) = calibrated c k (s.die (16 * p + k)) := by
  have he : evCalibrationDone s p c = ((darken (calibrateDies s p c) c).chooseBelow (25000 * usClk + 1)).2.post
      ((darken (calibrateDies s p c) c).chooseBelow (25000 * usClk + 1)).1 (.initialisationDone p) := by
    rw [evCalibrationDone, if_neg (not_not_intro h), if_neg hc]
    rfl
  have hdies : (darken (calibrateDies s p c) c).dies = (calibrateDies s p c).dies := foldl_keeps State.dies (by intros; rfl) _ _
  have hpkgs : (darken (calibrateDies s p c) c).pkgs = (calibrateDies s p c).pkgs := foldl_keeps State.pkgs (by intros; rfl) _ _
  have hfold : (calibrateDies s p c).pkgs = _ := foldl_keeps State.pkgs (by intros; rfl) _ _
  rw [he]
  refine ⟨?_, fun k hk => ?_⟩
  · show kvGet {} (darken (calibrateDies s p c) c).pkgs p = _
    rw [hpkgs, hfold]
    exact State.pkg_modPkg_same ..
  · show (darken (calibrateDies s p c) c).die (16 * p + k) = _
    rw [die_of_dies (s := calibrateDies s p c) hdies, calibrateDies, die_foldDies p (calibrated c) _ List.nodup_range, if_pos (List.mem_range.2 hk)]
    rfl

/-! ### Initialisation (R421, R422) -/

/-- The memory of a package is clear. -/
def clearPkg (s : State) (p : Nat) : State :=
  { s with
    mem := memClear s.mem (p * 2 ^ Config.paPkgBit) (2 ^ Config.paPkgBit), cellar := memClear s.cellar (16 * p * 2 ^ 27) (16 * 2 ^ 27),
    metaw := s.metaw.filter fun m => pkgOfDie (homeDie (64 * m.1)) ≠ p, errs := s.errs.filter fun e => pkgOfDie (homeDie (64 * e.1)) ≠ p }

/-- The dies of a package have no region, and its memory is clear. -/
def clearDies (s : State) (p : Nat) : State :=
  (List.range 16).foldl (fun s k => s.modDie (16 * p + k) fun x => { x with region := [], rdcGen := 1, lost := [] }) (clearPkg s p)

/-- A package is ready, with everything clear. -/
def readied (s : State) (p : Nat) : State :=
  (clearDies s p).modPkg p fun g => { g with phase := 4, ready := true, clk0 := (clearDies s p).clk }

theorem startOf_readied (s : State) (p : Nat) : (readied s p).startOf p = (4, true, 0) := by
  rw [State.startOf, State.pkgClk, readied, State.pkg_modPkg_same, State.modPkg_clk]
  simp

theorem mem_readied (s : State) (p : Nat) : (readied s p).mem = memClear s.mem (p * 2 ^ Config.paPkgBit) (2 ^ Config.paPkgBit) := by
  have h : (readied s p).memories = (clearPkg s p).memories := by simp [readied, clearDies]
  exact congrArg Prod.fst h

/-- The records of start-up, in their order. -/
def recordStart (s : State) (p : Nat) : State :=
  let first := (goodDies s p).headD (16 * p)
  let s := s.raise first { kind := 0x01, detail := (s.pkg p).dieOk.toNat }
  let s := ((List.range 16).filter fun k => !(s.pkg p).dieOk.getLsbD k).foldl (fun s k => s.raise first { kind := 0x16, detail := k }) s
  ((List.range 16).filter fun k => !(s.pkg p).brgOk.getLsbD k).foldl (fun s k => s.raise first { kind := 0x15, detail := k }) s

theorem startOf_recordStart (s : State) (p : Nat) : (recordStart s p).startOf p = s.startOf p := by
  unfold recordStart
  extract_lets first s1 s2
  have h2 : s2.startOf p = s1.startOf p := foldl_keeps (·.startOf p) (by intros; exact startOf_raise ..) _ _
  have h1 : s1.startOf p = s.startOf p := startOf_raise ..
  exact (foldl_keeps (·.startOf p) (by intros; exact startOf_raise ..) _ _).trans (h2.trans h1)

theorem memories_recordStart (s : State) (p : Nat) : (recordStart s p).memories = s.memories := by simp [recordStart]

/-- The dies and links of a package that is ready begin, after the records of start-up. -/
theorem evInitialisationDone_eq {s : State} {p : Nat} (h : (s.pkg p).phase = 3) : ∃ n, evInitialisationDone s p =
    ((goodDies (readied s p) p).foldl startLinks
      ((goodDies (readied s p) p).foldl startDie (recordStart (readied s p) p))).post n (.errorWindowExpiry p) := by
  rw [evInitialisationDone, if_neg (not_not_intro h)]
  exact ⟨_, rfl⟩

/-- Initialisation makes a package ready, with its memory clear. -/
theorem evInitialisationDone_readies {s : State} {p : Nat} (h : (s.pkg p).phase = 3) :
    (evInitialisationDone s p).startOf p = (4, true, 0) ∧
      (evInitialisationDone s p).mem = memClear s.mem (p * 2 ^ Config.paPkgBit) (2 ^ Config.paPkgBit) := by
  obtain ⟨n, he⟩ := evInitialisationDone_eq h
  have hpk : (evInitialisationDone s p).packages = (recordStart (readied s p) p).packages := by
    rw [he]
    simp
  have hmem : (evInitialisationDone s p).memories = (readied s p).memories := by
    rw [he, ← memories_recordStart (readied s p) p]
    simp
  exact ⟨(startOf_of_packages hpk p).trans ((startOf_recordStart ..).trans (startOf_readied s p)),
    (congrArg Prod.fst hmem).trans (mem_readied s p)⟩

/-! ### Heat (R431) -/

/-- A die as its sensor reads. -/
def sensed (temp : Byte) (x : Die) : Die :=
  { x with temp := temp.toNat, headroom := if 100 ≤ temp.toNat then 0 else x.headroom }

theorem evThermal_cool {s : State} {d : Nat} {temp : Byte} (h : temp.toNat < 110 ∨ 110 ≤ (s.die d).temp) :
    evThermal s d temp = s.modDie d (sensed temp) :=
  if_pos h

theorem temp_raise (s : State) (d k : Nat) (r : EvRec) : ((s.raise d r).die k).temp = (s.die k).temp := by
  unfold State.raise
  split
  · rfl
  · rw [State.post_die, State.die_modDie]
    split
    · subst_vars
      rfl
    · rfl

theorem thermal_raise (s : State) (d p : Nat) (r : EvRec) : ((s.raise d r).pkg p).thermal = (s.pkg p).thermal := by
  unfold State.raise
  split
  · rw [State.pkg_modPkg]
    split
    · subst_vars
      rfl
    · rfl
  · rfl

/-- The state of a die that has become hot, with its record. -/
def hotDie (s : State) (d : Nat) (temp : Byte) : State := (s.modDie d (sensed temp)).raise d { kind := 0x18, detail := temp.toNat }

theorem evThermal_hot {s : State} {d : Nat} {temp : Byte} (h : ¬ (temp.toNat < 110 ∨ 110 ≤ (s.die d).temp)) :
    evThermal s d temp = if ((hotDie s d temp).pkg (pkgOfDie d)).thermal then hotDie s d temp
      else ((hotDie s d temp).modPkg (pkgOfDie d) fun g => { g with thermal := true }).post (1000 * usClk)
        (.thermalPowerOff (pkgOfDie d)) :=
  if_neg h

/-- The sensor of a die is read, whatever follows from it. -/
theorem evThermal_temp (s : State) (d : Nat) (temp : Byte) : ((evThermal s d temp).die d).temp = temp.toNat := by
  have hsensed : ((s.modDie d (sensed temp)).die d).temp = temp.toNat := congrArg Die.temp (State.die_modDie_same ..)
  have hhot : ((hotDie s d temp).die d).temp = temp.toNat := (temp_raise ..).trans hsensed
  by_cases h : temp.toNat < 110 ∨ 110 ≤ (s.die d).temp
  · rw [evThermal_cool h, hsensed]
  · rw [evThermal_hot h]
    split
    · exact hhot
    · exact hhot

/-- A die that becomes hot has its package's power removed a millisecond later. -/
theorem evThermal_removesPower {s : State} {d : Nat} {temp : Byte} (ht : 110 ≤ temp.toNat) (hwas : (s.die d).temp < 110)
    (hp : (s.pkg (pkgOfDie d)).thermal = false) : ((evThermal s d temp).pkg (pkgOfDie d)).thermal = true ∧
      (s.clk + 1000 * 1200, .thermalPowerOff (pkgOfDie d)) ∈ (evThermal s d temp).agenda := by
  have hthermal : ((hotDie s d temp).pkg (pkgOfDie d)).thermal = false := (thermal_raise ..).trans hp
  have hclk : (hotDie s d temp).clk = s.clk := clk_raise ..
  have hdue := mem_agenda_posted ((hotDie s d temp).modPkg (pkgOfDie d) fun g => { g with thermal := true }) (1000 * usClk)
    (.thermalPowerOff (pkgOfDie d))
  rw [State.modPkg_clk, hclk] at hdue
  rw [evThermal_hot (by omega), hthermal, if_neg Bool.false_ne_true, State.post_pkg]
  exact ⟨congrArg Pkg.thermal (State.pkg_modPkg_same ..), hdue⟩

theorem pkg_evThermalPowerOff (s : State) (p : Nat) : (evThermalPowerOff s p).pkg p = { thermal := true } := by
  rw [State.pkg, evThermalPowerOff, kvGet_kvSet_same]

/-! ### The window of errors (R428) -/

/-- The counts of corrected errors are cleared. -/
theorem evErrorWindowExpiry_clears (s : State) (p k : Nat) : kvGet 0 ((evErrorWindowExpiry s p).pkg p).region k &&& 0xFF = 0 := by
  have hregion : ((evErrorWindowExpiry s p).pkg p).region =
      ((s.pkg p).region.map fun r => (r.1, r.2 &&& 0xFFFFFF00)).filter fun r => r.2 ≠ 0 := by
    rw [evErrorWindowExpiry, State.post_pkg, State.pkg_modPkg_same]
  rw [hregion]
  rcases kvGet_eq_or_mem 0 (((s.pkg p).region.map fun r => (r.1, r.2 &&& 0xFFFFFF00)).filter fun r => r.2 ≠ 0) k with h | h
  · rw [h]
    rfl
  · obtain ⟨r, -, hr⟩ := List.mem_map.1 (List.mem_filter.1 h).1
    obtain ⟨-, hv⟩ := Prod.mk.inj hr
    rw [← hv, BitVec.and_assoc]
    exact BitVec.and_zero

/-- The next window begins. -/
theorem evErrorWindowExpiry_again (s : State) (p : Nat) :
    (s.clk + (s.pkg p).errWindow * 1200000000, .errorWindowExpiry p) ∈ (evErrorWindowExpiry s p).agenda := by
  rw [show 1200000000 = 1000000 * usClk from rfl, ← Nat.mul_assoc]
  exact mem_agenda_posted ..

/-- Settles O58: each happening of start-up and of heat, and the window of errors. -/
theorem startUpAndHeat : Obligations.StartUpAndHeat := by
  refine ⟨fun p s hp => ?_, fun p s hp => ?_, fun p c s hp => ?_, fun p s hp => ?_, fun d temp s => ?_, fun p s => ?_,
    fun p k s => ?_⟩
  · exact happens_of_effect (e := .powerOn p) (evPowerOn_begins (s := { s with ev := none }) hp)
  · exact happens_of_effect (e := .powerPhaseDone p) (evPowerPhaseDone_begins (s := { s with ev := none }) hp)
  · refine happens_of_effect (e := .calibrationDone p c) ⟨fun hc => ?_, fun hc => ?_⟩
    · exact evCalibrationDone_none (s := { s with ev := none }) hp hc
    · obtain ⟨hpkg, hdie⟩ := evCalibrationDone_parts (s := { s with ev := none }) hp hc
      exact ⟨congrArg Pkg.phase hpkg, congrArg Pkg.dieOk hpkg, congrArg Pkg.brgOk hpkg,
        fun k hk => ⟨congrArg Die.ok (hdie k hk), congrArg Die.dead (hdie k hk)⟩⟩
  · obtain ⟨hstart, hmem⟩ := evInitialisationDone_readies (s := { s with ev := none }) hp
    obtain ⟨hphase, hready⟩ := Prod.ext_iff.1 hstart
    obtain ⟨hready, hclk⟩ := Prod.ext_iff.1 hready
    refine happens_of_effect (e := .initialisationDone p) ⟨hphase, hready, hclk, fun a hlo hhi => ?_⟩
    rw [barPa, Nat.add_zero] at hlo hhi
    rw [Nat.succ_mul] at hhi
    exact (congrArg (memGet · a) hmem).trans (memGet_memClear hlo hhi)
  · refine happens_of_effect (e := .thermal d temp) ⟨evThermal_temp { s with ev := none } d temp, fun ht hwas hp => ?_, fun ht => ?_⟩
    · exact evThermal_removesPower (s := { s with ev := none }) ht hwas hp
    · have he := evThermal_cool (s := { s with ev := none }) (d := d) (.inl ht)
      exact ⟨(congrArg State.agenda he :), (congrArg State.pkgs he :)⟩
  · exact happens_of_effect (e := .thermalPowerOff p) (pkg_evThermalPowerOff { s with ev := none } p)
  · exact happens_of_effect (e := .errorWindowExpiry p) ⟨evErrorWindowExpiry_clears { s with ev := none } p k, evErrorWindowExpiry_again { s with ev := none } p⟩

end Sys2Proof.Machine
end

