-- ==== Sys2Proof/Proofs/LaunchAndCounters.lean ====
section
/-! PROOFS. LAUNCH and its request to the dispatcher (R412), EVNT (R413) and PMC (R414) (O51). -/

namespace Sys2Proof.Machine

/-! ### LAUNCH (R412) -/

/-- A request to the dispatcher reads no memory on its way. -/
theorem memories_launchReq_launch {s : State} {id : Nat} (h : (s.req id).kind = .launch) : (launchReq s id).memories = s.memories := by
  unfold launchReq
  simp only [h, true_or, if_true]
  split <;> simp

/-- The request of a LAUNCH whose record is at `a`. -/
def launchOf (x : Ins) (t : Nat) (a : Dword) (p : Place) (id : Nat) (s : State) : Req :=
  { reqBase x s t .launch with
    va := a, cls := p.cls, pa := p.pa, size := 4, op := x.ifld 0 6, n := 1, tag := id, order := 0, scope := 5, all := true
    agent := servingDie s (coreOfThread t) (x.ifld 0 6) }

/-- The state in which the request of a LAUNCH is entered and its register is empty. -/
def launchEntered (x : Ins) (t : Nat) (a : Dword) (p : Place) (s : State) : State :=
  { s.fresh.2.emptyG t x.f.d.toNat s.nextId 1 with reqs := kvSet s.fresh.2.reqs s.nextId (launchOf x t a p s.nextId s.fresh.2) }

/-- The state in which the request of a LAUNCH is under way, or waits for the accesses before it. -/
def launchSent (x : Ins) (t : Nat) (a : Dword) (p : Place) (s : State) : State :=
  if mayGo (launchEntered x t a p s) s.nextId (launchOf x t a p s.nextId s.fresh.2)
  then launchReq (launchEntered x t a p s) s.nextId else launchEntered x t a p s

section
variable {x : Ins} {s : State} {t : Nat} {v : Vals} (hg : gather s x t = .vals v)
include hg

theorem launchThread_fault {e : Nat} (h : checkXlate s (coreOfThread t) (BitVec.ofNat 64 v.a) 64 1 = .fault e) :
    launchThread x t s = .fault e 1 (BitVec.ofNat 64 v.a) s := by
  simp only [launchThread, hg, h]

variable {p : Place} (h : checkXlate s (coreOfThread t) (BitVec.ofNat 64 v.a) 64 1 = .ok p)
include h

theorem launchThread_lineFault {e : Nat} (hl : lineFault s p.cls p.pa = some e) :
    launchThread x t s = .fault e 1 (BitVec.ofNat 64 v.a) (noteLine s e p) := by
  simp only [launchThread, hg, h, hl]

theorem launchThread_asks (hl : lineFault s p.cls p.pa = none) : launchThread x t s =
    .ok (launchSent x t (BitVec.ofNat 64 v.a) p (tlbTouch s (coreOfThread t) (BitVec.ofNat 64 v.a : Dword).toNat)) := by
  simp only [launchThread, hg, h, hl]
  rfl

end

theorem req_launchEntered (x : Ins) (t : Nat) (a : Dword) (p : Place) (s : State) :
    (launchEntered x t a p s).req s.nextId = launchOf x t a p s.nextId s.fresh.2 :=
  kvGet_kvSet_same ..

theorem greg_launchEntered (x : Ins) (t : Nat) (a : Dword) (p : Place) (s : State) (u k : Nat) : (launchEntered x t a p s).greg u k =
    if u = t ∧ x.f.d.toNat ≤ k ∧ k < x.f.d.toNat + 1 then { s.greg u k with full := false, tag := s.nextId } else s.greg u k :=
  greg_emptyG ..

theorem memories_launchEntered (x : Ins) (t : Nat) (a : Dword) (p : Place) (s : State) :
    (launchEntered x t a p s).memories = s.memories := by
  simp [launchEntered]

section
variable (x : Ins) (t : Nat) (a : Dword) (p : Place) (s : State)

theorem seats_launchSent : (launchSent x t a p s).seats = (launchEntered x t a p s).seats := by simp [launchSent]

theorem asked_launchSent (k : Nat) : (launchSent x t a p s).asked k = (launchEntered x t a p s).asked k := by simp [launchSent]

theorem memories_launchSent : (launchSent x t a p s).memories = s.memories := by
  unfold launchSent
  split
  · rw [memories_launchReq_launch (congrArg Req.kind (req_launchEntered x t a p s)), memories_launchEntered]
  · exact memories_launchEntered ..

/-- What a LAUNCH asks of the dispatcher. -/
theorem launchSent_asks : ((launchSent x t a p s).req s.nextId).kind = .launch ∧ ((launchSent x t a p s).req s.nextId).pa = p.pa ∧
    ((launchSent x t a p s).req s.nextId).op = x.ifld 0 6 := by
  have h : (launchSent x t a p s).asked s.nextId = _ :=
    (asked_launchSent ..).trans (congrArg Req.asked (req_launchEntered x t a p s))
  exact ⟨(congrArg Req.kind h :), (congrArg Req.pa h :), (congrArg Req.op h :)⟩

theorem greg_launchSent (u k : Nat) : (launchSent x t a p s).greg u k =
    if u = t ∧ x.f.d.toNat ≤ k ∧ k < x.f.d.toNat + 1 then { s.greg u k with full := false, tag := s.nextId } else s.greg u k :=
  (greg_of_seats (seats_launchSent x t a p s) u k).trans (greg_launchEntered ..)

end

/-- A LAUNCH whose checks pass. -/
theorem launch_asks {f : Long} {s : State} {t : Nat} {v : Vals} {p : Place} (ht : Turn s (Ins.ofBody .launch (.long f)) t)
    (hg : gather s (Ins.ofBody .launch (.long f)) t = .vals v)
    (h : checkXlate s (coreOfThread t) (BitVec.ofNat 64 v.a) 64 1 = .ok p) (hl : lineFault s p.cls p.pa = none) :
    ∃ s1 id, Passes (.launch f) (Ins.ofBody .launch (.long f)) t s s1 ∧ (s1.greg t f.d.toNat).full = false ∧
      (s1.greg t f.d.toNat).tag = id ∧ (s1.req id).kind = .launch ∧ (s1.req id).pa = p.pa ∧ (s1.req id).op = f.imm.toNat % 64 ∧
      s1.mem = s.mem ∧ ∀ u r, ¬ regs t f.d.toNat 1 u r → s1.greg u r = s.greg u r := by
  obtain ⟨cs, e⟩ := tlbTouch_cores s (coreOfThread t) (BitVec.ofNat 64 v.a : Dword).toNat
  have hok := launchThread_asks hg h hl
  rw [e] at hok
  generalize hs0 : ({ s with cores := cs } : State) = s0 at hok
  have hgreg : ∀ u r, s0.greg u r = s.greg u r := by
    rw [← hs0]
    exact fun _ _ => rfl
  have hmem : s0.mem = s.mem := by rw [← hs0]
  obtain ⟨hkind, hpa, hop⟩ := launchSent_asks (Ins.ofBody .launch (.long f)) t (BitVec.ofNat 64 v.a) p s0
  have hr := greg_launchSent (Ins.ofBody .launch (.long f)) t (BitVec.ofNat 64 v.a) p s0
  have hd := hr t f.d.toNat
  rw [if_pos ⟨rfl, Nat.le_refl _, Nat.lt_succ_self _⟩] at hd
  refine ⟨_, s0.nextId, passes_of_ok ht rfl hok, congrArg GReg.full hd, congrArg GReg.tag hd, hkind, hpa, hop.trans ?_,
    (congrArg Prod.fst (memories_launchSent ..)).trans hmem, fun u r hur => ?_⟩
  · rw [ifld_eq, Nat.pow_zero, Nat.div_one]
    rfl
  · exact (hr u r).trans ((if_neg hur).trans (hgreg u r))

/-! ### EVNT (R413) -/

section
variable {x : Ins} {s : State} {t : Nat} {v : Vals} (hg : gather s x t = .vals v)
include hg

theorem evntThread_waits (h : 256 ≤ (s.die (dieOfCore (coreOfThread t))).awaiting.length) : evntThread x t s = .stay .evnt s := by
  simp only [evntThread, hg]
  exact if_pos h

theorem evntThread_raises (h : (s.die (dieOfCore (coreOfThread t))).awaiting.length < 256) : evntThread x t s =
    .ok (s.raise (dieOfCore (coreOfThread t))
      { kind := 0x40, core := coreOfThread t % 128, slot := t % 32, asid := s.asidOf (coreOfThread t), detail := v.a
        addr := x.ifld 0 16 }) := by
  simp only [evntThread, hg]
  exact if_neg (Nat.not_le.2 h)

end

/-- A record that is raised awaits its writing on its die. -/
theorem awaiting_raise {s : State} {d : Nat} (r : EvRec) (h : (s.die d).awaiting.length < 256) : ((s.raise d r).die d).awaiting =
    (s.die d).awaiting ++ [{ r with pkg := pkgOfDie d, die := d % 16, clk := s.pkgClk (pkgOfDie d) }] := by
  rw [State.raise, if_neg (Nat.not_le.2 h), State.post_die, State.die_modDie_same]

/-- Settles O51: the checks of LAUNCH and its request, the record of EVNT, and the counter that PMC reads. -/
theorem launchEventAndCounters : Obligations.LaunchEventAndCounters := by
  refine ⟨fun f s t v => ?_, fun f s t v => ?_, fun f s t => ?_⟩
  · intro x c a ht hg
    refine ⟨fun e he => traps_of_fault ht rfl (launchThread_fault hg he), fun p hp => ⟨fun e he => ?_, fun hl => ?_⟩⟩
    · exact trapsOn_of_fault ht rfl (launchThread_lineFault hg hp he)
    · exact launch_asks ht hg hp hl
  · intro x c d ht hg
    refine ⟨fun h => ?_, fun h => lands_of_stay ht rfl (evntThread_waits hg h)⟩
    refine ⟨_, passes_of_ok ht rfl (evntThread_raises hg h), fun u r => greg_of_seats (seats_raise ..) u r, _, awaiting_raise _ h,
      rfl, rfl, rfl, rfl, rfl, rfl, rfl, ?_⟩
    exact (ifld_eq x 0 16).trans (by rw [Nat.pow_zero, Nat.div_one]; rfl)
  · intro x n c hu hd ht
    have hn : x.ifld 0 8 = n := (ifld_eq x 0 8).trans (by rw [Nat.pow_zero, Nat.div_one]; rfl)
    refine ⟨_, passes_of_ok (body := fun t s => .ok (putDest s x t 2 (pmcValue s (coreOfThread t) (x.ifld 0 8)) false (s.rdy 1))) ht rfl
      rfl, ?_⟩
    rw [putDest_registers (x := x) s t 2 _ _ hu (Nat.lt_succ_of_lt hd), hn]
    exact ⟨kept_setGs .., gpair_setGs ..⟩

end Sys2Proof.Machine
end

