-- ==== Sys2Proof/Proofs/RingQueries.lean ====
section
/-! PROOFS. RSTAT gives one word to every thread of its sub-run (R343), and MAPQ the place of an address (R349) (O50). -/

namespace Sys2Proof.Machine

/-! ### One pair of words for every thread of a sub-run -/

/-- The pair D of each thread of a sub-run, in the slots' turn. -/
def putPairs (x : Ins) (v : Nat) (ps : List Nat) (s : State) : State :=
  ps.zipIdx.foldl (fun s p => s.setGs p.1 x.f.d.toNat v (s.clk + p.2 + 6) 2) s

theorem gpair_putPairs (x : Ins) (v : Nat) (s : State) {ps : List Nat} {u : Nat} (hu : u ∈ ps) :
    (putPairs x v ps s).gpair u x.f.d.toNat = BitVec.ofNat 64 v := by
  refine foldl_zipIdx_each (Q := fun s => s.gpair u x.f.d.toNat = BitVec.ofNat 64 v) (fun s n => ?_) (fun s p hp hq => ?_) hu 0 s
  · exact gpair_setGs s u x.f.d.toNat v (s.clk + n + 6)
  · have hother : ∀ r, (s.setGs p.1 x.f.d.toNat v (s.clk + p.2 + 6) 2).greg u r = s.greg u r :=
      fun r => (kept_setGs ..).greg u r fun h => hp h.1.symm
    rwa [State.gpair, hother, hother]

theorem kept_putPairs (x : Ins) (v : Nat) (ps : List Nat) (s : State) :
    Kept s (putPairs x v ps s) (fun u r => u ∈ ps ∧ (r = x.f.d.toNat ∨ r = x.f.d.toNat + 1)) noReg noThread noReg := by
  refine kept_foldl _ _ _ fun s p hp => (kept_setGs s p.1 x.f.d.toNat v (s.clk + p.2 + 6) 2).mono
    (fun u r h => ⟨h.1 ▸ List.fst_mem_of_mem_zipIdx hp, ?_⟩) (fun _ _ h => h) (fun _ h => h) (fun _ _ h => h)
  obtain ⟨-, hlo, hhi⟩ := h
  omega

/-! ### RSTAT (R343) -/

/-- The word that RSTAT gives to a sub-run. -/
def rstatWord (x : Ins) (s : State) (ps : List Nat) : Nat :=
  let core := coreOfThread (ps.headD 0)
  if x.mb 0 then groupWord s (dieOfCore core) (s.asidOf core) (x.ifld 0 4)
  else match (s.die (dieOfCore core)).recs.find? fun r =>
      r.asid = s.asidOf core && r.group = x.ifld 0 4 && r.tag.toNat = x.ifld 16 16 with
    | some r => recWord (recNow s r)
    | none => 0

theorem rstat_eq (x : Ins) (s : State) : rstat x s = perSubrun x id noEnd (fun ps s => .ok (putPairs x (rstatWord x s ps) ps s)) s := rfl

/-! ### MAPQ (R349) -/

/-- The landing of a MAPQ that asks about the place `q`. -/
def mapqAsk (x : Ins) (t tag : Nat) (q : Place) (s : State) : Landing :=
  { thread := t, reg := x.f.d.toNat, n := 2, tag := tag, value := 0, epoch := (s.core (coreOfThread t)).epoch, req := 0
    mapq := some (q.cls, q.pa, q.limit) }

/-- The state in which the pair of a MAPQ is empty. -/
def mapqEmptied (x : Ins) (t : Nat) (s : State) : State := s.fresh.2.emptyG t x.f.d.toNat s.nextId 2

section
variable {x : Ins} {s : State} {t : Nat} {v : Vals} (hg : gather s x t = .vals v)
include hg

theorem mapqThread_badAddress (h : (mapqAddr x v).extractLsb' 56 8 ≠ 0) : mapqThread x t s = .fault 7 1 (mapqAddr x v) s := by
  simp only [mapqThread, hg, h, ne_eq, not_false_eq_true, if_true]

variable (h : (mapqAddr x v).extractLsb' 56 8 = 0)
include h

theorem mapqThread_fault {e : Nat} (he : placeOf s (coreOfThread t) (mapqAddr x v).toNat = .fault e) :
    mapqThread x t s = .fault e 1 (mapqAddr x v) s := by
  simp only [mapqThread, hg, h, ne_eq, not_true_eq_false, if_false, he]

theorem mapqThread_asks {q : Place} (hq : placeOf s (coreOfThread t) (mapqAddr x v).toNat = .ok q) : ∃ cs,
    mapqThread x t s = .ok (mapqLand (mapqEmptied x t { s with cores := cs }) (mapqAsk x t s.nextId q { s with cores := cs })) := by
  obtain ⟨cs, e⟩ := tlbTouch_cores s (coreOfThread t) (mapqAddr x v).toNat
  refine ⟨cs, ?_⟩
  simp only [mapqThread, hg, h, ne_eq, not_true_eq_false, if_false, hq, e]
  rfl

end

theorem noThreads_mapqEmptied (x : Ins) (t : Nat) (s : State) : (mapqEmptied x t s).noThreads = s.fresh.2.noThreads :=
  noThreads_emptyG ..

theorem greg_mapqEmptied (x : Ins) (t : Nat) (s : State) (u k : Nat) : (mapqEmptied x t s).greg u k =
    if u = t ∧ x.f.d.toNat ≤ k ∧ k < x.f.d.toNat + 2 then { s.greg u k with full := false, tag := s.nextId } else s.greg u k :=
  greg_emptyG ..

/-- A MAPQ whose checks pass. -/
theorem mapq_asks {f : Long} {s : State} {t : Nat} {v : Vals} {q : Place} (ht : Turn s (Ins.ofBody .mapq (.long f)) t)
    (hg : gather s (Ins.ofBody .mapq (.long f)) t = .vals v)
    (h : (mapqAddr (Ins.ofBody .mapq (.long f)) v).extractLsb' 56 8 = 0)
    (hq : placeOf s (coreOfThread t) (mapqAddr (Ins.ofBody .mapq (.long f)) v).toNat = .ok q) : ∃ s1 l,
      Passes (.mapq f) (Ins.ofBody .mapq (.long f)) t s s1 ∧ (s.clk + 8, .producerLanding l) ∈ s1.agenda ∧ l.thread = t ∧
      l.reg = f.d.toNat ∧ l.n = 2 ∧
      (∃ s2, l.value = BitVec.ofNat 128 (mapqWord s2 (dieOfCore (coreOfThread t)) q) ∧ s2.dies = s.dies ∧ s2.links = s.links ∧
        s2.domain = s.domain) ∧
      (∀ k < 2, (s1.greg t (f.d.toNat + k)).full = false ∧ (s1.greg t (f.d.toNat + k)).tag = l.tag) ∧
      ∀ u r, ¬ regs t f.d.toNat 2 u r → s1.greg u r = s.greg u r := by
  obtain ⟨cs, hok⟩ := mapqThread_asks hg h hq
  have hrest := noThreads_mapqEmptied (Ins.ofBody .mapq (.long f)) t { s with cores := cs }
  have hgreg := greg_mapqEmptied (Ins.ofBody .mapq (.long f)) t { s with cores := cs }
  generalize mapqEmptied (Ins.ofBody .mapq (.long f)) t { s with cores := cs } = s2 at hok hrest hgreg
  have hclk : s2.clk = s.clk := (congrArg State.clk hrest :)
  refine ⟨_, _, passes_of_ok ht rfl hok, hclk ▸ mem_agenda_posted .., rfl, rfl, rfl,
    ⟨s2, rfl, (congrArg State.dies hrest :), (congrArg State.links hrest :), (congrArg State.domain hrest :)⟩, fun k hk => ?_,
    fun u r hur => (hgreg u r).trans (if_neg hur)⟩
  have hd := (hgreg t (f.d.toNat + k)).trans (if_pos ⟨rfl, Nat.le_add_right _ _, Nat.add_lt_add_left hk _⟩)
  exact ⟨congrArg GReg.full hd, congrArg GReg.tag hd⟩

/-- Settles O50: the word of RSTAT for every thread, the checks of MAPQ and its landing. -/
theorem ringStatusAndMapQueries : Obligations.RingStatusAndMapQueries := by
  refine ⟨?_, ?_⟩
  · intro i x s ps hi hx hw core d asid g
    have he : exec i s = rstat x s := by
      obtain ⟨f, rfl⟩ | ⟨f, rfl⟩ := hi
      all_goals
        obtain rfl := Option.some.inj hx
        rfl
    refine ⟨_, passesAll_of_ok hw (he.trans (rstat_eq x s)) rfl, kept_putPairs x _ ps s, fun u hu => ?_⟩
    rw [gpair_putPairs x _ s hu, rstatWord]
    simp only [ifld_eq, Nat.pow_zero, Nat.div_one]
    rfl
  · intro f s t v x c addr ht hg
    refine ⟨fun h => traps_of_fault ht rfl (mapqThread_badAddress hg h), fun h => ⟨fun e he => ?_, fun q hq => mapq_asks ht hg h hq⟩⟩
    exact traps_of_fault ht rfl (mapqThread_fault hg h he)

end Sys2Proof.Machine
end

