-- ==== Sys2Proof/Proofs/Collectives.lean ====
section
/-! PROOFS. The checks and the issue of the collectives (R334, R341; O49). -/

namespace Sys2Proof.Machine

/-! ### The pages of an operation -/

section
variable {s : State} {p q : Op} (hcore : p.core = q.core) (hasid : p.asid = q.asid) (hlaunch : p.launch = q.launch)
  (hroot : p.root = q.root) (hwindow : p.window = q.window)
include hcore hasid hlaunch hroot hwindow

/-- Operations of the same cohort find the same places. -/
theorem engPlace_congr (va acc : Nat) : engPlace s p va acc = engPlace s q va acc := by
  unfold engPlace engXlate
  rw [hcore, hasid, hlaunch, hroot, hwindow]

theorem pagesOf_congr (acc fuel a n : Nat) : pagesOf s p acc fuel a n = pagesOf s q acc fuel a n := by
  induction fuel generalizing a n with
  | zero => rfl
  | succ fuel ih =>
    unfold pagesOf
    rw [engPlace_congr hcore hasid hlaunch hroot hwindow, hasid]
    simp only [ih]

theorem rangePages_congr (l : List (Nat × Nat × Nat)) : rangePages s p l = rangePages s q l := by
  induction l with
  | nil => rfl
  | cons r l ih =>
    unfold rangePages
    rw [pagesOf_congr hcore hasid hlaunch hroot hwindow, ih]

end

/-- Aligned addresses without high bits pass their check. -/
theorem addrFault_none {l : List (Dword × Nat)} (htop : ∀ a ∈ l, a.1.extractLsb' 56 8 = 0) (hal : ∀ a ∈ l, a.1.toNat % a.2 = 0) :
    addrFault l = none := by
  have h1 : (l.find? fun a => a.1.extractLsb' 56 8 ≠ 0) = none := List.find?_eq_none.2 fun a ha => by simpa using htop a ha
  have h2 : (l.find? fun a => a.1.toNat % a.2 ≠ 0) = none := List.find?_eq_none.2 fun a ha => by simpa using hal a ha
  simp only [addrFault, h1, h2]

/-! ### The operation of a collective -/

/-- The root of a broadcast. -/
def collRoot (x : Ins) : Nat := if x.o = .rbc then x.ifld 6 10 else 0

/-- The receiving end of a RHO. -/
def collRecv (x : Ins) : Bool := x.o = .rho && x.ib 7

/-- Where a rank's source is. -/
def collSrc (x : Ins) (v : Vals) : Dword := if collRecv x then 0 else BitVec.ofNat 64 v.a

/-- Where a rank's destination is. -/
def collDst (x : Ins) (s : State) (t : Nat) : Dword := if x.o = .rho && !collRecv x then 0 else dPair s x t

/-- The operation of a collective of a group that is bound as `b`. -/
def collOp (x : Ins) (s : State) (t : Nat) (v : Vals) (b : RingBind) : Op :=
  { opOf s t x.o 3 with
    group := x.ifld 0 4, tag := BitVec.ofNat 16 (x.ifld 16 16), p := b.ranks.length, ranks := b.ranks
    rank := b.ranks.findIdx (· = dieOfCore (coreOfThread t)), n := v.c, rootRank := collRoot x, version := BitVec.ofNat 16 b.version
    rop := if x.o = .rrs ∨ x.o = .rar then x.ifld 4 2 else 0, ty := x.f.t, src := collSrc x v, dst := collDst x s t
    prev := x.o = .rho && x.ib 6, recv := collRecv x, scope := x.scope, bar := if x.mb 6 then some (BitVec.ofNat 32 v.b) else none }

/-- The ranges of `ns` words read and `nd` words written. -/
def collRanges (src dst : Dword) (ns nd : Nat) : List (Nat × Nat × Nat) :=
  (if ns = 0 then [] else [(src.toNat, 4 * ns, 1)]) ++ if nd = 0 then [] else [(dst.toNat, 4 * nd, 2)]

/-- The operation as it is issued: for the joined part `i`, with its pages. -/
def collIssued (x : Ins) (s : State) (t : Nat) (v : Vals) (b : RingBind) (ts : List Trans) (i : RingInst) : Op :=
  { collOp x s t v b with trans := ts, total := 4 * (ringSizes (collOp x s t v b)).2, inst := i.id, doomed := i.failed }

/-- The record of a collective that is issued as operation `o`. -/
def collRec (x : Ins) (s : State) (t : Nat) (v : Vals) (b : RingBind) (o : Nat) : RingRec :=
  { asid := s.asidOf (coreOfThread t), group := x.ifld 0 4, tag := BitVec.ofNat 16 (x.ifld 16 16), kind := ringKind (collOp x s t v b)
    op := o }

/-- The state in which a collective has joined its peers. -/
def collJoined (x : Ins) (s : State) (t : Nat) (v : Vals) (b : RingBind) : RingInst × State :=
  joinInst s (dieOfCore (coreOfThread t)) (collOp x s t v b)

/-- The state in which a collective is issued, with its record. -/
def collState (x : Ins) (ps : List Nat) (s : State) (v : Vals) (b : RingBind) (ts : List Trans) : State :=
  newRec (issueOp (collJoined x s (ps.headD 0) v b).2 ps (collIssued x s (ps.headD 0) v b ts (collJoined x s (ps.headD 0) v b).1)).2
    (dieOfCore (coreOfThread (ps.headD 0)))
    (collRec x s (ps.headD 0) v b (collJoined x s (ps.headD 0) v b).2.nextId)

/-! ### The checks of a collective (R341) -/

/-- The number of words, or the root, is refused. -/
theorem collRefuses_iff {x : Ins} {v : Vals} (b : RingBind) (hl : v.lackC = false) :
    ((!v.lackC && (decide (v.c = 0) || decide (2 ^ 28 < v.c))) ||
      (decide (x.o = .rbc) && decide (b.ranks.length ≤ if x.o = .rbc then x.ifld 6 10 else 0))) = true ↔
    v.c = 0 ∨ 2 ^ 28 < v.c ∨ x.o = .rbc ∧ b.ranks.length ≤ collRoot x := by
  simp only [hl, collRoot, Bool.not_false, Bool.true_and, Bool.or_eq_true, Bool.and_eq_true, decide_eq_true_iff, or_assoc]

section
variable {x : Ins} {ps : List Nat} {s : State} {v : Vals}

theorem collBody_unbound
    (h : bindOf s (dieOfCore (coreOfThread (ps.headD 0))) (s.asidOf (coreOfThread (ps.headD 0))) (x.ifld 0 4) = none) :
    collBody x ps v s = .fault 25 0 0 s := by
  simp only [collBody, h]

variable {b : RingBind}
  (hb : bindOf s (dieOfCore (coreOfThread (ps.headD 0))) (s.asidOf (coreOfThread (ps.headD 0))) (x.ifld 0 4) = some b)
include hb

theorem collBody_tagUsed (h : ∃ e ∈ outTags s (dieOfCore (coreOfThread (ps.headD 0))) (s.asidOf (coreOfThread (ps.headD 0))) (x.ifld 0 4),
    e.2.tag = BitVec.ofNat 16 (x.ifld 16 16)) : collBody x ps v s = .fault 25 0 0 s := by
  obtain ⟨e, he, ht⟩ := h
  simp only [collBody, hb]
  exact if_pos (List.any_eq_true.2 ⟨e, he, decide_eq_true ht⟩)

theorem collBody_refused (hl : v.lackC = false)
    (h : v.c = 0 ∨ 2 ^ 28 < v.c ∨ x.o = .rbc ∧ b.ranks.length ≤ collRoot x) : collBody x ps v s = .fault 25 0 0 s := by
  simp only [collBody, hb]
  split
  · rfl
  · exact if_pos ((collRefuses_iff b hl).2 h)

variable (hfree : ∀ e ∈ outTags s (dieOfCore (coreOfThread (ps.headD 0))) (s.asidOf (coreOfThread (ps.headD 0))) (x.ifld 0 4),
    e.2.tag ≠ BitVec.ofNat 16 (x.ifld 16 16))
  (hl : v.lackC = false) (hc : 0 < v.c) (hc' : v.c ≤ 2 ^ 28) (hr : x.o = .rbc → collRoot x < b.ranks.length)
include hfree hl hc hc' hr

/-- A collective that is not refused waits for a tag and for its counter. -/
theorem collBody_accepted : collBody x ps v s =
    if counterFull s (ps.headD 0 / 32) 3 1 ∨
      64 ≤ (outTags s (dieOfCore (coreOfThread (ps.headD 0))) (s.asidOf (coreOfThread (ps.headD 0))) (x.ifld 0 4)).length
    then .stay (.tags (x.ifld 0 4)) s
    else match addrFault [(collSrc x v, 4), (collDst x s (ps.headD 0), 4)] with
      | some (c, acc, a) => .fault c acc a s
      | none => match rangePages s (collOp x s (ps.headD 0) v b) (collRanges (collSrc x v) (collDst x s (ps.headD 0))
          (ringSizes (collOp x s (ps.headD 0) v b)).1 (ringSizes (collOp x s (ps.headD 0) v b)).2) with
        | .inl (c, acc, a) => .fault c acc (BitVec.ofNat 64 a) s
        | .inr ts => if x.mb 6 && !v.lackB && !live s (BitVec.ofNat 32 v.b) (s.asidOf (coreOfThread (ps.headD 0))) then .fault 19 0 0 s
          else .ok (collState x ps s v b ts) := by
  have hused : ¬ (outTags s (dieOfCore (coreOfThread (ps.headD 0))) (s.asidOf (coreOfThread (ps.headD 0))) (x.ifld 0 4)).any
      (fun o => o.2.tag = BitVec.ofNat 16 (x.ifld 16 16)) = true := fun h => by
    obtain ⟨e, he, ht⟩ := List.any_eq_true.1 h
    exact hfree e he (of_decide_eq_true ht)
  have hsize := mt (collRefuses_iff (x := x) b hl).1 fun h => by
    rcases h with h | h | ⟨ho, h⟩
    · omega
    · omega
    · exact absurd (hr ho) (Nat.not_lt.2 h)
  unfold collBody
  simp only [hb]
  rw [if_neg hused, if_neg hsize]
  simp only [hl]
  rfl

end

/-! ### The issue of a collective -/

/-- A part joins its peers: the joined parts and the next number change alone. -/
theorem joinInst_state (s : State) (d : Nat) (p : Op) : ∃ l n, (joinInst s d p).2 = { s with insts := l, nextId := n } := by
  unfold joinInst
  dsimp only
  split
  · exact ⟨_, _, rfl⟩
  · exact ⟨_, _, rfl⟩

/-- A new record is kept among those of its die. -/
theorem mem_recs_newRec (s : State) (d : Nat) (r : RingRec) : r ∈ ((newRec s d r).die d).recs := by
  rw [newRec, State.die_modDie_same]
  exact List.mem_append_right _ (List.mem_singleton.2 rfl)

/-- A change of a die leaves an operation as it was issued. -/
theorem Issued.modDie {s s1 : State} {t cls o : Nat} (h : Issued s s1 t cls o) (d : Nat) (f : Die → Die) :
    Issued s (s1.modDie d f) t cls o :=
  ⟨h.thread, h.ofClass, h.asid, h.outstanding, h.enters, h.counter, h.greg, h.mem, h.cellar⟩

/-- What is issued after the joining of its peers is issued. -/
theorem Issued.ofJoined {s j s1 : State} {t cls o : Nat} (hj : ∃ l n, j = { s with insts := l, nextId := n }) (h : Issued j s1 t cls o) :
    Issued s s1 t cls o := by
  obtain ⟨l, n, rfl⟩ := hj
  exact ⟨h.thread, h.ofClass, h.asid, h.outstanding, h.enters, h.counter, h.greg, h.mem, h.cellar⟩

section
variable (x : Ins) (ps : List Nat) (s : State) (v : Vals) (b : RingBind) (ts : List Trans)

/-- The number of a collective's operation. -/
def collId : Nat := (collJoined x s (ps.headD 0) v b).2.nextId

theorem issued_collState : Issued s (collState x ps s v b ts) (ps.headD 0) 3 (collId x ps s v b) := by
  have hj := joinInst_state s (dieOfCore (coreOfThread (ps.headD 0))) (collOp x s (ps.headD 0) v b)
  have hof : (collIssued x s (ps.headD 0) v b ts (collJoined x s (ps.headD 0) v b).1).Of (collJoined x s (ps.headD 0) v b).2
      (ps.headD 0) 3 := by
    obtain ⟨l, n, e⟩ := hj
    refine ⟨rfl, rfl, rfl, ?_, rfl⟩
    rw [collJoined, e]
    rfl
  rw [collState, newRec]
  exact ((hof.issued ps).ofJoined hj).modDie _ _

theorem op_collState : ∃ after, (collState x ps s v b ts).op (collId x ps s v b) =
    { collIssued x s (ps.headD 0) v b ts (collJoined x s (ps.headD 0) v b).1 with after := after } :=
  ⟨_, op_issueOp ..⟩

theorem rec_collState : collRec x s (ps.headD 0) v b (collId x ps s v b) ∈
    ((collState x ps s v b ts).die (dieOfCore (coreOfThread (ps.headD 0)))).recs :=
  mem_recs_newRec ..

end

/-- The tag field. -/
theorem ofNat_ifld_tag (x : Ins) : BitVec.ofNat 16 (x.ifld 16 16) = x.f.imm.extractLsb' 16 16 := by
  refine BitVec.eq_of_toNat_eq ?_
  rw [BitVec.toNat_ofNat, BitVec.extractLsb'_toNat, Ins.ifld, Nat.mod_mod]

section
variable {x : Ins} {ps : List Nat} {s : State} {v : Vals} {b : RingBind}
  (hb : bindOf s (dieOfCore (coreOfThread (ps.headD 0))) (s.asidOf (coreOfThread (ps.headD 0))) (x.ifld 0 4) = some b)
  (hfree : ∀ e ∈ outTags s (dieOfCore (coreOfThread (ps.headD 0))) (s.asidOf (coreOfThread (ps.headD 0))) (x.ifld 0 4),
    e.2.tag ≠ BitVec.ofNat 16 (x.ifld 16 16))
  (hlC : v.lackC = false) (hc : 0 < v.c) (hc' : v.c ≤ 2 ^ 28) (hr : x.o = .rbc → collRoot x < b.ranks.length)
include hb hfree hlC hc hc' hr

theorem collBody_waits (h : 63 ≤ counter s (ps.headD 0 / 32) 3 ∨
    64 ≤ (outTags s (dieOfCore (coreOfThread (ps.headD 0))) (s.asidOf (coreOfThread (ps.headD 0))) (x.ifld 0 4)).length) :
    collBody x ps v s = .stay (.tags (x.ifld 0 4)) s := by
  rw [collBody_accepted hb hfree hlC hc hc' hr]
  exact if_pos (h.imp_left fun h => decide_eq_true (Nat.lt_succ_of_le h))

theorem collBody_issues {ts : List Trans} (hcnt : counter s (ps.headD 0 / 32) 3 < 63)
    (htags : (outTags s (dieOfCore (coreOfThread (ps.headD 0))) (s.asidOf (coreOfThread (ps.headD 0))) (x.ifld 0 4)).length < 64)
    (hsrc : (collSrc x v).extractLsb' 56 8 = 0) (hdst : (collDst x s (ps.headD 0)).extractLsb' 56 8 = 0)
    (hsrc4 : (collSrc x v).toNat % 4 = 0) (hdst4 : (collDst x s (ps.headD 0)).toNat % 4 = 0)
    (hp : rangePages s (opOf s (ps.headD 0) x.o 3) (collRanges (collSrc x v) (collDst x s (ps.headD 0))
      (ringSizes (collOp x s (ps.headD 0) v b)).1 (ringSizes (collOp x s (ps.headD 0) v b)).2) = .inr ts)
    (hlive : x.mb 6 = true → live s (BitVec.ofNat 32 v.b) (s.asidOf (coreOfThread (ps.headD 0))) = true) :
    collBody x ps v s = .ok (collState x ps s v b ts) := by
  have hroom : ¬ (counterFull s (ps.headD 0 / 32) 3 1 = true ∨
      64 ≤ (outTags s (dieOfCore (coreOfThread (ps.headD 0))) (s.asidOf (coreOfThread (ps.headD 0))) (x.ifld 0 4)).length) := by
    rintro (h | h)
    · have : 63 < counter s (ps.headD 0 / 32) 3 + 1 := of_decide_eq_true h
      omega
    · omega
  have haddr : addrFault [(collSrc x v, 4), (collDst x s (ps.headD 0), 4)] = none :=
    addrFault_none (List.forall_mem_cons.2 ⟨hsrc, List.forall_mem_singleton.2 hdst⟩)
      (List.forall_mem_cons.2 ⟨hsrc4, List.forall_mem_singleton.2 hdst4⟩)
  have hpages := (rangePages_congr (p := collOp x s (ps.headD 0) v b) (q := opOf s (ps.headD 0) x.o 3) rfl rfl rfl rfl rfl _).trans hp
  have hbar : ¬ (x.mb 6 && !v.lackB && !live s (BitVec.ofNat 32 v.b) (s.asidOf (coreOfThread (ps.headD 0)))) = true := by
    intro h
    rw [Bool.and_eq_true, Bool.and_eq_true] at h
    obtain ⟨⟨hm, -⟩, hdead⟩ := h
    rw [hlive hm] at hdead
    exact Bool.false_ne_true hdead
  rw [collBody_accepted hb hfree hlC hc hc' hr, if_neg hroom, haddr]
  simp only [hpages]
  exact if_neg hbar

end

/-- The words of a collective's source and destination, by its kind (Table 16-2). -/
theorem ringSizes_collOp (x : Ins) (s : State) (t : Nat) (v : Vals) (b : RingBind)
    (ho : x.o = .rrs ∨ x.o = .rag ∨ x.o = .rar ∨ x.o = .rbc ∨ x.o = .rho) : ringSizes (collOp x s t v b) =
      (if x.o = .rrs then b.ranks.length * v.c
        else if x.o = .rbc ∧ b.ranks.findIdx (· = dieOfCore (coreOfThread t)) ≠ collRoot x then 0
        else if x.o = .rho ∧ x.ib 7 = true then 0 else v.c,
       if x.o = .rag then b.ranks.length * v.c else if x.o = .rho ∧ ¬ (x.o = .rho ∧ x.ib 7 = true) then 0 else v.c) := by
  have hkind : (collOp x s t v b).kind = x.o := rfl
  unfold ringSizes
  rw [hkind]
  rcases ho with ho | ho | ho | ho | ho
  · simp [ho, collOp]
  · simp [ho, collOp]
  · simp [ho, collOp]
  · by_cases h : b.ranks.findIdx (· = dieOfCore (coreOfThread t)) = collRoot x
    · simp [ho, collOp, h]
    · simp [ho, collOp, h]
  · cases h : x.ib 7
    · simp [ho, collOp, collRecv, h]
    · simp [ho, collOp, collRecv, h]

theorem collSrc_eq (x : Ins) (v : Vals) : collSrc x v = if x.o = .rho ∧ x.ib 7 = true then 0 else BitVec.ofNat 64 v.a := by
  simp [collSrc, collRecv]

theorem collDst_eq (x : Ins) (s : State) (t : Nat) :
    collDst x s t = if x.o = .rho ∧ x.ib 7 = false then 0 else BitVec.ofNat 64 (gNum s t x.f.d.toNat 2) := by
  by_cases ho : x.o = .rho
  · simp [collDst, collRecv, ho, dPair]
  · simp [collDst, ho, dPair]

/-- Settles O49: a collective is refused, waits or is issued with its record. -/
theorem collectivesAreIssued : Obligations.CollectivesAreIssued := by
  intro f o i s ps v hi x t core d asid g tag root outs recv src dst hw hg
  have hlC := lackC_of_vals hg
  have he : exec i s = perSubrun x id noEnd (collSub x) s := by
    obtain ⟨rfl, rfl⟩ | ⟨rfl, rfl⟩ | ⟨rfl, rfl⟩ | ⟨rfl, rfl⟩ | ⟨rfl, rfl | rfl⟩ := hi
    all_goals rfl
  have hkind : x.o = .rrs ∨ x.o = .rag ∨ x.o = .rar ∨ x.o = .rbc ∨ x.o = .rho := by
    obtain ⟨h, -⟩ | ⟨h, -⟩ | ⟨h, -⟩ | ⟨h, -⟩ | ⟨h, -⟩ := hi
    all_goals simp [x, h, Ins.ofBody]
  have hsub : collSub x ps s = collBody x ps v s := by
    rw [collSub, show gather s x (ps.headD 0) = .vals v from hg]
  have htag : BitVec.ofNat 16 (x.ifld 16 16) = tag := ofNat_ifld_tag x
  have hroot : x.o = .rbc → collRoot x = root := fun h => (if_pos h).trans (ifld_eq x 6 10)
  have hgroup : x.ifld 0 4 = g := rfl
  refine ⟨fun h => traps_of_subFault hw he (hsub.trans ?_), fun b hb hfree hc hc' => ?_⟩
  · cases hb : bindOf s d asid g with
    | none => exact collBody_unbound hb
    | some b =>
      rcases h with h | h | h | h
      · exact nomatch hb.symm.trans h
      · exact collBody_tagUsed hb (htag.symm ▸ h)
      · exact collBody_refused hb hlC (.inl h)
      · exact collBody_refused hb hlC (.inr (.inl h))
  intro rank ns nd
  have hfree' : ∀ e ∈ outs, e.2.tag ≠ BitVec.ofNat 16 (x.ifld 16 16) := htag.symm ▸ hfree
  have hroot' : (o = .rbc → root < b.ranks.length) → x.o = .rbc → collRoot x < b.ranks.length := fun h ho => hroot ho ▸ h ho
  refine ⟨fun ho hlen => ?_, fun hr hfull => ?_, fun hr hcnt htags hsrc hdst hsrc4 hdst4 ts hts hlive => ?_⟩
  · exact traps_of_subFault hw he (hsub.trans (collBody_refused hb hlC (.inr (.inr ⟨ho, hroot ho ▸ hlen⟩))))
  · have hstay := collBody_waits hb hfree' hlC hc hc' (hroot' hr) hfull
    obtain ⟨s', hrun, hsame, hheld⟩ := runs_of_stay hw he (hsub.trans hstay)
    exact ⟨s', hrun, hheld, (congrArg State.ops hsame.rest :), hsame.mem⟩
  · have hs : collSrc x v = src := collSrc_eq x v
    have hd : collDst x s t = dst := collDst_eq x s t
    have hsizes : ringSizes (collOp x s t v b) = (ns, nd) := by
      rw [ringSizes_collOp x s t v b hkind]
      by_cases ho : x.o = .rbc
      · rw [hroot ho]
        rfl
      · simp only [ho, false_and, if_false]
        have ho' : ¬ o = .rbc := ho
        simp only [ns, nd, ho', false_and, if_false]
        rfl
    have hok := collBody_issues (ts := ts) hb hfree' hlC hc hc' (hroot' hr) hcnt htags (hs.symm ▸ hsrc) (hd.symm ▸ hdst) (hs.symm ▸ hsrc4)
      (hd.symm ▸ hdst4) (by rw [hsizes, hs, hd]; exact hts) hlive
    obtain ⟨after, hop⟩ := op_collState x ps s v b ts
    refine ⟨collState x ps s v b ts, collId x ps s v b, passesAll_of_ok hw he (hsub.trans hok), issued_collState x ps s v b ts, ?_⟩
    rw [hop]
    exact ⟨rfl, rfl, htag, rfl, rfl, rfl, hs, hd, _, rec_collState x ps s v b ts, rfl, rfl, htag, rfl, rfl⟩

end Sys2Proof.Machine
end

