-- ==== Sys2Proof/Proofs/SaveAndRestore.lean ====
section
/-! PROOFS. The translation removal, the save and the restore of a cohort (O53). -/

namespace Sys2Proof.Machine

/-! ### An answer in the register of D -/

/-- The threads `ps` are given the word `n` in D. -/
def answered (x : Ins) (ps : List Nat) (n : Nat) (s : State) : State :=
  ps.foldl (fun s u => putDest s x u 1 n false (s.rdy 1)) s

theorem answered_each {x : Ins} {ps : List Nat} {u : Nat} (n : Nat) (s : State) (hu : x.f.u = false) (hd : x.f.d.toNat < 240) (hm : u ∈ ps) :
    ((answered x ps n s).greg u x.f.d.toNat).v = BitVec.ofNat 32 n := by
  have hput (s : State) (t rdy : Nat) : putDest s x t 1 n false rdy = s.setGs t x.f.d.toNat n rdy 1 := putDest_registers s t 1 n rdy hu hd
  unfold answered
  rw [← List.zipIdx_map_fst 0 ps, List.foldl_map]
  refine foldl_zipIdx_each (Q := fun s => (s.greg u x.f.d.toNat).v = BitVec.ofNat 32 n) (fun s _ => ?_) (fun s p hp hq => ?_) hm 0 s
  · rw [hput]
    simpa using (greg_setGs s u x.f.d.toNat n (s.rdy 1) 1 0 (by omega)).1
  · rw [hput, (kept_setGs ..).greg u _ fun e => hp e.1.symm]
    exact hq

/-! ### ATCI (R384) -/

/-- Nothing that stands in the agenda of `s` is missing in that of `s'`, which is of the same clk. -/
def Posts (s s' : State) : Prop := s'.clk = s.clk ∧ ∀ e ∈ s.agenda, e ∈ s'.agenda

theorem Posts.of_eq {s s' : State} (hc : s'.clk = s.clk) (ha : s'.agenda = s.agenda) : Posts s s' := ⟨hc, fun _ h => ha ▸ h⟩

theorem Posts.trans {s s1 s2 : State} (h : Posts s s1) (h' : Posts s1 s2) : Posts s s2 :=
  ⟨h'.1.trans h.1, fun e he => h'.2 e (h.2 e he)⟩

theorem posts_post (s : State) (d : Nat) (e : Ev) : Posts s (s.post d e) := ⟨rfl, fun _ h => mem_agendaInsert_of_mem h⟩

theorem posts_pumpDir (s : State) (dir : Nat) : Posts s (pumpDir s dir) := by
  fun_cases pumpDir s dir
  case case4 => exact posts_post ..
  case case6 | case7 =>
    refine Posts.trans ?_ (posts_post ..)
    next heq s1 _ =>
      obtain ⟨-, rfl⟩ := Prod.mk.inj heq
      exact .of_eq rfl rfl
  all_goals exact .of_eq rfl rfl

theorem posts_pumpLink (s : State) (l : Nat) : Posts s (pumpLink s l) := by
  unfold pumpLink
  split
  · exact .of_eq rfl rfl
  · exact posts_post ..

theorem posts_forward (s : State) (id : Nat) (passing : Bool) : Posts s (forward s id passing) := by
  fun_cases forward s id passing
  case case2 => exact Posts.trans (s1 := { s with msgs := kvDel s.msgs id }) (.of_eq rfl rfl) (posts_post ..)
  case case4 => exact Posts.trans (s1 := s.modLink _ _) (.of_eq rfl rfl) (posts_pumpLink ..)
  case case6 late s' =>
    have hs : Posts s s' := by
      by_cases h : late
      · exact .of_eq (by simp only [s', if_pos h]) (by simp only [s', if_pos h])
      · exact .of_eq (by simp only [s', if_neg h]) (by simp only [s', if_neg h])
    exact (hs.trans (s1 := s') (s2 := s'.modDir _ _) (.of_eq rfl rfl)).trans (posts_pumpDir ..)
  all_goals exact .of_eq rfl rfl

theorem posts_sendReq (s : State) (src dst : Nat) (e : Ev) : Posts s (sendReq s src dst e) := by
  unfold sendReq send
  split
  · exact posts_post ..
  · exact Posts.trans (s1 := { s.fresh.2 with msgs := _ }) (.of_eq rfl rfl) (posts_forward ..)

/-- The die `d` asks die `e` to remove the translations that `a` names. -/
def askDie (a : AtciReq) (d : Nat) (s : State) (e : Nat) : State :=
  if e = d then s.post 0 (.atciRemoval a e) else sendReq s d e (.atciRemoval a e)

theorem posts_askDie (a : AtciReq) (d : Nat) (s : State) (e : Nat) : Posts s (askDie a d s e) := by
  unfold askDie
  split
  · exact posts_post ..
  · exact posts_sendReq ..

theorem askDie_own (a : AtciReq) (d : Nat) (s : State) : (s.clk, .atciRemoval a d) ∈ (askDie a d s d).agenda := by
  rw [askDie, if_pos rfl]
  exact mem_agenda_post ..

/-- The die `d` asks each die of `ds`. -/
def askRemoval (a : AtciReq) (d : Nat) (ds : List Nat) (s : State) : State := ds.foldl (askDie a d) s

section
variable (a : AtciReq) (d : Nat) (ds : List Nat) (s : State)

theorem posts_askRemoval : Posts s (askRemoval a d ds s) := by
  induction ds generalizing s with
  | nil => exact .of_eq rfl rfl
  | cons e ds ih => exact (posts_askDie ..).trans (ih _)

/-- The issuing die is asked where it is among them. -/
theorem asks_own (h : d ∈ ds) : (s.clk, .atciRemoval a d) ∈ (askRemoval a d ds s).agenda := by
  induction ds generalizing s with
  | nil => cases h
  | cons e ds ih =>
    by_cases he : e = d
    · subst he
      exact (posts_askRemoval a e ds (askDie a e s e)).2 _ (askDie_own a e s)
    · exact (posts_askDie a d s e).1 ▸ ih (askDie a d s e) ((List.mem_cons.1 h).resolve_left fun c => he c.symm)

theorem seats_askRemoval : (askRemoval a d ds s).seats = s.seats := by
  simp [askRemoval, askDie]

theorem memories_askRemoval : (askRemoval a d ds s).memories = s.memories := by
  simp [askRemoval, askDie]

end

/-- A die is in each scope that is below the domain, and in the domain's where its package is. -/
theorem mem_scopeDies {s : State} {d scope : Nat} (h : scope ≤ 3 ∨ pkgOfDie d ∈ s.domain) : d ∈ scopeDies s d scope := by
  have hd : 16 * (d / 16) + d % 16 = d := Nat.div_add_mod d 16
  have hk : d % 16 ∈ List.range 16 := List.mem_range.2 (Nat.mod_lt _ (by omega))
  unfold scopeDies
  split
  · exact List.mem_singleton_self d
  split
  · exact List.mem_map.2 ⟨d % 16, hk, by omega⟩
  · exact List.mem_flatMap.2 ⟨d / 16, h.resolve_left (by omega), List.mem_map.2 ⟨d % 16, hk, hd⟩⟩

/-- The dies that an ATCI of a thread of die `d` asks. -/
def removalDies (s : State) (d scope : Nat) : List Nat := (scopeDies s d scope).filter fun e => e = d || (unreach s d e).isNone

/-- What the ATCI `x` with operands `v` of thread `t`, whose request is `id`, asks for. -/
def removalOf (x : Ins) (v : Vals) (t id : Nat) : AtciReq :=
  { id := id, thread := t, kind := (x.f.m &&& 3).toNat, size := x.ifld 0 2, va := BitVec.ofNat 64 v.a,
    asid := BitVec.ofNat 12 v.b, home := x.mb 2, pa := v.c, since := 0 }

/-- The request of the ATCI `x` with operands `v` of thread `t`. -/
def removalEntry (x : Ins) (v : Vals) (t : Nat) (s : State) : Req :=
  { reqBase x s.fresh.2 t .flsh with
    stage := 1, n := (removalDies s (dieOfCore (coreOfThread t)) x.scope).length, order := 0, cls := 0, pa := v.c, op := (x.mb 2).toNat,
    size := x.ifld 0 2 }

/-- The ATCI `x` has its request, and the dies of its scope are asked. -/
def removalAsked (x : Ins) (v : Vals) (t : Nat) (s : State) : State :=
  askRemoval (removalOf x v t s.nextId) (dieOfCore (coreOfThread t)) (removalDies s (dieOfCore (coreOfThread t)) x.scope)
    { s.fresh.2 with reqs := kvSet s.fresh.2.reqs s.nextId (removalEntry x v t s) }

theorem atciFault_ok {x : Ins} {v : Vals} {s : State} (ha : (x.f.m &&& 3).toNat = 0 → v.a % atciBytes (x.ifld 0 2) = 0)
    (hc : x.mb 2 = true → v.c % atciBytes (x.ifld 0 2) = 0) : atciFault x v s = .ok s := by
  unfold atciFault
  rw [if_neg fun h => h.2 (ha h.1), if_neg fun h => h.2 (hc h.1)]

theorem kind_eq (f : Long) : ((Ins.ofBody .atci (.long f)).f.m &&& 3).toNat = f.m.toNat % 4 := by
  show (f.m &&& 3).toNat = _
  rw [BitVec.toNat_and]
  exact Nat.and_two_pow_sub_one_eq_mod f.m.toNat 2

section
variable {x : Ins} {ps : List Nat} {s : State} {v : Vals}

theorem atciSub_asks (hg : gather s x (ps.headD 0) = .vals v) (hf : atciFault x v s = .ok s) :
    atciSub x ps s = .held (ps.foldl (fun s' u => s'.hold u (.reply s.nextId)) (removalAsked x v (ps.headD 0) s)) := by
  simp only [atciSub, hg, hf]
  rfl

/-- The operands of an ATCI are aligned as R384 asks. -/
theorem atciFault_aligned {f : Long} {s : State} (ha : f.m.toNat % 4 = 0 → v.a % atciBytes (f.imm.toNat % 4) = 0)
    (hc : (Ins.ofBody .atci (.long f)).mb 2 = true → v.c % atciBytes (f.imm.toNat % 4) = 0) :
    atciFault (Ins.ofBody .atci (.long f)) v s = .ok s :=
  atciFault_ok (fun h => ha (kind_eq f ▸ h)) hc

end

/-! ### CTXS (R397) -/

section
variable (s : State) (c : Nat) (g : Core → Core)

theorem walkFrom_modCore (die asid va table : Nat) (l : List (Nat × Nat)) :
    walkFrom (s.modCore c g) die asid va table l = walkFrom s die asid va table l := by
  induction l generalizing table with
  | nil => rfl
  | cons lv l ih =>
    simp only [walkFrom, ih]
    rfl

theorem xlateNow_modCore (die asid root launch window va acc : Nat) :
    xlateNow (s.modCore c g) die asid root launch window va acc = xlateNow s die asid root launch window va acc := by
  unfold xlateNow walk
  rw [walkFrom_modCore]
  rfl

/-- A change of a core that keeps its cohort leaves what a save area can use. -/
theorem areaOk_modCore (hg : ∀ k, (g k).cohort = k.cohort) (va n acc : Nat) :
    areaOk (s.modCore c g) c va n acc = areaOk s c va n acc := by
  have hc : (s.modCore c g).cohort c = s.cohort c := by
    simp only [State.cohort, State.core_modCore_same, hg]
  have hp (a : Nat) : areaPlace (s.modCore c g) c a acc = areaPlace s c a acc := by
    unfold areaPlace
    simp only [hc, xlateNow_modCore]
    rfl
  simp only [areaOk, hp]

end

/-- The state in which a CTXS checks its area: one in the handler of a PE stop has ended the stop (R396). -/
def saveChecks (s : State) (t : Nat) : State :=
  if (s.warp (t / 32)).handler.any fun h => h.cause = 35 then s.modCore (coreOfThread t) fun k => { k with peStop := false } else s

theorem saving_saveChecks (s : State) (t c : Nat) : ((saveChecks s t).core c).saving = (s.core c).saving := by
  unfold saveChecks
  split
  · rw [State.core_modCore]
    split <;> simp [*]
  · rfl

theorem areaOk_saveChecks (s : State) (t va n acc : Nat) :
    areaOk (saveChecks s t) (coreOfThread t) va n acc = areaOk s (coreOfThread t) va n acc := by
  unfold saveChecks
  by_cases h : ((s.warp (t / 32)).handler.any fun h => h.cause = 35) = true
  · rw [if_pos h]
    exact areaOk_modCore s _ (fun k => { k with peStop := false }) (fun _ => rfl) va n acc
  · rw [if_neg h]

theorem seats_saveChecks (s : State) (t : Nat) : (saveChecks s t).seats = s.seats := by
  unfold saveChecks
  split <;> rfl

theorem mem_saveChecks (s : State) (t : Nat) : (saveChecks s t).mem = s.mem := by
  unfold saveChecks
  split <;> rfl

/-- The save that the CTXS `x` of thread `t` begins. -/
def saveOf (x : Ins) (ps : List Nat) (v : Vals) : Save :=
  { area := BitVec.ofNat 64 v.a, warp := ps.headD 0 / 32, threads := ps, reg := x.f.d.toNat, size := x.size }

/-- A core whose save begins: the operations of its cohort of the slot classes are held. -/
def saveBegun (c : Nat) (sv : Save) (s : State) : State :=
  (cohortOps (s.modCore c fun k => { k with saving := some sv }) c).foldl
    (fun s o => s.modOp o fun p => if slotClass p.cls then { p with held := true } else p)
    (s.modCore c fun k => { k with saving := some sv })

/-- Whatever holds the operations `l`, only they are changed. -/
theorem rest_modOps (g : Op → Op) (l : List Nat) (s : State) :
    { l.foldl (fun s o => s.modOp o g) s with ops := [] } = { s with ops := [] } := by
  induction l generalizing s with
  | nil => rfl
  | cons o l ih => exact ih _

theorem rest_saveBegun (c : Nat) (sv : Save) (s : State) :
    { saveBegun c sv s with ops := [] } = { s.modCore c fun k => { k with saving := some sv } with ops := [] } :=
  rest_modOps ..

theorem saving_saveBegun (c : Nat) (sv : Save) (s : State) : ((saveBegun c sv s).core c).saving = some sv := by
  have h : (saveBegun c sv s).cores = (s.modCore c fun k => { k with saving := some sv }).cores :=
    (congrArg State.cores (rest_saveBegun c sv s) :)
  rw [State.core, h]
  exact congrArg Core.saving (State.core_modCore_same ..)

theorem seats_saveBegun (c : Nat) (sv : Save) (s : State) : (saveBegun c sv s).seats = s.seats :=
  (congrArg State.seats (rest_saveBegun c sv s) :)

theorem mem_saveBegun (c : Nat) (sv : Save) (s : State) : (saveBegun c sv s).mem = s.mem :=
  (congrArg State.mem (rest_saveBegun c sv s) :)

section
variable {x : Ins} {ps : List Nat} {s : State} {v : Vals} (hg : gather s x (ps.headD 0) = .vals v)
  (hs : (s.core (coreOfThread (ps.headD 0))).saving = none)
include hg hs

theorem ctxsSub_eq : ctxsSub x ps s =
    (let c := coreOfThread (ps.headD 0)
     let h := s.cohort c
     let s' := saveChecks s (ps.headD 0)
     if v.a % 4096 ≠ 0 then .ok (answered x ps 1 s)
     else if areaOk s c v.a (areaSize h.warps h.r h.tiles) 2 = false then .ok (answered x ps 2 s)
     else .held (ps.foldl (fun s u => s.hold u .save) (saveBegun c (saveOf x ps v) s'))) := by
  have hs' := saving_saveChecks s (ps.headD 0) (coreOfThread (ps.headD 0))
  rw [hs] at hs'
  have hok := areaOk_saveChecks s (ps.headD 0)
  unfold saveChecks at hs' hok ⊢
  simp only [ctxsSub, hg, hs', hok, Option.isSome_none, Bool.false_eq_true, if_false, Bool.not_eq_true']
  rfl

end

/-! ### CTXR (R399) -/

/-- The cohort of core `c` has left its launch, and the one that is restored takes the core. -/
def restoreReady (s : State) (c : Nat) : State :=
  (leaveLaunch (reclaimCore s c) (s.cohort c) (dieOfCore c)).modCore c fun k => { k with cohort := some (s.cohort c) }

section
variable {x : Ins} {ps : List Nat} {s : State} {v : Vals} (hg : gather s x (ps.headD 0) = .vals v)
include hg

theorem ctxrSub_unusable (ha : areaOk s (coreOfThread (ps.headD 0)) v.a 0x108 1 = false) :
    ctxrSub x ps s = .ok (answered x ps 5 s) := by
  simp only [ctxrSub, hg, ha, Bool.not_false, if_true]
  rfl

variable (ha : areaOk s (coreOfThread (ps.headD 0)) v.a 0x108 1 = true)
include ha

theorem ctxrSub_noArea
    (hh : fieldAt (areaGet s (coreOfThread (ps.headD 0)) v.a 0x108) 0 4 ≠ 0x464C5331 ∨
      fieldAt (areaGet s (coreOfThread (ps.headD 0)) v.a 0x108) 4 4 ≠ 0x10000) :
    ctxrSub x ps s = .ok (answered x ps 1 s) := by
  simp only [ctxrSub, hg, ha, Bool.not_true, Bool.false_eq_true, if_false, if_pos hh]
  rfl

theorem ctxrSub_restores {key : Nat} {sv : Saved}
    (hmagic : fieldAt (areaGet s (coreOfThread (ps.headD 0)) v.a 0x108) 0 4 = 0x464C5331)
    (hversion : fieldAt (areaGet s (coreOfThread (ps.headD 0)) v.a 0x108) 4 4 = 0x10000)
    (hkey : fieldAt (areaGet s (coreOfThread (ps.headD 0)) v.a 0x108) 0x100 8 = key)
    (hfind : s.saved.find? (fun e => e.1 = key) = some (key, sv))
    (hsize : areaOk s (coreOfThread (ps.headD 0)) v.a (fieldAt (areaGet s (coreOfThread (ps.headD 0)) v.a 0x108) 0x18 8) 1 = true)
    (hdie : dieOfCore sv.core = dieOfCore (coreOfThread (ps.headD 0)))
    (hbar : sv.core = coreOfThread (ps.headD 0) ∨ sv.coreState.bar = [])
    (hlive : asidLive s (pkgOfCore (coreOfThread (ps.headD 0))) sv.asid = true) :
    ctxrSub x ps s = .last (restore (restoreReady s (coreOfThread (ps.headD 0))) (coreOfThread (ps.headD 0)) key sv v.a) := by
  have hb : ¬(sv.core ≠ coreOfThread (ps.headD 0) ∧ (!sv.coreState.bar.isEmpty) = true) := by
    rintro ⟨h, h'⟩
    rw [hbar.resolve_left h] at h'
    cases h'
  simp only [ctxrSub, hg, ha, hmagic, hversion, hkey, hfind, hsize, hdie, hlive, if_neg hb, Bool.not_true, Bool.false_eq_true, if_false, ne_eq,
    not_true_eq_false, or_self]
  rfl

end

/-- An instruction of the handler whose body answers `n` passes with it in D. -/
theorem passesAll_answered {i : Instr} {x : Ins} {ps : List Nat} {s : State} {body : List Nat → State → TOut} {n : Nat} (hu : x.f.u = false)
    (hd : x.f.d.toNat < 240) (hw : Whole s x ps) (hh : s.inHandler (ps.headD 0) = true) (he : exec i s = svSub x body s)
    (hb : body ps s = .ok (answered x ps n s)) :
    ∃ s1, PassesAll i x ps s s1 ∧ ∀ u ∈ ps, (s1.greg u x.f.d.toNat).v = BitVec.ofNat 32 n :=
  ⟨_, passesAll_of_ok hw (he.trans (svSub_eq ..)) ((svBody_inside hw body hh).trans hb), fun _ => answered_each n s hu hd⟩

/-- Settles O53: the outcomes of the three instructions by their operands and the area that they name. -/
theorem translationRemovalSaveAndRestore : Obligations.TranslationRemovalSaveAndRestore := by
  intro f s ps v t c d h hh
  refine ⟨?_, ?_, ?_⟩
  · intro x hx hw hg n hA hC hsc
    subst hx
    have hb := (svBody_inside hw (atciSub (Ins.ofBody .atci (.long f))) hh).trans (atciSub_asks hg (atciFault_aligned hA hC))
    obtain ⟨s', he, hsame, hthread⟩ := runs_of_held hw (show exec (.atci f) s = _ from rfl) hb
    have hseats : (removalAsked (Ins.ofBody .atci (.long f)) v t s).seats = s.seats := seats_askRemoval ..
    have hmem : (removalAsked (Ins.ofBody .atci (.long f)) v t s).memories = s.memories := memories_askRemoval ..
    refine ⟨s', he, s.nextId, removalOf (Ins.ofBody .atci (.long f)) v t s.nextId, fun u hm => ⟨?_, ?_⟩, ?_, rfl, kind_eq f, rfl, rfl,
      rfl, rfl, fun u r => ?_, ?_⟩
    · rw [hthread]
      exact hold_holds (.inl hm)
    · rw [hthread, pc_holds]
      exact congrArg Thread.pc (thread_of_seats hseats u)
    · rw [hsame.agenda, (kept_holds ..).agenda]
      exact asks_own _ _ _ _ (List.mem_filter.2 ⟨mem_scopeDies hsc, by simp⟩)
    · rw [hsame.greg u r id, (kept_holds ..).greg u r id, greg_of_seats hseats]
    · rw [hsame.mem, (kept_holds ..).mem]
      exact congrArg (·.1) hmem
  · intro x hx hu hd hw hg hs
    subst hx
    have heq := ctxsSub_eq hg hs
    refine ⟨fun ha => passesAll_answered hu hd hw hh rfl (heq.trans (if_pos ha)),
      fun ha hok => passesAll_answered hu hd hw hh rfl (heq.trans ((if_neg fun e => e ha).trans (if_pos hok))), fun ha hok => ?_⟩
    have hb := heq.trans ((if_neg fun e => e ha).trans (if_neg fun e => Bool.false_ne_true (e.symm.trans hok)))
    obtain ⟨s', he, hsame, hthread⟩ := runs_of_held hw (show exec (.ctxs f) s = _ from rfl) ((svBody_inside hw _ hh).trans hb)
    refine ⟨s', he, ?_, fun u hm => ?_, fun u r => ?_, ?_⟩
    · rw [(congrArg Core.saving (hsame.core c) :), (congrArg Core.saving ((kept_holds ..).core c) :)]
      exact saving_saveBegun ..
    · rw [hthread]
      exact hold_holds (.inl hm)
    · rw [hsame.greg u r id, (kept_holds ..).greg u r id]
      exact greg_of_seats ((seats_saveBegun ..).trans (seats_saveChecks ..)) u r
    · rw [hsame.mem, (kept_holds ..).mem]
      exact (mem_saveBegun ..).trans (mem_saveChecks ..)
  · intro x hx hu hd hw hg
    subst hx
    refine ⟨fun ha => passesAll_answered hu hd hw hh rfl (ctxrSub_unusable hg ha),
      fun ha hno => passesAll_answered hu hd hw hh rfl (ctxrSub_noArea hg ha hno), ?_⟩
    intro key sv ha hmagic hversion hkey hfind hsize hplace hlive
    have hdie : dieOfCore sv.core = d := hplace.elim (congrArg dieOfCore) And.left
    exact runs_of_last hw (show exec (.ctxr f) s = _ from rfl) ((svBody_inside hw _ hh).trans
      (ctxrSub_restores hg ha hmagic hversion hkey hfind hsize hdie (hplace.imp id And.right) hlive))

end Sys2Proof.Machine
end

