-- ==== Sys2Proof/Proofs/RankTables.lean ====
section
/-! PROOFS. RGSET (R331, R332; O48): the reads of an engine leave every core its cohort, and what the table gives. -/

namespace Sys2Proof.Machine

/-! ### What the reads of an engine leave of the cores -/

@[simp] theorem cores_send (s : State) (src dst vc base : Nat) (own : Bool) (e : Ev) : (send s src dst vc base own e).cores = s.cores := by
  simp [send, cores_ite, State.fresh]

@[simp] theorem cores_sendReq (s : State) (src dst : Nat) (e : Ev) : (sendReq s src dst e).cores = s.cores := by simp [sendReq]

@[simp] theorem cores_raise (s : State) (d : Nat) (r : EvRec) : (s.raise d r).cores = s.cores := by simp [State.raise, cores_ite]

@[simp] theorem cores_countCorrected (s : State) (line : Nat) : (countCorrected s line).cores = s.cores := by
  simp [countCorrected, cores_ite]

@[simp] theorem cores_countBad (s : State) (line : Nat) : (countBad s line).cores = s.cores := by simp [countBad, countUe]

@[simp] theorem cores_applyResidue (s : State) (line : Nat) (es : List (Nat × Byte)) : (applyResidue s line es).cores = s.cores :=
  foldl_keeps State.cores (fun s e => by simp [cores_ite]) es s

@[simp] theorem cores_takeFix (s : State) (line : Nat) (es fix : List (Nat × Byte)) : (takeFix s line es fix).cores = s.cores := by
  simp [takeFix, cores_ite]

@[simp] theorem cores_rdcDecode (s : State) (line : Nat) : (rdcDecode s line).cores = s.cores := by
  fun_cases rdcDecode s line <;> simp [rdcDrop]

@[simp] theorem cores_rdcGet (s : State) (d pa : Nat) : (rdcGet s d pa).1.cores = s.cores := by
  unfold rdcGet
  split
  · rfl
  · exact foldl_keeps State.cores (fun s l => cores_rdcDecode s l) _ s

@[simp] theorem cores_toAgent (s : State) (id : Nat) : (toAgent s id).cores = s.cores := by simp [toAgent, cores_ite]

section
variable (c : Nat)

theorem cohort_of_cores {s s' : State} (h : s'.cores = s.cores) : s'.cohort c = s.cohort c := by
  simp only [State.cohort, State.core, h]

theorem cohort_modCore {g : Core → Core} (hg : ∀ k, (g k).cohort = k.cohort) (s : State) (k : Nat) : (s.modCore k g).cohort c = s.cohort c := by
  simp only [State.cohort, State.core_modCore]
  split
  next h => rw [hg, h]
  · rfl

theorem cohort_ite (p : Prop) [Decidable p] (s t : State) : (if p then s else t).cohort c = if p then s.cohort c else t.cohort c :=
  apply_ite (State.cohort · c) p s t

theorem cohort_pmcAdd (s : State) (k sel n : Nat) : (pmcAdd s k sel n).cohort c = s.cohort c := cohort_modCore c (by intro; rfl) s k

theorem cohort_toAgent (s : State) (id : Nat) : (toAgent s id).cohort c = s.cohort c := cohort_of_cores c (cores_toAgent s id)

theorem cohort_sendReq (s : State) (src dst : Nat) (e : Ev) : (sendReq s src dst e).cohort c = s.cohort c :=
  cohort_of_cores c (cores_sendReq s src dst e)

theorem cohort_rdcGet (s : State) (d pa : Nat) : (rdcGet s d pa).1.cohort c = s.cohort c := cohort_of_cores c (cores_rdcGet s d pa)

theorem cohort_takeNow (s : State) (id v n : Nat) : (takeNow s id v n).cohort c = s.cohort c := rfl

theorem cohort_chooseBelow (s : State) (n : Nat) : (s.chooseBelow n).2.cohort c = s.cohort c := rfl

/-- An access on its way leaves every core its cohort. -/
theorem cohort_launchReq (s : State) (id : Nat) : (launchReq s id).cohort c = s.cohort c := by
  have hl1 (s : State) (core pa : Nat) (x : L1Sector) :
      (s.modCore core fun c => { c with l1 := kvSet c.l1 (sectorOf pa) x }).cohort c = s.cohort c := cohort_modCore c (by intro; rfl) s core
  fun_cases launchReq s id
  case case8 e _ e' => simp +zetaDelta [snd_eq e', fst_eq e, cohort_ite, cohort_pmcAdd, cohort_takeNow, cohort_chooseBelow, cohort_rdcGet]
  case case9 e _ _ e' _ => simp +zetaDelta [snd_eq e', fst_eq e, cohort_ite, cohort_pmcAdd, cohort_toAgent, cohort_chooseBelow, cohort_rdcGet]
  case case10 e => simp +zetaDelta [fst_eq e, cohort_ite, cohort_pmcAdd, cohort_toAgent, cohort_rdcGet]
  all_goals simp +zetaDelta [cohort_ite, cohort_pmcAdd, cohort_toAgent, cohort_sendReq, cohort_takeNow, hl1]

theorem cohort_postRead (s : State) (d cls pa : Nat) : (postRead s d cls pa).cohort c = s.cohort c := by
  unfold postRead readFor
  split
  · rfl
  · exact cohort_launchReq c _ _

end

/-- The registers, the warps and the cohorts of `s` are those of `s'`. -/
def Seated (s s' : State) : Prop := s'.seats = s.seats ∧ ∀ c, s'.cohort c = s.cohort c

theorem Seated.refl (s : State) : Seated s s := ⟨rfl, fun _ => rfl⟩

theorem Seated.trans {s s1 s2 : State} (h : Seated s s1) (h' : Seated s1 s2) : Seated s s2 :=
  ⟨h'.1.trans h.1, fun c => (h'.2 c).trans (h.2 c)⟩

theorem seated_readSector (s : State) (d : Nat) (q : Place) (n : Nat) : Seated s (readSector s d q n).1 := by
  have hread := And.intro (seats_postRead s d q.cls q.pa) fun c => cohort_postRead c s d q.cls q.pa
  fun_cases readSector s d q n
  case case3 | case4 => exact hread
  all_goals exact .refl s

theorem seated_readRange (p : Op) (fuel : Nat) (s : State) (va n : Nat) : Seated s (readRange s p fuel va n).1 := by
  induction fuel generalizing s va n with
  | zero => exact .refl s
  | succ fuel ih =>
    unfold readRange
    split
    · exact .refl s
    · refine Seated.trans ?_ (ih ..)
      split
      · exact seated_readSector ..
      · exact .refl s

theorem seated_readBytes (s : State) (p : Op) (va : Dword) (n : Nat) : Seated s (readBytes s p va n).1 := seated_readRange ..

/-! ### RGSET (R332) -/

/-- The operation in whose name the table is read: its first pages are those of the place `q` of the address. -/
def headOp (s : State) (t : Nat) (a : Dword) (q : Place) : Op :=
  { opOf s t .rgset 3 with trans := [{ vbase := a.toNat, size := 8, pbase := q.pa, cls := q.cls }] }

/-- The first eight bytes of the table, which give the number of its ranks. -/
def headRead (s : State) (t : Nat) (a : Dword) (q : Place) : State × List (Option Byte) × ReadFail := readBytes s (headOp s t a q) a 8

/-- The number of ranks that the first bytes of a table give. -/
def rankCount (head : List (Option Byte)) : Nat := min 512 ((byteAt head 0).getD 0 + 256 * (byteAt head 1).getD 0)

/-- The whole table, read from the pages `ts`. -/
def wholeRead (s : State) (t : Nat) (a : Dword) (q : Place) (ts : List Trans) : State × List (Option Byte) × ReadFail :=
  readBytes (headRead s t a q).1 { headOp s t a q with trans := ts } a (8 + 4 * rankCount (headRead s t a q).2.1)

/-- The state in which the table is judged: it has been read, and binding slots that nothing needs are freed. -/
def judged (s : State) (t : Nat) (a : Dword) (q : Place) (ts : List Trans) : State :=
  freeBinds (wholeRead s t a q ts).1 (dieOfCore (coreOfThread t))

theorem seated_freeBinds (s : State) (d : Nat) : Seated s (freeBinds s d) := ⟨rfl, fun _ => rfl⟩

theorem seated_judged (s : State) (t : Nat) (a : Dword) (q : Place) (ts : List Trans) : Seated s (judged s t a q ts) := by
  unfold judged wholeRead headRead
  exact ((seated_readBytes ..).trans (seated_readBytes ..)).trans (seated_freeBinds ..)

/-- The request of the RGSET `x` of thread `t`, which binds its group by the table `l` at `a`. -/
def bindReq (x : Ins) (t : Nat) (a : Dword) (l : List Byte) (s : State) : Req :=
  { reqBase x s t .rgset with va := a, stage := 1, op := x.ifld 0 4, fo := x.mb 0, data := l }

/-- The number of ranks `n`, as it lands for thread `u`. -/
def rankLanding (x : Ins) (id n : Nat) (epoch : BitVec 16) (u : Nat) : Landing :=
  { thread := u, reg := x.f.d.toNat, n := 1, tag := id, value := BitVec.ofNat 128 n, epoch := epoch, req := 0 }

/-- A thread is made to await the number of ranks, which lands after `wait` clks. -/
def awaitRank (x : Ins) (id wait n : Nat) (epoch : BitVec 16) (s : State) (u : Nat) : State :=
  (s.emptyG u x.f.d.toNat id 1).post wait (.producerLanding (rankLanding x id n epoch u))

/-- The threads `ps` await the number of ranks. -/
def awaitRanks (x : Ins) (ps : List Nat) (id wait n : Nat) (epoch : BitVec 16) (s : State) : State :=
  ps.foldl (fun s u => awaitRank x id wait n epoch s u) s

/-- The landing at which the group of the request `r` is bound. -/
def bindLanding (r : Req) (id : Nat) : Landing := { landingOf r id with n := 0 }

/-- The group is asked for in the state `s`, and takes effect in the clk after the landings. -/
def rankBound (x : Ins) (ps : List Nat) (a : Dword) (l : List Byte) (wait n : Nat) (s : State) : State :=
  let r := bindReq x (ps.headD 0) a l s.fresh.2
  (awaitRanks x ps s.nextId wait n r.epoch { s.fresh.2 with reqs := kvSet s.fresh.2.reqs s.nextId r }).post (wait + 1)
    (.producerLanding (bindLanding r s.nextId))

/-- The clks after which the number of ranks of the table lands. -/
def tableWait (s : State) (t : Nat) (a : Dword) (q : Place) (ts : List Trans) : Nat := srcClk (judged s t a q ts) (headOp s t a q) (some q)

/-- The group of the RGSET `x` is bound by its table, of `n` ranks. -/
def tableBound (x : Ins) (ps : List Nat) (a : Dword) (q : Place) (ts : List Trans) (n : Nat) (s : State) : State :=
  rankBound x ps a ((wholeRead s (ps.headD 0) a q ts).2.1.map (·.getD 0)) (tableWait s (ps.headD 0) a q ts) n (judged s (ps.headD 0) a q ts)

/-- The RGSET `x` of the threads `ps`, with operands `v`, reads every byte of its table, which no earlier access of its own still writes: the
address lies at `q`, the table in the pages `ts`. -/
structure ReadsTable (x : Ins) (ps : List Nat) (v : Vals) (q : Place) (ts : List Trans) (s : State) : Prop where
  operands : gather s x (ps.headD 0) = .vals v
  place : checkXlate s (coreOfThread (ps.headD 0)) (BitVec.ofNat 64 v.a) 8 1 = .ok q
  own : ownWrite s (ps.headD 0) (headOp s (ps.headD 0) (BitVec.ofNat 64 v.a) q).trans = none
  pages : rangePages (headRead s (ps.headD 0) (BitVec.ofNat 64 v.a) q).1 (headOp s (ps.headD 0) (BitVec.ofNat 64 v.a) q)
      [((BitVec.ofNat 64 v.a).toNat, 8 + 4 * rankCount (headRead s (ps.headD 0) (BitVec.ofNat 64 v.a) q).2.1, 1)] = .inr ts
  ownAll : ownWrite (headRead s (ps.headD 0) (BitVec.ofNat 64 v.a) q).1 (ps.headD 0) ts = none
  bytes : ∀ b ∈ (wholeRead s (ps.headD 0) (BitVec.ofNat 64 v.a) q ts).2.1, b.isSome = true

theorem any_isNone {l : List (Option Byte)} (h : ∀ b ∈ l, b.isSome = true) : (l.any (·.isNone)) = false := by
  rw [List.any_eq_false]
  exact fun b hb hn => Option.isSome_iff_ne_none.1 (h b hb) (Option.isNone_iff_eq_none.1 hn)

section
variable {x : Ins} {ps : List Nat} {s : State} {v : Vals} {q : Place} {ts : List Trans} (h : ReadsTable x ps v q ts s)
include h

/-- A table that is not valid raises RG. -/
theorem rgsetSub_invalid
    (ht : tableOf (judged s (ps.headD 0) (BitVec.ofNat 64 v.a) q ts).domain
      ((wholeRead s (ps.headD 0) (BitVec.ofNat 64 v.a) q ts).2.1.map (·.getD 0)) = none) :
    rgsetSub x ps s = .fault 25 0 0 (judged s (ps.headD 0) (BitVec.ofNat 64 v.a) q ts) := by
  obtain ⟨hg, hq, hown, hpages, hown', hbytes⟩ := h
  have hall := any_isNone hbytes
  simp only [judged, wholeRead, headRead, rankCount, headOp] at hown hpages hown' hall ht ⊢
  simp only [rgsetSub, hg, hq, hown, hpages, hown', hall, ht, Bool.false_eq_true, if_false]

variable {ver : Nat} {dies : List Nat}
  (ht : tableOf (judged s (ps.headD 0) (BitVec.ofNat 64 v.a) q ts).domain
      ((wholeRead s (ps.headD 0) (BitVec.ofNat 64 v.a) q ts).2.1.map (·.getD 0)) = some (ver, dies))
include ht

/-- A table that does not name the issuing die raises RG. -/
theorem rgsetSub_foreign (hd : dieOfCore (coreOfThread (ps.headD 0)) ∉ dies) :
    rgsetSub x ps s = .fault 25 0 0 (judged s (ps.headD 0) (BitVec.ofNat 64 v.a) q ts) := by
  obtain ⟨hg, hq, hown, hpages, hown', hbytes⟩ := h
  have hall := any_isNone hbytes
  have hdies : dies.contains (dieOfCore (coreOfThread (ps.headD 0))) = false := by simpa using hd
  simp only [judged, wholeRead, headRead, rankCount, headOp] at hown hpages hown' hall ht ⊢
  simp only [rgsetSub, hg, hq, hown, hpages, hown', hall, ht, hdies, Bool.false_eq_true, if_false, Bool.not_false, if_true]

/-- A table that names the die binds the group to a free slot. -/
theorem rgsetSub_binds (hd : dieOfCore (coreOfThread (ps.headD 0)) ∈ dies)
    (hfree : bindOf (judged s (ps.headD 0) (BitVec.ofNat 64 v.a) q ts) (dieOfCore (coreOfThread (ps.headD 0)))
        (headOp s (ps.headD 0) (BitVec.ofNat 64 v.a) q).asid (x.ifld 0 4) = none ∧
      ((judged s (ps.headD 0) (BitVec.ofNat 64 v.a) q ts).die (dieOfCore (coreOfThread (ps.headD 0)))).binds.length < 64) :
    rgsetSub x ps s = .ok (tableBound x ps (BitVec.ofNat 64 v.a) q ts dies.length s) := by
  obtain ⟨hg, hq, hown, hpages, hown', hbytes⟩ := h
  obtain ⟨hnone, hroom⟩ := hfree
  have hall := any_isNone hbytes
  have hdies : dies.contains (dieOfCore (coreOfThread (ps.headD 0))) = true := by simpa using hd
  have hfull := Nat.not_le.2 hroom
  simp only [tableBound, tableWait, judged, wholeRead, headRead, rankCount, headOp] at hown hpages hown' hall ht hnone hfull ⊢
  simp only [rgsetSub, hg, hq, hown, hpages, hown', hall, ht, hdies, hnone, hfull, Bool.false_eq_true, if_false, Bool.not_true,
    decide_false, Bool.and_false, Bool.false_and, rankBound, awaitRanks, awaitRank, rankLanding, bindLanding,
    bindReq, State.fresh]

/-- A table that names the die and agrees with the binding of the group binds it again. -/
theorem rgsetSub_rebinds (hd : dieOfCore (coreOfThread (ps.headD 0)) ∈ dies) {b : RingBind}
    (hb : bindOf (judged s (ps.headD 0) (BitVec.ofNat 64 v.a) q ts) (dieOfCore (coreOfThread (ps.headD 0)))
        (headOp s (ps.headD 0) (BitVec.ofNat 64 v.a) q).asid (x.ifld 0 4) = some b) (hver : b.version = ver) (hranks : b.ranks = dies) :
    rgsetSub x ps s = .ok (tableBound x ps (BitVec.ofNat 64 v.a) q ts dies.length s) := by
  obtain ⟨hg, hq, hown, hpages, hown', hbytes⟩ := h
  have hall := any_isNone hbytes
  have hdies : dies.contains (dieOfCore (coreOfThread (ps.headD 0))) = true := by simpa using hd
  have hsame : decide (b.version ≠ ver ∨ b.ranks ≠ dies) = false := by simp [hver, hranks]
  simp only [tableBound, tableWait, judged, wholeRead, headRead, rankCount, headOp] at hown hpages hown' hall ht hb ⊢
  simp only [rgsetSub, hg, hq, hown, hpages, hown', hall, ht, hdies, hb, hsame, Bool.false_eq_true, if_false, Bool.not_true,
    Option.isNone_some, Bool.false_and, rankBound, awaitRanks, awaitRank, rankLanding, bindLanding,
    bindReq, State.fresh]

end

/-! ### What the threads await -/

/-- Thread `u` awaits the number of ranks `n` in D under the tag `id`, which lands in clk `due`. -/
def AwaitsRanks (x : Ins) (id due n u : Nat) (s : State) : Prop :=
  (s.greg u x.f.d.toNat).full = false ∧ (s.greg u x.f.d.toNat).tag = id ∧
    ∃ l, (due, .producerLanding l) ∈ s.agenda ∧ l.thread = u ∧ l.reg = x.f.d.toNat ∧ l.tag = id ∧ l.value = BitVec.ofNat 128 n

section
variable (x : Ins) (id wait n : Nat) (epoch : BitVec 16)

theorem rest_awaitRank (s : State) (u : Nat) :
    (awaitRank x id wait n epoch s u).clk = s.clk ∧ (awaitRank x id wait n epoch s u).reqs = s.reqs ∧
      ∀ e ∈ s.agenda, e ∈ (awaitRank x id wait n epoch s u).agenda := by
  have h := noThreads_emptyG s u x.f.d.toNat id 1
  have ha : (s.emptyG u x.f.d.toNat id 1).agenda = s.agenda := (congrArg State.agenda h :)
  exact ⟨(congrArg State.clk h :), (congrArg State.reqs h :), fun e he => mem_agendaInsert_of_mem (ha.symm ▸ he)⟩

theorem greg_awaitRank (s : State) (u w r : Nat) : (awaitRank x id wait n epoch s u).greg w r =
    if w = u ∧ x.f.d.toNat ≤ r ∧ r < x.f.d.toNat + 1 then { s.greg w r with full := false, tag := id } else s.greg w r :=
  greg_emptyG ..

theorem awaitsRanks_own (s : State) (u : Nat) : AwaitsRanks x id (s.clk + wait) n u (awaitRank x id wait n epoch s u) := by
  have h := (greg_awaitRank x id wait n epoch s u u x.f.d.toNat).trans (if_pos ⟨rfl, Nat.le_refl _, Nat.lt_succ_self _⟩)
  refine ⟨congrArg GReg.full h, congrArg GReg.tag h, rankLanding x id n epoch u, ?_, rfl, rfl, rfl, rfl⟩
  exact clk_emptyG s u x.f.d.toNat id 1 ▸ mem_agenda_posted ..

theorem AwaitsRanks.other {x : Ins} {id due n u w : Nat} {s : State} (h : AwaitsRanks x id due n u s) (hw : w ≠ u) :
    AwaitsRanks x id due n u (awaitRank x id wait n epoch s w) := by
  obtain ⟨hfull, htag, l, hmem, hl⟩ := h
  have hg := (greg_awaitRank x id wait n epoch s w u x.f.d.toNat).trans (if_neg fun e => hw e.1.symm)
  exact ⟨hg ▸ hfull, hg ▸ htag, l, (rest_awaitRank ..).2.2 _ hmem, hl⟩

theorem clk_awaitRanks (ps : List Nat) (s : State) : (awaitRanks x ps id wait n epoch s).clk = s.clk :=
  foldl_keeps State.clk (fun s u => (rest_awaitRank x id wait n epoch s u).1) ps s

theorem reqs_awaitRanks (ps : List Nat) (s : State) : (awaitRanks x ps id wait n epoch s).reqs = s.reqs :=
  foldl_keeps State.reqs (fun s u => (rest_awaitRank x id wait n epoch s u).2.1) ps s

theorem awaitsRanks_each {ps : List Nat} {u : Nat} (hu : u ∈ ps) (s : State) :
    AwaitsRanks x id (s.clk + wait) n u (awaitRanks x ps id wait n epoch s) := by
  have h := foldl_zipIdx_each (f := fun s p => awaitRank x id wait n epoch s p.1)
    (Q := fun s' => s'.clk = s.clk → AwaitsRanks x id (s.clk + wait) n u s')
    (fun s' _ hc => by
      rw [← (rest_awaitRank x id wait n epoch s' u).1.symm.trans hc]
      exact awaitsRanks_own ..)
    (fun s' p hp hq hc => (hq ((rest_awaitRank ..).1.symm.trans hc)).other wait epoch hp) hu 0 s
  rw [← List.foldl_map (f := Prod.fst) (g := awaitRank x id wait n epoch), List.zipIdx_map_fst] at h
  exact h (clk_awaitRanks ..)

end

/-- The threads await the number of ranks, and the binding follows in the next clk. -/
theorem rankBound_lands (x : Ins) (ps : List Nat) (a : Dword) (l : List Byte) (wait n : Nat) (s : State) :
    (∀ u ∈ ps, AwaitsRanks x s.nextId (s.clk + wait) n u (rankBound x ps a l wait n s)) ∧
      (∃ l', (s.clk + wait + 1, .producerLanding l') ∈ (rankBound x ps a l wait n s).agenda ∧ l'.req = s.nextId) ∧
      (rankBound x ps a l wait n s).req s.nextId = bindReq x (ps.headD 0) a l s.fresh.2 := by
  have hclk := clk_awaitRanks x s.nextId wait n (bindReq x (ps.headD 0) a l s.fresh.2).epoch ps
    { s.fresh.2 with reqs := kvSet s.fresh.2.reqs s.nextId (bindReq x (ps.headD 0) a l s.fresh.2) }
  have hreqs := reqs_awaitRanks x s.nextId wait n (bindReq x (ps.headD 0) a l s.fresh.2).epoch ps
    { s.fresh.2 with reqs := kvSet s.fresh.2.reqs s.nextId (bindReq x (ps.headD 0) a l s.fresh.2) }
  refine ⟨fun u hu => ?_, ⟨bindLanding (bindReq x (ps.headD 0) a l s.fresh.2) s.nextId, ?_, rfl⟩, ?_⟩
  · obtain ⟨hfull, htag, l', hmem, hl⟩ := awaitsRanks_each x s.nextId wait n (bindReq x (ps.headD 0) a l s.fresh.2).epoch hu
      { s.fresh.2 with reqs := kvSet s.fresh.2.reqs s.nextId (bindReq x (ps.headD 0) a l s.fresh.2) }
    exact ⟨hfull, htag, l', mem_agendaInsert_of_mem hmem, hl⟩
  · rw [show s.clk + wait + 1 = s.clk + (wait + 1) from rfl]
    exact (hclk : _ = s.clk) ▸ mem_agenda_posted ..
  · exact (congrArg (kvGet {} · s.nextId) hreqs).trans (kvGet_kvSet_same ..)

/-- An RGSET that raises RG once its table is read traps in a warp that runs no handler. -/
theorem rgset_traps {f : Long} {s : State} {ps : List Nat} {v : Vals} {q : Place} {ts : List Trans}
    (hw : Whole s (Ins.ofBody .rgset (.long f)) ps)
    (hb : rgsetSub (Ins.ofBody .rgset (.long f)) ps s = .fault 25 0 0 (judged s (ps.headD 0) (BitVec.ofNat 64 v.a) q ts))
    (hh : (s.warp (ps.headD 0 / 32)).handler = none) (hc : (s.cohort (coreOfThread (ps.headD 0))).ctx.handler ≠ 0) :
    Runs (.rgset f) s fun s' => (s'.warp (ps.headD 0 / 32)).xcause = BitVec.ofNat 32 (ps.headD 0 % 32 * 2 ^ 8 + 25) ∧
      (s'.warp (ps.headD 0 / 32)).m = [] ∧ ∀ u r, s'.greg u r = s.greg u r := by
  obtain ⟨hseats, hcohort⟩ := seated_judged s (ps.headD 0) (BitVec.ofNat 64 v.a) q ts
  have hh' := (congrArg Warp.handler (warp_of_seats hseats (ps.headD 0 / 32))).trans hh
  obtain ⟨s', he, r, hr, htr⟩ := trapsOn_of_subFault hw (show exec (.rgset f) s = _ from rfl) hb hh' ((hcohort _).symm ▸ hc)
  refine ⟨s', he, htr.xcause.trans ?_, htr.m, fun u r => (htr.greg u r).trans (greg_of_seats hseats u r)⟩
  rw [Nat.zero_mul, Nat.zero_add]

/-- Settles O48: the table is read and judged, and what it gives is bound or refused. -/
theorem rgsetReadsTheRankTable : Obligations.RgsetReadsTheRankTable := by
  intro f s ps v q ts x t core d a p r1 n r2 s2 g hw hg hq hown hpages hown' hbytes traps
  have h : ReadsTable x ps v q ts s := ⟨hg, hq, hown, hpages, hown', hbytes⟩
  have ht : t = ps.headD 0 := rfl
  have hcore : core = coreOfThread (ps.headD 0) := rfl
  have hd : d = dieOfCore (coreOfThread (ps.headD 0)) := rfl
  have ha : a = BitVec.ofNat 64 v.a := rfl
  have hp : p = headOp s (ps.headD 0) (BitVec.ofNat 64 v.a) q := rfl
  have hr2 : r2 = wholeRead s (ps.headD 0) (BitVec.ofNat 64 v.a) q ts := rfl
  have hs2 : s2 = judged s (ps.headD 0) (BitVec.ofNat 64 v.a) q ts := rfl
  clear_value s2 r2 n r1 p a d core t
  subst ht hcore hd ha hp hr2 hs2
  refine ⟨fun ht => rgset_traps hw (rgsetSub_invalid h ht),
    fun ver dies ht => ⟨fun hd => rgset_traps hw (rgsetSub_foreign h ht hd), fun hd hb => ?_⟩⟩
  have hbind : rgsetSub x ps s = .ok (tableBound x ps (BitVec.ofNat 64 v.a) q ts dies.length s) := by
    rcases hb with hfree | ⟨b, hb, hver, hranks⟩
    · exact rgsetSub_binds h ht hd hfree
    · exact rgsetSub_rebinds h ht hd hb hver hranks
  obtain ⟨hall, ⟨l, hl, hreq⟩, hr⟩ := rankBound_lands x ps (BitVec.ofNat 64 v.a) _ (tableWait s (ps.headD 0) (BitVec.ofNat 64 v.a) q ts)
    dies.length (judged s (ps.headD 0) (BitVec.ofNat 64 v.a) q ts)
  refine ⟨_, _, _, passesAll_of_ok hw (show exec (.rgset f) s = _ from rfl) hbind, hall, l, hl, hreq, ?_⟩
  rw [tableBound, hr]
  exact ⟨rfl, rfl, rfl⟩

end Sys2Proof.Machine
end
